-- ==== Sys2Proof/Word.lean ====
section
/-! DEFINITION. The word types of the PX9-4A (spec 00_scope.md R1, R7) and their plainest arithmetic. -/

namespace Sys2Proof

/-- One byte of memory. -/
abbrev Byte := BitVec 8
/-- A 32-bit register word. -/
abbrev Word := BitVec 32
/-- A 64-bit register pair. -/
abbrev DWord := BitVec 64
/-- A 128-bit register quad. -/
abbrev QWord := BitVec 128
/-- A 52-bit program counter or virtual address (R22, R187). -/
abbrev VAddr := BitVec 52

/-- The pair vNd: word N in bits [31:0], word N+1 in bits [63:32] (R113). -/
def pairOf (lo hi : Word) : DWord := hi ++ lo

/-- The quad vNq, word N least significant (R113). -/
def quadOf (w0 w1 w2 w3 : Word) : QWord := w3 ++ w2 ++ w1 ++ w0

/-- Bits [hi:lo] of a natural number (R11). -/
def bitsOf (x hi lo : Nat) : Nat := x / 2 ^ lo % 2 ^ (hi + 1 - lo)

/-- `true` as 1, `false` as 0. -/
def bit (b : Bool) : Nat := if b then 1 else 0

end Sys2Proof
end

