-- ==== Sys2Proof/Machine/Inputs.lean ====
section
/-! DEFINITION. What the events that come from outside a squad carry: fabric replies and requests, messages, collective signatures, host register names, firmware bundles, ECC errors. -/

namespace Sys2Proof

/-- The class a word is decoded in: the clause classes of R34, and the copy engine's own words (R286). -/
inductive Cls where
  | ctl
  | vec
  | mem
  | mat
  | xfr
  | sys
  | ce
  deriving DecidableEq, Repr

/-- What a reply or an acknowledgement of a remote access says (R196). -/
inductive RemoteStatus where
  | ok
  | poison
  /-- No route, or the device is not in the domain (subcode 1). -/
  | noRoute
  /-- The address is not granted to the context (subcode 2). -/
  | refused
  /-- A range or protection failure at the target (subcode 4). -/
  | range
  deriving DecidableEq, Repr

/-- A message as it reaches a receive engine (R300): source device, context, tag, sequence number, element width in bits and payload rows of element codes. -/
structure Message where
  src : Nat
  ctx : BitVec 16
  tag : BitVec 32
  seq : BitVec 16
  ebits : Nat
  rows : List (List (BitVec 64))
  deriving DecidableEq, Repr

/-- Why a delivery cannot finish (R311). -/
inductive DeliveryEnd where
  /-- A landing fault firmware does not resolve, with its fault code. -/
  | landing (code : BitVec 8)
  | poison
  | sourceLost
  deriving DecidableEq, Repr

/-- A collective signature (R322). -/
structure Signature where
  count : Nat
  fmt : BitVec 5
  opr : BitVec 2
  contract : Nat
  hash : BitVec 32
  deriving DecidableEq, Repr

/-- The class of a core's 1,024-cycle interval (R357). -/
inductive Activity where
  | matrix
  | vector
  | memory
  | idle
  deriving DecidableEq, Repr

/-- The host registers whose write has no behaviour of its own (R377, R378), and DSTAT's W1C bit. -/
inductive HostReg where
  | dstat
  | tgrp
  | trade
  | tglist
  | winbase
  | fwmbox
  /-- A write to `EVCMD` whose operation code is neither set nor add. -/
  | evcmd
  | qbase (q : Nat)
  | qcomp (q : Nat)
  deriving DecidableEq, Repr

/-- One firmware image of a bundle: its digest, its signature and its security version (R371); the words it places in memory and the physical
address of the first of them, which is its first clause header (log entry 14). -/
structure FirmwareImage where
  digest : BitVec 256
  signature : List Byte
  version : Nat
  base : BitVec 52
  code : List Word
  deriving DecidableEq, Repr

/-- The firmware bundle of bring-up step 2, with what the later steps meet: the fuse record, by C-die and cluster site the working cores (R14), training digests, the domain's time, and the step that fails, if one
does, with its reason (R371, R381). -/
structure FirmwareBundle where
  root : FirmwareImage
  die : FirmwareImage
  power : FirmwareImage
  fuse : List (List (BitVec 4))
  hbm : BitVec 256
  fabric : BitVec 256
  alone : Bool
  failure : Option (Nat × BitVec 8)
  deriving DecidableEq, Repr

/-- An ECC or parity error (R186). -/
inductive EccError where
  | corrected
  /-- A parity error in an L1 data line of a core. -/
  | l1Parity (core line : Nat)
  /-- An uncorrectable error in a 128-byte line of memory. -/
  | line (line : Nat)
  /-- An uncorrectable error in a 32-byte unit of buffer `buf` (0 W, 1 A, 2 C, 3 S) of workgroup `w`. -/
  | unit (w buf unit : Nat)
  deriving DecidableEq, Repr

/-- What one device asks of another (R195). An atomic carries the vector-subnormals rule of its launch's contract, which `fadd` follows (R201). -/
inductive RemoteAccess where
  | load (size : Nat)
  | store (bytes : List Byte)
  | atom (op : BitVec 3) (ty : BitVec 5) (operand : BitVec 64) (flush : Bool)
  | cas (ty : BitVec 5) (cmp new : BitVec 64)
  deriving DecidableEq, Repr

/-- A request of one device for the memory of another (R195): its source, the context carried with it, the local address there. -/
structure RemoteRequest where
  src : Nat
  ctx : BitVec 16
  local40 : BitVec 41
  access : RemoteAccess
  deriving DecidableEq, Repr

/-- A communicator as the runtime sets it up (R316): `adverts` gives, per member, the contracts it supports (bit n = NC n). -/
structure CommEntry where
  id : BitVec 8
  ctx : BitVec 16
  members : List Nat
  adverts : List (BitVec 16)
  tempo : Bool
  timeout : BitVec 16
  deriving DecidableEq, Repr

/-- What firmware installs for a page request (R187, R191): the leaf, its level (0 or 1), and the 4 KiB frames it takes for the tables that are absent
on the way, the highest first. -/
structure PageGrant where
  leaf : BitVec 64
  level : Nat
  tables : List (BitVec 40)
  deriving DecidableEq, Repr

/-- What an event happens to, and what comes with it: numbers that name units (a workgroup, a squad, an operation, a link), values
written to registers, and what arrives from outside. An event whose argument has another shape than its meaning reads is not enabled. -/
inductive EventArg where
  | unit
  /-- Up to three units' numbers. -/
  | ids (i j k : Nat)
  /-- Unit `i`, value `v`. -/
  | value (i : Nat) (v : BitVec 64)
  | words (ws : List Word)
  | reply (k : Nat) (data : BitVec 128) (status : RemoteStatus)
  | message (msg : Message)
  /-- A send's final status byte and length (R304). -/
  | sendDone (k : Nat) (st : BitVec 8) (len : BitVec 32)
  | failure (k : Nat) (why : DeliveryEnd)
  | signature (k rank : Nat) (sig : Signature)
  | tiles (k : Nat) (tiles : List (Nat × List (BitVec 64)))
  | flit (link : Nat) (good : Bool)
  /-- A core's interval of 1,024 cycles (R357, R367): the cycles in which its matrix engine was occupied, VEC instructions issued, and a load or engine line
  request was outstanding; its estimated energy; and what of it the engines' work took, by workgroup that started it (log entry 76). -/
  | activity (core mat vec mem energy : Nat) (work : List (Nat × Nat))
  | nats (l : List Nat)
  | evcmd (ctx : BitVec 16) (e : BitVec 12) (v : Word)
  | host (r : HostReg) (v : BitVec 64)
  | window (off : Nat) (bytes : List Byte) (wr : Bool)
  | attest (nonce : BitVec 256) (mask : BitVec 16) (ctx : Option (BitVec 16))
  | kem (ctx : BitVec 16) (ct : List Byte)
  | measure (slot : Nat) (digest : BitVec 256)
  | bundle (b : FirmwareBundle)
  | page (k : Nat) (grant : Option PageGrant)
  | ecc (e : EccError)
  | request (r : RemoteRequest)
  | comm (c : CommEntry)
  deriving DecidableEq, Repr

end Sys2Proof
end

