-- ==== Sys2Proof/Config.lean ====
section
/-! DEFINITION. What the device fixes, the values the spec leaves free, and the cryptographic functions it names by standards. -/

namespace Sys2Proof.Config

/-- Free values (R5): word `i` of the `n`-th draw. Nothing is known of them (log entry 2). -/
opaque freeWord : Nat → Nat → BitVec 32
/-- A free choice between two outcomes that the rules allow: the `n`-th draw. -/
opaque freeChoice : Nat → Bool
/-- A free number, for choices among several: the `n`-th draw. -/
opaque freeNumber : Nat → Nat
/-- The byte a fresh granule holds at a placement, by its draw, space and offset (R179). -/
opaque freshByte : Nat → Nat → Nat → BitVec 8
/-- The byte of a line read under a wrong key, by the draw and the offset in the line (R193). -/
opaque wrongKeyByte : Nat → Nat → BitVec 8

/-- This device's number in its domain, 0 to 1,023 (R137, R183); the spec gives none (log entry 2). -/
opaque ownDeviceNumber : BitVec 10
def ownDevice : Nat := ownDeviceNumber.toNat
/-- Whether an HSS signature of Skovina Silicon over a digest verifies (R371). -/
opaque hssVerify : BitVec 256 → List (BitVec 8) → Bool
/-- What the device's private keys make (R369, R370): the top tree's signature of the lower tree of a counter value, that tree's public key, and its
signature with a leaf over a byte string. -/
opaque topSignature : Nat → BitVec (8 * 1772)
opaque lowerKey : Nat → BitVec (8 * 56)
opaque lowerSignature : Nat → Nat → List (BitVec 8) → BitVec (8 * 1452)
/-- The hash of the KEM public key of a boot (R372, R373). -/
opaque kemPublicHash : Nat → BitVec 256
/-- The secret that decapsulation of a ciphertext gives at a boot (R373). -/
opaque kemDecapsulate : Nat → List (BitVec 8) → BitVec 256
/-- The memory, launch and save keys of a context from a secret (R373). -/
opaque hkdf : BitVec 256 → Nat → BitVec 512 × BitVec 256 × BitVec 256
/-- The digest of the root processor's ROM and the fuse record (R371 slot 0). -/
opaque romDigest : BitVec 256
/-- The least security versions fused at manufacture, by measurement slot (R371). -/
opaque minVersion : Nat → Nat

/-- `NCAPM` (R150). -/
def ncapm : BitVec 64 := 0x0000000000214130
/-- `NCAPV` (R150). -/
def ncapv : BitVec 64 := 0x0000000000111110
/-- `FMTCAP` (R151). -/
def fmtcap : BitVec 32 := 0x000FFFFE
/-- Logical cores (R14, R19). -/
def cores : Nat := 512
/-- Places of a quarter's replay buffer (R330). -/
def replayPlaces : Nat := 64
/-- Entries of a frontier (R57). -/
def frontierSize : Nat := 64
/-- Sets and ways of a core's L1 data cache, 256 KiB in 128-byte lines, and of its L1 instruction cache, 64 KiB (R177, R178). -/
def l1dSets : Nat := 256
def l1dWays : Nat := 8
def l1iSets : Nat := 128
def l1iWays : Nat := 4
/-- Entries of a core's TLB, a section's and a C-die's (R190). -/
def tlbEntries : Nat → Nat
  | 0 => 128
  | _ => 2048
/-- Entries of a store queue (R175). -/
def storeQueueSize : Nat := 32
/-- The age of the starvation slot (R60, R62). -/
def starvation : Nat := 4096
/-- Cycles of partner wait before a convergence timeout (R70). -/
def partnerLimit : Nat := 65536
/-- Nanoseconds that the issue rate of a workgroup is taken over (R342). -/
def rateWindow : Nat := 10000
/-- Small operations outstanding per source towards each target (R300). -/
def window : Nat := 64

end Sys2Proof.Config
end

