-- ==== Sys2Proof/Machine/Crypto.lean ====
section
/-! DEFINITION. The cryptographic functions whose values the rules fix by standard: SHA-256 (R371) and the AES-256-GCM tag over authenticated data
(R374); and the form of an HSS signature (R369). -/

namespace Sys2Proof.Machine

/-! SHA-256 (FIPS 180-4). -/

/-- The first 64 primes. -/
def shaPrimes : List Nat :=
  [2, 3, 5, 7, 11, 13, 17, 19, 23, 29, 31, 37, 41, 43, 47, 53, 59, 61, 67, 71, 73, 79, 83, 89, 97, 101, 103, 107, 109, 113, 127, 131]
    ++ [137, 139, 149, 151, 157, 163, 167, 173, 179, 181, 191, 193, 197, 199, 211, 223, 227, 229, 233, 239, 241, 251, 257, 263, 269, 271, 277,
        281, 283, 293, 307, 311]

/-- The greatest `r` with r^k ≤ n, by bits from bit `b` down. -/
def rootFrom (k n : Nat) : Nat → Nat → Nat
  | 0, r => r
  | b + 1, r => rootFrom k n b (if (r + 2 ^ b) ^ k ≤ n then r + 2 ^ b else r)

/-- The first 32 bits of the fraction of a prime's square root, and of its cube root. -/
def shaH (p : Nat) : Word := BitVec.ofNat 32 (rootFrom 2 (p * 2 ^ 64) 37 0)
def shaK (p : Nat) : Word := BitVec.ofNat 32 (rootFrom 3 (p * 2 ^ 96) 35 0)

/-- The word of four bytes, the first highest, and its bytes. -/
def wordBe (l : List Byte) : Word := BitVec.ofNat 32 (l.foldl (fun n b => n * 256 + b.toNat) 0)
def bytesBe (n x : Nat) : List Byte := (List.range n).map (fun i => BitVec.ofNat 8 (x / 256 ^ (n - 1 - i)))

/-- Consecutive pieces of `n` elements, as many as the fuel. -/
def chunksOf {α : Type} (n : Nat) : Nat → List α → List (List α)
  | 0, _ => []
  | k + 1, l => if l.isEmpty then [] else l.take n :: chunksOf n k (l.drop n)

/-- A message padded to whole blocks of 64 bytes. -/
def shaPad (m : List Byte) : List Byte :=
  m ++ [0x80] ++ List.replicate ((119 - m.length % 64) % 64) 0 ++ bytesBe 8 (8 * m.length)

/-- The message schedule, `n` more words. -/
def shaSchedule : Nat → List Word → List Word
  | 0, w => w
  | n + 1, w =>
    let k := w.length
    let a := w.getD (k - 15) 0
    let b := w.getD (k - 2) 0
    let s0 := a.rotateRight 7 ^^^ a.rotateRight 18 ^^^ (a >>> 3)
    let s1 := b.rotateRight 17 ^^^ b.rotateRight 19 ^^^ (b >>> 10)
    shaSchedule n (w ++ [w.getD (k - 16) 0 + s0 + w.getD (k - 7) 0 + s1])

/-- One round on the eight working words; `t` is the round's constant and schedule word added. -/
def shaRound (v : List Word) (t : Word) : List Word :=
  let g := fun i => v.getD i 0
  let s1 := (g 4).rotateRight 6 ^^^ (g 4).rotateRight 11 ^^^ (g 4).rotateRight 25
  let t1 := g 7 + s1 + ((g 4 &&& g 5) ^^^ (~~~(g 4) &&& g 6)) + t
  let s0 := (g 0).rotateRight 2 ^^^ (g 0).rotateRight 13 ^^^ (g 0).rotateRight 22
  let t2 := s0 + ((g 0 &&& g 1) ^^^ (g 0 &&& g 2) ^^^ (g 1 &&& g 2))
  [t1 + t2, g 0, g 1, g 2, g 3 + t1, g 4, g 5, g 6]

/-- One block. -/
def shaBlock (h : List Word) (block : List Byte) : List Word :=
  let w := shaSchedule 48 ((chunksOf 4 16 block).map wordBe)
  let v := ((shaPrimes.map shaK).zip w).foldl (fun v x => shaRound v (x.1 + x.2)) h
  (h.zip v).map (fun x => x.1 + x.2)

/-- SHA-256 of a byte string, as the number whose highest byte comes first. -/
def sha256 (m : List Byte) : BitVec 256 :=
  let h := (chunksOf 64 (m.length / 64 + 2) (shaPad m)).foldl shaBlock ((shaPrimes.take 8).map shaH)
  BitVec.ofNat 256 (h.foldl (fun n x => n * 2 ^ 32 + x.toNat) 0)

/-! AES-256 (FIPS 197). -/

def gfDouble (b : Byte) : Byte := (b <<< 1) ^^^ (if b.getLsbD 7 then 0x1B else 0)
def gfMul (a b : Byte) : Byte :=
  ((List.range 8).foldl (fun (x : Byte × Byte) i => (if b.getLsbD i then x.1 ^^^ x.2 else x.1, gfDouble x.2)) (0, a)).1
/-- The substitution of one byte: the inverse in the field, a^254, and the affine map. -/
def aesSub (a : Byte) : Byte :=
  let x := (List.range 254).foldl (fun r _ => gfMul r a) 1
  x ^^^ x.rotateLeft 1 ^^^ x.rotateLeft 2 ^^^ x.rotateLeft 3 ^^^ x.rotateLeft 4 ^^^ 0x63

def xorBytes (a b : List Byte) : List Byte := (a.zip b).map (fun x => x.1 ^^^ x.2)

/-- The expanded key, `n` more words of four bytes. -/
def aesExpand : Nat → List (List Byte) → List (List Byte)
  | 0, w => w
  | n + 1, w =>
    let i := w.length
    let t := w.getD (i - 1) []
    let t := if i % 8 = 0 then
        xorBytes ((t.drop 1 ++ t.take 1).map aesSub) [(List.range (i / 8 - 1)).foldl (fun x _ => gfDouble x) 1, 0, 0, 0]
      else if i % 8 = 4 then t.map aesSub else t
    aesExpand n (w ++ [xorBytes (w.getD (i - 8) []) t])

/-- Row shift and column mix of a block, column by column. -/
def aesShift (b : List Byte) : List Byte := (List.range 16).map (fun i => b.getD ((i + 4 * (i % 4)) % 16) 0)
def aesMix (b : List Byte) : List Byte :=
  (List.range 16).map (fun i =>
    let x := fun k => b.getD (i / 4 * 4 + (i + k) % 4) 0
    gfMul (x 0) 2 ^^^ gfMul (x 1) 3 ^^^ x 2 ^^^ x 3)

/-- Encrypts one block of 16 bytes under a key of 32 bytes. -/
def aes256 (key block : List Byte) : List Byte :=
  let w := aesExpand 52 (chunksOf 4 8 key)
  let round := fun k => ((w.drop (4 * k)).take 4).flatten
  let b := (List.range 13).foldl (fun b k => xorBytes (aesMix (aesShift (b.map aesSub))) (round (k + 1))) (xorBytes block (round 0))
  xorBytes (aesShift (b.map aesSub)) (round 14)

/-! The GCM tag (SP 800-38D). -/

/-- Product of two blocks, bit 0 of the standard being the highest. -/
def ghashMul (x y : BitVec 128) : BitVec 128 :=
  ((List.range 128).foldl (fun (p : BitVec 128 × BitVec 128) i =>
    (if x.getLsbD (127 - i) then p.1 ^^^ p.2 else p.1, (p.2 >>> 1) ^^^ (if p.2.getLsbD 0 then 0xE1000000000000000000000000000000 else 0)))
    (0, y)).1

def blockOf (l : List Byte) : BitVec 128 := BitVec.ofNat 128 ((List.range 16).foldl (fun n i => n * 256 + (l.getD i 0).toNat) 0)

def ghash (h : BitVec 128) (blocks : List (BitVec 128)) : BitVec 128 := blocks.foldl (fun y b => ghashMul (y ^^^ b) h) 0

/-- The AES-256-GCM tag over authenticated data with no plaintext. -/
def gcmTag (key : BitVec 256) (nonce : BitVec 96) (data : List Byte) : BitVec 128 :=
  let k := bytesBe 32 key.toNat
  let h := blockOf (aes256 k (List.replicate 16 0))
  let y := ghash h ((chunksOf 16 (data.length / 16 + 1) data).map blockOf ++ [BitVec.ofNat 128 (8 * data.length * 2 ^ 64)])
  y ^^^ blockOf (aes256 k (bytesBe 12 nonce.toNat ++ [0, 0, 0, 1]))

/-! HSS signatures (R369). -/

/-- The signature made with leaf `leaf` of the lower tree of counter value `n`: the number of signed keys, the top tree's signature of the lower public key,
that key, and the lower tree's signature of the message: 4 + 1,772 + 56 + 1,452 bytes. -/
def hssSign (n leaf : Nat) (m : List Byte) : List Byte :=
  bytesBe 4 1 ++ bytesBe 1772 (Config.topSignature n).toNat ++ bytesBe 56 (Config.lowerKey n).toNat ++ bytesBe 1452 (Config.lowerSignature n leaf m).toNat

end Sys2Proof.Machine
end

