-- ==== Sys2Proof/Syntax.lean ====
section
/-! DEFINITION. The one inductive of instructions and events: a constructor per row of spec/opcode_table.json. -/

namespace Sys2Proof

/-- A row of the opcode table. The fields of an instruction row stand in the order of its encoding, high bits first, with the
extension word's after the first word's. The guard, which every thread instruction has in bits [2:0] (R40), is decoded beside the
instruction and held with the issuing bundle. What an event row happens to, and what comes with it, is the `EventArg` of the turn it
is taken in. Rows with fields stand first: Lean's code generator numbers at most 245 constructors that hold data. -/
inductive Instr where
  /-- BRA (R76). -/
  | bra (o : BitVec 22)
  /-- BRX (R77). -/
  | brx (a : BitVec 6) (m : BitVec 2)
  /-- CALL (R76). -/
  | call (o : BitVec 22)
  /-- BRK (R80). -/
  | brk (i : BitVec 8)
  /-- TRAP (R80). -/
  | trap (i : BitVec 8)
  /-- JOIN_ENROL (R73). -/
  | joinEnrol (k : BitVec 4)
  /-- JOIN_WAIT (R73). -/
  | joinWait (k : BitVec 4)
  /-- JOIN_STRIKE (R73). -/
  | joinStrike (k : BitVec 4)
  /-- JOIN_CLR (R73). -/
  | joinClr (k : BitVec 4)
  /-- JOIN_RD (R73). -/
  | joinRd (d : BitVec 6) (k : BitVec 4) (m : BitVec 1)
  /-- BAR_INIT (R88). -/
  | barInit (k : BitVec 4) (a : BitVec 6)
  /-- BAR_ARRIVE (R88). -/
  | barArrive (k : BitVec 4) (r : BitVec 1)
  /-- BAR_ARRIVE_FINISHER (R85). -/
  | barArriveFinisher (p : BitVec 3) (k : BitVec 4) (r : BitVec 1)
  /-- BAR_WAIT_IMM (R88). -/
  | barWaitImm (k : BitVec 4) (h : BitVec 1)
  /-- BAR_WAIT_REG (R88). -/
  | barWaitReg (k : BitVec 4) (a : BitVec 6)
  /-- BAR_SYNC (R88). -/
  | barSync (k : BitVec 4)
  /-- BAR_SYNC_FINISHER (R85). -/
  | barSyncFinisher (p : BitVec 3) (k : BitVec 4)
  /-- BAR_EXPECT (R88). -/
  | barExpect (k : BitVec 4) (a : BitVec 6)
  /-- BAR_RD (R83). -/
  | barRd (d : BitVec 6) (k : BitVec 4) (s : BitVec 2)
  /-- TAG_WAIT_ALL (R92). -/
  | tagWaitAll (k : BitVec 4)
  /-- TAG_WAIT_ANY (R92). -/
  | tagWaitAny (k : BitVec 4)
  /-- TAG_FFR (R92). -/
  | tagFfr (d : BitVec 6) (k : BitVec 4)
  /-- TAG_CLR (R92). -/
  | tagClr (k : BitVec 4)
  /-- TAG_RD (R92). -/
  | tagRd (d : BitVec 6) (h : BitVec 1)
  /-- RING_INIT (R95). -/
  | ringInit (k : BitVec 4) (a : BitVec 6)
  /-- RING_WAIT_FULL (R95). -/
  | ringWaitFull (d : BitVec 6) (k : BitVec 4)
  /-- RING_WAIT_FREE (R95). -/
  | ringWaitFree (d : BitVec 6) (k : BitVec 4)
  /-- RING_COMMIT (R95). -/
  | ringCommit (k : BitVec 4)
  /-- RING_FREE (R95). -/
  | ringFree (k : BitVec 4)
  /-- RING_RD (R93). -/
  | ringRd (d : BitVec 6) (k : BitVec 4) (s : BitVec 1)
  /-- CONV_DECL (R97). -/
  | convDecl (k : BitVec 4) (a : BitVec 6)
  /-- CONV_XDECL (R97). -/
  | convXdecl (k : BitVec 4) (a : BitVec 6)
  /-- CONV_RD (R97). -/
  | convRd (d : BitVec 6) (k : BitVec 4) (s : BitVec 1)
  /-- TKT_WAIT (R101). -/
  | tktWait (a b : BitVec 6) (n : BitVec 2)
  /-- TKT_PASS (R102). -/
  | tktPass (a : BitVec 6)
  /-- XBAR_ARRIVE (R100). -/
  | xbarArrive (d : BitVec 6) (k : BitVec 4)
  /-- XBAR_WAIT_IMM (R100). -/
  | xbarWaitImm (k : BitVec 4) (h : BitVec 1)
  /-- XBAR_WAIT_REG (R100). -/
  | xbarWaitReg (k : BitVec 4) (a : BitVec 6)
  /-- LAUNCH (R105). -/
  | launch (d a : BitVec 6)
  /-- EVT_WAIT (R104). -/
  | evtWait (a : BitVec 6) (m : BitVec 2) (b : BitVec 6) (n : BitVec 2)
  /-- IADD_I32 (R125). -/
  | iaddI32 (d a : BitVec 6) (m : BitVec 2) (b : BitVec 6) (n : BitVec 2)
  /-- IADD_I64 (R125). -/
  | iaddI64 (d a : BitVec 6) (m : BitVec 2) (b : BitVec 6) (n : BitVec 2)
  /-- ISUB_I32 (R125). -/
  | isubI32 (d a : BitVec 6) (m : BitVec 2) (b : BitVec 6) (n : BitVec 2)
  /-- ISUB_I64 (R125). -/
  | isubI64 (d a : BitVec 6) (m : BitVec 2) (b : BitVec 6) (n : BitVec 2)
  /-- IMUL_I32 (R125). -/
  | imulI32 (d a : BitVec 6) (m : BitVec 2) (b : BitVec 6) (n : BitVec 2)
  /-- IMULH_I32 (R125). -/
  | imulhI32 (d a : BitVec 6) (m : BitVec 2) (b : BitVec 6) (n : BitVec 2)
  /-- IMULH_N32 (R125). -/
  | imulhN32 (d a : BitVec 6) (m : BitVec 2) (b : BitVec 6) (n : BitVec 2)
  /-- IMAD_I32 (R125). -/
  | imadI32 (d a : BitVec 6) (m : BitVec 2) (b : BitVec 6) (n : BitVec 2)
  /-- IADDC (R125). -/
  | iaddc (d a : BitVec 6) (m : BitVec 2) (b : BitVec 6) (n : BitVec 2)
  /-- IMIN_I32 (R125). -/
  | iminI32 (d a : BitVec 6) (m : BitVec 2) (b : BitVec 6) (n : BitVec 2)
  /-- IMIN_N32 (R125). -/
  | iminN32 (d a : BitVec 6) (m : BitVec 2) (b : BitVec 6) (n : BitVec 2)
  /-- IMAX_I32 (R125). -/
  | imaxI32 (d a : BitVec 6) (m : BitVec 2) (b : BitVec 6) (n : BitVec 2)
  /-- IMAX_N32 (R125). -/
  | imaxN32 (d a : BitVec 6) (m : BitVec 2) (b : BitVec 6) (n : BitVec 2)
  /-- IABS_I32 (R125). -/
  | iabsI32 (d a : BitVec 6) (m : BitVec 2)
  /-- IMULW_N32 (R125). -/
  | imulwN32 (d a : BitVec 6) (m : BitVec 2) (b : BitVec 6) (n : BitVec 2)
  /-- AND (R126). -/
  | land (d a : BitVec 6) (m : BitVec 2) (b : BitVec 6) (n : BitVec 2)
  /-- OR (R126). -/
  | lor (d a : BitVec 6) (m : BitVec 2) (b : BitVec 6) (n : BitVec 2)
  /-- XOR (R126). -/
  | lxor (d a : BitVec 6) (m : BitVec 2) (b : BitVec 6) (n : BitVec 2)
  /-- ANDN (R126). -/
  | andn (d a : BitVec 6) (m : BitVec 2) (b : BitVec 6) (n : BitVec 2)
  /-- SHL (R126). -/
  | shl (d a : BitVec 6) (m : BitVec 2) (b : BitVec 6) (n : BitVec 2)
  /-- SHR (R126). -/
  | shr (d a : BitVec 6) (m : BitVec 2) (b : BitVec 6) (n : BitVec 2)
  /-- SAR (R126). -/
  | sar (d a : BitVec 6) (m : BitVec 2) (b : BitVec 6) (n : BitVec 2)
  /-- ROTL (R126). -/
  | rotl (d a : BitVec 6) (m : BitVec 2) (b : BitVec 6) (n : BitVec 2)
  /-- POPC (R126). -/
  | popc (d a : BitVec 6) (m : BitVec 2)
  /-- CLZ (R126). -/
  | clz (d a : BitVec 6) (m : BitVec 2)
  /-- BREV (R126). -/
  | brev (d a : BitVec 6) (m : BitVec 2)
  /-- BFX (R127). -/
  | bfx (d a : BitVec 6) (m : BitVec 2) (pos : BitVec 5) (len : BitVec 6) (sg : BitVec 1)
  /-- BFI (R127). -/
  | bfi (d a : BitVec 6) (m : BitVec 2) (pos : BitVec 5) (len : BitVec 6)
  /-- IADDI (R128). -/
  | iaddi (d a : BitVec 6) (m : BitVec 2) (i : BitVec 8)
  /-- ANDI (R128). -/
  | andi (d a : BitVec 6) (m : BitVec 2) (i : BitVec 8)
  /-- ORI (R128). -/
  | ori (d a : BitVec 6) (m : BitVec 2) (i : BitVec 8)
  /-- XORI (R128). -/
  | xori (d a : BitVec 6) (m : BitVec 2) (i : BitVec 8)
  /-- SHLI (R128). -/
  | shli (d a : BitVec 6) (m : BitVec 2) (i : BitVec 5)
  /-- SHRI (R128). -/
  | shri (d a : BitVec 6) (m : BitVec 2) (i : BitVec 5)
  /-- SARI (R128). -/
  | sari (d a : BitVec 6) (m : BitVec 2) (i : BitVec 5)
  /-- MOVI (R128). -/
  | movi (d : BitVec 6) (i : BitVec 8)
  /-- ICMP_I32 (R129). -/
  | icmpI32 (p c : BitVec 3) (a : BitVec 6) (m : BitVec 2) (b : BitVec 6) (n : BitVec 2)
  /-- ICMP_N32 (R129). -/
  | icmpN32 (p c : BitVec 3) (a : BitVec 6) (m : BitVec 2) (b : BitVec 6) (n : BitVec 2)
  /-- ICMP_I64 (R129). -/
  | icmpI64 (p c : BitVec 3) (a : BitVec 6) (m : BitVec 2) (b : BitVec 6) (n : BitVec 2)
  /-- FCMP_F32 (R161). -/
  | fcmpF32 (p c : BitVec 3) (a : BitVec 6) (m : BitVec 2) (b : BitVec 6) (n : BitVec 2)
  /-- FCMP_F64 (R161). -/
  | fcmpF64 (p c : BitVec 3) (a : BitVec 6) (m : BitVec 2) (b : BitVec 6) (n : BitVec 2)
  /-- PLOG (R130). -/
  | plog (p f q s : BitVec 3)
  /-- SEL (R132). -/
  | sel (d a : BitVec 6) (m : BitVec 2) (b : BitVec 6) (n : BitVec 2) (p : BitVec 3)
  /-- PMOV_VP (R131). -/
  | pmovVp (a : BitVec 6) (m : BitVec 2)
  /-- PMOV_PV (R131). -/
  | pmovPv (d : BitVec 6)
  /-- MOV (R133). -/
  | mov (d a : BitVec 6) (m : BitVec 2)
  /-- MOVL (R133). -/
  | movl (d : BitVec 6) (lit : BitVec 32)
  /-- QSET (R119). -/
  | qset (q a : BitVec 6) (m : BitVec 2)
  /-- QGET (R119). -/
  | qget (d q : BitVec 6)
  /-- PERM_SET (R121). -/
  | permSet (t a : BitVec 6) (m : BitVec 2)
  /-- SHFL (R134). -/
  | shfl (d a b : BitVec 6) (n : BitVec 2)
  /-- SHFL16 (R135). -/
  | shfl16 (d a : BitVec 6) (s : BitVec 2) (t : BitVec 6)
  /-- VOTE_ANY (R136). -/
  | voteAny (p q : BitVec 3)
  /-- VOTE_ALL (R136). -/
  | voteAll (p q : BitVec 3)
  /-- VOTE_BALLOT (R136). -/
  | voteBallot (q : BitVec 3) (d : BitVec 6)
  /-- IDR (R137). -/
  | idr (d : BitVec 6) (s : BitVec 8)
  /-- FADD_F32 (R157). -/
  | faddF32 (d a : BitVec 6) (m : BitVec 2) (b : BitVec 6) (n : BitVec 2)
  /-- FADD_F64 (R157). -/
  | faddF64 (d a : BitVec 6) (m : BitVec 2) (b : BitVec 6) (n : BitVec 2)
  /-- FADD_H2 (R157). -/
  | faddH2 (d a : BitVec 6) (m : BitVec 2) (b : BitVec 6) (n : BitVec 2)
  /-- FADD_B2 (R157). -/
  | faddB2 (d a : BitVec 6) (m : BitVec 2) (b : BitVec 6) (n : BitVec 2)
  /-- FSUB_F32 (R157). -/
  | fsubF32 (d a : BitVec 6) (m : BitVec 2) (b : BitVec 6) (n : BitVec 2)
  /-- FSUB_F64 (R157). -/
  | fsubF64 (d a : BitVec 6) (m : BitVec 2) (b : BitVec 6) (n : BitVec 2)
  /-- FMUL_F32 (R157). -/
  | fmulF32 (d a : BitVec 6) (m : BitVec 2) (b : BitVec 6) (n : BitVec 2)
  /-- FMUL_F64 (R157). -/
  | fmulF64 (d a : BitVec 6) (m : BitVec 2) (b : BitVec 6) (n : BitVec 2)
  /-- FMUL_H2 (R157). -/
  | fmulH2 (d a : BitVec 6) (m : BitVec 2) (b : BitVec 6) (n : BitVec 2)
  /-- FMUL_B2 (R157). -/
  | fmulB2 (d a : BitVec 6) (m : BitVec 2) (b : BitVec 6) (n : BitVec 2)
  /-- FFMA_F32 (R157). -/
  | ffmaF32 (d a : BitVec 6) (m : BitVec 2) (b : BitVec 6) (n : BitVec 2)
  /-- FFMA_F64 (R157). -/
  | ffmaF64 (d a : BitVec 6) (m : BitVec 2) (b : BitVec 6) (n : BitVec 2)
  /-- FFMA_H2 (R157). -/
  | ffmaH2 (d a : BitVec 6) (m : BitVec 2) (b : BitVec 6) (n : BitVec 2)
  /-- FFMA_B2 (R157). -/
  | ffmaB2 (d a : BitVec 6) (m : BitVec 2) (b : BitVec 6) (n : BitVec 2)
  /-- FFMAL_F32 (R158). -/
  | ffmalF32 (d a : BitVec 6) (m : BitVec 2) (b : BitVec 6) (n : BitVec 2) (c : BitVec 6) (k : BitVec 2) (rm : BitVec 3)
  /-- FFMAL_F64 (R158). -/
  | ffmalF64 (d a : BitVec 6) (m : BitVec 2) (b : BitVec 6) (n : BitVec 2) (c : BitVec 6) (k : BitVec 2) (rm : BitVec 3)
  /-- FMIN_F32 (R159). -/
  | fminF32 (d a : BitVec 6) (m : BitVec 2) (b : BitVec 6) (n : BitVec 2)
  /-- FMIN_F64 (R159). -/
  | fminF64 (d a : BitVec 6) (m : BitVec 2) (b : BitVec 6) (n : BitVec 2)
  /-- FMAX_F32 (R159). -/
  | fmaxF32 (d a : BitVec 6) (m : BitVec 2) (b : BitVec 6) (n : BitVec 2)
  /-- FMAX_F64 (R159). -/
  | fmaxF64 (d a : BitVec 6) (m : BitVec 2) (b : BitVec 6) (n : BitVec 2)
  /-- FSGN (R160). -/
  | fsgn (d a : BitVec 6) (m : BitVec 2) (b : BitVec 6) (n : BitVec 2) (ty f : BitVec 5)
  /-- FRCP (R162). -/
  | frcp (d a : BitVec 6) (m : BitVec 2)
  /-- FRSQ (R162). -/
  | frsq (d a : BitVec 6) (m : BitVec 2)
  /-- FSQRT (R162). -/
  | fsqrt (d a : BitVec 6) (m : BitVec 2)
  /-- FEXP2 (R162). -/
  | fexp2 (d a : BitVec 6) (m : BitVec 2)
  /-- FLOG2 (R162). -/
  | flog2 (d a : BitVec 6) (m : BitVec 2)
  /-- FSIN (R162). -/
  | fsin (d a : BitVec 6) (m : BitVec 2)
  /-- FCOS (R162). -/
  | fcos (d a : BitVec 6) (m : BitVec 2)
  /-- CVT (R164). -/
  | cvt (d a : BitVec 6) (m : BitVec 2) (fd fs : BitVec 5) (rm : BitVec 3) (sat : BitVec 1)
  /-- PACK (R166). -/
  | pack (d a : BitVec 6) (m : BitVec 2) (b : BitVec 6) (n : BitVec 2) (q : BitVec 6) (fd : BitVec 5) (rm : BitVec 3) (sat : BitVec 1)
  /-- UNPACK (R167). -/
  | unpack (d a : BitVec 6) (m : BitVec 2) (q : BitVec 6) (fs : BitVec 5) (rm : BitVec 3) (hi : BitVec 1)
  /-- AMAX (R169). -/
  | amax (d a : BitVec 6)
  /-- AMAX_QUAD (R169). -/
  | amaxQuad (d a : BitVec 6)
  /-- SCALE_FIT (R170). -/
  | scaleFit (d a : BitVec 6) (p s : BitVec 3) (m : BitVec 2)
  /-- NORM_ACC (R172). -/
  | normAcc (k : BitVec 4) (a : BitVec 6)
  /-- NORM_CHK (R172). -/
  | normChk (p : BitVec 3) (k : BitVec 4)
  /-- HCNT (R171). -/
  | hcnt (d : BitVec 6)
  /-- HCHK (R171). -/
  | hchk (p : BitVec 3)
  /-- IX_SET (R116). -/
  | ixSet (x : BitVec 2) (a : BitVec 6) (m : BitVec 2)
  /-- IX_LD (R116). -/
  | ixLd (d : BitVec 6) (x : BitVec 2) (k : BitVec 8)
  /-- IX_ST (R116). -/
  | ixSt (s : BitVec 6) (x : BitVec 2) (k : BitVec 8)
  /-- IX_RD (R116). -/
  | ixRd (d : BitVec 6) (x : BitVec 2)
  /-- LD_B8 (R198). -/
  | ldB8 (d a : BitVec 6) (o : BitVec 10)
  /-- LD_I8 (R198). -/
  | ldI8 (d a : BitVec 6) (o : BitVec 10)
  /-- LD_B16 (R198). -/
  | ldB16 (d a : BitVec 6) (o : BitVec 10)
  /-- LD_I16 (R198). -/
  | ldI16 (d a : BitVec 6) (o : BitVec 10)
  /-- LD_B32 (R198). -/
  | ldB32 (d a : BitVec 6) (o : BitVec 10)
  /-- LD_B64 (R198). -/
  | ldB64 (d a : BitVec 6) (o : BitVec 10)
  /-- LD_B128 (R198). -/
  | ldB128 (d a : BitVec 6) (o : BitVec 10)
  /-- ST_B8 (R198). -/
  | stB8 (s a : BitVec 6) (o : BitVec 10)
  /-- ST_B16 (R198). -/
  | stB16 (s a : BitVec 6) (o : BitVec 10)
  /-- ST_B32 (R198). -/
  | stB32 (s a : BitVec 6) (o : BitVec 10)
  /-- ST_B64 (R198). -/
  | stB64 (s a : BitVec 6) (o : BitVec 10)
  /-- ST_B128 (R198). -/
  | stB128 (s a : BitVec 6) (o : BitVec 10)
  /-- LD_ACQ (R199). -/
  | ldAcq (d a : BitVec 6) (o : BitVec 8) (sc : BitVec 3) (sg : BitVec 1) (z : BitVec 3)
  /-- ST_REL (R199). -/
  | stRel (s a : BitVec 6) (o : BitVec 8) (sc z : BitVec 3)
  /-- ATOM (R201). -/
  | atom (d a b : BitVec 6) (n : BitVec 2) (ty : BitVec 5) (sc : BitVec 3) (r : BitVec 1) (op : BitVec 3)
  /-- ATOM_CAS (R202). -/
  | atomCas (d a b : BitVec 6) (n : BitVec 2) (c : BitVec 6) (k : BitVec 2) (ty : BitVec 5) (sc : BitVec 3)
  /-- LBW (R204). -/
  | lbw (d a : BitVec 6) (z : BitVec 2) (o : BitVec 6)
  /-- LBA (R204). -/
  | lba (d a : BitVec 6) (z : BitVec 2) (o : BitVec 6)
  /-- LBC (R204). -/
  | lbc (d a : BitVec 6) (z : BitVec 2) (o : BitVec 6)
  /-- LBS (R204). -/
  | lbs (d a : BitVec 6) (z : BitVec 2) (o : BitVec 6)
  /-- SBA (R204). -/
  | sba (s a : BitVec 6) (z : BitVec 2) (o : BitVec 6)
  /-- SBC (R204). -/
  | sbc (s a : BitVec 6) (z : BitVec 2) (o : BitVec 6)
  /-- SBS (R204). -/
  | sbs (s a : BitVec 6) (z : BitVec 2) (o : BitVec 6)
  /-- LBX (R205). -/
  | lbx (d a : BitVec 6) (o : BitVec 8) (core : BitVec 2) (buf : BitVec 1) (z : BitVec 2)
  /-- FENCE (R200). -/
  | fence (s : BitVec 3)
  /-- PREF (R206). -/
  | pref (a : BitVec 6) (l : BitVec 1)
  /-- MFMT (R236). -/
  | mfmt (k q : BitVec 4)
  /-- MMA (R250). -/
  | mma (c : BitVec 3) (x : BitVec 1) (a : BitVec 6) (y : BitVec 1) (b : BitVec 6) (r : BitVec 5)
  /-- MMZ (R250). -/
  | mmz (c : BitVec 3) (x : BitVec 1) (a : BitVec 6) (y : BitVec 1) (b : BitVec 6) (r : BitVec 5)
  /-- MMP (R250). -/
  | mmp (c : BitVec 3) (x : BitVec 1) (a : BitVec 6) (y : BitVec 1) (b : BitVec 6) (r : BitVec 5)
  /-- MMA_CL (R249). -/
  | mmaCl (c : BitVec 3) (x : BitVec 1) (a : BitVec 6) (y : BitVec 1) (b : BitVec 6) (r : BitVec 5)
  /-- MMZ_CL (R249). -/
  | mmzCl (c : BitVec 3) (x : BitVec 1) (a : BitVec 6) (y : BitVec 1) (b : BitVec 6) (r : BitVec 5)
  /-- MMP_CL (R249). -/
  | mmpCl (c : BitVec 3) (x : BitVec 1) (a : BitVec 6) (y : BitVec 1) (b : BitVec 6) (r : BitVec 5)
  /-- ACC_LD (R251). -/
  | accLd (c : BitVec 3) (a b : BitVec 6) (r : BitVec 5)
  /-- ACC_ST (R251). -/
  | accSt (a b : BitVec 6) (r : BitVec 5)
  /-- ACC_CLR (R252). -/
  | accClr (c : BitVec 3) (n r : BitVec 5)
  /-- ACC_CP (R252). -/
  | accCp (c : BitVec 3) (t n r : BitVec 5)
  /-- MFENCE (R253). -/
  | mfence (k : BitVec 4)
  /-- MHEALTH (R255). -/
  | mhealth (d : BitVec 6) (r : BitVec 5)
  /-- CPA_B32 (R264). -/
  | cpaB32 (d a x : BitVec 6) (na kind : BitVec 1)
  /-- CPA_B64 (R264). -/
  | cpaB64 (d a x : BitVec 6) (na kind : BitVec 1)
  /-- CPA_B128 (R264). -/
  | cpaB128 (d a x : BitVec 6) (na kind : BitVec 1)
  /-- TCP (R274). -/
  | tcp (d a b x : BitVec 6) (na kind : BitVec 1)
  /-- TCP_COLL (R321). -/
  | tcpColl (a x : BitVec 6) (na kind : BitVec 1)
  /-- CPE_RUN (R283). -/
  | cpeRun (d a b : BitVec 6)
  /-- CPE_STOP (R283). -/
  | cpeStop (a : BitVec 6)
  /-- CPE_RD (R284). -/
  | cpeRd (d a s : BitVec 6)
  /-- PUBLISH (R278). -/
  | publish (d a : BitVec 6) (m : BitVec 2)
  /-- BMT_RD (R279). -/
  | bmtRd (d a : BitVec 6) (m : BitVec 2) (w : BitVec 6)
  /-- SEND (R304). -/
  | send (a : BitVec 6)
  /-- RECV_POST (R306). -/
  | recvPost (d a : BitVec 6)
  /-- RECV_CANCEL (R312). -/
  | recvCancel (d a : BitVec 6) (m : BitVec 2)
  /-- RECV_PROBE (R313). -/
  | recvProbe (d a : BitVec 6)
  /-- SYSRD (R328). -/
  | sysrd (d : BitVec 6) (r : BitVec 8)
  /-- SYSWR (R328). -/
  | syswr (a : BitVec 6) (r : BitVec 8)
  /-- ECNT (R348). -/
  | ecnt (d : BitVec 6)
  /-- CLK_RD (R348). -/
  | clkRd (d : BitVec 6)
  /-- TLB_INV_PAGE (R349). -/
  | tlbInvPage (a : BitVec 6)
  /-- BMT_SET (R350). -/
  | bmtSet (a : BitVec 6) (m : BitVec 2) (b : BitVec 6)
  /-- PARK_CTL_RESUME (R338). -/
  | parkCtlResume (d a : BitVec 6)
  /-- PARK_CTL_KILL (R338). -/
  | parkCtlKill (d a : BitVec 6)
  /-- PARK_CTL_STOP (R338). -/
  | parkCtlStop (d a : BitVec 6)
  /-- DBG_SEL (R353). -/
  | dbgSel (a : BitVec 6)
  /-- DBG_STEP (R353). -/
  | dbgStep (a : BitVec 6)
  /-- PERF_RD (R348). -/
  | perfRd (d : BitVec 6) (s : BitVec 8)
  /-- CACHE_OP_L2WB (R353). -/
  | cacheOpL2wb (a : BitVec 6)
  /-- CACHE_OP_L2KEY (R353). -/
  | cacheOpL2key (a : BitVec 6)
  /-- TOK_RD (R348). -/
  | tokRd (d : BitVec 6)
  /-- FAULT_RD (R352). -/
  | faultRd (d a : BitVec 6)
  /-- CE_ADD (R288). -/
  | ceAdd (d a b : BitVec 5)
  /-- CE_SUB (R288). -/
  | ceSub (d a b : BitVec 5)
  /-- CE_MUL (R288). -/
  | ceMul (d a b : BitVec 5)
  /-- CE_MADD (R288). -/
  | ceMadd (d a b : BitVec 5)
  /-- CE_AND (R288). -/
  | ceAnd (d a b : BitVec 5)
  /-- CE_OR (R288). -/
  | ceOr (d a b : BitVec 5)
  /-- CE_XOR (R288). -/
  | ceXor (d a b : BitVec 5)
  /-- CE_SHL (R288). -/
  | ceShl (d a b : BitVec 5)
  /-- CE_SHR (R288). -/
  | ceShr (d a b : BitVec 5)
  /-- CE_ADDI (R288). -/
  | ceAddi (d a : BitVec 5) (i : BitVec 16)
  /-- CE_LUI (R288). -/
  | ceLui (d a : BitVec 5) (i : BitVec 16)
  /-- CE_ORI (R288). -/
  | ceOri (d a : BitVec 5) (i : BitVec 16)
  /-- CE_MIN (R288). -/
  | ceMin (d a b : BitVec 5)
  /-- CE_MAX (R288). -/
  | ceMax (d a b : BitVec 5)
  /-- CE_BEQ (R288). -/
  | ceBeq (a b : BitVec 5) (o : BitVec 16)
  /-- CE_BNE (R288). -/
  | ceBne (a b : BitVec 5) (o : BitVec 16)
  /-- CE_BLT (R288). -/
  | ceBlt (a b : BitVec 5) (o : BitVec 16)
  /-- CE_BGE (R288). -/
  | ceBge (a b : BitVec 5) (o : BitVec 16)
  /-- CE_JMP (R288). -/
  | ceJmp (a : BitVec 5) (o : BitVec 16)
  /-- CE_LOOP_SET (R288). -/
  | ceLoopSet (n a : BitVec 5) (i : BitVec 16)
  /-- CE_LOOP_END (R288). -/
  | ceLoopEnd (n : BitVec 5) (o : BitVec 16)
  /-- CE_LDI (R289). -/
  | ceLdi (d a : BitVec 5) (i : BitVec 16)
  /-- CE_LDI64 (R289). -/
  | ceLdi64 (d a : BitVec 5) (i : BitVec 16)
  /-- CE_STW (R289). -/
  | ceStw (d a : BitVec 5) (i : BitVec 16)
  /-- CE_TADR (R290). -/
  | ceTadr (d a b : BitVec 5)
  /-- CE_TNEXT (R290). -/
  | ceTnext (d a b : BitVec 5)
  /-- CE_MV (R291). -/
  | ceMv (d a b : BitVec 5) (n : BitVec 1)
  /-- CE_MVT (R291). -/
  | ceMvt (d a b : BitVec 5) (n : BitVec 1)
  /-- CE_GAT (R291). -/
  | ceGat (d a b : BitVec 5) (n : BitVec 1)
  /-- CE_SCAT (R291). -/
  | ceScat (d a b : BitVec 5) (n : BitVec 1)
  /-- CE_ARR (R292). -/
  | ceArr (n a : BitVec 5)
  /-- CE_TAGSET (R292). -/
  | ceTagset (t : BitVec 6)
  /-- CE_RING_COMMIT (R292). -/
  | ceRingCommit (n : BitVec 3)
  /-- CE_RING_WAIT (R292). -/
  | ceRingWait (d : BitVec 5) (n : BitVec 3)
  /-- CE_PUBLISH (R292). -/
  | cePublish (a : BitVec 5)
  /-- NOP (R75). -/
  | nop
  /-- RET (R77). -/
  | ret
  /-- EXIT (R78). -/
  | exit
  /-- YLD (R79). -/
  | yld
  /-- L1_INV (R207). -/
  | l1Inv
  /-- MWAIT (R254). -/
  | mwait
  /-- ERET (R352). -/
  | eret
  /-- TLB_INV_CTX (R349). -/
  | tlbInvCtx
  /-- TLB_INV_ALL (R349). -/
  | tlbInvAll
  /-- HALT (R353). -/
  | halt
  /-- CACHE_OP_IINV (R353). -/
  | cacheOpIinv
  /-- CACHE_OP_DINV (R353). -/
  | cacheOpDinv
  /-- CACHE_OP_L2ALL (R353). -/
  | cacheOpL2all
  /-- CE_HALT (R288). -/
  | ceHalt
  /-- CE_WFB (R292). -/
  | ceWfb
  /-- CE_YIELDCTX (R288). -/
  | ceYieldctx
  /-- QTAIL_WRITE (R378). -/
  | qtailWrite
  /-- LAUNCH_RECORD_SELECTION (R108). -/
  | launchRecordSelection
  /-- LAUNCH_ADMISSION (R108). -/
  | launchAdmission
  /-- GANG_RESERVATION (R109). -/
  | gangReservation
  /-- GANG_COMMIT (R109). -/
  | gangCommit
  /-- D_LAUNCH_PLACEMENT (R110). -/
  | dLaunchPlacement
  /-- PREEMPTION (R341). -/
  | preemption
  /-- REGROUP (R60). -/
  | regroup
  /-- CLAUSE_WAIT_RELEASE (R34). -/
  | clauseWaitRelease
  /-- IFETCH_LINE_ARRIVAL (R61). -/
  | ifetchLineArrival
  /-- CONVERGENCE_TIMEOUT (R70). -/
  | convergenceTimeout
  /-- LOAD_DATA_RETURN (R39). -/
  | loadDataReturn
  /-- REMOTE_REPLY (R195). -/
  | remoteReply
  /-- REMOTE_TIMEOUT (R196). -/
  | remoteTimeout
  /-- STORE_QUEUE_DEPARTURE (R175). -/
  | storeQueueDeparture
  /-- HOME_SLICE_WRITE (R217). -/
  | homeSliceWrite
  /-- STORE_ACKNOWLEDGEMENT (R212). -/
  | storeAcknowledgement
  /-- ATOMIC_PERFORM (R203). -/
  | atomicPerform
  /-- REMOTE_STORE_ACK (R195). -/
  | remoteStoreAck
  /-- ORDERED_UPDATE_ARRIVAL (R209). -/
  | orderedUpdateArrival
  /-- BARRIER_ARRIVAL_COUNT (R88). -/
  | barrierArrivalCount
  /-- RING_UPDATE_APPLY (R95). -/
  | ringUpdateApply
  /-- XBAR_ARRIVAL_COUNT (R100). -/
  | xbarArrivalCount
  /-- LANE_BLOCK_RETIREMENT (R78). -/
  | laneBlockRetirement
  /-- WORKGROUP_RETIREMENT (R111). -/
  | workgroupRetirement
  /-- TICKET_FORFEIT_PASS (R102). -/
  | ticketForfeitPass
  /-- LAUNCH_COMPLETION (R346). -/
  | launchCompletion
  /-- MATRIX_OCCUPANCY_START (R233). -/
  | matrixOccupancyStart
  /-- MATRIX_OP_COMPLETION (R233). -/
  | matrixOpCompletion
  /-- EMULATED_FORMAT_TRAP (R258). -/
  | emulatedFormatTrap
  /-- TRANSFER_OP_COMPLETION (R264). -/
  | transferOpCompletion
  /-- CE_LINE_WRITE (R285). -/
  | ceLineWrite
  /-- CE_COMPLETION_TAKES_EFFECT (R285). -/
  | ceCompletionTakesEffect
  /-- CE_LDI_RETURN (R289). -/
  | ceLdiReturn
  /-- PUBLISH_PERFORM (R277). -/
  | publishPerform
  /-- PUBLISH_CORE_APPLY (R277). -/
  | publishCoreApply
  /-- SEND_COMPLETION (R304). -/
  | sendCompletion
  /-- MESSAGE_ARRIVAL (R307). -/
  | messageArrival
  /-- HELD_MESSAGE_REOFFER (R308). -/
  | heldMessageReoffer
  /-- RECV_POST_TAKEN (R307). -/
  | recvPostTaken
  /-- RECV_CANCEL_HANDLED (R312). -/
  | recvCancelHandled
  /-- RECV_PROBE_RESULT (R313). -/
  | recvProbeResult
  /-- BULK_GRANT (R300). -/
  | bulkGrant
  /-- DELIVERY_COMPLETION (R310). -/
  | deliveryCompletion
  /-- DELIVERY_FAILURE (R311). -/
  | deliveryFailure
  /-- COLLECTIVE_SIGNATURE_ARRIVAL (R322). -/
  | collectiveSignatureArrival
  /-- COLLECTIVE_BACK_WRITTEN (R322). -/
  | collectiveBackWritten
  /-- COLLECTIVE_ACK_ARRIVAL (R322). -/
  | collectiveAckArrival
  /-- COLLECTIVE_HEARTBEAT (R323). -/
  | collectiveHeartbeat
  /-- MEMBER_LOST (R323). -/
  | memberLost
  /-- COLLECTIVE_TIMEOUT (R323). -/
  | collectiveTimeout
  /-- FLIT_RECEIVE (R298). -/
  | flitReceive
  /-- LINK_REKEY (R376). -/
  | linkRekey
  /-- PLANE_QUIESCE (R299). -/
  | planeQuiesce
  /-- REMAP_DRAIN_EXPIRY (R299). -/
  | remapDrainExpiry
  /-- PMAP_WRITE (R297). -/
  | pmapWrite
  /-- REMAP_RESUME (R299). -/
  | remapResume
  /-- ACTIVITY_INTERVAL (R357). -/
  | activityInterval
  /-- POWER_DECISION (R357). -/
  | powerDecision
  /-- OPERATING_POINT_CHANGE (R358). -/
  | operatingPointChange
  /-- ENERGY_CORRECTION (R367). -/
  | energyCorrection
  /-- TRADE_REQUEST_RECEIPT (R362). -/
  | tradeRequestReceipt
  /-- TRADE_GRANT_RECEIPT (R363). -/
  | tradeGrantReceipt
  /-- TRADE_ACK_RECEIPT (R363). -/
  | tradeAckReceipt
  /-- TRADE_ABANDONMENT (R363). -/
  | tradeAbandonment
  /-- TOKADJ_WRITE (R361). -/
  | tokadjWrite
  /-- TOKREL_WRITE (R363). -/
  | tokrelWrite
  /-- TEMPO_EXCHANGE (R366). -/
  | tempoExchange
  /-- TEMPO_BOUNDARY (R366). -/
  | tempoBoundary
  /-- TCLK_SYNCHRONISATION (R365). -/
  | tclkSynchronisation
  /-- PLIMIT_WRITE (R356). -/
  | plimitWrite
  /-- PWRCMD_RUN (R360). -/
  | pwrcmdRun
  /-- PWRCMD_SELF_REFRESH (R360). -/
  | pwrcmdSelfRefresh
  /-- PWRCMD_POWER_OFF (R360). -/
  | pwrcmdPowerOff
  /-- EVCMD_SET (R379). -/
  | evcmdSet
  /-- EVCMD_ADD (R379). -/
  | evcmdAdd
  /-- QCFG_WRITE (R378). -/
  | qcfgWrite
  /-- OPP_LIST_WRITE (R355). -/
  | oppListWrite
  /-- FAULTQ_WRITE (R329). -/
  | faultqWrite
  /-- REGISTER_WRITE (R377). -/
  | registerWrite
  /-- HOST_WINDOW_ACCESS (R375). -/
  | hostWindowAccess
  /-- CONTEXT_CREATE (R380). -/
  | contextCreate
  /-- CONTEXT_DESTROY (R373). -/
  | contextDestroy
  /-- CONTEXT_SWITCH (R345). -/
  | contextSwitch
  /-- ATTESTATION_REQUEST (R372). -/
  | attestationRequest
  /-- KEM_ENCAPSULATION (R373). -/
  | kemEncapsulation
  /-- MEASUREMENT_EXTEND (R371). -/
  | measurementExtend
  /-- FIRMWARE_BUNDLE_PLACEMENT (R381). -/
  | firmwareBundlePlacement
  /-- RESET_RELEASE (R381). -/
  | resetRelease
  /-- LOWER_TREE_REGENERATION (R370). -/
  | lowerTreeRegeneration
  /-- PAGE_REQUEST_RESPONSE (R191). -/
  | pageRequestResponse
  /-- TRAP_KERNEL_START (R337). -/
  | trapKernelStart
  /-- WATCHDOG_EXPIRY (R339). -/
  | watchdogExpiry
  /-- DRAIN_TIMEOUT (R343). -/
  | drainTimeout
  /-- ADJOURNMENT (R343). -/
  | adjournment
  /-- WORKGROUP_RESTORE (R343). -/
  | workgroupRestore
  /-- MEMORY_ECC_ERROR (R186). -/
  | memoryEccError
  /-- TRANSFER_LINE_WRITE (R265). -/
  | transferLineWrite
  /-- LAST_CHECK_COMPLETION (R330). -/
  | lastCheckCompletion
  /-- REMOTE_REQUEST_ARRIVAL (R195). -/
  | remoteRequestArrival
  /-- COMMUNICATOR_SETUP (R316). -/
  | communicatorSetup
  /-- POWER_LOSS (R370). -/
  | powerLoss
  deriving DecidableEq, Repr

end Sys2Proof
end

