-- ==== Sys2Proof/WellFormed.lean ====
section
/-! DEFINITION. Which instructions are legal encodings: classes, versions, and the values their fields may take (R51). -/

namespace Sys2Proof

/-- The clause class an instruction row belongs to (R45 to R50, R287); `none` for an event row. -/
def Instr.cls : Instr → Option Cls
  | .nop => some .ctl
  | .bra .. => some .ctl
  | .brx .. => some .ctl
  | .call .. => some .ctl
  | .ret => some .ctl
  | .exit => some .ctl
  | .yld => some .ctl
  | .brk .. => some .ctl
  | .trap .. => some .ctl
  | .joinEnrol .. => some .ctl
  | .joinWait .. => some .ctl
  | .joinStrike .. => some .ctl
  | .joinClr .. => some .ctl
  | .joinRd .. => some .ctl
  | .barInit .. => some .ctl
  | .barArrive .. => some .ctl
  | .barArriveFinisher .. => some .ctl
  | .barWaitImm .. => some .ctl
  | .barWaitReg .. => some .ctl
  | .barSync .. => some .ctl
  | .barSyncFinisher .. => some .ctl
  | .barExpect .. => some .ctl
  | .barRd .. => some .ctl
  | .tagWaitAll .. => some .ctl
  | .tagWaitAny .. => some .ctl
  | .tagFfr .. => some .ctl
  | .tagClr .. => some .ctl
  | .tagRd .. => some .ctl
  | .ringInit .. => some .ctl
  | .ringWaitFull .. => some .ctl
  | .ringWaitFree .. => some .ctl
  | .ringCommit .. => some .ctl
  | .ringFree .. => some .ctl
  | .ringRd .. => some .ctl
  | .convDecl .. => some .ctl
  | .convXdecl .. => some .ctl
  | .convRd .. => some .ctl
  | .tktWait .. => some .ctl
  | .tktPass .. => some .ctl
  | .xbarArrive .. => some .ctl
  | .xbarWaitImm .. => some .ctl
  | .xbarWaitReg .. => some .ctl
  | .launch .. => some .ctl
  | .evtWait .. => some .ctl
  | .iaddI32 .. => some .vec
  | .iaddI64 .. => some .vec
  | .isubI32 .. => some .vec
  | .isubI64 .. => some .vec
  | .imulI32 .. => some .vec
  | .imulhI32 .. => some .vec
  | .imulhN32 .. => some .vec
  | .imadI32 .. => some .vec
  | .iaddc .. => some .vec
  | .iminI32 .. => some .vec
  | .iminN32 .. => some .vec
  | .imaxI32 .. => some .vec
  | .imaxN32 .. => some .vec
  | .iabsI32 .. => some .vec
  | .imulwN32 .. => some .vec
  | .land .. => some .vec
  | .lor .. => some .vec
  | .lxor .. => some .vec
  | .andn .. => some .vec
  | .shl .. => some .vec
  | .shr .. => some .vec
  | .sar .. => some .vec
  | .rotl .. => some .vec
  | .popc .. => some .vec
  | .clz .. => some .vec
  | .brev .. => some .vec
  | .bfx .. => some .vec
  | .bfi .. => some .vec
  | .iaddi .. => some .vec
  | .andi .. => some .vec
  | .ori .. => some .vec
  | .xori .. => some .vec
  | .shli .. => some .vec
  | .shri .. => some .vec
  | .sari .. => some .vec
  | .movi .. => some .vec
  | .icmpI32 .. => some .vec
  | .icmpN32 .. => some .vec
  | .icmpI64 .. => some .vec
  | .fcmpF32 .. => some .vec
  | .fcmpF64 .. => some .vec
  | .plog .. => some .vec
  | .sel .. => some .vec
  | .pmovVp .. => some .vec
  | .pmovPv .. => some .vec
  | .mov .. => some .vec
  | .movl .. => some .vec
  | .qset .. => some .vec
  | .qget .. => some .vec
  | .permSet .. => some .vec
  | .shfl .. => some .vec
  | .shfl16 .. => some .vec
  | .voteAny .. => some .vec
  | .voteAll .. => some .vec
  | .voteBallot .. => some .vec
  | .idr .. => some .vec
  | .faddF32 .. => some .vec
  | .faddF64 .. => some .vec
  | .faddH2 .. => some .vec
  | .faddB2 .. => some .vec
  | .fsubF32 .. => some .vec
  | .fsubF64 .. => some .vec
  | .fmulF32 .. => some .vec
  | .fmulF64 .. => some .vec
  | .fmulH2 .. => some .vec
  | .fmulB2 .. => some .vec
  | .ffmaF32 .. => some .vec
  | .ffmaF64 .. => some .vec
  | .ffmaH2 .. => some .vec
  | .ffmaB2 .. => some .vec
  | .ffmalF32 .. => some .vec
  | .ffmalF64 .. => some .vec
  | .fminF32 .. => some .vec
  | .fminF64 .. => some .vec
  | .fmaxF32 .. => some .vec
  | .fmaxF64 .. => some .vec
  | .fsgn .. => some .vec
  | .frcp .. => some .vec
  | .frsq .. => some .vec
  | .fsqrt .. => some .vec
  | .fexp2 .. => some .vec
  | .flog2 .. => some .vec
  | .fsin .. => some .vec
  | .fcos .. => some .vec
  | .cvt .. => some .vec
  | .pack .. => some .vec
  | .unpack .. => some .vec
  | .amax .. => some .vec
  | .amaxQuad .. => some .vec
  | .scaleFit .. => some .vec
  | .normAcc .. => some .vec
  | .normChk .. => some .vec
  | .hcnt .. => some .vec
  | .hchk .. => some .vec
  | .ixSet .. => some .vec
  | .ixLd .. => some .vec
  | .ixSt .. => some .vec
  | .ixRd .. => some .vec
  | .ldB8 .. => some .mem
  | .ldI8 .. => some .mem
  | .ldB16 .. => some .mem
  | .ldI16 .. => some .mem
  | .ldB32 .. => some .mem
  | .ldB64 .. => some .mem
  | .ldB128 .. => some .mem
  | .stB8 .. => some .mem
  | .stB16 .. => some .mem
  | .stB32 .. => some .mem
  | .stB64 .. => some .mem
  | .stB128 .. => some .mem
  | .ldAcq .. => some .mem
  | .stRel .. => some .mem
  | .atom .. => some .mem
  | .atomCas .. => some .mem
  | .lbw .. => some .mem
  | .lba .. => some .mem
  | .lbc .. => some .mem
  | .lbs .. => some .mem
  | .sba .. => some .mem
  | .sbc .. => some .mem
  | .sbs .. => some .mem
  | .lbx .. => some .mem
  | .fence .. => some .mem
  | .pref .. => some .mem
  | .l1Inv => some .mem
  | .mfmt .. => some .mat
  | .mma .. => some .mat
  | .mmz .. => some .mat
  | .mmp .. => some .mat
  | .mmaCl .. => some .mat
  | .mmzCl .. => some .mat
  | .mmpCl .. => some .mat
  | .accLd .. => some .mat
  | .accSt .. => some .mat
  | .accClr .. => some .mat
  | .accCp .. => some .mat
  | .mfence .. => some .mat
  | .mwait => some .mat
  | .mhealth .. => some .mat
  | .cpaB32 .. => some .xfr
  | .cpaB64 .. => some .xfr
  | .cpaB128 .. => some .xfr
  | .tcp .. => some .xfr
  | .tcpColl .. => some .xfr
  | .cpeRun .. => some .xfr
  | .cpeStop .. => some .xfr
  | .cpeRd .. => some .xfr
  | .publish .. => some .xfr
  | .bmtRd .. => some .xfr
  | .send .. => some .xfr
  | .recvPost .. => some .xfr
  | .recvCancel .. => some .xfr
  | .recvProbe .. => some .xfr
  | .sysrd .. => some .sys
  | .syswr .. => some .sys
  | .eret => some .sys
  | .ecnt .. => some .sys
  | .clkRd .. => some .sys
  | .tlbInvPage .. => some .sys
  | .tlbInvCtx => some .sys
  | .tlbInvAll => some .sys
  | .bmtSet .. => some .sys
  | .parkCtlResume .. => some .sys
  | .parkCtlKill .. => some .sys
  | .parkCtlStop .. => some .sys
  | .dbgSel .. => some .sys
  | .dbgStep .. => some .sys
  | .halt => some .sys
  | .perfRd .. => some .sys
  | .cacheOpIinv => some .sys
  | .cacheOpDinv => some .sys
  | .cacheOpL2wb .. => some .sys
  | .cacheOpL2key .. => some .sys
  | .cacheOpL2all => some .sys
  | .tokRd .. => some .sys
  | .faultRd .. => some .sys
  | .ceHalt => some .ce
  | .ceAdd .. => some .ce
  | .ceSub .. => some .ce
  | .ceMul .. => some .ce
  | .ceMadd .. => some .ce
  | .ceAnd .. => some .ce
  | .ceOr .. => some .ce
  | .ceXor .. => some .ce
  | .ceShl .. => some .ce
  | .ceShr .. => some .ce
  | .ceAddi .. => some .ce
  | .ceLui .. => some .ce
  | .ceOri .. => some .ce
  | .ceMin .. => some .ce
  | .ceMax .. => some .ce
  | .ceBeq .. => some .ce
  | .ceBne .. => some .ce
  | .ceBlt .. => some .ce
  | .ceBge .. => some .ce
  | .ceJmp .. => some .ce
  | .ceLoopSet .. => some .ce
  | .ceLoopEnd .. => some .ce
  | .ceLdi .. => some .ce
  | .ceLdi64 .. => some .ce
  | .ceStw .. => some .ce
  | .ceTadr .. => some .ce
  | .ceTnext .. => some .ce
  | .ceMv .. => some .ce
  | .ceMvt .. => some .ce
  | .ceGat .. => some .ce
  | .ceScat .. => some .ce
  | .ceArr .. => some .ce
  | .ceTagset .. => some .ce
  | .ceRingCommit .. => some .ce
  | .ceRingWait .. => some .ce
  | .cePublish .. => some .ce
  | .ceWfb => some .ce
  | .ceYieldctx => some .ce
  | _ => none

/-- The first encoding version that has an instruction (R31, R45 to R50); 5 where none of the lines says otherwise. -/
def Instr.since : Instr → Nat
  | .barExpect .. => 6
  | .ringInit .. => 6
  | .ringWaitFull .. => 6
  | .ringWaitFree .. => 6
  | .ringCommit .. => 6
  | .ringFree .. => 6
  | .ringRd .. => 6
  | .xbarArrive .. => 6
  | .xbarWaitImm .. => 6
  | .xbarWaitReg .. => 6
  | .launch .. => 6
  | .evtWait .. => 6
  | .shfl .. => 6
  | .pack .. => 6
  | .unpack .. => 6
  | .amax .. => 6
  | .amaxQuad .. => 6
  | .scaleFit .. => 6
  | .normAcc .. => 6
  | .normChk .. => 6
  | .hcnt .. => 6
  | .hchk .. => 6
  | .lbx .. => 6
  | .mmp .. => 6
  | .mhealth .. => 6
  | .tcp .. => 6
  | .cpeRun .. => 6
  | .cpeStop .. => 6
  | .cpeRd .. => 6
  | .send .. => 6
  | .recvPost .. => 6
  | .recvCancel .. => 6
  | .recvProbe .. => 6
  | .ecnt .. => 6
  | .tokRd .. => 6
  | .ceHalt => 6
  | .ceAdd .. => 6
  | .ceSub .. => 6
  | .ceMul .. => 6
  | .ceMadd .. => 6
  | .ceAnd .. => 6
  | .ceOr .. => 6
  | .ceXor .. => 6
  | .ceShl .. => 6
  | .ceShr .. => 6
  | .ceAddi .. => 6
  | .ceLui .. => 6
  | .ceOri .. => 6
  | .ceMin .. => 6
  | .ceMax .. => 6
  | .ceBeq .. => 6
  | .ceBne .. => 6
  | .ceBlt .. => 6
  | .ceBge .. => 6
  | .ceJmp .. => 6
  | .ceLoopSet .. => 6
  | .ceLoopEnd .. => 6
  | .ceLdi .. => 6
  | .ceLdi64 .. => 6
  | .ceStw .. => 6
  | .ceTadr .. => 6
  | .ceTnext .. => 6
  | .ceMv .. => 6
  | .ceMvt .. => 6
  | .ceGat .. => 6
  | .ceScat .. => 6
  | .ceArr .. => 6
  | .ceTagset .. => 6
  | .ceRingCommit .. => 6
  | .ceRingWait .. => 6
  | .ceWfb => 6
  | .ceYieldctx => 6
  | .convXdecl .. => 7
  | .tktWait .. => 7
  | .tktPass .. => 7
  | .ixSet .. => 7
  | .ixLd .. => 7
  | .ixSt .. => 7
  | .ixRd .. => 7
  | .mmaCl .. => 7
  | .mmzCl .. => 7
  | .mmpCl .. => 7
  | .tcpColl .. => 7
  | .publish .. => 7
  | .bmtRd .. => 7
  | .bmtSet .. => 7
  | .cePublish .. => 7
  | _ => 5

/-- The encoding versions that have an instruction (R30, R31): from `since` on, but for shfl16, which is version 5's only. -/
def Instr.inVersion (i : Instr) (ver : Nat) : Bool :=
  match i with
  | .shfl16 .. => ver == 5
  | _ => i.since ≤ ver

/-- The format codes a vector conversion may name (R139, R163, R164). -/
def cvtFormat (f : BitVec 5) : Bool := 1 ≤ f.toNat && f.toNat ≤ 13

/-- The codes pack writes and unpack reads (R165, R167). -/
def packFormat (f : BitVec 5) : Bool := [3, 4, 5, 6, 7, 10, 11].contains f.toNat

/-- The 4-bit formats E2M1 and I4. -/
def nibbleFormat (f : BitVec 5) : Bool := f.toNat == 7 || f.toNat == 11

/-- The types an atomic operation accepts (R201). -/
def atomTypes (op : BitVec 3) : List Nat :=
  match op.toNat with
  | 0 => [8, 13, 17]
  | 1 => [2, 1]
  | 2 => [8, 13, 17]
  | 3 => [8, 13, 17]
  | _ => [16, 17]

/-- The system registers of R327, by number. -/
def sysRegNumber (r : BitVec 8) : Bool := r.toNat ≤ 0x0A || (0x10 ≤ r.toNat && r.toNat ≤ 0x17)

/-- A matrix operand: a q pair is one of q0 to q31 (R43, R51). -/
def matOperand (kind : BitVec 1) (n : BitVec 6) : Bool := kind == 0 || n.toNat < 32

/-- The completion field of a transfer: a barrier index is at most 15 (R263). -/
def completionField (kind : BitVec 1) (x : BitVec 6) : Bool := kind == 0 || x.toNat < 16

/-- Whether the fields of an instruction row hold no code that R51 calls an illegal instruction. Fields whose every value is
legal are not mentioned; operand alignment, rings, tags and privilege are checked at issue (R52). -/
def Instr.wf : Instr → Bool
  | .barArriveFinisher p _ _ => p != 7
  | .barSyncFinisher p _ => p != 7
  | .barRd _ _ s => s != 3
  | .ringInit k _ => k.toNat < 8
  | .ringWaitFull _ k => k.toNat < 8
  | .ringWaitFree _ k => k.toNat < 8
  | .ringCommit k => k.toNat < 8
  | .ringFree k => k.toNat < 8
  | .ringRd _ k _ => k.toNat < 8
  | .convDecl k _ => k.toNat < 8
  | .convXdecl k _ => k.toNat < 4
  | .convRd _ k _ => k.toNat < 8
  | .xbarArrive _ k => k.toNat < 8
  | .xbarWaitImm k _ => k.toNat < 8
  | .xbarWaitReg k _ => k.toNat < 8
  | .icmpI32 p c .. => p != 7 && c.toNat < 6
  | .icmpN32 p c .. => p != 7 && c.toNat < 6
  | .icmpI64 p c .. => p != 7 && c.toNat < 6
  | .fcmpF32 p .. => p != 7
  | .fcmpF64 p .. => p != 7
  | .plog p .. => p != 7
  | .voteAny p .. => p != 7
  | .voteAll p .. => p != 7
  | .qset q .. => q.toNat < 32
  | .qget _ q => q.toNat < 32
  | .permSet t .. => 1 ≤ t.toNat && t.toNat ≤ 3
  | .idr _ s => s.toNat < 15
  | .bfx _ _ _ pos len _ => 1 ≤ len.toNat && pos.toNat + len.toNat ≤ 32
  | .bfi _ _ _ pos len => 1 ≤ len.toNat && pos.toNat + len.toNat ≤ 32
  | .ffmalF32 _ _ _ _ _ _ _ rm => rm.toNat < 4
  | .ffmalF64 _ _ _ _ _ _ _ rm => rm.toNat < 4
  | .fsgn _ _ _ b n ty f => f.toNat < 3 && [1, 2, 3, 4].contains ty.toNat && (f == 2 || (b == 0 && n == 0))
  | .cvt _ _ _ fd fs rm _ => cvtFormat fd && cvtFormat fs && rm.toNat < 4
  | .pack _ _ _ b n q fd rm _ => q.toNat < 32 && packFormat fd && rm.toNat < 4 && n == 0 && (nibbleFormat fd || b == 0)
  | .unpack _ _ _ q fs rm hi => q.toNat < 32 && packFormat fs && rm.toNat < 4 && (nibbleFormat fs || hi == 0)
  | .scaleFit _ _ p s _ => p != 7 && s.toNat < 6
  | .normAcc k _ => k.toNat < 4
  | .normChk p k => p != 7 && k.toNat < 4
  | .hchk p => p != 7
  | .ldAcq _ _ _ sc sg z => sc.toNat < 6 && z.toNat < 5 && (sg == 0 || z.toNat ≤ 1)
  | .stRel _ _ _ sc z => sc.toNat < 6 && z.toNat < 5
  | .atom d _ _ _ ty sc r op => sc.toNat < 6 && (atomTypes op).contains ty.toNat && (r == 1 || d == 0)
  | .atomCas _ _ _ _ _ _ ty sc => sc.toNat < 6 && [16, 17].contains ty.toNat
  | .lbw _ _ z _ => z != 3
  | .lba _ _ z _ => z != 3
  | .lbc _ _ z _ => z != 3
  | .lbs _ _ z _ => z != 3
  | .sba _ _ z _ => z != 3
  | .sbc _ _ z _ => z != 3
  | .sbs _ _ z _ => z != 3
  | .lbx _ _ _ _ _ z => z != 3
  | .fence s => s.toNat < 6
  | .mfmt k _ => k.toNat < 8
  | .mma _ x a y b _ => matOperand x a && matOperand y b
  | .mmz _ x a y b _ => matOperand x a && matOperand y b
  | .mmp _ x a y b _ => matOperand x a && matOperand y b
  | .mmaCl _ x a y b _ => matOperand x a && matOperand y b
  | .mmzCl _ x a y b _ => matOperand x a && matOperand y b
  | .mmpCl _ x a y b _ => matOperand x a && matOperand y b
  | .accLd c .. => c.toNat < 5
  | .cpaB32 _ _ x _ kind => completionField kind x
  | .cpaB64 _ _ x _ kind => completionField kind x
  | .cpaB128 _ _ x _ kind => completionField kind x
  | .tcp _ _ _ x _ kind => completionField kind x
  | .tcpColl _ x _ kind => completionField kind x
  | .cpeRd _ _ s => s.toNat < 3
  | .bmtRd _ _ _ w => w.toNat < 4
  | .sysrd _ r => sysRegNumber r
  | .syswr _ r => sysRegNumber r
  | .perfRd _ s => s.toNat < 8
  | .ceLoopSet n _ _ => n.toNat < 4
  | .ceLoopEnd n _ => n.toNat < 4
  | _ => true

end Sys2Proof
end

