-- ==== Sys2Proof/Decode.lean ====
section
/-! DEFINITION. The decoder and, after it, the encoder, both written from the encodings of the spec (R40 to R51, R286, R287). -/

namespace Sys2Proof

/-- Why a word is no instruction (R51): each of these raises the illegal-instruction fault but `split`, which is clause fault subcode 5 (R37). -/
inductive DecodeErr where
  /-- No instruction of the class has this opcode, or a field that must be zero is not. -/
  | unassigned
  /-- The opcode is absent from the launch's encoding version (R31). -/
  | absent
  /-- A field holds a reserved code (R51). -/
  | reserved
  /-- The first word of a long instruction is the last word of its clause (R37). -/
  | split
  deriving DecidableEq, Repr

/-- Field [lo+len-1:lo] of a word. -/
def fld (w : Word) (lo len : Nat) : BitVec len := w.extractLsb' lo len

/-- The words of class CTL (R45, R72, R74, R87, R91, R94, R97, R100, R101, R104, R105). -/
def rawCtl (w : Word) : Option Instr :=
  match (fld w 25 7).toNat with
  | 0 => if fld w 3 22 = 0 then some .nop else none
  | 1 => some (.bra (fld w 3 22))
  | 2 => if fld w 19 6 = 0 ∧ fld w 3 8 = 0 then some (.brx (fld w 13 6) (fld w 11 2)) else none
  | 3 => some (.call (fld w 3 22))
  | 4 => if fld w 3 22 = 0 then some .ret else none
  | 5 => if fld w 3 22 = 0 then some .exit else none
  | 6 => if fld w 3 22 = 0 then some .yld else none
  | 7 => if fld w 11 14 = 0 then some (.brk (fld w 3 8)) else none
  | 8 => if fld w 11 14 = 0 then some (.trap (fld w 3 8)) else none
  | 16 => if fld w 19 6 = 0 ∧ fld w 3 12 = 0 then some (.joinEnrol (fld w 15 4)) else none
  | 17 => if fld w 19 6 = 0 ∧ fld w 3 12 = 0 then some (.joinWait (fld w 15 4)) else none
  | 18 => if fld w 19 6 = 0 ∧ fld w 3 12 = 0 then some (.joinStrike (fld w 15 4)) else none
  | 19 => if fld w 19 6 = 0 ∧ fld w 3 12 = 0 then some (.joinClr (fld w 15 4)) else none
  | 20 => if fld w 4 11 = 0 then some (.joinRd (fld w 19 6) (fld w 15 4) (fld w 3 1)) else none
  | 24 => if fld w 19 6 = 0 ∧ fld w 9 6 = 0 then some (.barInit (fld w 15 4) (fld w 3 6)) else none
  | 25 => if fld w 19 6 = 0 ∧ fld w 5 10 = 0 ∧ fld w 3 1 = 0 then some (.barArrive (fld w 15 4) (fld w 4 1)) else if fld w 19 3 = 0 ∧ fld w 5 10 = 0 ∧ fld w 3 1 = 1 then some (.barArriveFinisher (fld w 22 3) (fld w 15 4) (fld w 4 1)) else none
  | 26 => if fld w 19 6 = 0 ∧ fld w 4 11 = 0 then some (.barWaitImm (fld w 15 4) (fld w 3 1)) else if fld w 19 6 = 0 ∧ fld w 9 6 = 1 then some (.barWaitReg (fld w 15 4) (fld w 3 6)) else none
  | 27 => if fld w 19 6 = 0 ∧ fld w 3 12 = 0 then some (.barSync (fld w 15 4)) else if fld w 19 3 = 0 ∧ fld w 3 12 = 1 then some (.barSyncFinisher (fld w 22 3) (fld w 15 4)) else none
  | 28 => if fld w 19 6 = 0 ∧ fld w 9 6 = 0 then some (.barExpect (fld w 15 4) (fld w 3 6)) else none
  | 29 => if fld w 5 10 = 0 then some (.barRd (fld w 19 6) (fld w 15 4) (fld w 3 2)) else none
  | 32 => if fld w 19 6 = 0 ∧ fld w 3 12 = 0 then some (.tagWaitAll (fld w 15 4)) else none
  | 33 => if fld w 19 6 = 0 ∧ fld w 3 12 = 0 then some (.tagWaitAny (fld w 15 4)) else none
  | 34 => if fld w 3 12 = 0 then some (.tagFfr (fld w 19 6) (fld w 15 4)) else none
  | 35 => if fld w 19 6 = 0 ∧ fld w 3 12 = 0 then some (.tagClr (fld w 15 4)) else none
  | 36 => if fld w 4 15 = 0 then some (.tagRd (fld w 19 6) (fld w 3 1)) else none
  | 40 => if fld w 19 6 = 0 ∧ fld w 9 6 = 0 then some (.ringInit (fld w 15 4) (fld w 3 6)) else none
  | 41 => if fld w 3 12 = 0 then some (.ringWaitFull (fld w 19 6) (fld w 15 4)) else none
  | 42 => if fld w 3 12 = 0 then some (.ringWaitFree (fld w 19 6) (fld w 15 4)) else none
  | 43 => if fld w 19 6 = 0 ∧ fld w 3 12 = 0 then some (.ringCommit (fld w 15 4)) else none
  | 44 => if fld w 19 6 = 0 ∧ fld w 3 12 = 0 then some (.ringFree (fld w 15 4)) else none
  | 45 => if fld w 4 11 = 0 then some (.ringRd (fld w 19 6) (fld w 15 4) (fld w 3 1)) else none
  | 48 => if fld w 19 6 = 0 ∧ fld w 9 6 = 0 then some (.convDecl (fld w 15 4) (fld w 3 6)) else none
  | 49 => if fld w 19 6 = 0 ∧ fld w 9 6 = 0 then some (.convXdecl (fld w 15 4) (fld w 3 6)) else none
  | 50 => if fld w 4 11 = 0 then some (.convRd (fld w 19 6) (fld w 15 4) (fld w 3 1)) else none
  | 56 => if fld w 19 6 = 0 ∧ fld w 11 2 = 0 then some (.tktWait (fld w 13 6) (fld w 5 6) (fld w 3 2)) else none
  | 57 => if fld w 19 6 = 0 ∧ fld w 3 10 = 0 then some (.tktPass (fld w 13 6)) else none
  | 60 => if fld w 3 12 = 0 then some (.xbarArrive (fld w 19 6) (fld w 15 4)) else none
  | 61 => if fld w 19 6 = 0 ∧ fld w 4 11 = 0 then some (.xbarWaitImm (fld w 15 4) (fld w 3 1)) else if fld w 19 6 = 0 ∧ fld w 9 6 = 1 then some (.xbarWaitReg (fld w 15 4) (fld w 3 6)) else none
  | 64 => if fld w 3 10 = 0 then some (.launch (fld w 19 6) (fld w 13 6)) else none
  | 65 => if fld w 19 6 = 0 then some (.evtWait (fld w 13 6) (fld w 11 2) (fld w 5 6) (fld w 3 2)) else none
  | _ => none

/-- The words of class VEC (R46, R115, R119, R121, R124 to R137, R156 to R172). -/
def rawVec (v5 : Bool) (w : Word) (x : Word) : Option Instr :=
  match (fld w 25 7).toNat with
  | 0 => some (.iaddI32 (fld w 19 6) (fld w 13 6) (fld w 11 2) (fld w 5 6) (fld w 3 2))
  | 1 => some (.iaddI64 (fld w 19 6) (fld w 13 6) (fld w 11 2) (fld w 5 6) (fld w 3 2))
  | 2 => some (.isubI32 (fld w 19 6) (fld w 13 6) (fld w 11 2) (fld w 5 6) (fld w 3 2))
  | 3 => some (.isubI64 (fld w 19 6) (fld w 13 6) (fld w 11 2) (fld w 5 6) (fld w 3 2))
  | 4 => some (.imulI32 (fld w 19 6) (fld w 13 6) (fld w 11 2) (fld w 5 6) (fld w 3 2))
  | 5 => some (.imulhI32 (fld w 19 6) (fld w 13 6) (fld w 11 2) (fld w 5 6) (fld w 3 2))
  | 6 => some (.imulhN32 (fld w 19 6) (fld w 13 6) (fld w 11 2) (fld w 5 6) (fld w 3 2))
  | 7 => some (.imadI32 (fld w 19 6) (fld w 13 6) (fld w 11 2) (fld w 5 6) (fld w 3 2))
  | 8 => some (.iaddc (fld w 19 6) (fld w 13 6) (fld w 11 2) (fld w 5 6) (fld w 3 2))
  | 9 => some (.iminI32 (fld w 19 6) (fld w 13 6) (fld w 11 2) (fld w 5 6) (fld w 3 2))
  | 10 => some (.iminN32 (fld w 19 6) (fld w 13 6) (fld w 11 2) (fld w 5 6) (fld w 3 2))
  | 11 => some (.imaxI32 (fld w 19 6) (fld w 13 6) (fld w 11 2) (fld w 5 6) (fld w 3 2))
  | 12 => some (.imaxN32 (fld w 19 6) (fld w 13 6) (fld w 11 2) (fld w 5 6) (fld w 3 2))
  | 13 => if fld w 3 8 = 0 then some (.iabsI32 (fld w 19 6) (fld w 13 6) (fld w 11 2)) else none
  | 14 => some (.imulwN32 (fld w 19 6) (fld w 13 6) (fld w 11 2) (fld w 5 6) (fld w 3 2))
  | 16 => some (.land (fld w 19 6) (fld w 13 6) (fld w 11 2) (fld w 5 6) (fld w 3 2))
  | 17 => some (.lor (fld w 19 6) (fld w 13 6) (fld w 11 2) (fld w 5 6) (fld w 3 2))
  | 18 => some (.lxor (fld w 19 6) (fld w 13 6) (fld w 11 2) (fld w 5 6) (fld w 3 2))
  | 19 => some (.andn (fld w 19 6) (fld w 13 6) (fld w 11 2) (fld w 5 6) (fld w 3 2))
  | 20 => some (.shl (fld w 19 6) (fld w 13 6) (fld w 11 2) (fld w 5 6) (fld w 3 2))
  | 21 => some (.shr (fld w 19 6) (fld w 13 6) (fld w 11 2) (fld w 5 6) (fld w 3 2))
  | 22 => some (.sar (fld w 19 6) (fld w 13 6) (fld w 11 2) (fld w 5 6) (fld w 3 2))
  | 23 => some (.rotl (fld w 19 6) (fld w 13 6) (fld w 11 2) (fld w 5 6) (fld w 3 2))
  | 24 => if fld w 3 8 = 0 then some (.popc (fld w 19 6) (fld w 13 6) (fld w 11 2)) else none
  | 25 => if fld w 3 8 = 0 then some (.clz (fld w 19 6) (fld w 13 6) (fld w 11 2)) else none
  | 26 => if fld w 3 8 = 0 then some (.brev (fld w 19 6) (fld w 13 6) (fld w 11 2)) else none
  | 27 => if fld w 3 8 = 0 ∧ fld x 12 20 = 0 then some (.bfx (fld w 19 6) (fld w 13 6) (fld w 11 2) (fld x 0 5) (fld x 5 6) (fld x 11 1)) else none
  | 28 => if fld w 3 8 = 0 ∧ fld x 11 21 = 0 then some (.bfi (fld w 19 6) (fld w 13 6) (fld w 11 2) (fld x 0 5) (fld x 5 6)) else none
  | 32 => some (.iaddi (fld w 19 6) (fld w 13 6) (fld w 11 2) (fld w 3 8))
  | 33 => some (.andi (fld w 19 6) (fld w 13 6) (fld w 11 2) (fld w 3 8))
  | 34 => some (.ori (fld w 19 6) (fld w 13 6) (fld w 11 2) (fld w 3 8))
  | 35 => some (.xori (fld w 19 6) (fld w 13 6) (fld w 11 2) (fld w 3 8))
  | 36 => if fld w 8 3 = 0 then some (.shli (fld w 19 6) (fld w 13 6) (fld w 11 2) (fld w 3 5)) else none
  | 37 => if fld w 8 3 = 0 then some (.shri (fld w 19 6) (fld w 13 6) (fld w 11 2) (fld w 3 5)) else none
  | 38 => if fld w 8 3 = 0 then some (.sari (fld w 19 6) (fld w 13 6) (fld w 11 2) (fld w 3 5)) else none
  | 39 => if fld w 11 8 = 0 then some (.movi (fld w 19 6) (fld w 3 8)) else none
  | 40 => some (.icmpI32 (fld w 22 3) (fld w 19 3) (fld w 13 6) (fld w 11 2) (fld w 5 6) (fld w 3 2))
  | 41 => some (.icmpN32 (fld w 22 3) (fld w 19 3) (fld w 13 6) (fld w 11 2) (fld w 5 6) (fld w 3 2))
  | 42 => some (.icmpI64 (fld w 22 3) (fld w 19 3) (fld w 13 6) (fld w 11 2) (fld w 5 6) (fld w 3 2))
  | 43 => some (.fcmpF32 (fld w 22 3) (fld w 19 3) (fld w 13 6) (fld w 11 2) (fld w 5 6) (fld w 3 2))
  | 44 => some (.fcmpF64 (fld w 22 3) (fld w 19 3) (fld w 13 6) (fld w 11 2) (fld w 5 6) (fld w 3 2))
  | 45 => if fld w 11 5 = 0 ∧ fld w 3 5 = 0 then some (.plog (fld w 22 3) (fld w 19 3) (fld w 16 3) (fld w 8 3)) else none
  | 46 => if fld x 26 6 = 0 ∧ fld x 8 18 = 0 ∧ fld x 0 5 = 0 then some (.sel (fld w 19 6) (fld w 13 6) (fld w 11 2) (fld w 5 6) (fld w 3 2) (fld x 5 3)) else none
  | 47 => if fld w 19 6 = 0 ∧ fld w 3 8 = 0 then some (.pmovVp (fld w 13 6) (fld w 11 2)) else if fld w 3 16 = 4 then some (.pmovPv (fld w 19 6)) else none
  | 48 => if fld w 3 8 = 0 then some (.mov (fld w 19 6) (fld w 13 6) (fld w 11 2)) else none
  | 49 => if fld w 3 16 = 0 then some (.movl (fld w 19 6) (fld x 0 32)) else none
  | 50 => if fld w 3 8 = 0 then some (.qset (fld w 19 6) (fld w 13 6) (fld w 11 2)) else none
  | 51 => if fld w 3 10 = 0 then some (.qget (fld w 19 6) (fld w 13 6)) else none
  | 52 => if fld w 3 8 = 0 then some (.permSet (fld w 19 6) (fld w 13 6) (fld w 11 2)) else none
  | 53 => if v5 = false ∧ fld w 11 2 = 0 then some (.shfl (fld w 19 6) (fld w 13 6) (fld w 5 6) (fld w 3 2)) else if v5 = true ∧ fld w 11 2 = 0 then some (.shfl16 (fld w 19 6) (fld w 13 6) (fld w 9 2) (fld w 3 6)) else none
  | 54 => if fld w 19 3 = 0 ∧ fld w 3 13 = 0 then some (.voteAny (fld w 22 3) (fld w 16 3)) else if fld w 19 3 = 1 ∧ fld w 3 13 = 0 then some (.voteAll (fld w 22 3) (fld w 16 3)) else if fld w 19 6 = 2 ∧ fld w 11 5 = 0 ∧ fld w 3 2 = 0 then some (.voteBallot (fld w 16 3) (fld w 5 6)) else none
  | 55 => if fld w 11 8 = 0 then some (.idr (fld w 19 6) (fld w 3 8)) else none
  | 64 => some (.faddF32 (fld w 19 6) (fld w 13 6) (fld w 11 2) (fld w 5 6) (fld w 3 2))
  | 65 => some (.faddF64 (fld w 19 6) (fld w 13 6) (fld w 11 2) (fld w 5 6) (fld w 3 2))
  | 66 => some (.faddH2 (fld w 19 6) (fld w 13 6) (fld w 11 2) (fld w 5 6) (fld w 3 2))
  | 67 => some (.faddB2 (fld w 19 6) (fld w 13 6) (fld w 11 2) (fld w 5 6) (fld w 3 2))
  | 68 => some (.fsubF32 (fld w 19 6) (fld w 13 6) (fld w 11 2) (fld w 5 6) (fld w 3 2))
  | 69 => some (.fsubF64 (fld w 19 6) (fld w 13 6) (fld w 11 2) (fld w 5 6) (fld w 3 2))
  | 70 => some (.fmulF32 (fld w 19 6) (fld w 13 6) (fld w 11 2) (fld w 5 6) (fld w 3 2))
  | 71 => some (.fmulF64 (fld w 19 6) (fld w 13 6) (fld w 11 2) (fld w 5 6) (fld w 3 2))
  | 72 => some (.fmulH2 (fld w 19 6) (fld w 13 6) (fld w 11 2) (fld w 5 6) (fld w 3 2))
  | 73 => some (.fmulB2 (fld w 19 6) (fld w 13 6) (fld w 11 2) (fld w 5 6) (fld w 3 2))
  | 74 => some (.ffmaF32 (fld w 19 6) (fld w 13 6) (fld w 11 2) (fld w 5 6) (fld w 3 2))
  | 75 => some (.ffmaF64 (fld w 19 6) (fld w 13 6) (fld w 11 2) (fld w 5 6) (fld w 3 2))
  | 76 => some (.ffmaH2 (fld w 19 6) (fld w 13 6) (fld w 11 2) (fld w 5 6) (fld w 3 2))
  | 77 => some (.ffmaB2 (fld w 19 6) (fld w 13 6) (fld w 11 2) (fld w 5 6) (fld w 3 2))
  | 78 => if fld x 11 13 = 0 ∧ fld x 0 8 = 0 then some (.ffmalF32 (fld w 19 6) (fld w 13 6) (fld w 11 2) (fld w 5 6) (fld w 3 2) (fld x 26 6) (fld x 24 2) (fld x 8 3)) else none
  | 79 => if fld x 11 13 = 0 ∧ fld x 0 8 = 0 then some (.ffmalF64 (fld w 19 6) (fld w 13 6) (fld w 11 2) (fld w 5 6) (fld w 3 2) (fld x 26 6) (fld x 24 2) (fld x 8 3)) else none
  | 80 => some (.fminF32 (fld w 19 6) (fld w 13 6) (fld w 11 2) (fld w 5 6) (fld w 3 2))
  | 81 => some (.fminF64 (fld w 19 6) (fld w 13 6) (fld w 11 2) (fld w 5 6) (fld w 3 2))
  | 82 => some (.fmaxF32 (fld w 19 6) (fld w 13 6) (fld w 11 2) (fld w 5 6) (fld w 3 2))
  | 83 => some (.fmaxF64 (fld w 19 6) (fld w 13 6) (fld w 11 2) (fld w 5 6) (fld w 3 2))
  | 84 => if fld x 26 6 = 0 ∧ fld x 19 7 = 0 ∧ fld x 5 9 = 0 then some (.fsgn (fld w 19 6) (fld w 13 6) (fld w 11 2) (fld w 5 6) (fld w 3 2) (fld x 14 5) (fld x 0 5)) else none
  | 88 => if fld w 3 8 = 0 then some (.frcp (fld w 19 6) (fld w 13 6) (fld w 11 2)) else none
  | 89 => if fld w 3 8 = 0 then some (.frsq (fld w 19 6) (fld w 13 6) (fld w 11 2)) else none
  | 90 => if fld w 3 8 = 0 then some (.fsqrt (fld w 19 6) (fld w 13 6) (fld w 11 2)) else none
  | 91 => if fld w 3 8 = 0 then some (.fexp2 (fld w 19 6) (fld w 13 6) (fld w 11 2)) else none
  | 92 => if fld w 3 8 = 0 then some (.flog2 (fld w 19 6) (fld w 13 6) (fld w 11 2)) else none
  | 93 => if fld w 3 8 = 0 then some (.fsin (fld w 19 6) (fld w 13 6) (fld w 11 2)) else none
  | 94 => if fld w 3 8 = 0 then some (.fcos (fld w 19 6) (fld w 13 6) (fld w 11 2)) else none
  | 96 => if fld w 3 8 = 0 ∧ fld x 26 6 = 0 ∧ fld x 24 2 = 0 ∧ fld x 11 3 = 0 ∧ fld x 1 7 = 0 then some (.cvt (fld w 19 6) (fld w 13 6) (fld w 11 2) (fld x 19 5) (fld x 14 5) (fld x 8 3) (fld x 0 1)) else none
  | 97 => if fld x 24 2 = 0 ∧ fld x 14 5 = 2 ∧ fld x 11 3 = 0 ∧ fld x 1 7 = 0 then some (.pack (fld w 19 6) (fld w 13 6) (fld w 11 2) (fld w 5 6) (fld w 3 2) (fld x 26 6) (fld x 19 5) (fld x 8 3) (fld x 0 1)) else none
  | 98 => if fld w 3 8 = 0 ∧ fld x 24 2 = 0 ∧ fld x 19 5 = 2 ∧ fld x 11 3 = 0 ∧ fld x 2 6 = 0 ∧ fld x 0 1 = 0 then some (.unpack (fld w 19 6) (fld w 13 6) (fld w 11 2) (fld x 26 6) (fld x 14 5) (fld x 8 3) (fld x 1 1)) else none
  | 104 => if fld w 3 10 = 0 then some (.amax (fld w 19 6) (fld w 13 6)) else if fld w 3 10 = 4 then some (.amaxQuad (fld w 19 6) (fld w 13 6)) else none
  | 105 => if fld w 11 2 = 0 then some (.scaleFit (fld w 19 6) (fld w 13 6) (fld w 8 3) (fld w 5 3) (fld w 3 2)) else none
  | 106 => if fld w 19 6 = 0 ∧ fld w 9 6 = 0 then some (.normAcc (fld w 15 4) (fld w 3 6)) else none
  | 107 => if fld w 19 3 = 0 ∧ fld w 3 12 = 0 then some (.normChk (fld w 22 3) (fld w 15 4)) else none
  | 108 => if fld w 3 16 = 0 then some (.hcnt (fld w 19 6)) else none
  | 109 => if fld w 3 19 = 0 then some (.hchk (fld w 22 3)) else none
  | 112 => if fld w 21 4 = 0 ∧ fld w 3 8 = 0 then some (.ixSet (fld w 19 2) (fld w 13 6) (fld w 11 2)) else none
  | 113 => if fld w 15 4 = 0 ∧ fld w 11 2 = 0 then some (.ixLd (fld w 19 6) (fld w 13 2) (fld w 3 8)) else none
  | 114 => if fld w 15 4 = 0 ∧ fld w 11 2 = 0 then some (.ixSt (fld w 19 6) (fld w 13 2) (fld w 3 8)) else none
  | 115 => if fld w 15 4 = 0 ∧ fld w 3 10 = 0 then some (.ixRd (fld w 19 6) (fld w 13 2)) else none
  | _ => none

/-- The words of class MEM (R47, R198 to R207). -/
def rawMem (w : Word) (x : Word) : Option Instr :=
  match (fld w 25 7).toNat with
  | 0 => some (.ldB8 (fld w 19 6) (fld w 13 6) (fld w 3 10))
  | 1 => some (.ldI8 (fld w 19 6) (fld w 13 6) (fld w 3 10))
  | 2 => some (.ldB16 (fld w 19 6) (fld w 13 6) (fld w 3 10))
  | 3 => some (.ldI16 (fld w 19 6) (fld w 13 6) (fld w 3 10))
  | 4 => some (.ldB32 (fld w 19 6) (fld w 13 6) (fld w 3 10))
  | 5 => some (.ldB64 (fld w 19 6) (fld w 13 6) (fld w 3 10))
  | 6 => some (.ldB128 (fld w 19 6) (fld w 13 6) (fld w 3 10))
  | 8 => some (.stB8 (fld w 19 6) (fld w 13 6) (fld w 3 10))
  | 9 => some (.stB16 (fld w 19 6) (fld w 13 6) (fld w 3 10))
  | 10 => some (.stB32 (fld w 19 6) (fld w 13 6) (fld w 3 10))
  | 11 => some (.stB64 (fld w 19 6) (fld w 13 6) (fld w 3 10))
  | 12 => some (.stB128 (fld w 19 6) (fld w 13 6) (fld w 3 10))
  | 16 => if fld w 11 2 = 0 ∧ fld x 26 6 = 0 ∧ fld x 14 12 = 0 ∧ fld x 4 7 = 0 then some (.ldAcq (fld w 19 6) (fld w 13 6) (fld w 3 8) (fld x 11 3) (fld x 3 1) (fld x 0 3)) else none
  | 17 => if fld w 11 2 = 0 ∧ fld x 26 6 = 0 ∧ fld x 14 12 = 0 ∧ fld x 3 8 = 0 then some (.stRel (fld w 19 6) (fld w 13 6) (fld w 3 8) (fld x 11 3) (fld x 0 3)) else none
  | 24 => if fld w 11 2 = 0 ∧ fld x 26 6 = 0 ∧ fld x 19 7 = 0 ∧ fld x 4 7 = 0 then some (.atom (fld w 19 6) (fld w 13 6) (fld w 5 6) (fld w 3 2) (fld x 14 5) (fld x 11 3) (fld x 3 1) (fld x 0 3)) else none
  | 25 => if fld w 11 2 = 0 ∧ fld x 19 5 = 0 ∧ fld x 0 11 = 0 then some (.atomCas (fld w 19 6) (fld w 13 6) (fld w 5 6) (fld w 3 2) (fld x 26 6) (fld x 24 2) (fld x 14 5) (fld x 11 3)) else none
  | 32 => if fld w 11 2 = 0 then some (.lbw (fld w 19 6) (fld w 13 6) (fld w 9 2) (fld w 3 6)) else none
  | 33 => if fld w 11 2 = 0 then some (.lba (fld w 19 6) (fld w 13 6) (fld w 9 2) (fld w 3 6)) else none
  | 34 => if fld w 11 2 = 0 then some (.lbc (fld w 19 6) (fld w 13 6) (fld w 9 2) (fld w 3 6)) else none
  | 35 => if fld w 11 2 = 0 then some (.lbs (fld w 19 6) (fld w 13 6) (fld w 9 2) (fld w 3 6)) else none
  | 36 => if fld w 11 2 = 0 then some (.sba (fld w 19 6) (fld w 13 6) (fld w 9 2) (fld w 3 6)) else none
  | 37 => if fld w 11 2 = 0 then some (.sbc (fld w 19 6) (fld w 13 6) (fld w 9 2) (fld w 3 6)) else none
  | 38 => if fld w 11 2 = 0 then some (.sbs (fld w 19 6) (fld w 13 6) (fld w 9 2) (fld w 3 6)) else none
  | 39 => if fld w 11 2 = 0 ∧ fld x 26 6 = 0 ∧ fld x 5 21 = 0 then some (.lbx (fld w 19 6) (fld w 13 6) (fld w 3 8) (fld x 3 2) (fld x 2 1) (fld x 0 2)) else none
  | 40 => if fld w 6 19 = 0 then some (.fence (fld w 3 3)) else none
  | 48 => if fld w 19 6 = 0 ∧ fld w 4 9 = 0 then some (.pref (fld w 13 6) (fld w 3 1)) else none
  | 49 => if fld w 3 22 = 0 then some .l1Inv else none
  | _ => none

/-- The words of class MAT (R48, R236, R250 to R255). -/
def rawMat (w : Word) : Option Instr :=
  match (fld w 25 7).toNat with
  | 0 => if fld w 19 6 = 0 ∧ fld w 7 8 = 0 then some (.mfmt (fld w 15 4) (fld w 3 4)) else none
  | 1 => some (.mma (fld w 22 3) (fld w 21 1) (fld w 15 6) (fld w 14 1) (fld w 8 6) (fld w 3 5))
  | 2 => some (.mmz (fld w 22 3) (fld w 21 1) (fld w 15 6) (fld w 14 1) (fld w 8 6) (fld w 3 5))
  | 3 => some (.mmp (fld w 22 3) (fld w 21 1) (fld w 15 6) (fld w 14 1) (fld w 8 6) (fld w 3 5))
  | 4 => some (.mmaCl (fld w 22 3) (fld w 21 1) (fld w 15 6) (fld w 14 1) (fld w 8 6) (fld w 3 5))
  | 5 => some (.mmzCl (fld w 22 3) (fld w 21 1) (fld w 15 6) (fld w 14 1) (fld w 8 6) (fld w 3 5))
  | 6 => some (.mmpCl (fld w 22 3) (fld w 21 1) (fld w 15 6) (fld w 14 1) (fld w 8 6) (fld w 3 5))
  | 8 => if fld w 21 1 = 0 ∧ fld w 14 1 = 0 then some (.accLd (fld w 22 3) (fld w 15 6) (fld w 8 6) (fld w 3 5)) else none
  | 9 => if fld w 21 4 = 0 ∧ fld w 14 1 = 0 then some (.accSt (fld w 15 6) (fld w 8 6) (fld w 3 5)) else none
  | 10 => if fld w 13 9 = 0 then some (.accClr (fld w 22 3) (fld w 8 5) (fld w 3 5)) else none
  | 11 => if fld w 20 2 = 0 ∧ fld w 13 2 = 0 then some (.accCp (fld w 22 3) (fld w 15 5) (fld w 8 5) (fld w 3 5)) else none
  | 16 => if fld w 19 6 = 0 ∧ fld w 3 12 = 0 then some (.mfence (fld w 15 4)) else none
  | 17 => if fld w 3 22 = 0 then some .mwait else none
  | 24 => if fld w 18 1 = 0 ∧ fld w 3 10 = 0 then some (.mhealth (fld w 19 6) (fld w 13 5)) else none
  | _ => none

/-- The words of class XFR (R49, R263, R273, R278 to R283, R304 to R321). -/
def rawXfr (w : Word) (x : Word) : Option Instr :=
  match (fld w 25 7).toNat with
  | 0 => if fld w 3 10 = 0 ∧ fld x 2 24 = 0 then some (.cpaB32 (fld w 19 6) (fld w 13 6) (fld x 26 6) (fld x 1 1) (fld x 0 1)) else none
  | 1 => if fld w 3 10 = 0 ∧ fld x 2 24 = 0 then some (.cpaB64 (fld w 19 6) (fld w 13 6) (fld x 26 6) (fld x 1 1) (fld x 0 1)) else none
  | 2 => if fld w 3 10 = 0 ∧ fld x 2 24 = 0 then some (.cpaB128 (fld w 19 6) (fld w 13 6) (fld x 26 6) (fld x 1 1) (fld x 0 1)) else none
  | 8 => if fld w 11 2 = 0 ∧ fld w 3 2 = 0 ∧ fld x 2 24 = 0 then some (.tcp (fld w 19 6) (fld w 13 6) (fld w 5 6) (fld x 26 6) (fld x 1 1) (fld x 0 1)) else none
  | 9 => if fld w 19 6 = 0 ∧ fld w 3 10 = 0 ∧ fld x 2 24 = 0 then some (.tcpColl (fld w 13 6) (fld x 26 6) (fld x 1 1) (fld x 0 1)) else none
  | 16 => if fld w 11 2 = 0 ∧ fld w 3 2 = 0 then some (.cpeRun (fld w 19 6) (fld w 13 6) (fld w 5 6)) else none
  | 17 => if fld w 19 6 = 0 ∧ fld w 3 10 = 0 then some (.cpeStop (fld w 13 6)) else none
  | 18 => if fld w 11 2 = 0 ∧ fld w 3 2 = 0 then some (.cpeRd (fld w 19 6) (fld w 13 6) (fld w 5 6)) else none
  | 24 => if fld w 3 8 = 0 then some (.publish (fld w 19 6) (fld w 13 6) (fld w 11 2)) else none
  | 25 => if fld w 3 2 = 0 then some (.bmtRd (fld w 19 6) (fld w 13 6) (fld w 11 2) (fld w 5 6)) else none
  | 32 => if fld w 19 6 = 0 ∧ fld w 3 10 = 0 then some (.send (fld w 13 6)) else none
  | 33 => if fld w 3 10 = 0 then some (.recvPost (fld w 19 6) (fld w 13 6)) else none
  | 34 => if fld w 3 8 = 0 then some (.recvCancel (fld w 19 6) (fld w 13 6) (fld w 11 2)) else none
  | 35 => if fld w 3 10 = 0 then some (.recvProbe (fld w 19 6) (fld w 13 6)) else none
  | _ => none

/-- The words of class SYS (R50, R328, R347). -/
def rawSys (w : Word) : Option Instr :=
  match (fld w 25 7).toNat with
  | 0 => if fld w 11 8 = 0 then some (.sysrd (fld w 19 6) (fld w 3 8)) else none
  | 1 => if fld w 19 6 = 0 ∧ fld w 11 2 = 0 then some (.syswr (fld w 13 6) (fld w 3 8)) else none
  | 2 => if fld w 3 22 = 0 then some .eret else none
  | 3 => if fld w 3 16 = 0 then some (.ecnt (fld w 19 6)) else none
  | 4 => if fld w 3 16 = 0 then some (.clkRd (fld w 19 6)) else none
  | 5 => if fld w 19 6 = 0 ∧ fld w 3 10 = 0 then some (.tlbInvPage (fld w 13 6)) else if fld w 3 22 = 65536 then some .tlbInvCtx else if fld w 3 22 = 131072 then some .tlbInvAll else none
  | 6 => if fld w 19 6 = 0 ∧ fld w 3 2 = 0 then some (.bmtSet (fld w 13 6) (fld w 11 2) (fld w 5 6)) else none
  | 7 => if fld w 3 10 = 0 then some (.parkCtlResume (fld w 19 6) (fld w 13 6)) else if fld w 3 10 = 4 then some (.parkCtlKill (fld w 19 6) (fld w 13 6)) else if fld w 3 10 = 8 then some (.parkCtlStop (fld w 19 6) (fld w 13 6)) else none
  | 8 => if fld w 19 6 = 0 ∧ fld w 3 10 = 0 then some (.dbgSel (fld w 13 6)) else if fld w 19 6 = 0 ∧ fld w 3 10 = 1 then some (.dbgStep (fld w 13 6)) else none
  | 9 => if fld w 3 22 = 0 then some .halt else none
  | 10 => if fld w 11 8 = 0 then some (.perfRd (fld w 19 6) (fld w 3 8)) else none
  | 11 => if fld w 3 22 = 0 then some .cacheOpIinv else if fld w 3 22 = 1 then some .cacheOpDinv else if fld w 19 6 = 0 ∧ fld w 3 10 = 2 then some (.cacheOpL2wb (fld w 13 6)) else if fld w 19 6 = 0 ∧ fld w 3 10 = 3 then some (.cacheOpL2key (fld w 13 6)) else if fld w 3 22 = 4 then some .cacheOpL2all else none
  | 12 => if fld w 3 16 = 0 then some (.tokRd (fld w 19 6)) else none
  | 13 => if fld w 3 10 = 0 then some (.faultRd (fld w 19 6) (fld w 13 6)) else none
  | _ => none

/-- The words of the copy engine (R286, R287). -/
def rawCe (w : Word) : Option Instr :=
  match (fld w 26 6).toNat with
  | 0 => if fld w 0 26 = 0 then some .ceHalt else none
  | 1 => if fld w 0 11 = 0 then some (.ceAdd (fld w 21 5) (fld w 16 5) (fld w 11 5)) else none
  | 2 => if fld w 0 11 = 0 then some (.ceSub (fld w 21 5) (fld w 16 5) (fld w 11 5)) else none
  | 3 => if fld w 0 11 = 0 then some (.ceMul (fld w 21 5) (fld w 16 5) (fld w 11 5)) else none
  | 4 => if fld w 0 11 = 0 then some (.ceMadd (fld w 21 5) (fld w 16 5) (fld w 11 5)) else none
  | 5 => if fld w 0 11 = 0 then some (.ceAnd (fld w 21 5) (fld w 16 5) (fld w 11 5)) else none
  | 6 => if fld w 0 11 = 0 then some (.ceOr (fld w 21 5) (fld w 16 5) (fld w 11 5)) else none
  | 7 => if fld w 0 11 = 0 then some (.ceXor (fld w 21 5) (fld w 16 5) (fld w 11 5)) else none
  | 8 => if fld w 0 11 = 0 then some (.ceShl (fld w 21 5) (fld w 16 5) (fld w 11 5)) else none
  | 9 => if fld w 0 11 = 0 then some (.ceShr (fld w 21 5) (fld w 16 5) (fld w 11 5)) else none
  | 10 => some (.ceAddi (fld w 21 5) (fld w 16 5) (fld w 0 16))
  | 11 => some (.ceLui (fld w 21 5) (fld w 16 5) (fld w 0 16))
  | 12 => some (.ceOri (fld w 21 5) (fld w 16 5) (fld w 0 16))
  | 13 => if fld w 0 11 = 0 then some (.ceMin (fld w 21 5) (fld w 16 5) (fld w 11 5)) else none
  | 14 => if fld w 0 11 = 0 then some (.ceMax (fld w 21 5) (fld w 16 5) (fld w 11 5)) else none
  | 16 => some (.ceBeq (fld w 21 5) (fld w 16 5) (fld w 0 16))
  | 17 => some (.ceBne (fld w 21 5) (fld w 16 5) (fld w 0 16))
  | 18 => some (.ceBlt (fld w 21 5) (fld w 16 5) (fld w 0 16))
  | 19 => some (.ceBge (fld w 21 5) (fld w 16 5) (fld w 0 16))
  | 20 => if fld w 16 5 = 0 then some (.ceJmp (fld w 21 5) (fld w 0 16)) else none
  | 21 => some (.ceLoopSet (fld w 21 5) (fld w 16 5) (fld w 0 16))
  | 22 => if fld w 16 5 = 0 then some (.ceLoopEnd (fld w 21 5) (fld w 0 16)) else none
  | 24 => some (.ceLdi (fld w 21 5) (fld w 16 5) (fld w 0 16))
  | 25 => some (.ceLdi64 (fld w 21 5) (fld w 16 5) (fld w 0 16))
  | 26 => some (.ceStw (fld w 21 5) (fld w 16 5) (fld w 0 16))
  | 32 => if fld w 0 11 = 0 then some (.ceTadr (fld w 21 5) (fld w 16 5) (fld w 11 5)) else none
  | 33 => if fld w 0 11 = 0 then some (.ceTnext (fld w 21 5) (fld w 16 5) (fld w 11 5)) else none
  | 34 => if fld w 1 10 = 0 then some (.ceMv (fld w 21 5) (fld w 16 5) (fld w 11 5) (fld w 0 1)) else none
  | 35 => if fld w 1 10 = 0 then some (.ceMvt (fld w 21 5) (fld w 16 5) (fld w 11 5) (fld w 0 1)) else none
  | 36 => if fld w 1 10 = 0 then some (.ceGat (fld w 21 5) (fld w 16 5) (fld w 11 5) (fld w 0 1)) else none
  | 37 => if fld w 1 10 = 0 then some (.ceScat (fld w 21 5) (fld w 16 5) (fld w 11 5) (fld w 0 1)) else none
  | 40 => if fld w 0 16 = 0 then some (.ceArr (fld w 21 5) (fld w 16 5)) else none
  | 41 => if fld w 6 20 = 0 then some (.ceTagset (fld w 0 6)) else none
  | 42 => if fld w 3 23 = 0 then some (.ceRingCommit (fld w 0 3)) else none
  | 43 => if fld w 3 18 = 0 then some (.ceRingWait (fld w 21 5) (fld w 0 3)) else none
  | 44 => if fld w 21 5 = 0 ∧ fld w 0 16 = 0 then some (.cePublish (fld w 16 5)) else none
  | 45 => if fld w 0 26 = 0 then some .ceWfb else none
  | 46 => if fld w 0 26 = 0 then some .ceYieldctx else none
  | _ => none

/-- The opcodes of a class that begin a long instruction, each with the first version that has it (R31, R42, R45 to R49). -/
def longOps (c : Cls) : List (Nat × Nat) :=
  match c with
  | .vec => [(0x1B, 5), (0x1C, 5), (0x2E, 5), (0x31, 5), (0x4E, 5), (0x4F, 5), (0x54, 5), (0x60, 5), (0x61, 6), (0x62, 6)]
  | .mem => [(0x10, 5), (0x11, 5), (0x18, 5), (0x19, 5), (0x27, 6)]
  | .xfr => [(0, 5), (1, 5), (2, 5), (8, 6), (9, 7)]
  | _ => []

/-- Whether a word of the class begins a long instruction of a version; an opcode that the version lacks begins none (R30, R51). -/
def isLong (c : Cls) (ver : Nat) (w : Word) : Bool := (longOps c).any (fun p => p.1 == (fld w 25 7).toNat && decide (p.2 ≤ ver))

/-- The instruction whose fields the words hold, before the checks of versions and codes. -/
def rawDecode (c : Cls) (ver : Nat) (w x : Word) : Option Instr :=
  match c with
  | .ctl => rawCtl w
  | .vec => rawVec (ver == 5) w x
  | .mem => rawMem w x
  | .mat => rawMat w
  | .xfr => rawXfr w x
  | .sys => rawSys w
  | .ce => rawCe w

/-- Decodes a word, and the word after it in its clause if there is one (R30, R51). -/
def decodeWord (c : Cls) (ver : Nat) (w : Word) (x : Option Word) : Except DecodeErr Instr :=
  if isLong c ver w && x.isNone then .error .split
  else
    match rawDecode c ver w (x.getD 0) with
    | none => .error .unassigned
    | some i =>
      if !i.inVersion ver then .error .absent
      else if !i.wf then .error .reserved
      else .ok i

/-- The guard of a thread instruction's first word (R40, R41). -/
def guardOf (w : Word) : BitVec 3 := fld w 0 3

/-- The bits of a program's bytes as a word, lowest address lowest (R1, R22). -/
def wordOfBytes (b0 b1 b2 b3 : Byte) : Word := b3 ++ b2 ++ b1 ++ b0

/-- The four bytes of a word, lowest address first. -/
def bytesOfWord (w : Word) : List Byte := [w.extractLsb' 0 8, w.extractLsb' 8 8, w.extractLsb' 16 8, w.extractLsb' 24 8]

/-- Decodes the instruction at the head of a clause's remaining bytes; what is left of them after it. Total on any bytes. -/
def decodeBytes (c : Cls) (ver : Nat) (bs : List Byte) : Except DecodeErr (Instr × List Byte) :=
  match bs with
  | b0 :: b1 :: b2 :: b3 :: rest =>
    let w := wordOfBytes b0 b1 b2 b3
    match rest with
    | c0 :: c1 :: c2 :: c3 :: rest' =>
      match decodeWord c ver w (some (wordOfBytes c0 c1 c2 c3)) with
      | .ok i => .ok (i, if isLong c ver w then rest' else rest)
      | .error e => .error e
    | _ =>
      match decodeWord c ver w none with
      | .ok i => .ok (i, rest)
      | .error e => .error e
  | _ => .error .split

/-- The order in which `decodeTableWord` tries the classes, those that fix more bits of a word first: the opcode table's words do not say in which
class they stand. -/
def tableClasses : List Cls := [.sys, .ctl, .mat, .xfr, .mem, .vec, .ce]

/-- The first class of a list, with its instruction, in which a word and a zero extension word decode for version 7. -/
def firstClass (w : Word) : List Cls → Option (Cls × Instr)
  | [] => none
  | c :: cs =>
    match decodeBytes c 7 (bytesOfWord w ++ bytesOfWord 0) with
    | .ok (i, _) => some (c, i)
    | .error _ => firstClass w cs

/-- The class `decodeTableWord` finds, and the instruction. -/
def tableInstr (w : Word) : Option (Cls × Instr) := firstClass w tableClasses

/-- The instruction whose first word is `w`, its further bits zero. A word of the opcode table has 32 bits, whatever `nbits` says. -/
def decodeTableWord (_nbits w : Nat) : Option Instr := (tableInstr (BitVec.ofNat 32 w)).map (·.2)

/-- The words of an instruction row under guard `g`, first word first, written from the same encodings. The copy engine's words have no guard; an event row has no words. -/
def encode (g : BitVec 3) : Instr → List Word
  | .nop => [0x0#7 ++ 0x0#22 ++ g]
  | .bra o => [0x1#7 ++ o ++ g]
  | .brx a m => [0x2#7 ++ 0x0#6 ++ a ++ m ++ 0x0#8 ++ g]
  | .call o => [0x3#7 ++ o ++ g]
  | .ret => [0x4#7 ++ 0x0#22 ++ g]
  | .exit => [0x5#7 ++ 0x0#22 ++ g]
  | .yld => [0x6#7 ++ 0x0#22 ++ g]
  | .brk i => [0x7#7 ++ 0x0#14 ++ i ++ g]
  | .trap i => [0x8#7 ++ 0x0#14 ++ i ++ g]
  | .joinEnrol k => [0x10#7 ++ 0x0#6 ++ k ++ 0x0#12 ++ g]
  | .joinWait k => [0x11#7 ++ 0x0#6 ++ k ++ 0x0#12 ++ g]
  | .joinStrike k => [0x12#7 ++ 0x0#6 ++ k ++ 0x0#12 ++ g]
  | .joinClr k => [0x13#7 ++ 0x0#6 ++ k ++ 0x0#12 ++ g]
  | .joinRd d k m => [0x14#7 ++ d ++ k ++ 0x0#11 ++ m ++ g]
  | .barInit k a => [0x18#7 ++ 0x0#6 ++ k ++ 0x0#6 ++ a ++ g]
  | .barArrive k r => [0x19#7 ++ 0x0#6 ++ k ++ 0x0#10 ++ r ++ 0x0#1 ++ g]
  | .barArriveFinisher p k r => [0x19#7 ++ p ++ 0x0#3 ++ k ++ 0x0#10 ++ r ++ 0x1#1 ++ g]
  | .barWaitImm k h => [0x1A#7 ++ 0x0#6 ++ k ++ 0x0#11 ++ h ++ g]
  | .barWaitReg k a => [0x1A#7 ++ 0x0#6 ++ k ++ 0x1#6 ++ a ++ g]
  | .barSync k => [0x1B#7 ++ 0x0#6 ++ k ++ 0x0#12 ++ g]
  | .barSyncFinisher p k => [0x1B#7 ++ p ++ 0x0#3 ++ k ++ 0x1#12 ++ g]
  | .barExpect k a => [0x1C#7 ++ 0x0#6 ++ k ++ 0x0#6 ++ a ++ g]
  | .barRd d k s => [0x1D#7 ++ d ++ k ++ 0x0#10 ++ s ++ g]
  | .tagWaitAll k => [0x20#7 ++ 0x0#6 ++ k ++ 0x0#12 ++ g]
  | .tagWaitAny k => [0x21#7 ++ 0x0#6 ++ k ++ 0x0#12 ++ g]
  | .tagFfr d k => [0x22#7 ++ d ++ k ++ 0x0#12 ++ g]
  | .tagClr k => [0x23#7 ++ 0x0#6 ++ k ++ 0x0#12 ++ g]
  | .tagRd d h => [0x24#7 ++ d ++ 0x0#15 ++ h ++ g]
  | .ringInit k a => [0x28#7 ++ 0x0#6 ++ k ++ 0x0#6 ++ a ++ g]
  | .ringWaitFull d k => [0x29#7 ++ d ++ k ++ 0x0#12 ++ g]
  | .ringWaitFree d k => [0x2A#7 ++ d ++ k ++ 0x0#12 ++ g]
  | .ringCommit k => [0x2B#7 ++ 0x0#6 ++ k ++ 0x0#12 ++ g]
  | .ringFree k => [0x2C#7 ++ 0x0#6 ++ k ++ 0x0#12 ++ g]
  | .ringRd d k s => [0x2D#7 ++ d ++ k ++ 0x0#11 ++ s ++ g]
  | .convDecl k a => [0x30#7 ++ 0x0#6 ++ k ++ 0x0#6 ++ a ++ g]
  | .convXdecl k a => [0x31#7 ++ 0x0#6 ++ k ++ 0x0#6 ++ a ++ g]
  | .convRd d k s => [0x32#7 ++ d ++ k ++ 0x0#11 ++ s ++ g]
  | .tktWait a b n => [0x38#7 ++ 0x0#6 ++ a ++ 0x0#2 ++ b ++ n ++ g]
  | .tktPass a => [0x39#7 ++ 0x0#6 ++ a ++ 0x0#10 ++ g]
  | .xbarArrive d k => [0x3C#7 ++ d ++ k ++ 0x0#12 ++ g]
  | .xbarWaitImm k h => [0x3D#7 ++ 0x0#6 ++ k ++ 0x0#11 ++ h ++ g]
  | .xbarWaitReg k a => [0x3D#7 ++ 0x0#6 ++ k ++ 0x1#6 ++ a ++ g]
  | .launch d a => [0x40#7 ++ d ++ a ++ 0x0#10 ++ g]
  | .evtWait a m b n => [0x41#7 ++ 0x0#6 ++ a ++ m ++ b ++ n ++ g]
  | .iaddI32 d a m b n => [0x0#7 ++ d ++ a ++ m ++ b ++ n ++ g]
  | .iaddI64 d a m b n => [0x1#7 ++ d ++ a ++ m ++ b ++ n ++ g]
  | .isubI32 d a m b n => [0x2#7 ++ d ++ a ++ m ++ b ++ n ++ g]
  | .isubI64 d a m b n => [0x3#7 ++ d ++ a ++ m ++ b ++ n ++ g]
  | .imulI32 d a m b n => [0x4#7 ++ d ++ a ++ m ++ b ++ n ++ g]
  | .imulhI32 d a m b n => [0x5#7 ++ d ++ a ++ m ++ b ++ n ++ g]
  | .imulhN32 d a m b n => [0x6#7 ++ d ++ a ++ m ++ b ++ n ++ g]
  | .imadI32 d a m b n => [0x7#7 ++ d ++ a ++ m ++ b ++ n ++ g]
  | .iaddc d a m b n => [0x8#7 ++ d ++ a ++ m ++ b ++ n ++ g]
  | .iminI32 d a m b n => [0x9#7 ++ d ++ a ++ m ++ b ++ n ++ g]
  | .iminN32 d a m b n => [0xA#7 ++ d ++ a ++ m ++ b ++ n ++ g]
  | .imaxI32 d a m b n => [0xB#7 ++ d ++ a ++ m ++ b ++ n ++ g]
  | .imaxN32 d a m b n => [0xC#7 ++ d ++ a ++ m ++ b ++ n ++ g]
  | .iabsI32 d a m => [0xD#7 ++ d ++ a ++ m ++ 0x0#8 ++ g]
  | .imulwN32 d a m b n => [0xE#7 ++ d ++ a ++ m ++ b ++ n ++ g]
  | .land d a m b n => [0x10#7 ++ d ++ a ++ m ++ b ++ n ++ g]
  | .lor d a m b n => [0x11#7 ++ d ++ a ++ m ++ b ++ n ++ g]
  | .lxor d a m b n => [0x12#7 ++ d ++ a ++ m ++ b ++ n ++ g]
  | .andn d a m b n => [0x13#7 ++ d ++ a ++ m ++ b ++ n ++ g]
  | .shl d a m b n => [0x14#7 ++ d ++ a ++ m ++ b ++ n ++ g]
  | .shr d a m b n => [0x15#7 ++ d ++ a ++ m ++ b ++ n ++ g]
  | .sar d a m b n => [0x16#7 ++ d ++ a ++ m ++ b ++ n ++ g]
  | .rotl d a m b n => [0x17#7 ++ d ++ a ++ m ++ b ++ n ++ g]
  | .popc d a m => [0x18#7 ++ d ++ a ++ m ++ 0x0#8 ++ g]
  | .clz d a m => [0x19#7 ++ d ++ a ++ m ++ 0x0#8 ++ g]
  | .brev d a m => [0x1A#7 ++ d ++ a ++ m ++ 0x0#8 ++ g]
  | .bfx d a m pos len sg => [0x1B#7 ++ d ++ a ++ m ++ 0x0#8 ++ g, 0x0#20 ++ sg ++ len ++ pos]
  | .bfi d a m pos len => [0x1C#7 ++ d ++ a ++ m ++ 0x0#8 ++ g, 0x0#21 ++ len ++ pos]
  | .iaddi d a m i => [0x20#7 ++ d ++ a ++ m ++ i ++ g]
  | .andi d a m i => [0x21#7 ++ d ++ a ++ m ++ i ++ g]
  | .ori d a m i => [0x22#7 ++ d ++ a ++ m ++ i ++ g]
  | .xori d a m i => [0x23#7 ++ d ++ a ++ m ++ i ++ g]
  | .shli d a m i => [0x24#7 ++ d ++ a ++ m ++ 0x0#3 ++ i ++ g]
  | .shri d a m i => [0x25#7 ++ d ++ a ++ m ++ 0x0#3 ++ i ++ g]
  | .sari d a m i => [0x26#7 ++ d ++ a ++ m ++ 0x0#3 ++ i ++ g]
  | .movi d i => [0x27#7 ++ d ++ 0x0#8 ++ i ++ g]
  | .icmpI32 p c a m b n => [0x28#7 ++ p ++ c ++ a ++ m ++ b ++ n ++ g]
  | .icmpN32 p c a m b n => [0x29#7 ++ p ++ c ++ a ++ m ++ b ++ n ++ g]
  | .icmpI64 p c a m b n => [0x2A#7 ++ p ++ c ++ a ++ m ++ b ++ n ++ g]
  | .fcmpF32 p c a m b n => [0x2B#7 ++ p ++ c ++ a ++ m ++ b ++ n ++ g]
  | .fcmpF64 p c a m b n => [0x2C#7 ++ p ++ c ++ a ++ m ++ b ++ n ++ g]
  | .plog p f q s => [0x2D#7 ++ p ++ f ++ q ++ 0x0#5 ++ s ++ 0x0#5 ++ g]
  | .sel d a m b n p => [0x2E#7 ++ d ++ a ++ m ++ b ++ n ++ g, 0x0#6 ++ 0x0#18 ++ p ++ 0x0#5]
  | .pmovVp a m => [0x2F#7 ++ 0x0#6 ++ a ++ m ++ 0x0#8 ++ g]
  | .pmovPv d => [0x2F#7 ++ d ++ 0x4#16 ++ g]
  | .mov d a m => [0x30#7 ++ d ++ a ++ m ++ 0x0#8 ++ g]
  | .movl d lit => [0x31#7 ++ d ++ 0x0#16 ++ g, lit]
  | .qset q a m => [0x32#7 ++ q ++ a ++ m ++ 0x0#8 ++ g]
  | .qget d q => [0x33#7 ++ d ++ q ++ 0x0#10 ++ g]
  | .permSet t a m => [0x34#7 ++ t ++ a ++ m ++ 0x0#8 ++ g]
  | .shfl d a b n => [0x35#7 ++ d ++ a ++ 0x0#2 ++ b ++ n ++ g]
  | .shfl16 d a s t => [0x35#7 ++ d ++ a ++ 0x0#2 ++ s ++ t ++ g]
  | .voteAny p q => [0x36#7 ++ p ++ 0x0#3 ++ q ++ 0x0#13 ++ g]
  | .voteAll p q => [0x36#7 ++ p ++ 0x1#3 ++ q ++ 0x0#13 ++ g]
  | .voteBallot q d => [0x36#7 ++ 0x2#6 ++ q ++ 0x0#5 ++ d ++ 0x0#2 ++ g]
  | .idr d s => [0x37#7 ++ d ++ 0x0#8 ++ s ++ g]
  | .faddF32 d a m b n => [0x40#7 ++ d ++ a ++ m ++ b ++ n ++ g]
  | .faddF64 d a m b n => [0x41#7 ++ d ++ a ++ m ++ b ++ n ++ g]
  | .faddH2 d a m b n => [0x42#7 ++ d ++ a ++ m ++ b ++ n ++ g]
  | .faddB2 d a m b n => [0x43#7 ++ d ++ a ++ m ++ b ++ n ++ g]
  | .fsubF32 d a m b n => [0x44#7 ++ d ++ a ++ m ++ b ++ n ++ g]
  | .fsubF64 d a m b n => [0x45#7 ++ d ++ a ++ m ++ b ++ n ++ g]
  | .fmulF32 d a m b n => [0x46#7 ++ d ++ a ++ m ++ b ++ n ++ g]
  | .fmulF64 d a m b n => [0x47#7 ++ d ++ a ++ m ++ b ++ n ++ g]
  | .fmulH2 d a m b n => [0x48#7 ++ d ++ a ++ m ++ b ++ n ++ g]
  | .fmulB2 d a m b n => [0x49#7 ++ d ++ a ++ m ++ b ++ n ++ g]
  | .ffmaF32 d a m b n => [0x4A#7 ++ d ++ a ++ m ++ b ++ n ++ g]
  | .ffmaF64 d a m b n => [0x4B#7 ++ d ++ a ++ m ++ b ++ n ++ g]
  | .ffmaH2 d a m b n => [0x4C#7 ++ d ++ a ++ m ++ b ++ n ++ g]
  | .ffmaB2 d a m b n => [0x4D#7 ++ d ++ a ++ m ++ b ++ n ++ g]
  | .ffmalF32 d a m b n c k rm => [0x4E#7 ++ d ++ a ++ m ++ b ++ n ++ g, c ++ k ++ 0x0#13 ++ rm ++ 0x0#8]
  | .ffmalF64 d a m b n c k rm => [0x4F#7 ++ d ++ a ++ m ++ b ++ n ++ g, c ++ k ++ 0x0#13 ++ rm ++ 0x0#8]
  | .fminF32 d a m b n => [0x50#7 ++ d ++ a ++ m ++ b ++ n ++ g]
  | .fminF64 d a m b n => [0x51#7 ++ d ++ a ++ m ++ b ++ n ++ g]
  | .fmaxF32 d a m b n => [0x52#7 ++ d ++ a ++ m ++ b ++ n ++ g]
  | .fmaxF64 d a m b n => [0x53#7 ++ d ++ a ++ m ++ b ++ n ++ g]
  | .fsgn d a m b n ty f => [0x54#7 ++ d ++ a ++ m ++ b ++ n ++ g, 0x0#6 ++ 0x0#7 ++ ty ++ 0x0#9 ++ f]
  | .frcp d a m => [0x58#7 ++ d ++ a ++ m ++ 0x0#8 ++ g]
  | .frsq d a m => [0x59#7 ++ d ++ a ++ m ++ 0x0#8 ++ g]
  | .fsqrt d a m => [0x5A#7 ++ d ++ a ++ m ++ 0x0#8 ++ g]
  | .fexp2 d a m => [0x5B#7 ++ d ++ a ++ m ++ 0x0#8 ++ g]
  | .flog2 d a m => [0x5C#7 ++ d ++ a ++ m ++ 0x0#8 ++ g]
  | .fsin d a m => [0x5D#7 ++ d ++ a ++ m ++ 0x0#8 ++ g]
  | .fcos d a m => [0x5E#7 ++ d ++ a ++ m ++ 0x0#8 ++ g]
  | .cvt d a m fd fs rm sat => [0x60#7 ++ d ++ a ++ m ++ 0x0#8 ++ g, 0x0#6 ++ 0x0#2 ++ fd ++ fs ++ 0x0#3 ++ rm ++ 0x0#7 ++ sat]
  | .pack d a m b n q fd rm sat => [0x61#7 ++ d ++ a ++ m ++ b ++ n ++ g, q ++ 0x0#2 ++ fd ++ 0x2#5 ++ 0x0#3 ++ rm ++ 0x0#7 ++ sat]
  | .unpack d a m q fs rm hi => [0x62#7 ++ d ++ a ++ m ++ 0x0#8 ++ g, q ++ 0x0#2 ++ 0x2#5 ++ fs ++ 0x0#3 ++ rm ++ 0x0#6 ++ hi ++ 0x0#1]
  | .amax d a => [0x68#7 ++ d ++ a ++ 0x0#10 ++ g]
  | .amaxQuad d a => [0x68#7 ++ d ++ a ++ 0x4#10 ++ g]
  | .scaleFit d a p s m => [0x69#7 ++ d ++ a ++ 0x0#2 ++ p ++ s ++ m ++ g]
  | .normAcc k a => [0x6A#7 ++ 0x0#6 ++ k ++ 0x0#6 ++ a ++ g]
  | .normChk p k => [0x6B#7 ++ p ++ 0x0#3 ++ k ++ 0x0#12 ++ g]
  | .hcnt d => [0x6C#7 ++ d ++ 0x0#16 ++ g]
  | .hchk p => [0x6D#7 ++ p ++ 0x0#19 ++ g]
  | .ixSet x a m => [0x70#7 ++ 0x0#4 ++ x ++ a ++ m ++ 0x0#8 ++ g]
  | .ixLd d x k => [0x71#7 ++ d ++ 0x0#4 ++ x ++ 0x0#2 ++ k ++ g]
  | .ixSt s x k => [0x72#7 ++ s ++ 0x0#4 ++ x ++ 0x0#2 ++ k ++ g]
  | .ixRd d x => [0x73#7 ++ d ++ 0x0#4 ++ x ++ 0x0#10 ++ g]
  | .ldB8 d a o => [0x0#7 ++ d ++ a ++ o ++ g]
  | .ldI8 d a o => [0x1#7 ++ d ++ a ++ o ++ g]
  | .ldB16 d a o => [0x2#7 ++ d ++ a ++ o ++ g]
  | .ldI16 d a o => [0x3#7 ++ d ++ a ++ o ++ g]
  | .ldB32 d a o => [0x4#7 ++ d ++ a ++ o ++ g]
  | .ldB64 d a o => [0x5#7 ++ d ++ a ++ o ++ g]
  | .ldB128 d a o => [0x6#7 ++ d ++ a ++ o ++ g]
  | .stB8 s a o => [0x8#7 ++ s ++ a ++ o ++ g]
  | .stB16 s a o => [0x9#7 ++ s ++ a ++ o ++ g]
  | .stB32 s a o => [0xA#7 ++ s ++ a ++ o ++ g]
  | .stB64 s a o => [0xB#7 ++ s ++ a ++ o ++ g]
  | .stB128 s a o => [0xC#7 ++ s ++ a ++ o ++ g]
  | .ldAcq d a o sc sg z => [0x10#7 ++ d ++ a ++ 0x0#2 ++ o ++ g, 0x0#6 ++ 0x0#12 ++ sc ++ 0x0#7 ++ sg ++ z]
  | .stRel s a o sc z => [0x11#7 ++ s ++ a ++ 0x0#2 ++ o ++ g, 0x0#6 ++ 0x0#12 ++ sc ++ 0x0#8 ++ z]
  | .atom d a b n ty sc r op => [0x18#7 ++ d ++ a ++ 0x0#2 ++ b ++ n ++ g, 0x0#6 ++ 0x0#7 ++ ty ++ sc ++ 0x0#7 ++ r ++ op]
  | .atomCas d a b n c k ty sc => [0x19#7 ++ d ++ a ++ 0x0#2 ++ b ++ n ++ g, c ++ k ++ 0x0#5 ++ ty ++ sc ++ 0x0#11]
  | .lbw d a z o => [0x20#7 ++ d ++ a ++ 0x0#2 ++ z ++ o ++ g]
  | .lba d a z o => [0x21#7 ++ d ++ a ++ 0x0#2 ++ z ++ o ++ g]
  | .lbc d a z o => [0x22#7 ++ d ++ a ++ 0x0#2 ++ z ++ o ++ g]
  | .lbs d a z o => [0x23#7 ++ d ++ a ++ 0x0#2 ++ z ++ o ++ g]
  | .sba s a z o => [0x24#7 ++ s ++ a ++ 0x0#2 ++ z ++ o ++ g]
  | .sbc s a z o => [0x25#7 ++ s ++ a ++ 0x0#2 ++ z ++ o ++ g]
  | .sbs s a z o => [0x26#7 ++ s ++ a ++ 0x0#2 ++ z ++ o ++ g]
  | .lbx d a o core buf z => [0x27#7 ++ d ++ a ++ 0x0#2 ++ o ++ g, 0x0#6 ++ 0x0#21 ++ core ++ buf ++ z]
  | .fence s => [0x28#7 ++ 0x0#19 ++ s ++ g]
  | .pref a l => [0x30#7 ++ 0x0#6 ++ a ++ 0x0#9 ++ l ++ g]
  | .l1Inv => [0x31#7 ++ 0x0#22 ++ g]
  | .mfmt k q => [0x0#7 ++ 0x0#6 ++ k ++ 0x0#8 ++ q ++ g]
  | .mma c x a y b r => [0x1#7 ++ c ++ x ++ a ++ y ++ b ++ r ++ g]
  | .mmz c x a y b r => [0x2#7 ++ c ++ x ++ a ++ y ++ b ++ r ++ g]
  | .mmp c x a y b r => [0x3#7 ++ c ++ x ++ a ++ y ++ b ++ r ++ g]
  | .mmaCl c x a y b r => [0x4#7 ++ c ++ x ++ a ++ y ++ b ++ r ++ g]
  | .mmzCl c x a y b r => [0x5#7 ++ c ++ x ++ a ++ y ++ b ++ r ++ g]
  | .mmpCl c x a y b r => [0x6#7 ++ c ++ x ++ a ++ y ++ b ++ r ++ g]
  | .accLd c a b r => [0x8#7 ++ c ++ 0x0#1 ++ a ++ 0x0#1 ++ b ++ r ++ g]
  | .accSt a b r => [0x9#7 ++ 0x0#4 ++ a ++ 0x0#1 ++ b ++ r ++ g]
  | .accClr c n r => [0xA#7 ++ c ++ 0x0#9 ++ n ++ r ++ g]
  | .accCp c t n r => [0xB#7 ++ c ++ 0x0#2 ++ t ++ 0x0#2 ++ n ++ r ++ g]
  | .mfence k => [0x10#7 ++ 0x0#6 ++ k ++ 0x0#12 ++ g]
  | .mwait => [0x11#7 ++ 0x0#22 ++ g]
  | .mhealth d r => [0x18#7 ++ d ++ 0x0#1 ++ r ++ 0x0#10 ++ g]
  | .cpaB32 d a x na kind => [0x0#7 ++ d ++ a ++ 0x0#10 ++ g, x ++ 0x0#24 ++ na ++ kind]
  | .cpaB64 d a x na kind => [0x1#7 ++ d ++ a ++ 0x0#10 ++ g, x ++ 0x0#24 ++ na ++ kind]
  | .cpaB128 d a x na kind => [0x2#7 ++ d ++ a ++ 0x0#10 ++ g, x ++ 0x0#24 ++ na ++ kind]
  | .tcp d a b x na kind => [0x8#7 ++ d ++ a ++ 0x0#2 ++ b ++ 0x0#2 ++ g, x ++ 0x0#24 ++ na ++ kind]
  | .tcpColl a x na kind => [0x9#7 ++ 0x0#6 ++ a ++ 0x0#10 ++ g, x ++ 0x0#24 ++ na ++ kind]
  | .cpeRun d a b => [0x10#7 ++ d ++ a ++ 0x0#2 ++ b ++ 0x0#2 ++ g]
  | .cpeStop a => [0x11#7 ++ 0x0#6 ++ a ++ 0x0#10 ++ g]
  | .cpeRd d a s => [0x12#7 ++ d ++ a ++ 0x0#2 ++ s ++ 0x0#2 ++ g]
  | .publish d a m => [0x18#7 ++ d ++ a ++ m ++ 0x0#8 ++ g]
  | .bmtRd d a m w => [0x19#7 ++ d ++ a ++ m ++ w ++ 0x0#2 ++ g]
  | .send a => [0x20#7 ++ 0x0#6 ++ a ++ 0x0#10 ++ g]
  | .recvPost d a => [0x21#7 ++ d ++ a ++ 0x0#10 ++ g]
  | .recvCancel d a m => [0x22#7 ++ d ++ a ++ m ++ 0x0#8 ++ g]
  | .recvProbe d a => [0x23#7 ++ d ++ a ++ 0x0#10 ++ g]
  | .sysrd d r => [0x0#7 ++ d ++ 0x0#8 ++ r ++ g]
  | .syswr a r => [0x1#7 ++ 0x0#6 ++ a ++ 0x0#2 ++ r ++ g]
  | .eret => [0x2#7 ++ 0x0#22 ++ g]
  | .ecnt d => [0x3#7 ++ d ++ 0x0#16 ++ g]
  | .clkRd d => [0x4#7 ++ d ++ 0x0#16 ++ g]
  | .tlbInvPage a => [0x5#7 ++ 0x0#6 ++ a ++ 0x0#10 ++ g]
  | .tlbInvCtx => [0x5#7 ++ 0x10000#22 ++ g]
  | .tlbInvAll => [0x5#7 ++ 0x20000#22 ++ g]
  | .bmtSet a m b => [0x6#7 ++ 0x0#6 ++ a ++ m ++ b ++ 0x0#2 ++ g]
  | .parkCtlResume d a => [0x7#7 ++ d ++ a ++ 0x0#10 ++ g]
  | .parkCtlKill d a => [0x7#7 ++ d ++ a ++ 0x4#10 ++ g]
  | .parkCtlStop d a => [0x7#7 ++ d ++ a ++ 0x8#10 ++ g]
  | .dbgSel a => [0x8#7 ++ 0x0#6 ++ a ++ 0x0#10 ++ g]
  | .dbgStep a => [0x8#7 ++ 0x0#6 ++ a ++ 0x1#10 ++ g]
  | .halt => [0x9#7 ++ 0x0#22 ++ g]
  | .perfRd d s => [0xA#7 ++ d ++ 0x0#8 ++ s ++ g]
  | .cacheOpIinv => [0xB#7 ++ 0x0#22 ++ g]
  | .cacheOpDinv => [0xB#7 ++ 0x1#22 ++ g]
  | .cacheOpL2wb a => [0xB#7 ++ 0x0#6 ++ a ++ 0x2#10 ++ g]
  | .cacheOpL2key a => [0xB#7 ++ 0x0#6 ++ a ++ 0x3#10 ++ g]
  | .cacheOpL2all => [0xB#7 ++ 0x4#22 ++ g]
  | .tokRd d => [0xC#7 ++ d ++ 0x0#16 ++ g]
  | .faultRd d a => [0xD#7 ++ d ++ a ++ 0x0#10 ++ g]
  | .ceHalt => [0x0#6 ++ 0x0#26]
  | .ceAdd d a b => [0x1#6 ++ d ++ a ++ b ++ 0x0#11]
  | .ceSub d a b => [0x2#6 ++ d ++ a ++ b ++ 0x0#11]
  | .ceMul d a b => [0x3#6 ++ d ++ a ++ b ++ 0x0#11]
  | .ceMadd d a b => [0x4#6 ++ d ++ a ++ b ++ 0x0#11]
  | .ceAnd d a b => [0x5#6 ++ d ++ a ++ b ++ 0x0#11]
  | .ceOr d a b => [0x6#6 ++ d ++ a ++ b ++ 0x0#11]
  | .ceXor d a b => [0x7#6 ++ d ++ a ++ b ++ 0x0#11]
  | .ceShl d a b => [0x8#6 ++ d ++ a ++ b ++ 0x0#11]
  | .ceShr d a b => [0x9#6 ++ d ++ a ++ b ++ 0x0#11]
  | .ceAddi d a i => [0xA#6 ++ d ++ a ++ i]
  | .ceLui d a i => [0xB#6 ++ d ++ a ++ i]
  | .ceOri d a i => [0xC#6 ++ d ++ a ++ i]
  | .ceMin d a b => [0xD#6 ++ d ++ a ++ b ++ 0x0#11]
  | .ceMax d a b => [0xE#6 ++ d ++ a ++ b ++ 0x0#11]
  | .ceBeq a b o => [0x10#6 ++ a ++ b ++ o]
  | .ceBne a b o => [0x11#6 ++ a ++ b ++ o]
  | .ceBlt a b o => [0x12#6 ++ a ++ b ++ o]
  | .ceBge a b o => [0x13#6 ++ a ++ b ++ o]
  | .ceJmp a o => [0x14#6 ++ a ++ 0x0#5 ++ o]
  | .ceLoopSet n a i => [0x15#6 ++ n ++ a ++ i]
  | .ceLoopEnd n o => [0x16#6 ++ n ++ 0x0#5 ++ o]
  | .ceLdi d a i => [0x18#6 ++ d ++ a ++ i]
  | .ceLdi64 d a i => [0x19#6 ++ d ++ a ++ i]
  | .ceStw d a i => [0x1A#6 ++ d ++ a ++ i]
  | .ceTadr d a b => [0x20#6 ++ d ++ a ++ b ++ 0x0#11]
  | .ceTnext d a b => [0x21#6 ++ d ++ a ++ b ++ 0x0#11]
  | .ceMv d a b n => [0x22#6 ++ d ++ a ++ b ++ 0x0#10 ++ n]
  | .ceMvt d a b n => [0x23#6 ++ d ++ a ++ b ++ 0x0#10 ++ n]
  | .ceGat d a b n => [0x24#6 ++ d ++ a ++ b ++ 0x0#10 ++ n]
  | .ceScat d a b n => [0x25#6 ++ d ++ a ++ b ++ 0x0#10 ++ n]
  | .ceArr n a => [0x28#6 ++ n ++ a ++ 0x0#16]
  | .ceTagset t => [0x29#6 ++ 0x0#20 ++ t]
  | .ceRingCommit n => [0x2A#6 ++ 0x0#23 ++ n]
  | .ceRingWait d n => [0x2B#6 ++ d ++ 0x0#18 ++ n]
  | .cePublish a => [0x2C#6 ++ 0x0#5 ++ a ++ 0x0#16]
  | .ceWfb => [0x2D#6 ++ 0x0#26]
  | .ceYieldctx => [0x2E#6 ++ 0x0#26]
  | _ => []

end Sys2Proof
end

