-- ==== Sys2Proof/Machine/Store.lean ====
section
/-! DEFINITION. Finite maps keyed by numbers, as sorted lists, and the bytes of memory in their one canonical form. -/

namespace Sys2Proof.Machine

/-- A finite map keyed by numbers: key and value pairs, kept sorted by `Map.put`. -/
abbrev Map (α : Type) := List (Nat × α)

variable {α : Type}

/-- The value at a key, if there is one. -/
def Map.find : Map α → Nat → Option α
  | [], _ => none
  | (j, x) :: m, k => if j = k then some x else Map.find m k

/-- The value at a key, or `d`. -/
def Map.getD (m : Map α) (k : Nat) (d : α) : α := (Map.find m k).getD d

/-- Writes a key. -/
def Map.put : Map α → Nat → α → Map α
  | [], k, v => [(k, v)]
  | (j, x) :: m, k, v => if j = k then (k, v) :: m else if k < j then (k, v) :: (j, x) :: m else (j, x) :: Map.put m k v

/-- Removes a key. -/
def Map.del (m : Map α) (k : Nat) : Map α := m.filter (fun p => p.1 != k)

/-- Changes the value at a key, if there is one. -/
def Map.modify (m : Map α) (k : Nat) (f : α → α) : Map α :=
  match Map.find m k with
  | some x => Map.put m k (f x)
  | none => m

/-- One more than every key of the map: a key not in use. -/
def Map.fresh (m : Map α) : Nat := m.foldl (fun n p => max n (p.1 + 1)) 0

/-- Memory: the bytes that are not zero, by location (R183, R184). Bring-up clears memory to zero (R381), so an unlisted location reads zero. -/
abbrev Memory := List Host.Cell

/-- What an unlisted location of memory reads as (R381 step 5). -/
def Memory.unlisted : Byte := 0

/-- The canonical form: locations strictly rising, no byte equal to what an unlisted location reads as. -/
abbrev Memory.wf (m : Memory) : Prop :=
  m.Pairwise (fun p q => p.1 < q.1) ∧ ∀ p ∈ m, p.2 ≠ Memory.unlisted

/-- Reads one byte. -/
def Memory.read (m : Memory) (a : Nat) : Byte := Map.getD m a Memory.unlisted

/-- Writes one byte and keeps the canonical form. -/
def Memory.write (m : Memory) (a : Nat) (b : Byte) : Memory :=
  if b = Memory.unlisted then Map.del m a else Map.put m a b

/-- Writes bytes at rising locations. -/
def Memory.writeAll (m : Memory) (a : Nat) : List Byte → Memory
  | [] => m
  | b :: bs => Memory.writeAll (Memory.write m a b) (a + 1) bs

/-- The `n` bytes from location `a` on. -/
def Memory.readAll (m : Memory) (a n : Nat) : List Byte := (List.range n).map (fun i => Memory.read m (a + i))

/-- The number whose little-endian bytes these are (R1). -/
def leNat : List Byte → Nat
  | [] => 0
  | b :: bs => b.toNat + 256 * leNat bs

/-- The `n` little-endian bytes of a number (R1). -/
def leBytes : Nat → Nat → List Byte
  | 0, _ => []
  | n + 1, x => BitVec.ofNat 8 x :: leBytes n (x / 256)

/-- Replaces element `i` of a list, if there is one. -/
def setAt (l : List α) (i : Nat) (x : α) : List α := l.set i x

/-- Changes element `i` of a list, if there is one. -/
def modAt (l : List α) (i : Nat) (f : α → α) : List α :=
  match l, i with
  | [], _ => []
  | x :: xs, 0 => f x :: xs
  | x :: xs, n + 1 => x :: modAt xs n f

/-- Whether lane `l` is in a mask. -/
def inMask (m : BitVec 32) (l : Nat) : Bool := m.getLsbD l

/-- The lanes of a mask, ascending (R11). -/
def lanesOf (m : BitVec 32) : List Nat := (List.range 32).filter (inMask m)

/-- The lowest lane of a mask, 0 if it is empty. -/
def lowest (m : BitVec 32) : Nat := (lanesOf m).headD 0

/-- The mask of the lanes at which `f` holds. -/
def maskOf (f : Nat → Bool) : BitVec 32 :=
  BitVec.ofNat 32 ((List.range 32).foldl (fun n l => n + if f l then 2 ^ l else 0) 0)

/-- The number of bits set. -/
def popCount {w : Nat} (x : BitVec w) : Nat := (List.range w).foldl (fun n i => n + bit (x.getLsbD i)) 0

end Sys2Proof.Machine
end

