-- ==== Sys2Proof/Machine/State.lean ====
section
/-! DEFINITION. The state of one PX9-4A, as plain data: threads, squads, workgroups, cores, memory, launches, engines, fabric and platform. -/

namespace Sys2Proof.Machine

/-- Why a run of the model stops. -/
inductive Fault where
  /-- An instruction row was asked to execute while no bundle, and no copy-engine context, of its kind is issuing. Raised by every
  instruction's meaning; the device never executes an instruction without an issuing bundle, so this is safe. -/
  | noBundle
  /-- A turn named a step by an instruction row where it must name an event row. Raised by `step`; safe: no device step is left out. -/
  | notAnEvent
  deriving DecidableEq, Repr

/-- Why an instruction has no effect in the model. -/
inductive Refusal where
  /-- The instruction has no meaning yet. Raised by `exec` only; safe. -/
  | notModelled (mnemonic : String)
  deriving DecidableEq, Repr

/-- Where a thread stands (R22, R38, R57): the PC, and the base and the header word of the clause containing it. At a header that has
not been entered, `atHdr` holds and `base` and `hdr` mean nothing. -/
structure Place where
  pc : VAddr
  base : VAddr
  hdr : Word
  atHdr : Bool
  deriving DecidableEq, Repr

/-- The source operands of one lane as read at issue (R331), by slot: d when it is read, a, b and the third source. -/
structure Staged where
  d : BitVec 256
  a : BitVec 256
  b : BitVec 256
  c : BitVec 256
  deriving DecidableEq, Repr

/-- A frontier or overflow entry (R57). -/
structure Entry where
  lb : Nat
  place : Place
  mask : BitVec 32
  age : Nat
  yielded : Bool
  pwait : Nat
  /-- When it was formed: the squad's formation counter, for field 5 of the sort key (R58). -/
  formed : Nat
  /-- The earliest squad cycle in which it may issue (R63). -/
  notBefore : Nat
  /-- Staged operands by lane, for a replay entry that has not issued (R331). -/
  replay : List (Nat × Staged)
  deriving DecidableEq, Repr

/-- What a waiting thread waits for (R56). -/
inductive Wait where
  /-- The wait of the clause header it stands at (R34). -/
  | clause
  | join (k : Nat)
  | barrier (k : Nat) (ph : Bool)
  /-- `counted` once the thread's own arrival is in the current phase (R88). -/
  | sync (k : Nat) (counted : Bool)
  | ringFull (k : Nat) (d : BitVec 6)
  | ringFree (k : Nat) (d : BitVec 6)
  | tagAll (m : BitVec 64)
  | tagAny (m : BitVec 64)
  | xbar (k : Nat) (ph : Bool)
  /-- A ticket word's location and the threshold (R101). -/
  | ticket (loc : Nat) (thr : Word)
  | event (e : Nat) (thr : Word)
  /-- The last check of an instruction of the squad, by number (R330). -/
  | check (id : Nat)
  /-- The reply to a remote access, by pending-load number (R195). -/
  | far (id : Nat)
  /-- A fence of a scope, by scope code (R200), issued with sequence number `sq`. -/
  | fence (scope : Nat) (sq : Nat)
  /-- The acknowledgement of an atomic of `.sq` or `.wg` (R203), by sequence number. -/
  | atomAck (sq : Nat)
  /-- Room in a full launch queue, for the record taken at issue (R105). -/
  | slot (q : Nat) (d : BitVec 6) (words : List Word)
  /-- A record in the thread's queue (R352). -/
  | eret
  /-- Nothing ends it but a device reset (R353). -/
  | halted
  /-- The issuer's earlier matrix operations (R254), by position. -/
  | matrix (n : Nat)
  /-- A translation invalidation, a BMT write or a cache operation in progress, by its number (R349, R350, R353). -/
  | device (id : Nat)
  /-- An engine's answer that the instruction writes into d: `cpe.run`, `recv.post`, `recv.cancel`, `recv.probe`, `publish`, `send`. -/
  | engine (id : Nat)
  deriving DecidableEq, Repr

/-- Threads of one lane block that wait together: at `at` they stand, and would park; at `next` they go on. -/
structure Waiter where
  lb : Nat
  mask : BitVec 32
  why : Wait
  stand : Place
  next : Place
  deriving DecidableEq, Repr

/-- How a parked thread goes on when it is resumed (R331, R338, R340). -/
inductive Resume where
  /-- Its lane is reissued with its staged operands; the flag: without a new breakpoint match. -/
  | replay (st : Staged) (noBp : Bool)
  /-- It continues at its place; the flag: without a new breakpoint match. -/
  | go (noBp : Bool)
  /-- It was parked while waiting (R88, R339): the wait is taken up again. -/
  | rewait (why : Wait) (next : Place)
  deriving DecidableEq, Repr

/-- A parked thread. -/
structure Parked where
  lb : Nat
  lane : Nat
  place : Place
  how : Resume
  deriving DecidableEq, Repr

/-- Where an access goes: local memory by location, memory of another device, or the workgroup's S buffer. -/
inductive Loc where
  | local (a : Nat)
  | remote (dev : Nat) (a : Nat)
  | sbuf (off : Nat)
  deriving DecidableEq, Repr

/-- What an atomic does to its word (R201, R202). -/
inductive AtomOp where
  | op (f : BitVec 3) (ty : BitVec 5) (x : DWord)
  | cas (ty : BitVec 5) (cmp new : DWord)
  deriving DecidableEq, Repr

/-- An access through a BMT entry: context, entry number, TYPE, offset (R276). -/
structure BmtRef where
  ctx : Nat
  entry : Nat
  dual : Bool
  off : Nat
  deriving DecidableEq, Repr

/-- How a page's lines are cached and keyed, as the leaf that an access was checked under says (R185, R187, R193). -/
structure PageAttr where
  key : Nat
  l2c : Nat
  /-- The line may be allocated in the L1 (R177). -/
  l1 : Bool
  det : Bool
  /-- Of a BMT-indirect page: the context, the entry, whether it is DUAL, and the access's offset in it. -/
  bmt : Option BmtRef
  deriving DecidableEq, Repr

/-- One lane of a store-queue entry: its target, and its bytes or its atomic operation with the pending load that its old value returns to. -/
structure StLane where
  lane : Nat
  /-- The virtual address. -/
  ea : DWord
  loc : Loc
  attr : PageAttr
  bytes : List Byte
  atom : Option AtomOp
  ret : Option Nat
  /-- The sequence number of an ordered update (R208). -/
  ord : Option Nat
  /-- The instruction, its staged operands, and those of them that a record shows: for an access that fails after its issue (R186, R196). -/
  place : Place
  staged : Staged
  shown : List Word
  deriving DecidableEq, Repr

/-- A store-queue entry (R175): `rel` is the scope code of a release or an atomic, `strict` when earlier entries must be acknowledged first. -/
structure StEntry where
  seq : Nat
  lb : Nat
  lanes : List StLane
  scope : Nat
  release : Bool
  atomic : Bool
  deriving DecidableEq, Repr

/-- Where a load's data comes from. -/
inductive LoadSrc where
  /-- Its value is taken (R216). -/
  | value (v : QWord)
  | mem (a : Nat) (attr : PageAttr) (atHome : Bool)
  /-- An S load whose value is not taken. -/
  | sbuf (off : Nat)
  /-- A load of another typed buffer whose value is not taken: the workgroup whose buffer it is, the space, the offset. -/
  | buf (w spc off : Nat)
  /-- An atomic not yet performed, or a remote one not yet answered. -/
  | await
  /-- A remote load not yet answered: device and address there, and whether the request has been sent. -/
  | far (dev a : Nat) (sent : Bool)
  deriving DecidableEq, Repr

/-- What becomes of the loaded bits. -/
inductive LoadFmt where
  | zext
  | sext
  deriving DecidableEq, Repr

/-- A load of one thread whose data has not landed (R402). -/
structure Pend where
  seq : Nat
  lb : Nat
  lane : Nat
  d : BitVec 6
  size : Nat
  fmt : LoadFmt
  src : LoadSrc
  /-- The instruction, its address, its staged operands, and those of them that a record shows: for a load that fails after its issue (R196). -/
  place : Place
  ea : DWord
  staged : Staged
  shown : List Word
  /-- The L1 lines of the core are invalidated when it takes its value (R199, R203). -/
  acq : Bool
  deriving DecidableEq, Repr

/-- A store or atomic that has left its queue and is not acknowledged (R177, R212). -/
structure Flight where
  core : Nat
  wg : Nat
  sq : Nat
  lb : Nat
  seq : Nat
  ln : StLane
  performed : Bool
  deriving DecidableEq, Repr

/-- A convergence register (R96) with its format record (R235). The signers of an open operation are in `signed`, in the order of their
signatures, the full ones in `full` too, with the operation and its first signer's place. -/
structure Conv where
  first : Nat
  count : Nat
  /-- 0 EMPTY, 1 DECLARED, 2 SIGNING, 3 CLUSTER. -/
  st : Nat
  bound : Bool
  mf0 : Word
  mf1 : Word
  signed : List Nat
  full : List Nat
  open_ : Option (Instr × Place)
  deriving DecidableEq, Repr

/-- The joint masks of a j register (R71). -/
structure Join where
  enr : BitVec 32
  arr : BitVec 32
  deriving DecidableEq, Repr

/-- An instruction whose last check is outstanding (R330): its lane block, the lanes that passed so far, and the squad cycle before which the check
is not made (R147). -/
structure Check where
  lb : Nat
  mask : BitVec 32
  due : Nat
  deriving DecidableEq, Repr

/-- A squad (R16, R57 to R60, R112 to R120, R146, R166, R168, R175, R330, R348). -/
structure Squad where
  role : Nat
  alloc : Nat
  nlb : Nat
  cycle : Nat
  regrouped : Bool
  forms : Nat
  frontier : List Entry
  overflow : List Entry
  waiters : List Waiter
  parked : List Parked
  /-- Exited threads by lane block. -/
  exited : Map (BitVec 32)
  /-- Retired lane blocks. -/
  retired : List Nat
  /-- v registers by lane block × 256 + word, one value per lane; unlisted ones are zero. -/
  v : Map (List Word)
  /-- p registers by lane block × 8 + number, one bit per lane. -/
  p : Map (BitVec 32)
  /-- x registers by lane block × 4 + number: LIM, BASE per lane. -/
  x : Map (List (Nat × Nat))
  j : Map Join
  q : Map Word
  /-- pt1 to pt3 by number × 32 + entry; unlisted ones are the identity. -/
  pt : Map (BitVec 5)
  conv : Map Conv
  fxs : Word
  watch : Word
  satc : Nat
  zerc : Nat
  perf : Map Nat
  /-- Scoreboard marks with a fixed latency: the squad cycle at which each clears (R39). -/
  marks : Map Nat
  /-- Scoreboard marks that an event clears: item and the number of the work it waits for. -/
  holds : List (Nat × Nat)
  stq : List StEntry
  /-- The counter that numbers the squad's memory accesses in issue order. -/
  seq : Nat
  loads : Map Pend
  /-- Instructions whose last check is outstanding (R330), by number. -/
  checks : Map Check
  /-- The fault of a posted remote store or atomic, not yet reported: code, subcode and address (R196). -/
  remoteErr : Option (Nat × Nat × Nat)
  /-- Threads that park at their next issue, by lane block and lane, with the record to write, if any (R88, R98, R338). -/
  doomed : List (Nat × Nat × Option (List Word))
  /-- By lane block: threads that a STOP_SQUAD freeze parks before their next issue, until the squad is resumed (R340). -/
  frozen : Map (BitVec 32)
  /-- By lane block: threads whose next issue makes no breakpoint match (R340). -/
  unmatched : Map (BitVec 32)
  /-- By lane block: threads that dbg.step released for one issue, not yet made (R353). -/
  stepping : Map (BitVec 32)
  deriving DecidableEq, Repr

/-- An arrival of a barrier's current phase: squad, lane block, lane and its finisher predicate. -/
structure Arriver where
  sq : Nat
  lb : Nat
  lane : Nat
  fin : Option (BitVec 3)
  deriving DecidableEq, Repr

/-- A barrier register (R83 to R88). -/
structure Bar where
  ph : Bool
  init : Bool
  tarr : Nat
  texp : Nat
  earr : Nat
  eexp : Nat
  pend : Int
  drops : Nat
  /-- The subcode it is broken with. -/
  broken : Option Nat
  arrivers : List Arriver
  deriving DecidableEq, Repr

/-- A stage ring (R93). -/
structure Ring where
  slots : Nat
  pcur : Nat
  ccur : Nat
  full : BitVec 16
  sph : BitVec 16
  deriving DecidableEq, Repr

/-- What a pending thread update does when it counts (R81, R88, R95, R100, R102). -/
inductive Update where
  | barrier (k : Nat) (drop : Bool) (fin : Option (BitVec 3)) (sync : Bool)
  | commit (k : Nat)
  | free (k : Nat)
  | xbar (k : Nat) (d : BitVec 6)
  deriving DecidableEq, Repr

/-- A thread update not yet counted: the threads, the instruction's place, and the squad's access number at its issue. -/
structure Arrival where
  sq : Nat
  lb : Nat
  mask : BitVec 32
  place : Place
  before : Nat
  what : Update
  deriving DecidableEq, Repr

/-- A norm watcher (R172): the sum in units of 2^-80, the nonfinite bit, the running average and the clean steps counted. -/
structure NormW where
  sum : Nat
  nf : Bool
  avg : DWord
  cnt : Nat
  deriving DecidableEq, Repr

/-- A run open at a `CREG` base, as the operations issued so far leave it (R248): its k-steps, its tile's rows and columns, and whether
another operation's tile or a store has met it. -/
structure Run where
  count : Nat
  m : Nat
  n : Nat
  spoilt : Bool
  deriving DecidableEq, Repr

/-- A matrix operation or fence that has issued and not completed (R232, R233, R253). -/
structure MatOp where
  id : Nat
  wg : Nat
  sq : Nat
  /-- The operation's instruction; `mfence` for a fence; and its first signer's place. -/
  ins : Instr
  place : Place
  /-- The convergence register, the threads that signed, and whether every signature is null. -/
  conv : Nat
  signers : List Nat
  null : Bool
  mf0 : Word
  mf1 : Word
  /-- Element codes by row of A and column of B: of register operands from the issue on, of descriptor operands from the occupancy on. -/
  aRows : List (List Nat)
  bRows : List (List Nat)
  descA : DWord
  descB : DWord
  /-- It has begun its occupancy. -/
  started : Bool
  /-- Promotion: 0 opens a run, 1 adds to it, 2 closes it, 3 opens and closes it. -/
  run : Option Nat
  /-- Its tile becomes unspecified (R248). -/
  spoilt : Bool
  /-- The issuer's runs as they stood before its issue, to which a fault found later returns them (R257). -/
  prior : Map Run
  /-- The parts of a cluster operation have one number. -/
  cluster : Option Nat
  deriving DecidableEq, Repr

/-- Where an engine reads or writes one element or line of data (R261, R276). -/
inductive XAddr where
  /-- The pad value of an element that does not exist (R268). -/
  | pad (v : DWord)
  /-- Data already here: a payload, a reply. -/
  | data (v : QWord)
  | phys (a : Nat) (attr : PageAttr)
  /-- Offset `off` in the backing of a BMT entry, chosen when the line is read or written. -/
  | bmt (n off : Nat) (attr : PageAttr)
  | remote (dev a : Nat)
  /-- A typed buffer: 1 W, 2 A, 3 C, 4 S. -/
  | buf (spc off : Nat)
  deriving DecidableEq, Repr

/-- One piece of an engine's copy: `n` bytes, or a nibble (`half`: source high nibble, destination high nibble), with its thread and its
source's engine address. -/
structure Piece where
  lane : Nat
  ea : BitVec 64
  src : XAddr
  dst : XAddr
  n : Nat
  half : Option (Bool × Bool)
  deriving DecidableEq, Repr

/-- A transfer operation (R264, R265, R274). -/
structure Xfer where
  wg : Nat
  sq : Nat
  place : Place
  ins : Instr
  kindBar : Bool
  x : Nat
  na : Bool
  pieces : List Piece
  /-- What its lanes write in all, in half bytes. -/
  halves : Nat
  /-- Lanes parked at the issue and not yet replayed. -/
  parkedLanes : List (Nat × Nat)
  abandoned : Bool
  /-- The issuing squad's access number at issue: earlier stores are waited for (R266). -/
  before : Nat
  /-- Stopped by poison (R280): it never completes. -/
  stopped : Bool
  /-- The pieces written so far. -/
  landed : List Piece
  deriving DecidableEq, Repr

/-- A completion operation of the copy engine with its operands (R285). -/
inductive CeComp where
  | arr (k : Nat) (bytes : DWord)
  | tagset (t : Nat)
  | commit (k : Nat)
  | publish (n : Nat)
  | stw (addr : DWord) (v : Word)
  deriving DecidableEq, Repr

/-- A copy-engine context (R282 to R285). -/
structure CeCtx where
  owner : Option Nat
  sq : Nat
  /-- The address of the next instruction word; a target above 52 bits is kept whole until its fetch faults. -/
  pc : DWord
  e : Map DWord
  l : Map DWord
  cache : List (Nat × List Word)
  /-- Line requests not yet written, in program order: the move's number, its address and the pieces of one line. -/
  moves : List (Nat × DWord × List Piece)
  /-- A move that met poison: its lines wait while the context is parked. -/
  stuck : Option Nat
  /-- Completion operations not yet performed: how many moves came before it, the operation's address, the operation. -/
  comps : List (Nat × DWord × CeComp)
  /-- The number of moves issued. -/
  moveNo : Nat
  /-- A publish in progress as the first completion operation. -/
  pubWait : Option Nat
  /-- `ST` of R284: 0 free, 1 running, 2 waiting, 3 parked, 4 halted, 5 stopped, 6 killed. -/
  st : Nat
  fsub : Nat
  /-- How many elements of the move in hand are already requested; the source and destination records it began with, each with its index record (R271);
  and the 32-byte units of typed buffers that its other elements would write (R280). -/
  cursor : Nat
  held : Option ((List Word × Option (List Word)) × (List Word × Option (List Word)))
  left : List Nat
  halting : Bool
  /-- The stores of the runner's queue that `cpe.run` drains first (R283). -/
  drain : Option Nat
  /-- The `ldi` and `ldi64` that have not returned, oldest first: destination and data. -/
  ldi : List (Nat × DWord)
  /-- Its first completion operation failed: none is performed until it is resumed; and how many it kept, which are performed before it issues again
  (R294). -/
  withheld : Bool
  kept : Nat
  deriving DecidableEq, Repr

/-- A publish or a BMT write that not every core has applied (R277, R350), by its place in publish order: the entry's words after it, whether
the cores drop their L1 lines of the entry, and the cores that have not applied it. -/
structure Publish where
  ctx : Nat
  entry : Nat
  words : List Word
  drop : Bool
  waiting : List Nat
  deriving DecidableEq, Repr

/-- A `publish` instruction's issue (R278): its lanes with the values of register A, the entries still to perform, and the publishes performed. -/
structure PubOp where
  wg : Nat
  sq : Nat
  lb : Nat
  d : BitVec 6
  place : Place
  lanes : List (Nat × Word)
  todo : List Nat
  pubs : List Nat
  before : Nat
  deriving DecidableEq, Repr

/-- A core (R15, R177, R178, R277, R282). -/
structure CoreSt where
  /-- L1 data lines: by line, its bytes and the BMT entry and generation it was filled through. -/
  l1d : Map (List Byte × Option (Nat × Nat × Nat))
  /-- L1 instruction lines: by context and virtual line, its bytes. -/
  l1i : List ((Nat × Nat) × List Byte)
  ces : Map CeCtx
  ceTurn : Nat
  /-- The core's view of BMT entries that differ from the device's: by context × 4096 + entry, the entry's words. -/
  view : Map (List Word)
  mat : List MatOp
  /-- The workgroup whose issuer had the last turn. -/
  matTurn : Nat
  xfers : Map Xfer
  deriving DecidableEq, Repr

/-- A send accepted into the send queue (R304). -/
structure SendOp where
  ctx : Nat
  wg : Nat
  tagOf : Option Nat
  ddev : Nat
  tag : Word
  rec_ : List Word
  len : Nat
  stat : Nat
  na : Bool
  seq : Option Nat
  trunc : Bool
  /-- The index record of a COMPOSED source record. -/
  idx : Option (List Word)
  /-- The payload as it stood at the acceptance, element width and rows of element codes, while no outcome is decided; whether all of it has gone out; and its
  bytes that another device granted (R300, R314). -/
  payload : Option (Nat × List (List DWord))
  sent : Bool
  granted : Nat
  /-- How many of its elements come before the first poisoned one, if there is one. -/
  poisoned : Option Nat
  /-- The outcome and `LEN`, once this device decides it. -/
  fate : Option (Nat × Nat)
  deriving DecidableEq, Repr

/-- A posted receive (R305, R306). -/
structure Post where
  slot : Nat
  reuse : Nat
  ctx : Nat
  wg : Nat
  words : List Word
  rec_ : List Word
  /-- The index record of a COMPOSED destination record. -/
  idx : Option (List Word)
  deriving DecidableEq, Repr

/-- A delivery under way (R309, R310). -/
structure Delivery where
  post : Post
  msg : Message
  /-- Its payload is pulled by grants. -/
  pulled : Bool
  /-- What is left to land, once the landing has begun; nothing is left when it has been published. -/
  pieces : Option (List Piece)
  len : Nat
  trunc : Bool
  entries : List Nat
  pubs : List Nat
  /-- Granted bytes of a pulled payload. -/
  granted : Nat
  /-- A page that it lands on is being asked for (R311). -/
  asked : Bool
  /-- A poisoned unit lies among the payload that lands: what comes before it is landed, and nothing is published (R304, R311). -/
  bad : Bool
  deriving DecidableEq, Repr

/-- A post, cancel or probe on its way to the receive engine, with the thread that waits for its answer. -/
structure RecvReq where
  wg : Nat
  sq : Nat
  lb : Nat
  lane : Nat
  d : BitVec 6
  ctx : Nat
  /-- 0 post, 1 cancel, 2 probe. -/
  kind : Nat
  words : List Word
  rec_ : List Word
  idx : Option (List Word)
  deriving DecidableEq, Repr

/-- An open collective (R321 to R323). -/
structure Coll where
  comm : Nat
  seq : Nat
  ctx : Nat
  wg : Nat
  die : Nat
  kindBar : Bool
  x : Nat
  shape : List Word
  /-- The layout records, each with the index record of a COMPOSED one. -/
  src : List Word × Option (List Word)
  dst : List Word × Option (List Word)
  rank : Nat
  /-- The ranks of its group, ascending. -/
  group : List Nat
  /-- The own source tile, read once every signature agrees. -/
  own : Option (List DWord)
  sigs : Map Signature
  /-- Granted bytes of the other members' data, by rank (R300). -/
  granted : Map Nat
  /-- Bytes of the own tile that the other members granted, by rank. -/
  given : Map Nat
  acks : List Nat
  written : Option Nat
  entries : List Nat
  pubs : List Nat
  deriving DecidableEq, Repr

/-- What follows an engine's status word (R301): a completion tag, an arrival at a barrier, or neither. -/
inductive StatusNext where
  | none
  | tag (t : Nat)
  | arrive (x : Nat)
  deriving DecidableEq, Repr

/-- A status word on its way to another device (R301): its operation's workgroup, the device and the virtual address, the record that tells of its loss, and
what follows it. -/
structure StatusOut where
  wg : Nat
  dev : Nat
  ea : Nat
  code : Nat
  sub : Nat
  die : Nat
  next : StatusNext
  deriving DecidableEq, Repr

/-- A communicator (R316). -/
structure Comm where
  ctx : Nat
  members : List Nat
  contract : Nat
  tempo : Bool
  timeout : Nat
  seq : Nat
  deriving DecidableEq, Repr

/-- What an adjournment record holds beside the workgroup itself (R344): its copy-engine contexts and transfer operations; and which of its context's
records in the save area it is. -/
structure Saved where
  ces : Map CeCtx
  xfers : Map Xfer
  slot : Option Nat
  deriving DecidableEq, Repr

/-- Nothing saved. -/
def Saved.none : Saved := { ces := [], xfers := [], slot := Option.none }

/-- The cluster state of an adjourned cluster-aligned gang's members 4k to 4k+3 (R99, R344): barriers by number and bindings by number. -/
structure ClusterSt where
  xb : Map (Bool × BitVec 4)
  xc : Map (List (Nat × MatOp))
  deriving DecidableEq, Repr

/-- A workgroup (R16, R20, R109 to R112, R137, R208, R325, R342). -/
structure Wg where
  id : Nat
  launch : Nat
  ctx : Nat
  /-- 0 user, 1 trap, 2 firmware (R325). -/
  level : Nat
  core : Nat
  persist : Nat
  /-- The first workgroup id of its gang, the gang's size, and whether it is cluster-aligned (R99). -/
  gang : Nat
  gangSize : Nat
  aligned : Bool
  /-- 0 placed, 1 adjourned, 2 retired or flushed. -/
  status : Nat
  quarters : List Nat
  squads : List Squad
  bars : Map Bar
  tags : BitVec 64
  rings : Map Ring
  norms : Map NormW
  arrivals : List Arrival
  /-- Typed buffers by space × 2^20 + offset (1 W, 2 A, 3 C, 4 S); a byte not written since placement is `fresh` or zero (R179). -/
  bufs : Map Byte
  /-- Granules that read as zero until written: space × 64 + granule; and the physical granules and tags held. -/
  zeroGr : List Nat
  granules : List (Nat × Nat)
  seed : Nat
  /-- How many placements came before its own (R233). -/
  placedAt : Nat
  poison : List Nat
  runs : Map Run
  /-- Partial sums of the runs by `CREG`, as the completed operations leave them, row by row: units of 2^-25, with 0 for a finite sum, 1 for
  +infinity, 2 for -infinity, 3 for NaN, 4 for -0. -/
  sums : Map (List (Int × Nat))
  trn : Bool
  /-- Threads parked by a matrix fault that are neither resumed nor killed: later operations are discarded (R257). -/
  discard : List (Nat × Nat)
  ordSeq : Map Nat
  issues : Nat
  /-- Its issues before the current activity interval of its core (R367). -/
  counted : Nat
  /-- `TCLK` at its issues of the last 10 µs, latest first (R342). -/
  issueLog : List Nat
  committed : Bool
  passed : Bool
  killed : Bool
  /-- The launch whose trap kernel this is (R337). -/
  trapOf : Option Nat
  /-- The context chosen by dbg.sel (R326). -/
  selected : Nat
  /-- Tags whose setting waits for the workgroup's restore (R343). -/
  lateTags : List Nat
  /-- Its treatment by a pre-emption (R343): 0 drained, 1 adjourned, its issue stopped, 2 committed again and not yet restored, 3 flushed, its engine work
  and stores under way. -/
  leaving : Option Nat
  /-- `TCLK` when a drained workgroup is adjourned after all (R343). -/
  leaveBy : Nat
  saved : Saved
  /-- A resume of it takes effect when it is restored (R351). -/
  resume : Bool
  deriving DecidableEq, Repr

/-- An update held by an ordered update unit or logged (R208, R209). -/
structure Upd where
  wg : Nat
  tid : Nat
  seq : Nat
  loc : Nat
  op : AtomOp
  deriving DecidableEq, Repr

/-- A line tracker (R209). -/
structure Tracker where
  launch : Nat
  line : Nat
  log : Bool
  held : List Upd
  deriving DecidableEq, Repr

/-- A launch (R20, R106 to R111, R334, R346). -/
structure Launch where
  ctx : Nat
  queue : Nat
  slot : Nat
  rec_ : List Word
  khw : List Word
  /-- The refusal reason (R28, R107). -/
  refused : Option Nat
  /-- The stage it stands in: 3 held, 4 admitted, 8 complete; 9 for the header of a trap kernel, which is kept as a launch of its own. -/
  stage : Nat
  lid : Nat
  /-- Its place in the admission order. -/
  order : Nat
  /-- The next workgroup id to place, and flushed or adjourned gangs to place again: first id, size. -/
  next : Nat
  again : List (Nat × Nat)
  nextSection : Nat
  /-- The gang being placed: workgroups with their cores, how many are reserved, and the launches admitted when it began (R109). -/
  placing : Option (List (Nat × Nat) × Nat × Nat)
  /-- Workgroup ids that retired. -/
  retired : List Nat
  forfeits : List Nat
  ffcnt : Nat
  ffwg : Nat
  killed : Nat
  energy : Nat
  /-- The cluster state of its adjourned cluster-aligned gangs, by the lowest workgroup id of the four (R99). -/
  clusters : Map ClusterSt
  trapQ : List (List Word)
  /-- How many records its trap queue has taken (R337). -/
  trapSlot : Nat
  /-- The trap-kernel record, once read and found good, and its workgroup. -/
  trap : Option (List Word)
  trapWg : Option Nat
  /-- The quarter reserved for the trap kernel: 4 × core + quarter. -/
  trapCore : Option Nat
  /-- An update met a full log segment (R209). -/
  logFull : Bool
  /-- `TCLK` when a workgroup of it last issued (R339). -/
  lastIssue : Nat
  deriving DecidableEq, Repr

/-- A launch queue's registers (R378), and its records read and not yet past stage 3. -/
structure Queue where
  base : Nat
  cfg : Word
  tail : BitVec 16
  head : BitVec 16
  comp : Nat
  qseq : BitVec 64
  /-- The latest launch read from it. -/
  last : Option Nat
  irq : Bool
  deriving DecidableEq, Repr

/-- A context (R329, R334, R373, R375, R380). -/
structure Ctx where
  words : List Word
  lid : Nat
  /-- The launch key, once a tenant has encapsulated a secret (R373). -/
  launchKey : Option (BitVec 256)
  saveKey : Option (BitVec 256)
  reads : Nat
  readLog : List Nat
  /-- It is switched out: its launches stay in their queues (R345). -/
  away : Bool
  deriving DecidableEq, Repr

/-- A trade in which this device is the donor (R363). -/
structure Trade where
  dev : Nat
  amount : Nat
  abandoned : Bool
  deriving DecidableEq, Repr

/-- A fabric link (R298, R376). -/
structure Link where
  retries : Nat
  frames : Nat
  crcFails : Nat
  down : Bool
  keys : Nat
  deriving DecidableEq, Repr

/-- What the device sends to other devices or to the host, in order; the outside answers with events. -/
inductive Outgoing where
  | tradeRequest (group rank amount : Nat)
  | tradeGrant (dev amount : Nat)
  | tradeAck (dev : Nat)
  | tradeReport (dev amount : Nat) (done : Bool)
  | tempo (mhz : Nat)
  | signature (k : Nat) (sig : Signature)
  | collAck (k : Nat)
  | heartbeat (k : Nat)
  /-- Elements of the own tile of collective `k` that a member granted. -/
  | collectiveData (k rank : Nat) (tile : List DWord)
  | message (k : Nat) (rows : List (List DWord))
  | announce (k bytes : Nat)
  | grant (k units : Nat)
  | reply (src : Nat) (data : QWord) (st : RemoteStatus)
  /-- Request `k`, to a device (R195). -/
  | request (k dev : Nat) (r : RemoteRequest)
  | pageRequest (k : Nat) (va : BitVec 64)
  | hostRecord (words : List Word)
  | interrupt
  | attestation (nonce : BitVec 256) (slots : List (BitVec 256)) (counter : Nat) (kemHash : BitVec 256) (log : Option (Nat × List Nat))
      (status : Nat) (signature : List Byte)
  | window (bytes : List Byte)
  | register (off : Nat) (v : BitVec 64)
  | status (code : Nat)
  deriving DecidableEq, Repr

/-- The platform: power, time, trades, identity and host registers (R355 to R381). -/
structure Platform where
  rdy : Bool
  tsy : Bool
  perr : Bool
  berr : Bool
  brsn : BitVec 8
  plimit : BitVec 12
  pwrcmd : Nat
  bal : BitVec 16
  out : BitVec 16
  tokabn : BitVec 16
  tgrp : Word
  trade : Word
  tglist : BitVec 64
  winbase : BitVec 64
  fwmbox : BitVec 64
  doorbell : Bool
  /-- Operating-point list words by 4 × entry + word. -/
  opp : Map Word
  low : Bool
  lkb : Bool
  mhz : Nat
  idx : Nat
  /-- The point chosen and not yet in effect. -/
  nextIdx : Option Nat
  tclk : BitVec 64
  /-- `TCLK` is held still until the domain's time (R365). -/
  hold : Option (BitVec 64)
  /-- Core intervals by class since the last decision: matrix, vector, memory, idle. -/
  intervals : List Nat
  /-- The intervals that the last decision counted: the fractions of R357 until the next one. -/
  counted : List Nat
  /-- Estimated energy by launch in the current millisecond; key 0 is context 0, launch l has key l + 1. -/
  estimates : Map Nat
  ctx0Energy : Nat
  trades : Map Trade
  /-- Surplus left to grant since the last decision (R362). -/
  surplus : Nat
  need : Nat
  tempoSeen : List Nat
  tempoOwn : Option Nat
  slots : Map (BitVec 256)
  counter : Nat
  leaves : Nat
  exhausted : Bool
  /-- The boot number, which the per-boot KEM key and lower tree are functions of. -/
  boot : Nat
  keySlots : Map (BitVec 512)
  /-- Attestation requests not yet answered: nonce, slot mask, context (R372). -/
  asked : List (BitVec 256 × BitVec 16 × Option (BitVec 16))
  /-- The cluster site, die × 34 + number, of each logical cluster; none before bring-up step 4 (R14). -/
  sites : List Nat
  /-- The step of bring-up reached (R381): 1 to 7. -/
  step : Nat
  /-- The corrected errors counted for firmware (R186). -/
  corrected : Nat
  bundle : Option FirmwareBundle
  deriving DecidableEq, Repr

/-- The fabric side of the device and its engines (R296 to R323). -/
structure Fabric where
  pmap : Word
  dead : List Nat
  /-- The plane a remap is under way for, `PMAP` as it was when the remap began, and whether the outstanding requests have been failed (R299). -/
  quiesced : Option Nat
  oldPmap : Word
  drained : Bool
  links : Map Link
  sends : Map SendOp
  /-- Next sequence number by destination × 2^16 + context. -/
  sendSeq : Map Nat
  /-- Expected sequence number by source × 2^16 + context. -/
  expected : Map Nat
  held : List Message
  /-- Unexpected messages in queue order; the flag: the payload stays at the source. -/
  unexpected : List (Message × Bool)
  posts : List Post
  /-- Reuse counts of the list slots. -/
  reuse : Map Nat
  reqs : Map RecvReq
  deliveries : Map Delivery
  comms : Map Comm
  colls : Map Coll
  /-- Announced eager payloads with their granted bytes, and the device that the last grant went to (R300). -/
  inbound : Map (Message × Nat)
  lastGrant : Nat
  /-- Message and collective traffic that a remap holds (R299). -/
  heldOut : List Outgoing
  /-- Small operations of the engines that wait for the window of 64, oldest first, each with the devices it goes to (R300). -/
  waitOut : List (List Nat × Outgoing)
  /-- Status words on their way to other devices (R301). -/
  statuses : Map StatusOut
  deriving DecidableEq, Repr

/-- Which threads issue: a bundle, taken out of its squad's entries, with its guard, the words its instruction takes, and the words. -/
structure Bundle where
  wg : Nat
  sq : Nat
  e : Entry
  guard : BitVec 3
  words : Nat
  deriving DecidableEq, Repr

/-- Who executes the instruction in hand. -/
inductive Cur where
  | bundle (b : Bundle)
  | engine (core ctx : Nat)
  deriving DecidableEq, Repr

/-- A turn: an event, a cycle of a squad, or an instruction of a copy-engine context. -/
inductive Turn where
  | event (i : Instr) (x : EventArg)
  | issue (wg sq : Nat)
  | engine (core ctx : Nat)
  /-- Firmware reads the oldest record of a die controller's queue and routes it (R336). -/
  | route (die : Nat)
  /-- The ordered update unit applies the next due update of a launch to a line (R209, R231). -/
  | update (launch line : Nat)
  deriving DecidableEq, Repr

/-- A cached translation (R190): the cache that holds it (0 a core's, 1 a section's, 2 a C-die's, and its number), context, the leaf's level (0, 1, or 2
for a coalesced 512 MiB entry), its index bits, the leaf. -/
structure TlbEntry where
  unit : Nat × Nat
  ctx : Nat
  level : Nat
  page : Nat
  leaf : BitVec 64
  deriving DecidableEq, Repr

/-- A page request that the host has not answered (R191): who waits, the context and the address. -/
structure PageReq where
  wg : Nat
  ctx : Nat
  addr : BitVec 64
  rec_ : List Word
  /-- The delivery that waits for the page (R311). -/
  delivery : Option Nat
  deriving DecidableEq, Repr

/-- An operation of the whole device that a thread waits for (R349, R350): the publish of a BMT write, or a translation invalidation with the
work that passed its checks before it: transfer operations by core and number, and moves by core, context and number. -/
structure DevOp where
  wg : Nat
  sq : Nat
  pub : Option Nat
  xs : List (Nat × Nat)
  cs : List (Nat × Nat × Nat)
  deriving DecidableEq, Repr

/-- A fault record whose thread's older accesses are not settled (R332): the die, the thread, and the squad's access number at the fault. -/
structure Unsettled where
  die : Nat
  wg : Nat
  sq : Nat
  lb : Nat
  lane : Nat
  before : Nat
  words : List Word
  deriving DecidableEq, Repr

/-- The state of the machine. -/
structure State where
  /-- The model's own: what happens next, in order; who executes; the argument of the event in hand; the draws of free values. -/
  agenda : List Turn
  cur : Option Cur
  arg : EventArg
  freeCtr : Nat
  /-- The model's own: numbers for operations in progress, in the order they begin. -/
  ids : Nat
  /-- The model's own: where the scan for the next turn stands when the agenda is empty. -/
  rr : Nat
  wgs : List Wg
  launches : List Launch
  queues : Map Queue
  ctxs : Map Ctx
  /-- `DBGCTL` by context, and `BPA0` to `BPA3` by context × 4 + number (R327, R329). -/
  dbgctl : Map Word
  bpa : Map (BitVec 64)
  cores : Map CoreSt
  /-- Cluster barriers by cluster × 8 + number: phase and arrival mask; xc bindings by cluster × 4 + number: the cores whose signer sets are complete, with their operation. -/
  xb : Map (Bool × BitVec 4)
  xc : Map (List (Nat × MatOp))
  mem : Memory
  poison : List Nat
  lineKeys : Map Nat
  /-- What a line holds under keys other than its recorded one, while nothing is written to it: by line, key and bytes (R193). -/
  keyBack : Map (List (Nat × List Byte))
  /-- Where adjournment records lie encrypted: local address of each, and the key its lines are recorded under (R193, R344). -/
  sealed : List (Nat × Nat)
  /-- What the bytes that engines wrote through MONO entries and that are not published held before: by location, the entry (context × 4096 + number)
  and the byte (R226). -/
  unpub : Map (Nat × Byte)
  flights : Map Flight
  trackers : List Tracker
  ulog : List (Nat × Nat × Upd)
  tlb : List TlbEntry
  l2eng : Word
  pubs : Map Publish
  pubOps : Map PubOp
  devOps : Map DevOp
  /-- Fault queues and `FAULTQ` of the die controllers; records that find their queue full wait in `faultWait`; records whose threads are not settled in `unsettled`. -/
  faultq : Map (BitVec 64)
  faults : Map (List (List Word))
  /-- How many records a queue has taken since `FAULTQ` was written, and the records on their way to the queues' memory: physical address and words (R329). -/
  faultSlot : Map Nat
  queueWrites : List (Nat × List Word)
  faultWait : List (Nat × List Word)
  unsettled : List Unsettled
  pageReqs : Map PageReq
  /-- Contexts last using each typed-buffer granule, by core × 512 + space × 64 + granule (R179). -/
  granuleCtx : Map Nat
  /-- How many workgroups were placed. -/
  placements : Nat
  fab : Fabric
  plat : Platform
  out : List Outgoing
  /-- The queue `PRI` scan's last queue (R108) and the number of launches admitted. -/
  lastQueue : Nat
  admitted : Nat
  deriving DecidableEq, Repr

/-- A squad as it starts (R57, R112 to R120, R146, R166, R168), with one entry per lane block at `entry`. -/
def Squad.start (role alloc nlb : Nat) (entry : VAddr) (cond : Nat → BitVec 32) : Squad :=
  { role := role, alloc := alloc, nlb := nlb, cycle := 0, regrouped := false, forms := nlb
    frontier := (List.range nlb).map (fun b =>
      { lb := b, place := { pc := entry, base := entry, hdr := 0, atHdr := true }, mask := cond b, age := 0, yielded := false,
        pwait := 0, formed := b, notBefore := 0, replay := [] })
    overflow := [], waiters := [], parked := [], exited := [], retired := [], v := [], p := [], x := [], j := [], q := [], pt := []
    conv := [], fxs := 0, watch := 0x04404004, satc := 0, zerc := 0, perf := [], marks := [], holds := [], stq := [], seq := 0
    loads := [], checks := [], remoteErr := none, doomed := [], frozen := [], unmatched := [], stepping := [] }

/-- A copy-engine context that has never run (R282; its fields at reset: log entry 6). -/
def CeCtx.free : CeCtx :=
  { owner := none, sq := 0, pc := 0, e := [], l := [], cache := [], moves := [], stuck := none, comps := [], moveNo := 0, pubWait := none, st := 0,
    fsub := 0, cursor := 0, held := none, left := [], halting := false, drain := none, ldi := [], withheld := false, kept := 0 }

/-- A core at reset. -/
def CoreSt.reset : CoreSt :=
  { l1d := [], l1i := [], ces := [], ceTurn := 0, view := [], mat := [], matTurn := 0, xfers := [] }

/-- The platform at reset (R355 to R381; values the spec does not give: log entries 9 and 10). -/
def Platform.reset : Platform :=
  { rdy := false, tsy := false, perr := false, berr := false, brsn := 0, plimit := 800, pwrcmd := 0, bal := 0, out := 0, tokabn := 0
    tgrp := 0, trade := 0, tglist := 0, winbase := 0, fwmbox := 0, doorbell := false, opp := [], low := true, lkb := false
    mhz := 360, idx := 0, nextIdx := none, tclk := 0, hold := none, intervals := [0, 0, 0, 0], counted := [0, 0, 0, 0], estimates := []
    ctx0Energy := 0, trades := [], surplus := 0, need := 0, tempoSeen := [], tempoOwn := none, slots := [], counter := 0
    leaves := 0, exhausted := false, boot := 0, keySlots := [], asked := [], sites := [], step := 1, corrected := 0, bundle := none }

/-- The fabric side at reset (R297; log entry 8). -/
def Fabric.reset : Fabric :=
  { pmap := 0x00FAC688, dead := [], quiesced := none, oldPmap := 0x00FAC688, drained := false, links := [], sends := [], sendSeq := [], expected := []
    held := [], unexpected := [], posts := [], reuse := [], reqs := [], deliveries := [], comms := [], colls := [], inbound := []
    lastGrant := 1023, heldOut := [], waitOut := [], statuses := [] }

/-- The machine right after reset. -/
def State.reset : State :=
  { agenda := [], cur := none, arg := .unit, freeCtr := 0, ids := 0, rr := 0, wgs := [], launches := [], queues := [], ctxs := [], dbgctl := [], bpa := [], cores := []
    xb := [], xc := [], mem := [], poison := [], lineKeys := [], keyBack := [], sealed := [], unpub := [], flights := [], trackers := [], ulog := [], tlb := []
    l2eng := 0x000F, pubs := [], pubOps := [], devOps := [], faultq := [], faults := [], faultSlot := [], queueWrites := [], faultWait := [], unsettled := []
    pageReqs := [], granuleCtx := [], placements := 0, fab := Fabric.reset, plat := Platform.reset, out := []
    lastQueue := 63, admitted := 0 }

end Sys2Proof.Machine
end

