-- ==== Sys2Proof/Machine/Access.lean ====
section
/-! DEFINITION. Access to workgroups, squads, registers, places and frontier entries by number (R22 to R27, R33, R57 to R60, R112 to R123). -/

namespace Sys2Proof.Machine

/-! Access by number. -/

/-- A workgroup that is nowhere. -/
def blankWg : Wg :=
  { id := 0, launch := 2 ^ 64, ctx := 0, level := 0, core := 0, persist := 0, gang := 0, gangSize := 1, aligned := false, status := 2
    quarters := [], squads := [], bars := [], tags := 0, rings := [], norms := [], arrivals := [], bufs := [], zeroGr := []
    granules := [], seed := 0, placedAt := 0, poison := [], runs := [], sums := [], trn := false, discard := [], ordSeq := [], issues := 0, counted := 0, issueLog := []
    committed := false, passed := false, killed := false, trapOf := none, selected := 0, lateTags := [], leaving := none, leaveBy := 0, saved := Saved.none
    resume := false }

/-- A squad that is nowhere. -/
def blankSquad : Squad := Squad.start 0 0 0 0 (fun _ => 0)

/-- A launch that is nowhere. -/
def blankLaunch : Launch :=
  { ctx := 0, queue := 0, slot := 0, rec_ := [], khw := [], refused := none, stage := 8, lid := 0, order := 0, next := 0, again := []
    nextSection := 0, placing := none, retired := [], forfeits := [], ffcnt := 0, ffwg := 0, killed := 0, energy := 0, clusters := [], trapQ := [], trapSlot := 0
    trap := none, trapWg := none, trapCore := none, logFull := false, lastIssue := 0 }

/-- A context that has not been created. -/
def blankCtx : Ctx :=
  { words := [], lid := 0, launchKey := none, saveKey := none, reads := 0, readLog := [], away := false }

def wgAt (s : State) (w : Nat) : Wg := s.wgs.getD w blankWg
def sqAt (s : State) (w q : Nat) : Squad := (wgAt s w).squads.getD q blankSquad
def launchAt (s : State) (l : Nat) : Launch := s.launches.getD l blankLaunch
def ctxAt (s : State) (c : Nat) : Ctx := Map.getD s.ctxs c blankCtx
def coreAt (s : State) (c : Nat) : CoreSt := Map.getD s.cores c CoreSt.reset
def ceAt (s : State) (c k : Nat) : CeCtx := Map.getD (coreAt s c).ces k CeCtx.free

def modWg (s : State) (w : Nat) (f : Wg → Wg) : State := { s with wgs := modAt s.wgs w f }
def modSq (s : State) (w q : Nat) (f : Squad → Squad) : State := modWg s w (fun g => { g with squads := modAt g.squads q f })
def modLaunch (s : State) (l : Nat) (f : Launch → Launch) : State := { s with launches := modAt s.launches l f }
def modCtx (s : State) (c : Nat) (f : Ctx → Ctx) : State := { s with ctxs := Map.modify s.ctxs c f }
def modCore (s : State) (c : Nat) (f : CoreSt → CoreSt) : State := { s with cores := Map.put s.cores c (f (coreAt s c)) }
def modCe (s : State) (c k : Nat) (f : CeCtx → CeCtx) : State :=
  modCore s c (fun o => { o with ces := Map.put o.ces k (f (Map.getD o.ces k CeCtx.free)) })

/-- Word `k` of a record or header. -/
def wordAt (l : List Word) (k : Nat) : Word := l.getD k 0
/-- Bits [hi:lo] of word `k` of a record, as a number. -/
def recBits (l : List Word) (k hi lo : Nat) : Nat := bitsOf (wordAt l k).toNat hi lo
/-- A 52-bit address in two words of a record. -/
def recAddr (l : List Word) (k : Nat) : Nat := (wordAt l k).toNat + 2 ^ 32 * recBits l (k + 1) 19 0

/-! The header words of a launch (R23 to R27). -/

def khwOf (s : State) (w : Nat) : List Word := (launchAt s (wgAt s w).launch).khw
/-- The launch that a workgroup belongs to: a trap kernel, whose header stands as a launch of its own, belongs to the one it serves (R337). -/
def Wg.served (g : Wg) : Nat := g.trapOf.getD g.launch
def khwBit (s : State) (w k : Nat) : Bool := (wordAt (khwOf s w) 0).getLsbD k
/-- The encoding version a workgroup is decoded with; firmware's own is 7 (R30, R326). -/
def versionOf (s : State) (w : Nat) : Nat := if (wgAt s w).level = 2 then 7 else recBits (khwOf s w) 0 31 28
/-- `H16`. -/
def h16 (s : State) (w : Nat) : Bool := khwBit s w 27
/-- `D`. -/
def detLaunch (s : State) (w : Nat) : Bool := khwBit s w 22
/-- The contract a launch runs (R27). -/
def contractOf (s : State) (w : Nat) : Nat :=
  let nc := recBits (khwOf s w) 0 26 23
  if nc = 0 then (if versionOf s w = 5 then 1 else 4) else nc
/-- The vector-subnormals parameter of the launch's contract: NC 1 flushes (R148). -/
def flushes (s : State) (w : Nat) : Bool := contractOf s w == 1
/-- `V`: the FP invalid trap is enabled. -/
def trapInvalid (s : State) (w : Nat) : Bool := khwBit s w 19
/-- `M`: the contract-mix trap is masked. -/
def mixMasked (s : State) (w : Nat) : Bool := khwBit s w 20
/-- Rings and tags granted (R25). -/
def ringsOf (s : State) (w : Nat) : Nat := recBits (khwOf s w) 2 29 27
def tagsOf (s : State) (w : Nat) : Nat := recBits (khwOf s w) 2 26 20
/-- The bytes of the workgroup's allocation of a typed buffer: 1 W, 2 A, 3 C, 4 S (R25); firmware has none (R326). -/
def allocOf (s : State) (w spc : Nat) : Nat :=
  16384 * (match spc with
    | 1 => recBits (khwOf s w) 2 5 0
    | 2 => recBits (khwOf s w) 2 10 6
    | 3 => recBits (khwOf s w) 2 15 11
    | 4 => recBits (khwOf s w) 2 19 16
    | _ => 0)

/-- The C-die of a core (R14). Firmware squads stand on no core: that of die controller d has number 512 + d, the root processor's 516. -/
def dieOf (core : Nat) : Nat := if core < 512 then core / 128 else core - 512

/-- The context that context-relative instructions act on (R326): firmware's is the selected one, 0 when none was selected. -/
def sysCtx (s : State) (w : Nat) : Nat := if (wgAt s w).level = 2 then (wgAt s w).selected else (wgAt s w).ctx
/-- `DBGCTL` and `BPA`k of a context (R329). -/
def dbgctlOf (s : State) (ctx : Nat) : Word := Map.getD s.dbgctl ctx 0
def bpaOf (s : State) (ctx k : Nat) : BitVec 64 := Map.getD s.bpa (ctx * 4 + k) 0

/-! v registers, predicates, index and squad registers (R112 to R123). -/

/-- One thread's v register. -/
def vget (sq : Squad) (lb r lane : Nat) : Word := (Map.getD sq.v (lb * 256 + r) []).getD lane 0

/-- The lanes of a register after the lanes of `m` are written by `f`. -/
def mergeLanes (old : List Word) (m : BitVec 32) (f : Nat → Word) : List Word :=
  (List.range 32).map (fun l => if inMask m l then f l else old.getD l 0)

/-- Writes a v register in the lanes of `m`. -/
def vset (sq : Squad) (lb r : Nat) (m : BitVec 32) (f : Nat → Word) : Squad :=
  { sq with v := Map.put sq.v (lb * 256 + r) (mergeLanes (Map.getD sq.v (lb * 256 + r) []) m f) }

/-- Writes `n` registers from `r` on with the words of a wide value, lowest word first (R113). -/
def vsetWide (sq : Squad) (lb r : Nat) (m : BitVec 32) (f : Nat → BitVec 256) : Nat → Squad
  | 0 => sq
  | n + 1 => vset (vsetWide sq lb r m f n) lb (r + n) m (fun l => (f l).extractLsb' (32 * n) 32)

/-- A predicate of a lane block: p7 is always true (R41, R112). -/
def pget (sq : Squad) (lb k : Nat) : BitVec 32 := if k = 7 then BitVec.allOnes 32 else Map.getD sq.p (lb * 8 + k) 0

/-- Writes a predicate in the lanes of `m`. -/
def pset (sq : Squad) (lb k : Nat) (m x : BitVec 32) : Squad :=
  { sq with p := Map.put sq.p (lb * 8 + k) ((Map.getD sq.p (lb * 8 + k) 0 &&& ~~~m) ||| (x &&& m)) }

/-- LIM and BASE of an index register of one thread (R114). -/
def xget (sq : Squad) (lb k lane : Nat) : Nat × Nat := (Map.getD sq.x (lb * 4 + k) []).getD lane (0, 0)

def xset (sq : Squad) (lb k : Nat) (m : BitVec 32) (f : Nat → Nat × Nat) : Squad :=
  let old := Map.getD sq.x (lb * 4 + k) []
  { sq with x := Map.put sq.x (lb * 4 + k) ((List.range 32).map (fun l => if inMask m l then f l else old.getD l (0, 0))) }

def qget (sq : Squad) (k : Nat) : Word := Map.getD sq.q k 0
def qset (sq : Squad) (k : Nat) (x : Word) : Squad := { sq with q := Map.put sq.q k x }
/-- The q pair q(2k):q(2k+1). -/
def qpair (sq : Squad) (k : Nat) : DWord := pairOf (qget sq (2 * k)) (qget sq (2 * k + 1))

/-- Entry `i` of pt`k` (R120). -/
def ptget (sq : Squad) (k i : Nat) : Nat :=
  if k = 0 then i else ((Map.find sq.pt (k * 32 + i)).getD (BitVec.ofNat 5 i)).toNat

/-- The first lane and the width of a lane's segment (R33). -/
def segment (half : Bool) (i : Nat) : Nat × Nat := if half then (i / 16 * 16, 16) else (0, 32)

/-- The lane whose register an operand with permutation code `k` reads (R33, R122). -/
def partner (sq : Squad) (half : Bool) (k i : Nat) : Nat :=
  if k = 0 then i else (segment half i).1 + ptget sq k i % (segment half i).2

/-- `n` words of a lane's registers from `r` on, as a number of 256 bits. -/
def readWide (sq : Squad) (lb r lane : Nat) : Nat → BitVec 256
  | 0 => 0
  | n + 1 => readWide sq lb r lane n ||| ((vget sq lb (r + n) lane).zeroExtend 256 <<< (32 * n))

def convOf (sq : Squad) (k : Nat) : Conv :=
  Map.getD sq.conv k { first := 0, count := 0, st := 0, bound := false, mf0 := 0, mf1 := 0, signed := [], full := [], open_ := none }
def setConv (sq : Squad) (k : Nat) (c : Conv) : Squad := { sq with conv := Map.put sq.conv k c }
def joinOf (sq : Squad) (lb k : Nat) : Join := Map.getD sq.j (lb * 16 + k) { enr := 0, arr := 0 }
def setJoin (sq : Squad) (lb k : Nat) (j : Join) : Squad := { sq with j := Map.put sq.j (lb * 16 + k) j }
def barOf (g : Wg) (k : Nat) : Bar :=
  Map.getD g.bars k { ph := false, init := false, tarr := 0, texp := 0, earr := 0, eexp := 0, pend := 0, drops := 0, broken := none, arrivers := [] }
def setBar (g : Wg) (k : Nat) (b : Bar) : Wg := { g with bars := Map.put g.bars k b }
def ringOf (g : Wg) (k : Nat) : Ring := Map.getD g.rings k { slots := 0, pcur := 0, ccur := 0, full := 0, sph := 0 }
def setRing (g : Wg) (k : Nat) (r : Ring) : Wg := { g with rings := Map.put g.rings k r }
def exitedOf (sq : Squad) (lb : Nat) : BitVec 32 := Map.getD sq.exited lb 0
def perfAdd (sq : Squad) (k n : Nat) : Squad := { sq with perf := Map.put sq.perf k (Map.getD sq.perf k 0 + n) }
/-- ORs flags into `FXS` (R146). -/
def setFxs (sq : Squad) (x : Word) : Squad := { sq with fxs := sq.fxs ||| x }

/-! Places and entries (R22, R34, R57, R64). -/

/-- Instruction words of the clause (R34 `NW`). -/
def clauseWords (hdr : Word) : Nat := bitsOf hdr.toNat 27 24

/-- The class of a clause's words (R34); the reserved codes never get past the entry checks. -/
def clauseClass (hdr : Word) : Cls :=
  match bitsOf hdr.toNat 23 21 with
  | 0 => .ctl
  | 1 => .vec
  | 2 => .mem
  | 3 => .mat
  | 4 => .xfr
  | _ => .sys

/-- The number of a class in a fault record (R334). -/
def Cls.code : Cls → Nat
  | .ctl => 0
  | .vec => 1
  | .mem => 2
  | .mat => 3
  | .xfr => 4
  | .sys => 5
  | .ce => 6

/-- A header not yet entered. -/
def headerPlace (pc : VAddr) : Place := { pc := pc, base := pc, hdr := 0, atHdr := true }

/-- Where a thread stands after the next `n` words of its clause: the next word, or the header after the clause's last word (R35). -/
def Place.after (p : Place) (n : Nat) : Place :=
  let pc := p.pc + BitVec.ofNat 52 (4 * n)
  if (pc - p.base).toNat ≤ 4 * clauseWords p.hdr then { p with pc := pc } else headerPlace pc

/-- The word index of a place in its clause (R334 `CWI`). -/
def Place.wordIndex (p : Place) : Nat := if p.atHdr then 0 else ((p.pc - p.base).toNat / 4) % 16

/-- A fresh entry (R64: age 0). -/
def freshEntry (lb : Nat) (p : Place) (m : BitVec 32) (formed notBefore : Nat) : Entry :=
  { lb := lb, place := p, mask := m, age := 0, yielded := false, pwait := 0, formed := formed, notBefore := notBefore
    replay := [] }

/-- The priority of an entry (R57): that of its clause, `peek` giving the word of a header it stands on; 0 in version 5 (R31). -/
def priority (ver : Nat) (peek : VAddr → Word) (e : Entry) : Nat :=
  if ver = 5 then 0 else bitsOf (if e.place.atHdr then peek e.place.pc else e.place.hdr).toNat 7 0

/-- The sort key of an entry (R58): lexicographically lower sorts first. -/
def sortKey (ver : Nat) (peek : VAddr → Word) (e : Entry) : List Nat :=
  [bit e.yielded, 255 - priority ver peek e, e.place.pc.toNat, e.lb, e.formed]

/-- Lexicographic order of keys. -/
def keyLt : List Nat → List Nat → Bool
  | [], _ => false
  | _ :: _, [] => false
  | a :: as, b :: bs => if a < b then true else if b < a then false else keyLt as bs

/-- The first element in the order of a key. -/
def firstBy {α : Type} (key : α → List Nat) : List α → Option α
  | [] => none
  | x :: xs =>
    match firstBy key xs with
    | none => some x
    | some y => if keyLt (key y) (key x) then some y else some x

/-- Inserts in the order of a key, after equals. -/
def insertBy {α : Type} (key : α → List Nat) (x : α) : List α → List α
  | [] => [x]
  | y :: ys => if keyLt (key x) (key y) then x :: y :: ys else y :: insertBy key x ys

/-- Sorts by a key. -/
def sortBy {α : Type} (key : α → List Nat) (l : List α) : List α := l.foldl (fun a x => insertBy key x a) []

/-- The last element in the order of a key; of equals the one that stands last. -/
def lastBy {α : Type} (key : α → List Nat) : List α → Option α
  | [] => none
  | x :: xs =>
    match lastBy key xs with
    | none => some x
    | some y => if keyLt (key y) (key x) then some x else some y

/-- Gives an entry a place of the frontier (R59): when none is free, the one that sorts lowest among the frontier's and the new one goes to the
overflow queue. -/
def seat (ver : Nat) (peek : VAddr → Word) (sq : Squad) (e : Entry) : Squad :=
  if sq.frontier.length < Config.frontierSize then { sq with frontier := sq.frontier ++ [e] }
  else
    match lastBy (sortKey ver peek) (sq.frontier ++ [e]) with
    | none => sq
    | some out => { sq with frontier := (sq.frontier ++ [e]).erase out, overflow := sq.overflow ++ [out] }

/-- Forms an entry of a squad and places it under R59; an entry without threads is none (R57). -/
def placeEntry (ver : Nat) (peek : VAddr → Word) (sq : Squad) (e : Entry) : Squad :=
  if e.mask = 0 then sq else seat ver peek { sq with forms := sq.forms + 1 } { e with formed := sq.forms }

/-! Threads marked by lane block (R340, R353). -/

/-- The marked threads of a lane block, and a marking and an unmarking of some. -/
def marked (m : Map (BitVec 32)) (lb : Nat) : BitVec 32 := Map.getD m lb 0
def markLanes (m : Map (BitVec 32)) (lb : Nat) (x : BitVec 32) : Map (BitVec 32) := Map.put m lb (marked m lb ||| x)
def unmarkLanes (m : Map (BitVec 32)) (lb : Nat) (x : BitVec 32) : Map (BitVec 32) := Map.modify m lb (· &&& ~~~x)

end Sys2Proof.Machine
end

