-- ==== Sys2Proof/Machine/Mem.lean ====
section
/-! DEFINITION. Global memory and typed buffers: physical addresses, translation, permissions, keys, poison, L1 lines, the store queue's
view, and atomics (R175 to R212, R275 to R277). -/

namespace Sys2Proof.Machine

/-- The XOR of the `w`-bit groups of a number from bit `lo` up (R184). -/
def xorGroups (w : Nat) (x : Nat) : Nat → Nat
  | 0 => 0
  | n + 1 => Nat.xor (x % 2 ^ w) (xorGroups w (x / 2 ^ w) n)

/-- Where a local address lies: stack × 2^36 + L, or nothing beyond the valid range (R183, R184). -/
def localLoc (a : Nat) : Option Nat :=
  if bitsOf a 40 40 = 0 then
    if a < 0x9000000000 then some (xorGroups 4 (a / 128) 9 * 2 ^ 36 + (a / 2048 * 128 + a % 128)) else none
  else if bitsOf a 35 0 < 0x900000000 then some (bitsOf a 39 36 * 2 ^ 36 + bitsOf a 35 0) else none

/-- Where a physical address lies (R183). -/
def physLoc (pa : Nat) : Option Loc :=
  if bitsOf pa 51 51 = 1 then
    if bitsOf pa 50 41 = Config.ownDevice then (localLoc (bitsOf pa 40 0)).map .local
    else some (.remote (bitsOf pa 50 41) (bitsOf pa 40 0))
  else if bitsOf pa 50 41 = 0 then (localLoc (bitsOf pa 40 0)).map .local
  else none

/-- The 128-byte line of a location. -/
def lineOf (a : Nat) : Nat := a / 128

/-- Reads `n` bytes of local memory at a physical address as a number; nothing where the address is not local or not valid. -/
def physRead (s : State) (pa n : Nat) : Option Nat :=
  match physLoc pa with
  | some (.local a) => some (leNat (Memory.readAll s.mem a n))
  | _ => none

/-- The poisoned lines that stay poisoned after a write of `n` bytes: those that it does not cover whole (R186). -/
def poisonLeft (poison : List Nat) (a n : Nat) : List Nat := poison.filter (fun l => !(decide (a ≤ l * 128) && decide (l * 128 + 128 ≤ a + n)))

/-- Writes bytes of local memory at a physical address; a write elsewhere does nothing. -/
def physWrite (s : State) (pa : Nat) (bs : List Byte) : State :=
  match physLoc pa with
  | some (.local a) =>
    { s with mem := Memory.writeAll s.mem a bs, keyBack := Map.del s.keyBack (a / 128), poison := poisonLeft s.poison a bs.length }
  | _ => s

/-! Translation (R187 to R190). -/

/-- Reads a page-table entry (R187): `none` beyond installed memory. -/
def pte (s : State) (table idx : Nat) : Option (BitVec 64) := (physRead s (table + 8 * idx) 8).map (BitVec.ofNat 64)

/-- Whether a valid table entry is well formed (R188): its unused bits zero and its table local. -/
def tableOk (e : BitVec 64) : Bool := e.getLsbD 62 && bitsOf e.toNat 61 40 == 0 && !e.getLsbD 39

/-- Whether a valid leaf entry at level 0 or 1 is well formed (R187, R188). -/
def leafOk (level : Nat) (e : BitVec 64) : Bool :=
  let x := e.toNat
  let pin := e.getLsbD 53
  let bmti := e.getLsbD 46
  !e.getLsbD 62 && bitsOf x 38 36 == 0 && !(level == 0 && e.getLsbD 39) && !(level == 1 && bitsOf x 8 0 != 0) && !(pin && bmti)
    && !(pin && bitsOf x 35 20 != 0) && (pin || bitsOf x 52 49 == 0) && !(bmti && bitsOf x 35 12 != 0)

/-- Walks a context's page table: the leaf's level and the leaf, or a fault code and subcode (R187, R188). -/
def walk (s : State) (ctx va : Nat) : Except (Nat × Nat) (Nat × BitVec 64) :=
  let root := recAddr (ctxAt s ctx).words 1
  match pte s root (bitsOf va 51 43) with
  | none => .error (0x11, 4)
  | some e3 =>
    if !e3.getLsbD 63 then .error (0x10, 1) else if !tableOk e3 then .error (0x10, 2) else
    match pte s (bitsOf e3.toNat 39 0 * 4096) (bitsOf va 42 34) with
    | none => .error (0x11, 4)
    | some e2 =>
      if !e2.getLsbD 63 then .error (0x10, 1) else if !tableOk e2 then .error (0x10, 2) else
      match pte s (bitsOf e2.toNat 39 0 * 4096) (bitsOf va 33 25) with
      | none => .error (0x11, 4)
      | some e1 =>
        if !e1.getLsbD 63 then .error (0x10, 1)
        else if !e1.getLsbD 62 then (if leafOk 1 e1 then .ok (1, e1) else .error (0x10, 2))
        else if !tableOk e1 then .error (0x10, 2) else
        match pte s (bitsOf e1.toNat 39 0 * 4096) (bitsOf va 24 16) with
        | none => .error (0x11, 4)
        | some e0 =>
          if !e0.getLsbD 63 then .error (0x10, 1) else if leafOk 0 e0 then .ok (0, e0) else .error (0x10, 2)

/-- The number of address bits below a page index, by the level of a cached translation (R189, R190). -/
def pageBits (level : Nat) : Nat := if level = 0 then 16 else if level = 1 then 25 else 29

/-- The leaf of one 32 MiB page of a coalesced entry, or the entry's own leaf (R189). -/
def tlbLeaf (t : TlbEntry) (va : Nat) : Nat × BitVec 64 :=
  if t.level = 2 then (1, t.leaf + BitVec.ofNat 64 (512 * bitsOf va 28 25)) else (t.level, t.leaf)

/-- The coalesced leaf of a 512 MiB block, when its 16 entries allow one (R189): that of the block's first page. -/
def coalesced (s : State) (ctx va : Nat) (leaf : BitVec 64) : Option (BitVec 64) :=
  if leaf.getLsbD 39 then
    let base := va / 2 ^ 29 * 2 ^ 29
    match walk s ctx base with
    | .ok (1, first) =>
      if bitsOf first.toNat 12 0 = 0 ∧ (List.range 16).all (fun k => match walk s ctx (base + k * 2 ^ 25) with
          | .ok (1, e) => e == first + BitVec.ofNat 64 (512 * k)
          | _ => false) then some first
      else none
    | _ => none
  else none

/-- The translation caches of a core, nearest first (R190): its own, its section's, its C-die's. -/
def tlbUnits (core : Nat) : List (Nat × Nat) := [(0, core), (1, core / 32), (2, dieOf core)]

/-- The nearest cached translation that covers an address. -/
def tlbFind (s : State) (core ctx va : Nat) : Option TlbEntry :=
  (tlbUnits core).findSome? (fun u => s.tlb.find? (fun t => t.unit == u && t.ctx == ctx && t.page == va / 2 ^ pageBits t.level))

/-- Puts a translation into one cache; in a full one it takes the place of an entry that no rule names (log entry 62). -/
def tlbPut (s : State) (u : Nat × Nat) (e : TlbEntry) : State :=
  let e := { e with unit := u }
  let mine := s.tlb.filter (fun t => t.unit == u)
  if mine.contains e then s
  else if mine.length < Config.tlbEntries u.1 then { s with tlb := e :: s.tlb }
  else
    let out := mine[Config.freeNumber s.freeCtr % mine.length]?
    { s with tlb := e :: (match out with
      | some t => s.tlb.erase t
      | none => s.tlb), freeCtr := s.freeCtr + 1 }

/-- Puts a translation into the caches of a core. -/
def tlbFill (s : State) (core : Nat) (e : TlbEntry) : State := (tlbUnits core).foldl (fun s u => tlbPut s u e) s

/-- Translates an address to its leaf through the translation caches (R190): where a cached leaf differs from the page table's, either
may be used. -/
def translate (s : State) (core ctx va : Nat) : State × Except (Nat × Nat) (Nat × BitVec 64) :=
  let cur := walk s ctx va
  match tlbFind s core ctx va with
  | some t =>
    let s := tlbFill s core t
    let old := tlbLeaf t va
    let same := match cur with
      | .ok c => c == old
      | .error _ => false
    if same then (s, .ok old)
    else ({ s with freeCtr := s.freeCtr + 1 }, if Config.freeChoice s.freeCtr then .ok old else cur)
  | none =>
    match cur with
    | .error e => (s, .error e)
    | .ok (level, leaf) =>
      let e : TlbEntry := match (if level = 1 then coalesced s ctx va leaf else none) with
        | some first => { unit := (0, core), ctx := ctx, level := 2, page := va / 2 ^ 29, leaf := first }
        | none => { unit := (0, core), ctx := ctx, level := level, page := va / 2 ^ pageBits level, leaf := leaf }
      (tlbFill s core e, .ok (level, leaf))

/-! Buffer map entries (R275 to R277). -/

/-- The words of a BMT entry as the device holds it. -/
def bmtEntry (s : State) (ctx n : Nat) : List Word :=
  (List.range 4).map (fun k => BitVec.ofNat 32 ((physRead s (recAddr (ctxAt s ctx).words 3 + 16 * n + 4 * k) 4).getD 0))

/-- Writes the words of a BMT entry. -/
def bmtWrite (s : State) (ctx n : Nat) (ws : List Word) : State :=
  physWrite s (recAddr (ctxAt s ctx).words 3 + 16 * n) (ws.flatMap bytesOfWord)

/-- A core's view of a BMT entry: the device's, unless a publish has not reached the core (R277). -/
def bmtView (s : State) (core ctx n : Nat) : List Word :=
  match Map.find (coreAt s core).view (ctx * 4096 + n) with
  | some ws => ws
  | none => bmtEntry s ctx n

def bmtValid (ws : List Word) : Bool := (wordAt ws 0).getLsbD 31
def bmtDual (ws : List Word) : Bool := (wordAt ws 0).getLsbD 30
def bmtFront (ws : List Word) : Nat := bit ((wordAt ws 0).getLsbD 29)
def bmtGen (ws : List Word) : Nat := recBits ws 0 15 0
def bmtSize (ws : List Word) : Nat := recBits ws 3 19 0 * 65536
/-- The local address of backing `k`. -/
def bmtBacking (ws : List Word) (k : Nat) : Nat := recBits ws (1 + k) 24 0 * 65536
/-- The smallest power of two not below `x` (R276). -/
def pow2Above (x : Nat) : Nat := if x ≤ 1 then 1 else 2 ^ (Nat.log2 (x - 1) + 1)
/-- The offset of a virtual address in its entry (R276). -/
def bmtOffset (ws : List Word) (va : Nat) : Nat := va % pow2Above (bmtSize ws)

/-! Access checks (R191 to R197). -/

/-- What an access is for (R191). -/
inductive Access where
  | load
  | store
  | atomic
  | fetch
  | engineRead
  | engineWrite
  deriving DecidableEq, Repr

/-- The needed permissions and the subcode when they are missing (R191). -/
def permitted (k : Access) (leaf : BitVec 64) : Except Nat Unit :=
  let r := leaf.getLsbD 61
  let w := leaf.getLsbD 60
  match k with
  | .load => if r then .ok () else .error 1
  | .engineRead => if r then .ok () else .error 1
  | .store => if w then .ok () else .error 2
  | .engineWrite => if w then .ok () else .error 2
  | .atomic => if r && w then .ok () else .error 2
  | .fetch => if leaf.getLsbD 59 then .ok () else .error 3

/-- An access that passed translation and protection: where it goes, how its page is cached, the page's contract stamp, and whether its
physical address has bit 51 set. -/
structure Acc where
  loc : Loc
  attr : PageAttr
  cst : Nat
  far : Bool
  deriving DecidableEq, Repr

/-- The attributes of an untranslated access of firmware (R326). -/
def physAttr : PageAttr := { key := 0, l2c := 0, l1 := true, det := false, bmt := none }

/-- Translates and checks one access; the error is a fault code and subcode, in the order translation, protection (R197). The spec gives no order among the
subcodes of protection: where several conditions hold, the model reports a missing permission (2) before the write to a DUAL page (5) (DESIGN CHOICE, log
entry 81). -/
def access (s : State) (core ctx : Nat) (phys : Bool) (va : BitVec 64) (k : Access) : State × Except (Nat × Nat) Acc :=
  if bitsOf va.toNat 63 52 ≠ 0 then (s, .error (0x10, 3))
  else if phys then
    match physLoc va.toNat with
    | some l => (s, .ok { loc := l, attr := physAttr, cst := 0, far := va.getLsbD 51 })
    | none => (s, .error (0x11, 4))
  else
    let a := va.toNat
    match translate s core ctx a with
    | (s, .error e) => (s, .error e)
    | (s, .ok (level, leaf)) =>
      let off := a % 2 ^ pageBits level
      let frame := bitsOf leaf.toNat 35 0
      let attr : PageAttr :=
        { key := bitsOf leaf.toNat 45 40, l2c := bitsOf leaf.toNat 48 47, l1 := !leaf.getLsbD 54, det := leaf.getLsbD 54, bmt := none }
      let cst := bitsOf leaf.toNat 58 55
      if leaf.getLsbD 46 then
        let n := bitsOf leaf.toNat 11 0
        let ws := bmtView s core ctx n
        if !bmtValid ws then (s, .error (0x10, 4))
        else match permitted k leaf with
        | .error sub => (s, .error (0x11, sub))
        | .ok () =>
          let o := bmtOffset ws a
          if bmtSize ws ≤ o then (s, .error (0x11, 4))
          else if bmtDual ws && (k == .store || k == .atomic) then (s, .error (0x11, 5))
          else
            match physLoc (bmtBacking ws (if bmtDual ws then bmtFront ws else 0) + o) with
            | none => (s, .error (0x11, 4))
            | some l =>
              (s, .ok { loc := l, cst := cst, far := false
                        attr := { attr with l1 := attr.l1 && bmtDual ws
                                            bmt := some { ctx := ctx, entry := n, dual := bmtDual ws, off := o } } })
      else match permitted k leaf with
      | .error sub => (s, .error (0x11, sub))
      | .ok () =>
        let pa := if leaf.getLsbD 53 then 2 ^ 40 + bitsOf leaf.toNat 52 49 * 2 ^ 36 + (bitsOf leaf.toNat 19 0 * 65536 + off)
          else frame * 65536 + off
        match physLoc pa with
        | none => (s, .error (0x11, 4))
        | some l =>
          let remote := match l with
            | .remote _ _ => true
            | _ => false
          (s, .ok { loc := l, attr := { attr with l1 := attr.l1 && !remote }, cst := cst, far := decide (2 ^ 51 ≤ pa) })

/-- The local address of a location of memory, stack-direct or interleaved (R184). -/
def localOf (loc : Nat) (direct : Bool) : Nat :=
  let l := loc % 2 ^ 36
  if direct then 2 ^ 40 + loc
  else l / 128 * 2048 + Nat.xor (loc / 2 ^ 36) (xorGroups 4 (l / 128) 8) * 128 + l % 128

/-! Keys and poison (R186, R193). -/

/-- Bytes of an adjournment record in a save area, at most (R344). -/
def saveBytes : Nat := 0x1C0000

/-- The key that a line is recorded under: its own, or that of the adjournment record it lies in, until something is written to it. -/
def recordedKey (s : State) (line : Nat) : Option Nat :=
  match Map.find s.lineKeys line with
  | some k => some k
  | none => (s.sealed.find? (fun r =>
      let a := localOf (line * 128) (r.1.testBit 40)
      decide (r.1 ≤ a) && decide (a < r.1 + saveBytes))).map (fun r => r.2)

/-- Makes a line ready for an access under a key (R193). A line recorded under another key is written back under that one and read under the new
one: it then holds unspecified bytes, or what it held when it was last under the new key, if nothing was written to it since. -/
def keyLine (s : State) (line key : Nat) : State :=
  match recordedKey s line with
  | none => { s with lineKeys := Map.put s.lineKeys line key }
  | some k =>
    if k = key then s
    else
      let back := Map.getD s.keyBack line []
      let bs := match back.find? (fun p => p.1 == key) with
        | some p => p.2
        | none => (List.range 128).map (Config.wrongKeyByte s.freeCtr)
      { s with
        lineKeys := Map.put s.lineKeys line key
        keyBack := Map.put s.keyBack line ((k, Memory.readAll s.mem (line * 128) 128) :: back.filter (fun p => p.1 != k))
        freeCtr := s.freeCtr + 1
        mem := Memory.writeAll s.mem (line * 128) bs }

/-- Whether `n` bytes from a location touch a poisoned line. -/
def poisoned (s : State) (a n : Nat) : Bool := s.poison.any (fun l => lineOf a ≤ l && l ≤ lineOf (a + n - 1))

/-- Performs a write at its home slice (R217): a write that covers a whole line clears its poison (R186). -/
def homeWrite (s : State) (a key : Nat) (bs : List Byte) : State :=
  let s := keyLine s (lineOf a) key
  { s with
    mem := Memory.writeAll s.mem a bs
    keyBack := Map.del s.keyBack (lineOf a)
    poison := poisonLeft s.poison a bs.length }

/-! What a core's loads see (R176, R177, R215 to R223). -/

/-- Bytes from location `a` on, with those of a write laid over them. -/
def overlay (a : Nat) (old : List Byte) (b : Nat) (bs : List Byte) : List Byte :=
  old.zipIdx.map (fun p => if b ≤ a + p.2 ∧ a + p.2 < b + bs.length then bs.getD (a + p.2 - b) 0 else p.1)

/-- The stores of a core that have left a store queue and are not acknowledged, oldest first, as local writes (R177). -/
def unacked (s : State) (core : Nat) : List (Nat × List Byte) :=
  s.flights.filterMap (fun f => match f.2.ln.loc with
    | .local a => if f.2.core = core ∧ f.2.ln.atom.isNone then some (a, f.2.ln.bytes) else none
    | _ => none)

/-- The bytes the home slice gives a core: memory with the core's stores on their way laid over it (R177). -/
def homeView (s : State) (core a n : Nat) : List Byte :=
  (unacked s core).foldl (fun bs w => overlay a bs w.1 w.2) (Memory.readAll s.mem a n)

/-- Memory with the core's stores laid over it that are not performed yet. -/
def freshView (s : State) (core a n : Nat) : List Byte :=
  (s.flights.filterMap (fun f => match f.2.ln.loc with
    | .local b => if f.2.core = core ∧ f.2.ln.atom.isNone ∧ !f.2.performed then some (b, f.2.ln.bytes) else none
    | _ => none)).foldl (fun bs w => overlay a bs w.1 w.2) (Memory.readAll s.mem a n)

/-- The tag an L1 line filled through a DUAL entry must have to hit (R277). -/
def lineTag (s : State) (core : Nat) (attr : PageAttr) : Option (Nat × Nat × Nat) :=
  match attr.bmt with
  | some r => if r.dual then some (r.ctx, r.entry, bmtGen (bmtView s core r.ctx r.entry)) else none
  | none => none

/-- The location an access has when it is performed: through a DUAL entry, that in the front of the core's view (R276). -/
def frontLoc (s : State) (core a : Nat) (attr : PageAttr) : Nat :=
  match attr.bmt with
  | some r =>
    if r.dual then
      let ws := bmtView s core r.ctx r.entry
      match physLoc (bmtBacking ws (bmtFront ws) + r.off) with
      | some (.local b) => b
      | _ => a
    else a
  | none => a

/-- Fills an L1 line (R177): in a full set it takes the place of a line that the spec leaves open. That line `n` stands in set `n` mod 256 is the model's
choice (log entry 62). -/
def l1Fill (s : State) (core line : Nat) (x : List Byte × Option (Nat × Nat × Nat)) : State :=
  let set := (coreAt s core).l1d.filter (fun p => p.1 % Config.l1dSets == line % Config.l1dSets)
  if set.length < Config.l1dWays ∨ set.any (fun p => p.1 == line) then modCore s core (fun c => { c with l1d := Map.put c.l1d line x })
  else
    let out := (set.map (·.1)).getD (Config.freeNumber s.freeCtr % set.length) line
    modCore { s with freeCtr := s.freeCtr + 1 } core (fun c => { c with l1d := Map.put (Map.del c.l1d out) line x })

/-- Reads `n` bytes of one line for a load of a core: from its L1 line, when it is present and not evicted, or from the home slice,
filling the line (R177). The flag says whether it was an L1 hit. -/
def loadBytes (s : State) (core a n : Nat) (attr : PageAttr) (atHome : Bool) : State × List Byte × Bool :=
  let a := frontLoc s core a attr
  let s := keyLine s (lineOf a) attr.key
  let view := homeView s core a n
  if atHome || !attr.l1 then (s, view, false)
  else
    let tag := lineTag s core attr
    let fill := fun (s : State) => l1Fill s core (lineOf a) (homeView s core (lineOf a * 128) 128, tag)
    match Map.find (coreAt s core).l1d (lineOf a) with
    | some (bs, t) =>
      let got := (bs.drop (a % 128)).take n
      if t ≠ tag then (fill s, view, false)
      else if got = view then (s, view, true)
      else if Config.freeChoice s.freeCtr then ({ s with freeCtr := s.freeCtr + 1 }, got, true)
      else (fill { s with freeCtr := s.freeCtr + 1 }, view, false)
    | none => (fill s, view, false)

/-! DUAL backs and unpublished MONO data (R226, R276). -/

/-- The valid DUAL entries of every context, found by their words in memory: context and number. -/
def dualEntries (s : State) : List (Nat × Nat) :=
  s.ctxs.flatMap (fun c =>
    let base := recAddr c.2.words 3
    s.mem.filterMap (fun x =>
      if x.2.toNat < 0xC0 then none
      else
        let a := localOf x.1 (base.testBit 40)
        if base ≤ a ∧ a < base + 65536 ∧ (a - base) % 16 = 3 then some (c.1, (a - base) / 16) else none))

/-- Whether an access of `n` bytes reads the back of a DUAL entry, as a core sees it, through another mapping (R276). -/
def readsBack (s : State) (core a n : Nat) (bmt : Option BmtRef) : Bool :=
  (dualEntries s).any (fun e =>
    let ws := bmtView s core e.1 e.2
    let back := bmtBacking ws (1 - bmtFront ws)
    bmtValid ws && bmtDual ws && !(bmt.any (fun r => r.ctx == e.1 && r.entry == e.2))
      && decide (localOf a (back.testBit 40) < back + bmtSize ws) && decide (back < localOf a (back.testBit 40) + n))

/-- The bytes of a load of a MONO entry from location `a` on: each byte that is written and not published is its old or its new one (R226). -/
def monoBytes (s : State) (a : Nat) (bmt : Option BmtRef) (bs : List Byte) : State × List Byte :=
  match bmt with
  | some r =>
    let mine := s.unpub.filter (fun x => x.2.1 == r.ctx * 4096 + r.entry && decide (a ≤ x.1) && decide (x.1 < a + bs.length))
    if r.dual ∨ mine.isEmpty then (s, bs)
    else
      ({ s with freeCtr := s.freeCtr + 1 },
       bs.zipIdx.map (fun p => match Map.find mine (a + p.2) with
         | some old => if (Config.freeWord s.freeCtr p.2).getLsbD 0 then old.2 else p.1
         | none => p.1))
  | none => (s, bs)

/-- Notes what bytes hold before an engine writes them through a MONO entry (context × 4096 + number) for the first time since its last publish. -/
def noteOld (s : State) (m a n : Nat) : State :=
  { s with unpub := (List.range n).foldl (fun u i =>
      if (Map.find u (a + i)).any (fun x => x.1 == m) then u else Map.put u (a + i) (m, Memory.read s.mem (a + i))) s.unpub }

/-- Invalidates every L1 data line of a core (R177). -/
def l1Invalidate (s : State) (core : Nat) : State := modCore s core (fun c => { c with l1d := [] })

/-- A global store leaves a store queue into the L1: it updates a line that is present (R177). -/
def l1Update (s : State) (core a : Nat) (bs : List Byte) : State :=
  modCore s core (fun c => { c with l1d := Map.modify c.l1d (lineOf a) (fun p => (overlay (lineOf a * 128) p.1 a bs, p.2)) })

/-! Typed buffers (R179 to R182). -/

/-- One byte of a typed buffer: unspecified in a fresh granule until written, zero in one that another context used last (R179). -/
def bufByte (g : Wg) (spc off : Nat) : Byte :=
  match Map.find g.bufs (spc * 2 ^ 20 + off) with
  | some b => b
  | none => if g.zeroGr.contains (spc * 64 + off / 16384) then 0 else Config.freshByte g.seed spc off

def bufRead (g : Wg) (spc off n : Nat) : List Byte := (List.range n).map (fun i => bufByte g spc (off + i))

/-- Writes bytes of a typed buffer; a write that covers a whole 32-byte unit clears its poison (R186). -/
def bufWrite (g : Wg) (spc off : Nat) (bs : List Byte) : Wg :=
  { g with
    bufs := (bs.zipIdx).foldl (fun m p => Map.put m (spc * 2 ^ 20 + off + p.2) p.1) g.bufs
    poison := g.poison.filter (fun u => !(decide (spc * 2 ^ 20 + off ≤ u * 32) && decide (u * 32 + 32 ≤ spc * 2 ^ 20 + off + bs.length))) }

/-- Whether bytes of a typed buffer touch a poisoned unit. -/
def bufPoisoned (g : Wg) (spc off n : Nat) : Bool :=
  g.poison.any (fun u => decide ((spc * 2 ^ 20 + off) / 32 ≤ u) && decide (u ≤ (spc * 2 ^ 20 + off + n - 1) / 32))

/-- The check of a typed-buffer access (R179): the code and subcode of its fault. The rule does not say whether an offset that comes out negative wraps
to 32 bits: the model takes it as an integer, outside the allocation, with subcode 1 (DESIGN CHOICE, log entry 63). -/
def bufCheck (s : State) (w spc : Nat) (off : Int) (n : Nat) : Option (Nat × Nat) :=
  if off % n ≠ 0 then some (0x12, 0)
  else if off < 0 ∨ (allocOf s w spc : Int) < off + n then some (0x13, 1)
  else none

/-! Open runs in C (R248). -/

/-- Whether two ranges of bytes meet. -/
def meets (a n b m : Nat) : Bool := a < b + m && b < a + n

/-- The tile of a run. -/
def Run.tile (base : Nat) (r : Run) : Nat × Nat := (base * 8192, r.m * r.n * 8)

/-- Whether `n` bytes of C from `off` on lie in part in an open run (R248). -/
def inRun (g : Wg) (off n : Nat) : Bool := g.runs.any (fun r => meets (r.2.tile r.1).1 (r.2.tile r.1).2 off n)

/-- Marks the open runs that bytes of C meet, but the one at base `but`. -/
def spoilRuns (g : Wg) (off n : Nat) (but : Option Nat) : Wg :=
  { g with runs := g.runs.map (fun r =>
      if some r.1 ≠ but ∧ meets (r.2.tile r.1).1 (r.2.tile r.1).2 off n then (r.1, { r.2 with spoilt := true }) else r) }

/-- `n` free bytes, from a draw. -/
def freeBytes (seed n : Nat) : List Byte := (List.range n).map (fun i => (Config.freeWord seed i).truncate 8)

/-! Planes of the fabric (R296, R299). -/

/-- The physical plane that a map gives a request for local address `a` of another device (R296). -/
def planeIn (pmap : Word) (a : Nat) : Nat :=
  let x := Nat.xor (bitsOf a 9 7) (bitsOf a 12 10)
  bitsOf pmap.toNat (3 * x + 2) (3 * x)

/-- The physical plane of a request. -/
def planeOf (s : State) (a : Nat) : Nat := planeIn s.fab.pmap a

/-- Whether traffic for a local address is held at the source by a remap under way: its plane was the dead one when the remap began (R299). -/
def heldAtSource (s : State) (a : Nat) : Bool :=
  match s.fab.quiesced with
  | some plane => planeIn s.fab.oldPmap a == plane
  | none => false

/-! The store queue (R175, R176). -/

/-! Loads of one thread take their values in program order (R216). -/

/-- Whether a load holds back the later accesses of its thread: its value is not taken, or it is an acquire that has not landed (R199, R203). -/
def Pend.holds (p : Pend) : Bool :=
  match p.src with
  | .value _ => p.acq
  | _ => true

/-- Whether a thread has a load issued before number `before` that holds back its later accesses. -/
def loadAhead (sq : Squad) (lb lane before : Nat) : Bool :=
  sq.loads.any (fun p => p.2.lb == lb && p.2.lane == lane && decide (p.2.seq < before) && p.2.holds)

/-- A lane's target as a range of one space: global location, S offset, or nothing for a remote one. -/
def Loc.same (x y : Loc) (n m : Nat) : Bool :=
  match x, y with
  | .local a, .local b => meets a n b m
  | .sbuf a, .sbuf b => meets a n b m
  | .remote d a, .remote e b => d == e && meets a n b m
  | _, _ => false

/-- The bytes a lane of an entry writes, as a count. -/
def StLane.size (l : StLane) : Nat :=
  match l.atom with
  | some (.op _ ty _) => if ty.toNat = 17 ∨ ty.toNat = 1 then 8 else 4
  | some (.cas ty _ _) => if ty.toNat = 17 then 8 else 4
  | none => l.bytes.length

/-- The thread's own queued stores that meet a range, youngest first. -/
def ownStores (sq : Squad) (lb lane before : Nat) (loc : Loc) (n : Nat) : List StLane :=
  sq.stq.foldl (fun acc e =>
    if e.lb = lb ∧ e.seq < before then (e.lanes.filter (fun l => l.lane == lane && l.loc.same loc l.size n)).reverse ++ acc else acc) []

/-- The offset of a location in its space. -/
def Loc.base : Loc → Nat
  | .local a => a
  | .remote _ a => a
  | .sbuf a => a

/-- Data for a load from the thread's own queued store (R176): the youngest store that meets it gives all its bytes, or it must wait. -/
inductive Forward where
  | none
  | data (bs : List Byte)
  | wait
  deriving DecidableEq, Repr

def forward (sq : Squad) (lb lane before : Nat) (loc : Loc) (n : Nat) : Forward :=
  match ownStores sq lb lane before loc n with
  | [] => .none
  | st :: _ =>
    if st.atom.isNone ∧ st.loc.base ≤ loc.base ∧ loc.base + n ≤ st.loc.base + st.size then
      .data ((st.bytes.drop (loc.base - st.loc.base)).take n)
    else .wait

end Sys2Proof.Machine
end

