-- ==== Sys2Proof/Machine/Ops.lean ====
section
/-! DEFINITION. The named operations that instructions and events share: fetching words, placing and continuing threads, waiting, taking
a fault (parking with a record) and returning from one (R56 to R80, R325 to R340). -/

namespace Sys2Proof.Machine

/-! Instruction fetch (R22, R67, R178). -/

/-- The context number a workgroup's addresses belong to in the instruction cache; firmware's are physical. -/
def fetchCtx (g : Wg) : Nat := if g.level = 2 then 2 ^ 16 else g.ctx

/-- A line of the L1 instruction cache. -/
def cachedLine (s : State) (core ctx line : Nat) : Option (List Byte) :=
  ((coreAt s core).l1i.find? (fun p => p.1 == (ctx, line))).map (·.2)

/-- The word at an address, if its line is in the L1 instruction cache. -/
def cachedWord (s : State) (core ctx : Nat) (pc : VAddr) : Option Word :=
  (cachedLine s core ctx (pc.toNat / 128)).map (fun bs =>
    let k := pc.toNat % 128
    wordOfBytes (bs.getD k 0) (bs.getD (k + 1) 0) (bs.getD (k + 2) 0) (bs.getD (k + 3) 0))

/-- The faults of fetching from an address (R67): translation, protection, poison. -/
def fetchCheck (s : State) (core ctx : Nat) (phys : Bool) (pc : VAddr) : State × Except (Nat × Nat) Acc :=
  match access s core ctx phys (pc.zeroExtend 64) .fetch with
  | (s, .ok a) =>
    match a.loc with
    | .local l => if poisoned s (lineOf l * 128) 128 then (s, .error (0x15, 0)) else (s, .ok a)
    | _ => (s, .ok a)
  | r => r

/-- The bytes of a fetched line: those of local memory; a remote line's arrive as they stand at the target, which another device decides. -/
def fetchLine (s : State) (a : Acc) : State × List Byte :=
  match a.loc with
  | .local l =>
    let s := keyLine s (lineOf l) a.attr.key
    (s, Memory.readAll s.mem (lineOf l * 128) 128)
  | _ => ({ s with freeCtr := s.freeCtr + 1 }, (List.range 128).map (fun i => (Config.freeWord s.freeCtr i).truncate 8))

/-- The word that a header's priority is read from (R57): the cached one, or the one that a fetch would bring; zero where no fetch may. -/
def peekWord (s : State) (w : Nat) (pc : VAddr) : Word :=
  let g := wgAt s w
  match cachedWord s g.core (fetchCtx g) pc with
  | some x => x
  | none =>
    match fetchCheck s g.core g.ctx (g.level == 2) pc with
    | (_, .error _) => 0
    | (t, .ok a) =>
      let bs := (fetchLine t a).2
      let k := pc.toNat % 128
      wordOfBytes (bs.getD k 0) (bs.getD (k + 1) 0) (bs.getD (k + 2) 0) (bs.getD (k + 3) 0)

/-! Threads of a bundle. -/

/-- The guard-true threads of a bundle (R41): those of a replay entry are all (R331). -/
def activeMask (s : State) (b : Bundle) : BitVec 32 :=
  if b.e.replay.isEmpty then b.e.mask &&& pget (sqAt s b.wg b.sq) b.e.lb b.guard.toNat else b.e.mask

/-- Adds an entry to a squad of the state under R59. -/
def enter (s : State) (w q : Nat) (e : Entry) : State :=
  let ver := versionOf s w
  let peek := peekWord s w
  modSq s w q (fun sq => placeEntry ver peek sq e)

/-- Seats an entry in a squad of the state under R59. -/
def seatIn (s : State) (w q : Nat) (e : Entry) : State :=
  let ver := versionOf s w
  let peek := peekWord s w
  modSq s w q (fun sq => seat ver peek sq e)

/-- The bundle's entry after the issue, with threads of it at a place (R62). -/
def Bundle.kept (b : Bundle) (m : BitVec 32) (p : Place) (notBefore : Nat) : Entry :=
  { b.e with mask := m, place := p, notBefore := notBefore, age := 0, pwait := 0, replay := [] }

/-- Threads of a bundle go on at a place from the cycle `delay` after this one (R64): a bundle that goes on whole keeps its entry, a part of it
is a new entry, with the yield mark of the one it is split from (log entry 15). -/
def goOn (s : State) (b : Bundle) (m : BitVec 32) (p : Place) (delay : Nat) : State :=
  let c := (sqAt s b.wg b.sq).cycle
  if m = 0 then s
  else if m = b.e.mask then seatIn s b.wg b.sq (b.kept m p (c + delay))
  else enter s b.wg b.sq { freshEntry b.e.lb p m 0 (c + delay) with yielded := b.e.yielded }

/-- The place after the bundle's instruction. -/
def Bundle.next (b : Bundle) : Place := b.e.place.after b.words

/-- Threads of a bundle advance past its instruction: the entry keeps them, whichever threads leave it (R64, R65). -/
def advance (s : State) (b : Bundle) (m : BitVec 32) : State :=
  let sq := sqAt s b.wg b.sq
  let same := fun (f : Entry) => f.formed == b.e.formed && f.lb == b.e.lb && f.place == b.next
  if m = 0 then s
  else if m ≠ b.e.mask ∧ (sq.frontier ++ sq.overflow).any same then
    modSq s b.wg b.sq (fun sq =>
      let join := fun (f : Entry) => if same f then { f with mask := f.mask ||| m } else f
      { sq with frontier := sq.frontier.map join, overflow := sq.overflow.map join })
  else seatIn s b.wg b.sq (b.kept m b.next (sq.cycle + 1))

/-- Threads of a bundle begin a wait (R65): they stand at the instruction and go on at `next`. -/
def wait (s : State) (b : Bundle) (m : BitVec 32) (why : Wait) (next : Place) : State :=
  if m = 0 then s
  else modSq s b.wg b.sq (fun sq => { sq with waiters := sq.waiters ++
    [{ lb := b.e.lb, mask := m, why := why, stand := b.e.place, next := next }] })

/-- Whether an entry takes the threads of a lane block that are released to a place: it holds those released before them in the same squad cycle, that is, it
stands there and is to issue from the same cycle on (R64). -/
def Entry.takes (e : Entry) (lb : Nat) (p : Place) (notBefore : Nat) : Bool :=
  e.lb == lb && e.place == p && e.notBefore == notBefore && e.replay.isEmpty && !e.yielded

/-- Adds released threads to the entries that take them. -/
def joinReleased (sq : Squad) (lb : Nat) (m : BitVec 32) (p : Place) (notBefore : Nat) : Squad :=
  let join := fun (e : Entry) => if e.takes lb p notBefore then { e with mask := e.mask ||| m } else e
  { sq with frontier := sq.frontier.map join, overflow := sq.overflow.map join }

/-- Threads released from a wait re-enter at their places, one entry for the threads of a lane block at one place that one cycle releases, from the second
cycle after the release (R63, R64). Of the entries formed in one cycle, which counts as formed earlier (R58) the spec does not say: they are numbered in the
order in which the model forms them (DESIGN CHOICE, log entry 15). -/
def reenter (s : State) (w q : Nat) (xs : List (Nat × BitVec 32 × Place)) (delay : Nat) : State :=
  let groups := xs.foldl (fun (acc : List (Nat × BitVec 32 × Place)) x =>
    if acc.any (fun y => y.1 == x.1 && y.2.2 == x.2.2)
    then acc.map (fun y => if y.1 == x.1 && y.2.2 == x.2.2 then (y.1, y.2.1 ||| x.2.1, y.2.2) else y)
    else acc ++ [x]) []
  groups.foldl (fun s x =>
    let n := (sqAt s w q).cycle + delay
    if ((sqAt s w q).frontier ++ (sqAt s w q).overflow).any (fun e => e.takes x.1 x.2.2 n) then modSq s w q (fun sq => joinReleased sq x.1 x.2.1 x.2.2 n)
    else enter s w q (freshEntry x.1 x.2.2 x.2.1 0 n)) s

/-- Ends the waits of a squad that `ends` picks. -/
def releaseWhere (s : State) (w q : Nat) (ends : Waiter → Bool) : State :=
  let sq := sqAt s w q
  let out := sq.waiters.filter ends
  if out.isEmpty then s
  else
    let s := modSq s w q (fun sq => { sq with waiters := sq.waiters.filter (fun x => !ends x) })
    reenter s w q (out.map (fun x => (x.lb, x.mask, x.next))) 2

/-! Fault records (R333 to R336). -/

/-- What a fault says, beside where it happened. -/
structure FaultInfo where
  code : Nat
  sub : Nat
  ucode : Nat
  imm : Nat
  faddr : BitVec 64
  staged : Option (List Word)
  eng : Bool
  dbg : Bool
  ndisc : Nat
  deriving DecidableEq, Repr

/-- A plain fault. -/
def faultInfo (code sub : Nat) : FaultInfo :=
  { code := code, sub := sub, ucode := 0, imm := 0, faddr := 0, staged := none, eng := false, dbg := false, ndisc := 0 }

/-- Puts fields together: value, low bit. -/
def packWord (fs : List (Nat × Nat)) : Word := BitVec.ofNat 32 (fs.foldl (fun n f => n + f.1 * 2 ^ f.2) 0)

/-- A fault record (R334): class code, lane, thread, squad, copy-engine context, workgroup id, launch id, context, PC, word index. -/
def recordOf (i : FaultInfo) (cls lane tid sq ectx wgid lid ctx : Nat) (pc : VAddr) (cwi : Nat) (tclk : BitVec 64) : List Word :=
  let st := i.staged.getD []
  [packWord [(i.code, 24), (i.sub, 16), (i.ucode, 8), (i.imm, 0)],
   packWord [(cls, 29), (bit i.eng, 28), (bit i.dbg, 27), (bit i.staged.isSome, 26), (lane, 21), (tid, 12), (sq, 10), (ectx, 8), (min i.ndisc 31, 3)],
   BitVec.ofNat 32 wgid,
   packWord [(lid % 65536, 16), (ctx % 65536, 0)],
   pc.truncate 32,
   packWord [(cwi, 24), (bitsOf pc.toNat 51 32, 0)],
   i.faddr.truncate 32, (i.faddr >>> 32).truncate 32,
   tclk.truncate 32, (tclk >>> 32).truncate 32] ++ (List.range 6).map (wordAt st)

/-- The record of a thread's fault. -/
def threadRecord (s : State) (w q lb lane : Nat) (cls : Nat) (p : Place) (i : FaultInfo) : List Word :=
  let g := wgAt s w
  recordOf i cls lane (lb * 32 + lane) q 0 g.id (launchAt s g.launch).lid g.ctx p.pc p.wordIndex s.plat.tclk

/-- The record of an engine's fault, whose thread fields are zero (R336). -/
def engineRecord (s : State) (w : Nat) (cls ectx : Nat) (pc : VAddr) (i : FaultInfo) : List Word :=
  let g := wgAt s w
  recordOf i cls 0 0 0 ectx g.id (launchAt s g.launch).lid g.ctx pc 0 s.plat.tclk

/-- Records a die controller's fault queue holds (R329). -/
def faultRoom (s : State) (die : Nat) : Bool :=
  (Map.getD s.faults die []).length < 2 ^ (bitsOf (Map.getD s.faultq die 0).toNat 3 0 + 6)

/-- The physical address of the place that a die controller's queue gives its next record: its places are used in rotation (log entry 42). -/
def faultPlace (s : State) (die : Nat) : Nat :=
  let v := Map.getD s.faultq die 0
  bitsOf v.toNat 51 12 * 4096 + 64 * (Map.getD s.faultSlot die 0 % 2 ^ (bitsOf v.toNat 3 0 + 6))

/-- Hands a readable record to a die controller, on its way to the queue's memory; one that finds the queue full waits (R329, R336). -/
def postRecord (s : State) (die : Nat) (r : List Word) : State :=
  if faultRoom s die then
    { s with
      faults := Map.put s.faults die (Map.getD s.faults die [] ++ [r])
      faultSlot := Map.put s.faultSlot die (Map.getD s.faultSlot die 0 + 1)
      queueWrites := s.queueWrites ++ [(faultPlace s die, r)] }
  else { s with faultWait := s.faultWait ++ [(die, r)] }

/-- Whether the accesses a thread issued before number `before` are settled (R332). -/
def settled (s : State) (w q lb lane before : Nat) : Bool :=
  let sq := sqAt s w q
  !(sq.loads.any (fun p => p.2.lb == lb && p.2.lane == lane && p.2.seq < before))
    && !(sq.stq.any (fun e => e.lb == lb && decide (e.seq < before) && e.lanes.any (fun l => l.lane == lane)))
    && !(s.flights.any (fun f => f.2.wg == w && f.2.sq == q && f.2.lb == lb && f.2.ln.lane == lane && decide (f.2.seq < before)))

/-- Makes readable the records whose threads are settled (R332). -/
def settleRecords (s : State) : State :=
  s.unsettled.foldl (fun s u =>
    if settled s u.wg u.sq u.lb u.lane u.before then postRecord s u.die u.words else { s with unsettled := s.unsettled ++ [u] })
    { s with unsettled := [] }

/-- Writes a thread's record, once its older accesses are settled. -/
def reportThread (s : State) (w q lb lane : Nat) (r : List Word) : State :=
  settleRecords { s with unsettled := s.unsettled ++
    [{ die := dieOf (wgAt s w).core, wg := w, sq := q, lb := lb, lane := lane, before := (sqAt s w q).seq, words := r }] }

/-- Parks threads of a lane block, each with the way it goes on. -/
def parkThreads (s : State) (w q lb : Nat) (lanes : List Nat) (p : Place) (how : Nat → Resume) : State :=
  modSq s w q (fun sq => { sq with parked := sq.parked ++ lanes.map (fun l => { lb := lb, lane := l, place := p, how := how l }) })

/-- TAKING A FAULT on single lanes (R331): each lane parks at the instruction with its staged operands, with one record of its own. A lane
parked keeps its place of the replay buffer when the instruction took places. -/
def faultLanes (s : State) (b : Bundle) (fs : List (Nat × FaultInfo × Staged)) : State :=
  let cls := Cls.code (clauseClass b.e.place.hdr)
  fs.foldl (fun s f =>
    let s := parkThreads s b.wg b.sq b.e.lb [f.1] b.e.place (fun _ => .replay f.2.2 false)
    reportThread s b.wg b.sq b.e.lb f.1 (threadRecord s b.wg b.sq b.e.lb f.1 cls b.e.place f.2.1)) s

/-- TAKING A FAULT on a whole issue (R52, R403): the threads of `m` park at the instruction, with one record that names the lowest. When
resumed they issue it again. -/
def faultIssue (s : State) (b : Bundle) (m : BitVec 32) (i : FaultInfo) : State :=
  if m = 0 then s
  else
    let s := parkThreads s b.wg b.sq b.e.lb (lanesOf m) b.e.place (fun _ => .go false)
    reportThread s b.wg b.sq b.e.lb (lowest m)
      (threadRecord s b.wg b.sq b.e.lb (lowest m) (Cls.code (clauseClass b.e.place.hdr)) b.e.place i)

/-- A whole-issue fault of an instruction's own (R403): guard-true threads park, the others go on. -/
def ownFault (s : State) (b : Bundle) (i : FaultInfo) : State :=
  let g := activeMask s b
  advance (faultIssue s b g i) b (b.e.mask &&& ~~~g)

/-- A condition decided before any lane executes (R52): every thread of the bundle parks. -/
def encodingFault (s : State) (b : Bundle) (i : FaultInfo) : State := faultIssue s b b.e.mask i

/-- Breakpoint and stop records of a squad or thread (R340): the threads park at `p`, with a debug record that names the lowest. -/
def debugPark (s : State) (w q lb : Nat) (m : BitVec 32) (at_ resume : Place) (sub imm : Nat) (noBp : Bool) : State :=
  if m = 0 then s
  else
    let s := parkThreads s w q lb (lanesOf m) resume (fun _ => .go noBp)
    let cls := if at_.atHdr then 7 else Cls.code (clauseClass at_.hdr)
    reportThread s w q lb (lowest m)
      (threadRecord s w q lb (lowest m) cls at_ { faultInfo 0x28 sub with imm := imm, dbg := true })

/-- The barrier that a wait is on, with the place it goes on at: in `bar.wait`, `bar.sync`, or at a clause header (R34, R88). -/
def waitBarrier (why : Wait) (next : Place) : Option Nat :=
  match why with
  | .barrier k _ => some k
  | .sync k _ => some k
  | .clause => if bitsOf next.hdr.toNat 20 18 = 1 then some (bitsOf next.hdr.toNat 17 14) else none
  | _ => none

/-- Why a thread may not wait on a barrier, or arrive at it (R88): the subcode. -/
def barrierFault (g : Wg) (k : Nat) : Option Nat :=
  match (barOf g k).broken with
  | some sub => some sub
  | none => if (barOf g k).init then none else some 2

/-- The record class of a place: its clause's, or none at a header (R334). -/
def placeClass (p : Place) : Nat := if p.atHdr then 7 else Cls.code (clauseClass p.hdr)

/-- The fault that a thread parked in a wait meets when it is resumed: its barrier is broken, or no longer initialised (R86, R88). -/
def stillBarred (g : Wg) (p : Parked) : Option Nat :=
  match p.how with
  | .rewait why next => (waitBarrier why next).bind (barrierFault g)
  | _ => none

/-- The parts of a list with one value of `f` each, in the order in which the values come. -/
def partsBy {α β : Type} [DecidableEq β] (f : α → β) (l : List α) : List (β × List α) :=
  (l.map f).dedup.map (fun k => (k, l.filter (fun x => f x = k)))

/-- RETURN FROM A FAULT (R331, R338, R340): the parked threads that `picks` selects re-enter: replayed lanes of one place and lane block as one
replay entry, the others at their places; a thread parked in a wait takes it up again, or parks again when its barrier does not allow the wait. With
`step` each is to make one issue (R353). -/
def resumeThreads (s : State) (w q : Nat) (picks : Parked → Bool) (step : Bool) : State :=
  let sq := sqAt s w q
  let g := wgAt s w
  let all := sq.parked.filter picks
  let out := all.filter (fun p => (stillBarred g p).isNone)
  let s := modSq s w q (fun sq => { sq with parked := sq.parked.filter (fun p => !picks p || (stillBarred g p).isSome) })
  -- a thread that is still to park for a matrix fault is not yet one that was resumed from it (R257)
  let back := out.filter (fun p => !sq.doomed.any (fun d => d.1 == p.lb && d.2.1 == p.lane))
  let s := modWg s w (fun g => { g with discard := g.discard.filter (fun t => !back.any (fun p => t == (q, p.lb * 32 + p.lane))) })
  let mark := fun (f : Parked → Bool) (m : Map (BitVec 32)) =>
    (out.filter f).foldl (fun m p => markLanes m p.lb ((1#32) <<< p.lane)) m
  let s := modSq s w q (fun sq => { sq with
    unmatched := mark (fun p => match p.how with
      | .replay _ nb => nb
      | .go nb => nb
      | .rewait _ _ => false) sq.unmatched
    stepping := if step then mark (fun _ => true) sq.stepping
      else out.foldl (fun m p => unmarkLanes m p.lb ((1#32) <<< p.lane)) sq.stepping })
  -- replay entries
  let reps := out.filterMap (fun p => match p.how with
    | .replay st _ => some ((p.lb, p.place), (p.lane, st))
    | _ => none)
  let s := (partsBy (fun r => r.1) reps).foldl (fun s y =>
    let lanes := y.2.map (fun r => r.2)
    let e := freshEntry y.1.1 y.1.2 (maskOf (fun l => lanes.any (fun p => p.1 == l))) 0 (sq.cycle + 2)
    enter s w q { e with replay := lanes }) s
  let s := modSq s w q (fun sq => perfAdd sq 6 reps.length)
  -- threads that go on
  let goers := out.filter (fun p => match p.how with
    | .go _ => true
    | _ => false)
  let s := (partsBy (fun p => (p.lb, p.place)) goers).foldl (fun s y =>
    enter s w q (freshEntry y.1.1 y.1.2 (maskOf (fun l => y.2.any (fun p => p.lane == l))) 0 (sq.cycle + 2))) s
  -- threads whose wait goes on, and those that may not wait
  all.foldl (fun s p => match p.how, stillBarred g p with
    | .rewait _ _, some sub =>
      reportThread s w q p.lb p.lane (threadRecord s w q p.lb p.lane (placeClass p.place) p.place (faultInfo 0x19 sub))
    | .rewait why next, none =>
      modSq s w q (fun sq => { sq with waiters := sq.waiters ++
        [{ lb := p.lb, mask := (1#32) <<< p.lane, why := why, stand := p.place, next := next }] })
    | _, _ => s) s

/-- Whether a thread of a squad is parked. -/
def anyParked (g : Wg) : Bool := g.squads.any (fun q => !q.parked.isEmpty)

/-! The bundle in hand. -/

/-- Executes an instruction's meaning for the issuing bundle. -/
def withBundle (s : State) (f : Bundle → State → State) : Host.Outcome State Fault Refusal :=
  match s.cur with
  | some (.bundle b) => .next (f b { s with cur := none })
  | _ => .fault .noBundle

/-- Executes a copy-engine instruction's meaning for the issuing context. -/
def withEngine (s : State) (f : Nat → Nat → State → State) : Host.Outcome State Fault Refusal :=
  match s.cur with
  | some (.engine core k) => .next (f core k { s with cur := none })
  | _ => .fault .noBundle

/-- Draws a free value: the next draw's number, and the state after it. -/
def draw (s : State) : Nat × State := (s.freeCtr, { s with freeCtr := s.freeCtr + 1 })

/-- The bytes of a typed buffer as a load or an engine reads them: unspecified ones of an open run (R248). -/
def bufBytes (s : State) (v spc off size : Nat) : State × List Byte :=
  if spc == 3 && inRun (wgAt s v) off size then
    let d := draw s
    (d.2, freeBytes d.1 size)
  else (s, bufRead (wgAt s v) spc off size)

/-- Marks the issuing workgroup as committed (R342). -/
def commitWg (s : State) (w : Nat) : State := modWg s w (fun g => { g with committed := true })

end Sys2Proof.Machine
end

