-- ==== Sys2Proof/Machine/Operands.lean ====
section
/-! DEFINITION. Operand forms: words, pairs and quads, permuted operands, staged operands of replayed lanes, and the shared shapes of
register instructions (R33, R41, R113, R122, R331, R335). -/

namespace Sys2Proof.Machine

/-- A value of up to eight words. -/
abbrev Wide := BitVec 256

/-- The low word and the low pair of a value, and a word, a pair or a quad as a value. -/
def w32 (x : Wide) : Word := x.truncate 32
def w64 (x : Wide) : DWord := x.truncate 64
def w128 (x : Wide) : QWord := x.truncate 128
def wide32 (x : Word) : Wide := x.zeroExtend 256
def wide64 (x : DWord) : Wide := x.zeroExtend 256
def wide128 (x : QWord) : Wide := x.zeroExtend 256

/-- A register operand: its register, permutation code and number of words. -/
structure Opnd where
  r : BitVec 6
  m : BitVec 2
  n : Nat
  deriving DecidableEq, Repr

/-- An unpermuted operand. -/
def own (r : BitVec 6) (n : Nat) : Opnd := { r := r, m := 0, n := n }

/-- An operand's value for a lane, read from the registers (R122). -/
def readReg (s : State) (u : Bundle) (o : Opnd) (l : Nat) : Wide :=
  let sq := sqAt s u.wg u.sq
  readWide sq u.e.lb o.r.toNat (partner sq (h16 s u.wg) o.m.toNat l) o.n

/-- The value of an operand that may be absent. -/
def readOpt (s : State) (u : Bundle) (o : Option Opnd) (l : Nat) : Wide :=
  match o with
  | some o => readReg s u o l
  | none => 0

/-- The operands of an instruction, by slot (R335). -/
structure Opnds where
  d : Option Opnd := none
  a : Option Opnd := none
  b : Option Opnd := none
  c : Option Opnd := none
  deriving DecidableEq, Repr

/-- The staged operands of a lane: those kept for a replayed lane, or those read at issue (R331). -/
def stage (s : State) (u : Bundle) (o : Opnds) (l : Nat) : Staged :=
  match u.e.replay.find? (fun p => p.1 == l) with
  | some p => p.2
  | none => { d := readOpt s u o.d l, a := readOpt s u o.a l, b := readOpt s u o.b l, c := readOpt s u o.c l }

/-- The words of the first `n` words of a value. -/
def wordsOf (x : Wide) (n : Nat) : List Word := (List.range n).map (fun k => x.extractLsb' (32 * k) 32)

/-- The staged operands as a record holds them (R335): those of the slots in `show_`, packed at their own widths; 24 bytes are kept. -/
def stagedWords (o : Opnds) (st : Staged) (show_ : List Nat) : List Word :=
  let part := fun (k : Nat) (o : Option Opnd) (x : Wide) => if show_.contains k then (match o with | some o => wordsOf x o.n | none => []) else []
  (part 0 o.d st.d ++ part 1 o.a st.a ++ part 2 o.b st.b ++ part 3 o.c st.c).take 6

/-- Whether a register field names a register its width does not allow (R41): an odd pair, or a quad off a multiple of 4. -/
def misaligned (r : BitVec 6) (n : Nat) : Bool := r.toNat % n != 0

/-- The shape of a register instruction that cannot fault after its encoding: when a pair or quad is misaligned every thread of the bundle
parks (R41, R52); else `f` acts on the squad for the guard-true threads, and every thread advances. -/
def regOp (al : List (BitVec 6 × Nat)) (f : State → Bundle → BitVec 32 → Squad → Squad) (u : Bundle) (s : State) : State :=
  if al.any (fun p => misaligned p.1 p.2) then encodingFault s u (faultInfo 0x05 0)
  else
    let g := activeMask s u
    advance (modSq s u.wg u.sq (f s u g)) u u.e.mask

/-- A register instruction whose result is `n` words at `d`. -/
def laneOp (al : List (BitVec 6 × Nat)) (d : BitVec 6) (n : Nat) (f : State → Bundle → Nat → Wide) : Bundle → State → State :=
  regOp ((d, n) :: al) (fun s u g sq => vsetWide sq u.e.lb d.toNat g (f s u) n)

/-- A binary instruction on words, and one on pairs. -/
def bin32 (d : BitVec 6) (a : BitVec 6) (m : BitVec 2) (b : BitVec 6) (n : BitVec 2) (f : Word → Word → Word) : Bundle → State → State :=
  laneOp [] d 1 (fun s u l => wide32 (f (w32 (readReg s u ⟨a, m, 1⟩ l)) (w32 (readReg s u ⟨b, n, 1⟩ l))))
def bin64 (d : BitVec 6) (a : BitVec 6) (m : BitVec 2) (b : BitVec 6) (n : BitVec 2) (f : DWord → DWord → DWord) : Bundle → State → State :=
  laneOp [(a, 2), (b, 2)] d 2 (fun s u l => wide64 (f (w64 (readReg s u ⟨a, m, 2⟩ l)) (w64 (readReg s u ⟨b, n, 2⟩ l))))

/-- A unary instruction on words. -/
def un32 (d : BitVec 6) (a : BitVec 6) (m : BitVec 2) (f : Word → Word) : Bundle → State → State :=
  laneOp [] d 1 (fun s u l => wide32 (f (w32 (readReg s u ⟨a, m, 1⟩ l))))

/-- An instruction that writes a predicate from a test of each lane. -/
def predOp (al : List (BitVec 6 × Nat)) (p : BitVec 3) (f : State → Bundle → Nat → Bool) : Bundle → State → State :=
  regOp al (fun s u g sq => pset sq u.e.lb p.toNat g (maskOf (f s u)))

/-- The lanes of the segment of lane `i` (R33). -/
def segmentMask (half : Bool) (i : Nat) : BitVec 32 :=
  maskOf (fun l => decide ((segment half i).1 ≤ l) && decide (l < (segment half i).1 + (segment half i).2))

end Sys2Proof.Machine
end

