-- ==== Sys2Proof/Machine/Flags.lean ====
section
/-! DEFINITION. The flags of `FXS` (R146) and the carry and compare conditions of the integer and floating compares (R125, R129, R161). -/

namespace Sys2Proof.Machine

/-- Flag values of `FXS` as numbers: INV 1, DZ 2, OFL 4, UFL 8, INX 16, MIX 32 (R146). -/
structure Flags where
  inv : Bool := false
  dz : Bool := false
  ofl : Bool := false
  ufl : Bool := false
  inx : Bool := false
  mix : Bool := false
  deriving DecidableEq, Repr

/-- The OR of two sets of flags. -/
def Flags.or (x y : Flags) : Flags :=
  { inv := x.inv || y.inv, dz := x.dz || y.dz, ofl := x.ofl || y.ofl, ufl := x.ufl || y.ufl, inx := x.inx || y.inx, mix := x.mix || y.mix }

/-- The bits of `FXS` the flags set. -/
def Flags.word (x : Flags) : Word :=
  BitVec.ofNat 32 (bit x.inv + 2 * bit x.dz + 4 * bit x.ofl + 8 * bit x.ufl + 16 * bit x.inx + 32 * bit x.mix)

/-- The carry out of a 32-bit addition with carry in (R125 `iaddc`). -/
def carryOut (x y : Word) (c : Bool) : Bool := decide (2 ^ 32 ≤ x.toNat + y.toNat + bit c)

/-- An order between two values, or that there is none. -/
inductive Order where
  | lt
  | eq
  | gt
  | unordered
  deriving DecidableEq, Repr

/-- Whether a condition code holds of an order (R129): codes 6 and 7 are those of the floating compares. -/
def condition (c : BitVec 3) (o : Order) : Bool :=
  match c.toNat with
  | 0 => o == .eq
  | 1 => o != .eq
  | 2 => o == .lt
  | 3 => o == .lt || o == .eq
  | 4 => o == .gt
  | 5 => o == .gt || o == .eq
  | 6 => o != .unordered
  | _ => o == .unordered

/-- The order of two integers. -/
def orderInt (x y : Int) : Order := if x < y then .lt else if x = y then .eq else .gt

end Sys2Proof.Machine
end

