-- ==== Sys2Proof/Machine/Sync.lean ====
section
/-! DEFINITION. The shared objects of synchronisation: waits and their release, rejoin masks, barriers, tags, rings, convergence registers,
cluster barriers, tickets and events (R69 to R104). -/

namespace Sys2Proof.Machine

/-! Scoreboard items (R39): lane-block items by lane block × 128 + number, squad items above them. -/

def itemV (lb r : Nat) : Nat := lb * 128 + r
def itemGroup (lb : Nat) : Nat := lb * 128 + 64
def itemP (lb p : Nat) : Nat := lb * 128 + 65 + p
def itemX (lb x : Nat) : Nat := lb * 128 + 80 + x
def itemQ (q : Nat) : Nat := 4096 + q
def itemPt (t : Nat) : Nat := 4128 + t
def itemMf (c : Nat) : Nat := 4136 + c
def itemFxs : Nat := 4150
def itemCounters : Nat := 4151

/-- Sets a mark that an event clears. -/
def holdItem (sq : Squad) (item id : Nat) : Squad := { sq with holds := sq.holds ++ [(item, id)] }
/-- Clears the marks set for a piece of work. -/
def dropHolds (sq : Squad) (id : Nat) : Squad := { sq with holds := sq.holds.filter (fun h => h.2 != id) }

/-- A new number for an operation in progress. -/
def newId (s : State) : Nat × State := (s.ids, { s with ids := s.ids + 1 })

/-! Ending waits (R63, R65). A thread parked while it waited goes on past its wait when it is resumed (R339). -/

/-- A thread parked in a wait, as the waiter that it is. -/
def Parked.waiter (p : Parked) : Option Waiter :=
  match p.how with
  | .rewait why next => some { lb := p.lb, mask := (1#32) <<< p.lane, why := why, stand := p.place, next := next }
  | _ => none

/-- Ends the waits that `ends` picks, in a squad, for waiting threads and for threads parked in a wait. -/
def endWaits (s : State) (w q : Nat) (ends : Waiter → Bool) : State :=
  let s := modSq s w q (fun sq => { sq with parked := sq.parked.map (fun p => match p.waiter with
    | some x => if ends x then { p with place := x.next, how := .go false } else p
    | none => p) })
  releaseWhere s w q ends

/-- Ends waits in every squad of a workgroup. -/
def endWaitsWg (s : State) (w : Nat) (ends : Waiter → Bool) : State :=
  (List.range (wgAt s w).squads.length).foldl (fun s q => endWaits s w q ends) s

/-- The waits of a squad: those of waiting threads, and those in which threads are parked. -/
def allWaiters (sq : Squad) : List Waiter := sq.waiters ++ sq.parked.filterMap Parked.waiter

/-- Whether some wait of a squad is ended by a test. -/
def anyWaits (s : State) (w q : Nat) (ends : Waiter → Bool) : Bool := (allWaiters (sqAt s w q)).any ends

/-- Ends waits of a squad with an acquire (R81): where one ends, the core's L1 lines are invalidated. -/
def endAcquiring (s : State) (w q : Nat) (ends : Waiter → Bool) : State :=
  endWaits (if anyWaits s w q ends then l1Invalidate s (wgAt s w).core else s) w q ends

/-! Clause waits (R34). -/

/-- The barrier and phase of a clause wait of kind 001. -/
def clauseBarrier (hdr : Word) : Option (Nat × Bool) :=
  if bitsOf hdr.toNat 20 18 = 1 then some (bitsOf hdr.toNat 17 14, hdr.getLsbD 13) else none

/-- A waiter's clause header, if it waits at a clause header. -/
def clauseHdr (x : Waiter) : Option Word := if x.why = .clause then some x.next.hdr else none

/-- Whether the condition of a clause wait holds for threads of a lane block (R34, R402). -/
def clauseReady (s : State) (w q lb : Nat) (m : BitVec 32) (hdr : Word) : Bool :=
  let g := wgAt s w
  let sq := sqAt s w q
  match bitsOf hdr.toNat 20 18 with
  | 1 => (barOf g (bitsOf hdr.toNat 17 14)).ph == hdr.getLsbD 13
  | 2 => g.tags.getLsbD (bitsOf hdr.toNat 13 8)
  | 3 => let r := ringOf g (bitsOf hdr.toNat 10 8); r.full.getLsbD r.ccur
  | 4 => let r := ringOf g (bitsOf hdr.toNat 10 8); !r.full.getLsbD r.pcur
  | 5 => sq.stq.isEmpty
  | 6 => !sq.loads.any (fun p => p.2.lb == lb && inMask m p.2.lane)
  | _ => true

/-- Re-enters the threads of the clause waits of kind 110 whose own loads have landed; each thread waits for its own (R402). -/
def splitClauseLoads (s : State) (w q : Nat) : State :=
  modSq s w q (fun sq => { sq with waiters := sq.waiters.flatMap (fun x =>
    if x.why == .clause && bitsOf x.next.hdr.toNat 20 18 == 6 then
      let done := maskOf (fun l => inMask x.mask l && !sq.loads.any (fun p => p.2.lb == x.lb && p.2.lane == l))
      if done = 0 then [x] else if done = x.mask then [x]
      else [{ x with mask := done }, { x with mask := x.mask &&& ~~~done }]
    else [x]) })

/-- CLAUSE_WAIT_RELEASE's test: ends the clause waits of a squad whose condition holds. -/
def testClauses (s : State) (w q : Nat) : State :=
  let s := splitClauseLoads s w q
  endWaits s w q (fun x => match clauseHdr x with
    | some h => clauseReady s w q x.lb x.mask h
    | none => false)

/-! Rejoin masks (R71, R73). -/

/-- Tests a j register and releases its arrivals when it is satisfied. -/
def testJoin (s : State) (w q lb k : Nat) : State :=
  let sq := sqAt s w q
  let j := joinOf sq lb k
  if j.arr ≠ 0 ∧ j.enr &&& ~~~j.arr &&& ~~~exitedOf sq lb = 0 then
    let s := modSq s w q (fun sq => setJoin sq lb k { j with arr := 0 })
    endWaits s w q (fun x => x.lb == lb && x.why == .join k)
  else s

/-! Barriers (R83 to R89). -/

/-- Whether a waiter waits on barrier `k`: in `bar.wait`, `bar.sync` or at a clause header. -/
def onBarrier (k : Nat) (x : Waiter) : Bool := waitBarrier x.why x.next == some k

/-- Whether a waiter is released when barrier `k` comes to phase `ph`. -/
def phaseEnds (k : Nat) (ph : Bool) (x : Waiter) : Bool :=
  match x.why with
  | .barrier j p => j == k && p == ph
  | .sync j counted => j == k && counted
  | .clause => clauseBarrier x.next.hdr == some (k, ph)
  | _ => false

/-- Parks the threads that `picks` selects among a squad's waiters, where they wait, with one record for each group (R86, R88). -/
def parkWaiters (s : State) (w q : Nat) (picks : Waiter → Bool) (i : FaultInfo) : State :=
  let out := (sqAt s w q).waiters.filter picks
  let s := modSq s w q (fun sq => { sq with waiters := sq.waiters.filter (fun x => !picks x) })
  out.foldl (fun s x =>
    let how : Nat → Resume := fun _ => match x.why with
      | .sync _ _ => .rewait x.why x.next
      | _ => .go false
    let s := parkThreads s w q x.lb (lanesOf x.mask) x.stand how
    reportThread s w q x.lb (lowest x.mask) (threadRecord s w q x.lb (lowest x.mask) (placeClass x.stand) x.stand i)) s

/-- Parks every thread that waits on a barrier. -/
def parkOnBarrier (s : State) (w k sub : Nat) : State :=
  (List.range (wgAt s w).squads.length).foldl (fun s q => parkWaiters s w q (onBarrier k) (faultInfo 0x19 sub)) s

/-- Writes finisher predicates and clears their marks (R85). -/
def decideFinisher (s : State) (w : Nat) (a : Arriver) (x : Bool) : State :=
  match a.fin with
  | none => s
  | some p =>
    modSq s w a.sq (fun sq =>
      let sq := pset sq a.lb p.toNat ((1#32) <<< a.lane) (if x then BitVec.allOnes 32 else 0)
      { sq with holds := sq.holds.erase (itemP a.lb p.toNat, 2 ^ 40 + (a.lb * 32 + a.lane)) })

/-- Whether a barrier's phase is complete (R84). -/
def phaseDone (b : Bar) : Bool := b.init && b.tarr == b.texp && b.earr == b.eexp && b.pend == 0

/-- Tests a barrier and completes its phase (R84, R86). -/
def testBarrier (s : State) (w k : Nat) : State :=
  let b := barOf (wgAt s w) k
  if phaseDone b then
    let texp := b.texp - b.drops
    let init := texp != 0 || b.eexp != 0
    let ph := !b.ph
    let s := modWg s w (fun g => setBar g k
      { b with ph := ph, init := init, tarr := 0, earr := 0, pend := 0, texp := texp, drops := 0, arrivers := [] })
    let s := endWaitsWg s w (phaseEnds k ph)
    if init then s else parkOnBarrier s w k 2
  else s

/-- Counts one thread's arrival (R84, R85, R88); the caller has seen that it is not excess. -/
def countArrival (s : State) (w k : Nat) (a : Arriver) (drop : Bool) : State :=
  let b := barOf (wgAt s w) k
  let b := { b with tarr := b.tarr + 1, drops := b.drops + bit drop, arrivers := b.arrivers ++ [a] }
  let s := modWg s w (fun g => setBar g k b)
  let last := b.tarr == b.texp
  let s :=
    if detLaunch s w then
      if last then
        let top := b.arrivers.foldl (fun n x => max n (x.sq * 512 + x.lb * 32 + x.lane)) 0
        b.arrivers.foldl (fun s x => decideFinisher s w x (x.sq * 512 + x.lb * 32 + x.lane == top)) s
      else s
    else decideFinisher s w a last
  -- a thread in bar.sync, parked there or not, now waits for this phase
  let s := modSq s w a.sq (fun sq => { sq with
    waiters := sq.waiters.flatMap (fun x =>
      if x.lb == a.lb && inMask x.mask a.lane && x.why == .sync k false then
        let one := (1#32) <<< a.lane
        (if x.mask == one then [] else [{ x with mask := x.mask &&& ~~~one }]) ++ [{ x with mask := one, why := .sync k true }]
      else [x])
    parked := sq.parked.map (fun p => match p.how with
      | .rewait (.sync j false) next => if p.lb == a.lb && p.lane == a.lane && j == k then { p with how := .rewait (.sync k true) next } else p
      | _ => p) })
  testBarrier s w k

/-- Breaks a barrier (R84, R88): the record names the engine and its byte count. -/
def breakBarrier (s : State) (w k sub engine : Nat) (bytes : Int) (cls ectx : Nat) (place : Place) : State :=
  let s := modWg s w (fun g => setBar g k { barOf g k with broken := some sub })
  let g := wgAt s w
  let i := { faultInfo 0x19 sub with eng := true }
  let r := recordOf i cls 0 0 0 ectx g.id (launchAt s g.launch).lid g.ctx place.pc place.wordIndex s.plat.tclk
  let r := r.take 10 ++ [BitVec.ofNat 32 engine, BitVec.ofInt 32 bytes] ++ r.drop 12
  parkOnBarrier (postRecord s (dieOf g.core) r) w k sub

/-- Why an engine's arrival at a barrier is not applied (R84, R88, R89): the subcode. An uninitialised barrier has `EARR` = `EEXP` = 0, so an arrival
there is one too many (log entry 20). -/
def arriveFault (b : Bar) (bytes : Nat) : Option Nat :=
  match b.broken with
  | some sub => some sub
  | none => if b.earr = b.eexp then some 4 else if b.pend - bytes < -(2 ^ 27) then some 5 else none

/-- An engine arrival (R84): engine number, class, context and the place of the instruction that started the work go into the record. -/
def engineArrive (s : State) (w k bytes engine cls ectx : Nat) (place : Place) : State :=
  let b := barOf (wgAt s w) k
  match arriveFault b bytes with
  | none => testBarrier (modWg s w (fun g => setBar g k { b with earr := b.earr + 1, pend := b.pend - bytes })) w k
  | some sub => if b.broken.isSome then s else breakBarrier s w k sub engine bytes cls ectx place

/-! When a thread's update counts (R81). -/

/-- Whether the earlier stores of a thread have left the squad's store queue. -/
def storesLeft (sq : Squad) (lb lane before : Nat) : Bool :=
  !sq.stq.any (fun e => e.lb == lb && decide (e.seq < before) && e.lanes.any (fun l => l.lane == lane))
/-- Whether the earlier loads of a thread have returned. -/
def loadsBack (sq : Squad) (lb lane before : Nat) : Bool :=
  !sq.loads.any (fun p => p.2.lb == lb && p.2.lane == lane && decide (p.2.seq < before))

/-- Whether the stores that entered a core's L1 before number `before` are acknowledged (R81, cluster barrier). -/
def coreAcked (s : State) (core before : Nat) : Bool :=
  !s.flights.any (fun f => f.2.core == core && decide (f.1 < before) && f.2.ln.loc.same (.local f.2.ln.loc.base) 1 1)

/-- Whether a thread's accesses before an update let it release what they did: the earlier stores have left the store queue (R81), and the earlier loads
have taken their values, the acquires among them landed: what a released party writes is later than they are (R218, R222, R225). -/
def mayRelease (sq : Squad) (lb lane before : Nat) : Bool := storesLeft sq lb lane before && !loadAhead sq lb lane before

/-- Whether the loads of a thread whose numbers among the operations in progress are below `id` let it release what came before them. -/
def loadsTakenBy (sq : Squad) (lb lane id : Nat) : Bool :=
  !sq.loads.any (fun p => decide (p.1 < id) && p.2.lb == lb && p.2.lane == lane && p.2.holds)

/-- The threads of an update that count now. -/
def countable (s : State) (w : Nat) (a : Arrival) : BitVec 32 :=
  let sq := sqAt s w a.sq
  maskOf (fun l => inMask a.mask l && (match a.what with
    | .barrier .. => mayRelease sq a.lb l a.before
    | .commit _ => (lanesOf a.mask).all (fun l => mayRelease sq a.lb l a.before)
    | .free _ => (lanesOf a.mask).all (fun l => loadsBack sq a.lb l a.before)
    | .xbar _ _ => coreAcked s (wgAt s w).core a.before && (lanesOf a.mask).all (fun l => loadsTakenBy sq a.lb l a.before)))

/-- A fault found when an update counts, after its issue (R88, R95): a thread that waits parks where it waits, any other at its next issue;
the record carries the instruction's place and names the lowest thread. -/
def lateFault (s : State) (w : Nat) (a : Arrival) (m : BitVec 32) (i : FaultInfo) : State :=
  let r := threadRecord s w a.sq a.lb (lowest m) 0 a.place i
  let waiting := maskOf (fun l => inMask m l && (sqAt s w a.sq).waiters.any (fun x => x.lb == a.lb && inMask x.mask l))
  let s := reportThread s w a.sq a.lb (lowest m) r
  let s := modSq s w a.sq (fun sq =>
    let hit := sq.waiters.filter (fun x => x.lb == a.lb && x.mask &&& m != 0)
    -- the wait of the refused `bar.sync` itself begins with its arrival
    let how := fun (x : Waiter) => match a.what with
      | .barrier k _ _ true => if x.why = .sync k false then Resume.go false else .rewait x.why x.next
      | _ => .rewait x.why x.next
    { sq with
      waiters := sq.waiters.filterMap (fun x =>
        if x.lb == a.lb && x.mask &&& m != 0 then
          (if x.mask &&& ~~~m = 0 then none else some { x with mask := x.mask &&& ~~~m })
        else some x)
      parked := sq.parked ++ hit.flatMap (fun x => (lanesOf (x.mask &&& m)).map (fun l =>
        { lb := x.lb, lane := l, place := x.stand, how := how x }))
      doomed := sq.doomed ++ ((lanesOf (m &&& ~~~waiting)).map (fun l => (a.lb, l, none))) })
  s

/-! Rings (R93 to R95). -/

/-- The subcode of a commit or free that the ring does not allow (R95). -/
def commitFault (r : Ring) : Option Nat := if r.slots = 0 then some 3 else if r.full.getLsbD r.pcur then some 4 else none
def freeFault (r : Ring) : Option Nat := if r.slots = 0 then some 3 else if !r.full.getLsbD r.ccur then some 5 else none

def bitAt (k : Nat) : BitVec 16 := (1#16) <<< k
def commitRing (r : Ring) : Ring :=
  { r with full := r.full ||| bitAt r.pcur, sph := r.sph ^^^ bitAt r.pcur, pcur := (r.pcur + 1) % r.slots }
def freeRing (r : Ring) : Ring := { r with full := r.full &&& ~~~bitAt r.ccur, ccur := (r.ccur + 1) % r.slots }

/-- Ends the waits on a ring whose condition holds, writing the cursor into their destinations (R95). -/
def testRing (s : State) (w k : Nat) : State :=
  let r := ringOf (wgAt s w) k
  let fullNow := r.slots != 0 && r.full.getLsbD r.ccur
  let freeNow := r.slots != 0 && !r.full.getLsbD r.pcur
  let ends : Waiter → Bool := fun x => match x.why with
    | .ringFull j _ => j == k && fullNow
    | .ringFree j _ => j == k && freeNow
    | _ => false
  (List.range (wgAt s w).squads.length).foldl (fun s q =>
    let s := modSq s w q (fun sq => ((allWaiters sq).filter ends).foldl (fun sq x => match x.why with
      | .ringFull _ d => vset sq x.lb d.toNat x.mask (fun _ => BitVec.ofNat 32 r.ccur)
      | .ringFree _ d => vset sq x.lb d.toNat x.mask (fun _ => BitVec.ofNat 32 r.pcur)
      | _ => sq) sq)
    endWaits s w q ends) s

/-! Cluster barriers (R99, R100). -/

def xbKey (core k : Nat) : Nat := core / 4 * 8 + k
def xbOf (s : State) (core k : Nat) : Bool × BitVec 4 := Map.getD s.xb (xbKey core k) (false, 0)

/-- The placed workgroups of the cluster-aligned gang of a cluster. -/
def clusterMembers (s : State) (core : Nat) : List Nat :=
  (List.range s.wgs.length).filter (fun w => (wgAt s w).status == 0 && (wgAt s w).aligned && (wgAt s w).core / 4 == core / 4)

/-- Counts an arrival at a cluster barrier and completes its phase (R100); released threads' cores invalidate their L1 (R81). -/
def countXbar (s : State) (w k : Nat) : State :=
  let core := (wgAt s w).core
  let x := xbOf s core k
  let m := x.2 ||| ((1#4) <<< (core % 4))
  if m = 15#4 then
    let ph := !x.1
    let s := { s with xb := Map.put s.xb (xbKey core k) (ph, 0) }
    (clusterMembers s core).foldl (fun s v =>
      (List.range (wgAt s v).squads.length).foldl (fun s q =>
        let ends : Waiter → Bool := fun x => x.why == .xbar k ph
        endAcquiring s v q ends) s) s
  else { s with xb := Map.put s.xb (xbKey core k) (x.1, m) }

/-! Applying an update (R81, R82, R88, R95, R100). -/

/-- Applies an update for the threads of `m`, which count now. An update that is found not allowed is a late fault. -/
def applyUpdate (s : State) (w : Nat) (a : Arrival) (m : BitVec 32) : State :=
  match a.what with
  | .barrier k drop fin _ =>
    (lanesOf m).foldl (fun s l =>
      let b := barOf (wgAt s w) k
      let one := (1#32) <<< l
      let undone := modSq s w a.sq (fun sq => match fin with
        | some p => { sq with holds := sq.holds.erase (itemP a.lb p.toNat, 2 ^ 40 + (a.lb * 32 + l)) }
        | none => sq)
      match b.broken with
      | some sub => lateFault undone w a one (faultInfo 0x19 sub)
      | none =>
        if !b.init then lateFault undone w a one (faultInfo 0x19 2)
        else if b.tarr = b.texp then lateFault undone w a one (faultInfo 0x19 3)
        else countArrival s w k { sq := a.sq, lb := a.lb, lane := l, fin := fin } drop) s
  | .commit k =>
    let r := ringOf (wgAt s w) k
    match commitFault r with
    | some sub => lateFault s w a m (faultInfo 0x1A sub)
    | none => testRing (modWg s w (fun g => setRing g k (commitRing r))) w k
  | .free k =>
    let r := ringOf (wgAt s w) k
    match freeFault r with
    | some sub => lateFault s w a m (faultInfo 0x1A sub)
    | none => testRing (modWg s w (fun g => setRing g k (freeRing r))) w k
  | .xbar k d =>
    let x := xbOf s (wgAt s w).core k
    let s := modSq s w a.sq (fun sq => dropHolds sq a.before)
    if x.2.getLsbD ((wgAt s w).core % 4) then lateFault s w a m (faultInfo 0x19 6)
    else countXbar (modSq s w a.sq (fun sq => vset sq a.lb d.toNat m (fun _ => BitVec.ofNat 32 (bit (!x.1))))) w k

/-- Whether an earlier update of one of the threads is still to count. -/
def updatesBefore (s : State) (w q lb : Nat) (m : BitVec 32) : Bool :=
  (wgAt s w).arrivals.any (fun a => a.sq == q && a.lb == lb && a.mask &&& m != 0)

/-! Tags (R90 to R92). -/

/-- Ends the waits on tags whose condition holds. -/
def testTags (s : State) (w : Nat) : State :=
  let t := (wgAt s w).tags
  endWaitsWg s w (fun x => match x.why with
    | .tagAll m => t &&& m == m
    | .tagAny m => t &&& m != 0 || m == 0
    | .clause => bitsOf x.next.hdr.toNat 20 18 == 2 && t.getLsbD (bitsOf x.next.hdr.toNat 13 8)
    | _ => false)

/-- Sets a tag of a resident workgroup; for an adjourned one it is held until the restore, for a retired one dropped (R90, R111, R343). -/
def setTag (s : State) (w t : Nat) : State :=
  match (wgAt s w).status with
  | 0 => testTags (modWg s w (fun g => { g with tags := g.tags ||| ((1#64) <<< t) })) w
  | 1 => modWg s w (fun g => { g with lateTags := g.lateTags ++ [t] })
  | _ => s

/-- The tags of a mask that the workgroup was not granted. -/
def beyondGrant (s : State) (w : Nat) (m : BitVec 64) : Bool := m >>> tagsOf s w != 0

/-! Convergence registers (R96 to R98). -/

/-- Ends the open operation of a register (R98 subcode 4, R239): its signers that have not exited park at their next issue, one record
names the first signer's PC, and the register returns to DECLARED. -/
def abortConv (s : State) (w q k sub : Nat) : State :=
  let sq := sqAt s w q
  let c := convOf sq k
  let live := c.signed.filter (fun t => !inMask (exitedOf sq (t / 32)) (t % 32))
  let s := modSq s w q (fun sq =>
    { setConv sq k { c with st := 1, signed := [], full := [], open_ := none } with
      doomed := sq.doomed ++ live.map (fun t => (t / 32, t % 32, none)) })
  match c.signed, c.open_ with
  | t :: _, some o => reportThread s w q (t / 32) (t % 32) (threadRecord s w q (t / 32) (t % 32) 3 o.2 (faultInfo 0x08 sub))
  | _, _ => s

/-- A thread of a squad exits: registers it should still sign lose their open operation (R98). -/
def exitConv (s : State) (w q : Nat) (tids : List Nat) : State :=
  (List.range 8).foldl (fun s k =>
    let c := convOf (sqAt s w q) k
    if c.st == 2 && tids.any (fun t => decide (c.first ≤ t) && decide (t < c.first + c.count) && !c.signed.contains t)
    then abortConv s w q k 4 else s) s

/-! Tickets and events (R101 to R104). -/

/-- Whether a counter has reached a threshold, modulo 2^32 (R101, R103). -/
def reached (x thr : Word) : Bool := decide ((x - thr).toNat < 2 ^ 31)

/-- The word at a location of local memory. -/
def memWord (s : State) (a : Nat) : Word := BitVec.ofNat 32 (leNat (Memory.readAll s.mem a 4))

/-- The home slice re-tests ticket waiters when a write reaches the word (R101). -/
def testTickets (s : State) : State :=
  (List.range s.wgs.length).foldl (fun s w =>
    (List.range (wgAt s w).squads.length).foldl (fun s q =>
      let ends : Waiter → Bool := fun x => match x.why with
        | .ticket a thr => reached (memWord s a) thr
        | _ => false
      endAcquiring s w q ends) s) s

/-- A write performed at its home slice, with the tests it makes (R101, R217). -/
def performWrite (s : State) (a key : Nat) (bs : List Byte) : State := testTickets (homeWrite s a key bs)

/-- The physical address of an event counter (R103, R380). -/
def eventAddr (s : State) (ctx e : Nat) : Nat := recAddr (ctxAt s ctx).words 5 + 4 * e

/-- An event counter's value. -/
def eventValue (s : State) (ctx e : Nat) : Word := BitVec.ofNat 32 ((physRead s (eventAddr s ctx e) 4).getD 0)

/-- Ends the waits on events of a context that are satisfied (R103, R104): with the acquire of R81. -/
def testEvents (s : State) (ctx : Nat) : State :=
  (List.range s.wgs.length).foldl (fun s w =>
    if sysCtx s w = ctx then
      (List.range (wgAt s w).squads.length).foldl (fun s q =>
        let ends : Waiter → Bool := fun x => match x.why with
          | .event e thr => reached (eventValue s ctx e) thr
          | _ => false
        endAcquiring s w q ends) s
    else s) s

/-- Sets an event counter and tests its waiters. -/
def setEvent (s : State) (ctx e : Nat) (v : Word) : State :=
  testEvents (testTickets (physWrite s (eventAddr s ctx e) (leBytes 4 v.toNat))) ctx

end Sys2Proof.Machine
end

