-- ==== Sys2Proof/Machine/Checks.lean ====
section
/-! DEFINITION. Potentially faulting instructions: the checks of a lane's global access in their order, places of the replay buffer, and the
wait for the last check (R186, R191, R194, R197, R330, R331). -/

namespace Sys2Proof.Machine

/-! Places of the replay buffer (R330, R331). -/

/-- Places in use: lanes whose last check is outstanding, and lanes that faulted and are not replayed or killed. -/
def placesUsed (sq : Squad) : Nat :=
  sq.checks.foldl (fun n c => n + popCount c.2.mask) 0
    + sq.parked.foldl (fun n p => n + (match p.how with | .replay _ _ => 1 | _ => 0)) 0
    + (sq.frontier ++ sq.overflow).foldl (fun n e => n + e.replay.length) 0

/-- Records that the lanes of `m` hold their places until their instruction's last check. -/
def holdPlaces (s : State) (u : Bundle) (m : BitVec 32) : Nat × State :=
  let r := newId s
  (r.1, if m = 0 then r.2 else modSq r.2 u.wg u.sq (fun sq => { sq with checks := Map.put sq.checks r.1 { lb := u.e.lb, mask := m, due := 0 } }))

/-- The lanes that passed wait until the last check, and go on at `next` (R330). -/
def awaitCheckAt (s : State) (u : Bundle) (m : BitVec 32) (next : Place) : State :=
  let r := holdPlaces s u m
  wait r.2 u m (.check r.1) next

def awaitCheck (s : State) (u : Bundle) (m : BitVec 32) : State := awaitCheckAt s u m u.next

/-! Checking one lane. -/

/-- A lane's fault with its address and its staged operands as the record shows them. -/
def laneFault (cs : Nat × Nat) (addr : BitVec 64) (staged : List Word) : FaultInfo :=
  { faultInfo cs.1 cs.2 with faddr := addr, staged := some staged }

/-- The result of checking a lane's access: where it goes, and whether it is a masked contract mix. -/
structure Passed where
  acc : Acc
  mix : Bool
  deriving DecidableEq, Repr

/-- The contract-mix check of a data access (R194): the trap, or whether the access sets `FXS.MIX`. -/
def mixCheck (s : State) (w : Nat) (a : Acc) : Except (Nat × Nat) Bool :=
  if a.cst = 0 ∨ a.cst = contractOf s w then .ok false
  else if mixMasked s w then .ok true
  else .error (0x0B, 0)

/-- The poison check (R186): an access whose bytes touch a poisoned line of local memory. -/
def poisonCheck (s : State) (l : Loc) (n : Nat) : Bool :=
  match l with
  | .local a => poisoned s a n
  | _ => false

/-- The checks of a lane's global access of `n` bytes with alignment `al`, in the order of R197; `ord` gives the subcode of an
ordered-update fault, if there is one; `reads` says that poisoned bytes fault, `mx` that the contract stamp is checked (MEM and XFR, R194). -/
def laneAccess (s : State) (w : Nat) (va : BitVec 64) (n al : Nat) (k : Access) (ord : Acc → Option Nat) (reads mx : Bool) :
    State × Except (Nat × Nat) Passed :=
  let g := wgAt s w
  if va.toNat % al ≠ 0 then (s, .error (0x12, 0))
  else
    match access s g.core g.ctx (g.level == 2) va k with
    | (s, .error e) => (s, .error e)
    | (s, .ok a) =>
      match (if mx then mixCheck s w a else .ok false) with
      | .error e => (s, .error e)
      | .ok mix =>
        match ord a with
        | some sub => (s, .error (0x14, sub))
        | none => if reads && poisonCheck s a.loc n then (s, .error (0x15, 0)) else (s, .ok { acc := a, mix := mix })

/-- An access to which no ordered-update rule applies. -/
def noOrder : Acc → Option Nat := fun _ => none

/-- The ordered-update fault of any access to a DET page of another device (R208). -/
def detRemote (a : Acc) : Option Nat :=
  match a.loc with
  | .remote _ _ => if a.attr.det then some 5 else none
  | _ => none

/-- What becomes of the guard-true lanes of a potentially faulting instruction: `f` checks and performs one lane, in ascending order, and
answers its fault or what it leaves. -/
def eachLane {α : Type} (s : State) (g : BitVec 32) (f : State → Nat → State × Except FaultInfo α) :
    State × List (Nat × α) × List (Nat × FaultInfo) :=
  (lanesOf g).foldl (fun (acc : State × List (Nat × α) × List (Nat × FaultInfo)) l =>
    match f acc.1 l with
    | (s, .ok x) => (s, acc.2.1 ++ [(l, x)], acc.2.2)
    | (s, .error i) => (s, acc.2.1, acc.2.2 ++ [(l, i)])) (s, [], [])

/-- The mask of the lanes named in a list. -/
def maskIn {α : Type} (l : List (Nat × α)) : BitVec 32 := maskOf (fun k => l.any (fun p => p.1 == k))

/-- Parks the lanes that failed, each with its staged operands and its own record (R331), and sends the guard-false threads on. -/
def parkFailed (s : State) (u : Bundle) (g : BitVec 32) (st : Nat → Staged) (bad : List (Nat × FaultInfo)) : State :=
  advance (faultLanes s u (bad.map (fun p => (p.1, p.2, st p.1)))) u (u.e.mask &&& ~~~g)

/-- Sets `FXS.MIX` when a lane that passed was a masked contract mix (R194). -/
def noteMix (s : State) (u : Bundle) (mixed : Bool) : State :=
  if mixed then modSq s u.wg u.sq (fun sq => setFxs sq { mix := true : Flags }.word) else s

end Sys2Proof.Machine
end

