-- ==== Sys2Proof/Machine/Control.lean ====
section
/-! DEFINITION. The instructions of class CTL: control flow, rejoin masks, barriers, tags, rings, convergence registers, cluster barriers,
tickets, launches and event waits (R71 to R105). -/

namespace Sys2Proof.Machine

/-! Control flow (R75 to R80). -/

def execNop (s : State) : Host.Outcome State Fault Refusal := withBundle s (fun u s => advance s u u.e.mask)

/-- The target of a format B word (R44). -/
def branchTarget (u : Bundle) (o : BitVec 22) : VAddr := u.e.place.pc + o.signExtend 52 * 4

def execBra (o : BitVec 22) (s : State) : Host.Outcome State Fault Refusal :=
  withBundle s (fun u s =>
    let g := activeMask s u
    goOn (advance s u (u.e.mask &&& ~~~g)) u g (headerPlace (branchTarget u o)) 2)

/-- The link (R76): the header after the call's own clause. -/
def linkOf (p : Place) : VAddr := p.base + BitVec.ofNat 52 (4 * (clauseWords p.hdr + 1))

def execCall (o : BitVec 22) (s : State) : Host.Outcome State Fault Refusal :=
  withBundle s (fun u s =>
    let g := activeMask s u
    let link := linkOf u.e.place
    let s := modSq s u.wg u.sq (fun sq =>
      vset (vset sq u.e.lb 62 g (fun _ => link.truncate 32)) u.e.lb 63 g (fun _ => (link >>> 32).truncate 32))
    goOn (advance s u (u.e.mask &&& ~~~g)) u g (headerPlace (branchTarget u o)) 2)

/-- Sends each lane of `g` to the target its pair names (R77): a target above 52 bits faults in its lane; the others split by target,
their entries numbered in the order of the targets' highest lanes (DESIGN CHOICE, log entry 15). -/
def jumpPairs (s : State) (u : Bundle) (g : BitVec 32) (st : Nat → Staged) (t : Nat → DWord) : State :=
  let bad := (lanesOf g).filter (fun l => bitsOf (t l).toNat 63 52 != 0)
  let s := advance s u (u.e.mask &&& ~~~g)
  let s := faultLanes s u (bad.map (fun l => (l, { faultInfo 0x10 3 with faddr := t l }, st l)))
  let good := (lanesOf g).filter (fun l => !bad.contains l)
  (good.map t).dedup.foldl (fun s a => goOn s u (maskOf (fun l => good.contains l && t l == a)) (headerPlace (a.truncate 52)) 2) s

def execBrx (a : BitVec 6) (m : BitVec 2) (s : State) : Host.Outcome State Fault Refusal :=
  withBundle s (fun u s =>
    if misaligned a 2 then encodingFault s u (faultInfo 0x05 0)
    else
      let st := stage s u { a := some ⟨a, m, 2⟩ }
      jumpPairs s u (activeMask s u) st (fun l => w64 (st l).a))

def execRet (s : State) : Host.Outcome State Fault Refusal :=
  withBundle s (fun u s =>
    let st := stage s u { a := some (own 62 2) }
    jumpPairs s u (activeMask s u) st (fun l => w64 (st l).a))

/-- Moves threads to the exited state (R78): they are struck from every rejoin mask (R71), and a convergence register they should still
sign loses its open operation (R98). -/
def exitThreads (s : State) (w q lb : Nat) (m : BitVec 32) : State :=
  if m = 0 then s
  else
    let s := modSq s w q (fun sq =>
      let sq := { sq with exited := Map.put sq.exited lb (exitedOf sq lb ||| m) }
      (List.range 16).foldl (fun sq k => setJoin sq lb k { joinOf sq lb k with enr := (joinOf sq lb k).enr &&& ~~~m }) sq)
    let s := (List.range 16).foldl (fun s k => testJoin s w q lb k) s
    exitConv s w q ((lanesOf m).map (fun l => lb * 32 + l))

def execExit (s : State) : Host.Outcome State Fault Refusal :=
  withBundle s (fun u s =>
    let g := activeMask s u
    exitThreads (advance s u (u.e.mask &&& ~~~g)) u.wg u.sq u.e.lb g)

/-- The mark belongs to the whole entry (R79); an issue with no guard-true thread executes for none and sets none. -/
def execYld (s : State) : Host.Outcome State Fault Refusal :=
  withBundle s (fun u s =>
    advance s { u with e := { u.e with yielded := u.e.yielded || activeMask s u != 0 } } u.e.mask)

/-- STOP_SQUAD (R340): every other thread of the squad parks before its next issue, a waiting thread when its wait is released, unless the squad is
resumed before; one record with `SUB` 5 names the lowest of them. -/
def stopSquad (s : State) (w q : Nat) : State :=
  let sq := sqAt s w q
  if (dbgctlOf s (wgAt s w).ctx).getLsbD 7 then
    let live := (sq.frontier ++ sq.overflow).flatMap (fun e => (lanesOf e.mask).map (fun l => (e.lb, l, e.place)))
      ++ sq.waiters.flatMap (fun x => (lanesOf x.mask).map (fun l => (x.lb, l, x.stand)))
    match firstBy (fun x => [x.1, x.2.1]) live with
    | none => s
    | some t =>
      let s := modSq s w q (fun sq => { sq with frozen := live.foldl (fun m x => markLanes m x.1 ((1#32) <<< x.2.1)) sq.frozen })
      reportThread s w q t.1 t.2.1 (threadRecord s w q t.1 t.2.1 (placeClass t.2.2) t.2.2 { faultInfo 0x28 5 with dbg := true })
  else s

/-- Parks guard-true threads with a code and `IMM` (R80): they go on at the next word. -/
def stopAt (u : Bundle) (s : State) (i : FaultInfo) : State :=
  let g := activeMask s u
  let s := advance s u (u.e.mask &&& ~~~g)
  if g = 0 then s
  else
    let s := parkThreads s u.wg u.sq u.e.lb (lanesOf g) u.next (fun _ => .go false)
    reportThread s u.wg u.sq u.e.lb (lowest g)
      (threadRecord s u.wg u.sq u.e.lb (lowest g) (Cls.code (clauseClass u.e.place.hdr)) u.e.place i)

def execBrk (i : BitVec 8) (s : State) : Host.Outcome State Fault Refusal :=
  withBundle s (fun u s =>
    let g := activeMask s u
    let s := stopAt u s { faultInfo 0x28 0 with imm := i.toNat, dbg := true }
    if g = 0 then s else stopSquad s u.wg u.sq)

def execTrap (i : BitVec 8) (s : State) : Host.Outcome State Fault Refusal :=
  withBundle s (fun u s => stopAt u s { faultInfo 0x29 0 with imm := i.toNat })

/-! Rejoin masks (R73). -/

/-- The shape of the join instructions that do not wait: a change of the register, and its test. -/
def joinOp (k : BitVec 4) (f : BitVec 32 → Join → Join) (u : Bundle) (s : State) : State :=
  let g := activeMask s u
  let s := advance s u u.e.mask
  let s := modSq s u.wg u.sq (fun sq => setJoin sq u.e.lb k.toNat (f g (joinOf sq u.e.lb k.toNat)))
  testJoin s u.wg u.sq u.e.lb k.toNat

def execJoinEnrol (k : BitVec 4) (s : State) : Host.Outcome State Fault Refusal :=
  withBundle s (joinOp k (fun g j => { j with enr := j.enr ||| g }))
def execJoinStrike (k : BitVec 4) (s : State) : Host.Outcome State Fault Refusal :=
  withBundle s (joinOp k (fun g j => { j with enr := j.enr &&& ~~~g }))
/-- An instruction executes for guard-true threads alone: with none, the mask stays. -/
def execJoinClr (k : BitVec 4) (s : State) : Host.Outcome State Fault Refusal :=
  withBundle s (joinOp k (fun g j => if g = 0 then j else { j with enr := 0 }))
def execJoinWait (k : BitVec 4) (s : State) : Host.Outcome State Fault Refusal :=
  withBundle s (fun u s =>
    let g := activeMask s u
    let s := wait (advance s u (u.e.mask &&& ~~~g)) u g (.join k.toNat) u.next
    let s := modSq s u.wg u.sq (fun sq =>
      let j := joinOf sq u.e.lb k.toNat
      setJoin sq u.e.lb k.toNat { j with arr := j.arr ||| g })
    testJoin s u.wg u.sq u.e.lb k.toNat)
def execJoinRd (d : BitVec 6) (k : BitVec 4) (m : BitVec 1) (s : State) : Host.Outcome State Fault Refusal :=
  withBundle s (laneOp [] d 1 (fun s u _ =>
    let j := joinOf (sqAt s u.wg u.sq) u.e.lb k.toNat
    wide32 (if m = 0 then j.enr else j.arr)))

/-! The shape of an instruction that acts once per issue with at least one guard-true thread. -/

/-- With no guard-true thread nothing happens; a fault stops the whole issue (R403); else every thread advances and `act` is done. -/
def onceOp (chk : State → Bundle → BitVec 32 → Option FaultInfo) (act : State → Bundle → BitVec 32 → State) (u : Bundle) (s : State) : State :=
  let g := activeMask s u
  if g = 0 then advance s u u.e.mask
  else
    match chk s u g with
    | some i => ownFault s u i
    | none => act (advance s u u.e.mask) u g

/-- The shape of a wait: lanes whose condition `done` holds go on at the next word, with `acq` done, the others wait. -/
def waitOp (chk : State → Bundle → Option FaultInfo) (done : State → Bundle → Nat → Bool) (why : State → Bundle → Nat → Wait)
    (acq : State → Bundle → State) (u : Bundle) (s : State) : State :=
  let g := activeMask s u
  if g = 0 then advance s u u.e.mask
  else
    match chk s u with
    | some i => ownFault s u i
    | none =>
      let go := maskOf (fun l => inMask g l && done s u l)
      let s' := if go = 0 then s else acq s u
      let s' := advance s' u (u.e.mask &&& (~~~g ||| go))
      ((lanesOf (g &&& ~~~go)).map (why s u)).dedup.foldl (fun t y =>
        wait t u (maskOf (fun l => inMask (g &&& ~~~go) l && why s u l == y)) y u.next) s'

/-! Barriers (R88). -/

/-- The fault of naming a broken barrier, or of using one that is not initialised when `needs` (R88). -/
def barFault (s : State) (w k : Nat) (needs : Bool) : Option FaultInfo :=
  if needs || (barOf (wgAt s w) k).broken.isSome then (barrierFault (wgAt s w) k).map (faultInfo 0x19) else none

/-- Whether a thread of the workgroup waits on a barrier. -/
def barWaiters (g : Wg) (k : Nat) : Bool := g.squads.any (fun sq => sq.waiters.any (onBarrier k))

def execBarInit (k : BitVec 4) (a : BitVec 6) (s : State) : Host.Outcome State Fault Refusal :=
  withBundle s (fun u s => onceOp
    (fun s u _ => match barFault s u.wg k.toNat false with
      | some i => some i
      | none =>
        let b := barOf (wgAt s u.wg) k.toNat
        if b.tarr ≠ 0 ∨ b.earr ≠ 0 ∨ b.pend ≠ 0 ∨ barWaiters (wgAt s u.wg) k.toNat then some (faultInfo 0x19 1) else none)
    (fun s' u g =>
      let v := (w32 (readReg s u (own a 1) (lowest g))).toNat
      let b := barOf (wgAt s' u.wg) k.toNat
      let texp := bitsOf v 11 0
      let eexp := bitsOf v 15 12
      modWg s' u.wg (fun x => setBar x k.toNat { b with texp := texp, eexp := eexp, init := texp != 0 || eexp != 0, ph := false })) u s)

/-- The shape of the arrivals (R81, R85, R88): lanes that may be counted at once are, in ascending order; the others count later. An
arrival found excess at once parks its thread at the instruction; `sync` threads wait for the phase they are counted in. -/
def arriveOp (k : BitVec 4) (drop sync : Bool) (fin : Option (BitVec 3)) (u : Bundle) (s : State) : State :=
  let g := activeMask s u
  if g = 0 then advance s u u.e.mask
  else
    match barFault s u.wg k.toNat true with
    | some i => ownFault s u i
    | none =>
      let a : Arrival := { sq := u.sq, lb := u.e.lb, mask := g, place := u.e.place, before := (sqAt s u.wg u.sq).seq
                           what := .barrier k.toNat drop fin sync }
      let now := if updatesBefore s u.wg u.sq u.e.lb g then 0 else countable s u.wg a
      -- lanes beyond the expected count park; a completed phase starts a new count
      let r := (lanesOf now).foldl (fun (acc : State × BitVec 32 × Option FaultInfo) l =>
        let one := (1#32) <<< l
        match barFault acc.1 u.wg k.toNat true with
        | some i => (acc.1, acc.2.1 ||| one, some i)
        | none =>
          let b := barOf (wgAt acc.1 u.wg) k.toNat
          if b.tarr = b.texp then (acc.1, acc.2.1 ||| one, some (faultInfo 0x19 3))
          else
            let s := if sync then wait acc.1 u one (.sync k.toNat false) u.next else acc.1
            let s := match fin with
              | some p => modSq s u.wg u.sq (fun sq => holdItem sq (itemP u.e.lb p.toNat) (2 ^ 40 + (u.e.lb * 32 + l)))
              | none => s
            (countArrival s u.wg k.toNat { sq := u.sq, lb := u.e.lb, lane := l, fin := fin } drop, acc.2.1, acc.2.2)) (s, 0, none)
      let s := match r.2.2 with
        | some i => faultIssue r.1 u r.2.1 i
        | none => r.1
      let later := g &&& ~~~now
      let s := match fin with
        | some p => modSq s u.wg u.sq (fun sq => (lanesOf later).foldl (fun sq l =>
            holdItem sq (itemP u.e.lb p.toNat) (2 ^ 40 + (u.e.lb * 32 + l))) sq)
        | none => s
      let s := if later = 0 then s else modWg s u.wg (fun x => { x with arrivals := x.arrivals ++ [{ a with mask := later }] })
      let s := if sync then wait s u later (.sync k.toNat false) u.next else s
      advance s u (u.e.mask &&& ~~~r.2.1 &&& (if sync then ~~~g else BitVec.allOnes 32))

def execBarArrive (k : BitVec 4) (r : BitVec 1) (s : State) : Host.Outcome State Fault Refusal :=
  withBundle s (arriveOp k (r == 1) false none)
def execBarArriveFinisher (p : BitVec 3) (k : BitVec 4) (r : BitVec 1) (s : State) : Host.Outcome State Fault Refusal :=
  withBundle s (arriveOp k (r == 1) false (some p))
def execBarSync (k : BitVec 4) (s : State) : Host.Outcome State Fault Refusal := withBundle s (arriveOp k false true none)
def execBarSyncFinisher (p : BitVec 3) (k : BitVec 4) (s : State) : Host.Outcome State Fault Refusal :=
  withBundle s (arriveOp k false true (some p))

def execBarWaitImm (k : BitVec 4) (h : BitVec 1) (s : State) : Host.Outcome State Fault Refusal :=
  withBundle s (waitOp (fun s u => barFault s u.wg k.toNat true) (fun s u _ => (barOf (wgAt s u.wg) k.toNat).ph == (h == 1))
    (fun _ _ _ => .barrier k.toNat (h == 1)) (fun s _ => s))
def execBarWaitReg (k : BitVec 4) (a : BitVec 6) (s : State) : Host.Outcome State Fault Refusal :=
  withBundle s (
    let ph := fun (s : State) (u : Bundle) (l : Nat) => (w32 (readReg s u (own a 1) l)).getLsbD 0
    waitOp (fun s u => barFault s u.wg k.toNat true) (fun s u l => (barOf (wgAt s u.wg) k.toNat).ph == ph s u l)
      (fun s u l => .barrier k.toNat (ph s u l)) (fun s _ => s))

/-- The sum over the guard-true lanes (R88 `bar.expect`). -/
def expectSum (s : State) (u : Bundle) (a : BitVec 6) (g : BitVec 32) : Int :=
  (lanesOf g).foldl (fun n l => n + (w32 (readReg s u (own a 1) l)).toInt) 0

def execBarExpect (k : BitVec 4) (a : BitVec 6) (s : State) : Host.Outcome State Fault Refusal :=
  withBundle s (fun u s => onceOp
    (fun s u g => match barFault s u.wg k.toNat true with
      | some i => some i
      | none =>
        let p := (barOf (wgAt s u.wg) k.toNat).pend + expectSum s u a g
        if p < -(2 ^ 27) ∨ 2 ^ 27 ≤ p then some (faultInfo 0x19 5) else none)
    (fun s' u g =>
      let b := barOf (wgAt s' u.wg) k.toNat
      testBarrier (modWg s' u.wg (fun x => setBar x k.toNat { b with pend := b.pend + expectSum s u a g })) u.wg k.toNat) u s)

/-- The words `bar.rd` reads (R83). -/
def barWord (b : Bar) (sel : Nat) : Word :=
  match sel with
  | 0 => packWord [(bit b.ph, 31), (bit b.init, 30), (b.tarr, 16), (b.eexp, 12), (b.texp, 0)]
  | 1 => packWord [(b.earr, 28), ((BitVec.ofInt 28 b.pend).toNat, 0)]
  | _ => BitVec.ofInt 32 b.pend

def execBarRd (d : BitVec 6) (k : BitVec 4) (sel : BitVec 2) (s : State) : Host.Outcome State Fault Refusal :=
  withBundle s (onceOp (fun s u _ => barFault s u.wg k.toNat false)
    (fun s u g => modSq s u.wg u.sq (fun sq => vset sq u.e.lb d.toNat g (fun _ => barWord (barOf (wgAt s u.wg) k.toNat) sel.toNat))))

/-! Tags (R92). -/

/-- The mask a tag instruction names, and its range fault. -/
def tagMask (s : State) (u : Bundle) (k : BitVec 4) : DWord := qpair (sqAt s u.wg u.sq) k.toNat
def tagFault (s : State) (u : Bundle) (k : BitVec 4) : Option FaultInfo :=
  if beyondGrant s u.wg (tagMask s u k) then some (faultInfo 0x18 0) else none

def execTagWaitAll (k : BitVec 4) (s : State) : Host.Outcome State Fault Refusal :=
  withBundle s (waitOp (fun s u => tagFault s u k) (fun s u _ => (wgAt s u.wg).tags &&& tagMask s u k == tagMask s u k)
    (fun s u _ => .tagAll (tagMask s u k)) (fun s _ => s))
def execTagWaitAny (k : BitVec 4) (s : State) : Host.Outcome State Fault Refusal :=
  withBundle s (waitOp (fun s u => tagFault s u k)
    (fun s u _ => (wgAt s u.wg).tags &&& tagMask s u k != 0 || tagMask s u k == 0)
    (fun s u _ => .tagAny (tagMask s u k)) (fun s _ => s))
/-- The number of the lowest bit set, 64 when there is none. -/
def lowestBit (x : DWord) : Nat := ((List.range 64).find? (fun i => x.getLsbD i)).getD 64
def execTagFfr (d : BitVec 6) (k : BitVec 4) (s : State) : Host.Outcome State Fault Refusal :=
  withBundle s (onceOp (fun s u _ => tagFault s u k)
    (fun s u g => modSq s u.wg u.sq (fun sq =>
      vset sq u.e.lb d.toNat g (fun _ => BitVec.ofNat 32 (lowestBit ((wgAt s u.wg).tags &&& tagMask s u k))))))
def execTagClr (k : BitVec 4) (s : State) : Host.Outcome State Fault Refusal :=
  withBundle s (onceOp (fun s u _ => tagFault s u k)
    (fun s u _ => modWg s u.wg (fun x => { x with tags := x.tags &&& ~~~tagMask s u k })))
def execTagRd (d : BitVec 6) (h : BitVec 1) (s : State) : Host.Outcome State Fault Refusal :=
  withBundle s (laneOp [] d 1 (fun s u _ => wide32 (((wgAt s u.wg).tags >>> (32 * h.toNat)).truncate 32)))

/-! Rings (R94, R95). -/

/-- A ring instruction names a ring of the workgroup, or every thread of the bundle parks (R52, R94). -/
def ringOp (k : BitVec 4) (f : Bundle → State → State) (u : Bundle) (s : State) : State :=
  if ringsOf s u.wg ≤ k.toNat then encodingFault s u (faultInfo 0x1A 1) else f u s

def ringFault (s : State) (u : Bundle) (k : BitVec 4) : Option FaultInfo :=
  if (ringOf (wgAt s u.wg) k.toNat).slots = 0 then some (faultInfo 0x1A 3) else none

def execRingInit (k : BitVec 4) (a : BitVec 6) (s : State) : Host.Outcome State Fault Refusal :=
  withBundle s (ringOp k (fun u s =>
    let n := fun g => bitsOf (w32 (readReg s u (own a 1) (lowest g))).toNat 4 0
    onceOp (fun s u g => if n g < 2 ∨ 16 < n g ∨ (ringOf (wgAt s u.wg) k.toNat).full ≠ 0 then some (faultInfo 0x1A 2) else none)
      (fun s u g => modWg s u.wg (fun x => setRing x k.toNat { slots := n g, pcur := 0, ccur := 0, full := 0, sph := 0 })) u s))

/-- The waits write the cursor when they end; one that need not wait writes it at once. -/
def ringWait (d : BitVec 6) (k : BitVec 4) (now : Ring → Bool) (cur : Ring → Nat) (why : Wait) : Bundle → State → State :=
  ringOp k (waitOp (fun s u => ringFault s u k) (fun s u _ => now (ringOf (wgAt s u.wg) k.toNat)) (fun _ _ _ => why)
    (fun s u => modSq s u.wg u.sq (fun sq =>
      vset sq u.e.lb d.toNat (activeMask s u) (fun _ => BitVec.ofNat 32 (cur (ringOf (wgAt s u.wg) k.toNat))))))
def execRingWaitFull (d : BitVec 6) (k : BitVec 4) (s : State) : Host.Outcome State Fault Refusal :=
  withBundle s (ringWait d k (fun r => r.full.getLsbD r.ccur) (fun r => r.ccur) (.ringFull k.toNat d))
def execRingWaitFree (d : BitVec 6) (k : BitVec 4) (s : State) : Host.Outcome State Fault Refusal :=
  withBundle s (ringWait d k (fun r => !r.full.getLsbD r.pcur) (fun r => r.pcur) (.ringFree k.toNat d))

/-- Commits and frees are applied when they count (R81, R95): at once, with an exact fault, or later. -/
def ringUpdate (k : BitVec 4) (what : Update) (bad : Ring → Option Nat) (u : Bundle) (s : State) : State :=
  ringOp k (onceOp
    (fun s u g => match ringFault s u k with
      | some i => some i
      | none =>
        let a : Arrival := { sq := u.sq, lb := u.e.lb, mask := g, place := u.e.place, before := (sqAt s u.wg u.sq).seq, what := what }
        if countable s u.wg a = g ∧ !updatesBefore s u.wg u.sq u.e.lb g
        then (bad (ringOf (wgAt s u.wg) k.toNat)).map (fun sub => faultInfo 0x1A sub) else none)
    (fun s u g =>
      let a : Arrival := { sq := u.sq, lb := u.e.lb, mask := g, place := u.e.place, before := (sqAt s u.wg u.sq).seq, what := what }
      if countable s u.wg a = g ∧ !updatesBefore s u.wg u.sq u.e.lb g then applyUpdate s u.wg a g
      else modWg s u.wg (fun x => { x with arrivals := x.arrivals ++ [a] }))) u s
def execRingCommit (k : BitVec 4) (s : State) : Host.Outcome State Fault Refusal :=
  withBundle s (ringUpdate k (.commit k.toNat) commitFault)
def execRingFree (k : BitVec 4) (s : State) : Host.Outcome State Fault Refusal :=
  withBundle s (ringUpdate k (.free k.toNat) freeFault)

/-- The words `ring.rd` reads (R93). -/
def ringWord (r : Ring) (sel : BitVec 1) : Word :=
  if sel = 0 then packWord [(r.full.toNat, 16), (r.ccur, 12), (r.pcur, 8), (r.slots, 0)] else r.sph.zeroExtend 32
def execRingRd (d : BitVec 6) (k : BitVec 4) (sel : BitVec 1) (s : State) : Host.Outcome State Fault Refusal :=
  withBundle s (ringOp k (laneOp [] d 1 (fun s u _ => wide32 (ringWord (ringOf (wgAt s u.wg) k.toNat) sel))))

/-! Convergence registers (R97, R98). -/

/-- A declaration: the range of register A of the lowest guard-true thread. -/
def declare_ (k : BitVec 4) (a : BitVec 6) (bound : Bool) (u : Bundle) (s : State) : State :=
  let v := fun (s : State) (u : Bundle) (g : BitVec 32) => (w32 (readReg s u (own a 1) (lowest g))).toNat
  onceOp (fun s u g =>
      let sq := sqAt s u.wg u.sq
      let n := bitsOf (v s u g) 25 16
      if bound && !(wgAt s u.wg).aligned then some (faultInfo 0x1D 3)
      else if n = 0 ∨ sq.nlb * 32 < bitsOf (v s u g) 8 0 + n then some (faultInfo 0x08 2)
      else if 2 ≤ (convOf sq k.toNat).st then some (faultInfo 0x08 3)
      else none)
    (fun s' u g => modSq s' u.wg u.sq (fun sq => setConv sq k.toNat
      { convOf sq k.toNat with first := bitsOf (v s u g) 8 0, count := bitsOf (v s u g) 25 16, st := 1, bound := bound, signed := [], full := [], open_ := none }))
    u s
def execConvDecl (k : BitVec 4) (a : BitVec 6) (s : State) : Host.Outcome State Fault Refusal := withBundle s (declare_ k a false)
def execConvXdecl (k : BitVec 4) (a : BitVec 6) (s : State) : Host.Outcome State Fault Refusal := withBundle s (declare_ k a true)
/-- The words `conv.rd` reads (R97). -/
def convWord (c : Conv) (sel : BitVec 1) : Word :=
  if sel = 0 then packWord [(c.count, 16), (c.first, 0)] else packWord [(bit c.bound, 31), (c.st, 16), (c.signed.length, 0)]
def execConvRd (d : BitVec 6) (k : BitVec 4) (sel : BitVec 1) (s : State) : Host.Outcome State Fault Refusal :=
  withBundle s (laneOp [] d 1 (fun s u _ => wide32 (convWord (convOf (sqAt s u.wg u.sq) k.toNat) sel)))

/-! Cluster barriers (R99, R100). -/

/-- The fault of an xb or xc instruction outside a cluster-aligned gang (R99). -/
def alignedFault (s : State) (u : Bundle) : Option FaultInfo :=
  if (wgAt s u.wg).aligned then none else some (faultInfo 0x1D 3)

/-- An arrival counts once the stores that entered the core's L1 before it are acknowledged (R81); until then d is busy. -/
def execXbarArrive (d : BitVec 6) (k : BitVec 4) (s : State) : Host.Outcome State Fault Refusal :=
  withBundle s (onceOp
    (fun s u g =>
      match alignedFault s u with
      | some i => some i
      | none =>
        let a : Arrival := { sq := u.sq, lb := u.e.lb, mask := g, place := u.e.place, before := s.ids, what := .xbar k.toNat d }
        if countable s u.wg a = g ∧ !updatesBefore s u.wg u.sq u.e.lb g
            ∧ (xbOf s (wgAt s u.wg).core k.toNat).2.getLsbD ((wgAt s u.wg).core % 4)
        then some (faultInfo 0x19 6) else none)
    (fun s u g =>
      let r := newId s
      let a : Arrival := { sq := u.sq, lb := u.e.lb, mask := g, place := u.e.place, before := r.1, what := .xbar k.toNat d }
      let s := modSq r.2 u.wg u.sq (fun sq => holdItem sq (itemV u.e.lb d.toNat) r.1)
      if countable s u.wg a = g ∧ !updatesBefore s u.wg u.sq u.e.lb g then applyUpdate s u.wg a g
      else modWg s u.wg (fun x => { x with arrivals := x.arrivals ++ [a] })))

/-- A wait that need not wait still acquires (R81). -/
def xbarWait (k : BitVec 4) (ph : State → Bundle → Nat → Bool) : Bundle → State → State :=
  waitOp alignedFault (fun s u l => (xbOf s (wgAt s u.wg).core k.toNat).1 == ph s u l) (fun s u l => .xbar k.toNat (ph s u l))
    (fun s u => l1Invalidate s (wgAt s u.wg).core)
def execXbarWaitImm (k : BitVec 4) (h : BitVec 1) (s : State) : Host.Outcome State Fault Refusal :=
  withBundle s (xbarWait k (fun _ _ _ => h == 1))
def execXbarWaitReg (k : BitVec 4) (a : BitVec 6) (s : State) : Host.Outcome State Fault Refusal :=
  withBundle s (xbarWait k (fun s u l => (w32 (readReg s u (own a 1) l)).getLsbD 0))

/-! Tickets (R101, R102). -/

/-- The checks of a lane's ticket access: an address with PA[51] = 1 is ticket fault subcode 3. -/
def ticketAccess (s : State) (w : Nat) (va : DWord) (k : Access) : State × Except (Nat × Nat) Nat :=
  match laneAccess s w va 4 4 k noOrder false false with
  | (s, .error e) => (s, .error e)
  | (s, .ok p) =>
    if p.acc.far then (s, .error (0x1B, 3))
    else
      match p.acc.loc with
      | .local a => if poisoned s a 4 then (s, .error (0x15, 0)) else (keyLine s (lineOf a) p.acc.attr.key, .ok a)
      | _ => (s, .error (0x1B, 3))

def execTktWait (a b : BitVec 6) (n : BitVec 2) (s : State) : Host.Outcome State Fault Refusal :=
  withBundle s (fun u s =>
    if misaligned a 2 then encodingFault s u (faultInfo 0x05 0)
    else
      let g := activeMask s u
      let o : Opnds := { a := some (own a 2), b := some ⟨b, n, 1⟩ }
      let st := stage s u o
      let r := eachLane s g (fun s l =>
        match ticketAccess s u.wg (w64 (st l).a) .load with
        | (s, .ok loc) => (s, .ok loc)
        | (s, .error e) => (s, .error (laneFault e (w64 (st l).a) (stagedWords o (st l) [2]))))
      let s := parkFailed r.1 u g st r.2.2
      let thr := fun l => w32 (st l).b
      let go := maskIn (r.2.1.filter (fun p => reached (memWord s p.2) (thr p.1)))
      let s := if go = 0 then s else l1Invalidate s (wgAt s u.wg).core
      let s := (holdPlaces s u (maskIn r.2.1 &&& ~~~go)).2
      let s := (r.2.1.filter (fun p => !inMask go p.1)).foldl (fun s p =>
        wait s u ((1#32) <<< p.1) (.ticket p.2 (thr p.1)) u.next) s
      awaitCheck s u go)

/-- The location of the launch's ticket word, if its record names one (R102). -/
def ticketLoc (s : State) (w : Nat) : Option Nat :=
  let t := recAddr (launchAt s (wgAt s w).launch).rec_ 10
  if t = 0 then none
  else
    match (access s (wgAt s w).core (wgAt s w).ctx false (BitVec.ofNat 64 t) .load).2 with
    | .ok a => match a.loc with
      | .local l => some l
      | _ => none
    | .error _ => none

/-- Adds 1 to a word of local memory as one atomic at its home slice. -/
def incrementWord (s : State) (a : Nat) : State :=
  performWrite s a ((recordedKey s (lineOf a)).getD 0) (leBytes 4 (memWord s a + 1).toNat)

/-- One lane's pass (R102): checked when the address is that of the launch's ticket word. -/
def passTicket (s : State) (w a : Nat) : State × Except (Nat × Nat) Unit :=
  let s := { s with cores := s.cores.map (fun c => if c.1 = (wgAt s w).core then (c.1, { c.2 with l1d := Map.del c.2.l1d (lineOf a) }) else c) }
  if ticketLoc s w = some a then
    if (wgAt s w).passed then (s, .error (0x1B, 2))
    else if memWord s a ≠ BitVec.ofNat 32 (wgAt s w).id then (s, .error (0x1B, 1))
    else (incrementWord (modWg s w (fun g => { g with passed := true, committed := true })) a, .ok ())
  else (incrementWord s a, .ok ())

/-- Issues once the squad's earlier stores are acknowledged, as `st.rel.dev` (R81). -/
def execTktPass (a : BitVec 6) (s : State) : Host.Outcome State Fault Refusal :=
  withBundle s (fun u s =>
    if misaligned a 2 then encodingFault s u (faultInfo 0x05 0)
    else
      let g := activeMask s u
      let st := stage s u { a := some (own a 2) }
      let r := eachLane s g (fun s l =>
        let bad := fun (e : Nat × Nat) => laneFault e (w64 (st l).a) []
        match ticketAccess s u.wg (w64 (st l).a) .atomic with
        | (s, .error e) => (s, .error (bad e))
        | (s, .ok loc) =>
          match passTicket s u.wg loc with
          | (s, .error e) => (s, .error (bad e))
          | (s, .ok _) => (s, .ok ()))
      let s := parkFailed r.1 u g st r.2.2
      awaitCheck s u (maskIn r.2.1))

/-! Launches and event waits (R104, R105). -/

def queueOf (s : State) (q : Nat) : Queue :=
  Map.getD s.queues q { base := 0, cfg := 0, tail := 0, head := 0, comp := 0, qseq := 0, last := none, irq := false }
/-- The slots of a queue (R378). -/
def queueSlots (q : Queue) : Nat := 2 ^ bitsOf q.cfg.toNat 19 16
/-- The bytes of a slot: 64, or 128 in a confidential queue (R106). -/
def slotBytes (q : Queue) : Nat := if q.cfg.getLsbD 30 then 128 else 64
def queueHolds (q : Queue) : Nat := (q.tail - q.head).toNat
/-- Whether a context may launch into a queue (R378). -/
def queueGranted (q : Queue) (ctx : Nat) : Bool := q.cfg.getLsbD 31 && q.cfg.getLsbD 29 && bitsOf q.cfg.toNat 15 0 == ctx

/-- Whether a queue has no room for a record of the device's own (R378): it is full, or the launch of its next slot has not written its completion record. -/
def queueFull (s : State) (q : Nat) : Bool :=
  let x := queueOf s q
  decide (queueSlots x ≤ queueHolds x)
    || s.launches.any (fun l => l.queue == q && l.slot == x.tail.toNat % queueSlots x && decide (3 ≤ l.stage) && decide (l.stage < 8))

/-- Copies a record into the queue's next slot (R105, R378). -/
def enqueue (s : State) (q : Nat) (ws : List Word) : State :=
  let x := queueOf s q
  let s := physWrite s (x.base + slotBytes x * (x.tail.toNat % queueSlots x)) (ws.flatMap bytesOfWord)
  { s with queues := Map.put s.queues q { x with tail := x.tail + 1 } }

/-- What `launch` writes to d: the signal event, or all ones (R105). -/
def signalOf (ws : List Word) : Word :=
  if (wordAt ws 9).getLsbD 28 then BitVec.ofNat 32 (recBits ws 9 27 16) else 0xFFFFFFFF

/-- Reads a record of 64 aligned bytes that a checked access named, as a core's coherent read of the home slice. -/
def recordWords (s : State) (core : Nat) (p : Passed) : List Word :=
  match p.acc.loc with
  | .local a =>
    let bs := freshView s core a 64
    (List.range 16).map (fun k => wordOfBytes (bs.getD (4 * k) 0) (bs.getD (4 * k + 1) 0) (bs.getD (4 * k + 2) 0) (bs.getD (4 * k + 3) 0))
  | _ => []

/-- Reads the 64-byte record of a lane (R105, R271): its checks, and its words. Those of a remote record are what the other device sends. -/
def readRecord (s : State) (w : Nat) (va : DWord) (mx : Bool) : State × Except (Nat × Nat) (List Word × Bool) :=
  match laneAccess s w va 64 64 .load detRemote true mx with
  | (s, .error e) => (s, .error e)
  | (s, .ok p) =>
    match p.acc.loc with
    | .local a => let s := keyLine s (lineOf a) p.acc.attr.key
                  (s, .ok (recordWords s (wgAt s w).core p, p.mix))
    | _ => ({ s with freeCtr := s.freeCtr + 1 }, .ok ((List.range 16).map (fun i => Config.freeWord s.freeCtr i), p.mix))

/-- Issues once the squad's earlier stores are acknowledged (R105 step 1). A full queue makes the thread wait with the record it took. -/
def execLaunch (d a : BitVec 6) (s : State) : Host.Outcome State Fault Refusal :=
  withBundle s (fun u s =>
    if misaligned a 2 then encodingFault s u (faultInfo 0x05 0)
    else
      let g := activeMask s u
      let st := stage s u { a := some (own a 2) }
      let r := eachLane s g (fun s l =>
        let bad := fun (e : Nat × Nat) => laneFault e (w64 (st l).a) []
        match readRecord s u.wg (w64 (st l).a) false with
        | (s, .error e) => (s, .error (bad e))
        | (s, .ok (ws, _)) =>
          let q := recBits ws 3 21 16
          if !queueGranted (queueOf s q) (sysCtx s u.wg) then (s, .error (bad (0x1D, 2)))
          else
            let s := commitWg s u.wg
            if queueFull s q then (s, .ok (some (q, ws)))
            else
              (modSq (enqueue s q ws) u.wg u.sq (fun sq => vset sq u.e.lb d.toNat ((1#32) <<< l) (fun _ => signalOf ws)), .ok none))
      let s := parkFailed r.1 u g st r.2.2
      let held := r.2.1.filterMap (fun p => p.2.map (fun x => (p.1, x)))
      let s := (holdPlaces s u (maskIn held)).2
      let s := held.foldl (fun s p => wait s u ((1#32) <<< p.1) (.slot p.2.1 d p.2.2) u.next) s
      awaitCheck s u (maskIn (r.2.1.filter (fun p => p.2.isNone))))

def execEvtWait (a : BitVec 6) (m : BitVec 2) (b : BitVec 6) (n : BitVec 2) (s : State) : Host.Outcome State Fault Refusal :=
  withBundle s (fun u s =>
    let g := activeMask s u
    let o : Opnds := { a := some ⟨a, m, 1⟩, b := some ⟨b, n, 1⟩ }
    let st := stage s u o
    let e := fun l => (w32 (st l).a).toNat
    let thr := fun l => w32 (st l).b
    let ctx := sysCtx s u.wg
    let bad := (lanesOf g).filter (fun l => decide (4096 ≤ e l))
    let good := maskOf (fun l => inMask g l && decide (e l < 4096))
    let s := parkFailed s u g st (bad.map (fun l => (l, { faultInfo 0x1D 1 with staged := some (stagedWords o (st l) [1, 2]) })))
    let go := maskOf (fun l => inMask good l && reached (eventValue s ctx (e l)) (thr l))
    let s := if go = 0 then s else l1Invalidate s (wgAt s u.wg).core
    let s := (holdPlaces s u (good &&& ~~~go)).2
    let s := (lanesOf (good &&& ~~~go)).foldl (fun s l => wait s u ((1#32) <<< l) (.event (e l) (thr l)) u.next) s
    awaitCheck s u go)

end Sys2Proof.Machine
end

