-- ==== Sys2Proof/Machine/Float.lean ====
section
/-! DEFINITION. Floating-point formats, exact values, the one rounding, conversions and the seven function operations (R139 to R145, R149,
R152 to R155, R164). -/

namespace Sys2Proof.Machine

/-! Formats (R139, R140, R142). -/

/-- How a format uses its all-ones exponent: infinities and NaNs, one NaN code, or finite values only. -/
inductive FmtKind where
  | ieee
  | oneNaN
  | finite
  deriving DecidableEq, Repr

/-- A floating-point format: exponent and mantissa bits, bias. -/
structure Fmt where
  eb : Nat
  mb : Nat
  bias : Nat
  kind : FmtKind
  deriving DecidableEq, Repr

def fp64 : Fmt := { eb := 11, mb := 52, bias := 1023, kind := .ieee }
def fp32 : Fmt := { eb := 8, mb := 23, bias := 127, kind := .ieee }
def fp16 : Fmt := { eb := 5, mb := 10, bias := 15, kind := .ieee }
def bf16 : Fmt := { eb := 8, mb := 7, bias := 127, kind := .ieee }
def e4m3 : Fmt := { eb := 4, mb := 3, bias := 7, kind := .oneNaN }
def e5m2 : Fmt := { eb := 5, mb := 2, bias := 15, kind := .ieee }
def e2m1 : Fmt := { eb := 2, mb := 1, bias := 1, kind := .finite }
def e3m4 : Fmt := { eb := 3, mb := 4, bias := 3, kind := .oneNaN }
def fp12 : Fmt := { eb := 5, mb := 6, bias := 15, kind := .ieee }

/-- The floating-point format of a code (R140). -/
def floatFmt (c : Nat) : Option Fmt :=
  match c with
  | 1 => some fp64
  | 2 => some fp32
  | 3 => some bf16
  | 4 => some fp16
  | 5 => some e4m3
  | 6 => some e5m2
  | 7 => some e2m1
  | 18 => some e3m4
  | 19 => some fp12
  | _ => none

/-- The integer format of a code: bits, and whether it is signed (R140). -/
def intFmt (c : Nat) : Option (Nat × Bool) :=
  match c with
  | 8 => some (32, true)
  | 9 => some (16, true)
  | 10 => some (8, true)
  | 11 => some (4, true)
  | 12 => some (8, false)
  | 13 => some (32, false)
  | _ => none

/-- The bits of an element of a format code (R140); 0 for a code that names none. -/
def codeBits (c : Nat) : Nat :=
  match c with
  | 1 => 64
  | 2 => 32
  | 3 => 16
  | 4 => 16
  | 5 => 8
  | 6 => 8
  | 7 => 4
  | 8 => 32
  | 9 => 16
  | 10 => 8
  | 11 => 4
  | 12 => 8
  | 13 => 32
  | 14 => 8
  | 15 => 16
  | 16 => 32
  | 17 => 64
  | 18 => 8
  | 19 => 12
  | _ => 0

def Fmt.signBit (f : Fmt) : Nat := f.eb + f.mb
def Fmt.signed (f : Fmt) (neg : Bool) (x : Nat) : Nat := if neg then 2 ^ f.signBit + x else x
/-- The largest finite code, without its sign. -/
def Fmt.maxCode (f : Fmt) : Nat :=
  match f.kind with
  | .ieee => (2 ^ f.eb - 1) * 2 ^ f.mb - 1
  | .oneNaN => 2 ^ f.signBit - 2
  | .finite => 2 ^ f.signBit - 1
def Fmt.infCode (f : Fmt) : Nat := (2 ^ f.eb - 1) * 2 ^ f.mb
/-- The canonical NaN (R142). -/
def Fmt.nanCode (f : Fmt) : Nat :=
  match f.kind with
  | .ieee => f.infCode + 2 ^ (f.mb - 1)
  | .oneNaN => 2 ^ f.signBit - 1
  | .finite => 0

/-- A floating-point operand: a NaN, perhaps signalling, an infinity, or ± m × 2^e. -/
inductive FVal where
  | nan (sig : Bool)
  | inf (neg : Bool)
  | num (neg : Bool) (m : Nat) (e : Int)
  deriving DecidableEq, Repr

/-- Reads a code (R139, R142); `flush` reads a subnormal as a zero of its sign (R144). -/
def Fmt.read (f : Fmt) (flush : Bool) (x : Nat) : FVal :=
  let neg := x / 2 ^ f.signBit % 2 == 1
  let e := x / 2 ^ f.mb % 2 ^ f.eb
  let m := x % 2 ^ f.mb
  let top := e == 2 ^ f.eb - 1
  if f.kind == .ieee && top then
    if m = 0 then .inf neg else .nan (decide (m < 2 ^ (f.mb - 1)) && decide (10 < f.signBit))
  else if f.kind == .oneNaN && top && m == 2 ^ f.mb - 1 then .nan false
  else if e = 0 then (if m = 0 ∨ flush then .num neg 0 0 else .num neg m (1 - f.bias - f.mb))
  else .num neg (2 ^ f.mb + m) (e - f.bias - f.mb)

def FVal.isNaN : FVal → Bool
  | .nan _ => true
  | _ => false
def FVal.signalling : FVal → Bool
  | .nan g => g
  | _ => false
def FVal.isZero : FVal → Bool
  | .num _ m _ => m == 0
  | _ => false
def FVal.isInf : FVal → Bool
  | .inf _ => true
  | _ => false
def FVal.isNeg : FVal → Bool
  | .nan _ => false
  | .inf n => n
  | .num n _ _ => n
def FVal.negate : FVal → FVal
  | .nan g => .nan g
  | .inf n => .inf (!n)
  | .num n m e => .num (!n) m e

/-- An exact result before its rounding: NaN, an infinity, or ± n/d. -/
inductive XVal where
  | nan
  | inf (neg : Bool)
  | num (neg : Bool) (n d : Nat)
  deriving DecidableEq, Repr

def FVal.exact : FVal → XVal
  | .nan _ => .nan
  | .inf n => .inf n
  | .num neg m e => if 0 ≤ e then .num neg (m * 2 ^ e.toNat) 1 else .num neg m (2 ^ (-e).toNat)

/-! Rounding (R143, R144, R145). -/

/-- n/d rounded to an integer in a mode of `XRM`, and whether it was inexact. -/
def roundDiv (mode : Nat) (neg : Bool) (n d : Nat) : Nat × Bool :=
  let k := n / d
  let r := n % d
  let up := match mode with
    | 0 => decide (d < 2 * r) || (2 * r == d && k % 2 == 1)
    | 1 => false
    | 2 => !neg && r != 0
    | _ => neg && r != 0
  (if up then k + 1 else k, r != 0)

/-- n/d in units of 2^q, rounded. -/
def roundAt (mode : Nat) (neg : Bool) (n d : Nat) (q : Int) : Nat × Bool :=
  if 0 ≤ q then roundDiv mode neg n (d * 2 ^ q.toNat) else roundDiv mode neg (n * 2 ^ (-q).toNat) d

/-- The exponent of the leading bit of n/d, for n not 0. -/
def leading (n d : Nat) : Int :=
  let e : Int := (Nat.log2 n : Int) - Nat.log2 d
  if n * 2 ^ (-e).toNat < d * 2 ^ e.toNat then e - 1 else e

/-- The code of r × 2^q, r having at most mb + 1 bits. -/
def Fmt.code (f : Fmt) (neg : Bool) (r : Nat) (q : Int) : Nat :=
  f.signed neg (if 2 ^ f.mb ≤ r then (q + f.mb + f.bias).toNat * 2 ^ f.mb + (r - 2 ^ f.mb) else r)

/-- The code of the largest finite magnitude's exponent of units, and its units. -/
def Fmt.maxUnits (f : Fmt) : Nat × Int :=
  match f.read false f.maxCode with
  | .num _ m e => (m, e)
  | _ => (0, 0)

/-- Rounds ± n/d to a format (R143) and delivers it (R144, R145): its code and flags. -/
def Fmt.round (f : Fmt) (mode : Nat) (sat flush : Bool) (neg : Bool) (n d : Nat) : Nat × Flags :=
  if n = 0 then (f.signed neg 0, {})
  else
    let q := leading n d - f.mb
    let r := roundAt mode neg n d q
    -- a carry out of the mantissa moves the units by one
    let v := if r.1 = 2 ^ (f.mb + 1) then (2 ^ f.mb, q + 1) else (r.1, q)
    let lim := f.maxUnits
    if lim.2 < v.2 ∨ (v.2 = lim.2 ∧ lim.1 < v.1) then
      let inf := match f.kind with
        | .ieee => !sat && (mode == 0 || (mode == 2 && !neg) || (mode == 3 && neg))
        | _ => false
      let code := if f.kind == .oneNaN && !sat then f.nanCode else f.signed neg (if inf then f.infCode else f.maxCode)
      (code, { ofl := true, inx := true })
    else if v.2 + f.mb < 1 - f.bias then
      if flush then (f.signed neg 0, { ufl := true, inx := true })
      else
        let t := roundAt mode neg n d (1 - f.bias - f.mb)
        (f.code neg t.1 (1 - f.bias - f.mb), { ufl := t.2, inx := t.2 })
    else (f.code neg v.1 v.2, { inx := r.2 })

/-- Delivers an exact result (R142 to R145). -/
def Fmt.deliver (f : Fmt) (mode : Nat) (sat flush : Bool) (x : XVal) : Nat × Flags :=
  match x with
  | .nan => (f.nanCode, { inv := f.kind == .finite })
  | .inf neg =>
    match f.kind with
    | .ieee => if sat then (f.signed neg f.maxCode, { inv := true }) else (f.signed neg f.infCode, {})
    | .oneNaN => (if sat then f.signed neg f.maxCode else f.nanCode, { inv := true })
    | .finite => (f.signed neg f.maxCode, { inv := true })
  | .num neg n d => f.round mode sat flush neg n d

/-- Delivers an exact result to an integer of `w` bits (R145). -/
def deliverInt (w : Nat) (sg : Bool) (mode : Nat) (x : XVal) : Nat × Flags :=
  let lo : Int := if sg then -(2 ^ (w - 1)) else 0
  let hi : Int := if sg then 2 ^ (w - 1) - 1 else 2 ^ w - 1
  let code := fun (i : Int) => (i % 2 ^ w).toNat
  match x with
  | .nan => (0, { inv := true })
  | .inf neg => (code (if neg then lo else hi), { inv := true })
  | .num neg n d =>
    let r := roundDiv mode neg n d
    let i : Int := if neg then -(r.1 : Int) else r.1
    if i < lo then (code lo, { inv := true }) else if hi < i then (code hi, { inv := true }) else (code i, { inx := r.2 })

/-! Arithmetic (R142, R143, R157). -/

/-- A sum of exact numbers; an exact zero is +0 unless both addends are -0. -/
def addNum (a b : Bool × Nat × Nat) : XVal :=
  let i := fun (x : Bool × Nat × Nat) (d : Nat) => ((if x.1 then -(x.2.1 * d : Nat) else (x.2.1 * d : Nat)) : Int)
  let t := i a b.2.2 + i b a.2.2
  if t = 0 then .num (a.1 && b.1 && a.2.1 == 0 && b.2.1 == 0) 0 1 else .num (decide (t < 0)) t.natAbs (a.2.2 * b.2.2)

/-- The sum of two exact values, and whether it is invalid (∞ - ∞). -/
def XVal.add (x y : XVal) : XVal × Bool :=
  match x, y with
  | .nan, _ => (.nan, false)
  | _, .nan => (.nan, false)
  | .inf a, .inf b => if a = b then (.inf a, false) else (.nan, true)
  | .inf a, _ => (.inf a, false)
  | _, .inf b => (.inf b, false)
  | .num a n d, .num b m e => (addNum (a, n, d) (b, m, e), false)

/-- The product, and whether it is invalid (0 × ∞). -/
def XVal.mul (x y : XVal) : XVal × Bool :=
  match x, y with
  | .nan, _ => (.nan, false)
  | _, .nan => (.nan, false)
  | .inf a, .inf b => (.inf (a != b), false)
  | .inf a, .num b m _ => if m = 0 then (.nan, true) else (.inf (a != b), false)
  | .num a n _, .inf b => if n = 0 then (.nan, true) else (.inf (a != b), false)
  | .num a n d, .num b m e => (.num (a != b) (n * m) (d * e), false)

/-- a + b, a × b and a × b + c with their invalid flags; 0 × ∞ + NaN is invalid (R157). -/
def fadd (x y : FVal) : XVal × Bool :=
  let r := x.exact.add y.exact
  (r.1, r.2 || x.signalling || y.signalling)
def fmul (x y : FVal) : XVal × Bool :=
  let r := x.exact.mul y.exact
  (r.1, r.2 || x.signalling || y.signalling)
def ffma (x y z : FVal) : XVal × Bool :=
  let p := x.exact.mul y.exact
  let r := if p.2 then (XVal.nan, false) else p.1.add z.exact
  (r.1, p.2 || r.2 || x.signalling || y.signalling || z.signalling)

/-- Delivers an arithmetic result with its invalid flag. -/
def Fmt.finish (f : Fmt) (mode : Nat) (flush : Bool) (r : XVal × Bool) : Nat × Flags :=
  let x := f.deliver mode false flush r.1
  (x.1, x.2.or { inv := r.2 })

/-- The order of two operands (R161): -0 equals +0. -/
def orderF (x y : FVal) : Order :=
  match x.exact, y.exact with
  | .nan, _ => .unordered
  | _, .nan => .unordered
  | .inf a, .inf b => if a = b then .eq else if a then .lt else .gt
  | .inf a, _ => if a then .lt else .gt
  | _, .inf b => if b then .gt else .lt
  | .num a n d, .num b m e =>
    let i := fun (g : Bool) (k : Nat) => (if g then -(k : Int) else (k : Int))
    orderInt (i a (n * e)) (i b (m * d))

/-- `fmin` and `fmax` (R159): the code of the result, and INV. -/
def minMax (f : Fmt) (flush isMax : Bool) (a b : Nat) : Nat × Flags :=
  let x := f.read flush a
  let y := f.read flush b
  let code := fun (v : FVal) (c : Nat) => match v with
    | .num neg 0 _ => f.signed neg 0
    | _ => c
  let fl : Flags := { inv := x.signalling || y.signalling }
  if x.isNaN && y.isNaN then (f.nanCode, fl)
  else if x.isNaN then (code y b, fl)
  else if y.isNaN then (code x a, fl)
  else
    -- -0 orders below +0
    let xFirst := match orderF x y with
      | .lt => true
      | .gt => false
      | _ => x.isNeg
    if xFirst = isMax then (code y b, fl) else (code x a, fl)

/-! Conversion (R144, R164). -/

/-- The exact value of a code of any format that holds values, and whether it is a signalling NaN. -/
def readCode (c : Nat) (flush : Bool) (x : Nat) : XVal × Bool :=
  match floatFmt c with
  | some f => let v := f.read (flush && (c == 2 || c == 3 || c == 4)) (x % 2 ^ codeBits c)
              (v.exact, v.signalling)
  | none =>
    match intFmt c with
    | some (w, sg) =>
      let v := x % 2 ^ w
      (if sg && decide (2 ^ (w - 1) ≤ v) then .num true (2 ^ w - v) 1 else .num false v 1, false)
    | none => (.num false x 1, false)

/-- Delivers an exact value to a code of any format that holds values. -/
def writeCode (c mode : Nat) (sat flush : Bool) (x : XVal) : Nat × Flags :=
  match floatFmt c with
  | some f => f.deliver mode sat (flush && (c == 2 || c == 3 || c == 4)) x
  | none =>
    match intFmt c with
    | some (w, sg) => deliverInt w sg mode x
    | none => (0, {})

/-- One conversion (R164). -/
def convert (fd fs mode : Nat) (sat flush : Bool) (x : Nat) : Nat × Flags :=
  let v := readCode fs flush x
  let r := writeCode fd mode sat flush v.1
  (r.1, r.2.or { inv := v.2 })

/-! Real functions in fixed point of `realBits` bits (R152, R153). -/

/-- The precision of the real functions. -/
def realBits : Nat := 400
def one_ : Nat := 2 ^ realBits
/-- π and ln 2 in units of 2^-400, rounded down. -/
def piFix : Nat :=
  8112377246730971238862271351300894519161151600179265203591191037615230905373990498745523360926816815427566779727327576236
def ln2Fix : Nat :=
  1789879222497203190815761498240779176894896805856420935579692301363062920687047601279850318367644315849030039181347319086

/-- The integer square root, by bits from bit `b` down. -/
def isqrtFrom (n : Nat) : Nat → Nat → Nat
  | 0, r => r
  | b + 1, r => isqrtFrom n b (if (r + 2 ^ b) * (r + 2 ^ b) ≤ n then r + 2 ^ b else r)
def isqrt (n : Nat) : Nat := isqrtFrom n (Nat.log2 n / 2 + 1) 0

/-- √(n/d) in units of 2^-400. -/
def sqrtFix (n d : Nat) : Nat := isqrt (n * 2 ^ (2 * realBits) / d)
/-- Product of fixed-point numbers. -/
def mulFix (x y : Nat) : Nat := x * y / one_

/-- Σ x^k / k! for k from `k` on, with the term of `k` given. -/
def expSeries (x : Nat) : Nat → Nat → Nat → Nat
  | 0, _, _ => 0
  | fuel + 1, k, t => t + expSeries x fuel (k + 1) (mulFix t x / (k + 1))
/-- 2^f for f in [0, 1) in units of 2^-400. -/
def exp2Fix (f : Nat) : Nat := expSeries (mulFix f ln2Fix) 100 0 one_

/-- The alternating series of sin, from the term of degree `k`. -/
def sinSeries (x2 : Nat) : Nat → Nat → Int → Int
  | 0, _, _ => 0
  | fuel + 1, k, t => t + sinSeries x2 fuel (k + 2) (-(t * x2 / one_) / ((k + 1) * (k + 2)))
/-- sin(π a) for a in [0, 1/2] in units of 2^-400. -/
def sinFix (a : Nat) : Nat :=
  let x := mulFix a piFix
  (sinSeries (mulFix x x) 60 1 x).toNat
/-- cos(π a) for a in [0, 1/2]. -/
def cosFix (a : Nat) : Nat := sinFix (one_ / 2 - a)

/-- The first `n` bits of log2 y for y in [1, 2) in units of 2^-400, by repeated squaring. -/
def log2Bits : Nat → Nat → Nat → Nat
  | 0, _, acc => acc
  | n + 1, y, acc =>
    let z := mulFix y y
    if 2 * one_ ≤ z then log2Bits n (z / 2) (2 * acc + 1) else log2Bits n z (2 * acc)
/-- log2 y in units of 2^-400, to 250 bits. -/
def log2Fix (y : Nat) : Nat := log2Bits 250 y 0 * 2 ^ (realBits - 250)

/-- The function operations (R162). -/
inductive FnOp where
  | rcp
  | rsq
  | sqrt
  | exp2
  | log2
  | sin
  | cos
  deriving DecidableEq, Repr

/-! Revisions 1 and 2 (R153, R154). -/

/-- A signed fixed-point value of `realBits` bits, rounded to the nearest multiple of 2^-n, in those units. -/
def nearFix (x : Int) (n : Nat) : Int :=
  let r := (roundDiv 0 false x.natAbs (2 ^ (realBits - n))).1
  if x < 0 then -r else r

/-- g(x0), g'(x0) and g''(x0)/2 for x0 = i / 2^k, in units of 2^-400. -/
def tableTerms (op : FnOp) (i k : Nat) : Int × Int × Int :=
  let n := 2 ^ k + i          -- 1 + x0 = n / 2^k
  let d := 2 ^ k
  let root := sqrtFix n d     -- √(1 + x0)
  let x0 := i * 2 ^ (realBits - k)
  match op with
  | .rcp => (one_ * d / n, -(one_ * d * d / (n * n) : Nat), (one_ * d ^ 3 / n ^ 3 : Nat))
  | .rsq => (one_ * one_ / root, -(one_ * one_ * d / (2 * root * n) : Nat), (3 * one_ * one_ * d * d / (8 * root * n * n) : Nat))
  | .sqrt => (root, (one_ * one_ / (2 * root) : Nat), -(one_ * one_ * d / (8 * root * n) : Nat))
  | .log2 => (log2Fix (one_ * n / d), (one_ * one_ * d / (n * ln2Fix) : Nat), -(one_ * one_ * d * d / (2 * ln2Fix * n * n) : Nat))
  | .exp2 =>
    let y := exp2Fix x0
    (y, mulFix y ln2Fix, (mulFix (mulFix y ln2Fix) ln2Fix / 2 : Nat))
  | _ =>
    let s := sinFix (x0 / 2)
    let c := cosFix (x0 / 2)
    (s, (mulFix c piFix / 2 : Nat), -(mulFix (mulFix s piFix) piFix / 8 : Nat))

/-- v / 2^m rounded toward zero. -/
def truncBits (v : Int) (m : Nat) : Int := if v < 0 then -((v.natAbs / 2 ^ m : Nat) : Int) else ((v.natAbs / 2 ^ m : Nat) : Int)

/-- `table_eval` (R153): u has 32 fraction bits, the result 30. -/
def tableEval (op : FnOp) (u k : Nat) : Int :=
  let i := u / 2 ^ (32 - k)
  let h : Int := (u % 2 ^ (32 - k) : Nat)
  let t := tableTerms op i k
  let c0 := nearFix t.1 30
  let c1 := nearFix t.2.1 24
  let c2 := nearFix t.2.2 16
  c0 + truncBits (c1 * h) 26 + truncBits (truncBits (c2 * h) 18 * h) 32

/-- ISQ and SQ (R154) in units of 2^-30. -/
def isqConst : Nat := (roundDiv 0 false (sqrtFix 1 2) (2 ^ (realBits - 30))).1
def sqConst : Nat := (roundDiv 0 false (sqrtFix 2 1) (2 ^ (realBits - 30))).1

/-- ± n × 2^e as an exact value. -/
def dyadic (neg : Bool) (n : Nat) (e : Int) : XVal :=
  if 0 ≤ e then .num neg (n * 2 ^ e.toNat) 1 else .num neg n (2 ^ (-e).toNat)

/-- The reduction of `fsin` and `fcos` (R154): a in [0, 1/2] as a numerator over the denominator, and whether the result is negated. -/
def reduceSin (cos : Bool) (neg : Bool) (m : Nat) (e : Int) : Nat × Nat × Bool :=
  let n := 2 * m * 2 ^ e.toNat
  let d := 2 * 2 ^ (-e).toNat
  let n := if cos then n + d / 2 else n
  let a := n % (2 * d)
  let ng := !cos && neg
  let r := if d ≤ a then (a - d, !ng) else (a, ng)
  (if d < 2 * r.1 then d - r.1 else r.1, d, r.2)

/-- x = (1 + u) × 2^e: u with 32 fraction bits, and e. -/
def normalise (m : Nat) (e : Int) : Nat × Int :=
  let k := Nat.log2 m
  (m * 2 ^ 32 / 2 ^ k - 2 ^ 32, e + k)

/-- floor(x) and the fraction in units of 2^-b, rounded down, for x = ± m × 2^e of magnitude at most 2^9. -/
def splitInt (neg : Bool) (m : Nat) (e : Int) (b : Nat) : Int × Nat :=
  let n : Int := if neg then -(m * 2 ^ e.toNat : Nat) else (m * 2 ^ e.toNat : Nat)
  let d : Int := 2 ^ (-e).toNat
  (n / d, ((n % d) * 2 ^ b / d).toNat)

/-- 2^x for large |x|: any value beyond the format on that side. -/
def exp2Far (neg : Bool) : XVal := if neg then .num false 1 (2 ^ 300) else .num false (2 ^ 300) 1

/-- The rebuilt value of a finite nonzero operand in revisions 1 and 2, before the final rounding (R154). -/
def tableValue (op : FnOp) (k : Nat) (neg : Bool) (m : Nat) (e : Int) : XVal :=
  match op with
  | .rcp => let r := normalise m e
            dyadic neg (tableEval op r.1 k).toNat (-r.2 - 30)
  | .rsq => let r := normalise m e
            let y := (tableEval op r.1 k).toNat
            if r.2 % 2 = 0 then dyadic false y (-(r.2 / 2) - 30) else dyadic false (y * isqConst / 2 ^ 30) (-((r.2 - 1) / 2) - 30)
  | .sqrt => let r := normalise m e
             let y := (tableEval op r.1 k).toNat
             if r.2 % 2 = 0 then dyadic false y (r.2 / 2 - 30) else dyadic false (y * sqConst / 2 ^ 30) ((r.2 - 1) / 2 - 30)
  | .log2 => let r := normalise m e
             let v : Int := r.2 * 2 ^ 30 + tableEval op r.1 k
             .num (decide (v < 0)) v.natAbs (2 ^ 30)
  | .exp2 =>
    if 9 ≤ leading (m * 2 ^ e.toNat) (2 ^ (-e).toNat) then exp2Far neg
    else
      let r := splitInt neg m e 32
      dyadic false (tableEval op r.2 k).toNat (r.1 - 30)
  | _ =>
    let r := reduceSin (op == .cos) neg m e
    let u := 2 * r.1 * 2 ^ 32 / r.2.1
    let y := if u = 2 ^ 32 then 2 ^ 30 else (tableEval .sin u k).toNat
    if y = 0 then .num (op == .sin && neg) 0 1 else .num r.2.2 y (2 ^ 30)

/-! Revision 3 (R152): exact values where they are rational, and values far closer than half a unit elsewhere. -/

/-- Whether a number is a square, with its root. -/
def squareRoot (n : Nat) : Option Nat := if isqrt n * isqrt n = n then some (isqrt n) else none

/-- The odd part of a number and the power of 2. -/
def oddPart (n : Nat) : Nat → Nat × Nat
  | 0 => (n, 0)
  | fuel + 1 => if n % 2 = 0 then let r := oddPart (n / 2) fuel; (r.1, r.2 + 1) else (n, 0)

/-- The exact function value, when it is rational (a dyadic operand gives no other rational values). -/
def exactFn (op : FnOp) (neg : Bool) (m : Nat) (e : Int) : Option XVal :=
  match op with
  | .rcp => some (if 0 ≤ e then .num neg 1 (m * 2 ^ e.toNat) else .num neg (2 ^ (-e).toNat) m)
  | .rsq =>
    let o := oddPart m 64
    let x := e + o.2
    if x % 2 = 0 then (squareRoot o.1).map (fun r => if 0 ≤ x then .num false 1 (r * 2 ^ (x / 2).toNat) else .num false (2 ^ (-x / 2).toNat) r)
    else none
  | .sqrt =>
    let o := oddPart m 64
    let x := e + o.2
    if x % 2 = 0 then (squareRoot o.1).map (fun r => dyadic false r (x / 2)) else none
  | .log2 =>
    let o := oddPart m 64
    if o.1 = 1 then some (.num (decide (e + o.2 < 0)) (e + o.2).natAbs 1) else none
  | .exp2 =>
    if 9 ≤ leading (m * 2 ^ e.toNat) (2 ^ (-e).toNat) then some (exp2Far neg)
    else
      let r := splitInt neg m e 1
      if m * 2 ^ e.toNat % 2 ^ (-e).toNat = 0 then some (dyadic false 1 r.1) else none
  | _ =>
    let r := reduceSin (op == .cos) neg m e
    if r.1 = 0 then some (.num (op == .sin && neg) 0 1)
    else if 2 * r.1 = r.2.1 then some (.num r.2.2 1 1)
    else none

/-- The value of an irrational result in units of 2^-401 with its last bit set. -/
def realFn (op : FnOp) (neg : Bool) (m : Nat) (e : Int) : XVal :=
  let sticky := fun (neg : Bool) (x : Nat) (q : Int) => dyadic neg (2 * x + 1) (q - realBits - 1)
  match op with
  | .sqrt => if e % 2 = 0 then sticky false (sqrtFix m 1) (e / 2) else sticky false (sqrtFix (2 * m) 1) ((e - 1) / 2)
  | .rsq => if e % 2 = 0 then sticky false (sqrtFix 1 m) (-(e / 2)) else sticky false (sqrtFix 1 (2 * m)) (-((e - 1) / 2))
  | .exp2 => let r := splitInt neg m e realBits
             sticky false (exp2Fix r.2) r.1
  | .log2 =>
    let k := Nat.log2 m
    let v : Int := 2 * ((e + k) * one_ + log2Fix (m * one_ / 2 ^ k)) + 1
    dyadic (decide (v < 0)) v.natAbs (-realBits - 1)
  | _ =>
    let r := reduceSin (op == .cos) neg m e
    sticky r.2.2 (sinFix (r.1 * one_ / r.2.1)) 0

/-- Special operands (R155): the result's code and flags, or nothing for the normal path. -/
def specialFn (op : FnOp) (x : FVal) : Option (Nat × Flags) :=
  let nan := fp32.nanCode
  let one := 0x3F800000
  let ninf := fp32.signed true fp32.infCode
  match x with
  | .nan g => some (nan, { inv := g })
  | .inf neg =>
    match op with
    | .rcp => some (fp32.signed neg 0, {})
    | .rsq => some (if neg then (nan, { inv := true }) else (0, {}))
    | .sqrt => some (if neg then (nan, { inv := true }) else (fp32.infCode, {}))
    | .log2 => some (if neg then (nan, { inv := true }) else (fp32.infCode, {}))
    | .exp2 => some (if neg then 0 else fp32.infCode, {})
    | _ => some (nan, { inv := true })
  | .num neg 0 _ =>
    match op with
    | .rcp => some (fp32.signed neg fp32.infCode, { dz := true })
    | .rsq => some (fp32.signed neg fp32.infCode, { dz := true })
    | .sqrt => some (fp32.signed neg 0, {})
    | .log2 => some (ninf, { dz := true })
    | .exp2 => some (one, {})
    | .sin => some (fp32.signed neg 0, {})
    | .cos => some (one, {})
  | .num true _ _ => if op = .rsq ∨ op = .sqrt ∨ op = .log2 then some (nan, { inv := true }) else none
  | _ => none

/-- Whether a code is exactly a value. -/
def codeIs (code : Nat) (x : XVal) : Bool :=
  match (fp32.read false code).exact, x with
  | .num a n d, .num b m e => n * e == m * d && (a == b || n == 0)
  | _, _ => false

/-- A function operation on an FP32 code in table revision `t` (R152 to R155). -/
def fnOp (op : FnOp) (t : Nat) (flush : Bool) (a : Nat) : Nat × Flags :=
  let x := fp32.read flush a
  match specialFn op x with
  | some r => r
  | none =>
    match x with
    | .num neg m e =>
      let ex := exactFn op neg m e
      let v := if t = 3 then ex.getD (realFn op neg m e) else tableValue op (if t = 1 then 8 else 10) neg m e
      let r := fp32.deliver 0 false flush v
      -- inexact when it differs from the exact function value, and then UFL when what is delivered is subnormal (R144)
      let inx := r.2.ofl || r.2.ufl || !(ex.any (codeIs r.1))
      let mag := r.1 % 2 ^ 31
      (r.1, { r.2 with inx := inx, ufl := r.2.ufl || (inx && mag != 0 && decide (mag < 2 ^ 23)) })
    | _ => (fp32.nanCode, {})

/-! Atomics (R201, R202). -/

/-- The operand width of an atomic's type code: 8 bytes or 4. -/
def atomBytes (ty : BitVec 5) : Nat := if ty = 17 ∨ ty = 1 then 8 else 4

/-- The new value of `atom` (R201); types 8 and 17 are signed. -/
def atomApply (flush : Bool) (op : BitVec 3) (ty : BitVec 5) (old x : DWord) : DWord :=
  let w := 8 * atomBytes ty
  let cut := fun (y : DWord) => y.toNat % 2 ^ w
  let asInt := fun (y : DWord) => if ty = 13 then (cut y : Int) else if 2 ^ (w - 1) ≤ cut y then (cut y : Int) - 2 ^ w else cut y
  match op.toNat with
  | 0 => BitVec.ofNat 64 ((old.toNat + x.toNat) % 2 ^ w)
  | 1 =>
    let f := if ty = 1 then fp64 else fp32
    let fl := flush && ty != 1
    BitVec.ofNat 64 (f.finish 0 fl (fadd (f.read fl (cut old)) (f.read fl (cut x)))).1
  | 2 => BitVec.ofNat 64 (if asInt old ≤ asInt x then cut old else cut x)
  | 3 => BitVec.ofNat 64 (if asInt old ≤ asInt x then cut x else cut old)
  | 4 => BitVec.ofNat 64 (cut (old &&& x))
  | 5 => BitVec.ofNat 64 (cut (old ||| x))
  | 6 => BitVec.ofNat 64 (cut (old ^^^ x))
  | _ => BitVec.ofNat 64 (cut x)

end Sys2Proof.Machine
end

