-- ==== Sys2Proof/Machine/Engine.lean ====
section
/-! DEFINITION. What the transfer unit, the copy engine and the receive and collective engines share: engine addresses and their checks,
layout records, elements, reading and writing data, and publication (R261, R262, R264, R267 to R271, R274 to R277, R280). -/

namespace Sys2Proof.Machine

/-! Engine addresses (R261, R262, R276). -/

/-- The engines, by what they may touch (R180, R261). -/
inductive Eng where
  | transfer
  | copy
  | fabric
  deriving DecidableEq, Repr

/-- Whether an engine may read or write a space (R261). -/
def Eng.may (e : Eng) (wr : Bool) (spc : Nat) : Bool :=
  match e with
  | .transfer => if wr then spc == 1 || spc == 2 || spc == 4 else spc == 4
  | .copy => !wr || spc != 3
  | .fabric => false

/-- An engine's access to global memory: its checks in the order of R264 (translation, permission, buffer map entry, bounds), and the
page's contract stamp. The physical addresses of firmware have no leaf. R264 lists no check of an ordered-update page: an engine's read of one of another
device passes (DESIGN CHOICE, log entry 35). -/
def engineGlobal (s : State) (w : Nat) (va : BitVec 64) (wr : Bool) : State × Except (Nat × Nat) (XAddr × Nat) :=
  let g := wgAt s w
  if bitsOf va.toNat 63 52 ≠ 0 then (s, .error (0x10, 3))
  else if g.level = 2 then
    if wr then (s, .error (0x1C, 1))
    else match physLoc va.toNat with
      | some (.local a) => (s, .ok (.phys a physAttr, 0))
      | some (.remote d a) => (s, .ok (.remote d a, 0))
      | _ => (s, .error (0x11, 4))
  else
    match translate s g.core g.ctx va.toNat with
    | (s, .error e) => (s, .error e)
    | (s, .ok (level, leaf)) =>
      let off := va.toNat % 2 ^ pageBits level
      let attr : PageAttr :=
        { key := bitsOf leaf.toNat 45 40, l2c := bitsOf leaf.toNat 48 47, l1 := false, det := leaf.getLsbD 54, bmt := none }
      let cst := bitsOf leaf.toNat 58 55
      match permitted (if wr then .engineWrite else .engineRead) leaf with
      | .error sub => (s, .error (0x11, sub))
      | .ok () =>
        if leaf.getLsbD 46 then
          let n := bitsOf leaf.toNat 11 0
          let ws := bmtView s g.core g.ctx n
          if !bmtValid ws then (s, .error (0x1C, 2))
          else if bmtSize ws ≤ bmtOffset ws va.toNat then (s, .error (0x1C, 3))
          else (s, .ok (.bmt (g.ctx * 4096 + n) (bmtOffset ws va.toNat) attr, cst))
        else if wr then (s, .error (0x1C, 1))
        else
          let pa := if leaf.getLsbD 53 then 2 ^ 40 + bitsOf leaf.toNat 52 49 * 2 ^ 36 + (bitsOf leaf.toNat 19 0 * 65536 + off)
            else bitsOf leaf.toNat 35 0 * 65536 + off
          match physLoc pa with
          | some (.local a) => (s, .ok (.phys a attr, cst))
          | some (.remote d a) => (s, .ok (.remote d a, cst))
          | _ => (s, .error (0x11, 4))

/-- An engine's access of `n` bytes at an engine address, for a workgroup (R261): where it goes, and the page's contract stamp. -/
def touch (s : State) (w : Nat) (e : Eng) (ea : BitVec 64) (n : Nat) (wr : Bool) : State × Except (Nat × Nat) (XAddr × Nat) :=
  let x := ea.toNat
  let spc := bitsOf x 63 60
  if spc = 0 then engineGlobal s w ea wr
  else if 4 < spc ∨ bitsOf x 59 20 ≠ 0 then (s, .error (0x10, 3))
  else if !e.may wr spc then (s, .error (0x13, 2))
  else if allocOf s w spc < bitsOf x 19 0 + n then (s, .error (0x13, 1))
  else (s, .ok (.buf spc (bitsOf x 19 0), 0))

/-- The place of a fault in the order of R264: alignment, translation and space, permission, buffer map entry, bounds, contract mix; the
faults of reading records come before. -/
def faultStage (c : Nat × Nat) : Nat :=
  match c.1 with
  | 0x12 => 1
  | 0x10 => 2
  | 0x11 => 3
  | 0x13 => if c.2 = 2 then 2 else 5
  | 0x1C => if c.2 = 3 then 5 else 4
  | 0x0B => 6
  | _ => 0

/-- A fault with its engine address. -/
abbrev EngFault := (Nat × Nat) × BitVec 64

/-- The first failing check among the faults found (R264): the lowest stage, the earliest of that stage. -/
def firstFault (fs : List EngFault) : Option EngFault := firstBy (fun f => [faultStage f.1]) fs

/-- The first contract stamp that is a mix under a contract (R194). -/
def firstMix (nc : Nat) (l : List (Nat × BitVec 64)) : Option (BitVec 64) :=
  (l.find? (fun x => x.1 != 0 && x.1 != nc)).map (fun x => x.2)

/-! Data (R266, R276, R280). -/

/-- The location of offset `off` in entry `n` (context × 4096 + number) for a read or a write, as a core's view of the entry stands (R276). -/
def entryLoc (s : State) (core n off : Nat) (wr : Bool) : Option Nat :=
  let ws := bmtView s core (n / 4096) (n % 4096)
  let k := if bmtDual ws then (if wr then 1 - bmtFront ws else bmtFront ws) else 0
  match physLoc (bmtBacking ws k + off) with
  | some (.local a) => if bmtValid ws ∧ off < bmtSize ws then some a else none
  | _ => none

/-- Whether a piece's source is poisoned. -/
def sourcePoisoned (s : State) (w core : Nat) (p : Piece) : Bool :=
  let n := max 1 p.n
  match p.src with
  | .phys a _ => poisoned s a n
  | .bmt m off _ => (entryLoc s core m off false).any (fun a => poisoned s a n)
  | .buf spc off => bufPoisoned (wgAt s w) spc off n
  | _ => false

/-- The bytes that an engine reads at a location: unspecified ones at the back of a DUAL entry that it reaches through another mapping (R276). -/
def engineBytes (s : State) (core a n key : Nat) (bmt : Option BmtRef) : State × List Byte :=
  let s := keyLine s (lineOf a) key
  if readsBack s core a n bmt then
    let d := draw s
    (d.2, freeBytes d.1 n)
  else (s, Memory.readAll s.mem a n)

/-- The bytes at a source; those of another device's memory are what it answers. The spec has no rule for an engine's read of another device's memory that fails or
meets poison: in the model it brings free bytes and never fails (DESIGN CHOICE, log entry 35). -/
def readSource (s : State) (w core : Nat) (x : XAddr) (n : Nat) : State × List Byte :=
  match x with
  | .pad v => (s, leBytes n v.toNat)
  | .data v => (s, leBytes n v.toNat)
  | .phys a attr => engineBytes s core a n attr.key none
  | .bmt m off attr =>
    match entryLoc s core m off false with
    | some a => engineBytes s core a n attr.key (some { ctx := m / 4096, entry := m % 4096, dual := bmtDual (bmtView s core (m / 4096) (m % 4096)), off := off })
    | none => let d := draw s
              (d.2, freeBytes d.1 n)
  | .remote _ _ => let d := draw s
                   (d.2, freeBytes d.1 n)
  | .buf spc off => bufBytes s w spc off n

/-- Writes bytes at a destination. An entry that no longer reaches memory takes nothing. -/
def writeDest (s : State) (w core : Nat) (x : XAddr) (bs : List Byte) : State :=
  match x with
  | .bmt m off attr =>
    match entryLoc s core m off true with
    | some a =>
      -- the data of a MONO entry is unpublished until its publish (R226)
      let s := if bmtDual (bmtView s core (m / 4096) (m % 4096)) then s else noteOld (keyLine s (lineOf a) attr.key) m a bs.length
      performWrite s a attr.key bs
    | none => s
  | .phys a attr => performWrite s a attr.key bs
  | .buf spc off => modWg s w (fun g => bufWrite g spc off bs)
  | _ => s

/-- Whether an engine may write a destination now: every core has applied the changes made to its buffer map entry, so that none reads as the front what the
engine takes for the back (R226, R227). -/
def destSettled (s : State) (x : XAddr) : Bool :=
  match x with
  | .bmt m _ _ => !s.pubs.any (fun p => p.2.ctx * 4096 + p.2.entry == m)
  | _ => true

/-- Whether an engine may read a source now: a remap under way does not hold its plane (R299). What is read inside an instruction's issue (records, index
elements, instructions) is not held (log entry 35). -/
def sourceOpen (s : State) (x : XAddr) : Bool :=
  match x with
  | .remote _ a => !heldAtSource s a
  | _ => true

/-- Whether a piece may be moved now. -/
def Piece.mayMove (s : State) (p : Piece) : Bool := sourceOpen s p.src && destSettled s p.dst

/-- The bytes at a destination as they stand, for a write of half a byte. -/
def readDest (s : State) (w core : Nat) (x : XAddr) : Byte :=
  match x with
  | .bmt m off _ => ((entryLoc s core m off true).map (fun a => Memory.read s.mem a)).getD 0
  | .phys a _ => Memory.read s.mem a
  | .buf spc off => bufByte (wgAt s w) spc off
  | _ => 0

/-- Moves one piece. A pad value of 4 bits stands in its low bits. -/
def movePiece (s : State) (w core : Nat) (p : Piece) : State :=
  match p.half with
  | none => let r := readSource s w core p.src p.n
            writeDest r.1 w core p.dst r.2
  | some (hs, hd) =>
    let r := readSource s w core p.src 1
    let x := (r.2.headD 0).toNat
    let nib := if hs then x / 16 else x % 16
    let old := (readDest r.1 w core p.dst).toNat
    writeDest r.1 w core p.dst [BitVec.ofNat 8 (if hd then old % 16 + 16 * nib else old / 16 * 16 + nib)]

/-- The line that a piece writes: its space or entry, and the 128-byte line in it. -/
def destLine (p : Piece) : Nat × Nat :=
  match p.dst with
  | .bmt m off _ => (8 + m, off / 128)
  | .phys a _ => (7, lineOf a)
  | .buf spc off => (spc, off / 128)
  | _ => (0, 0)

/-- The bytes a piece writes, by offset in its space. -/
def destBytes (s : State) (core : Nat) (p : Piece) : List Nat :=
  let n := max 1 p.n
  match p.dst with
  | .bmt m off _ => ((entryLoc s core m off true).map (fun a => (List.range n).map (fun i => a + i))).getD []
  | .phys a _ => (List.range n).map (fun i => a + i)
  | .buf spc off => (List.range n).map (fun i => spc * 2 ^ 20 + off + i)
  | _ => []

/-- The half bytes a piece writes. -/
def destHalves (s : State) (core : Nat) (p : Piece) : List Nat :=
  (destBytes s core p).flatMap (fun b => match p.half with
    | some h => [2 * b + bit h.2]
    | none => [2 * b, 2 * b + 1])

/-- The place `i` bytes further on. -/
def XAddr.shift (x : XAddr) (i : Nat) : XAddr :=
  match x with
  | .pad v => .pad (v >>> (8 * i))
  | .data v => .data (v >>> (8 * i))
  | .phys a attr => .phys (a + i) attr
  | .bmt n off attr => .bmt n (off + i) attr
  | .remote d a => .remote d (a + i)
  | .buf spc off => .buf spc (off + i)

/-- Whether a piece writes a typed buffer. -/
def Piece.toBuf (p : Piece) : Bool :=
  match p.dst with
  | .buf _ _ => true
  | _ => false

/-- Writes the pieces of one line request, in order; a line or unit that they cover whole is no longer poisoned (R186). Nothing when a
source is poisoned. -/
def moveLine (s : State) (w core : Nat) (ps : List Piece) : Option State :=
  if ps.any (sourcePoisoned s w core) then none
  else
    let s := ps.foldl (fun s p => movePiece s w core p) s
    let whole := fun (buf : Bool) (size : Nat) (u : Nat) =>
      let bs := (ps.filter (fun p => p.toBuf == buf && p.half.isNone)).flatMap (destBytes s core)
      (List.range size).all (fun i => bs.contains (u * size + i))
    let touched := fun (buf : Bool) (size : Nat) => (((ps.filter (fun p => p.toBuf == buf)).flatMap (destBytes s core)).map (· / size)).dedup
    let lines := (touched false 128).filter (fun l => s.poison.contains l && whole false 128 l)
    let units := (touched true 32).filter (fun u => (wgAt s w).poison.contains u && whole true 32 u)
    let s := { s with poison := s.poison.filter (fun l => !lines.contains l) }
    some (modWg s w (fun g => { g with poison := g.poison.filter (fun u => !units.contains u) }))

/-- The 32-byte units of typed buffers that a piece writes. -/
def destUnits (p : Piece) : List Nat :=
  match p.dst with
  | .buf spc off => (List.range ((off % 32 + max 1 p.n + 31) / 32)).map (fun i => (spc * 2 ^ 20 + off) / 32 + i)
  | _ => []

/-- Marks 32-byte units as poisoned, and those that pieces would write (R280). -/
def poisonUnits (s : State) (w : Nat) (us : List Nat) : State := modWg s w (fun g => { g with poison := (g.poison ++ us).dedup })
def poisonDest (s : State) (w : Nat) (ps : List Piece) : State := poisonUnits s w (ps.flatMap destUnits)

/-! Layout records (R267 to R271). -/

/-- A layout record, with the index record of a COMPOSED one. -/
structure Lay where
  ws : List Word
  idx : Option (List Word)
  deriving DecidableEq, Repr

def layKind (ws : List Word) : Nat := recBits ws 0 3 0
def layRank (ws : List Word) : Nat := recBits ws 0 7 4
def layFmt (ws : List Word) : Nat := recBits ws 0 12 8
def laySpc (ws : List Word) : Nat := recBits ws 0 15 13
def layPad (ws : List Word) : Nat := recBits ws 0 31 16
def layBase (ws : List Word) : Nat := (wordAt ws 1).toNat + 2 ^ 32 * recBits ws 2 15 0
def layDim (ws : List Word) (k : Nat) : Nat := (wordAt ws (3 + k)).toNat
def layStride (ws : List Word) (k : Nat) : Nat := if k = 0 then 0 else (wordAt ws (7 + k)).toNat
/-- The box extent of a dimension; that of dimension 4 is always 1. -/
def layBox (ws : List Word) (k : Nat) : Nat :=
  match k with
  | 0 => recBits ws 12 15 0
  | 1 => recBits ws 12 31 16
  | 2 => recBits ws 13 15 0
  | 3 => recBits ws 13 31 16
  | _ => 1
def layLink (ws : List Word) : Nat := recAddr ws 14
/-- Bits and whole bytes of an element. -/
def layBits (ws : List Word) : Nat := codeBits (layFmt ws)
def layBytes (ws : List Word) : Nat := max 1 (layBits ws / 8)

/-- The box of a record, dimension 0 first. -/
def boxOf (ws : List Word) : List Nat := (List.range (layRank ws)).map (layBox ws)

/-- What the users of records accept: kinds, highest rank, the most bytes of a box, and whether the space must be global. -/
structure LayUser where
  kinds : List Nat
  rank : Nat
  boxBytes : Option Nat
  global : Bool
  deriving DecidableEq, Repr

def tcpUser : LayUser := { kinds := [0, 1], rank := 4, boxBytes := some 65536, global := false }
def ceUser : LayUser := { kinds := [0, 1], rank := 5, boxBytes := none, global := false }
def messageUser : LayUser := { kinds := [0, 1, 2], rank := 5, boxBytes := none, global := true }
/-- A space other than 0 is a fault of the shape record (R318). -/
def collUser : LayUser := { kinds := [0, 1], rank := 5, boxBytes := none, global := false }

/-- The conditions that every record meets (R271), for a record of `kind`; `isIdx` says that it is a COMPOSED record's index record. -/
def layBadBase (narrow : Bool) (isIdx : Bool) (ws : List Word) : Bool :=
  let kind := layKind ws
  let rank := layRank ws
  let fmt := layFmt ws
  let e := layBytes ws
  let dims := List.range 5
  decide (2 < kind) || rank == 0 || decide (5 < rank) || (kind == 2 && rank != 2) || fmt == 0 || decide (18 ≤ fmt)
    || (narrow && (fmt == 5 || fmt == 6 || fmt == 7 || fmt == 11)) || decide (4 < laySpc ws) || (kind == 2 && laySpc ws != 0)
    || (!isIdx && (List.range 4).any (fun k => if k < rank then layBox ws k == 0 else layBox ws k != 0))
    || dims.any (fun k => if k < rank then layDim ws k == 0 && !(kind == 2 && k == 0) else layDim ws k != 0)
    || dims.any (fun k => decide (rank ≤ k) && layStride ws k != 0)
    || (kind == 2 && layDim ws 0 != 0)
    || layBase ws % e != 0 || dims.any (fun k => layStride ws k % e != 0) || (layBits ws == 4 && layBox ws 0 % 2 == 1)
    || recBits ws 2 31 16 != 0 || recBits ws 15 31 20 != 0 || (kind == 0 && layLink ws != 0)

/-- The conditions of a COMPOSED record's index record (R269, R271). -/
def idxBad (ws : List Word) : Bool :=
  layBadBase false true ws || layKind ws != 0 || layRank ws != 1 || !(layFmt ws == 8 || layFmt ws == 13) || laySpc ws != 0
    || (List.range 4).any (fun k => wordAt ws (12 + k) != 0)

/-- Whether a user refuses a record (R271). -/
def layBad (u : LayUser) (narrow : Bool) (l : Lay) : Bool :=
  let ws := l.ws
  !u.kinds.contains (layKind ws) || decide (u.rank < layRank ws) || layBadBase narrow false ws || (u.global && laySpc ws != 0)
    || l.idx.any idxBad
    || u.boxBytes.any (fun m => decide (8 * m < (boxOf ws).foldl (fun n b => n * b) 1 * layBits ws))

/-- Whether the narrow formats are absent from records (R271). -/
def narrowLay (s : State) (w : Nat) : Bool := contractOf s w == 1 || versionOf s w == 5

/-- The pad value of an element (R268). -/
def padValue (ws : List Word) : DWord :=
  BitVec.ofNat 64 (match layBits ws with
    | 64 => layPad ws * 2 ^ 48
    | 32 => layPad ws * 2 ^ 16
    | n => layPad ws % 2 ^ n)

/-- Where an access that an engine makes to read words may go: its data, and its contract stamps. -/
def readWords (s : State) (w : Nat) (e : Eng) (ea : BitVec 64) (n : Nat) : State × Except EngFault (List Word × (Nat × BitVec 64)) :=
  match touch s w e ea (4 * n) false with
  | (s, .error f) => (s, .error (f, ea))
  | (s, .ok (x, cst)) =>
    let core := (wgAt s w).core
    if sourcePoisoned s w core { lane := 0, ea := ea, src := x, dst := x, n := 4 * n, half := none } then (s, .error ((0x15, 0), ea))
    else
      let r := readSource s w core x (4 * n)
      (r.1, .ok ((List.range n).map (fun k =>
        wordOfBytes (r.2.getD (4 * k) 0) (r.2.getD (4 * k + 1) 0) (r.2.getD (4 * k + 2) 0) (r.2.getD (4 * k + 3) 0)), (cst, ea)))

/-- Reads a record of 64 bytes. -/
def readRec (s : State) (w : Nat) (e : Eng) (ea : BitVec 64) : State × Except EngFault (List Word × (Nat × BitVec 64)) :=
  if ea.toNat % 64 ≠ 0 then (s, .error ((0x12, 0), ea)) else readWords s w e ea 16

/-- Reads a layout record, and the index record of a COMPOSED one (R269), with the contract stamps of their pages. -/
def readLay (s : State) (w : Nat) (e : Eng) (ea : BitVec 64) : State × Except EngFault (Lay × List (Nat × BitVec 64)) :=
  match readRec s w e ea with
  | (s, .error f) => (s, .error f)
  | (s, .ok (ws, c)) =>
    if layKind ws = 1 then
      match readRec s w e (BitVec.ofNat 64 (layLink ws)) with
      | (s, .error f) => (s, .error f)
      | (s, .ok (xs, d)) => (s, .ok ({ ws := ws, idx := some xs }, [c, d]))
    else (s, .ok ({ ws := ws, idx := none }, [c]))

/-! Elements (R268 to R270, R274). -/

/-- Where an element lies: nothing when it does not exist, else its engine address and whether it is a high nibble. -/
abbrev ElemAt := Option (BitVec 64 × Bool)

/-- An element's byte address as an engine address; one above 52 bits is no address. -/
def elemAddr (ws : List Word) (coords : List Nat) : BitVec 64 × Bool :=
  let bits := coords.headD 0 * layBits ws
  let a := layBase ws + bits / 8 + (coords.zipIdx.drop 1).foldl (fun n c => n + c.1 * layStride ws c.2) 0
  -- bits 59 to 52 set make the access a translation fault (R261)
  (BitVec.ofNat 64 (laySpc ws * 2 ^ 60 + (if a < 2 ^ 52 then a else 2 ^ 52 + a % 2 ^ 52)), bits % 8 != 0)

/-- Locates an element by view coordinates (R268, R269); a COMPOSED record's index element is read with the checks of data. Of a COMPOSED record of rank 1,
which has no dimension 1, the view reads index element 0 (DESIGN CHOICE, log entry 80). -/
def locate (s : State) (w : Nat) (e : Eng) (l : Lay) (coords : List Nat) : State × Except EngFault (ElemAt × List (Nat × BitVec 64)) :=
  let exist := fun (cs : List Nat) => cs.zipIdx.all (fun c => decide (c.1 < layDim l.ws c.2))
  match l.idx with
  | none => (s, .ok (if exist coords then some (elemAddr l.ws coords) else none, []))
  | some xs =>
    let x1 := coords.getD 1 0
    if layDim xs 0 ≤ x1 then (s, .ok (none, []))
    else
      match readWords s w e (elemAddr xs [x1]).1 1 with
      | (s, .error f) => (s, .error f)
      | (s, .ok (v, c)) =>
        let i : Int := if layFmt xs = 8 then (v.headD 0).toInt else (v.headD 0).toNat
        let cs := coords.set 1 i.toNat
        (s, .ok (if 0 ≤ i ∧ exist cs then some (elemAddr l.ws cs) else none, [c]))

/-- The positions of a box, dimension 0 fastest (R274). -/
def positions : List Nat → List (List Nat)
  | [] => [[]]
  | b :: bs => (positions bs).flatMap (fun t => (List.range b).map (fun x => x :: t))

/-- One position of a tile copy: its piece, if its destination exists; the faults met; the contract stamps of the pages touched. -/
structure ElemMove where
  piece : Option Piece
  faults : List EngFault
  stamps : List (Nat × BitVec 64)
  deriving DecidableEq, Repr

/-- Checks one side of a position: where the element lies, if it exists. -/
def elemSide (s : State) (w : Nat) (e : Eng) (l : Lay) (coords : List Nat) (wr : Bool) :
    State × Option (XAddr × Bool × BitVec 64) × List EngFault × List (Nat × BitVec 64) :=
  match locate s w e l coords with
  | (s, .error f) => (s, none, [f], [])
  | (s, .ok (none, cs)) => (s, none, [], cs)
  | (s, .ok (some (ea, hi), cs)) =>
    match touch s w e ea (layBytes l.ws) wr with
    | (s, .error f) => (s, none, [(f, ea)], cs)
    | (s, .ok (x, c)) => (s, some (x, hi, ea), [], cs ++ [(c, ea)])

/-- Checks one position of a tile copy from `src` to `dst` (R274). -/
def elemMove (s : State) (w : Nat) (e : Eng) (lane : Nat) (src dst : Lay) (co do_ : List Nat) : State × ElemMove :=
  let a := elemSide s w e src co false
  let b := elemSide a.1 w e dst do_ true
  let piece := match b.2.1 with
    | none => none
    | some (xd, hd, _) =>
      let from_ := match a.2.1 with
        | some (xs, hs, ea) => (xs, hs, ea)
        | none => (.pad (padValue src.ws), false, 0)
      some { lane := lane, ea := from_.2.2, src := from_.1, dst := xd, n := layBytes src.ws
             half := if layBits src.ws = 4 then some (from_.2.1, hd) else none : Piece }
  (b.1, { piece := piece, faults := a.2.2.1 ++ b.2.2.1, stamps := a.2.2.2 ++ b.2.2.2 })

/-- Adds box positions to an origin. -/
def addCoords (o x : List Nat) : List Nat := x.zipIdx.map (fun p => p.1 + o.getD p.2 0)

/-! Publication (R277). -/

/-- The cores that hold a view of buffer map entries: those with a workgroup placed, and those that have held one. -/
def viewCores (s : State) : List Nat :=
  (s.cores.map (fun c => c.1) ++ (s.wgs.filter (fun g => g.status == 0)).map (fun g => g.core)).dedup

/-- Changes an entry at the device's table, and sends the change to every core in publish order: the number of the publish. A core that
has not applied it keeps the words it had. -/
def sendEntry (s : State) (ctx n : Nat) (ws : List Word) (drop : Bool) : Nat × State :=
  let cores := viewCores s
  let s := cores.foldl (fun s c => modCore s c (fun o =>
    if (Map.find o.view (ctx * 4096 + n)).isSome then o else { o with view := Map.put o.view (ctx * 4096 + n) (bmtEntry s ctx n) })) s
  let s := bmtWrite s ctx n ws
  let id := newId s
  (id.1, { id.2 with pubs := if cores.isEmpty then id.2.pubs
                             else Map.put id.2.pubs id.1 { ctx := ctx, entry := n, words := ws, drop := drop, waiting := cores } })

/-- An entry's words after a publish (R277). -/
def publishedWords (ws : List Word) : List Word :=
  let gen := BitVec.ofNat 16 (bmtGen ws + 1)
  let w0 := wordAt ws 0
  let w0 := (w0 &&& 0xFFFF0000) ||| gen.zeroExtend 32
  (if bmtDual ws then w0 ^^^ 0x20000000 else w0) :: ws.drop 1

/-- Performs the publish of an entry (R277): nothing when it is not valid. -/
def performPublish (s : State) (ctx n : Nat) : Option (Nat × State) :=
  let ws := bmtEntry s ctx n
  if bmtValid ws then
    let new := publishedWords ws
    some (sendEntry { s with unpub := s.unpub.filter (fun x => x.2.1 != ctx * 4096 + n) } ctx n new (bmtGen new == 0))
  else none

/-- One core applies a publish: its view changes, and lines of the entry are dropped when it says so. -/
def applyPublish (s : State) (id core : Nat) : State :=
  match Map.find s.pubs id with
  | none => s
  | some p =>
    let key := p.ctx * 4096 + p.entry
    -- a later change of the entry that the core has still to apply keeps the view apart from the device's
    let later := s.pubs.any (fun q => decide (id < q.1) && q.2.ctx == p.ctx && q.2.entry == p.entry && q.2.waiting.contains core)
    let s := modCore s core (fun o =>
      { o with
        view := if later then Map.put o.view key p.words else Map.del o.view key
        l1d := if p.drop then o.l1d.filter (fun x => match x.2.2 with
                 | some t => !(t.1 == p.ctx && t.2.1 == p.entry)
                 | none => true) else o.l1d })
    let rest := p.waiting.filter (fun c => c != core)
    { s with pubs := if rest.isEmpty then Map.del s.pubs id else Map.put s.pubs id { p with waiting := rest } }

/-- Whether publishes are complete: every core has applied them. -/
def pubsDone (s : State) (ids : List Nat) : Bool := ids.all (fun i => (Map.find s.pubs i).isNone)

/-- Whether the stores that a squad issued before number `before` are acknowledged, and have left its queue (R81, R266). -/
def squadDrained (s : State) (w q before : Nat) : Bool :=
  !(sqAt s w q).stq.any (fun e => decide (e.seq < before))
    && !s.flights.any (fun f => f.2.wg == w && f.2.sq == q && decide (f.2.seq < before))

end Sys2Proof.Machine
end

