-- ==== Sys2Proof/Machine/Transfer.lean ====
section
/-! DEFINITION. The transfer unit's instructions `cpa` and `tcp`, the copy engine's front end, `publish` and `bmt.rd` (R263 to R266, R273,
R274, R278 to R284). -/

namespace Sys2Proof.Machine

/-! Transfer operations (R263 to R265). -/

/-- The fault of a completion index, decided at issue (R263): a tag not granted, or a barrier that is broken or not initialised. -/
def completionFault (s : State) (w : Nat) (kind : BitVec 1) (x : BitVec 6) : Option FaultInfo :=
  if kind = 0 then (if tagsOf s w ≤ x.toNat then some (faultInfo 0x18 0) else none) else barFault s w x.toNat true

/-- The contract-mix check of the pages an operation touches (R194, R281): the fault, or whether the access is a masked mix. -/
def stampCheck (s : State) (w : Nat) (stamps : List (Nat × BitVec 64)) : Except EngFault Bool :=
  match firstMix (contractOf s w) stamps with
  | none => .ok false
  | some ea => if mixMasked s w then .ok true else .error ((0x0B, 0), ea)

/-- What pieces write, in half bytes. -/
def halvesOf (ps : List Piece) : Nat := ps.foldl (fun n p => n + (if p.half.isSome then 1 else 2 * p.n)) 0

/-- The operation that a replayed lane belongs to (R264). -/
def parkedXfer (s : State) (u : Bundle) (g : BitVec 32) : Option (Nat × Xfer) :=
  if u.e.replay.isEmpty then none
  else (coreAt s (wgAt s u.wg).core).xfers.find? (fun p =>
    p.2.wg == u.wg && p.2.sq == u.sq && p.2.place == u.e.place && (lanesOf g).any (fun l => p.2.parkedLanes.contains (u.e.lb, l)))

/-- The shape of `cpa` and `tcp` (R264, R274): `f` checks one lane and gives its pieces; the lanes that pass become one transfer operation,
which replayed lanes join; the others park. -/
def xferOp (ins : Instr) (kind na : BitVec 1) (x : BitVec 6) (al : List (BitVec 6 × Nat)) (o : Opnds) (slots : List Nat)
    (f : State → Bundle → Nat → Staged → State × Except EngFault (List Piece × Bool)) (u : Bundle) (s : State) : State :=
  if al.any (fun p => misaligned p.1 p.2) then encodingFault s u (faultInfo 0x05 0)
  else
    let g := activeMask s u
    if g = 0 then advance s u u.e.mask
    else
      let old := parkedXfer s u g
      match (if old.isNone then completionFault s u.wg kind x else none) with
      | some i => ownFault s u i
      | none =>
        let core := (wgAt s u.wg).core
        let st := stage s u o
        let r := eachLane s g (fun s l =>
          match f s u l (st l) with
          | (s, .ok v) => (s, .ok v)
          | (s, .error e) => (s, .error (laneFault e.1 e.2 (stagedWords o (st l) slots))))
        let ps := r.2.1.flatMap (fun p => p.2.1)
        let parked := r.2.2.map (fun p => (u.e.lb, p.1))
        let before := (sqAt s u.wg u.sq).seq
        let s := match old with
          | some (k, x) =>
            let rest := x.parkedLanes.filter (fun p => !(p.1 == u.e.lb && inMask g p.2))
            -- an operation that poison stopped reads nothing more: what a replayed lane would write is poisoned like the rest (R280)
            let s := if x.stopped then poisonDest r.1 u.wg ps else r.1
            let x := { x with pieces := if x.stopped then [] else x.pieces ++ ps, halves := x.halves + halvesOf ps, before := before
                              parkedLanes := rest ++ parked }
            modCore s core (fun c => { c with xfers := Map.put c.xfers k x })
          | none =>
            let id := newId r.1
            let x : Xfer :=
              { wg := u.wg, sq := u.sq, place := u.e.place, ins := ins, kindBar := kind == 1, x := x.toNat, na := na == 1, pieces := ps
                halves := halvesOf ps, parkedLanes := parked, abandoned := false, before := before, stopped := false, landed := [] }
            modCore id.2 core (fun c => { c with xfers := Map.put c.xfers id.1 x })
        let s := noteMix s u (r.2.1.any (fun p => p.2.2))
        let s := parkFailed s u g st r.2.2
        awaitCheck s u (maskIn r.2.1)

/-- One lane of a `cpa` of `size` bytes (R264). -/
def cpaLane (size : Nat) (s : State) (u : Bundle) (l : Nat) (st : Staged) : State × Except EngFault (List Piece × Bool) :=
  let src := w64 st.a
  let dst := w64 st.d
  if src.toNat % size ≠ 0 then (s, .error ((0x12, 0), src))
  else if dst.toNat % size ≠ 0 then (s, .error ((0x12, 0), dst))
  else
    let a := touch s u.wg .transfer src size false
    let b := touch a.1 u.wg .transfer dst size true
    match a.2, b.2 with
    | .ok (xs, cs), .ok (xd, cd) =>
      match stampCheck b.1 u.wg [(cs, src), (cd, dst)] with
      | .error e => (b.1, .error e)
      | .ok mix => (b.1, .ok ([{ lane := u.e.lb * 32 + l, ea := src, src := xs, dst := xd, n := size, half := none }], mix))
    | .error e, .ok _ => (b.1, .error (e, src))
    | .ok _, .error e => (b.1, .error (e, dst))
    | .error e, .error f => (b.1, .error (if faultStage f < faultStage e then (f, dst) else (e, src)))

def cpaOp (size : Nat) (ins : Instr) (d a x : BitVec 6) (na kind : BitVec 1) : Bundle → State → State :=
  xferOp ins kind na x [(d, 2), (a, 2)] { d := some (own d 2), a := some (own a 2) } [] (cpaLane size)

def execCpaB32 (d a x : BitVec 6) (na kind : BitVec 1) (s : State) : Host.Outcome State Fault Refusal :=
  withBundle s (cpaOp 4 (.cpaB32 d a x na kind) d a x na kind)
def execCpaB64 (d a x : BitVec 6) (na kind : BitVec 1) (s : State) : Host.Outcome State Fault Refusal :=
  withBundle s (cpaOp 8 (.cpaB64 d a x na kind) d a x na kind)
def execCpaB128 (d a x : BitVec 6) (na kind : BitVec 1) (s : State) : Host.Outcome State Fault Refusal :=
  withBundle s (cpaOp 16 (.cpaB128 d a x na kind) d a x na kind)

/-- A record address that must be a virtual address. -/
def globalOnly (va : DWord) : Option EngFault := if bitsOf va.toNat 63 52 ≠ 0 then some ((0x10, 3), va) else none

/-- The positions of a source record's box, in the five dimensions (R274). -/
def boxPositions (ws : List Word) : List (List Nat) :=
  positions ((List.range 5).map (fun k => if k < layRank ws then layBox ws k else 1))

/-- Every position of a tile copy, in order (R274). -/
def tileMoves (s : State) (w : Nat) (e : Eng) (lane : Nat) (src dst : Lay) (co do_ : List Nat) (ps : List (List Nat)) :
    State × List ElemMove :=
  ps.foldl (fun (acc : State × List ElemMove) x =>
    let r := elemMove acc.1 w e lane src dst ((addCoords co x).take (layRank src.ws)) ((addCoords do_ x).take (layRank dst.ws))
    (r.1, acc.2 ++ [r.2])) (s, [])

/-- One lane of a `tcp` (R273, R274). -/
def tcpLane (s : State) (u : Bundle) (l : Nat) (st : Staged) : State × Except EngFault (List Piece × Bool) :=
  let a := w64 st.a
  let d := w64 st.d
  let org := (wordsOf st.b 8).map (fun x => x.toNat)
  match globalOnly a, globalOnly d with
  | some f, _ => (s, .error f)
  | _, some f => (s, .error f)
  | none, none =>
    match readLay s u.wg .transfer a with
    | (s, .error f) => (s, .error f)
    | (s, .ok (src, ca)) =>
      match readLay s u.wg .transfer d with
      | (s, .error f) => (s, .error f)
      | (s, .ok (dst, cd)) =>
        let narrow := narrowLay s u.wg
        if layBad tcpUser narrow src || layBad tcpUser narrow dst || layBits src.ws != layBits dst.ws then (s, .error ((0x09, 6), 0))
        else
          let r := tileMoves s u.wg .transfer (u.e.lb * 32 + l) src dst (org.take 4) (org.drop 4) (boxPositions src.ws)
          match firstFault (r.2.flatMap (fun m => m.faults)) with
          | some f => (r.1, .error f)
          | none =>
            match stampCheck r.1 u.wg (ca ++ cd ++ r.2.flatMap (fun m => m.stamps)) with
            | .error e => (r.1, .error e)
            | .ok mix => (r.1, .ok (r.2.filterMap (fun m => m.piece), mix))

def execTcp (d a b x : BitVec 6) (na kind : BitVec 1) (s : State) : Host.Outcome State Fault Refusal :=
  withBundle s (xferOp (.tcp d a b x na kind) kind na x [(d, 2), (a, 2), (b, 8)]
    { d := some (own d 2), a := some (own a 2), b := some (own b 8) } [2] tcpLane)

/-! The transfer unit at work (R264 to R266, R280). -/

/-- Whether an operation's lines may be read and written: the squad's earlier stores are acknowledged (R266). -/
def xferReady (s : State) (x : Xfer) : Bool := !x.stopped && squadDrained s x.wg x.sq x.before

/-- Stops an operation that met poison (R280): its unwritten units are poisoned, its squad's threads park, one record names it. -/
def stopXfer (s : State) (core k : Nat) (x : Xfer) (p : Piece) : State :=
  let s := poisonDest s x.wg x.pieces
  let s := modCore s core (fun c => { c with xfers := Map.put c.xfers k { x with stopped := true, pieces := [] } })
  let sq := sqAt s x.wg x.sq
  let live := (sq.frontier ++ sq.overflow).flatMap (fun e => (lanesOf e.mask).map (fun l => (e.lb, l, none)))
    ++ sq.waiters.flatMap (fun y => (lanesOf y.mask).map (fun l => (y.lb, l, none)))
  let s := modSq s x.wg x.sq (fun sq => { sq with doomed := sq.doomed ++ live })
  reportThread s x.wg x.sq (p.lane / 32) (p.lane % 32)
    (threadRecord s x.wg x.sq (p.lane / 32) (p.lane % 32) 4 x.place { faultInfo 0x15 0 with faddr := p.ea })

/-- What is left of a piece under the half bytes that higher lanes of the operation have written: a replayed lane's data goes under theirs (R265). -/
def bareParts (s : State) (core : Nat) (x : Xfer) (p : Piece) : List Piece :=
  let above := (x.landed.filter (fun q => decide (p.lane < q.lane) && q.toBuf == p.toBuf)).flatMap (destHalves s core)
  if !(destHalves s core p).any above.contains then [p]
  else if p.half.isSome then []
  else
    ((destBytes s core p).zipIdx).flatMap (fun b =>
      let q : Piece := { p with src := p.src.shift b.2, dst := p.dst.shift b.2, n := 1 }
      match above.contains (2 * b.1), above.contains (2 * b.1 + 1) with
      | false, false => [q]
      | true, false => [{ q with half := some (true, true) }]
      | false, true => [{ q with half := some (false, false) }]
      | true, true => [])

/-- Writes one line of an operation: the pieces that write the line of its `j`-th piece, in ascending lane order (R265). -/
def xferLine (s : State) (core k j : Nat) : State :=
  match Map.find (coreAt s core).xfers k with
  | none => s
  | some x =>
    if !xferReady s x then s
    else
      match x.pieces[j]? with
      | none => s
      | some p =>
        let line := sortBy (fun q => [q.lane]) (x.pieces.filter (fun q => destLine q == destLine p))
        if !line.all (Piece.mayMove s) then s
        else match (if line.any (sourcePoisoned s x.wg core) then none else moveLine s x.wg core (line.flatMap (bareParts s core x))) with
        | none => stopXfer s core k x ((line.find? (sourcePoisoned s x.wg core)).getD p)
        | some s =>
          modCore s core (fun c => { c with xfers := Map.put c.xfers k { x with
            pieces := x.pieces.filter (fun q => destLine q != destLine p), landed := x.landed ++ line } })

/-- Ends an operation whose lanes have all written (R264): its tag, or its arrival with the bytes written; an abandoned one ends without. Where the 4-bit
elements written come to an odd number, the half byte left over is dropped (DESIGN CHOICE, log entry 79). -/
def xferEnd (s : State) (core k : Nat) : State :=
  match Map.find (coreAt s core).xfers k with
  | none => s
  | some x =>
    let done := x.pieces.isEmpty && !x.stopped && x.parkedLanes.isEmpty
    if x.abandoned && x.pieces.isEmpty then modCore s core (fun c => { c with xfers := Map.del c.xfers k })
    else if done && xferReady s x then
      let s := modCore s core (fun c => { c with xfers := Map.del c.xfers k })
      if x.kindBar then engineArrive s x.wg x.x (x.halves / 2) 1 7 0 x.place else setTag s x.wg x.x
    else s

/-! The copy engine's front end (R282 to R284). -/

/-- Whether a context has finished. -/
def ceFinished (c : CeCtx) : Bool := decide (4 ≤ c.st) && c.moves.isEmpty

/-- Whether a workgroup may take a context (R283). -/
def ceFree (s : State) (w : Nat) (c : CeCtx) : Bool :=
  match c.owner with
  | none => true
  | some v => (wgAt s v).status == 2 || (v == w && ceFinished c)

/-- The context that `cpe.run` takes: the lowest that is free. -/
def ceToTake (s : State) (w : Nat) : Option Nat := (List.range 4).find? (fun k => ceFree s w (ceAt s (wgAt s w).core k))

/-- Takes effect once a context is free; an issue without one is none. -/
def execCpeRun (d a b : BitVec 6) (s : State) : Host.Outcome State Fault Refusal :=
  withBundle s (fun u s =>
    if misaligned a 2 ∨ misaligned b 2 then encodingFault s u (faultInfo 0x05 0)
    else
      let g := activeMask s u
      if g = 0 then advance s u u.e.mask
      else
        match ceToTake s u.wg with
        | none => goOn s u u.e.mask u.e.place 1
        | some k =>
          let core := (wgAt s u.wg).core
          let pc := w64 (readReg s u (own a 2) (lowest g))
          let arg := w64 (readReg s u (own b 2) (lowest g))
          let e : Map DWord := [(1, arg), (2, BitVec.ofNat 64 (wgAt s u.wg).id), (3, BitVec.ofNat 64 core)]
          let s := modCe s core k (fun _ =>
            { CeCtx.free with owner := some u.wg, sq := u.sq, pc := pc, e := e, st := 1, drain := some (sqAt s u.wg u.sq).seq })
          let s := modSq s u.wg u.sq (fun sq => vset sq u.e.lb d.toNat g (fun _ => BitVec.ofNat 32 k))
          awaitCheck (advance s u (u.e.mask &&& ~~~g)) u g)

/-- Finishes a context as stopped or killed (R283, R338): completion operations not yet performed are dropped. -/
def endCe (s : State) (core k st : Nat) : State :=
  modCe s core k (fun c => { c with
    st := st, comps := [], pubWait := none, halting := false, ldi := [], stuck := none, withheld := false, kept := 0, held := none, left := [], cursor := 0
    moves := c.moves.filter (fun m => some m.1 != c.stuck) })

def execCpeStop (a : BitVec 6) (s : State) : Host.Outcome State Fault Refusal :=
  withBundle s (onceOp (fun _ _ _ => none)
    (fun s' u g =>
      let k := (w32 (readReg s u (own a 1) (lowest g))).toNat % 4
      let core := (wgAt s u.wg).core
      let c := ceAt s core k
      if c.owner = some u.wg ∧ 1 ≤ c.st ∧ c.st ≤ 3 then endCe s' core k 5 else s'))

/-- The words `cpe.rd` reads (R284). -/
def ceWord (c : CeCtx) (sel : Nat) : Word :=
  match sel with
  | 0 => packWord [(c.st, 29), (c.fsub, 16), (min 64 c.moves.length, 0)]
  | 1 => c.pc.truncate 32
  | _ => BitVec.ofNat 32 (bitsOf c.pc.toNat 51 32)

def execCpeRd (d a sel : BitVec 6) (s : State) : Host.Outcome State Fault Refusal :=
  withBundle s (laneOp [] d 1 (fun s u l =>
    let c := ceAt s (wgAt s u.wg).core ((w32 (readReg s u (own a 1) l)).toNat % 4)
    wide32 (if c.owner = some u.wg then ceWord c sel.toNat else 0)))

/-! Publication (R278, R279). -/

/-- The entries a `publish` names, ascending. -/
def entriesOf (lanes : List (Nat × Word)) : List Nat := sortBy (fun n => [n]) ((lanes.map (fun l => l.2.toNat % 4096)).dedup)

def execPublish (d a : BitVec 6) (m : BitVec 2) (s : State) : Host.Outcome State Fault Refusal :=
  withBundle s (fun u s =>
    let g := activeMask s u
    if g = 0 then advance s u u.e.mask
    else
      let st := stage s u { a := some ⟨a, m, 1⟩ }
      let lanes := (lanesOf g).map (fun l => (l, w32 (st l).a))
      let r := holdPlaces s u g
      let op : PubOp := { wg := u.wg, sq := u.sq, lb := u.e.lb, d := d, place := u.e.place, lanes := lanes, todo := entriesOf lanes, pubs := []
                          before := (sqAt s u.wg u.sq).seq }
      let s := commitWg { r.2 with pubOps := Map.put r.2.pubOps r.1 op } u.wg
      let s := modSq s u.wg u.sq (fun sq => holdItem sq (itemV u.e.lb d.toNat) r.1)
      wait (advance s u (u.e.mask &&& ~~~g)) u g (.engine r.1) u.next)

/-- Parks waiting lanes at the instruction they wait in, to be replayed, each with its own record. -/
def parkWaiting (s : State) (w q lb : Nat) (why : Wait) (place : Place) (bad : List (Nat × FaultInfo × Staged)) : State :=
  let m := maskIn bad
  let s := modSq s w q (fun sq => { sq with waiters := sq.waiters.filterMap (fun x =>
    if x.lb == lb && x.why == why then (if x.mask &&& ~~~m = 0 then none else some { x with mask := x.mask &&& ~~~m }) else some x) })
  let cls := Cls.code (clauseClass place.hdr)
  bad.foldl (fun s f =>
    let s := parkThreads s w q lb [f.1] place (fun _ => .replay f.2.2 false)
    reportThread s w q lb f.1 (threadRecord s w q lb f.1 cls place f.2.1)) s

/-- Takes lanes out of the places an instruction holds. -/
def unholdPlaces (s : State) (w q id : Nat) (m : BitVec 32) : State :=
  modSq s w q (fun sq => { sq with checks := match Map.find sq.checks id with
    | some c => if c.mask &&& ~~~m = 0 then Map.del sq.checks id else Map.put sq.checks id { c with mask := c.mask &&& ~~~m }
    | none => sq.checks })

/-- Releases the threads of a `publish` whose publishes are all complete. -/
def settlePub (s : State) (id : Nat) : State :=
  match Map.find s.pubOps id with
  | none => s
  | some op =>
    if op.todo.isEmpty && pubsDone s op.pubs then
      let s := modSq { s with pubOps := Map.del s.pubOps id } op.wg op.sq (fun sq => dropHolds sq id)
      endWaits s op.wg op.sq (fun x => x.why == .engine id)
    else s

/-- Performs the next publish of an instruction, after its drain (R278): the generation goes to the lanes that name the entry; those of an
invalid entry park. -/
def stepPub (s : State) (id : Nat) : State :=
  match Map.find s.pubOps id with
  | none => s
  | some op =>
    if !squadDrained s op.wg op.sq op.before then s
    else
      match op.todo with
      | [] => s
      | n :: rest =>
        let ctx := (wgAt s op.wg).ctx
        let mine := op.lanes.filter (fun l => l.2.toNat % 4096 == n)
        let s := match performPublish s ctx n with
          | some (p, s) =>
            let s := modSq s op.wg op.sq (fun sq =>
              vset sq op.lb op.d.toNat (maskIn mine) (fun _ => BitVec.ofNat 32 (bmtGen (bmtEntry s ctx n))))
            { s with pubOps := Map.put s.pubOps id { op with todo := rest, pubs := op.pubs ++ [p] } }
          | none =>
            let bad := mine.map (fun l => (l.1, { faultInfo 0x1C 2 with staged := some [l.2] },
              { d := 0, a := wide32 l.2, b := 0, c := 0 : Staged }))
            let s := unholdPlaces s op.wg op.sq id (maskIn mine)
            let s := parkWaiting s op.wg op.sq op.lb (.engine id) op.place bad
            { s with pubOps := Map.put s.pubOps id { op with todo := rest } }
        let s := if rest.isEmpty then unholdPlaces s op.wg op.sq id (BitVec.allOnes 32) else s
        settlePub s id

def execBmtRd (d a : BitVec 6) (m : BitVec 2) (w : BitVec 6) (s : State) : Host.Outcome State Fault Refusal :=
  withBundle s (laneOp [] d 1 (fun s u l =>
    let g := wgAt s u.wg
    let ws := bmtView s g.core g.ctx ((w32 (readReg s u ⟨a, m, 1⟩ l)).toNat % 4096)
    wide32 (if bmtValid ws then wordAt ws w.toNat else 0)))

end Sys2Proof.Machine
end

