-- ==== Sys2Proof/Machine/CopyEngine.lean ====
section
/-! DEFINITION. The copy engine's own instructions, its moves and completion operations, its faults and their resumption (R282 to R294). -/

namespace Sys2Proof.Machine

/-! Registers and faults (R282, R294). -/

/-- `E[r]`: e0 reads zero. -/
def ceGet (c : CeCtx) (r : Nat) : DWord := if r = 0 then 0 else Map.getD c.e r 0
/-- Writes `E[r]`: e0 ignores writes. -/
def ceSet (c : CeCtx) (r : Nat) (x : DWord) : CeCtx := if r = 0 then c else { c with e := Map.put c.e r x }
def ceNext (c : CeCtx) : CeCtx := { c with pc := c.pc + 4, st := 1 }
/-- A branch (R286). -/
def ceJump (c : CeCtx) (o : BitVec 16) : CeCtx := { c with pc := c.pc + o.signExtend 64 * 4 }

/-- The copy-engine subcode that carries an underlying fault code (R294). -/
def ceSubcode (code : Nat) : Nat :=
  match code with
  | 0x10 => 3
  | 0x11 => 4
  | 0x12 => 5
  | 0x13 => 6
  | 0x1C => 7
  | 0x09 => 8
  | 0x15 => 9
  | 0x0B => 10
  | _ => 11

/-- TAKING A COPY-ENGINE FAULT (R294): the context parks where its PC stands, and a record with the failing operation's `pc` is posted. A
context that has finished stays so. R292 has the record carry the underlying subcode, for which R334 names no field: the model puts it in w12, which
holds no staged operand with `STG` = 0 (DESIGN CHOICE, log entry 37). -/
def ceFault (s : State) (core k : Nat) (pc : DWord) (sub ucode : Nat) (faddr : BitVec 64) (usub : Nat := 0) : State :=
  let c := ceAt s core k
  let s := modCe s core k (fun c => { c with st := if 4 ≤ c.st then c.st else 3, fsub := sub })
  match c.owner with
  | none => s
  | some w =>
    postRecord s (dieOf core)
      ((engineRecord s w 6 k (pc.truncate 52) { faultInfo 0x20 sub with ucode := ucode, faddr := faddr, eng := true }).set 12 (BitVec.ofNat 32 usub))

/-- A copy-engine fault at the instruction in hand, from an underlying fault. -/
def ceFaultHere (s : State) (core k : Nat) (f : EngFault) : State :=
  ceFault s core k (ceAt s core k).pc (ceSubcode f.1.1) f.1.1 f.2 f.1.2

/-- RETURN FROM A COPY-ENGINE FAULT (R294): a parked context goes on at its PC, with its cursor and the completion operations it kept; these are performed
before it issues (`ceLive`). -/
def CeCtx.resumed (c : CeCtx) : CeCtx := if c.st = 3 then { c with st := 1, stuck := none, withheld := false } else c

def resumeCe (s : State) (core k : Nat) : State := modCe s core k CeCtx.resumed

/-- Resumes context `k` of a workgroup, on its core, or where an adjournment saved it (R294, R336). -/
def resumeCeOf (s : State) (w k : Nat) : State :=
  if (ceAt s (wgAt s w).core k).owner = some w then resumeCe s (wgAt s w).core k
  else modWg s w (fun g => { g with saved := { g.saved with ces := Map.modify g.saved.ces k CeCtx.resumed } })

/-- Ends a context that has executed `halt` once everything it started has taken effect (R284, R288). -/
def settleCe (s : State) (core k : Nat) : State :=
  modCe s core k (fun c => if c.halting && c.st == 1 && c.moves.isEmpty && c.comps.isEmpty then { c with st := 4, halting := false } else c)

/-- The workgroup that owns a context. -/
def ceOwner (s : State) (core k : Nat) : Nat := (ceAt s core k).owner.getD s.wgs.length

/-- The contract-mix check of the pages a context touches (R281). -/
def ceStamps (s : State) (core k : Nat) (l : List (Nat × BitVec 64)) : State × Except EngFault Unit :=
  match stampCheck s (ceOwner s core k) l with
  | .error e => (s, .error e)
  | .ok true => (modSq s (ceOwner s core k) (ceAt s core k).sq (fun sq => setFxs sq { mix := true : Flags }.word), .ok ())
  | .ok false => (s, .ok ())

/-- The shape of a register instruction: a change of the context, which goes on. -/
def ceReg (f : CeCtx → CeCtx) (s : State) : Host.Outcome State Fault Refusal :=
  withEngine s (fun core k s => modCe s core k (fun c => ceNext (f c)))
def ceBin (d a b : BitVec 5) (f : DWord → DWord → DWord) : State → Host.Outcome State Fault Refusal :=
  ceReg (fun c => ceSet c d.toNat (f (ceGet c a.toNat) (ceGet c b.toNat)))

/-! Arithmetic and control (R288). -/

def execCeAdd (d a b : BitVec 5) (s : State) : Host.Outcome State Fault Refusal := ceBin d a b (fun x y => x + y) s
def execCeSub (d a b : BitVec 5) (s : State) : Host.Outcome State Fault Refusal := ceBin d a b (fun x y => x - y) s
def execCeMul (d a b : BitVec 5) (s : State) : Host.Outcome State Fault Refusal := ceBin d a b (fun x y => x * y) s
def execCeMadd (d a b : BitVec 5) (s : State) : Host.Outcome State Fault Refusal :=
  ceReg (fun c => ceSet c d.toNat (ceGet c d.toNat + ceGet c a.toNat * ceGet c b.toNat)) s
def execCeAnd (d a b : BitVec 5) (s : State) : Host.Outcome State Fault Refusal := ceBin d a b (fun x y => x &&& y) s
def execCeOr (d a b : BitVec 5) (s : State) : Host.Outcome State Fault Refusal := ceBin d a b (fun x y => x ||| y) s
def execCeXor (d a b : BitVec 5) (s : State) : Host.Outcome State Fault Refusal := ceBin d a b (fun x y => x ^^^ y) s
def execCeShl (d a b : BitVec 5) (s : State) : Host.Outcome State Fault Refusal :=
  ceBin d a b (fun x y => if 64 ≤ y.toNat then 0 else x <<< y.toNat) s
def execCeShr (d a b : BitVec 5) (s : State) : Host.Outcome State Fault Refusal :=
  ceBin d a b (fun x y => if 64 ≤ y.toNat then 0 else x >>> y.toNat) s
def execCeMin (d a b : BitVec 5) (s : State) : Host.Outcome State Fault Refusal := ceBin d a b (fun x y => if x.slt y then x else y) s
def execCeMax (d a b : BitVec 5) (s : State) : Host.Outcome State Fault Refusal := ceBin d a b (fun x y => if x.slt y then y else x) s
def execCeAddi (d a : BitVec 5) (i : BitVec 16) (s : State) : Host.Outcome State Fault Refusal :=
  ceReg (fun c => ceSet c d.toNat (ceGet c a.toNat + i.signExtend 64)) s
def execCeLui (d a : BitVec 5) (i : BitVec 16) (s : State) : Host.Outcome State Fault Refusal :=
  ceReg (fun c => ceSet c d.toNat ((ceGet c a.toNat <<< 16) ||| i.zeroExtend 64)) s
def execCeOri (d a : BitVec 5) (i : BitVec 16) (s : State) : Host.Outcome State Fault Refusal :=
  ceReg (fun c => ceSet c d.toNat (ceGet c a.toNat ||| i.zeroExtend 64)) s

/-- The shape of a branch on two registers. -/
def ceBranch (a b : BitVec 5) (o : BitVec 16) (t : DWord → DWord → Bool) (s : State) : Host.Outcome State Fault Refusal :=
  withEngine s (fun core k s => modCe s core k (fun c => if t (ceGet c a.toNat) (ceGet c b.toNat) then ceJump c o else ceNext c))
def execCeBeq (a b : BitVec 5) (o : BitVec 16) (s : State) : Host.Outcome State Fault Refusal := ceBranch a b o (fun x y => x == y) s
def execCeBne (a b : BitVec 5) (o : BitVec 16) (s : State) : Host.Outcome State Fault Refusal := ceBranch a b o (fun x y => x != y) s
def execCeBlt (a b : BitVec 5) (o : BitVec 16) (s : State) : Host.Outcome State Fault Refusal := ceBranch a b o (fun x y => x.slt y) s
def execCeBge (a b : BitVec 5) (o : BitVec 16) (s : State) : Host.Outcome State Fault Refusal := ceBranch a b o (fun x y => !x.slt y) s
def execCeJmp (a : BitVec 5) (o : BitVec 16) (s : State) : Host.Outcome State Fault Refusal :=
  withEngine s (fun core k s => modCe s core k (fun c =>
    if a = 0 then ceJump c o else { c with pc := ceGet c a.toNat + o.signExtend 64 * 4 }))

/-- A loop counter above l3 is an illegal instruction. -/
def execCeLoopSet (n a : BitVec 5) (i : BitVec 16) (s : State) : Host.Outcome State Fault Refusal :=
  withEngine s (fun core k s =>
    if 4 ≤ n.toNat then ceFault s core k (ceAt s core k).pc 1 0 0
    else modCe s core k (fun c => ceNext { c with l := Map.put c.l n.toNat (ceGet c a.toNat + i.zeroExtend 64) }))
def execCeLoopEnd (n : BitVec 5) (o : BitVec 16) (s : State) : Host.Outcome State Fault Refusal :=
  withEngine s (fun core k s =>
    if 4 ≤ n.toNat then ceFault s core k (ceAt s core k).pc 1 0 0
    else modCe s core k (fun c =>
      let x := Map.getD c.l n.toNat 0
      if 1 < x.toNat then ceJump { c with l := Map.put c.l n.toNat (x - 1) } o else ceNext { c with l := Map.put c.l n.toNat 0 }))

/-- The engine takes ready contexts in turn, one instruction from each (R285), so that every other ready context issues before this one
issues again. -/
def execCeYieldctx (s : State) : Host.Outcome State Fault Refusal := ceReg (fun c => c) s

def execCeHalt (s : State) : Host.Outcome State Fault Refusal :=
  withEngine s (fun core k s => settleCe (modCe s core k (fun c => { c with halting := true })) core k)

/-! Loads, stores and records (R282, R289, R290). -/

/-- The checks of a context's access of `n` bytes at an engine address. -/
def ceTouch (s : State) (core k : Nat) (ea : DWord) (n : Nat) (wr : Bool) : State × Except EngFault XAddr :=
  if ea.toNat % n ≠ 0 then (s, .error ((0x12, 0), ea))
  else
    match touch s (ceOwner s core k) .copy ea n wr with
    | (s, .error f) => (s, .error (f, ea))
    | (s, .ok (x, cst)) =>
      match ceStamps s core k [(cst, ea)] with
      | (s, .error f) => (s, .error f)
      | (s, .ok _) =>
        if !wr && sourcePoisoned s (ceOwner s core k) core { lane := 0, ea := ea, src := x, dst := x, n := n, half := none }
        then (s, .error ((0x15, 0), ea)) else (s, .ok x)

/-- `ldi` and `ldi64`: memory is read at issue, the value returns later. -/
def ceLoad (d a : BitVec 5) (i : BitVec 16) (n : Nat) (s : State) : Host.Outcome State Fault Refusal :=
  withEngine s (fun core k s =>
    let ea := ceGet (ceAt s core k) a.toNat + i.signExtend 64 * BitVec.ofNat 64 n
    match ceTouch s core k ea n false with
    | (s, .error f) => ceFaultHere s core k f
    | (s, .ok x) =>
      let r := readSource s (ceOwner s core k) core x n
      modCe r.1 core k (fun c => ceNext { c with ldi := c.ldi ++ [(d.toNat, BitVec.ofNat 64 (leNat r.2))] }))
def execCeLdi (d a : BitVec 5) (i : BitVec 16) (s : State) : Host.Outcome State Fault Refusal := ceLoad d a i 4 s
def execCeLdi64 (d a : BitVec 5) (i : BitVec 16) (s : State) : Host.Outcome State Fault Refusal := ceLoad d a i 8 s

/-- Queues a completion operation behind the moves issued so far (R285). -/
def ceQueue (s : State) (core k : Nat) (op : CeComp) : State :=
  modCe s core k (fun c => ceNext { c with comps := c.comps ++ [(c.moveNo, c.pc, op)] })

def execCeStw (d a : BitVec 5) (i : BitVec 16) (s : State) : Host.Outcome State Fault Refusal :=
  withEngine s (fun core k s =>
    let c := ceAt s core k
    let ea := ceGet c a.toNat + i.signExtend 64 * 4
    match ceTouch s core k ea 4 true with
    | (s, .error f) => ceFaultHere s core k f
    | (s, .ok _) => ceQueue s core k (.stw ea ((ceGet c d.toNat).truncate 32)))

/-- Takes a record from the cache, or reads it and places it there; a full cache loses an entry (R282). -/
def ceRecord (s : State) (core k : Nat) (ea : DWord) : State × Except EngFault (List Word) :=
  match (ceAt s core k).cache.find? (fun p => p.1 == ea.toNat) with
  | some p => (s, .ok p.2)
  | none =>
    match readRec s (ceOwner s core k) .copy ea with
    | (s, .error f) => (s, .error f)
    | (s, .ok (ws, cst)) =>
      match ceStamps s core k [cst] with
      | (s, .error f) => (s, .error f)
      | (s, .ok _) =>
        let dr := draw s
        let put := fun (l : List (Nat × List Word)) =>
          (if l.length < 8 then l else l.eraseIdx (Config.freeNumber dr.1 % 8)) ++ [(ea.toNat, ws)]
        (modCe dr.2 core k (fun c => { c with cache := put c.cache }), .ok ws)

/-- A layout record for the context, with the index record of a COMPOSED one. -/
def ceLay (s : State) (core k : Nat) (ea : DWord) : State × Except EngFault Lay :=
  match ceRecord s core k ea with
  | (s, .error f) => (s, .error f)
  | (s, .ok ws) =>
    if layKind ws = 1 then
      match ceRecord s core k (BitVec.ofNat 64 (layLink ws)) with
      | (s, .error f) => (s, .error f)
      | (s, .ok xs) => (s, .ok { ws := ws, idx := some xs })
    else (s, .ok { ws := ws, idx := none })

/-- `n` registers from `b` on. -/
def ceGets (c : CeCtx) (b n : Nat) : List Nat := (List.range n).map (fun i => (ceGet c (b + i)).toNat)

/-- Whether the record of `tadr` or `tnext` is refused, and with which subcode. -/
def recordFault (s : State) (w : Nat) (l : Lay) (b : Nat) : Option (Nat × Nat) :=
  if layBad ceUser (narrowLay s w) l then some (8, 0x09)
  else if 31 < b + layRank l.ws - 1 then some (1, 0)
  else none

def execCeTadr (d a b : BitVec 5) (s : State) : Host.Outcome State Fault Refusal :=
  withEngine s (fun core k s =>
    let c := ceAt s core k
    let ea := ceGet c a.toNat
    match ceLay s core k ea with
    | (s, .error f) => ceFaultHere s core k f
    | (s, .ok l) =>
      let w := ceOwner s core k
      match recordFault s w l b.toNat with
      | some f => ceFault s core k c.pc f.1 f.2 ea
      | none =>
        match locate s w .copy l (ceGets c b.toNat (layRank l.ws)) with
        | (s, .error f) => ceFaultHere s core k f
        | (s, .ok (at_, stamps)) =>
          match ceStamps s core k stamps with
          | (s, .error f) => ceFaultHere s core k f
          | (s, .ok _) =>
            modCe s core k (fun c => ceNext (ceSet c d.toNat (match at_ with
              | some e => e.1
              | none => BitVec.allOnes 64))))

/-- The odometer (R290): dimension `j` and the ones above it. -/
def odometer (d b : Nat) (extent box : Nat → Nat) : Nat → Nat → CeCtx → CeCtx
  | 0, _, c => ceSet c d 1
  | n + 1, j, c =>
    let c := ceSet c (b + j) (ceGet c (b + j) + BitVec.ofNat 64 (box j))
    if (ceGet c (b + j)).toNat < extent j then ceSet c d 0
    else odometer d b extent box n (j + 1) (ceSet c (b + j) 0)

def execCeTnext (d a b : BitVec 5) (s : State) : Host.Outcome State Fault Refusal :=
  withEngine s (fun core k s =>
    let c := ceAt s core k
    let ea := ceGet c a.toNat
    match ceLay s core k ea with
    | (s, .error f) => ceFaultHere s core k f
    | (s, .ok l) =>
      match recordFault s (ceOwner s core k) l b.toNat with
      | some f => ceFault s core k c.pc f.1 f.2 ea
      | none =>
        let extent := fun j => match l.idx with
          | some xs => if j = 1 then layDim xs 0 else layDim l.ws j
          | none => layDim l.ws j
        modCe s core k (fun c => ceNext (odometer d.toNat b.toNat extent (layBox l.ws) (layRank l.ws) 0 c)))

/-! Moves (R285, R291). -/

/-- One element of a move as its line is formed: the destination line, its piece, the faults met, the contract stamps. -/
structure CeElem where
  line : Option Nat
  piece : Option Piece
  faults : List EngFault
  stamps : List (Nat × BitVec 64)
  deriving DecidableEq, Repr

/-- The elements from number `i` on that fall in one destination line; an element without a destination belongs to the line before it. -/
def takeLine (f : State → Nat → State × CeElem) : Nat → Nat → Option Nat → State → State × List CeElem
  | 0, _, _, s => (s, [])
  | n + 1, i, line, s =>
    let r := f s i
    if line.isSome && r.2.line.isSome && line != r.2.line then (s, [])
    else
      let t := takeLine f n (i + 1) (if line.isSome then line else r.2.line) r.1
      (t.1, r.2 :: t.2)

/-- Notes the units of typed buffers that the elements from the cursor on would write: what poison met later in the lines requested so far leaves unwritten
(R280). -/
def noteLeft (f : State → Nat → State × CeElem) (core k total : Nat) (s : State) : State :=
  let c := ceAt s core k
  let rest := (List.range (total - c.cursor)).filterMap (fun i => (f s (c.cursor + i)).2.piece)
  modCe s core k (fun c => { c with left := (rest.flatMap destUnits).dedup })

/-- Forms the line requests of a move of `total` elements from its cursor on, while places are left; `pc` is the move's address. A move
wholly requested lets the context go on. A fault leaves the earlier lines requested; poisoned source data poisons the typed-buffer units
that are left (R280). -/
def formLines (f : State → Nat → State × CeElem) (core k total : Nat) : Nat → State → State
  | 0, s => noteLeft f core k total s
  | room + 1, s =>
    let c := ceAt s core k
    let w := ceOwner s core k
    let r := takeLine f (total - c.cursor) c.cursor none s
    match firstFault (r.2.flatMap (fun e => e.faults)) with
    | some e => ceFaultHere (noteLeft f core k total r.1) core k e
    | none =>
      match ceStamps r.1 core k (r.2.flatMap (fun e => e.stamps)) with
      | (s, .error e) => ceFaultHere (noteLeft f core k total s) core k e
      | (s, .ok _) =>
        let ps := r.2.filterMap (fun e => e.piece)
        match ps.find? (sourcePoisoned s w core) with
        | some p =>
          let s := noteLeft f core k total s
          ceFault (poisonUnits s w (ceAt s core k).left) core k c.pc 9 0x15 p.ea
        | none =>
          let s := modCe s core k (fun c => { c with
            cursor := c.cursor + r.2.length
            moves := if ps.isEmpty then c.moves else c.moves ++ [(c.moveNo, c.pc, ps)] })
          if total ≤ c.cursor + r.2.length then modCe s core k (fun c => ceNext { c with cursor := 0, held := none, left := [], moveNo := c.moveNo + 1 })
          else formLines f core k total room s

/-- The places for line requests a context has left. -/
def ceRoom (c : CeCtx) : Nat := 64 - c.moves.length

/-- Four bytes of an `mv`. -/
def mvElem (w : Nat) (dst src : DWord) (s : State) (i : Nat) : State × CeElem :=
  let d := dst + BitVec.ofNat 64 (4 * i)
  let a := src + BitVec.ofNat 64 (4 * i)
  let x := touch s w .copy a 4 false
  let y := touch x.1 w .copy d 4 true
  let line := some (d.toNat / 128)
  match x.2, y.2 with
  | .ok xs, .ok xd =>
    (y.1, { line := line, piece := some { lane := 0, ea := a, src := xs.1, dst := xd.1, n := 4, half := none }, faults := []
            stamps := [(xs.2, a), (xd.2, d)] })
  | .error e, .error f => (y.1, { line := line, piece := none, faults := [(e, a), (f, d)], stamps := [] })
  | .error e, .ok _ => (y.1, { line := line, piece := none, faults := [(e, a)], stamps := [] })
  | .ok _, .error f => (y.1, { line := line, piece := none, faults := [(f, d)], stamps := [] })

/-- The length is checked before the addresses. -/
def execCeMv (d a b : BitVec 5) (_n : BitVec 1) (s : State) : Host.Outcome State Fault Refusal :=
  withEngine s (fun core k s =>
    let c := ceAt s core k
    let len := (ceGet c b.toNat).toNat
    let dst := ceGet c d.toNat
    let src := ceGet c a.toNat
    if len < 4 ∨ 4096 < len ∨ len % 4 ≠ 0 then ceFault s core k c.pc 12 0 0
    else if src.toNat % 4 ≠ 0 then ceFaultHere s core k ((0x12, 0), src)
    else if dst.toNat % 4 ≠ 0 then ceFaultHere s core k ((0x12, 0), dst)
    else formLines (mvElem (ceOwner s core k) dst src) core k (len / 4) (ceRoom c) s)

/-- One element of a tile move, at an offset `x` in the box (R274). -/
def tileElem (w : Nat) (src dst : Lay) (co do_ x : List Nat) (s : State) : State × CeElem :=
  let a := elemSide s w .copy src ((addCoords co x).take (layRank src.ws)) false
  match locate a.1 w .copy dst ((addCoords do_ x).take (layRank dst.ws)) with
  | (s, .error f) => (s, { line := none, piece := none, faults := a.2.2.1 ++ [f], stamps := a.2.2.2 })
  | (s, .ok (none, cs)) => (s, { line := none, piece := none, faults := a.2.2.1, stamps := a.2.2.2 ++ cs })
  | (s, .ok (some (ea, hi), cs)) =>
    let line := some (ea.toNat / 128)
    match touch s w .copy ea (layBytes dst.ws) true with
    | (s, .error f) => (s, { line := line, piece := none, faults := a.2.2.1 ++ [(f, ea)], stamps := a.2.2.2 ++ cs })
    | (s, .ok (xd, c)) =>
      let from_ := match a.2.1 with
        | some (xs, hs, e) => (xs, hs, e)
        | none => (.pad (padValue src.ws), false, 0)
      (s, { line := line, faults := a.2.2.1, stamps := a.2.2.2 ++ cs ++ [(c, ea)]
            piece := some { lane := 0, ea := from_.2.2, src := from_.1, dst := xd, n := layBytes src.ws
                            half := if layBits src.ws = 4 then some (from_.2.1, hi) else none } })

/-- Position `n` of a box, dimension 0 fastest. -/
def nthPos : List Nat → Nat → List Nat
  | [], _ => []
  | b :: bs, n => n % b :: nthPos bs (n / b)

/-- The box of a record in five dimensions. -/
def fullBox (ws : List Word) : List Nat := (List.range 5).map (fun j => if j < layRank ws then layBox ws j else 1)

/-- The records of the move in hand: those it began with, or those it reads now (R271, R282). -/
def moveLays (s : State) (core k : Nat) (a d : DWord) : State × Except EngFault (Lay × Lay) :=
  match (ceAt s core k).held with
  | some h => (s, .ok ({ ws := h.1.1, idx := h.1.2 }, { ws := h.2.1, idx := h.2.2 }))
  | none =>
    match ceLay s core k a with
    | (s, .error f) => (s, .error f)
    | (s, .ok src) =>
      match ceLay s core k d with
      | (s, .error f) => (s, .error f)
      | (s, .ok dst) => (s, .ok (src, dst))

/-- `mvt`, `gat` and `scat`: the kinds of the source and destination records are given. -/
def tileMove (ks kd : Nat) (d a b : BitVec 5) (s : State) : Host.Outcome State Fault Refusal :=
  withEngine s (fun core k s =>
    let c := ceAt s core k
    if 22 < b.toNat then ceFault s core k c.pc 1 0 0
    else
      match moveLays s core k (ceGet c a.toNat) (ceGet c d.toNat) with
      | (s, .error f) => ceFaultHere s core k f
      | (s, .ok (src, dst)) =>
        let w := ceOwner s core k
        let narrow := narrowLay s w
        if layKind src.ws ≠ ks ∨ layBad ceUser narrow src then ceFaultHere s core k ((0x09, 0), ceGet c a.toNat)
        else if layKind dst.ws ≠ kd ∨ layBad ceUser narrow dst then ceFaultHere s core k ((0x09, 0), ceGet c d.toNat)
        else if layBits src.ws ≠ layBits dst.ws then ceFaultHere s core k ((0x09, 0), ceGet c a.toNat)
        else
          let box := fullBox src.ws
          let s := modCe s core k (fun c => { c with held := some ((src.ws, src.idx), (dst.ws, dst.idx)) })
          formLines (fun s i => tileElem w src dst (ceGets c b.toNat 5) (ceGets c (b.toNat + 5) 5) (nthPos box i) s) core k
            (box.foldl (fun n x => n * x) 1) (ceRoom c) s)

def execCeMvt (d a b : BitVec 5) (_n : BitVec 1) (s : State) : Host.Outcome State Fault Refusal := tileMove 0 0 d a b s
def execCeGat (d a b : BitVec 5) (_n : BitVec 1) (s : State) : Host.Outcome State Fault Refusal := tileMove 1 0 d a b s
def execCeScat (d a b : BitVec 5) (_n : BitVec 1) (s : State) : Host.Outcome State Fault Refusal := tileMove 0 1 d a b s

/-- Whether line request `j` of a context may be written: no earlier one writes the same line, and its move has not met poison. -/
def ceLineReady (c : CeCtx) (j : Nat) : Bool :=
  match c.moves[j]? with
  | none => false
  | some m => c.stuck != some m.1 && (c.moves.take j).all (fun e => e.2.2.all (fun p => m.2.2.all (fun q => destLine p != destLine q)))

/-- Writes line request `j` (R285); poison met now stops its move and parks the context at the instruction it would issue next (R280). -/
def ceLine (s : State) (core k j : Nat) : State :=
  let c := ceAt s core k
  let w := ceOwner s core k
  match c.moves[j]? with
  | none => s
  | some m =>
    if !ceLineReady c j || !m.2.2.all (Piece.mayMove s) then s
    else
      match moveLine s w core m.2.2 with
      | some s => settleCe (modCe s core k (fun c => { c with moves := c.moves.eraseIdx j })) core k
      | none =>
        let mine := c.moves.filter (fun e => e.1 == m.1)
        -- the elements that a move still in hand has not requested are left unwritten too (R280)
        let s := poisonUnits (poisonDest s w (mine.flatMap (fun e => e.2.2))) w (if m.1 = c.moveNo then c.left else [])
        let ea := ((m.2.2.find? (sourcePoisoned s w core)).map (fun p => p.ea)).getD 0
        let s := modCe s core k (fun c =>
          if 4 ≤ c.st then { c with moves := c.moves.filter (fun e => e.1 != m.1) } else { c with stuck := some m.1 })
        ceFault s core k m.2.1 9 0x15 ea

/-! Completion operations (R285, R292). -/

/-- Tests of an instruction's word and operands alone (R292): they park the context at the instruction. -/
def execCeArr (n a : BitVec 5) (s : State) : Host.Outcome State Fault Refusal :=
  withEngine s (fun core k s =>
    let bytes := ceGet (ceAt s core k) a.toNat
    if 16 ≤ n.toNat ∨ 2 ^ 27 ≤ bytes.toNat then ceFaultHere s core k ((0x19, 0), 0)
    else ceQueue s core k (.arr n.toNat bytes))
def execCeTagset (t : BitVec 6) (s : State) : Host.Outcome State Fault Refusal :=
  withEngine s (fun core k s =>
    if tagsOf s (ceOwner s core k) ≤ t.toNat then ceFaultHere s core k ((0x18, 0), 0) else ceQueue s core k (.tagset t.toNat))
def execCeRingCommit (n : BitVec 3) (s : State) : Host.Outcome State Fault Refusal :=
  withEngine s (fun core k s =>
    if ringsOf s (ceOwner s core k) ≤ n.toNat then ceFaultHere s core k ((0x1A, 1), 0) else ceQueue s core k (.commit n.toNat))
def execCePublish (a : BitVec 5) (s : State) : Host.Outcome State Fault Refusal :=
  withEngine s (fun core k s => ceQueue s core k (.publish ((ceGet (ceAt s core k) a.toNat).toNat % 4096)))

/-- A wait for a free slot, taken up again at each of the context's turns; an uninitialised ring has none to wait for. -/
def execCeRingWait (d : BitVec 5) (n : BitVec 3) (s : State) : Host.Outcome State Fault Refusal :=
  withEngine s (fun core k s =>
    let r := ringOf (wgAt s (ceOwner s core k)) n.toNat
    if ringsOf s (ceOwner s core k) ≤ n.toNat then ceFaultHere s core k ((0x1A, 1), 0)
    else if r.slots = 0 then ceFaultHere s core k ((0x1A, 3), 0)
    else if r.full.getLsbD r.pcur then modCe s core k (fun c => { c with st := 2 })
    else modCe s core k (fun c => ceNext (ceSet c d.toNat (BitVec.ofNat 64 r.pcur))))

def execCeWfb (s : State) : Host.Outcome State Fault Refusal :=
  withEngine s (fun core k s => modCe s core k (fun c => if c.moves.isEmpty then ceNext { c with cache := [] } else { c with st := 2 }))

/-- A completion operation that fails as it comes to take effect: the context parks, and keeps the operation. -/
def ceCompFault (s : State) (core k : Nat) (pc : DWord) (f : EngFault) : State :=
  ceFault (modCe s core k (fun c => { c with withheld := true, kept := c.comps.length })) core k pc (ceSubcode f.1.1) f.1.1 f.2 f.1.2

/-- Takes the first completion operation off; the workgroup is committed by it (R342). -/
def ceCompDone (s : State) (core k : Nat) : State :=
  let s := commitWg s (ceOwner s core k)
  settleCe (modCe s core k (fun c => { c with comps := c.comps.drop 1, kept := c.kept - 1, pubWait := none })) core k

/-- The first completion operation of a context takes effect, once the moves before it have written their lines; a `publish` is performed
first, and takes effect when every core has applied it. -/
def ceComp (s : State) (core k : Nat) : State :=
  let c := ceAt s core k
  let w := ceOwner s core k
  match c.comps with
  | [] => s
  | (before, pc, op) :: _ =>
    if c.withheld || 4 ≤ c.st || c.moves.any (fun m => decide (m.1 < before)) then s
    else
      match op with
      | .arr n bytes =>
        match arriveFault (barOf (wgAt s w) n) bytes.toNat with
        | some sub =>
          ceCompFault (engineArrive s w n bytes.toNat (2 + k) 6 k (headerPlace (pc.truncate 52))) core k pc ((0x19, sub), 0)
        | none => ceCompDone (engineArrive s w n bytes.toNat (2 + k) 6 k (headerPlace (pc.truncate 52))) core k
      | .tagset t => ceCompDone (setTag s w t) core k
      | .commit n =>
        let r := ringOf (wgAt s w) n
        match commitFault r with
        | some sub => ceCompFault s core k pc ((0x1A, sub), 0)
        | none => ceCompDone (testRing (modWg s w (fun g => setRing g n (commitRing r))) w n) core k
      | .publish n =>
        match c.pubWait with
        | some p => if pubsDone s [p] then ceCompDone s core k else s
        | none =>
          match performPublish s (wgAt s w).ctx n with
          | none => ceCompFault s core k pc ((0x1C, 2), 0)
          | some (p, s) => modCe (commitWg s w) core k (fun c => { c with pubWait := some p })
      | .stw ea v =>
        match touch s w .copy ea 4 true with
        | (s, .error f) => ceCompFault s core k pc (f, ea)
        | (s, .ok (x, _)) => if destSettled s x then ceCompDone (writeDest s w core x (leBytes 4 v.toNat)) core k else s

/-- The oldest `ldi` of a context returns. -/
def ceLdiLands (s : State) (core k : Nat) : State :=
  modCe s core k (fun c => match c.ldi with
    | [] => c
    | (d, v) :: rest => ceSet { c with ldi := rest } d v)

/-! Fetch and readiness (R285, R286). -/

/-- The instruction word at a context's PC, or the subcode, the underlying code and its subcode. -/
def ceFetch (s : State) (core k : Nat) : State × Except (Nat × Nat) Word :=
  let c := ceAt s core k
  let g := wgAt s (ceOwner s core k)
  if c.pc.toNat % 4 ≠ 0 then (s, .error (5, 0x12))
  else
    match access s core g.ctx (g.level == 2) c.pc .fetch with
    | (s, .error e) => (s, .error (2, e.1))
    | (s, .ok a) =>
      match a.loc with
      | .local l =>
        if poisoned s l 4 then (s, .error (2, 0x15))
        else let s := keyLine s (lineOf l) a.attr.key
             (s, .ok (memWord s l))
      | _ => let d := draw s
             (d.2, .ok (Config.freeWord d.1 0))

/-- The registers that an instruction of the copy engine touches. -/
def ceTouches (i : Instr) : List Nat :=
  let ten := fun (b : BitVec 5) => (List.range 10).map (fun j => b.toNat + j)
  let five := fun (b : BitVec 5) => (List.range 5).map (fun j => b.toNat + j)
  match i with
  | .ceAdd d a b | .ceSub d a b | .ceMul d a b | .ceMadd d a b | .ceAnd d a b | .ceOr d a b | .ceXor d a b | .ceShl d a b
  | .ceShr d a b | .ceMin d a b | .ceMax d a b | .ceMv d a b _ => [d.toNat, a.toNat, b.toNat]
  | .ceAddi d a _ | .ceLui d a _ | .ceOri d a _ | .ceLdi d a _ | .ceLdi64 d a _ | .ceStw d a _ => [d.toNat, a.toNat]
  | .ceBeq a b _ | .ceBne a b _ | .ceBlt a b _ | .ceBge a b _ => [a.toNat, b.toNat]
  | .ceJmp a _ | .ceLoopSet _ a _ | .ceArr _ a | .cePublish a => [a.toNat]
  | .ceTadr d a b | .ceTnext d a b => [d.toNat, a.toNat] ++ five b
  | .ceMvt d a b _ | .ceGat d a b _ | .ceScat d a b _ => [d.toNat, a.toNat] ++ ten b
  | .ceRingWait d _ => [d.toNat]
  | _ => []

/-- Whether an instruction is a move. -/
def ceIsMove (i : Instr) : Bool :=
  match i with
  | .ceMv .. | .ceMvt .. | .ceGat .. | .ceScat .. => true
  | _ => false

/-- Whether a context's next instruction may issue (R285); a waiting one takes its wait up again when it has ended. -/
def ceMayIssue (s : State) (core k : Nat) (i : Instr) : Bool :=
  let c := ceAt s core k
  !(ceTouches i).any (fun r => c.ldi.any (fun l => l.1 == r && r != 0)) && !(ceIsMove i && ceRoom c == 0)
    && (match i with
        | .ceRingWait _ n =>
          let r := ringOf (wgAt s (ceOwner s core k)) n.toNat
          c.st == 1 || !r.full.getLsbD r.pcur
        | .ceWfb => c.st == 1 || c.moves.isEmpty
        | _ => true)

/-- Whether a context is running or waiting, has its drain behind it (R283), and has performed the completion operations that it kept (R294). -/
def ceLive (s : State) (core k : Nat) : Bool :=
  let c := ceAt s core k
  (c.st == 1 || c.st == 2) && !c.halting && c.kept == 0 && (match c.drain with
    | some n => squadDrained s (ceOwner s core k) c.sq n
    | none => true)

end Sys2Proof.Machine
end

