-- ==== Sys2Proof/Machine/VecMem.lean ====
section
/-! DEFINITION. The instructions of class MEM: loads, stores, acquire and release forms, fences, atomics, typed-buffer accesses, prefetch and
invalidation (R175 to R182, R195 to R208). -/

namespace Sys2Proof.Machine

/-! Sending requests to other devices (R195, R196, R224, R296, R299, R300). -/

/-- The most bytes of a payload that goes without a grant (R300). -/
def smallBytes : Nat := 256

/-- Whether traffic of the engines has not left: it waits for the window, or a remap holds it. -/
def keepsBack (s : State) (p : Outgoing → Bool) : Bool := s.fab.waitOut.any (fun x => p x.2) || s.fab.heldOut.any p

/-- The announcement or the payload of a send, or the announcement of a collective's tile. -/
def isPayloadOf (k : Nat) (x : Outgoing) : Bool :=
  match x with
  | .announce j _ => j == k
  | .message j _ => j == k
  | _ => false

/-- The request of a number. -/
def isRequest (k : Nat) (x : Outgoing) : Bool :=
  match x with
  | .request j _ _ => j == k
  | _ => false

/-- Whether the announcement or the small message of a send has left and is not answered: by a grant, or by the outcome. -/
def sendUnanswered (s : State) (k : Nat) (op : SendOp) : Bool :=
  op.seq.isSome && op.fate.isNone && (if op.len ≤ smallBytes then op.sent else op.granted == 0) && !keepsBack s (isPayloadOf k)

/-- The device of a rank of a collective's communicator. -/
def memberOf (s : State) (c : Coll) (r : Nat) : Nat := (((Map.find s.fab.comms c.comm).map (fun m => m.members)).getD []).getD r 0

/-- The members of a device that have not answered the announcement of a collective's tile. -/
def collUnanswered (s : State) (k dev : Nat) (c : Coll) : Nat :=
  if c.own.isSome && !keepsBack s (isPayloadOf k)
  then (c.group.filter (fun r => r != c.rank && memberOf s c r == dev && (Map.find c.given r).isNone)).length else 0

/-- The small operations outstanding towards a device (R300): stores and atomics that have left, loads that have been sent, small messages, announcements
and status words. Signatures, acknowledgements and heartbeats wait for the window too; no event of the spec answers them, and the model takes them as
answered when they leave (DESIGN CHOICE, log entry 87). -/
def outstanding (s : State) (dev : Nat) : Nat :=
  (s.fab.sends.filter (fun x => x.2.ddev == dev && sendUnanswered s x.1 x.2)).length
    + s.fab.colls.foldl (fun n c => n + collUnanswered s c.1 dev c.2) 0
    + (s.fab.statuses.filter (fun x => x.2.dev == dev && !keepsBack s (isRequest x.1))).length
    + (s.flights.filter (fun f => match f.2.ln.loc with
    | .remote d _ => d == dev
    | _ => false)).length
    + s.wgs.foldl (fun n g => g.squads.foldl (fun n q => n + (q.loads.filter (fun p => match p.2.src with
        | .far d _ sent => d == dev && sent
        | _ => false)).length) n) 0

/-- Whether `n` more requests may be sent to an address of a device. -/
def maySend (s : State) (dev a n : Nat) : Bool := !heldAtSource s a && decide (outstanding s dev + n ≤ Config.window)

/-- A request of a workgroup's context. -/
def requestOf (s : State) (w a : Nat) (x : RemoteAccess) : RemoteRequest :=
  { src := Config.ownDevice, ctx := BitVec.ofNat 16 (wgAt s w).ctx, local40 := BitVec.ofNat 41 a, access := x }

/-- What a lane of a store-queue entry asks of another device. -/
def StLane.asks (l : StLane) (flush : Bool) : RemoteAccess :=
  match l.atom with
  | some (.op f ty x) => .atom f ty x flush
  | some (.cas ty c n) => .cas ty c n
  | none => .store l.bytes

/-! When a load takes its value (R176, R216, R224). -/

/-- Where a load's data comes from, at its issue: when the thread has no older load to wait for and its own queued store holds all the bytes, its value
is taken at once (R176, R216). -/
def startSrc (sq : Squad) (lb lane seq : Nat) (loc : Loc) (size : Nat) (later : LoadSrc) : LoadSrc :=
  if loadAhead sq lb lane seq then later
  else match forward sq lb lane seq loc size with
    | .data bs => .value (BitVec.ofNat 128 (leNat bs))
    | _ => later

/-- Whether the request of a remote load may be sent: its thread's older loads are taken, no older queued store and no older unsent load of its squad meets
its bytes, and the fabric takes it (R176, R216, R224, R299, R300). -/
def sendTurn (s : State) (w q : Nat) (p : Pend) (dev a : Nat) : Bool :=
  let sq := sqAt s w q
  !loadAhead sq p.lb p.lane p.seq
    && !sq.stq.any (fun e => decide (e.seq < p.seq) && e.lanes.any (fun l => l.loc.same (.remote dev a) l.size p.size))
    && !sq.loads.any (fun x => decide (x.2.seq < p.seq) && (match x.2.src with
        | .far d b sent => !sent && (Loc.remote d b).same (.remote dev a) x.2.size p.size
        | _ => false))
    && maySend s dev a 1

/-- Sends the requests of a squad's remote loads that may be sent. -/
def sendLoads (s : State) (w q : Nat) : State :=
  (sqAt s w q).loads.foldl (fun s p => match p.2.src with
    | .far dev a false =>
      if sendTurn s w q p.2 dev a then
        { modSq s w q (fun sq => { sq with loads := Map.put sq.loads p.1 { p.2 with src := .far dev a true } }) with
          out := s.out ++ [.request p.1 dev (requestOf s w a (.load p.2.size))] }
      else s
    | _ => s) s

/-! What an instruction leaves in the squad (R175, R176, R195). -/

/-- What a lane that passed its checks leaves: a part of the bundle's store-queue entry, and what its thread waits for. -/
structure LaneOut where
  st : Option StLane := none
  why : Option Wait := none
  mix : Bool := false

/-- The shape of the MEM instructions (R197): the encoding's alignment; each guard-true lane checked and performed in ascending order, with
the instruction's number among the squad's accesses; one store-queue entry for the lanes that store; the failed lanes park; the others wait
for what they must, and for the last check. -/
def memOp (al : List (BitVec 6 × Nat)) (o : Opnds) (slots : List Nat) (scope : Nat) (release atomic : Bool)
    (f : State → Bundle → Nat → Nat → Staged → State × Except ((Nat × Nat) × BitVec 64) LaneOut) (u : Bundle) (s : State) : State :=
  if al.any (fun p => misaligned p.1 p.2) then encodingFault s u (faultInfo 0x05 0)
  else
    let g := activeMask s u
    let st := stage s u o
    let seq := (sqAt s u.wg u.sq).seq
    let s := if g = 0 then s else modSq s u.wg u.sq (fun sq => { sq with seq := seq + 1 })
    let r := eachLane s g (fun s l =>
      match f s u seq l (st l) with
      | (s, .ok x) => (s, .ok x)
      | (s, .error e) => (s, .error (laneFault e.1 e.2 (stagedWords o (st l) slots))))
    let sts := r.2.1.filterMap (fun p => p.2.st)
    let s := if sts.isEmpty then r.1
      else modSq r.1 u.wg u.sq (fun sq => { sq with stq := sq.stq ++
        [{ seq := seq, lb := u.e.lb, lanes := sts, scope := scope, release := release, atomic := atomic }] })
    let s := noteMix s u (r.2.1.any (fun p => p.2.mix))
    let s := parkFailed s u g st r.2.2
    let s := if r.2.1.any (fun p => p.2.why.isSome) then sendLoads s u.wg u.sq else s
    let free := maskIn (r.2.1.filter (fun p => p.2.why.isNone))
    let s := (holdPlaces s u (maskIn r.2.1 &&& ~~~free)).2
    let whys := (r.2.1.filterMap (fun p => p.2.why)).dedup
    let s := whys.foldl (fun s y => wait s u (maskIn (r.2.1.filter (fun p => p.2.why == some y))) y u.next) s
    awaitCheck s u free

/-- Whether a flight of a squad is to a remote device. -/
def isFar (f : Flight) : Bool :=
  match f.ln.loc with
  | .remote _ _ => true
  | _ => false

/-- Starts a load of one lane whose access passed. -/
def startLoad (s : State) (u : Bundle) (seq l : Nat) (d : BitVec 6) (size : Nat) (fmt : LoadFmt) (home acq : Bool) (ea : DWord) (st : Staged)
    (p : Passed) : State × LaneOut :=
  let r := newId s
  let far := match p.acc.loc with
    | .remote _ _ => true
    | _ => false
  let src : LoadSrc := startSrc (sqAt s u.wg u.sq) u.e.lb l seq p.acc.loc size (match p.acc.loc with
    | .remote d a => .far d a false
    | .local a => .mem a p.acc.attr (home || p.acc.attr.det)
    | .sbuf o => .sbuf o)
  let pend : Pend := { seq := seq, lb := u.e.lb, lane := l, d := d, size := size, fmt := fmt, src := src, place := u.e.place, ea := ea, staged := st
                       shown := [], acq := acq }
  (modSq r.2 u.wg u.sq (fun sq => { sq with loads := Map.put sq.loads r.1 pend }),
   { why := if far then some (.far r.1) else none, mix := p.mix })

/-- The words a value of `n` bytes takes in registers. -/
def regWords (n : Nat) : Nat := max 1 (n / 4)

/-- A lane's address: the base pair plus a scaled offset (R44, R197). -/
def laneAddr (base : DWord) {w : Nat} (o : BitVec w) (size : Nat) : DWord := base + o.signExtend 64 * BitVec.ofNat 64 size

/-! Plain loads and stores (R198). -/

def loadOp (size : Nat) (fmt : LoadFmt) {w : Nat} (d a : BitVec 6) (o : BitVec w) (home acq : Bool) : Bundle → State → State :=
  memOp [(a, 2), (d, regWords size)] { a := some (own a 2) } [] 0 false false (fun s u seq l st =>
    let ea := laneAddr (w64 st.a) o size
    match laneAccess s u.wg ea size size .load detRemote true true with
    | (s, .error e) => (s, .error (e, ea))
    | (s, .ok p) => let r := startLoad s u seq l d size fmt home acq ea st p
                    (r.1, .ok r.2))

/-- A posted remote fault that a release at `.dom` must report in its lowest guard-true lane (R196), when it is known at the issue; one that comes while
the release waits in the queue is reported when the release leaves (`releaseFault`). -/
def remoteDue (s : State) (u : Bundle) (l : Nat) (dom : Bool) : Option (Nat × Nat × Nat) :=
  if dom && l == lowest (activeMask s u) then (sqAt s u.wg u.sq).remoteErr else none

def storeOp (size : Nat) {w : Nat} (r a : BitVec 6) (o : BitVec w) (scope : Nat) (release : Bool) : Bundle → State → State :=
  memOp [(a, 2), (r, regWords size)] { d := some (own r (regWords size)), a := some (own a 2) } [0] scope release false
    (fun s u _ l st =>
      let ea := laneAddr (w64 st.a) o size
      match laneAccess s u.wg ea size size .store detRemote false true with
      | (s, .error e) => (s, .error (e, ea))
      | (s, .ok p) =>
        match remoteDue s u l (release && scope == 5) with
        | some e => (modSq s u.wg u.sq (fun sq => { sq with remoteErr := none }), .error ((e.1, e.2.1), BitVec.ofNat 64 e.2.2))
        | none =>
          (s, .ok { st := some { lane := l, ea := ea, loc := p.acc.loc, attr := p.acc.attr, bytes := leBytes size st.d.toNat, atom := none, ret := none
                                 ord := none, place := u.e.place, staged := st
                                 shown := stagedWords { d := some (own r (regWords size)), a := some (own a 2) } st [0] }
                    mix := p.mix }))

def execLdB8 (d a : BitVec 6) (o : BitVec 10) (s : State) : Host.Outcome State Fault Refusal :=
  withBundle s (loadOp 1 .zext d a o false false)
def execLdI8 (d a : BitVec 6) (o : BitVec 10) (s : State) : Host.Outcome State Fault Refusal :=
  withBundle s (loadOp 1 .sext d a o false false)
def execLdB16 (d a : BitVec 6) (o : BitVec 10) (s : State) : Host.Outcome State Fault Refusal :=
  withBundle s (loadOp 2 .zext d a o false false)
def execLdI16 (d a : BitVec 6) (o : BitVec 10) (s : State) : Host.Outcome State Fault Refusal :=
  withBundle s (loadOp 2 .sext d a o false false)
def execLdB32 (d a : BitVec 6) (o : BitVec 10) (s : State) : Host.Outcome State Fault Refusal :=
  withBundle s (loadOp 4 .zext d a o false false)
def execLdB64 (d a : BitVec 6) (o : BitVec 10) (s : State) : Host.Outcome State Fault Refusal :=
  withBundle s (loadOp 8 .zext d a o false false)
def execLdB128 (d a : BitVec 6) (o : BitVec 10) (s : State) : Host.Outcome State Fault Refusal :=
  withBundle s (loadOp 16 .zext d a o false false)
def execStB8 (r a : BitVec 6) (o : BitVec 10) (s : State) : Host.Outcome State Fault Refusal :=
  withBundle s (storeOp 1 r a o 0 false)
def execStB16 (r a : BitVec 6) (o : BitVec 10) (s : State) : Host.Outcome State Fault Refusal :=
  withBundle s (storeOp 2 r a o 0 false)
def execStB32 (r a : BitVec 6) (o : BitVec 10) (s : State) : Host.Outcome State Fault Refusal :=
  withBundle s (storeOp 4 r a o 0 false)
def execStB64 (r a : BitVec 6) (o : BitVec 10) (s : State) : Host.Outcome State Fault Refusal :=
  withBundle s (storeOp 8 r a o 0 false)
def execStB128 (r a : BitVec 6) (o : BitVec 10) (s : State) : Host.Outcome State Fault Refusal :=
  withBundle s (storeOp 16 r a o 0 false)

/-! Acquire loads, release stores, fences (R199, R200). -/

/-- At `.cl` and wider the load is performed at its home slice, and the core's L1 lines go before a later load of the thread (R199). -/
def execLdAcq (d a : BitVec 6) (o : BitVec 8) (sc : BitVec 3) (sg : BitVec 1) (z : BitVec 3) (s : State) : Host.Outcome State Fault Refusal :=
  let wide := decide (2 ≤ sc.toNat)
  withBundle s (loadOp (2 ^ z.toNat) (if sg = 1 then .sext else .zext) d a o wide wide)

def execStRel (r a : BitVec 6) (o : BitVec 8) (sc z : BitVec 3) (s : State) : Host.Outcome State Fault Refusal :=
  withBundle s (storeOp (2 ^ z.toNat) r a o sc.toNat true)

/-- Whether a fence of a scope is done for threads of a lane block (R200, R216): the store queue is empty and their loads have taken their
values; at `.cl` and wider every store is acknowledged, at `.dom` the posted remote ones too. -/
def fenceDone (s : State) (w q lb : Nat) (m : BitVec 32) (scope : Nat) : Bool :=
  (sqAt s w q).stq.isEmpty
    && !(sqAt s w q).loads.any (fun p => p.2.lb == lb && inMask m p.2.lane)
    && (scope < 2 || !s.flights.any (fun f => f.2.wg == w && f.2.sq == q && !isFar f.2))
    && (scope < 5 || !s.flights.any (fun f => f.2.wg == w && f.2.sq == q && isFar f.2))

/-- Parks the lowest thread of `m` at a fence with a pending remote fault (R196), and answers who is left. -/
def fenceFault (s : State) (w q lb scope : Nat) (m : BitVec 32) (p : Place) : State × BitVec 32 :=
  match (sqAt s w q).remoteErr with
  | some e =>
    if scope = 5 ∧ m ≠ 0 then
      let l := lowest m
      let s := modSq s w q (fun sq => { sq with remoteErr := none })
      let s := parkThreads s w q lb [l] p (fun _ => .go false)
      (reportThread s w q lb l (threadRecord s w q lb l (Cls.code (clauseClass p.hdr)) p
        { faultInfo e.1 e.2.1 with faddr := BitVec.ofNat 64 e.2.2 }), m &&& ~~~((1#32) <<< l))
    else (s, m)
  | none => (s, m)

/-- Ends the fences of a squad that are done: at `.cl` and wider the core's L1 lines go first. -/
def testFences (s : State) (w q : Nat) : State :=
  (sqAt s w q).waiters.foldl (fun s x =>
    match x.why with
    | .fence sc _ =>
      if fenceDone s w q x.lb x.mask sc then
        let s := if sc < 2 then s else l1Invalidate s (wgAt s w).core
        let s := modSq s w q (fun sq => { sq with waiters := sq.waiters.erase x })
        let r := fenceFault s w q x.lb sc x.mask x.stand
        if r.2 = 0 then r.1 else reenter r.1 w q [(x.lb, r.2, x.next)] 2
      else s
    | _ => s) s

def execFence (sc : BitVec 3) (s : State) : Host.Outcome State Fault Refusal :=
  withBundle s (fun u s =>
    let g := activeMask s u
    let s := advance s u (u.e.mask &&& ~~~g)
    if g = 0 then s
    else if fenceDone s u.wg u.sq u.e.lb g sc.toNat then
      let s := if sc.toNat < 2 then s else l1Invalidate s (wgAt s u.wg).core
      let r := fenceFault s u.wg u.sq u.e.lb sc.toNat g u.e.place
      awaitCheck r.1 u r.2
    else wait s u g (.fence sc.toNat (sqAt s u.wg u.sq).seq) u.next)

/-! Atomics (R201 to R203, R208). -/

/-- The ordered-update fault of an atomic on a DET page (R208): a remote one, a returning one, and a sequence number of 2^32. -/
def atomOrder (returning : Bool) (next : Nat) (a : Acc) : Option Nat :=
  match detRemote a with
  | some sub => some sub
  | none => if a.attr.det then (if returning then some 1 else if 2 ^ 32 ≤ next then some 3 else none) else none

/-- The shape of the atomics: checked, then queued like a store; the old value returns to d, or the update is ordered (R208). -/
def atomOp (returning : Bool) (ty : BitVec 5) (sc : BitVec 3) (op : Staged → AtomOp) (al : List (BitVec 6 × Nat)) (o : Opnds) (slots : List Nat)
    (d : BitVec 6) : Bundle → State → State :=
  let size := atomBytes ty
  memOp al o slots sc.toNat (decide (2 ≤ sc.toNat)) true (fun s u seq l st =>
    let ea := w64 st.a
    let tid := u.sq * 512 + u.e.lb * 32 + l
    let next := Map.getD (wgAt s u.wg).ordSeq tid 0
    match laneAccess s u.wg ea size size .atomic (atomOrder returning next) true true with
    | (s, .error e) => (s, .error (e, ea))
    | (s, .ok p) =>
      let ordered := p.acc.attr.det
      let far := match p.acc.loc with
        | .remote _ _ => true
        | _ => false
      let r := newId s
      let pend : Pend := { seq := seq, lb := u.e.lb, lane := l, d := d, size := size, fmt := .zext, src := .await, place := u.e.place
                           ea := ea, staged := st, shown := stagedWords o st slots, acq := decide (2 ≤ sc.toNat) }
      let s := if returning then modSq r.2 u.wg u.sq (fun sq => { sq with loads := Map.put sq.loads r.1 pend }) else r.2
      let s := if ordered then modWg s u.wg (fun g => { g with committed := true, ordSeq := Map.put g.ordSeq tid (next + 1) }) else s
      (s, .ok { st := some { lane := l, ea := ea, loc := p.acc.loc, attr := p.acc.attr, bytes := [], atom := some (op st)
                             ret := if returning then some r.1 else none, ord := if ordered then some next else none
                             place := u.e.place, staged := st, shown := stagedWords o st slots }
                why := if returning && far then some (.far r.1) else if sc.toNat < 2 then some (.atomAck seq) else none
                mix := p.mix }))

def execAtom (d a b : BitVec 6) (n : BitVec 2) (ty : BitVec 5) (sc : BitVec 3) (r : BitVec 1) (op : BitVec 3) (s : State) :
    Host.Outcome State Fault Refusal :=
  let w := atomBytes ty / 4
  withBundle s (atomOp (r == 1) ty sc (fun st => .op op ty (w64 st.b)) ([(a, 2), (b, w)] ++ (if r = 1 then [(d, w)] else []))
    { a := some (own a 2), b := some ⟨b, n, w⟩ } [2] d)

def execAtomCas (d a b : BitVec 6) (n : BitVec 2) (c : BitVec 6) (k : BitVec 2) (ty : BitVec 5) (sc : BitVec 3) (s : State) :
    Host.Outcome State Fault Refusal :=
  let w := atomBytes ty / 4
  withBundle s (atomOp true ty sc (fun st => .cas ty (w64 st.b) (w64 st.c)) [(a, 2), (b, w), (c, w), (d, w)]
    { a := some (own a 2), b := some ⟨b, n, w⟩, c := some ⟨c, k, w⟩ } [2, 3] d)

/-- What an atomic leaves in its word (R201, R202). -/
def AtomOp.apply (flush : Bool) (x : AtomOp) (old : DWord) : DWord :=
  match x with
  | .op f ty v => atomApply flush f ty old v
  | .cas ty c n =>
    let w := 2 ^ (8 * atomBytes ty)
    if old.toNat % w = c.toNat % w then BitVec.ofNat 64 (n.toNat % w) else BitVec.ofNat 64 (old.toNat % w)

/-! Typed-buffer access (R179, R181, R182, R204, R205). -/

/-- The size of a typed-buffer code (R44). -/
def bufSize (z : BitVec 2) : Nat := 4 * 2 ^ z.toNat

/-- An effective offset (R204). -/
def bufOffset (base : Word) {w : Nat} (o : BitVec w) (size : Nat) : Int := base.toNat + o.toInt * size

/-- A typed-buffer load of the lane's workgroup, or another's. Its value is taken in its port cycle, or, behind an older load of its thread whose value is
still to come, in its turn after that (R216, R225). -/
def bufLoad (size : Nat) {w : Nat} (d a : BitVec 6) (o : BitVec w) (spc : Nat) (from_ : State → Bundle → Nat) : Bundle → State → State :=
  memOp [(d, regWords size)] { a := some (own a 1) } [] 0 false false (fun s u seq l st =>
    let off := bufOffset (w32 st.a) o size
    let addr := BitVec.ofInt 64 off
    let v := from_ s u
    match bufCheck s v spc off size with
    | some e => (s, .error (e, addr))
    | none =>
      if bufPoisoned (wgAt s v) spc off.toNat size then (s, .error ((0x15, 0), addr))
      else
        let sq := sqAt s u.wg u.sq
        let r := newId s
        let got : State × LoadSrc :=
          if spc = 4 then
            (r.2, match forward sq u.e.lb l seq (.sbuf off.toNat) size with
              | .none => if loadAhead sq u.e.lb l seq then .sbuf off.toNat
                         else .value (BitVec.ofNat 128 (leNat (bufRead (wgAt s v) 4 off.toNat size)))
              | _ => startSrc sq u.e.lb l seq (.sbuf off.toNat) size (.sbuf off.toNat))
          else if loadAhead sq u.e.lb l seq then (r.2, .buf v spc off.toNat)
          else
            let b := bufBytes r.2 v spc off.toNat size
            (b.1, .value (BitVec.ofNat 128 (leNat b.2)))
        let pend : Pend := { seq := seq, lb := u.e.lb, lane := l, d := d, size := size, fmt := .zext, src := got.2, place := u.e.place, ea := addr
                             staged := st, shown := [], acq := false }
        (modSq got.1 u.wg u.sq (fun sq => { sq with loads := Map.put sq.loads r.1 pend }), .ok {}))

/-- The issuing workgroup itself. -/
def ownWg (_ : State) (u : Bundle) : Nat := u.wg

/-- A typed-buffer store in its port cycle; into an open run it leaves the run unspecified. -/
def bufStore (size : Nat) {w : Nat} (r a : BitVec 6) (o : BitVec w) (spc : Nat) : Bundle → State → State :=
  memOp [(r, regWords size)] { d := some (own r (regWords size)), a := some (own a 1) } [0] 0 false false (fun s u _ l st =>
    let off := bufOffset (w32 st.a) o size
    match bufCheck s u.wg spc off size with
    | some e => (s, .error (e, BitVec.ofInt 64 off))
    | none =>
      if spc = 4 then
        (s, .ok { st := some { lane := l, ea := BitVec.ofInt 64 off, loc := .sbuf off.toNat, attr := physAttr, bytes := leBytes size st.d.toNat, atom := none, ret := none
                               ord := none, place := u.e.place, staged := st, shown := [] } })
      else (modWg s u.wg (fun g =>
        let g := bufWrite g spc off.toNat (leBytes size st.d.toNat)
        if spc = 3 then spoilRuns g off.toNat size none else g), .ok {}))

def execLbw (d a : BitVec 6) (z : BitVec 2) (o : BitVec 6) (s : State) : Host.Outcome State Fault Refusal :=
  withBundle s (bufLoad (bufSize z) d a o 1 ownWg)
def execLba (d a : BitVec 6) (z : BitVec 2) (o : BitVec 6) (s : State) : Host.Outcome State Fault Refusal :=
  withBundle s (bufLoad (bufSize z) d a o 2 ownWg)
/-- Issues when no matrix operation that writes the region is outstanding (R182). -/
def execLbc (d a : BitVec 6) (z : BitVec 2) (o : BitVec 6) (s : State) : Host.Outcome State Fault Refusal :=
  withBundle s (bufLoad (bufSize z) d a o 3 ownWg)
def execLbs (d a : BitVec 6) (z : BitVec 2) (o : BitVec 6) (s : State) : Host.Outcome State Fault Refusal :=
  withBundle s (bufLoad (bufSize z) d a o 4 ownWg)
def execSba (r a : BitVec 6) (z : BitVec 2) (o : BitVec 6) (s : State) : Host.Outcome State Fault Refusal :=
  withBundle s (bufStore (bufSize z) r a o 2)
/-- Issues when no matrix operation that writes the region is outstanding (R182). -/
def execSbc (r a : BitVec 6) (z : BitVec 2) (o : BitVec 6) (s : State) : Host.Outcome State Fault Refusal :=
  withBundle s (bufStore (bufSize z) r a o 3)
def execSbs (r a : BitVec 6) (z : BitVec 2) (o : BitVec 6) (s : State) : Host.Outcome State Fault Refusal :=
  withBundle s (bufStore (bufSize z) r a o 4)

/-- The member of the issuing workgroup's gang on a core of its cluster (R205); beyond the list when none is placed there. -/
def clusterMember (s : State) (w core : Nat) : Nat :=
  ((clusterMembers s (wgAt s w).core).find? (fun v => (wgAt s v).core % 4 == core)).getD s.wgs.length

def execLbx (d a : BitVec 6) (o : BitVec 8) (core : BitVec 2) (buf : BitVec 1) (z : BitVec 2) (s : State) : Host.Outcome State Fault Refusal :=
  withBundle s (fun u s =>
    let op := bufLoad (bufSize z) d a o (if buf = 0 then 1 else 2) (fun s u => clusterMember s u.wg core.toNat)
    if misaligned d (regWords (bufSize z)) ∨ (wgAt s u.wg).aligned ∨ activeMask s u = 0 then op u s
    else ownFault s u (faultInfo 0x1D 3))

/-! Prefetch and invalidation (R206, R207). -/

/-- What is tested after a change of a squad's loads and stores: the sending of its remote loads, its fences, its clause waits, its records. -/
def afterMem (s : State) (w q : Nat) : State := settleRecords (testClauses (testFences (sendLoads s w q) w q) w q)

/-- Ends the wait of the threads of an atomic of `.sq` or `.wg` once none of its lanes is on its way (R203). -/
def testAtomAck (s : State) (w q lb seq : Nat) : State :=
  if s.flights.any (fun f => f.2.wg == w && f.2.sq == q && f.2.lb == lb && f.2.seq == seq)
    || (sqAt s w q).stq.any (fun e => e.lb == lb && e.seq == seq) then s
  else endWaits s w q (fun x => x.lb == lb && x.why == .atomAck seq)

/-- A flight ends: it is acknowledged. -/
def ackFlight (s : State) (id : Nat) (f : Flight) : State :=
  afterMem (testAtomAck { s with flights := Map.del s.flights id } f.wg f.sq f.lb f.seq) f.wg f.sq

/-- Acknowledges what a core has had performed in a line, before the home slice gives the core the line: a line fill, which merges every store that is not
acknowledged, then never lays an older write over a younger one, as R217 and R222 demand (DEDUCED, log entry 64). -/
def ackLine (s : State) (core line : Nat) : State :=
  s.flights.foldl (fun s f => match f.2.ln.loc with
    | .local a => if f.2.core = core ∧ f.2.performed ∧ lineOf a = line then ackFlight s f.1 f.2 else s
    | _ => s) s

/-- A prefetch to both levels fills the L1 line of each lane's address where a load would; nothing faults (R206). Two points are the model's choice (DESIGN
CHOICE, log entry 65): the page's contract stamp is not checked, since a prefetch delivers no data and R194 names no outcome for one; and the line
filled is like one that a load filled, so that a later plain load may find it stale (R223). -/
def execPref (a : BitVec 6) (lv : BitVec 1) (s : State) : Host.Outcome State Fault Refusal :=
  withBundle s (memOp [(a, 2)] { a := some (own a 2) } [] 0 false false (fun s u _ _ st =>
    let g := wgAt s u.wg
    match access s g.core g.ctx (g.level == 2) (w64 st.a) .load with
    | (s, .error _) => (s, .ok {})
    | (s, .ok p) =>
      match p.loc with
      | .local x =>
        if lv = 1 ∨ !p.attr.l1 ∨ poisoned s (lineOf x * 128) 128 then (s, .ok {})
        else
          let y := lineOf (frontLoc s g.core x p.attr)
          ((loadBytes (ackLine s g.core y) g.core (lineOf x * 128) 128 p.attr false).1, .ok {})
      | _ => (s, .ok {})))

def execL1Inv (s : State) : Host.Outcome State Fault Refusal :=
  withBundle s (fun u s =>
    let g := activeMask s u
    let s := if g = 0 then s else l1Invalidate s (wgAt s u.wg).core
    awaitCheck (advance s u (u.e.mask &&& ~~~g)) u g)

end Sys2Proof.Machine
end

