-- ==== Sys2Proof/Machine/Fabric.lean ====
section
/-! DEFINITION. Messages and collectives: the instructions `send`, `recv.post`, `recv.cancel`, `recv.probe` and `tcp.coll`, and the send,
receive and collective engines (R300 to R323). -/

namespace Sys2Proof.Machine

/-! What the engines send, and pacing (R299, R300). -/

/-- Sends a piece of message or collective traffic; a remap under way holds it. -/
def emitFab (s : State) (x : Outgoing) : State :=
  if s.fab.quiesced.isSome then { s with fab := { s.fab with heldOut := s.fab.heldOut ++ [x] } } else { s with out := s.out ++ [x] }

/-- Sends the small operations that the window has room for, oldest first; those to one device stay in order (R300). -/
def releaseSmall (s : State) : State :=
  (s.fab.waitOut.foldl (fun (acc : State × List Nat) x =>
    if x.1.any (fun d => acc.2.contains d || decide (Config.window ≤ outstanding acc.1 d)) then (acc.1, acc.2 ++ x.1)
    else (emitFab { acc.1 with fab := { acc.1.fab with waitOut := acc.1.fab.waitOut.erase x } } x.2, acc.2)) (s, [])).1

/-- Sends a small operation to devices, or lets it wait at the source until the window has room. -/
def emitSmall (s : State) (devs : List Nat) (x : Outgoing) : State :=
  releaseSmall { s with fab := { s.fab with waitOut := s.fab.waitOut ++ [(devs, x)] } }

/-- The most bytes of a payload that goes eagerly. -/
def eagerBytes : Nat := 65536

/-! Shared pieces (R301 to R303). -/

/-- Applies a checked operation to each element of a list in order, until one fails. -/
def collect {α β : Type} (f : State → α → State × Except EngFault β) : List α → State → State × Except EngFault (List β)
  | [], s => (s, .ok [])
  | x :: xs, s =>
    match f s x with
    | (s, .error e) => (s, .error e)
    | (s, .ok y) =>
      match collect f xs s with
      | (s, .error e) => (s, .error e)
      | (s, .ok ys) => (s, .ok (y :: ys))

/-- Reads an aligned record of `n` words at a virtual address. -/
def readDesc (s : State) (w : Nat) (va : DWord) (al n : Nat) : State × Except EngFault (List Word) :=
  if va.toNat % al ≠ 0 then (s, .error ((0x12, 0), va))
  else
    match globalOnly va with
    | some f => (s, .error f)
    | none =>
      match readWords s w .fabric va n with
      | (s, .error f) => (s, .error f)
      | (s, .ok (ws, _)) => (s, .ok ws)

/-- A status word's page is checked for translation and `W` permission (R301). -/
def checkStatus (s : State) (w a : Nat) : State × Option EngFault :=
  let g := wgAt s w
  match access s g.core g.ctx (g.level == 2) (BitVec.ofNat 64 a) .engineWrite with
  | (s, .error e) => (s, some (e, BitVec.ofNat 64 a))
  | (s, .ok _) => (s, none)

/-- What follows a status word: the completion tag is set, or the engine arrives. -/
def finishStatus (s : State) (w : Nat) : StatusNext → State
  | .none => s
  | .tag t => setTag s w t
  | .arrive x => engineArrive s w x 0 7 7 0 (headerPlace 0)

/-- The record of a status word that could not be written, with the underlying code (R301). -/
def statusLost (s : State) (x : StatusOut) (ucode : Nat) : State :=
  postRecord s x.die (engineRecord s x.wg 7 0 0 { faultInfo x.code x.sub with ucode := ucode, faddr := BitVec.ofNat 64 x.ea, eng := true })

/-- Writes a status word in place, or a record when its page no longer takes it, and goes on with what follows (R301). One of another device's memory goes there
as a store; what follows waits for the answer. -/
def writeStatus (s : State) (w a : Nat) (ws : List Word) (code sub die : Nat) (next : StatusNext) : State :=
  let g := wgAt s w
  match access s g.core g.ctx (g.level == 2) (BitVec.ofNat 64 a) .engineWrite with
  | (s, .ok x) =>
    match x.loc with
    | .local l => finishStatus (performWrite s l x.attr.key (ws.flatMap bytesOfWord)) w next
    | .remote d l =>
      let id := newId s
      let o : StatusOut := { wg := w, dev := d, ea := a, code := code, sub := sub, die := die, next := next }
      emitSmall { id.2 with fab := { id.2.fab with statuses := Map.put id.2.fab.statuses id.1 o } } [d]
        (.request id.1 d (requestOf s w l (.store (ws.flatMap bytesOfWord))))
    | .sbuf _ => finishStatus s w next
  | (s, .error e) =>
    finishStatus (statusLost s { wg := w, dev := 0, ea := a, code := code, sub := sub, die := die, next := next } e.1) w next

/-- Another device answers status word `k`, or does not: with the code of the failure, if there is one. -/
def statusAnswered (s : State) (k : Nat) (failed : Option Nat) : State :=
  match Map.find s.fab.statuses k with
  | none => s
  | some x =>
    if keepsBack s (isRequest k) then s
    else
      let s := { s with fab := { s.fab with statuses := Map.del s.fab.statuses k } }
      finishStatus (match failed with
        | some c => statusLost s x c
        | none => s) x.wg x.next

/-- The four words of a status word (R301). -/
def statusWords (len : Nat) (trunc : Bool) (st dev : Nat) (tag : Word) (seq : Nat) : List Word :=
  [BitVec.ofNat 32 len, packWord [(bit trunc, 24), (st, 16), (dev, 0)], tag, packWord [(seq, 0)]]

/-- Payload bytes of rows of elements: each row takes whole bytes (R303). -/
def payloadBytes {α : Type} (bits : Nat) (rows : List (List α)) : Nat := rows.foldl (fun n r => n + (r.length * bits + 7) / 8) 0

/-- The first element and the length of a row of a RAGGED record (R270); a row beyond `D1` has none. -/
def raggedRow (s : State) (w : Nat) (ws : List Word) (i : Nat) : State × Except EngFault (Nat × Nat) :=
  if layDim ws 1 ≤ i then (s, .ok (0, 0))
  else
    match collect (fun s k => readWords s w .fabric (BitVec.ofNat 64 (layLink ws + 4 * k)) 1) [i, i + 1] s with
    | (s, .error f) => (s, .error f)
    | (s, .ok offs) =>
      let at_ := fun k => ((offs.map (fun o => (wordAt o.1 0).toNat)).getD k 0)
      (s, .ok (at_ 0, at_ 1 - at_ 0))

/-- A record's box row by row, with box origin zero: where each element lies (R303, R309); whether a RAGGED row is longer than `B0`; and the
contract stamps of index pages. -/
structure BoxRows where
  rows : List (List ElemAt)
  cut : Bool
  stamps : List (Nat × BitVec 64)
  deriving DecidableEq, Repr

def boxRows (s : State) (w : Nat) (l : Lay) : State × Except EngFault BoxRows :=
  let b0 := layBox l.ws 0
  if layKind l.ws = 2 then
    match collect (fun s i => raggedRow s w l.ws i) (List.range (layBox l.ws 1)) s with
    | (s, .error f) => (s, .error f)
    | (s, .ok rs) =>
      (s, .ok { rows := rs.map (fun r => (List.range (min r.2 b0)).map (fun j => some (elemAddr l.ws [r.1 + j])))
                cut := rs.any (fun r => decide (b0 < r.2)), stamps := [] })
  else
    let tails := positions ((List.range 4).map (fun k => if k + 1 < layRank l.ws then layBox l.ws (k + 1) else 1))
    let row := fun (s : State) (t : List Nat) =>
      collect (fun s x => locate s w .fabric l ((x :: t).take (layRank l.ws))) (List.range b0) s
    match collect row tails s with
    | (s, .error f) => (s, .error f)
    | (s, .ok rs) =>
      (s, .ok { rows := rs.map (fun r => r.map (fun e => e.1)), cut := false, stamps := rs.flatMap (fun r => r.flatMap (fun e => e.2)) })

/-- An element as it is read: its value, whether its data is poisoned, whether a remap holds its read at the source (R299), and its page's contract stamp. -/
structure ElemRead where
  v : DWord
  bad : Bool
  held : Bool
  stamps : List (Nat × BitVec 64)
  deriving DecidableEq, Repr

/-- Reads an element. -/
def readElem (s : State) (w : Nat) (ws : List Word) (x : ElemAt) : State × Except EngFault ElemRead :=
  match x with
  | none => (s, .ok { v := padValue ws, bad := false, held := false, stamps := [] })
  | some (ea, hi) =>
    match touch s w .fabric ea (layBytes ws) false with
    | (s, .error f) => (s, .error (f, ea))
    | (s, .ok (a, cst)) =>
      let core := (wgAt s w).core
      let bad := sourcePoisoned s w core { lane := 0, ea := ea, src := a, dst := a, n := layBytes ws, half := none }
      let r := readSource s w core a (layBytes ws)
      let v := leNat r.2
      (r.1, .ok { v := BitVec.ofNat 64 (if layBits ws = 4 then (if hi then v / 16 else v % 16) else v), bad := bad, held := !sourceOpen s a
                  stamps := [(cst, ea)] })

/-- A payload (R303): its rows and their bytes; how many elements come before the first poisoned one, if there is one; whether a RAGGED row was cut short;
whether a remap holds a read of it; and the contract stamps of its pages. -/
structure Payload where
  rows : List (List DWord)
  bytes : Nat
  poisoned : Option Nat
  cut : Bool
  held : Bool
  stamps : List (Nat × BitVec 64)
  deriving DecidableEq, Repr

/-- The rows up to element `n`, counted through them. -/
def takeElems {α : Type} : Nat → List (List α) → List (List α)
  | _, [] => []
  | n, r :: rs => if n < r.length then [r.take n] else r :: takeElems (n - r.length) rs

/-- The rows up to the first poisoned element, if there is one. -/
def cleanRows {α : Type} (poisoned : Option Nat) (rows : List (List α)) : List (List α) :=
  match poisoned with
  | some n => takeElems n rows
  | none => rows

def readPayload (s : State) (w : Nat) (l : Lay) : State × Except EngFault Payload :=
  match boxRows s w l with
  | (s, .error f) => (s, .error f)
  | (s, .ok b) =>
    match collect (fun s r => collect (fun s e => readElem s w l.ws e) r s) b.rows s with
    | (s, .error f) => (s, .error f)
    | (s, .ok vs) =>
      (s, .ok { rows := vs.map (fun r => r.map (fun e => e.v)), bytes := payloadBytes (layBits l.ws) vs, cut := b.cut
                poisoned := vs.flatten.findIdx? (fun e => e.bad), held := vs.any (fun r => r.any (fun e => e.held))
                stamps := b.stamps ++ vs.flatMap (fun r => r.flatMap (fun e => e.stamps)) })

/-! Sending (R302 to R304). -/

/-- A send that passed its checks, with its payload. -/
structure SendReq where
  words : List Word
  lay : Lay
  pay : Payload
  mix : Bool
  deriving DecidableEq, Repr

def descStat (ws : List Word) (k : Nat) : Nat := recAddr ws k
/-- The reserved bits of a send descriptor. -/
def sendReserved (ws : List Word) : Bool :=
  recBits ws 0 31 24 != 0 || recBits ws 0 15 10 != 0 || recBits ws 3 31 20 != 0 || wordAt ws 5 != 0 || recBits ws 7 31 20 != 0

/-- The checks of one lane of `send`, in order (R304). -/
def sendLane (s : State) (u : Bundle) (va : DWord) : State × Except EngFault SendReq :=
  match readDesc s u.wg va 32 8 with
  | (s, .error f) => (s, .error f)
  | (s, .ok ws) =>
    let stat := descStat ws 6
    let srec := BitVec.ofNat 64 (recAddr ws 2)
    if stat % 16 ≠ 0 then (s, .error ((0x12, 0), BitVec.ofNat 64 stat))
    else
      match readLay s u.wg .fabric srec with
      | (s, .error f) => (s, .error f)
      | (s, .ok (l, _)) =>
        match (if stat = 0 then (s, none) else checkStatus s u.wg stat) with
        | (s, some f) => (s, .error f)
        | (s, none) =>
          if sendReserved ws then (s, .error ((0x21, 1), 0))
          else if (wordAt ws 0).getLsbD 22 && decide (tagsOf s u.wg ≤ recBits ws 0 21 16) then (s, .error ((0x18, 0), 0))
          else if layBad messageUser (narrowLay s u.wg) l then (s, .error ((0x09, 6), 0))
          else
            match readPayload s u.wg l with
            | (s, .error f) => (s, .error f)
            | (s, .ok pay) =>
              match stampCheck s u.wg pay.stamps with
              | .error f => (s, .error f)
              | .ok mix => (s, .ok { words := ws, lay := l, pay := pay, mix := mix })

/-- One element of a payload read twice: each 4-byte unit of the message is as it was or as it is (R314); `o` is its offset in nibbles. -/
def mixElem (seed o n : Nat) (old new : DWord) : DWord :=
  (List.range n).foldl (fun x i =>
    x ||| (((if (Config.freeWord seed ((o + i) / 8)).getLsbD 0 then new else old) >>> (4 * i) &&& 15) <<< (4 * i))) 0

/-- A row of a payload read twice, from an offset in nibbles on. -/
def mixRow (seed bits o : Nat) (old new : List DWord) : List DWord :=
  old.zipIdx.map (fun x => mixElem seed (o + x.2 * (bits / 4)) (bits / 4) x.1 (new.getD x.2 x.1))

/-- A payload read twice. -/
def mixRows (seed bits : Nat) : Nat → List (List DWord) → List (List DWord) → List (List DWord)
  | _, [], _ => []
  | o, r :: rs, new => mixRow seed bits o r (new.headD []) :: mixRows seed bits (o + (r.length * bits + 7) / 8 * 2) rs new.tail

/-- Reads a send's payload again, at a time between its acceptance and its completion: what goes out, and where the first poisoned element lies now. What a remap
holds is not read again (R299). -/
def readAgain (s : State) (op : SendOp) : State × Option (Nat × List (List DWord)) × Option Nat :=
  match op.payload with
  | none => (s, none, none)
  | some (bits, rows) =>
    match readPayload s op.wg { ws := op.rec_, idx := op.idx } with
    | (s, .ok p) =>
      if p.held then (s, some (bits, rows), none)
      else ({ s with freeCtr := s.freeCtr + 1 }, some (bits, mixRows s.freeCtr bits 0 rows p.rows), p.poisoned)
    | (s, .error _) => (s, some (bits, rows), none)

/-- Sends the payload of an eager send `k` to another device. -/
def sendPayload (s : State) (k : Nat) (op : SendOp) : State :=
  let r := readAgain s op
  let put := fun (op : SendOp) => { r.1 with fab := { r.1.fab with sends := Map.put r.1.fab.sends k op } }
  let x : Outgoing := .message k ((r.2.1.map (fun p => p.2)).getD [])
  if r.2.2.isSome then put { op with fate := some (5, 0), poisoned := r.2.2 }
  else if op.len ≤ smallBytes then emitSmall (put { op with sent := true }) [op.ddev] x
  else emitFab (put { op with sent := true }) x

/-- The elements of rows in a range of their bytes, row by row. -/
def sliceRows {α : Type} (bits : Nat) : Nat → Nat → List (List α) → List (List α)
  | _, _, [] => []
  | lo, hi, r :: rs =>
    let n := (r.length * bits + 7) / 8
    (r.take (hi * 8 / bits)).drop (lo * 8 / bits) :: sliceRows bits (lo - n) (hi - n) rs

/-- Sends what another device has granted of a pulled payload, up to `g` bytes of it in all and to the first poisoned element. -/
def sendUnits (s : State) (k : Nat) (op : SendOp) (g : Nat) : State :=
  let r := readAgain s op
  let bad := op.poisoned.or r.2.2
  let t := { r.1 with fab := { r.1.fab with sends := Map.put r.1.fab.sends k { op with granted := g, poisoned := bad, sent := decide (op.len ≤ g) } } }
  match r.2.1 with
  | some (bits, rows) => emitFab t (.message k (sliceRows bits op.granted g (cleanRows bad rows)))
  | none => t

/-- Takes a send into the send queue and starts it (R304): a length that differs ends it at once; else it takes its sequence number, and
a small payload, or an announcement, goes out. A message of more than 65,536 rows ends in the same way: R303 has none, and the spec names no outcome
(DESIGN CHOICE, log entry 69). -/
def acceptSend (s : State) (w : Nat) (r : SendReq) : State :=
  let ws := r.words
  let ctx := (wgAt s w).ctx
  let ddev := recBits ws 0 9 0
  let len := (wordAt ws 4).toNat
  let key := ddev * 2 ^ 16 + ctx
  let seq := Map.getD s.fab.sendSeq key 0
  let ok := r.pay.bytes == len && decide (r.pay.rows.length ≤ 65536)
  let fate := if !ok then some (8, 0) else if decide (len ≤ eagerBytes) && r.pay.poisoned.isSome then some (5, 0) else none
  let op : SendOp :=
    { ctx := ctx, wg := w, tagOf := if (wordAt ws 0).getLsbD 22 then some (recBits ws 0 21 16) else none, ddev := ddev, tag := wordAt ws 1
      rec_ := r.lay.ws, len := len, stat := descStat ws 6, na := (wordAt ws 0).getLsbD 23, seq := if ok then some seq else none
      trunc := r.pay.cut, idx := r.lay.idx, payload := if fate.isNone then some (layBits r.lay.ws, r.pay.rows) else none
      sent := false, granted := 0, poisoned := r.pay.poisoned, fate := fate }
  let id := newId s
  let s := { id.2 with fab := { id.2.fab with
    sends := Map.put id.2.fab.sends id.1 op
    sendSeq := if ok then Map.put id.2.fab.sendSeq key ((seq + 1) % 65536) else id.2.fab.sendSeq } }
  if fate.isSome ∨ ddev = Config.ownDevice then s
  else if len ≤ smallBytes then sendPayload s id.1 op
  else emitSmall s [ddev] (.announce id.1 len)

/-- The send queue's entries. -/
def sendQueueSize : Nat := 1024

/-- How many lanes of a `send` pass its checks (R304). -/
def sendPasses (s : State) (u : Bundle) (a : BitVec 6) : Nat :=
  let st := stage s u { a := some (own a 2) }
  ((lanesOf (activeMask s u)).filter (fun l => match (sendLane s u (w64 (st l).a)).2 with
    | .ok _ => true
    | .error _ => false)).length

/-- Issues once the squad's earlier stores are acknowledged; a bundle whose passing lanes find no room, or whose payload a remap holds at its source (R299), does
not issue. -/
def execSend (a : BitVec 6) (s : State) : Host.Outcome State Fault Refusal :=
  withBundle s (fun u s =>
    if misaligned a 2 then encodingFault s u (faultInfo 0x05 0)
    else
      let g := activeMask s u
      let st := stage s u { a := some (own a 2) }
      let r := eachLane s g (fun s l =>
        match sendLane s u (w64 (st l).a) with
        | (s, .ok v) => (s, .ok v)
        | (s, .error e) => (s, .error (laneFault e.1 e.2 [])))
      if sendQueueSize < s.fab.sends.length + r.2.1.length ∨ r.2.1.any (fun p => p.2.pay.held) then goOn s u u.e.mask u.e.place 1
      else
        let s := r.2.1.foldl (fun s p => commitWg (acceptSend s u.wg p.2) u.wg) r.1
        let s := noteMix s u (r.2.1.any (fun p => p.2.mix))
        awaitCheck (parkFailed s u g st r.2.2) u (maskIn r.2.1))

/-- Completes a send (R304): the status word, then the tag. -/
def completeSend (s : State) (k st len : Nat) : State :=
  match Map.find s.fab.sends k with
  | none => s
  | some op =>
    let s := { s with fab := { s.fab with sends := Map.del s.fab.sends k } }
    let next : StatusNext := match op.tagOf with
      | some t => .tag t
      | none => .none
    if op.stat = 0 then finishStatus s op.wg next
    else writeStatus s op.wg op.stat (statusWords len op.trunc st op.ddev op.tag (op.seq.getD 0)) 0x21 3 0 next

/-- The bytes of a send's payload before the first poisoned element. -/
def SendOp.cleanBytes (op : SendOp) : Nat :=
  match op.payload with
  | some (bits, rows) => payloadBytes bits (cleanRows op.poisoned rows)
  | none => op.len

/-- SEND_COMPLETION: with the outcome this device decided, or with the one that the destination answers. -/
def execSendCompletion (s : State) : Host.Outcome State Fault Refusal :=
  .next (match s.arg with
    | .sendDone k st len =>
      match Map.find s.fab.sends k with
      | none => s
      | some op =>
        match op.fate with
        | some f => completeSend s k f.1 f.2
        | none =>
          -- a destination without room may pull an eager message too (R308)
          if op.ddev = Config.ownDevice then s
          -- a receiver pulls the bytes that land only (R309), so a pulled message may be complete with fewer grants than bytes
          else if st = 1 then
            (if (op.sent ∨ eagerBytes < op.len) ∧ !keepsBack s (isPayloadOf k) then completeSend s k 1 op.len else s)
          else if st = 3 ∨ st = 4 then completeSend s k st.toNat (min len.toNat op.len)
          else if st = 5 ∧ op.poisoned.isSome then completeSend s k 5 (min len.toNat op.cleanBytes)
          else if st = 6 ∨ st = 7 then completeSend s k st.toNat 0
          else s
    | _ => s)

/-- Sets the outcome of the own send that a message to the own device came from. -/
def decideOwn (s : State) (m : Message) (f : SendOp → Option (Nat × Nat)) : State :=
  if m.src = Config.ownDevice then
    { s with fab := { s.fab with sends := s.fab.sends.map (fun p =>
        if p.2.ddev == Config.ownDevice && p.2.ctx == m.ctx.toNat && p.2.seq == some m.seq.toNat && p.2.fate.isNone
        then (p.1, { p.2 with fate := f p.2 }) else p) } }
  else s

/-- The own send that a message came from. -/
def ownSend (s : State) (m : Message) : Option SendOp :=
  if m.src = Config.ownDevice then
    (s.fab.sends.find? (fun p => p.2.ddev == Config.ownDevice && p.2.ctx == m.ctx.toNat && p.2.seq == some m.seq.toNat)).map (fun p => p.2)
  else none

/-! Posting, cancelling and probing (R305, R306, R312, R313). -/

/-- The reserved bits of a posted-receive record's first two words, and of all of it. -/
def patternReserved (ws : List Word) : Bool := recBits ws 0 31 10 != 0 || recBits ws 1 31 10 != 0
def postReserved (ws : List Word) : Bool :=
  patternReserved ws || recBits ws 5 31 20 != 0 || recBits ws 7 31 8 != 0 || recBits ws 9 31 20 != 0
    || (List.range 6).any (fun k => wordAt ws (10 + k) != 0) || recAddr ws 8 == 0

/-- The checks of one lane of `recv.post`, in order. -/
def postLane (s : State) (u : Bundle) (va : DWord) : State × Except EngFault (List Word × Lay) :=
  match readDesc s u.wg va 64 16 with
  | (s, .error f) => (s, .error f)
  | (s, .ok ws) =>
    let stat := recAddr ws 8
    if stat % 16 ≠ 0 then (s, .error ((0x12, 0), BitVec.ofNat 64 stat))
    else
      match readLay s u.wg .fabric (BitVec.ofNat 64 (recAddr ws 4)) with
      | (s, .error f) => (s, .error f)
      | (s, .ok (l, _)) =>
        match (if stat = 0 then (s, none) else checkStatus s u.wg stat) with
        | (s, some f) => (s, .error f)
        | (s, none) =>
          if postReserved ws then (s, .error ((0x21, 1), 0))
          else if (wordAt ws 7).getLsbD 6 && decide (tagsOf s u.wg ≤ recBits ws 7 5 0) then (s, .error ((0x18, 0), 0))
          else if layBad messageUser (narrowLay s u.wg) l then (s, .error ((0x09, 6), 0))
          else (s, .ok (ws, l))

/-- Hands a request to the receive engine, and holds its `n` destination registers until the answer. -/
def requestRecv (s : State) (u : Bundle) (l kind : Nat) (d : BitVec 6) (n : Nat) (ws : List Word) (lay : Lay) : State :=
  let id := newId s
  let r : RecvReq := { wg := u.wg, sq := u.sq, lb := u.e.lb, lane := l, d := d, ctx := (wgAt s u.wg).ctx, kind := kind, words := ws
                       rec_ := lay.ws, idx := lay.idx }
  let s := { id.2 with fab := { id.2.fab with reqs := Map.put id.2.fab.reqs id.1 r } }
  modSq s u.wg u.sq (fun sq => (List.range n).foldl (fun sq k => holdItem sq (itemV u.e.lb (d.toNat + k)) id.1) sq)

def noLay : Lay := { ws := [], idx := none }

def execRecvPost (d a : BitVec 6) (s : State) : Host.Outcome State Fault Refusal :=
  withBundle s (fun u s =>
    if misaligned a 2 then encodingFault s u (faultInfo 0x05 0)
    else
      let g := activeMask s u
      let st := stage s u { a := some (own a 2) }
      let r := eachLane s g (fun s l =>
        match postLane s u (w64 (st l).a) with
        | (s, .ok v) => (requestRecv s u l 0 d 1 v.1 v.2, .ok ())
        | (s, .error e) => (s, .error (laneFault e.1 e.2 [])))
      awaitCheck (parkFailed r.1 u g st r.2.2) u (maskIn r.2.1))

def execRecvCancel (d a : BitVec 6) (m : BitVec 2) (s : State) : Host.Outcome State Fault Refusal :=
  withBundle s (fun u s =>
    let g := activeMask s u
    let h := fun l => w32 (readReg s u ⟨a, m, 1⟩ l)
    let s := (lanesOf g).foldl (fun s l => requestRecv s u l 1 d 1 [h l] noLay) s
    awaitCheck (advance s u (u.e.mask &&& ~~~g)) u g)

def execRecvProbe (d a : BitVec 6) (s : State) : Host.Outcome State Fault Refusal :=
  withBundle s (fun u s =>
    if misaligned a 2 ∨ misaligned d 4 then encodingFault s u (faultInfo 0x05 0)
    else
      let g := activeMask s u
      let st := stage s u { a := some (own a 2) }
      let r := eachLane s g (fun s l =>
        match readDesc s u.wg (w64 (st l).a) 64 16 with
        | (s, .error e) => (s, .error (laneFault e.1 e.2 []))
        | (s, .ok ws) =>
          if patternReserved ws then (s, .error (laneFault (0x21, 1) 0 []))
          else (requestRecv s u l 2 d 4 (ws.take 4) noLay, .ok ()))
      awaitCheck (parkFailed r.1 u g st r.2.2) u (maskIn r.2.1))

/-- Answers a request: the destination registers of its lane, and their marks. -/
def answerRecv (s : State) (k : Nat) (r : RecvReq) (ws : List Word) : State :=
  let s := { s with fab := { s.fab with reqs := Map.del s.fab.reqs k } }
  modSq s r.wg r.sq (fun sq => dropHolds ((List.range ws.length).foldl (fun sq i =>
    vset sq r.lb (r.d.toNat + i) ((1#32) <<< r.lane) (fun _ => wordAt ws i)) sq) k)

/-! Matching (R307, R308). -/

/-- Whether a message matches the pattern in the first words of a posted-receive record. -/
def matchesPost (m : Message) (ws : List Word) : Bool :=
  let smask := wordAt ws 1 &&& 0x3FF
  (BitVec.ofNat 32 m.src &&& smask) == (wordAt ws 0 &&& smask) && (m.tag &&& wordAt ws 3) == (wordAt ws 2 &&& wordAt ws 3)

def messageBytes (m : Message) : Nat := payloadBytes m.ebits m.rows

/-- Starts a delivery. -/
def startDelivery (s : State) (p : Post) (m : Message) (stays : Bool) : State :=
  let id := newId s
  let d : Delivery := { post := p, msg := m, pulled := stays || decide (65536 < messageBytes m), pieces := none, len := 0, trunc := false
                        entries := [], pubs := [], granted := 0, asked := false, bad := false }
  { id.2 with fab := { id.2.fab with deliveries := Map.put id.2.fab.deliveries id.1 d } }

/-- The eager message of an own send has been accepted: it is queued, or has landed (R304). -/
def acceptOwn (s : State) (m : Message) : State := decideOwn s m (fun op => if op.len ≤ 65536 then some (1, op.len) else none)

/-- Offers an expected message to the posts of its context, in post order, else to the unexpected queue; nothing when no entry is free. -/
def offerMessage (s : State) (m : Message) : Option State :=
  let ctx := m.ctx.toNat
  match s.fab.posts.find? (fun p => p.ctx == ctx && matchesPost m p.words) with
  | some p =>
    some (startDelivery { s with fab := { s.fab with posts := s.fab.posts.filter (fun q => q.slot != p.slot) } } p m false)
  | none =>
    let mine := s.fab.unexpected.filter (fun e => e.1.ctx == m.ctx)
    if 4096 ≤ mine.length then none
    else
      let used := mine.foldl (fun n e => n + if e.2 || 65536 < messageBytes e.1 then 0 else messageBytes e.1) 0
      let room := recBits (ctxAt s ctx).words 13 31 16 * 65536
      let stays := decide (messageBytes m ≤ 65536) && decide (room < used + messageBytes m)
      let s := { s with fab := { s.fab with unexpected := s.fab.unexpected ++ [(m, stays)] } }
      some (if stays then s else acceptOwn s m)

/-- The expected sequence number of a source and a context. -/
def expectedSeq (s : State) (src ctx : Nat) : Nat := Map.getD s.fab.expected (src * 2 ^ 16 + ctx) 0

/-- Handles the held messages of a source and a context that are expected, one after the other. -/
def drainHeld (src : Nat) (ctx : BitVec 16) : Nat → State → State
  | 0, s => s
  | n + 1, s =>
    let e := expectedSeq s src ctx.toNat
    match s.fab.held.find? (fun m => m.src == src && m.ctx == ctx && m.seq.toNat == e) with
    | none => s
    | some m =>
      match offerMessage s m with
      | none => s
      | some t =>
        drainHeld src ctx n { t with fab := { t.fab with
          held := t.fab.held.erase m, expected := Map.put t.fab.expected (src * 2 ^ 16 + ctx.toNat) ((e + 1) % 65536) } }

/-- A message or an announcement reaches the receive engine; one for a context that does not exist is refused. -/
def messageArrives (s : State) (m : Message) : State :=
  if (Map.find s.ctxs m.ctx.toNat).isNone then decideOwn s m (fun _ => some (6, 0))
  else
    let s := { s with fab := { s.fab with held := s.fab.held ++ [m] } }
    drainHeld m.src m.ctx s.fab.held.length s

/-- A message comes in: a small one, or an announcement, at once; a bulk payload of an eager one once its bytes are granted (R300). -/
def messageComes (s : State) (m : Message) : State :=
  if messageBytes m ≤ smallBytes ∨ eagerBytes < messageBytes m then messageArrives s m
  else
    let id := newId s
    { id.2 with fab := { id.2.fab with inbound := Map.put id.2.fab.inbound id.1 (m, 0) } }

/-- MESSAGE_ARRIVAL: one from another device, or that of an own send, whose eager payload is read. -/
def execMessageArrival (s : State) : Host.Outcome State Fault Refusal :=
  .next (match s.arg with
    | .message m => if m.src = Config.ownDevice then s else messageComes s m
    | .ids k _ _ =>
      match Map.find s.fab.sends k with
      | some op =>
        match op.payload, op.seq with
        | some old, some q =>
          if op.ddev ≠ Config.ownDevice ∨ op.sent then s
          else
            let eager := op.len ≤ eagerBytes
            let r := if eager then readAgain s op else (s, some old, none)
            let put := fun (op : SendOp) => { r.1 with fab := { r.1.fab with sends := Map.put r.1.fab.sends k op } }
            if r.2.2.isSome then put { op with fate := some (5, 0), payload := none }
            else
              let p := r.2.1.getD old
              messageComes (put { op with sent := true })
                { src := Config.ownDevice, ctx := BitVec.ofNat 16 op.ctx, tag := op.tag, seq := BitVec.ofNat 16 q, ebits := p.1, rows := p.2 }
        | _, _ => s
      | none => s
    | _ => s)

/-- HELD_MESSAGE_REOFFER: a source offers a held message again. -/
def execHeldMessageReoffer (s : State) : Host.Outcome State Fault Refusal :=
  .next (match s.arg with
    | .ids i _ _ =>
      match s.fab.held[i]? with
      | some m => drainHeld m.src m.ctx s.fab.held.length s
      | none => s
    | _ => s)

/-- List slots in use. -/
def slotsUsed (s : State) : List Nat := s.fab.posts.map (fun p => p.slot) ++ s.fab.deliveries.map (fun d => d.2.post.slot)

/-- Whether a request is the oldest one of its squad, of posts and cancels. -/
def recvTurn (s : State) (k : Nat) (r : RecvReq) : Bool :=
  s.fab.reqs.all (fun q => !(q.2.wg == r.wg && q.2.sq == r.sq && q.2.kind != 2 && decide (q.1 < k)))

/-- RECV_POST_TAKEN: the post takes a free list slot and its handle goes to d; it matches the first entry of the unexpected queue that fits,
or joins the list. -/
def takePost (s : State) (k : Nat) (r : RecvReq) : State :=
  let held := (s.fab.posts.filter (fun p => p.ctx == r.ctx)).length + (s.fab.deliveries.filter (fun d => d.2.post.ctx == r.ctx)).length
  let free := (List.range 65536).filter (fun n => !(slotsUsed s).contains n)
  if recBits (ctxAt s r.ctx).words 13 15 0 ≤ held ∨ free.isEmpty then answerRecv s k r [0xFFFFFFFF]
  else
    let dr := draw s
    let slot := free.getD (Config.freeNumber dr.1 % free.length) 0
    let reuse := match Map.find s.fab.reuse slot with
      | some n => (n + 1) % 2 ^ 15
      | none => 0
    let p : Post := { slot := slot, reuse := reuse, ctx := r.ctx, wg := r.wg, words := r.words, rec_ := r.rec_, idx := r.idx }
    let s := { dr.2 with fab := { dr.2.fab with reuse := Map.put dr.2.fab.reuse slot reuse } }
    let s := answerRecv s k r [BitVec.ofNat 32 (slot + reuse * 65536)]
    match s.fab.unexpected.find? (fun e => e.1.ctx.toNat == r.ctx && matchesPost e.1 p.words) with
    | some e => startDelivery { s with fab := { s.fab with unexpected := s.fab.unexpected.erase e } } p e.1 e.2
    | none => { s with fab := { s.fab with posts := s.fab.posts ++ [p] } }

/-- Handles request `k` of a kind when it is its turn. -/
def onRecvReq (s : State) (kind : Nat) (f : State → Nat → RecvReq → State) : Host.Outcome State Fault Refusal :=
  .next (match s.arg with
    | .ids k _ _ =>
      match Map.find s.fab.reqs k with
      | some r => if r.kind = kind ∧ (kind = 2 ∨ recvTurn s k r) then f s k r else s
      | none => s
    | _ => s)

def execRecvPostTaken (s : State) : Host.Outcome State Fault Refusal := onRecvReq s 0 takePost

/-- The completion tag that a posted-receive record names (R310). -/
def postTag (p : Post) : StatusNext := if (wordAt p.words 7).getLsbD 6 then .tag (recBits p.words 7 5 0) else .none

def execRecvCancelHandled (s : State) : Host.Outcome State Fault Refusal :=
  onRecvReq s 1 (fun s k r =>
    let h := (wordAt r.words 0).toNat
    match s.fab.posts.find? (fun p => p.ctx == r.ctx && p.slot + p.reuse * 65536 == h) with
    | some p =>
      let s := { s with fab := { s.fab with posts := s.fab.posts.filter (fun q => q.slot != p.slot) } }
      answerRecv (writeStatus s p.wg (recAddr p.words 8) (statusWords 0 false 2 0 0 0) 0x21 3 0 (postTag p)) k r [1]
    | none => answerRecv s k r [0])

def execRecvProbeResult (s : State) : Host.Outcome State Fault Refusal :=
  onRecvReq s 2 (fun s k r =>
    match s.fab.unexpected.find? (fun e => e.1.ctx.toNat == r.ctx && matchesPost e.1 r.words) with
    | some e => answerRecv s k r (statusWords (messageBytes e.1) false 1 e.1.src e.1.tag e.1.seq.toNat)
    | none => answerRecv s k r [0, 0, 0, 0])

/-! Landing (R309 to R311). -/

/-- What a landing has still to place, as it is laid out: the bytes left under `MAXB`, whether they ran out, and truncation. -/
structure LandPlan where
  pieces : List Piece
  left : Nat
  full : Bool
  trunc : Bool
  deriving DecidableEq, Repr

/-- The piece that writes a value at an element; `cost` is the payload bytes it counts. -/
def landPiece (ws : List Word) (ea : BitVec 64) (hi : Bool) (v : XAddr) (cost : Nat) : Piece :=
  { lane := cost, ea := ea, src := v, dst := .pad 0, n := layBytes ws, half := if layBits ws = 4 then some (false, hi) else none }

/-- Places payload elements in one destination row; `n` counts those written in it. -/
def landRow (ws : List Word) : Nat → List (ElemAt × DWord) → LandPlan → LandPlan
  | _, [], p => p
  | n, (none, _) :: r, p => landRow ws n r p
  | n, (some (ea, hi), v) :: r, p =>
    let b := layBits ws
    let cost := ((n + 1) * b + 7) / 8 - (n * b + 7) / 8
    if p.full || decide (p.left < cost) then landRow ws n r { p with full := true, trunc := true }
    else landRow ws (n + 1) r { p with pieces := p.pieces ++ [landPiece ws ea hi (.data (v.zeroExtend 128)) cost], left := p.left - cost }

/-- Splits a list by the lengths of the rows of another. -/
def splitLike {α β : Type} : List (List α) → List β → List (List β)
  | [], _ => []
  | r :: rs, l => l.take r.length :: splitLike rs (l.drop r.length)

/-- Lays out a delivery (R309). -/
def landPlan (ws : List Word) (dest : List (List ElemAt)) (m : Message) (maxb : Nat) : LandPlan :=
  let start : LandPlan := { pieces := [], left := maxb, full := false, trunc := false }
  if layKind ws = 2 then
    let b1 := dest.length
    let p := (dest.zip m.rows).foldl (fun p r =>
      let q := landRow ws 0 (r.1.zip r.2) p
      let pads := (r.1.drop r.2.length).filterMap (fun e => e.map (fun x => landPiece ws x.1 x.2 (.pad (padValue ws)) 0))
      { q with pieces := q.pieces ++ pads, trunc := q.trunc || decide (r.1.length < r.2.length) }) start
    { p with trunc := p.trunc || (m.rows.drop b1).any (fun r => !r.isEmpty) }
  else
    let flat := m.rows.flatten
    let rows := dest.zip (splitLike dest flat)
    let p := rows.foldl (fun p r => landRow ws 0 (r.1.zip r.2) p) start
    { p with trunc := p.trunc || decide (dest.flatten.length < flat.length) }

/-- Where a landing stands: what is left, the bytes counted, the entries written, and the fault that stopped it. -/
structure Landed where
  rest : List Piece
  len : Nat
  entries : List Nat
  fault : Option EngFault
  deriving DecidableEq, Repr

/-- Writes pieces in payload order until one faults, or meets a buffer map entry with a change that a core has not applied (R226). -/
def landPieces (w : Nat) : List Piece → Nat → List Nat → State → State × Landed
  | [], n, es, s => (s, { rest := [], len := n, entries := es, fault := none })
  | p :: ps, n, es, s =>
    match touch s w .fabric p.ea (max 1 p.n) true with
    | (s, .error f) => (s, { rest := p :: ps, len := n, entries := es, fault := some (f, p.ea) })
    | (s, .ok (x, _)) =>
      let e := match x with
        | .bmt m _ _ => [m]
        | _ => []
      if !destSettled s x then (s, { rest := p :: ps, len := n, entries := es, fault := none })
      else landPieces w ps (n + p.lane) ((es ++ e).dedup) (movePiece s w (wgAt s w).core { p with dst := x })

/-- Ends a delivery with an outcome (R310, R311): the record of a destination fault, the status word, the tag; a pulled message of the own
device ends its send too. -/
def endDelivery (s : State) (k st : Nat) (fault : Option EngFault) : State :=
  match Map.find s.fab.deliveries k with
  | none => s
  | some d =>
    let w := d.post.wg
    let s := match fault with
      | some f => postRecord s 0 (engineRecord s w 7 0 0 { faultInfo 0x21 2 with ucode := f.1.1, faddr := f.2, eng := true })
      | none => s
    let s := writeStatus s w (recAddr d.post.words 8) (statusWords d.len d.trunc st d.msg.src d.msg.tag d.msg.seq.toNat) 0x21 3 0 (postTag d.post)
    let s := if d.pulled then decideOwn s d.msg (fun op => some (st, if st = 1 then op.len else d.len)) else acceptOwn s d.msg
    { s with fab := { s.fab with deliveries := Map.del s.fab.deliveries k } }

/-- Performs publishes of entries in ascending order: their numbers. -/
def publishAll (s : State) (es : List Nat) : State × List Nat :=
  (sortBy (fun n => [n]) es).foldl (fun (acc : State × List Nat) e =>
    match performPublish acc.1 (e / 4096) (e % 4096) with
    | some (p, s) => (s, acc.2 ++ [p])
    | none => acc) (s, [])

/-- Completes a delivery whose publishes every core has applied. -/
def settleDelivery (s : State) (k : Nat) : State :=
  match Map.find s.fab.deliveries k with
  | some d => if d.pieces = some [] ∧ pubsDone s d.pubs then endDelivery s k 1 none else s
  | none => s

/-- Asks for the page of a delivery that is not there (R191, R311). -/
def askPage (s : State) (k : Nat) (va : BitVec 64) : State :=
  match Map.find s.fab.deliveries k with
  | none => s
  | some d =>
    if d.asked then s
    else
      let id := newId s
      let ctx := d.post.ctx
      { id.2 with
        fab := { id.2.fab with deliveries := Map.put id.2.fab.deliveries k { d with asked := true } }
        pageReqs := Map.put id.2.pageReqs id.1 { wg := d.post.wg, ctx := ctx, addr := va, rec_ := [], delivery := some k }
        out := id.2.out ++ [.pageRequest id.1 va] }

/-- The payload of a message as it lands, and where its first poisoned element lies: that of a pulled one of the own device is read as it is pulled (R314). -/
def pulledNow (s : State) (d : Delivery) : State × List (List DWord) × Option Nat :=
  match (if d.pulled then ownSend s d.msg else none) with
  | some op =>
    match readAgain s op with
    | (s, some p, bad) => (s, p.2, op.poisoned.or bad)
    | (s, none, _) => (s, d.msg.rows, none)
  | none => (s, d.msg.rows, none)

def Delivery.lay (d : Delivery) : Lay := { ws := d.post.rec_, idx := d.post.idx }
def Delivery.maxb (d : Delivery) : Nat := (wordAt d.post.words 6).toNat

/-- The payload bytes that pieces count. -/
def pieceBytes (ps : List Piece) : Nat := ps.foldl (fun n p => n + p.lane) 0

/-- Whether a piece writes payload, not a pad value. -/
def Piece.isData (p : Piece) : Bool :=
  match p.src with
  | .data _ => true
  | _ => false

/-- The layout of a landing whose payload has `bad` elements before its first poisoned one: where a poisoned unit would land, the payload before it, and
without pads; only what lands is pulled (R309, R311). -/
def landUntil (ws : List Word) (dest : List (List ElemAt)) (m : Message) (maxb : Nat) (bad : Option Nat) : LandPlan × Bool :=
  let all := landPlan ws dest m maxb
  let clean := (landPlan ws dest { m with rows := cleanRows bad m.rows } maxb).pieces.filter Piece.isData
  if clean.length < (all.pieces.filter Piece.isData).length then ({ all with pieces := clean }, true) else (all, false)

/-- The payload bytes that a delivery lands in all (R309): a pull fetches no more. -/
def landBytes (s : State) (d : Delivery) : Nat :=
  match d.pieces with
  | some ps => d.len + pieceBytes ps
  | none =>
    match (boxRows s d.post.wg d.lay).2 with
    | .ok b => pieceBytes (landPlan d.lay.ws b.rows d.msg d.maxb).pieces
    | .error _ => 0

/-- The pieces that write the first 4-byte unit of what is left to land, and the others; a wider piece is cut. -/
def firstUnit : List Piece → List Piece × List Piece
  | [] => ([], [])
  | p :: ps =>
    if 4 < p.n then
      ([{ p with n := 4, lane := p.lane / 2 }], { p with n := p.n - 4, ea := p.ea + 4, src := p.src.shift 4, lane := p.lane - p.lane / 2 } :: ps)
    else (p :: ps).span (fun q => q.ea.toNat / 4 == p.ea.toNat / 4)

/-- Lays out what is left to land of a delivery: the pieces, truncation, and whether a poisoned unit ends it. -/
def layDelivery (s : State) (d : Delivery) : State × Except EngFault (List Piece × Bool × Bool) :=
  match d.pieces with
  | some ps => (s, .ok (ps, d.trunc, d.bad))
  | none =>
    match pulledNow s d with
    | (s, rows, bad) =>
      match boxRows s d.post.wg d.lay with
      | (s, .error f) => (s, .error f)
      | (s, .ok b) =>
        let p := landUntil d.lay.ws b.rows { d.msg with rows := rows } d.maxb bad
        (s, .ok (p.1.pieces, p.1.trunc, p.2))

/-- A landing fault: a page that is not there is asked for, any other ends the delivery (R311). -/
def landFault (s : State) (k : Nat) (f : EngFault) : State := if f.1 = (0x10, 1) then askPage s k f.2 else endDelivery s k 4 (some f)

/-- Lands what is left of a delivery, or its first 4-byte unit only, and publishes after the last (R309, R310): of deliveries that write the same bytes, each unit
has the value of the one that wrote it last. A missing landing page is firmware's to resolve (R311): the landing goes on when it is there. A pulled payload
lands once its bytes are granted. -/
def landDelivery (s : State) (k : Nat) (one : Bool) : State :=
  match Map.find s.fab.deliveries k with
  | none => s
  | some d =>
    if d.pieces = some [] then settleDelivery s k
    else if d.asked then s
    else if layBits d.lay.ws ≠ d.msg.ebits then endDelivery s k 4 (some ((0x09, 6), 0))
    else
      match layDelivery s d with
      | (s, .error f) => landFault s k f
      | (s, .ok (ps, trunc, bad)) =>
        if d.pulled && decide (d.granted < d.len + pieceBytes ps) then s
        else
          let now := if one then firstUnit ps else (ps, [])
          let r := landPieces d.post.wg now.1 d.len d.entries s
          let rest := r.2.rest ++ now.2
          let put := fun (s : State) (pubs : List Nat) =>
            let d := { d with pieces := some rest, len := r.2.len, trunc := trunc, bad := bad, entries := r.2.entries, pubs := pubs }
            { s with fab := { s.fab with deliveries := Map.put s.fab.deliveries k d } }
          match r.2.fault with
          | some f => landFault (put r.1 []) k f
          | none =>
            if rest ≠ [] then put r.1 []
            else if bad then endDelivery (put r.1 []) k 5 none
            else
              let q := publishAll r.1 r.2.entries
              settleDelivery (put q.1 q.2) k

/-- DELIVERY_COMPLETION: a delivery goes on, with all that is left of it or with one 4-byte unit. -/
def execDeliveryCompletion (s : State) : Host.Outcome State Fault Refusal :=
  .next (match s.arg with
    | .ids k one _ => landDelivery s k (one == 1)
    | _ => s)

/-- DELIVERY_FAILURE: what stops a delivery from outside, before it is published. -/
def execDeliveryFailure (s : State) : Host.Outcome State Fault Refusal :=
  .next (match s.arg with
    | .failure k why =>
      match Map.find s.fab.deliveries k with
      | none => s
      | some d =>
        if d.pieces = some [] then s
        else
          match why with
          | .landing code => endDelivery s k 4 (some ((code.toNat, 0), ((d.pieces.getD []).head?.map (fun p => p.ea)).getD 0))
          | .poison => if d.msg.src = Config.ownDevice then s else endDelivery s k 5 none
          | .sourceLost => if d.pulled ∧ d.msg.src ≠ Config.ownDevice then endDelivery s k 3 none else s
    | _ => s)

/-! Collectives (R315 to R323). -/

/-- CRC-32 of IEEE 802.3, one bit and one byte at a time. -/
def crcBit (c : Word) : Word := if c.getLsbD 0 then (c >>> 1) ^^^ 0xEDB88320 else c >>> 1
def crcByte (c : Word) (b : Byte) : Word := (List.range 8).foldl (fun c _ => crcBit c) (c ^^^ b.zeroExtend 32)
def crc32 (bs : List Byte) : Word := ~~~(bs.foldl crcByte 0xFFFFFFFF)

/-- The fields of a shape record (R317). -/
def gridExt (ws : List Word) (k : Nat) : Nat := recBits ws 4 (10 * k + 9) (10 * k) + 1
def gridPos (ws : List Word) (k : Nat) : Nat := recBits ws 5 (10 * k + 9) (10 * k)
def shapeComm (ws : List Word) : Nat := recBits ws 6 23 16
def gridRank (ws : List Word) : Nat := recBits ws 6 12 11
def gatherDim (ws : List Word) : Nat := recBits ws 6 10 8
def collOp (ws : List Word) : Nat := recBits ws 6 7 6
def inRed (ws : List Word) (k : Nat) : Bool := (wordAt ws 6).getLsbD (3 + k)
def inRep (ws : List Word) (k : Nat) : Bool := (wordAt ws 6).getLsbD k
def collStat (ws : List Word) : Nat := recAddr ws 8

/-- Whether a reserved bit of a shape record is set. -/
def shapeReserved (ws : List Word) : Bool :=
  recBits ws 1 31 20 != 0 || recBits ws 3 31 20 != 0 || recBits ws 4 31 30 != 0 || recBits ws 5 31 30 != 0 || recBits ws 6 31 24 != 0
    || recBits ws 6 15 13 != 0 || wordAt ws 7 != 0 || recBits ws 9 31 20 != 0 || (List.range 6).any (fun k => wordAt ws (10 + k) != 0)

/-- The coordinates of a linear rank. -/
def rankPos (ws : List Word) (r k : Nat) : Nat :=
  match k with
  | 0 => r % gridExt ws 0
  | 1 => r / gridExt ws 0 % gridExt ws 1
  | _ => r / gridExt ws 0 / gridExt ws 1
/-- The linear rank that a shape record's coordinates give. -/
def ownRank (ws : List Word) : Nat := gridPos ws 0 + gridExt ws 0 * (gridPos ws 1 + gridExt ws 1 * gridPos ws 2)
/-- The index of a rank over the dimensions that `S` picks (R319). -/
def indexOver (ws : List Word) (S : Nat → Bool) (r : Nat) : Nat :=
  (List.range 3).foldr (fun k n => if S k then rankPos ws r k + gridExt ws k * n else n) 0
/-- The ranks of the group of a rank, ascending. -/
def groupOf (ws : List Word) (n r : Nat) : List Nat :=
  (List.range n).filter (fun q => (List.range 3).all (fun k => inRed ws k || inRep ws k || rankPos ws q k == rankPos ws r k))
/-- `G`: how many tiles are gathered. -/
def gatherCount (ws : List Word) : Nat := (List.range 3).foldl (fun n k => if inRep ws k then n * gridExt ws k else n) 1

/-- The formats a reduction has (R318). -/
def reducible (fmt : Nat) : Bool := [1, 2, 3, 4, 5, 6, 8].contains fmt

/-- Whether a shape record is well formed (R318); the communicator's conditions where it is set up. -/
def shapeOk (s : State) (ws : List Word) (src dst : List Word) : Bool :=
  let dims := List.range 3
  let rank := gridRank ws
  let g := gatherDim ws
  !shapeReserved ws && collStat ws != 0 && decide (1 ≤ rank) && decide (rank ≤ 3)
    && dims.all (fun k => decide (k < rank) || (gridExt ws k == 1 && gridPos ws k == 0))
    && dims.all (fun k => decide (gridPos ws k < gridExt ws k))
    && dims.all (fun k => !(inRed ws k && inRep ws k) && (decide (k < rank) || !(inRed ws k || inRep ws k))) && collOp ws != 3
    && (match Map.find s.fab.comms (shapeComm ws) with
        | some c => gridExt ws 0 * gridExt ws 1 * gridExt ws 2 == c.members.length
                      && c.members.getD (ownRank ws) 1024 == Config.ownDevice
        | none => true)
    && laySpc src == 0 && laySpc dst == 0 && layRank src == layRank dst && layBits src == layBits dst && decide (g < layRank src) && decide (g < 4)
    && (List.range 4).all (fun k => layBox dst k == if k = g then layBox src k * gatherCount ws else layBox src k)
    && (!dims.any (inRed ws) || (reducible (layFmt src) && reducible (layFmt dst)))

/-- Checks every element of a record's box on one side: the places of the elements that exist, with their coordinates' order. -/
def boxSides (s : State) (w : Nat) (l : Lay) (wr : Bool) : State × List EngFault × List XAddr :=
  (positions ((List.range 5).map (fun k => if k < layRank l.ws then layBox l.ws k else 1))).foldl
    (fun (acc : State × List EngFault × List XAddr) x =>
      let r := elemSide acc.1 w .fabric l (x.take (layRank l.ws)) wr
      (r.1, acc.2.1 ++ r.2.2.1, acc.2.2 ++ (match r.2.1 with
        | some y => [y.1]
        | none => []))) (s, [], [])

/-- A write that no buffer map entry takes (R262). -/
def noEntry (f : EngFault) : Bool := f.1 == (0x1C, 1) || f.1 == (0x1C, 2)

/-- The checks of a `tcp.coll` after its record is read, in order (R321). A layout record with a space other than 0 names no pages: the shape record is then not
well formed (R318). -/
def collCheck (s : State) (w : Nat) (ws : List Word) (src dst : Lay) (kind : BitVec 1) (x : BitVec 6) : State × Option EngFault :=
  let narrow := narrowLay s w
  let bad := layBad collUser narrow src || layBad collUser narrow dst
  let sides := fun (s : State) (l : Lay) (wr : Bool) => if laySpc l.ws = 0 then boxSides s w l wr else (s, [], [])
  let a := sides s src false
  let b := sides a.1 dst true
  let st := if collStat ws = 0 then (b.1, none) else checkStatus b.1 w (collStat ws)
  let s := st.1
  let early := a.2.1 ++ b.2.1.filter (fun f => !noEntry f) ++ st.2.toList
  let mono := b.2.2.any (fun p => match p with
    | .bmt m _ _ => !bmtDual (bmtView s (wgAt s w).core (m / 4096) (m % 4096))
    | _ => true)
  let comm := match Map.find s.fab.comms (shapeComm ws) with
    | some c => c.ctx == (wgAt s w).ctx
    | none => false
  match firstFault early with
  | some f => (s, some f)
  | none =>
    if bad then (s, some ((0x09, 6), 0))
    else if !shapeOk s ws src.ws dst.ws then (s, some ((0x22, 3), 0))
    else if !comm then (s, some ((0x22, 4), 0))
    else
      match b.2.1.find? noEntry with
      | some f => (s, some ((0x22, 5), f.2))
      | none =>
        if mono then (s, some ((0x22, 5), 0))
        else (s, (completionFault s w kind x).map (fun i => ((i.code, i.sub), i.faddr)))

/-- Reads the shape record and both layout records; `STAT` is a multiple of 16. -/
def collRecords (s : State) (w : Nat) (va : DWord) : State × Except EngFault (List Word × Lay × Lay) :=
  match readDesc s w va 64 16 with
  | (s, .error f) => (s, .error f)
  | (s, .ok ws) =>
    if collStat ws % 16 ≠ 0 then (s, .error ((0x12, 0), BitVec.ofNat 64 (collStat ws)))
    else
      match readLay s w .fabric (BitVec.ofNat 64 (recAddr ws 0)) with
      | (s, .error f) => (s, .error f)
      | (s, .ok (src, _)) =>
        match readLay s w .fabric (BitVec.ofNat 64 (recAddr ws 2)) with
        | (s, .error f) => (s, .error f)
        | (s, .ok (dst, _)) => (s, .ok (ws, src, dst))

/-- The signature of a collective (R322). -/
def signatureOf (ws : List Word) (src : List Word) (contract : Nat) : Signature :=
  let grid := [gridRank ws, gridExt ws 0, gridExt ws 1, gridExt ws 2, recBits ws 6 2 0, recBits ws 6 5 3, gatherDim ws]
  { count := (boxOf src).foldl (fun n b => n * b) 1, fmt := BitVec.ofNat 5 (layFmt src), opr := BitVec.ofNat 2 (collOp ws)
    contract := contract
    hash := crc32 ((grid ++ (List.range 4).map (layBox src)).flatMap (leBytes 4)) }

/-- The open collectives of a C-die's engine. -/
def collsOpen (s : State) (die : Nat) : Nat := (s.fab.colls.filter (fun c => c.2.die == die)).length

/-- The outcome's record and status word, then the tag or the arrival (R322, R323). The spec drops a completion tag whose workgroup has retired (R111) and is silent
on an arrival: the model makes it at the barrier as it then is, which breaks it (DESIGN CHOICE, log entry 85). -/
def endColl (s : State) (k st len dev : Nat) : State :=
  match Map.find s.fab.colls k with
  | none => s
  | some c =>
    let sub := match st with
      | 9 => 1
      | 10 => 2
      | 11 => 6
      | _ => 0
    let s := if st = 1 then s
      else postRecord s c.die (engineRecord s c.wg 7 0 0 { faultInfo 0x22 sub with ucode := if st = 5 then 0x15 else 0, eng := true })
    let s := { s with fab := { s.fab with colls := Map.del s.fab.colls k } }
    writeStatus s c.wg (collStat c.shape) (statusWords len false st dev 0 (c.seq % 65536)) 0x22 7 c.die (if c.kindBar then .arrive c.x else .tag c.x)

def putColl (s : State) (k : Nat) (c : Coll) : State := { s with fab := { s.fab with colls := Map.put s.fab.colls k c } }

/-- Reads the own source tile of a collective: whether a unit of it is poisoned. Nothing while a remap holds its reads (R299). -/
def collTile (s : State) (c : Coll) : State × Option (List DWord × Bool) :=
  let lay : Lay := { ws := c.src.1, idx := c.src.2 }
  match readPayload s c.wg lay with
  | (s, .ok p) => (s, if p.held then none else some (p.rows.flatten, p.poisoned.isSome))
  | (s, .error _) => (s, none)

/-- The devices that a collective's traffic goes to: those of the other members of its group. -/
def collDevs (s : State) (c : Coll) : List Nat := (c.group.filter (· != c.rank)).map (memberOf s c)

/-- Bytes of a tile of a collective that each other member sends. -/
def tileBytes (c : Coll) : Nat := ((boxOf c.src.1).foldl (fun n b => n * b) 1 * layBits c.src.1 + 7) / 8

/-- Once every signature of the group is there: one that differs ends the collective, else the source is read and sent (R322, R323). -/
def compareSignatures (s : State) (k : Nat) : State :=
  match Map.find s.fab.colls k with
  | none => s
  | some c =>
    if c.own.isSome ∨ !c.group.all (fun r => (Map.find c.sigs r).isSome) then s
    else
      match c.group.find? (fun r => Map.find c.sigs r != Map.find c.sigs (c.group.headD 0)) with
      | some r => endColl s k 10 0 r
      | none =>
        match collTile s c with
        | (s, none) => s
        | (s, some (tile, bad)) =>
          if bad then endColl s k 5 0 c.rank
          else emitSmall (putColl s k { c with own := some tile }) (collDevs s c) (.announce k (tileBytes c))

/-- `tcp.coll` acts once per issue, on the operands of the lowest guard-true lane; its checks park every lane of the issue. Issues once the
squad's earlier stores are acknowledged and the die's engine has room. -/
def execTcpColl (a x : BitVec 6) (_na kind : BitVec 1) (s : State) : Host.Outcome State Fault Refusal :=
  withBundle s (fun u s =>
    if misaligned a 2 then encodingFault s u (faultInfo 0x05 0)
    else
      let g := activeMask s u
      let die := dieOf (wgAt s u.wg).core
      if g = 0 then advance s u u.e.mask
      else if 16 ≤ collsOpen s die then goOn s u u.e.mask u.e.place 1
      else
        let fail := fun (s : State) (f : EngFault) => ownFault s u { faultInfo f.1.1 f.1.2 with faddr := f.2 }
        match collRecords s u.wg (w64 (readReg s u (own a 2) (lowest g))) with
        | (s, .error f) => fail s f
        | (s, .ok (ws, src, dst)) =>
          match collCheck s u.wg ws src dst kind x with
          | (s, some f) => fail s f
          | (s, none) =>
            match Map.find s.fab.comms (shapeComm ws) with
            | none => s
            | some c =>
              let id := newId s
              let rank := ownRank ws
              let sig := signatureOf ws src.ws c.contract
              let coll : Coll :=
                { comm := shapeComm ws, seq := c.seq, ctx := (wgAt s u.wg).ctx, wg := u.wg, die := die, kindBar := kind == 1, x := x.toNat
                  shape := ws, src := (src.ws, src.idx), dst := (dst.ws, dst.idx), rank := rank
                  group := groupOf ws c.members.length rank, own := none, sigs := [(rank, sig)], granted := [], given := [], acks := [], written := none, entries := []
                  pubs := [] }
              let s := { id.2 with fab := { id.2.fab with comms := Map.put id.2.fab.comms (shapeComm ws) { c with seq := c.seq + 1 } } }
              let s := emitSmall (commitWg (putColl s id.1 coll) u.wg) (collDevs s coll) (.signature id.1 sig)
              let s := compareSignatures s id.1
              awaitCheck (advance s u (u.e.mask &&& ~~~g)) u g)

/-- The fixed pairwise tree (R320), with fuel for its depth. -/
def treeOf {α : Type} (f : α → α → α) : Nat → List α → Option α
  | _, [] => none
  | _, [x] => some x
  | 0, x :: _ => some x
  | n + 1, xs =>
    let h := 2 ^ Nat.log2 (xs.length - 1)
    match treeOf f n (xs.take h), treeOf f n (xs.drop h) with
    | some a, some b => some (f a b)
    | a, _ => a

/-- The format a reduction works in. -/
def workFmt (fmt : Nat) : Nat := if fmt = 1 ∨ fmt = 8 then fmt else 2

/-- `combine` of R320 on two codes of the working format. -/
def combine (flush : Bool) (wf op : Nat) (x y : DWord) : DWord :=
  if wf = 8 then
    let a := x.truncate 32
    let b := y.truncate 32
    (if op = 0 then a + b else if (op = 1) = a.slt b then a else b : Word).zeroExtend 64
  else
    let f := if wf = 1 then fp64 else fp32
    BitVec.ofNat 64 (if op = 0 then (f.finish 0 flush (fadd (f.read flush x.toNat) (f.read flush y.toNat))).1
                     else (minMax f flush (op == 2) x.toNat y.toNat).1)

/-- One part (R319): the reduction of its tiles, element by element. -/
def reduceTiles (flush : Bool) (fs fd op : Nat) (red : Bool) (tiles : List (List DWord)) : List DWord :=
  if !red then tiles.headD []
  else
    let wf := workFmt fs
    let flush := flush && wf != 1 -- FP64 keeps subnormals (R144)
    (List.range ((tiles.headD []).length)).map (fun i =>
      let xs := tiles.map (fun t => let v := t.getD i 0
                                    if wf = fs then v else BitVec.ofNat 64 (convert wf fs 0 false false v.toNat).1)
      let r := (treeOf (combine flush wf op) xs.length xs).getD 0
      -- `cvt` with SAT = 1 changes a result of an equal format too: infinities, NaN and subnormals (R145, R164)
      if fd = 8 && wf = 8 then r else BitVec.ofNat 64 (convert fd wf 0 true flush r.toNat).1)

/-- The parts of a group's result, by index over `REP`. -/
def collParts (c : Coll) (flush : Bool) (tiles : List (Nat × List DWord)) : List (List DWord) :=
  let red := (List.range 3).any (inRed c.shape)
  (List.range (gatherCount c.shape)).map (fun q =>
    let mine := sortBy (fun r => [indexOver c.shape (inRed c.shape) r]) (c.group.filter (fun r => indexOver c.shape (inRep c.shape) r == q))
    reduceTiles flush (layFmt c.src.1) (layFmt c.dst.1) (collOp c.shape) red
      (mine.map (fun r => ((tiles.find? (fun t => t.1 == r)).map (fun t => t.2)).getD [])))

/-- The pieces that write the parts into the back (R319). -/
def collPieces (s : State) (c : Coll) (parts : List (List DWord)) : State × Except EngFault (List Piece) :=
  let lay : Lay := { ws := c.dst.1, idx := c.dst.2 }
  let rank := layRank c.src.1
  let g := gatherDim c.shape
  let ps := positions ((List.range 5).map (fun k => if k < rank then layBox c.src.1 k else 1))
  let items := parts.zipIdx.flatMap (fun p => (ps.zip p.1).map (fun x =>
    ((x.1.set g (x.1.getD g 0 + p.2 * layBox c.src.1 g)).take rank, x.2)))
  match collect (fun s x => match locate s c.wg .fabric lay x.1 with
      | (s, .error f) => (s, .error f)
      | (s, .ok (e, _)) => (s, .ok (e.map (fun y => landPiece lay.ws y.1 y.2 (.data (x.2.zeroExtend 128)) (layBytes lay.ws))))) items s with
  | (s, .error f) => (s, .error f)
  | (s, .ok l) => (s, .ok (l.filterMap id))

/-- Half bytes of a 4-bit format count whole in pairs. -/
def collBytes (ws : List Word) (n : Nat) : Nat := if layBits ws = 4 then n / 2 else n

def execCollectiveSignatureArrival (s : State) : Host.Outcome State Fault Refusal :=
  .next (match s.arg with
    | .signature k rank sig =>
      match Map.find s.fab.colls k with
      | some c =>
        if c.group.contains rank ∧ (Map.find c.sigs rank).isNone
        then compareSignatures (putColl s k { c with sigs := Map.put c.sigs rank sig }) k else s
      | none => s
    | _ => s)

/-- COLLECTIVE_BACK_WRITTEN: the tiles of the other members of the group are there, and the result goes into the back; or a member's source is
poisoned. -/
def execCollectiveBackWritten (s : State) : Host.Outcome State Fault Refusal :=
  .next (match s.arg with
    | .tiles k tiles =>
      match Map.find s.fab.colls k with
      | none => s
      | some c =>
        match c.own with
        | none => s
        | some tile =>
          let all := (c.rank, tile) :: tiles.filter (fun t => t.1 != c.rank)
          let whole := c.group.all (fun r => all.any (fun t => t.1 == r && t.2.length == tile.length))
          let granted := c.group.all (fun r => r == c.rank || decide (tileBytes c ≤ Map.getD c.granted r 0))
          if c.written.isSome ∨ !whole ∨ !granted then s
          else
            let flush := ((Map.find s.fab.comms c.comm).map (fun m => m.contract)) == some 1
            match collPieces s c (collParts c flush all) with
            | (_, .error _) => s
            | (t, .ok ps) =>
              let r := landPieces c.wg ps 0 [] t
              match r.2.fault, r.2.rest with
              | none, [] =>
                let t := putColl r.1 k
                  { c with written := some (collBytes c.dst.1 r.2.len), entries := r.2.entries }
                emitSmall t (collDevs t c) (.collAck k)
              | _, _ => s
    | .ids k rank _ =>
      match Map.find s.fab.colls k with
      | some c => if c.own.isSome ∧ c.group.contains rank ∧ rank ≠ c.rank ∧ !c.acks.contains rank then endColl s k 5 0 rank else s
      | none => s
    | _ => s)

/-- Publishes the destination entries of a collective that every member of its group has acknowledged. -/
def acknowledged (s : State) (k : Nat) : State :=
  match Map.find s.fab.colls k with
  | some c =>
    if c.written.isSome ∧ c.pubs.isEmpty ∧ c.group.all (fun r => c.acks.contains r) then
      let q := publishAll s c.entries
      putColl q.1 k { c with pubs := q.2, entries := [] }
    else s
  | none => s

/-- Completes a collective whose publishes every core has applied. -/
def settleColl (s : State) (k : Nat) : State :=
  match Map.find s.fab.colls k with
  | some c =>
    match c.written with
    | some n => if c.group.all (fun r => c.acks.contains r) ∧ c.entries.isEmpty ∧ pubsDone s c.pubs then endColl s k 1 n 0 else s
    | none => s
  | none => s

def execCollectiveAckArrival (s : State) : Host.Outcome State Fault Refusal :=
  .next (match s.arg with
    | .ids k rank _ =>
      match Map.find s.fab.colls k with
      | some c =>
        if c.group.contains rank ∧ (rank ≠ c.rank ∨ c.written.isSome)
        then settleColl (acknowledged (putColl s k { c with acks := (c.acks ++ [rank]).dedup }) k) k else s
      | none => s
    | _ => s)

/-- The payloads that wait for grants of this device: the source device, the number of the delivery, message or collective, and the member's rank. -/
def announced (s : State) : List (Nat × Nat × Nat) :=
  (s.fab.deliveries.filter (fun d => d.2.pulled && decide (d.2.granted < landBytes s d.2))).map (fun d => (d.2.msg.src, d.1, 0))
    ++ (s.fab.inbound.filter (fun m => decide (m.2.2 < messageBytes m.2.1))).map (fun m => (m.2.1.src, m.1, 0))
    ++ s.fab.colls.flatMap (fun c => (c.2.group.filter (fun r =>
        c.2.own.isSome && r != c.2.rank && decide (Map.getD c.2.granted r 0 < tileBytes c.2))).map (fun r =>
          (memberOf s c.2 r, c.1, r)))

/-- Grants 2 KiB of an announced payload; a message that has all its bytes comes in. -/
def grantUnit (s : State) (k rank : Nat) : State :=
  match Map.find s.fab.deliveries k, Map.find s.fab.inbound k, Map.find s.fab.colls k with
  | some d, _, _ => { s with fab := { s.fab with deliveries := Map.put s.fab.deliveries k { d with granted := d.granted + 2048 } } }
  | _, some m, _ =>
    if messageBytes m.1 ≤ m.2 + 2048 then messageArrives { s with fab := { s.fab with inbound := Map.del s.fab.inbound k } } m.1
    else { s with fab := { s.fab with inbound := Map.put s.fab.inbound k (m.1, m.2 + 2048) } }
  | _, _, some c => putColl s k { c with granted := Map.put c.granted rank (Map.getD c.granted rank 0 + 2048) }
  | _, _, _ => s

/-- The elements of a tile in a range of its bytes. -/
def tileSlice (bits lo hi : Nat) (tile : List DWord) : List DWord := (tile.take (hi * 8 / bits)).drop (lo * 8 / bits)

/-- BULK_GRANT (R300): this device grants one unit of 2 KiB, round-robin among the sources that hold announced bytes; or another device grants units of
what this one announced. An eager payload that has all its grants goes out; of a pulled one, and of a collective's tile, what is granted. -/
def execBulkGrant (s : State) : Host.Outcome State Fault Refusal :=
  .next (match s.arg with
    | .ids k rank _ =>
      let turn := fun (x : Nat × Nat × Nat) => (x.1 + 1023 - s.fab.lastGrant) % 1024
      match (announced s).find? (fun x => x.2 == (k, rank)) with
      | some x =>
        if (announced s).all (fun y => decide (turn x ≤ turn y)) then
          emitFab (grantUnit { s with fab := { s.fab with lastGrant := x.1 } } k rank) (.grant k 1)
        else s
      | none => s
    | .value k units =>
      match Map.find s.fab.sends k with
      | some op =>
        if op.ddev = Config.ownDevice ∨ op.sent ∨ op.fate.isSome ∨ keepsBack s (isPayloadOf k) then s
        else
          let g := op.granted + 2048 * units.toNat
          if eagerBytes < op.len then sendUnits s k op g
          else
            let op := { op with granted := g }
            let s := { s with fab := { s.fab with sends := Map.put s.fab.sends k op } }
            if op.len ≤ g then sendPayload s k op else s
      | none => s
    | .nats [k, rank, units] =>
      match Map.find s.fab.colls k with
      | some c =>
        match c.own with
        | some tile =>
          if !c.group.contains rank ∨ rank = c.rank ∨ keepsBack s (isPayloadOf k) then s
          else
            let lo := Map.getD c.given rank 0
            let hi := lo + 2048 * units
            let t := putColl s k { c with given := Map.put c.given rank hi }
            match tileSlice (layBits c.src.1) lo hi tile with
            | [] => t
            | l => emitFab t (.collectiveData k rank l)
        | none => s
      | none => s
    | _ => s)

def execCollectiveHeartbeat (s : State) : Host.Outcome State Fault Refusal :=
  .next (match s.arg with
    | .ids k _ _ =>
      match Map.find s.fab.colls k with
      | some c => emitSmall s (collDevs s c) (.heartbeat k)
      | none => s
    | _ => s)

/-- MEMBER_LOST: not during a remap, nor after the member's acknowledgement (R299, R323). -/
def execMemberLost (s : State) : Host.Outcome State Fault Refusal :=
  .next (match s.arg with
    | .ids k rank _ =>
      match Map.find s.fab.colls k with
      | some c =>
        if s.fab.quiesced.isNone ∧ c.group.contains rank ∧ rank ≠ c.rank ∧ !c.acks.contains rank then endColl s k 9 0 rank else s
      | none => s
    | _ => s)

def execCollectiveTimeout (s : State) : Host.Outcome State Fault Refusal :=
  .next (match s.arg with
    | .ids k _ _ =>
      match Map.find s.fab.colls k with
      | some c =>
        let set := (Map.find s.fab.comms c.comm).any (fun m => m.timeout != 0)
        match c.group.find? (fun r => !c.acks.contains r) with
        | some r => if set ∧ s.fab.quiesced.isNone then endColl s k 11 0 r else s
        | none => s
      | none => s
    | _ => s)

/-- The contracts a device advertises: those with a nonzero `NCAPV` code (R316). -/
def advertOf (ncapv : BitVec 64) : BitVec 16 :=
  (List.range 16).foldl (fun m n => if ncapv.toNat / 16 ^ n % 16 = 0 then m else m ||| ((1#16) <<< n)) 0

/-- COMMUNICATOR_SETUP: on a member device, with an advertisement of each member, the own one its `NCAPV`'s; the highest contract that every member
supports (R316). -/
def execCommunicatorSetup (s : State) : Host.Outcome State Fault Refusal :=
  .next (match s.arg with
    | .comm e =>
      let own := advertOf Config.ncapv
      let all := (e.members.zip e.adverts).map (fun x => if x.1 = Config.ownDevice then own else x.2)
      let ok := e.members.length == e.adverts.length && e.members.contains Config.ownDevice && decide (e.members.length ≤ 1024)
        && decide (e.members.dedup = e.members)
      match ((List.range 16).filter (fun n => all.all (fun a => a.getLsbD n))).getLast? with
      | some best =>
        let c : Comm := { ctx := e.ctx.toNat, members := e.members, contract := best, tempo := e.tempo, timeout := e.timeout.toNat, seq := 0 }
        if ok then { s with fab := { s.fab with comms := Map.put s.fab.comms e.id.toNat c } } else s
      | none => s
    | _ => s)

end Sys2Proof.Machine
end

