-- ==== Sys2Proof/Machine/VecInt.lean ====
section
/-! DEFINITION. The integer, predicate, move, shuffle, vote, identity and index instructions of class VEC (R112 to R138). -/

namespace Sys2Proof.Machine

/-! Integer arithmetic (R124, R125). -/

def execIaddI32 (d a : BitVec 6) (m : BitVec 2) (b : BitVec 6) (n : BitVec 2) (s : State) : Host.Outcome State Fault Refusal :=
  withBundle s (bin32 d a m b n (fun x y => x + y))
def execIaddI64 (d a : BitVec 6) (m : BitVec 2) (b : BitVec 6) (n : BitVec 2) (s : State) : Host.Outcome State Fault Refusal :=
  withBundle s (bin64 d a m b n (fun x y => x + y))
def execIsubI32 (d a : BitVec 6) (m : BitVec 2) (b : BitVec 6) (n : BitVec 2) (s : State) : Host.Outcome State Fault Refusal :=
  withBundle s (bin32 d a m b n (fun x y => x - y))
def execIsubI64 (d a : BitVec 6) (m : BitVec 2) (b : BitVec 6) (n : BitVec 2) (s : State) : Host.Outcome State Fault Refusal :=
  withBundle s (bin64 d a m b n (fun x y => x - y))
def execImulI32 (d a : BitVec 6) (m : BitVec 2) (b : BitVec 6) (n : BitVec 2) (s : State) : Host.Outcome State Fault Refusal :=
  withBundle s (bin32 d a m b n (fun x y => BitVec.ofInt 32 (x.toInt * y.toInt)))
def execImulhI32 (d a : BitVec 6) (m : BitVec 2) (b : BitVec 6) (n : BitVec 2) (s : State) : Host.Outcome State Fault Refusal :=
  withBundle s (bin32 d a m b n (fun x y => BitVec.ofInt 32 (x.toInt * y.toInt / 2 ^ 32)))
def execImulhN32 (d a : BitVec 6) (m : BitVec 2) (b : BitVec 6) (n : BitVec 2) (s : State) : Host.Outcome State Fault Refusal :=
  withBundle s (bin32 d a m b n (fun x y => BitVec.ofNat 32 (x.toNat * y.toNat / 2 ^ 32)))
/-- The old v[D] is read at issue (R125). -/
def execImadI32 (d a : BitVec 6) (m : BitVec 2) (b : BitVec 6) (n : BitVec 2) (s : State) : Host.Outcome State Fault Refusal :=
  withBundle s (laneOp [] d 1 (fun s u l =>
    wide32 (BitVec.ofInt 32 ((w32 (readReg s u (own d 1) l)).toInt
      + (w32 (readReg s u ⟨a, m, 1⟩ l)).toInt * (w32 (readReg s u ⟨b, n, 1⟩ l)).toInt))))
/-- p6 is the carry in and out of each guard-true lane (R125). -/
def execIaddc (d a : BitVec 6) (m : BitVec 2) (b : BitVec 6) (n : BitVec 2) (s : State) : Host.Outcome State Fault Refusal :=
  withBundle s (regOp [] (fun s u g sq =>
    let x := fun l => w32 (readReg s u ⟨a, m, 1⟩ l)
    let y := fun l => w32 (readReg s u ⟨b, n, 1⟩ l)
    let c := fun l => inMask (pget (sqAt s u.wg u.sq) u.e.lb 6) l
    pset (vset sq u.e.lb d.toNat g (fun l => x l + y l + BitVec.ofNat 32 (bit (c l)))) u.e.lb 6 g
      (maskOf (fun l => carryOut (x l) (y l) (c l)))))
def execIminI32 (d a : BitVec 6) (m : BitVec 2) (b : BitVec 6) (n : BitVec 2) (s : State) : Host.Outcome State Fault Refusal :=
  withBundle s (bin32 d a m b n (fun x y => if x.toInt ≤ y.toInt then x else y))
def execIminN32 (d a : BitVec 6) (m : BitVec 2) (b : BitVec 6) (n : BitVec 2) (s : State) : Host.Outcome State Fault Refusal :=
  withBundle s (bin32 d a m b n (fun x y => if x.toNat ≤ y.toNat then x else y))
def execImaxI32 (d a : BitVec 6) (m : BitVec 2) (b : BitVec 6) (n : BitVec 2) (s : State) : Host.Outcome State Fault Refusal :=
  withBundle s (bin32 d a m b n (fun x y => if x.toInt ≤ y.toInt then y else x))
def execImaxN32 (d a : BitVec 6) (m : BitVec 2) (b : BitVec 6) (n : BitVec 2) (s : State) : Host.Outcome State Fault Refusal :=
  withBundle s (bin32 d a m b n (fun x y => if x.toNat ≤ y.toNat then y else x))
def execIabsI32 (d a : BitVec 6) (m : BitVec 2) (s : State) : Host.Outcome State Fault Refusal :=
  withBundle s (un32 d a m (fun x => BitVec.ofNat 32 x.toInt.natAbs))
def execImulwN32 (d a : BitVec 6) (m : BitVec 2) (b : BitVec 6) (n : BitVec 2) (s : State) : Host.Outcome State Fault Refusal :=
  withBundle s (laneOp [] d 2 (fun s u l =>
    wide64 (BitVec.ofNat 64 ((w32 (readReg s u ⟨a, m, 1⟩ l)).toNat * (w32 (readReg s u ⟨b, n, 1⟩ l)).toNat))))

/-! Logic, shifts and bit fields (R126, R127). -/

/-- Shifts by a register (R126): 0 when the count is 32 or more, and 31 at most for `sar`. -/
def shl32 (x : Word) (n : Nat) : Word := if 32 ≤ n then 0 else x <<< n
def shr32 (x : Word) (n : Nat) : Word := if 32 ≤ n then 0 else x >>> n
def sar32 (x : Word) (n : Nat) : Word := x.sshiftRight (min n 31)
/-- The number of leading zero bits. -/
def clz32 (x : Word) : Nat := if x = 0 then 32 else 31 - Nat.log2 x.toNat
/-- Bit i of the result is bit 31 - i. -/
def brev32 (x : Word) : Word := maskOf (fun l => x.getLsbD (31 - l))

def execLand (d a : BitVec 6) (m : BitVec 2) (b : BitVec 6) (n : BitVec 2) (s : State) : Host.Outcome State Fault Refusal :=
  withBundle s (bin32 d a m b n (fun x y => x &&& y))
def execLor (d a : BitVec 6) (m : BitVec 2) (b : BitVec 6) (n : BitVec 2) (s : State) : Host.Outcome State Fault Refusal :=
  withBundle s (bin32 d a m b n (fun x y => x ||| y))
def execLxor (d a : BitVec 6) (m : BitVec 2) (b : BitVec 6) (n : BitVec 2) (s : State) : Host.Outcome State Fault Refusal :=
  withBundle s (bin32 d a m b n (fun x y => x ^^^ y))
def execAndn (d a : BitVec 6) (m : BitVec 2) (b : BitVec 6) (n : BitVec 2) (s : State) : Host.Outcome State Fault Refusal :=
  withBundle s (bin32 d a m b n (fun x y => x &&& ~~~y))
def execShl (d a : BitVec 6) (m : BitVec 2) (b : BitVec 6) (n : BitVec 2) (s : State) : Host.Outcome State Fault Refusal :=
  withBundle s (bin32 d a m b n (fun x y => shl32 x y.toNat))
def execShr (d a : BitVec 6) (m : BitVec 2) (b : BitVec 6) (n : BitVec 2) (s : State) : Host.Outcome State Fault Refusal :=
  withBundle s (bin32 d a m b n (fun x y => shr32 x y.toNat))
def execSar (d a : BitVec 6) (m : BitVec 2) (b : BitVec 6) (n : BitVec 2) (s : State) : Host.Outcome State Fault Refusal :=
  withBundle s (bin32 d a m b n (fun x y => sar32 x y.toNat))
def execRotl (d a : BitVec 6) (m : BitVec 2) (b : BitVec 6) (n : BitVec 2) (s : State) : Host.Outcome State Fault Refusal :=
  withBundle s (bin32 d a m b n (fun x y => x.rotateLeft (y.toNat % 32)))
def execPopc (d a : BitVec 6) (m : BitVec 2) (s : State) : Host.Outcome State Fault Refusal :=
  withBundle s (un32 d a m (fun x => BitVec.ofNat 32 (popCount x)))
def execClz (d a : BitVec 6) (m : BitVec 2) (s : State) : Host.Outcome State Fault Refusal :=
  withBundle s (un32 d a m (fun x => BitVec.ofNat 32 (clz32 x)))
def execBrev (d a : BitVec 6) (m : BitVec 2) (s : State) : Host.Outcome State Fault Refusal :=
  withBundle s (un32 d a m brev32)

/-- Bits [pos+len-1:pos] of a word. -/
def fieldOf (x : Word) (pos len : Nat) : Nat := x.toNat / 2 ^ pos % 2 ^ len
/-- A field of `len` bits as a word, sign- or zero-extended. -/
def extendField (sg : Bool) (f len : Nat) : Word :=
  if sg && decide (2 ^ (len - 1) ≤ f) then BitVec.ofInt 32 ((f : Int) - 2 ^ len) else BitVec.ofNat 32 f
/-- A word with bits [pos+len-1:pos] replaced by the low bits of another. -/
def insertField (old x : Word) (pos len : Nat) : Word :=
  BitVec.ofNat 32 (old.toNat - fieldOf old pos len * 2 ^ pos + fieldOf x 0 len * 2 ^ pos)

def execBfx (d a : BitVec 6) (m : BitVec 2) (pos : BitVec 5) (len : BitVec 6) (sg : BitVec 1) (s : State) : Host.Outcome State Fault Refusal :=
  withBundle s (un32 d a m (fun x => extendField (sg == 1) (fieldOf x pos.toNat len.toNat) len.toNat))
/-- Writes only the field; the other bits of v[D] are those read at issue (R127). -/
def execBfi (d a : BitVec 6) (m : BitVec 2) (pos : BitVec 5) (len : BitVec 6) (s : State) : Host.Outcome State Fault Refusal :=
  withBundle s (laneOp [] d 1 (fun s u l =>
    wide32 (insertField (w32 (readReg s u (own d 1) l)) (w32 (readReg s u ⟨a, m, 1⟩ l)) pos.toNat len.toNat)))

/-! Immediate forms (R128). -/

def execIaddi (d a : BitVec 6) (m : BitVec 2) (i : BitVec 8) (s : State) : Host.Outcome State Fault Refusal :=
  withBundle s (un32 d a m (fun x => x + i.signExtend 32))
def execAndi (d a : BitVec 6) (m : BitVec 2) (i : BitVec 8) (s : State) : Host.Outcome State Fault Refusal :=
  withBundle s (un32 d a m (fun x => x &&& i.signExtend 32))
def execOri (d a : BitVec 6) (m : BitVec 2) (i : BitVec 8) (s : State) : Host.Outcome State Fault Refusal :=
  withBundle s (un32 d a m (fun x => x ||| i.signExtend 32))
def execXori (d a : BitVec 6) (m : BitVec 2) (i : BitVec 8) (s : State) : Host.Outcome State Fault Refusal :=
  withBundle s (un32 d a m (fun x => x ^^^ i.signExtend 32))
def execShli (d a : BitVec 6) (m : BitVec 2) (i : BitVec 5) (s : State) : Host.Outcome State Fault Refusal :=
  withBundle s (un32 d a m (fun x => shl32 x i.toNat))
def execShri (d a : BitVec 6) (m : BitVec 2) (i : BitVec 5) (s : State) : Host.Outcome State Fault Refusal :=
  withBundle s (un32 d a m (fun x => shr32 x i.toNat))
def execSari (d a : BitVec 6) (m : BitVec 2) (i : BitVec 5) (s : State) : Host.Outcome State Fault Refusal :=
  withBundle s (un32 d a m (fun x => sar32 x i.toNat))
def execMovi (d : BitVec 6) (i : BitVec 8) (s : State) : Host.Outcome State Fault Refusal :=
  withBundle s (laneOp [] d 1 (fun _ _ _ => wide32 (i.signExtend 32)))

/-! Compares and predicate work (R129 to R132). -/

def execIcmpI32 (p c : BitVec 3) (a : BitVec 6) (m : BitVec 2) (b : BitVec 6) (n : BitVec 2) (s : State) : Host.Outcome State Fault Refusal :=
  withBundle s (predOp [] p (fun s u l =>
    condition c (orderInt (w32 (readReg s u ⟨a, m, 1⟩ l)).toInt (w32 (readReg s u ⟨b, n, 1⟩ l)).toInt)))
def execIcmpN32 (p c : BitVec 3) (a : BitVec 6) (m : BitVec 2) (b : BitVec 6) (n : BitVec 2) (s : State) : Host.Outcome State Fault Refusal :=
  withBundle s (predOp [] p (fun s u l =>
    condition c (orderInt (w32 (readReg s u ⟨a, m, 1⟩ l)).toNat (w32 (readReg s u ⟨b, n, 1⟩ l)).toNat)))
def execIcmpI64 (p c : BitVec 3) (a : BitVec 6) (m : BitVec 2) (b : BitVec 6) (n : BitVec 2) (s : State) : Host.Outcome State Fault Refusal :=
  withBundle s (predOp [(a, 2), (b, 2)] p (fun s u l =>
    condition c (orderInt (w64 (readReg s u ⟨a, m, 2⟩ l)).toInt (w64 (readReg s u ⟨b, n, 2⟩ l)).toInt)))

/-- The functions of `plog` (R130). -/
def plogFn (f : BitVec 3) (x y : BitVec 32) : BitVec 32 :=
  match f.toNat with
  | 0 => x &&& y
  | 1 => x ||| y
  | 2 => x ^^^ y
  | 3 => x &&& ~~~y
  | 4 => x ||| ~~~y
  | 5 => ~~~(x &&& y)
  | 6 => ~~~(x ||| y)
  | _ => ~~~(x ^^^ y)

def execPlog (p f q r : BitVec 3) (s : State) : Host.Outcome State Fault Refusal :=
  withBundle s (regOp [] (fun s u g sq =>
    let old := sqAt s u.wg u.sq
    pset sq u.e.lb p.toNat g (plogFn f (pget old u.e.lb q.toNat) (pget old u.e.lb r.toNat))))

/-- p0 to p6 take bits [6:0] of the source (R131). -/
def execPmovVp (a : BitVec 6) (m : BitVec 2) (s : State) : Host.Outcome State Fault Refusal :=
  withBundle s (regOp [] (fun s u g sq =>
    (List.range 7).foldl (fun sq k => pset sq u.e.lb k g (maskOf (fun l => (w32 (readReg s u ⟨a, m, 1⟩ l)).getLsbD k))) sq))
/-- Bit 7 of the result is p7, which is true (R131). -/
def execPmovPv (d : BitVec 6) (s : State) : Host.Outcome State Fault Refusal :=
  withBundle s (laneOp [] d 1 (fun s u l =>
    wide32 (BitVec.ofNat 32 ((List.range 8).foldl (fun n k => n + bit (inMask (pget (sqAt s u.wg u.sq) u.e.lb k) l) * 2 ^ k) 0))))
def execSel (d a : BitVec 6) (m : BitVec 2) (b : BitVec 6) (n : BitVec 2) (p : BitVec 3) (s : State) : Host.Outcome State Fault Refusal :=
  withBundle s (laneOp [] d 1 (fun s u l =>
    if inMask (pget (sqAt s u.wg u.sq) u.e.lb p.toNat) l then readReg s u ⟨a, m, 1⟩ l else readReg s u ⟨b, n, 1⟩ l))

/-! Moves, squad registers, the permutation table (R119, R121, R133). -/

def execMov (d a : BitVec 6) (m : BitVec 2) (s : State) : Host.Outcome State Fault Refusal :=
  withBundle s (un32 d a m (fun x => x))
def execMovl (d : BitVec 6) (lit : BitVec 32) (s : State) : Host.Outcome State Fault Refusal :=
  withBundle s (laneOp [] d 1 (fun _ _ _ => wide32 lit))
/-- Once per issue, from the lowest guard-true lane (R119). -/
def execQset (q a : BitVec 6) (m : BitVec 2) (s : State) : Host.Outcome State Fault Refusal :=
  withBundle s (regOp [] (fun s u g sq => if g = 0 then sq else qset sq q.toNat (w32 (readReg s u ⟨a, m, 1⟩ (lowest g)))))
def execQget (d q : BitVec 6) (s : State) : Host.Outcome State Fault Refusal :=
  withBundle s (laneOp [] d 1 (fun s u _ => wide32 (qget (sqAt s u.wg u.sq) q.toNat)))
def execPermSet (t a : BitVec 6) (m : BitVec 2) (s : State) : Host.Outcome State Fault Refusal :=
  withBundle s (regOp [] (fun s u g sq =>
    { sq with pt := (lanesOf g).foldl (fun pt l => Map.put pt (t.toNat * 32 + l) ((w32 (readReg s u ⟨a, m, 1⟩ l)).truncate 5)) sq.pt }))

/-! Shuffles, votes, identity (R134 to R137). -/

/-- Lane i takes register A of lane s + (B(i) mod n) (R134). -/
def execShfl (d a b : BitVec 6) (n : BitVec 2) (s : State) : Host.Outcome State Fault Refusal :=
  withBundle s (laneOp [] d 1 (fun s u l =>
    let seg := segment (h16 s u.wg) l
    readReg s u (own a 1) (seg.1 + (w32 (readReg s u ⟨b, n, 1⟩ l)).toNat % seg.2)))

/-- The source lane of `shfl16` (R135). -/
def shfl16Source (half : Bool) (mode t i : Nat) : Nat :=
  let s := (segment half i).1
  let n := (segment half i).2
  match mode with
  | 0 => s + t % n
  | 1 => if s + t ≤ i then i - t else i
  | 2 => if i + t < s + n then i + t else i
  | _ => s + Nat.xor (i - s) (t % n)

def execShfl16 (d a : BitVec 6) (md : BitVec 2) (t : BitVec 6) (s : State) : Host.Outcome State Fault Refusal :=
  withBundle s (laneOp [] d 1 (fun s u l => readReg s u (own a 1) (shfl16Source (h16 s u.wg) md.toNat t.toNat l)))

/-- The voters of lane i (R136): the guard-true threads of the bundle in its segment, which is of 16 lanes in version 5 (R31). -/
def voters (s : State) (u : Bundle) (g : BitVec 32) (i : Nat) : BitVec 32 :=
  g &&& segmentMask (versionOf s u.wg == 5 || h16 s u.wg) i

def execVoteAny (p q : BitVec 3) (s : State) : Host.Outcome State Fault Refusal :=
  withBundle s (regOp [] (fun s u g sq =>
    pset sq u.e.lb p.toNat g (maskOf (fun i => (voters s u g i &&& pget (sqAt s u.wg u.sq) u.e.lb q.toNat) != 0))))
def execVoteAll (p q : BitVec 3) (s : State) : Host.Outcome State Fault Refusal :=
  withBundle s (regOp [] (fun s u g sq =>
    pset sq u.e.lb p.toNat g (maskOf (fun i => (voters s u g i &&& ~~~pget (sqAt s u.wg u.sq) u.e.lb q.toNat) == 0))))
/-- Bit j is lane s + j of the segment (R33, R136). -/
def execVoteBallot (q : BitVec 3) (d : BitVec 6) (s : State) : Host.Outcome State Fault Refusal :=
  withBundle s (regOp [] (fun s u g sq =>
    vset sq u.e.lb d.toNat g (fun i =>
      (voters s u g i &&& pget (sqAt s u.wg u.sq) u.e.lb q.toNat) >>> (segment (versionOf s u.wg == 5 || h16 s u.wg) i).1)))

/-- The values `idr` reads (R137). In a firmware squad, which has no launch and no logical core, selectors 5 to 8 and 10 to 13 give what the squad's own workgroup
and blank launch hold: the spec is silent (DESIGN CHOICE, log entry 83). -/
def idrValue (s : State) (u : Bundle) (sel l : Nat) : Word :=
  let g := wgAt s u.wg
  let r := (launchAt s g.launch).rec_
  let arg := recAddr r 4
  BitVec.ofNat 32 (match sel with
    | 0 => u.e.lb * 32 + l
    | 1 => l
    | 2 => u.e.lb
    | 3 => u.sq
    | 4 => g.id
    | 5 => (wordAt r 2).toNat
    | 6 => g.core
    | 7 => g.core / 4
    | 8 => g.core / 32
    | 9 => Config.ownDevice
    | 10 => bitsOf arg 31 0
    | 11 => bitsOf arg 51 32
    | 12 => if detLaunch s u.wg then g.persist else 0
    | 13 => if detLaunch s u.wg then recBits r 3 10 8 else 0
    | _ => (sqAt s u.wg u.sq).role)

def execIdr (d : BitVec 6) (sel : BitVec 8) (s : State) : Host.Outcome State Fault Refusal :=
  withBundle s (laneOp [] d 1 (fun s u l => wide32 (idrValue s u sel.toNat l)))

/-! Index registers (R114 to R116). -/

def execIxSet (x : BitVec 2) (a : BitVec 6) (m : BitVec 2) (s : State) : Host.Outcome State Fault Refusal :=
  withBundle s (regOp [] (fun s u g sq =>
    xset sq u.e.lb x.toNat g (fun l =>
      let v := (w32 (readReg s u ⟨a, m, 1⟩ l)).toNat
      (bitsOf v 24 16, bitsOf v 8 0))))
def execIxRd (d : BitVec 6) (x : BitVec 2) (s : State) : Host.Outcome State Fault Refusal :=
  withBundle s (laneOp [] d 1 (fun s u l =>
    let v := xget (sqAt s u.wg u.sq) u.e.lb x.toNat l
    wide32 (BitVec.ofNat 32 (v.1 * 65536 + v.2))))

/-- Words per thread of an allocation code (R24). -/
def allocWords (alloc : Nat) : Nat := 64 * (alloc + 1)

/-- The word an indexed access of a lane reaches, if it is in bounds (R114): the index register, as read at issue, is LIM × 2^16 + BASE. -/
def ixWord (sq : Squad) (x k : Nat) : Option Nat :=
  let w := x % 65536 + k
  if x / 65536 ≤ k ∨ allocWords sq.alloc ≤ w then none else some w

/-- An index instruction's staged operands: the source in a, the index register in c (R331). -/
def ixStage (s : State) (u : Bundle) (x : BitVec 2) (src : Option Opnd) (l : Nat) : Staged :=
  match u.e.replay.find? (fun p => p.1 == l) with
  | some p => p.2
  | none =>
    let v := xget (sqAt s u.wg u.sq) u.e.lb x.toNat l
    { d := 0, a := readOpt s u src l, b := 0, c := BitVec.ofNat 256 (v.1 * 65536 + v.2) }

/-- The lanes of a bundle split by a check: those that pass, and the faults of the others, with what each lane holds staged. -/
def splitLanes (g : BitVec 32) (chk : Nat → Option FaultInfo) (st : Nat → Staged) : BitVec 32 × List (Nat × FaultInfo × Staged) :=
  (maskOf (fun l => inMask g l && (chk l).isNone), (lanesOf g).filterMap (fun l => (chk l).map (fun i => (l, i, st l))))

/-- The shape of a potentially faulting register instruction: each guard-true lane is checked, those that fail park with staged operands
(R331), `f` acts for those that pass, and these and the guard-false threads advance. -/
def checkedOp (u : Bundle) (s : State) (st : Nat → Staged) (chk : Nat → Option FaultInfo) (f : BitVec 32 → Squad → Squad) : State :=
  let g := activeMask s u
  let r := splitLanes g chk st
  let s := modSq s u.wg u.sq (f r.1)
  advance (faultLanes s u r.2) u (u.e.mask &&& (~~~g ||| r.1))

/-- What a record of an index-bounds fault shows as staged: R335 orders register operands and does not name index registers; the model shows none of them, so
`ix.ld` has `STG` 1 and no words (DESIGN CHOICE, log entry 75). -/
def execIxLd (d : BitVec 6) (x : BitVec 2) (k : BitVec 8) (s : State) : Host.Outcome State Fault Refusal :=
  withBundle s (fun u s =>
    let sq := sqAt s u.wg u.sq
    let st := ixStage s u x none
    let wd := fun l => ixWord sq (w32 (st l).c).toNat k.toNat
    checkedOp u s st (fun l => if (wd l).isNone then some { faultInfo 0x06 0 with staged := some [] } else none)
      (fun m q => vset q u.e.lb d.toNat m (fun l => vget sq u.e.lb ((wd l).getD 0) l)))

/-- A record of an index-bounds fault shows the word to store alone, not the index register (DESIGN CHOICE, log entry 75). -/
def execIxSt (r : BitVec 6) (x : BitVec 2) (k : BitVec 8) (s : State) : Host.Outcome State Fault Refusal :=
  withBundle s (fun u s =>
    let sq := sqAt s u.wg u.sq
    let st := ixStage s u x (some (own r 1))
    let wd := fun l => ixWord sq (w32 (st l).c).toNat k.toNat
    checkedOp u s st (fun l => if (wd l).isNone then some { faultInfo 0x06 0 with staged := some [w32 (st l).a] } else none)
      (fun m q => (lanesOf m).foldl (fun q l => vset q u.e.lb ((wd l).getD 0) ((1#32) <<< l) (fun _ => w32 (st l).a)) q))

end Sys2Proof.Machine
end

