-- ==== Sys2Proof/Machine/VecFloat.lean ====
section
/-! DEFINITION. The floating-point, conversion and trouble-detection instructions of class VEC (R142 to R147, R156 to R173). -/

namespace Sys2Proof.Machine

/-- The function-table revision of the launch's contract (R148). -/
def tableRevision (s : State) (w : Nat) : Nat :=
  match contractOf s w with
  | 1 => 1
  | 2 => 2
  | 3 => 2
  | _ => 3

/-- What a lane of a floating-point instruction gives: its register value, its predicate, its flags, and its counts. -/
structure FpOut where
  val : Wide := 0
  pred : Bool := false
  flags : Flags := {}
  satc : Nat := 0
  zerc : Nat := 0
  /-- The register is written (`scale.fit` may leave it). -/
  writes : Bool := true

/-- Adds to a 16-bit counter that stops at its largest value (R166). -/
def addCount (x n : Nat) : Nat := min 0xFFFF (x + n)

/-- The shape of the instructions that can set INV (R147): with `V` = 1 an invalid lane faults once, its replay completes as with `V` = 0;
the lanes that pass write `n` words at d and the predicate, set flags and count, and with `V` = 1 wait for the last check. -/
def fpOp (al : List (BitVec 6 × Nat)) (o : Opnds) (d : Option (BitVec 6 × Nat)) (p : Option (BitVec 3))
    (st : State → Bundle → Nat → Staged) (f : State → Bundle → Staged → FpOut) (u : Bundle) (s : State) : State :=
  if al.any (fun x => misaligned x.1 x.2) then encodingFault s u (faultInfo 0x05 0)
  else
    let g := activeMask s u
    let stg := st s u
    let out := fun l => f s u (stg l)
    let trap := trapInvalid s u.wg && u.e.replay.isEmpty
    let bad := if trap then (lanesOf g).filter (fun l => (out l).flags.inv) else []
    let good := maskOf (fun l => inMask g l && !bad.contains l)
    let s := modSq s u.wg u.sq (fun sq =>
      let wr := maskOf (fun l => inMask good l && (out l).writes)
      let sq := match d with
        | some (d, n) => vsetWide sq u.e.lb d.toNat wr (fun l => (out l).val) n
        | none => sq
      let sq := match p with
        | some p => pset sq u.e.lb p.toNat good (maskOf (fun l => (out l).pred))
        | none => sq
      let fl := (lanesOf good).foldl (fun (x : Flags) l => x.or (out l).flags) {}
      { setFxs sq fl.word with
        satc := addCount sq.satc ((lanesOf good).foldl (fun n l => n + (out l).satc) 0)
        zerc := addCount sq.zerc ((lanesOf good).foldl (fun n l => n + (out l).zerc) 0) })
    if trapInvalid s u.wg then
      let slots := [0, 1, 2, 3]
      let s := parkFailed s u g stg (bad.map (fun l =>
        (l, { faultInfo 0x0C 0 with staged := some (stagedWords o (stg l) slots) })))
      awaitCheck s u good
    else advance s u u.e.mask

/-- The usual operands: read and staged as they are named. -/
def fpReg (al : List (BitVec 6 × Nat)) (o : Opnds) (d : Option (BitVec 6 × Nat)) (p : Option (BitVec 3))
    (f : State → Bundle → Staged → FpOut) : Bundle → State → State :=
  fpOp al o d p (fun s u => stage s u o) f

/-! Arithmetic (R156 to R158). -/

/-- One result of a format as a lane's output. -/
def outCode (r : Nat × Flags) : FpOut := { val := BitVec.ofNat 256 r.1, flags := r.2 }

/-- Two packed halves (R141, R157). -/
def outHalves (lo hi : Nat × Flags) : FpOut := { val := BitVec.ofNat 256 (lo.1 + 2 ^ 16 * hi.1), flags := lo.2.or hi.2 }

/-- The elements of a value in a format. -/
def elemOf (x : Wide) (w j : Nat) : Nat := x.toNat / 2 ^ (w * j) % 2 ^ w

/-- A two- or three-operand instruction on words or pairs: `w` words each, the old d third when `acc`. -/
def arith (f : Fmt) (w : Nat) (acc : Bool) (fn : FVal → FVal → FVal → XVal × Bool)
    (d a : BitVec 6) (m : BitVec 2) (b : BitVec 6) (n : BitVec 2) : Bundle → State → State :=
  let o : Opnds := { d := if acc then some (own d w) else none, a := some ⟨a, m, w⟩, b := some ⟨b, n, w⟩ }
  fpReg [(d, w), (a, w), (b, w)] o (some (d, w)) none (fun s u st =>
    let fl := flushes s u.wg && f.eb != 11
    let one := fun j =>
      let rd := fun (x : Wide) => f.read fl (elemOf x (f.signBit + 1) j)
      f.finish 0 fl (fn (rd st.a) (rd st.b) (rd st.d))
    if f.signBit = 15 then outHalves (one 0) (one 1) else outCode (one 0))

def addFn (x y _z : FVal) : XVal × Bool := fadd x y
def subFn (x y _z : FVal) : XVal × Bool := fadd x y.negate
def mulFn (x y _z : FVal) : XVal × Bool := fmul x y
def fmaFn (x y z : FVal) : XVal × Bool := ffma x y z

def execFaddF32 (d a : BitVec 6) (m : BitVec 2) (b : BitVec 6) (n : BitVec 2) (s : State) : Host.Outcome State Fault Refusal :=
  withBundle s (arith fp32 1 false addFn d a m b n)
def execFaddF64 (d a : BitVec 6) (m : BitVec 2) (b : BitVec 6) (n : BitVec 2) (s : State) : Host.Outcome State Fault Refusal :=
  withBundle s (arith fp64 2 false addFn d a m b n)
def execFaddH2 (d a : BitVec 6) (m : BitVec 2) (b : BitVec 6) (n : BitVec 2) (s : State) : Host.Outcome State Fault Refusal :=
  withBundle s (arith fp16 1 false addFn d a m b n)
def execFaddB2 (d a : BitVec 6) (m : BitVec 2) (b : BitVec 6) (n : BitVec 2) (s : State) : Host.Outcome State Fault Refusal :=
  withBundle s (arith bf16 1 false addFn d a m b n)
def execFsubF32 (d a : BitVec 6) (m : BitVec 2) (b : BitVec 6) (n : BitVec 2) (s : State) : Host.Outcome State Fault Refusal :=
  withBundle s (arith fp32 1 false subFn d a m b n)
def execFsubF64 (d a : BitVec 6) (m : BitVec 2) (b : BitVec 6) (n : BitVec 2) (s : State) : Host.Outcome State Fault Refusal :=
  withBundle s (arith fp64 2 false subFn d a m b n)
def execFmulF32 (d a : BitVec 6) (m : BitVec 2) (b : BitVec 6) (n : BitVec 2) (s : State) : Host.Outcome State Fault Refusal :=
  withBundle s (arith fp32 1 false mulFn d a m b n)
def execFmulF64 (d a : BitVec 6) (m : BitVec 2) (b : BitVec 6) (n : BitVec 2) (s : State) : Host.Outcome State Fault Refusal :=
  withBundle s (arith fp64 2 false mulFn d a m b n)
def execFmulH2 (d a : BitVec 6) (m : BitVec 2) (b : BitVec 6) (n : BitVec 2) (s : State) : Host.Outcome State Fault Refusal :=
  withBundle s (arith fp16 1 false mulFn d a m b n)
def execFmulB2 (d a : BitVec 6) (m : BitVec 2) (b : BitVec 6) (n : BitVec 2) (s : State) : Host.Outcome State Fault Refusal :=
  withBundle s (arith bf16 1 false mulFn d a m b n)
def execFfmaF32 (d a : BitVec 6) (m : BitVec 2) (b : BitVec 6) (n : BitVec 2) (s : State) : Host.Outcome State Fault Refusal :=
  withBundle s (arith fp32 1 true fmaFn d a m b n)
def execFfmaF64 (d a : BitVec 6) (m : BitVec 2) (b : BitVec 6) (n : BitVec 2) (s : State) : Host.Outcome State Fault Refusal :=
  withBundle s (arith fp64 2 true fmaFn d a m b n)
def execFfmaH2 (d a : BitVec 6) (m : BitVec 2) (b : BitVec 6) (n : BitVec 2) (s : State) : Host.Outcome State Fault Refusal :=
  withBundle s (arith fp16 1 true fmaFn d a m b n)
def execFfmaB2 (d a : BitVec 6) (m : BitVec 2) (b : BitVec 6) (n : BitVec 2) (s : State) : Host.Outcome State Fault Refusal :=
  withBundle s (arith bf16 1 true fmaFn d a m b n)

/-- The long fused form: c from its own register, and the rounding mode (R158). -/
def fmaLong (f : Fmt) (w : Nat) (d a : BitVec 6) (m : BitVec 2) (b : BitVec 6) (n : BitVec 2) (c : BitVec 6) (k : BitVec 2) (rm : BitVec 3) :
    Bundle → State → State :=
  let o : Opnds := { a := some ⟨a, m, w⟩, b := some ⟨b, n, w⟩, c := some ⟨c, k, w⟩ }
  fpReg [(d, w), (a, w), (b, w), (c, w)] o (some (d, w)) none (fun s u st =>
    let fl := flushes s u.wg && f.eb != 11
    let rd := fun (x : Wide) => f.read fl (elemOf x (f.signBit + 1) 0)
    outCode (f.finish rm.toNat fl (ffma (rd st.a) (rd st.b) (rd st.c))))

def execFfmalF32 (d a : BitVec 6) (m : BitVec 2) (b : BitVec 6) (n : BitVec 2) (c : BitVec 6) (k : BitVec 2) (rm : BitVec 3)
    (s : State) : Host.Outcome State Fault Refusal := withBundle s (fmaLong fp32 1 d a m b n c k rm)
def execFfmalF64 (d a : BitVec 6) (m : BitVec 2) (b : BitVec 6) (n : BitVec 2) (c : BitVec 6) (k : BitVec 2) (rm : BitVec 3)
    (s : State) : Host.Outcome State Fault Refusal := withBundle s (fmaLong fp64 2 d a m b n c k rm)

/-! Minimum and maximum, sign, compares (R159 to R161). -/

def minMaxOp (f : Fmt) (w : Nat) (isMax : Bool) (d a : BitVec 6) (m : BitVec 2) (b : BitVec 6) (n : BitVec 2) : Bundle → State → State :=
  let o : Opnds := { a := some ⟨a, m, w⟩, b := some ⟨b, n, w⟩ }
  fpReg [(d, w), (a, w), (b, w)] o (some (d, w)) none (fun s u st =>
    outCode (minMax f (flushes s u.wg && f.eb != 11) isMax (elemOf st.a (f.signBit + 1) 0) (elemOf st.b (f.signBit + 1) 0)))

def execFminF32 (d a : BitVec 6) (m : BitVec 2) (b : BitVec 6) (n : BitVec 2) (s : State) : Host.Outcome State Fault Refusal :=
  withBundle s (minMaxOp fp32 1 false d a m b n)
def execFminF64 (d a : BitVec 6) (m : BitVec 2) (b : BitVec 6) (n : BitVec 2) (s : State) : Host.Outcome State Fault Refusal :=
  withBundle s (minMaxOp fp64 2 false d a m b n)
def execFmaxF32 (d a : BitVec 6) (m : BitVec 2) (b : BitVec 6) (n : BitVec 2) (s : State) : Host.Outcome State Fault Refusal :=
  withBundle s (minMaxOp fp32 1 true d a m b n)
def execFmaxF64 (d a : BitVec 6) (m : BitVec 2) (b : BitVec 6) (n : BitVec 2) (s : State) : Host.Outcome State Fault Refusal :=
  withBundle s (minMaxOp fp64 2 true d a m b n)

/-- The sign functions on one element (R160): bits alone, but a NaN gives the canonical NaN. -/
def signFn (f : Fmt) (fn : Nat) (a b : Nat) : Nat :=
  let mag := a % 2 ^ f.signBit
  let sa := a / 2 ^ f.signBit % 2 == 1
  let sb := b / 2 ^ f.signBit % 2 == 1
  if (f.read false a).isNaN then f.nanCode
  else f.signed (match fn with
    | 0 => !sa
    | 1 => false
    | _ => sb) mag

/-- Type and function of `fsgn`: 2 `.f32`, 1 `.f64`, 4 `.h2`, 3 `.b2` (R160). -/
def execFsgn (d a : BitVec 6) (m : BitVec 2) (b : BitVec 6) (n : BitVec 2) (ty fn : BitVec 5) (s : State) : Host.Outcome State Fault Refusal :=
  let w := if ty = 1 then 2 else 1
  withBundle s (laneOp (if fn = 2 then [(a, w), (b, w)] else [(a, w)]) d w (fun s u l =>
    let x := readReg s u ⟨a, m, w⟩ l
    let y := readReg s u ⟨b, n, w⟩ l
    let f := (floatFmt ty.toNat).getD fp32
    let one := fun j => signFn f fn.toNat (elemOf x (f.signBit + 1) j) (elemOf y (f.signBit + 1) j)
    BitVec.ofNat 256 (if f.signBit = 15 then one 0 + 2 ^ 16 * one 1 else one 0)))

/-- The compares (R161): an ordered condition with a NaN, or a signalling NaN, is invalid. -/
def fcmpOp (f : Fmt) (w : Nat) (p c : BitVec 3) (a : BitVec 6) (m : BitVec 2) (b : BitVec 6) (n : BitVec 2) : Bundle → State → State :=
  let o : Opnds := { a := some ⟨a, m, w⟩, b := some ⟨b, n, w⟩ }
  fpReg [(a, w), (b, w)] o none (some p) (fun s u st =>
    let fl := flushes s u.wg && f.eb != 11
    let x := f.read fl (elemOf st.a (f.signBit + 1) 0)
    let y := f.read fl (elemOf st.b (f.signBit + 1) 0)
    { pred := condition c (orderF x y)
      flags := { inv := x.signalling || y.signalling || ((x.isNaN || y.isNaN) && decide (2 ≤ c.toNat) && decide (c.toNat ≤ 5)) } })

def execFcmpF32 (p c : BitVec 3) (a : BitVec 6) (m : BitVec 2) (b : BitVec 6) (n : BitVec 2) (s : State) : Host.Outcome State Fault Refusal :=
  withBundle s (fcmpOp fp32 1 p c a m b n)
def execFcmpF64 (p c : BitVec 3) (a : BitVec 6) (m : BitVec 2) (b : BitVec 6) (n : BitVec 2) (s : State) : Host.Outcome State Fault Refusal :=
  withBundle s (fcmpOp fp64 2 p c a m b n)

/-! Functions (R162). -/

def funcOp (op : FnOp) (d a : BitVec 6) (m : BitVec 2) : Bundle → State → State :=
  fpReg [] { a := some ⟨a, m, 1⟩ } (some (d, 1)) none (fun s u st => outCode (fnOp op (tableRevision s u.wg) (flushes s u.wg) (w32 st.a).toNat))

def execFrcp (d a : BitVec 6) (m : BitVec 2) (s : State) : Host.Outcome State Fault Refusal := withBundle s (funcOp .rcp d a m)
def execFrsq (d a : BitVec 6) (m : BitVec 2) (s : State) : Host.Outcome State Fault Refusal := withBundle s (funcOp .rsq d a m)
def execFsqrt (d a : BitVec 6) (m : BitVec 2) (s : State) : Host.Outcome State Fault Refusal := withBundle s (funcOp .sqrt d a m)
def execFexp2 (d a : BitVec 6) (m : BitVec 2) (s : State) : Host.Outcome State Fault Refusal := withBundle s (funcOp .exp2 d a m)
def execFlog2 (d a : BitVec 6) (m : BitVec 2) (s : State) : Host.Outcome State Fault Refusal := withBundle s (funcOp .log2 d a m)
def execFsin (d a : BitVec 6) (m : BitVec 2) (s : State) : Host.Outcome State Fault Refusal := withBundle s (funcOp .sin d a m)
def execFcos (d a : BitVec 6) (m : BitVec 2) (s : State) : Host.Outcome State Fault Refusal := withBundle s (funcOp .cos d a m)

/-! Conversion (R163 to R167). -/

/-- Whether a format code is refused by the launch's version or contract (R140). -/
def formatAbsent (s : State) (w c : Nat) : Bool :=
  (contractOf s w == 1 || versionOf s w == 5) && (c == 5 || c == 6 || c == 7 || c == 11)

/-- A conversion whose format code is absent stops the whole issue (R140, R403); else it runs. The encoding's alignment comes first (R52). Of vector
instructions R140 gives the fault's code alone; its subcode is that of a format absent from the version in R256, 1 (log entry 61). -/
def formatOp (codes : List Nat) (al : List (BitVec 6 × Nat)) (f : Bundle → State → State) (u : Bundle) (s : State) : State :=
  if codes.any (formatAbsent s u.wg) && !(al.any (fun x => misaligned x.1 x.2)) then ownFault s u (faultInfo 0x09 1) else f u s

/-- The words a value of a format code takes (R141). -/
def codeWords (c : Nat) : Nat := if codeBits c = 64 then 2 else 1

def execCvt (d a : BitVec 6) (m : BitVec 2) (fd fs : BitVec 5) (rm : BitVec 3) (sat : BitVec 1) (s : State) :
    Host.Outcome State Fault Refusal :=
  let wd := codeWords fd.toNat
  let ws := codeWords fs.toNat
  withBundle s (formatOp [fd.toNat, fs.toNat] [(d, wd), (a, ws)]
    (fpReg [(d, wd), (a, ws)] { a := some ⟨a, m, ws⟩ } (some (d, wd)) none (fun s u st =>
      outCode (convert fd.toNat fs.toNat rm.toNat (sat == 1) (flushes s u.wg) (elemOf st.a (codeBits fs.toNat) 0)))))

/-- A block scale: exact when it is finite and positive (R166). That a subnormal scale is flushed under NC 1, like the `.f32` operands of R144, is the
model's reading (log entry 61). -/
def scaleOf (flush : Bool) (x : Word) : Option (Nat × Nat) :=
  match (fp32.read flush x.toNat).exact with
  | .num false n d => if n = 0 then none else some (n, d)
  | _ => none

/-- The largest finite value of a `pack` target, exactly (R166). -/
def largestOf (c : Nat) : Nat × Nat :=
  match floatFmt c with
  | some f => (match (f.read false f.maxCode).exact with
    | .num _ n d => (n, d)
    | _ => (0, 1))
  | none => (2 ^ ((intFmt c).getD (1, true)).1 / 2 - 1, 1)

/-- One source value of `pack` (R166): its code, flags and counts. -/
def packOne (c mode : Nat) (sat flush : Bool) (scale : Option (Nat × Nat)) (x : Word) : FpOut :=
  let v := fp32.read flush x.toNat
  match scale with
  | none => { val := BitVec.ofNat 256 (((floatFmt c).map Fmt.nanCode).getD 0), flags := { inv := true }, satc := 1 }
  | some (sn, sd) =>
    let q : XVal := match v.exact with
      | .num neg n d => .num neg (n * sd) (d * sn)
      | y => y
    let r := writeCode c mode sat flush q
    let far := match q with
      | .num _ n d => decide ((largestOf c).1 * d < n * (largestOf c).2)
      | _ => true
    let mag := match floatFmt c with
      | some f => r.1 % 2 ^ f.signBit
      | none => r.1
    let nonzero := match v with
      | .num _ m _ => m != 0
      | _ => false
    { val := BitVec.ofNat 256 r.1, flags := r.2.or { inv := v.signalling }, satc := bit far, zerc := bit (nonzero && mag == 0) }

/-- The operands of `pack` and `unpack`: the scale is the q register, read at issue and staged with the others (R165, R331). -/
def scaledStage (o : Opnds) (q : BitVec 6) (s : State) (u : Bundle) (l : Nat) : Staged :=
  match u.e.replay.find? (fun p => p.1 == l) with
  | some p => p.2
  | none => { stage s u o l with c := wide32 (qget (sqAt s u.wg u.sq) q.toNat) }

def execPack (d a : BitVec 6) (m : BitVec 2) (b : BitVec 6) (n : BitVec 2) (q : BitVec 6) (fd : BitVec 5) (rm : BitVec 3) (sat : BitVec 1)
    (s : State) : Host.Outcome State Fault Refusal :=
  let w := codeBits fd.toNat
  let k := if w = 16 then 2 else 4
  let o : Opnds := { a := some ⟨a, m, k⟩, b := if w = 4 then some ⟨b, n, 4⟩ else none }
  let al := if w = 4 then [(a, k), (b, 4)] else [(a, k)]
  withBundle s (formatOp [fd.toNat] al (fpOp al o (some (d, 1)) none (scaledStage o q) (fun s u st =>
    let fl := flushes s u.wg
    let xs := wordsOf st.a k ++ (if w = 4 then wordsOf st.b 4 else [])
    (xs.map (packOne fd.toNat rm.toNat (sat == 1) fl (scaleOf fl (w32 st.c)))).zipIdx.foldl (fun (acc : FpOut) (x : FpOut × Nat) =>
      { val := acc.val ||| (x.1.val <<< (w * x.2)), flags := acc.flags.or x.1.flags, satc := acc.satc + x.1.satc, zerc := acc.zerc + x.1.zerc })
      {})))

/-- One code of `unpack` (R167): the exact product with the scale, rounded once. -/
def unpackOne (c mode : Nat) (flush : Bool) (scale : Option (Nat × Nat)) (x : Nat) : Nat × Flags :=
  let v := readCode c flush x
  match scale with
  | none => (fp32.nanCode, { inv := true })
  | some (n, d) =>
    let r := v.1.mul (.num false n d)
    let y := fp32.deliver mode false flush r.1
    (y.1, y.2.or { inv := v.2 })

def execUnpack (d a : BitVec 6) (m : BitVec 2) (q : BitVec 6) (fs : BitVec 5) (rm : BitVec 3) (hi : BitVec 1) (s : State) :
    Host.Outcome State Fault Refusal :=
  let w := codeBits fs.toNat
  let k := if w = 16 then 2 else 4
  let o : Opnds := { a := some ⟨a, m, 1⟩ }
  withBundle s (formatOp [fs.toNat] [(d, k)] (fpOp [(d, k)] o (some (d, k)) none (scaledStage o q) (fun s u st =>
    let fl := flushes s u.wg
    (List.range k).foldl (fun (acc : FpOut) j =>
      let r := unpackOne fs.toNat rm.toNat fl (scaleOf fl (w32 st.c)) (elemOf st.a w (j + 4 * hi.toNat))
      { acc with val := acc.val ||| (BitVec.ofNat 256 r.1 <<< (32 * j)), flags := acc.flags.or r.2 }) {})))

/-! Trouble detection (R168 to R172). -/

/-- The largest |x| of FP32 codes: exact, the canonical NaN if any is a NaN (R169). -/
def amaxOf (xs : List Nat) : Nat :=
  if xs.any (fun x => (fp32.read false x).isNaN) then fp32.nanCode else xs.foldl (fun n x => max n (x % 2 ^ 31)) 0

/-- `amax` over `n` words of every member of a lane's segment (R169). -/
def amaxWide (d a : BitVec 6) (n : Nat) : Bundle → State → State :=
  laneOp [(a, n)] d 1 (fun s u l =>
    let ms := lanesOf (activeMask s u &&& segmentMask (h16 s u.wg) l)
    BitVec.ofNat 256 (amaxOf (ms.flatMap (fun k => (wordsOf (readReg s u (own a n) k) n).map BitVec.toNat))))
def execAmax (d a : BitVec 6) (s : State) : Host.Outcome State Fault Refusal := withBundle s (amaxWide d a 1)
def execAmaxQuad (d a : BitVec 6) (s : State) : Host.Outcome State Fault Refusal := withBundle s (amaxWide d a 4)

/-- The divisor of a `scale.fit` selector (R170). -/
def fitDivisor (sel : Nat) : Nat :=
  match sel with
  | 0 => 448
  | 1 => 57344
  | 2 => 6
  | 3 => 127
  | 4 => 7
  | _ => 65504

def execScaleFit (d a : BitVec 6) (p sel : BitVec 3) (m : BitVec 2) (s : State) : Host.Outcome State Fault Refusal :=
  withBundle s (fpReg [] { d := some (own d 1), a := some (own a 1) } (some (d, 1)) (some p) (fun _ _ st =>
    match (fp32.read false (w32 st.a).toNat).exact with
    | .num _ n k =>
      if n = 0 then { writes := false, pred := true }
      else outCode (fp32.round 2 false false false (n * 2 ^ m.toNat) (k * fitDivisor sel.toNat))
    | _ => { writes := false, flags := { inv := true } }))

/-- `WM` (R23). -/
def watchMode (s : State) (w : Nat) : Nat := recBits (khwOf s w) 0 18 17

def execHcnt (d : BitVec 6) (s : State) : Host.Outcome State Fault Refusal :=
  withBundle s (regOp [] (fun _ u g sq =>
    if g = 0 then sq
    else { vset sq u.e.lb d.toNat g (fun _ => BitVec.ofNat 32 (sq.zerc * 65536 + sq.satc)) with satc := 0, zerc := 0 }))
def execHchk (p : BitVec 3) (s : State) : Host.Outcome State Fault Refusal :=
  withBundle s (regOp [] (fun s u g sq =>
    if g = 0 then sq
    else
      let t := watchMode s u.wg % 2 == 1 && (decide (bitsOf sq.watch.toNat 7 0 < sq.satc) || decide (bitsOf sq.watch.toNat 15 8 < sq.zerc))
      { pset sq u.e.lb p.toNat g (if t then BitVec.allOnes 32 else 0) with satc := 0, zerc := 0 }))

/-- The largest value of `SUM` (R172). -/
def sumTop : Nat := 2 ^ 256 - 1
def normOf (g : Wg) (k : Nat) : NormW := Map.getD g.norms k { sum := 0, nf := false, avg := 0, cnt := 0 }

/-- Adds one value to a watcher (R172). -/
def normAdd (n : NormW) (x : Word) : NormW :=
  match fp32.read false x.toNat with
  | .num _ m e =>
    let q := 2 * e + 80
    let sq := if 0 ≤ q then m * m * 2 ^ q.toNat else m * m / 2 ^ (-q).toNat
    if sumTop ≤ n.sum + sq then { n with sum := sumTop, nf := true } else { n with sum := n.sum + sq }
  | _ => { n with nf := true }

def execNormAcc (k : BitVec 4) (a : BitVec 6) (s : State) : Host.Outcome State Fault Refusal :=
  withBundle s (fun u s =>
    let g := activeMask s u
    let s := advance s u u.e.mask
    if g = 0 then s
    else
      let add := fun (n : NormW) (l : Nat) => normAdd n (w32 (readReg s u (own a 1) l))
      modWg s u.wg (fun x => { x with norms := Map.put x.norms k.toNat ((lanesOf g).foldl add (normOf x k.toNat)) }))

/-- An FP64 code as an exact value, and an exact value rounded to one. -/
def val64 (x : DWord) : XVal := (fp64.read false x.toNat).exact
def round64 (x : XVal) : DWord := BitVec.ofNat 64 (fp64.deliver 0 false false x).1

/-- The check of a watcher (R172): the answer and the watcher after it. -/
def normCheck (wm jf avs : Nat) (n : NormW) : Bool × NormW :=
  let total := round64 (.num false n.sum (2 ^ 80))
  let bound := round64 ((val64 n.avg).mul (.num false jf 16)).1
  let t :=
    if wm ≠ 2 ∧ wm ≠ 3 then false
    else if n.nf then true
    else if n.cnt = 0 then false
    else orderF (fp64.read false total.toNat) (fp64.read false bound.toNat) == .gt
  let avg :=
    if t then n.avg
    else if n.cnt = 0 then total
    else
      let minus := match val64 n.avg with
        | .num neg a b => XVal.num (!neg) a b
        | y => y
      let diff := ((val64 total).add minus).1
      round64 (((val64 n.avg).add (val64 (round64 (diff.mul (.num false 1 (2 ^ avs))).1))).1)
  (t, { sum := 0, nf := false, avg := avg, cnt := if t then n.cnt else min (n.cnt + 1) (2 ^ 32 - 1) })

def execNormChk (p : BitVec 3) (k : BitVec 4) (s : State) : Host.Outcome State Fault Refusal :=
  withBundle s (fun u s =>
    let g := activeMask s u
    let s := advance s u u.e.mask
    if g = 0 then s
    else
      let w := (sqAt s u.wg u.sq).watch.toNat
      let r := normCheck (watchMode s u.wg) (bitsOf w 23 16) (bitsOf w 27 24) (normOf (wgAt s u.wg) k.toNat)
      let s := modWg s u.wg (fun x => { x with norms := Map.put x.norms k.toNat r.2 })
      modSq s u.wg u.sq (fun sq => pset sq u.e.lb p.toNat g (if r.1 then BitVec.allOnes 32 else 0)))

end Sys2Proof.Machine
end

