-- ==== Sys2Proof/Machine/Matrix.lean ====
section
/-! DEFINITION. The matrix engine: format records, operands, the checks of an operation, its result, and the instructions of class MAT
(R232 to R258). -/

namespace Sys2Proof.Machine

/-! Format records (R235, R237). -/

/-- What a format record says. -/
structure MatShape where
  fa : Nat
  fb : Nat
  fc : Nat
  m : Nat
  n : Nat
  k : Nat
  pi : Bool
  deriving DecidableEq, Repr

/-- The fields of `MF0` (R235); reserved codes of `KC` and `NS` are refused before these are used. -/
def shapeOf (mf0 : Word) : MatShape :=
  let x := mf0.toNat
  { fa := bitsOf x 4 0, fb := bitsOf x 9 5, fc := bitsOf x 14 10, m := 32 * (bitsOf x 16 15 + 1)
    n := [32, 64, 128, 256, 512, 640].getD (bitsOf x 19 17) 640, k := 16 * 2 ^ bitsOf x 22 20, pi := mf0.getLsbD 23 }

/-- How a combination of formats is computed (R237). -/
inductive MatPath where
  | model
  | integer
  | run
  | emulated
  deriving DecidableEq, Repr

/-- The permitted combinations of formats (R237). -/
def matPath (nc fa fb fc : Nat) : Option MatPath :=
  let fp8 := if nc = 2 ∨ nc = 3 then MatPath.model else .run
  if fa = fb ∧ fb = fc ∧ (fa = 1 ∨ fa = 2) then some .model
  else if fc = 2 ∧ fa = fb ∧ (fa = 3 ∨ fa = 4) then some .model
  else if fc = 2 ∧ ((fa = 5 ∨ fa = 6) ∧ (fb = 5 ∨ fb = 6) ∨ fa = 7 ∧ fb = 7) then (if nc = 1 then none else some fp8)
  else if fc = 8 ∧ fa = 10 ∧ fb = 10 then some .integer
  else if fc = 8 ∧ fa = 11 ∧ fb = 11 then (if nc = 1 then none else some .integer)
  else if fc = 2 ∧ fa = fb ∧ (fa = 18 ∨ fa = 19) then some .emulated
  else none

/-! Operands (R241 to R243). -/

/-- The operands of a matrix instruction: kind and number of A and B, and `CREG`. -/
structure MatFields where
  x : Bool
  a : Nat
  y : Bool
  b : Nat
  r : Nat
  deriving DecidableEq, Repr

/-- An operation's fields, what it does with C (0 `mma`, 1 `mmz`, 2 `mmp`), and whether it is a cluster form; nothing for the others. -/
def matFields (i : Instr) : Option (MatFields × Nat × Bool) :=
  let f := fun (x : BitVec 1) (a : BitVec 6) (y : BitVec 1) (b : BitVec 6) (r : BitVec 5) =>
    ({ x := x == 1, a := a.toNat, y := y == 1, b := b.toNat, r := r.toNat } : MatFields)
  match i with
  | .mma _ x a y b r => some (f x a y b r, 0, false)
  | .mmz _ x a y b r => some (f x a y b r, 1, false)
  | .mmp _ x a y b r => some (f x a y b r, 2, false)
  | .mmaCl _ x a y b r => some (f x a y b r, 0, true)
  | .mmzCl _ x a y b r => some (f x a y b r, 1, true)
  | .mmpCl _ x a y b r => some (f x a y b r, 2, true)
  | _ => none

/-- The regions that `acc.clr` and `acc.cp` write and read: destination, source, count (R252). -/
def accFields (i : Instr) : Option (Nat × Option Nat × Nat) :=
  match i with
  | .accClr _ n r => some (r.toNat, none, n.toNat + 1)
  | .accCp _ t n r => some (t.toNat, some r.toNat, n.toNat + 1)
  | _ => none

/-- The registers from v`r` on that a register operand of K elements takes (R241). -/
def operandRegs (r code k : Nat) : Nat × Nat := (r, k * codeBits code / 32)

/-- The rotation of storage row `r` (R243). -/
def rotation (rot r : Nat) : Nat :=
  match rot with
  | 0 => 0
  | 1 => r
  | 2 => 2 * r
  | 3 => 4 * r
  | 4 => r / 2
  | 5 => r / 4
  | _ => Nat.xor (r % 32) (r / 32 % 32)

/-- The byte offset of byte position `j` of storage row `r` (R243). -/
def descByte (d : DWord) (r j : Nat) : Nat :=
  let lo := (d.truncate 32 : Word).toNat
  let hi := (d >>> 32).toNat % 2 ^ 32
  let x := r * bitsOf hi 11 0 * 32 + j % 128
  let u := x / 32
  let u2 := 32 * (u / 32) + (u + rotation (bitsOf hi 28 26) r) % 32
  bitsOf lo 19 0 + j / 128 * bitsOf hi 25 12 * 128 + u2 * 32 + x % 32

/-- The bytes, lowest first, that hold element (i, k) of `w` bits, and the bit of the first at which it begins (R243). -/
def descBytes (d : DWord) (w i k : Nat) : List Nat × Nat :=
  let tr := d.getLsbD 61
  let r := if tr then k else i
  let b := (if tr then i else k) * w
  ((List.range ((b % 8 + w + 7) / 8)).map (fun n => descByte d r (b / 8 + n)), b % 8)

/-- The workgroup and typed buffer a descriptor names, for an issuer (R242): 1 W, 2 A, 4 S; its own when `CORE` is its own position. -/
def descHome (s : State) (w : Nat) (d : DWord) : Nat × Nat :=
  let core := bitsOf d.toNat 29 28
  let spc := [1, 2, 4].getD (bitsOf d.toNat 31 30) 4
  (if core = (wgAt s w).core % 4 then w else clusterMember s w core, spc)

/-- Every byte offset an operand touches. -/
def descAll (d : DWord) (w rows k : Nat) : List Nat :=
  (List.range rows).flatMap (fun i => (List.range k).flatMap (fun j => (descBytes d w i j).1))

/-- Element codes of a descriptor operand, by row. -/
def descRows (s : State) (wg : Nat) (d : DWord) (w rows k : Nat) : List (List Nat) :=
  let home := descHome s wg d
  let g := wgAt s home.1
  (List.range rows).map (fun i => (List.range k).map (fun j =>
    let b := descBytes d w i j
    leNat (b.1.map (bufByte g home.2)) / 2 ^ b.2 % 2 ^ w))

/-- Element codes of one row of a register operand (R241). -/
def rowOf (sq : Squad) (tid r w k : Nat) : List Nat :=
  let x := (List.range (k * w / 32)).foldl (fun n i => n + (vget sq (tid / 32) (r + i) (tid % 32)).toNat * 2 ^ (32 * i)) 0
  (List.range k).map (fun j => x / 2 ^ (w * j) % 2 ^ w)

/-! The C tile (R245, R248). -/

/-- Whether an operation's outputs take 8 bytes: FP64, or a run that is open before or after it. -/
def wideTile (o : MatOp) : Bool := (shapeOf o.mf0).fc == 1 || (o.run.getD 3) < 3

/-- The bytes of C that an operation writes: offset and length. -/
def tileOf (o : MatOp) : Nat × Nat :=
  match matFields o.ins, accFields o.ins with
  | some f, _ => let p := shapeOf o.mf0
                 (f.1.r * 8192, p.m * p.n * (if wideTile o then 8 else 4))
  | none, some a => (a.1 * 8192, a.2.2 * 8192)
  | none, none => (0, 0)

/-- Whether an operation writes a region of 8 KiB of C (R39, R182). -/
def writesRegion (o : MatOp) (r : Nat) : Bool := !o.null && meets (tileOf o).1 (tileOf o).2 (8192 * r) 8192

/-! The checks of an operation at its issue (R256). -/

/-- The check of a descriptor (R242). -/
def descBad (s : State) (w : Nat) (d : DWord) : Bool :=
  let x := d.toNat
  bitsOf x 31 30 == 3 || bitsOf x 60 58 == 7 || bitsOf x 27 20 != 0 || bitsOf x 63 62 != 0 || bitsOf x 6 0 != 0
    || (bitsOf x 31 30 == 2 && bitsOf x 29 28 != (wgAt s w).core % 4)

/-- Whether a descriptor names another core, while the issuer is in no cluster-aligned gang (R242). -/
def descFar (s : State) (w : Nat) (d : DWord) : Bool :=
  bitsOf d.toNat 29 28 != (wgAt s w).core % 4 && !(wgAt s w).aligned

/-- Whether a descriptor operand touches bytes beyond its allocation (R243). -/
def descBeyond (s : State) (w : Nat) (d : DWord) (bits rows k : Nat) : Bool :=
  let home := descHome s w d
  (descAll d bits rows k).any (fun x => decide (allocOf s home.1 home.2 ≤ x))

/-- What an operation does to its run, or the subcode of its promotion fault (R248). -/
def runStep (p : MatShape) (what : Nat) (r : Option Run) : Except Nat (Option Nat) :=
  if !p.pi then .ok none
  else
    match what, r with
    | 1, none => .ok (some 0)
    | 1, some _ => .error 3
    | 0, none => .error 2
    | _, none => .ok (some 3)
    | 0, some r => if r.count + p.k ≤ 128 then .ok (some 1) else .error 1
    | _, some r => if r.count + p.k ≤ 128 then .ok (some 2) else .error 1

/-- The format checks (R237, R241, R242): the subcode. `count` is the number of signers. Which subcode is reported where several conditions hold at once R256
does not say: the order here is the model's choice (DESIGN CHOICE, log entry 82). -/
def formatCheck (s : State) (o : MatOp) (count : Nat) (f : MatFields) (cl : Bool) (wide : Bool) : Option Nat :=
  let x := o.mf0.toNat
  let p := shapeOf o.mf0
  let nc := contractOf s o.wg
  if bitsOf x 31 24 ≠ 0 ∨ o.mf1 ≠ 0 then some 3
  else if p.fa = 0 then some 1
  else if 4 < bitsOf x 22 20 ∨ 5 < bitsOf x 19 17 then some 2
  else if formatAbsent s o.wg p.fa || formatAbsent s o.wg p.fb then some 1
  else
    match matPath nc p.fa p.fb p.fc with
    | none => some 1
    | some path =>
      -- an open run takes 8 bytes, and only a combination that may run can have one
      let wide := p.fc == 1 || (wide && path == .run && decide (p.k ≤ 128))
      let operand := fun (isReg : Bool) (r rows code : Nat) (d : DWord) =>
        if isReg then (if count ≠ rows ∨ 64 < r + (operandRegs r code p.k).2 then some 4 else none)
        else if descBad s o.wg d then some 3 else none
      if 262144 < p.m * p.n * (if wide then 8 else 4) ∨ ((p.fa = 7 ∨ p.fa = 11) ∧ p.k < 32) ∨ (cl ∧ p.m = 128) then some 2
      else if p.pi ∧ (path ≠ .run ∨ 128 < p.k) then some 5
      else if cl ∧ !f.y then some 4
      else match operand (!f.x) f.a p.m p.fa o.descA with
        | some e => some e
        | none => operand (!f.y) f.b p.n p.fb o.descB

/-- The checks of an operation in the order of R256: the code and subcode of its fault, or the operation with its run step. -/
def matCheck (s : State) (o : MatOp) (count : Nat) : Except (Nat × Nat) MatOp :=
  let g := wgAt s o.wg
  match matFields o.ins, accFields o.ins with
  | some (f, what, cl), _ =>
    let p := shapeOf o.mf0
    let run := Map.find g.runs f.r
    -- 8 bytes for FP64, for an open run and for one that the operation opens (R237, R248)
    let wide := p.fc == 1 || (p.pi && (what == 1 || run.isSome))
    match formatCheck s o count f cl wide with
    | some sub => .error (0x09, sub)
    | none =>
      if (f.x && descFar s o.wg o.descA) || (f.y && descFar s o.wg o.descB) then .error (0x1D, 3)
      else if (f.x && descBeyond s o.wg o.descA (codeBits p.fa) p.m p.k) || (f.y && descBeyond s o.wg o.descB (codeBits p.fb) p.n p.k)
          || decide (allocOf s o.wg 3 < f.r * 8192 + p.m * p.n * (if wide then 8 else 4)) then .error (0x13, 1)
      else
        match runStep p what run with
        | .error sub => .error (0x0A, sub)
        | .ok r => .ok { o with run := r }
  | none, some (d, src, n) =>
    if allocOf s o.wg 3 < (d + n) * 8192 ∨ allocOf s o.wg 3 < (src.getD d + n) * 8192 then .error (0x13, 1) else .ok o
  | none, none => .ok o

/-! Faults and discarding (R257). -/

/-- Whether the issuer's operations and fences are discarded. -/
def discarding (g : Wg) : Bool := !g.discard.isEmpty

/-- The operations and fences of an issuer, oldest first. -/
def matOf (s : State) (w : Nat) : List MatOp := (coreAt s (wgAt s w).core).mat.filter (fun o => o.wg == w)

/-- Whether an entry of the engine's list is a fence. -/
def MatOp.isFence (o : MatOp) : Bool :=
  match o.ins with
  | .mfence _ => true
  | _ => false

/-- Makes the arrivals of the fences at the head of an issuer's list (R253). -/
def runFences (s : State) (w : Nat) : Nat → State
  | 0 => s
  | n + 1 =>
    match matOf s w with
    | o :: _ =>
      match o.ins with
      | .mfence k =>
        let s := modCore s (wgAt s w).core (fun c => { c with mat := c.mat.filter (fun x => x.id != o.id) })
        runFences (engineArrive s w k.toNat 0 0 7 0 o.place) w n
      | _ => s
    | [] => s

/-- After operations of an issuer ended: fences at the head arrive, waits for the operations before a point end (R253, R254). -/
def matSettle (s : State) (w : Nat) : State :=
  let s := runFences s w (matOf s w).length
  endWaitsWg s w (fun x => match x.why with
    | .matrix n => !(matOf s w).any (fun o => !o.isFence && decide (o.id < n))
    | _ => false)

/-- What the issue of an operation does to the runs (R248). -/
def runUpdate (runs : Map Run) (o : MatOp) (met : Bool) : Map Run :=
  let p := shapeOf o.mf0
  match (matFields o.ins).map (fun f => f.1.r), o.run with
  | some b, some 0 => Map.put runs b { count := p.k, m := p.m, n := p.n, spoilt := met }
  | some b, some 1 => Map.modify runs b (fun r => { r with count := r.count + p.k, spoilt := r.spoilt || met })
  | some b, some 2 => Map.del runs b
  | _, _ => runs

/-- The runs of a workgroup return to where they stood before the earliest of the operations that are gone, but for what those left in the engine do to them
(R257). -/
def undoRuns (s : State) (gone : List MatOp) (w : Nat) : State :=
  match firstBy (fun o => [o.id]) (gone.filter (fun o => o.wg == w && !o.isFence)) with
  | none => s
  | some o =>
    let left := (matOf s w).filter (fun x => decide (o.id < x.id) && !gone.any (fun y => y.id == x.id))
    modWg s w (fun g => { g with runs := left.foldl (fun r x => runUpdate r x x.spoilt) o.prior })

/-- Takes operations out of every engine, with the parts of the same cluster operations: they count no k-steps (R257). Their issuers are settled. -/
def dropOps (s : State) (ids : List Nat) : State :=
  let all := s.cores.flatMap (fun c => c.2.mat)
  let cls := (all.filter (fun o => ids.contains o.id)).filterMap (fun o => o.cluster)
  let gone := all.filter (fun o => ids.contains o.id || o.cluster.any (fun c => cls.contains c))
  let ws := (gone.map (fun o => o.wg)).dedup
  let s := ws.foldl (fun s w => undoRuns s gone w) s
  let s := { s with cores := s.cores.map (fun c => (c.1, { c.2 with mat := c.2.mat.filter (fun o => !gone.any (fun x => x.id == o.id)) })) }
  ws.foldl matSettle s

/-- The operations and fences of an operation's issuer that are queued behind it: those that its fault discards (R257). -/
def laterOps (s : State) (o : MatOp) : List MatOp := (matOf s o.wg).filter (fun x => !x.started && decide (o.id < x.id))

/-- The signers' side of a matrix fault (R257): they park at their next issue, and one record carries the first signer's PC and the number of
discarded operations. -/
def reportOp (s : State) (o : MatOp) (code sub ndisc : Nat) : State :=
  let sq := sqAt s o.wg o.sq
  let live := o.signers.filter (fun t => !inMask (exitedOf sq (t / 32)) (t % 32))
  let s := modSq s o.wg o.sq (fun sq => { sq with doomed := sq.doomed ++ live.map (fun t => (t / 32, t % 32, none)) })
  let s := modWg s o.wg (fun g => { g with discard := g.discard ++ live.map (fun t => (o.sq, t)) })
  let t := o.signers.headD 0
  reportThread s o.wg o.sq (t / 32) (t % 32)
    (threadRecord s o.wg o.sq (t / 32) (t % 32) 3 o.place { faultInfo code sub with ndisc := ndisc })

/-- TAKING A MATRIX FAULT (R249, R257): of every part of an operation the signers park with one record for each core, and the operations and fences
that each issuer has queued behind it are discarded. -/
def matFault (s : State) (ps : List MatOp) (code sub : Nat) : State :=
  let t := ps.foldl (fun t o => reportOp t o code sub (laterOps s o).length) s
  dropOps t (ps.flatMap (fun o => (laterOps s o).map (fun x => x.id)))

/-! The result (R149, R247, R248). -/

/-- The summation model's parameters (R148, R149): group size (0 all of K), alignment width (0 unbounded), whether the accumulator joins
the alignment, whether subnormal factors are flushed, and the group rounding. -/
structure SumModel where
  g : Nat
  w : Nat
  acc : Bool
  flush : Bool
  rg : Nat
  deriving DecidableEq, Repr

def sumModel (nc : Nat) (double : Bool) : SumModel :=
  if double then { g := if nc = 5 then 0 else 1, w := 0, acc := true, flush := nc == 1, rg := 0 }
  else
    match nc with
    | 1 => { g := 4, w := 24, acc := false, flush := true, rg := 1 }
    | 2 => { g := 8, w := 27, acc := true, flush := false, rg := 0 }
    | 3 => { g := 1, w := 0, acc := true, flush := false, rg := 0 }
    | 4 => { g := 16, w := 32, acc := true, flush := false, rg := 0 }
    | _ => { g := 0, w := 0, acc := true, flush := false, rg := 0 }

/-- A term of a sum: sign, magnitude and exponent of its unit. -/
abbrev Term := Bool × Nat × Int

/-- The value of a number in units of 2^q, q not above its exponent. -/
def Term.units (t : Term) (q : Int) : Int :=
  let m : Int := (t.2.1 * 2 ^ (t.2.2 - q).toNat : Nat)
  if t.1 then -m else m

/-- The exact sum of terms: sign, magnitude, unit; an exact zero is +0 unless every term is -0 (R143). -/
def sumTerms (ts : List Term) : Term :=
  let q := ts.foldl (fun q t => min q t.2.2) 0
  let n : Int := ts.foldl (fun n t => n + t.units q) 0
  if n = 0 then (ts.all (fun t => t.1 && t.2.1 == 0), 0, 0) else (decide (n < 0), n.natAbs, q)

/-- A term truncated toward zero to multiples of 2^q. -/
def Term.trunc (t : Term) (q : Int) : Term := if q ≤ t.2.2 then t else (t.1, t.2.1 / 2 ^ (q - t.2.2).toNat, q)

/-- The sum of one group (R149). -/
def groupSum (w : Nat) (ts : List Term) : Term :=
  if w = 0 then sumTerms ts
  else
    match (ts.filter (fun t => t.2.1 != 0)).map (fun t => t.2.2 + (Nat.log2 t.2.1 : Int)) with
    | [] => sumTerms ts
    | e :: es => sumTerms (ts.map (fun t => t.trunc (es.foldl max e - w + 1)))

/-- Rounds a sum to a format. -/
def roundTerm (f : Fmt) (mode : Nat) (t : Term) : Nat × Flags :=
  if 0 ≤ t.2.2 then f.round mode false false t.1 (t.2.1 * 2 ^ t.2.2.toNat) 1 else f.round mode false false t.1 t.2.1 (2 ^ (-t.2.2).toNat)

/-- A finite value as a term. -/
def termOf : FVal → Term
  | .num neg m e => (neg, m, e)
  | _ => (false, 0, 0)

/-- The special values of an operation (R149): the result they give, and INV. -/
def specials (as bs : List FVal) (c : FVal) : Option (XVal × Bool) :=
  let ps := as.zip bs
  let invalid := ps.any (fun p => (p.1.isZero && p.2.isInf) || (p.1.isInf && p.2.isZero))
  let infs := (ps.filter (fun p => !p.1.isNaN && !p.2.isNaN && (p.1.isInf || p.2.isInf) && !p.1.isZero && !p.2.isZero)).map
      (fun p => p.1.isNeg != p.2.isNeg) ++ (if c.isInf then [c.isNeg] else [])
  let both := infs.contains true && infs.contains false
  let nan := c.isNaN || ps.any (fun p => p.1.isNaN || p.2.isNaN)
  let sig := c.signalling || ps.any (fun p => p.1.signalling || p.2.signalling)
  if nan || invalid || both then some (.nan, invalid || both || sig)
  else match infs with
    | x :: _ => some (.inf x, false)
    | [] => none

/-- The groups of `g` consecutive elements. -/
def groupsOf {α : Type} (g : Nat) : Nat → List α → List (List α)
  | 0, _ => []
  | n + 1, l => if l.isEmpty then [] else l.take g :: groupsOf g n (l.drop g)

/-- The steps of R149 over the groups, from accumulator code `c`: they end at an infinity. -/
def modelSteps (f : Fmt) (m : SumModel) : List (List Term) → Nat × Flags → Nat × Flags
  | [], c => c
  | g :: gs, c =>
    let x := termOf (f.read false c.1)
    let r :=
      if m.acc then roundTerm f m.rg (groupSum m.w (g ++ [x]))
      else
        let p := roundTerm f m.rg (groupSum m.w g)
        match f.read false p.1 with
        | .num n k e => let y := roundTerm f 0 (sumTerms [x, (n, k, e)])
                        (y.1, p.2.or y.2)
        | v => (if v.isNeg then f.signed true f.infCode else f.infCode, p.2)
    if (f.read false r.1).isInf then (r.1, c.2.or r.2) else modelSteps f m gs (r.1, c.2.or r.2)

/-- One output of the model (R149): factors' formats and codes, and the accumulator's code. -/
def modelOut (f fa fb : Fmt) (m : SumModel) (as bs : List Nat) (c : Nat) : Nat × Flags :=
  let va := as.map (fa.read false)
  let vb := bs.map (fb.read false)
  match specials va vb (f.read false c) with
  | some r => f.finish 0 false r
  | none =>
    let ps := ((as.map (fa.read m.flush)).zip (bs.map (fb.read m.flush))).map (fun p =>
      let x := termOf p.1
      let y := termOf p.2
      ((x.1 != y.1, x.2.1 * y.2.1, x.2.2 + y.2.2) : Term))
    modelSteps f m (groupsOf (if m.g = 0 then ps.length else m.g) ps.length ps) (c, {})

/-- A partial sum as `Wg.sums` holds it, and back to an exact value. -/
def sumCode (t : Term) : Int × Nat :=
  if t.2.1 = 0 then (0, if t.1 then 4 else 0) else (t.units (-25), 0)
def sumValue (x : Int × Nat) : XVal :=
  match x.2 with
  | 0 => .num (decide (x.1 < 0)) x.1.natAbs (2 ^ 25)
  | 1 => .inf false
  | 2 => .inf true
  | 3 => .nan
  | _ => .num true 0 1

/-- An exact value as a partial sum; every finite partial sum is a multiple of 2^-25. -/
def sumOf (x : XVal) : Int × Nat :=
  match x with
  | .nan => (0, 3)
  | .inf neg => (0, if neg then 2 else 1)
  | .num neg n d => if n = 0 then (0, if neg then 4 else 0) else ((if neg then -((n * 2 ^ 25 / d : Nat) : Int) else (n * 2 ^ 25 / d : Nat)), 0)

/-- The exact sum of one output on the run path (R247), INV, and whether a product was truncated. -/
def runSum (fa fb : Fmt) (as bs : List Nat) : (Int × Nat) × Bool × Bool :=
  let va := as.map (fa.read false)
  let vb := bs.map (fb.read false)
  match specials va vb (.num true 0 0) with
  | some r => (sumOf r.1, r.2, false)
  | none =>
    let ps := (va.zip vb).map (fun p =>
      let x := termOf p.1
      let y := termOf p.2
      let t : Term := (x.1 != y.1, x.2.1 * y.2.1, x.2.2 + y.2.2)
      if fa = e5m2 ∧ fb = e5m2 then (t.trunc (-18), decide ((t.trunc (-18)).units (min t.2.2 (-18)) ≠ t.units (min t.2.2 (-18)))) else (t, false))
    (sumCode (sumTerms (ps.map (fun p => p.1))), false, ps.any (fun p => p.2))

/-- The code of a word or pair of C. -/
def cCode (g : Wg) (off n : Nat) : Nat := leNat (bufRead g 3 off n)

/-- Writes the outputs of a tile in the layout of R245, `b` bytes each. -/
def tileWrite (s : State) (w off b : Nat) (xs : List Nat) : State := modWg s w (fun g => bufWrite g 3 off (xs.flatMap (leBytes b)))

/-- Bytes of C become unspecified. -/
def tileFree (s : State) (w off n : Nat) : State :=
  let d := draw s
  modWg d.2 w (fun g => bufWrite g 3 off (freeBytes d.1 n))

/-- Sets the flags of an operation, and whether it truncated a product. -/
def matFlags (s : State) (o : MatOp) (f : Flags) (trn : Bool) : State :=
  let s := modSq s o.wg o.sq (fun sq => setFxs sq f.word)
  modWg s o.wg (fun g => { g with trn := g.trn || trn })

/-- The results of all outputs, row by row. -/
def outputs {α : Type} (o : MatOp) (p : MatShape) (f : Nat → List Nat → List Nat → α) : List α :=
  (List.range p.m).flatMap (fun i => (List.range p.n).map (fun j => f (i * p.n + j) (o.aRows.getD i []) (o.bRows.getD j [])))

/-- The sum of all flags. -/
def orFlags (l : List Flags) : Flags := l.foldl Flags.or {}

/-- A signed code of `w` bits. -/
def signedCode (w x : Nat) : Int := (BitVec.ofNat w x).toInt

/-- The effect of an operation on its tile at its completion (R247, R248, R252). -/
def matEffect (s : State) (o : MatOp) : State :=
  let g := wgAt s o.wg
  let t := tileOf o
  match matFields o.ins, accFields o.ins with
  | some (f, what, _), _ =>
    let p := shapeOf o.mf0
    let nc := contractOf s o.wg
    let fa := (floatFmt p.fa).getD fp32
    let fb := (floatFmt p.fb).getD fp32
    let cAt := fun (b i : Nat) => cCode g (t.1 + i * b) b
    if o.spoilt then tileFree { s with wgs := modAt s.wgs o.wg (fun g => { g with sums := Map.del g.sums f.r }) } o.wg t.1 t.2
    else
      match matPath nc p.fa p.fb p.fc with
      | some .integer =>
        let w := codeBits p.fa
        tileWrite s o.wg t.1 4 (outputs o p (fun i as bs =>
          let c : Int := if what = 1 then 0 else cAt 4 i
          ((c + (as.zip bs).foldl (fun (n : Int) (x : Nat × Nat) => n + signedCode w x.1 * signedCode w x.2) 0) % 2 ^ 32).toNat))
      | some .run =>
        let rs := outputs o p (fun i as bs => (i, runSum fa fb as bs))
        let trn := rs.any (fun r => r.2.2.2)
        match o.run with
        | none =>
          let out := rs.map (fun r =>
            let c := fp32.read false (if what = 1 then 2 ^ 31 else cAt 4 r.1)
            let x := c.exact.add (sumValue r.2.1)
            fp32.finish 0 false (x.1, x.2 || c.signalling || r.2.2.1))
          matFlags (tileWrite s o.wg t.1 4 (out.map (fun x => x.1))) o (orFlags (out.map (fun x => x.2))) trn
        | some 0 =>
          let s := modWg s o.wg (fun g => { g with sums := Map.put g.sums f.r (rs.map (fun r => r.2.1)) })
          matFlags (tileFree s o.wg t.1 t.2) o {} trn
        | some k =>
          let old := Map.getD g.sums f.r []
          let new := rs.map (fun r =>
            let x := if k = 3 then (sumValue r.2.1, false) else (sumValue (old.getD r.1 (0, 0))).add (sumValue r.2.1)
            (x.1, x.2 || r.2.2.1))
          if k = 1 then
            matFlags (modWg s o.wg (fun g => { g with sums := Map.put g.sums f.r (new.map (fun x => sumOf x.1)) })) o {} trn
          else
            let out := new.map (fun x => fp32.finish 0 false x)
            let s := modWg s o.wg (fun g => { g with sums := Map.del g.sums f.r })
            let s := tileWrite s o.wg t.1 4 (out.map (fun x => x.1))
            let s := if k = 2 then tileFree s o.wg (t.1 + t.2 / 2) (t.2 / 2) else s
            matFlags s o (orFlags (out.map (fun x => x.2))) trn
      | _ =>
        -- R149; the emulated formats convert exactly to FP32 first (R258)
        let f64 := p.fc == 1
        let fm := if f64 then fp64 else fp32
        let b := if f64 then 8 else 4
        let emu := p.fa = 18 ∨ p.fa = 19
        let m := { sumModel nc f64 with flush := (sumModel nc f64).flush && !emu }
        let out := outputs o p (fun i as bs => modelOut fm fa fb m as bs (if what = 1 then 2 ^ fm.signBit else cAt b i))
        matFlags (tileWrite s o.wg t.1 b (out.map (fun x => x.1))) o (orFlags (out.map (fun x => x.2))) false
  | none, some (_, src, n) =>
    let s := if o.spoilt then tileFree s o.wg t.1 t.2
      else
        match src with
        | none => modWg s o.wg (fun g => bufWrite g 3 t.1 (List.replicate t.2 0))
        | some k =>
          -- regions that hold an open run at the operation's place in the issue order read as unspecified (R248)
          let d := draw s
          let from_ := { g with runs := o.prior }
          let bs := ((bufRead g 3 (k * 8192) (n * 8192)).zip (freeBytes d.1 (n * 8192))).zipIdx.map (fun x =>
            if inRun from_ (k * 8192 + x.2) 1 then x.1.2 else x.1.1)
          modWg d.2 o.wg (fun g => bufWrite g 3 t.1 bs)
    if src.isSome then s
    else
      -- clearing the data of a run leaves the run open (R252)
      modWg s o.wg (fun g => { g with sums := g.sums.map (fun r =>
        (r.1, (r.2.zipIdx).map (fun x => if meets (r.1 * 8192 + 8 * x.2) 8 t.1 t.2 then (0, 0) else x.1))) })
  | none, none => s

/-! Signing and issue (R96, R98, R232, R238 to R240, R249). -/

/-- Puts an operation into its core's engine, with what its issue does to the runs (R233, R248) and to the squad's counter. -/
def pushOp (s : State) (o : MatOp) : State :=
  let g := wgAt s o.wg
  let t := tileOf o
  let p := shapeOf o.mf0
  let base := (matFields o.ins).map (fun f => f.1.r)
  -- the run it works in, when it has the run's shape
  let mine := if o.run.isSome then base.filter (fun b => (Map.find g.runs b).all (fun r => r.m == p.m && r.n == p.n)) else none
  -- clearing is no meeting (R252)
  let clear := match o.ins with
    | .accClr .. => true
    | _ => false
  let met := !o.null && !clear && g.runs.any (fun r => decide (some r.1 ≠ mine) && meets (r.2.tile r.1).1 (r.2.tile r.1).2 t.1 t.2)
  let own := mine.any (fun b => (Map.find g.runs b).any (fun r => r.spoilt))
  let o := { o with spoilt := met || (own && o.run == some 2), prior := g.runs }
  let s := if met then modWg s o.wg (fun g => spoilRuns g t.1 t.2 mine) else s
  let s := modWg s o.wg (fun g => { g with runs := runUpdate g.runs o met })
  let s := modSq s o.wg o.sq (fun sq => perfAdd sq 7 1)
  modCore s (wgAt s o.wg).core (fun c => { c with mat := c.mat ++ [o] })

/-- Reads the operands of register kind, and the descriptors, at the issue (R238, R240). -/
def readOperands (s : State) (o : MatOp) (first : Nat) (full : List Nat) : MatOp :=
  match matFields o.ins with
  | none => o
  | some (f, _, _) =>
    let sq := sqAt s o.wg o.sq
    let p := shapeOf o.mf0
    let rows := fun (code r n : Nat) => (List.range n).map (fun i =>
      if full.contains (first + i) then rowOf sq (first + i) r (codeBits code) p.k else List.replicate p.k 0)
    { o with
      aRows := if f.x then [] else rows p.fa f.a p.m
      bRows := if f.y then [] else rows p.fb f.b p.n
      descA := if f.x then pairOf (qget sq f.a) (qget sq (f.a + 1)) else 0
      descB := if f.y then pairOf (qget sq f.b) (qget sq (f.b + 1)) else 0 }

/-- The operation that a complete set of signatures stands for. -/
def opOf (s : State) (w q k : Nat) (c : Conv) (i : Instr) (place : Place) (id : Nat) (cluster : Option Nat) : MatOp :=
  readOperands s
    { id := id, wg := w, sq := q, ins := i, place := place, conv := k, signers := c.signed, null := c.full.isEmpty, mf0 := c.mf0
      mf1 := c.mf1, aRows := [], bRows := [], descA := 0, descB := 0, started := false, run := none, spoilt := false
      prior := [], cluster := cluster }
    c.first c.full

/-- The register returns to DECLARED. -/
def closeConv (s : State) (w q k : Nat) : State :=
  modSq s w q (fun sq => setConv sq k { convOf sq k with st := 1, signed := [], full := [], open_ := none })

/-- Issues an operation: discarded while a fault's threads are parked, checked, then queued (R256, R257). -/
def issueOp (s : State) (o : MatOp) (count : Nat) : State :=
  if discarding (wgAt s o.wg) then s
  else if o.null then pushOp s o
  else
    match matCheck s o count with
    | .error e => matFault s [o] e.1 e.2
    | .ok o => pushOp s o

/-- Whether two parts of a cluster operation agree (R249): format record, op, `CREG` and the contents of the B descriptor. -/
def partsAgree (x y : MatOp) : Bool :=
  x.mf0 == y.mf0 && x.mf1 == y.mf1 && x.descB == y.descB
    && (matFields x.ins).map (fun f => (f.1.r, f.2.1, f.1.y)) == (matFields y.ins).map (fun f => (f.1.r, f.2.1, f.1.y))

/-- The last set of a cluster operation is complete (R249): agreement, then every part's checks, then the issue on all four cores. -/
def issueCluster (s : State) (ps : List MatOp) : State :=
  -- the parts issue now, after every operation issued before
  let ps := ps.zipIdx.map (fun p => { p.1 with id := s.ids + p.2 })
  let s := { s with ids := s.ids + ps.length }
  let count := fun (o : MatOp) => (convOf (sqAt s o.wg o.sq) o.conv).count
  match ps with
  | [] => s
  | p :: rest =>
    if !rest.all (partsAgree p) then ps.foldl (fun s o => abortConv s o.wg o.sq o.conv 1) s
    else
      let bad := ps.findSome? (fun o =>
        if o.null || discarding (wgAt s o.wg) then none
        else match matCheck s o (count o) with
          | .error e => some e
          | .ok _ => none)
      let t := ps.foldl (fun s o => closeConv s o.wg o.sq o.conv) s
      match bad with
      | some e => matFault t ps e.1 e.2
      | none =>
        if ps.any (fun o => discarding (wgAt s o.wg)) then t
        else ps.foldl (fun t o =>
          match (if o.null then .ok o else matCheck s o (count o)) with
          | .ok o => pushOp t o
          | .error _ => t) t

/-- The registers that a signature of an operation supplies under a format record: first register and count of each operand of register kind (R241). -/
def operandsOf (mf0 : Word) (i : Instr) : List (Nat × Nat) :=
  match matFields i with
  | some (f, _, _) =>
    let p := shapeOf mf0
    (if f.x then [] else [operandRegs f.a p.fa p.k]) ++ (if f.y then [] else [operandRegs f.b p.fb p.k])
  | none => []

/-- The scoreboard items of them in a lane block. -/
def operandItems (mf0 : Word) (i : Instr) (lb : Nat) : List Nat :=
  (operandsOf mf0 i).flatMap (fun r => (List.range r.2).map (fun j => itemV lb (r.1 + j)))

/-- Registers that signers of open operations supply (R240), which stay busy until they are read. -/
def suppliedItems (sq : Squad) : List Nat :=
  sq.conv.flatMap (fun c => match c.2.open_ with
    | some o => ((c.2.full.map (fun t => t / 32)).dedup).flatMap (operandItems c.2.mf0 o.1)
    | none => [])

/-- Adds signatures of a bundle to a register: full for the guard-true threads. The last one issues the operation. -/
def addSignatures (s : State) (u : Bundle) (k : Nat) (i : Instr) (r g : BitVec 32) : State :=
  let c := convOf (sqAt s u.wg u.sq) k
  let tids := fun (m : BitVec 32) => (lanesOf m).map (fun l => u.e.lb * 32 + l)
  let c := { c with st := 2, signed := c.signed ++ tids r, full := c.full ++ tids (r &&& g)
                    open_ := match c.open_ with
                      | some o => some o
                      | none => some (i, u.e.place) }
  -- the operation is the first signer's
  let place := (c.open_.map (fun o => o.2)).getD u.e.place
  let i := (c.open_.map (fun o => o.1)).getD i
  if c.signed.length < c.count then modSq s u.wg u.sq (fun sq => setConv sq k c)
  else
    let id := newId s
    let core := (wgAt s u.wg).core
    -- the registers supplied stay busy until they are read (R240)
    let s := modSq id.2 u.wg u.sq (fun sq =>
      (((c.full.map (fun t => t / 32)).dedup).flatMap (operandItems c.mf0 i)).foldl (fun sq k =>
        { sq with marks := Map.put sq.marks k (max (sq.cycle + 4) (Map.getD sq.marks k 0)) }) sq)
    if c.bound then
      let key := core / 4 * 4 + k
      let parts := (Map.getD s.xc key []).filter (fun p => p.1 != core % 4)
      let o := opOf s u.wg u.sq k c i place id.1 (some (match parts with
        | p :: _ => p.2.cluster.getD id.1
        | [] => id.1))
      let s := modSq s u.wg u.sq (fun sq => setConv sq k { c with st := 3 })
      let parts := parts ++ [(core % 4, o)]
      if parts.length < 4 then { s with xc := Map.put s.xc key parts }
      else issueCluster { s with xc := Map.del s.xc key } ((sortBy (fun p => [p.1]) parts).map (fun p => p.2))
    else
      let o := opOf s u.wg u.sq k c i place id.1 none
      issueOp (closeConv (modSq s u.wg u.sq (fun sq => setConv sq k c)) u.wg u.sq k) o c.count

/-- Whether an operand of register kind holds FP64 elements from an odd register (R241). -/
def oddDouble (mf0 : Word) (i : Instr) : Bool :=
  match matFields i with
  | some (f, _, _) =>
    let p := shapeOf mf0
    (!f.x && p.fa == 1 && f.a % 2 == 1) || (!f.y && p.fb == 1 && f.b % 2 == 1)
  | none => false

/-- The shape of the signed instructions (R96 to R98, R238, R239, R403). -/
def signOp (k : BitVec 3) (i : Instr) (cl : Bool) (u : Bundle) (s : State) : State :=
  let g := activeMask s u
  let sq := sqAt s u.wg u.sq
  let c := convOf sq k.toNat
  let inRange := fun (l : Nat) => decide (c.first ≤ u.e.lb * 32 + l) && decide (u.e.lb * 32 + l < c.first + c.count) && c.st != 0
  let r := maskOf (fun l => inMask u.e.mask l && inRange l)
  let s := advance (faultIssue s u (g &&& ~~~r) (faultInfo 0x08 5)) u (u.e.mask &&& ~~~g &&& ~~~r)
  let own := fun (i : FaultInfo) => advance (faultIssue s u (g &&& r) i) u (r &&& ~~~g)
  let sign := fun (s : State) => addSignatures (advance s u r) u k.toNat i r g
  let gone := (List.range c.count).any (fun j =>
    inMask (exitedOf sq ((c.first + j) / 32)) ((c.first + j) % 32) && !c.signed.contains (c.first + j))
  -- an issue of null signatures alone raises nothing (R403)
  if r = 0 then s
  else if r &&& g = 0 then sign s
  else if cl && !(wgAt s u.wg).aligned then own (faultInfo 0x1D 3)
  else if cl != c.bound then own (faultInfo 0x08 6)
  else
    let stop := fun (sub : Nat) =>
      if c.signed.isEmpty then own (faultInfo 0x08 sub)
      else
        -- one record, with the first signer's PC, by `abortConv`; the guard-false threads go on (R403)
        let s := parkThreads s u.wg u.sq u.e.lb (lanesOf (g &&& r)) u.e.place (fun _ => .go false)
        abortConv (advance s u (r &&& ~~~g)) u.wg u.sq k.toNat sub
    if c.open_.any (fun o => o.1 != i) then stop 1
    else if gone then stop 4
    else if c.full.isEmpty && oddDouble c.mf0 i then own (faultInfo 0x05 0)
    else sign s

/-- A matrix operation: an odd q pair is an operand alignment fault of the encoding (R43). -/
def mmOp (k : BitVec 3) (i : Instr) (u : Bundle) (s : State) : State :=
  match matFields i with
  | some (f, _, cl) =>
    if (f.x && f.a % 2 == 1) || (f.y && f.b % 2 == 1) then encodingFault s u (faultInfo 0x05 0) else signOp k i cl u s
  | none => signOp k i false u s

/-! The instructions. -/

def execMma (c : BitVec 3) (x : BitVec 1) (a : BitVec 6) (y : BitVec 1) (b : BitVec 6) (r : BitVec 5) (s : State) :
    Host.Outcome State Fault Refusal := withBundle s (mmOp c (.mma c x a y b r))
def execMmz (c : BitVec 3) (x : BitVec 1) (a : BitVec 6) (y : BitVec 1) (b : BitVec 6) (r : BitVec 5) (s : State) :
    Host.Outcome State Fault Refusal := withBundle s (mmOp c (.mmz c x a y b r))
def execMmp (c : BitVec 3) (x : BitVec 1) (a : BitVec 6) (y : BitVec 1) (b : BitVec 6) (r : BitVec 5) (s : State) :
    Host.Outcome State Fault Refusal := withBundle s (mmOp c (.mmp c x a y b r))
def execMmaCl (c : BitVec 3) (x : BitVec 1) (a : BitVec 6) (y : BitVec 1) (b : BitVec 6) (r : BitVec 5) (s : State) :
    Host.Outcome State Fault Refusal := withBundle s (mmOp c (.mmaCl c x a y b r))
def execMmzCl (c : BitVec 3) (x : BitVec 1) (a : BitVec 6) (y : BitVec 1) (b : BitVec 6) (r : BitVec 5) (s : State) :
    Host.Outcome State Fault Refusal := withBundle s (mmOp c (.mmzCl c x a y b r))
def execMmpCl (c : BitVec 3) (x : BitVec 1) (a : BitVec 6) (y : BitVec 1) (b : BitVec 6) (r : BitVec 5) (s : State) :
    Host.Outcome State Fault Refusal := withBundle s (mmOp c (.mmpCl c x a y b r))
def execAccClr (c : BitVec 3) (n r : BitVec 5) (s : State) : Host.Outcome State Fault Refusal :=
  withBundle s (mmOp c (.accClr c n r))
def execAccCp (c : BitVec 3) (t n r : BitVec 5) (s : State) : Host.Outcome State Fault Refusal :=
  withBundle s (mmOp c (.accCp c t n r))

/-- A declaration's fault while the register has an open operation (R236). -/
def execMfmt (k q : BitVec 4) (s : State) : Host.Outcome State Fault Refusal :=
  withBundle s (onceOp
    (fun s u _ => if 2 ≤ (convOf (sqAt s u.wg u.sq) k.toNat).st then some (faultInfo 0x08 3) else none)
    (fun s u _ => modSq s u.wg u.sq (fun sq =>
      let c := convOf sq k.toNat
      setConv sq k.toNat { c with mf0 := qget sq (2 * q.toNat), mf1 := qget sq (2 * q.toNat + 1) })))

/-- The offset and its check for `acc.ld` and `acc.st` (R251). -/
def accOffset (s : State) (w : Nat) (r : BitVec 5) (v : Word) : Except (Nat × Nat) Nat :=
  let o := r.toNat * 8192 + v.toNat
  match bufCheck s w 3 o 16 with
  | some e => .error e
  | none => .ok o

/-- The words `acc.ld` writes, by conversion code (R251). -/
def accWords (c : BitVec 3) : Nat := if c = 0 then 4 else if c.toNat < 3 then 2 else 1

/-- The value of `acc.ld` in d, with the flags its conversion sets (R251): FP32 words converted to nearest, saturating. -/
def accValue (flush : Bool) (c : BitVec 3) (bs : List Byte) : Nat × Flags :=
  if c = 0 then (leNat bs, {})
  else
    let code := if c = 1 then 3 else if c = 2 then 4 else if c = 3 then 5 else 6
    let w := if c.toNat < 3 then 16 else 8
    (List.range 4).foldl (fun x m =>
      let r := convert code 2 0 true flush (leNat ((bs.drop (4 * m)).take 4))
      (x.1 + r.1 * 2 ^ (w * m), x.2.or r.2)) (0, {})

/-- Issues when no matrix operation that writes the region is outstanding (R182). A read of an open run is unspecified (R248). -/
def execAccLd (c : BitVec 3) (a b : BitVec 6) (r : BitVec 5) (s : State) : Host.Outcome State Fault Refusal :=
  withBundle s (memOp [(a, accWords c)] { b := some (own b 1) } [] 0 false false (fun s u seq l st =>
    match accOffset s u.wg r (w32 st.b) with
    | .error e => (s, .error (e, BitVec.ofNat 64 (r.toNat * 8192 + (w32 st.b).toNat)))
    | .ok o =>
      if bufPoisoned (wgAt s u.wg) 3 o 16 then (s, .error ((0x15, 0), BitVec.ofNat 64 o))
      else
        let d := draw s
        let run := inRun (wgAt s u.wg) o 16
        let s := if run then d.2 else s
        let id := newId s
        let bs := if run then freeBytes d.1 16 else bufRead (wgAt s u.wg) 3 o 16
        let r := accValue (flushes s u.wg) c bs
        let pend : Pend := { seq := seq, lb := u.e.lb, lane := l, d := a, size := 4 * accWords c, fmt := .zext
                             src := .value (BitVec.ofNat 128 r.1), place := u.e.place, ea := BitVec.ofNat 64 o
                             staged := st, shown := [], acq := false }
        (modSq id.2 u.wg u.sq (fun sq => setFxs { sq with loads := Map.put sq.loads id.1 pend } r.2.word), .ok {})))

/-- Stores into an open run leave it unspecified. -/
def execAccSt (a b : BitVec 6) (r : BitVec 5) (s : State) : Host.Outcome State Fault Refusal :=
  withBundle s (memOp [(a, 4)] { a := some (own a 4), b := some (own b 1) } [1] 0 false false (fun s u _ _ st =>
    match accOffset s u.wg r (w32 st.b) with
    | .error e => (s, .error (e, BitVec.ofNat 64 (r.toNat * 8192 + (w32 st.b).toNat)))
    | .ok o => (modWg s u.wg (fun g => spoilRuns (bufWrite g 3 o (leBytes 16 st.a.toNat)) o 16 none), .ok {})))

/-- A fence with no earlier operation outstanding arrives in the cycle after its issue; else it is queued (R253). -/
def execMfence (k : BitVec 4) (s : State) : Host.Outcome State Fault Refusal :=
  withBundle s (onceOp (fun s u _ => barFault s u.wg k.toNat false)
    (fun s u _ =>
      if discarding (wgAt s u.wg) then s
      else
        let id := newId s
        let o : MatOp := { id := id.1, wg := u.wg, sq := u.sq, ins := .mfence k, place := u.e.place, conv := 0, signers := [], null := true
                           mf0 := 0, mf1 := 0, aRows := [], bRows := [], descA := 0, descB := 0, started := false, run := none
                           spoilt := false, prior := [], cluster := none }
        matSettle (modCore id.2 (wgAt s u.wg).core (fun c => { c with mat := c.mat ++ [o] })) u.wg))

def execMwait (s : State) : Host.Outcome State Fault Refusal :=
  withBundle s (waitOp (fun _ _ => none) (fun s u _ => !(matOf s u.wg).any (fun o => !o.isFence)) (fun s _ _ => .matrix s.ids)
    (fun s _ => s))

/-- What `mhealth` reads (R255). -/
def healthWord (s : State) (w r : Nat) : Word :=
  let g := wgAt s w
  let run := Map.find g.runs r
  packWord [(((matOf s w).filter (fun o => !o.isFence)).length, 10), (bit g.trn, 9), (bit run.isSome, 8), ((run.map (fun x => x.count)).getD 0, 0)]

def execMhealth (d : BitVec 6) (r : BitVec 5) (s : State) : Host.Outcome State Fault Refusal :=
  withBundle s (onceOp (fun _ _ _ => none)
    (fun s u g =>
      let s' := modSq s u.wg u.sq (fun sq => vset sq u.e.lb d.toNat g (fun _ => healthWord s u.wg r.toNat))
      modWg s' u.wg (fun x => { x with trn := false })))

end Sys2Proof.Machine
end

