-- ==== Sys2Proof/Machine/System.lean ====
section
/-! DEFINITION. The instructions of class SYS: system registers, counters, traps, invalidation, buffer map writes, parked workgroups, debug and
cache operations (R325 to R353). -/

namespace Sys2Proof.Machine

/-! Privilege (R325, R50, R52). -/

/-- The shape of a SYS instruction: below its level it raises the privilege fault; then operand alignment; an issue with no guard-true thread
does nothing (R347). -/
def sysOp (lvl : Nat) (al : List (BitVec 6 × Nat)) (f : Bundle → BitVec 32 → State → State) (u : Bundle) (s : State) : State :=
  if (wgAt s u.wg).level < lvl then encodingFault s u (faultInfo 0x04 0)
  else if al.any (fun p => misaligned p.1 p.2) then encodingFault s u (faultInfo 0x05 0)
  else if activeMask s u = 0 then advance s u u.e.mask
  else f u (activeMask s u) s

/-- A SYS instruction that writes `n` words at `d` in every guard-true lane. -/
def sysRead (lvl : Nat) (d : BitVec 6) (n : Nat) (f : State → Bundle → Wide) : Bundle → State → State :=
  sysOp lvl [(d, n)] (fun u g s =>
    advance (modSq s u.wg u.sq (fun sq => vsetWide sq u.e.lb d.toNat g (fun _ => f s u) n)) u u.e.mask)

/-- A register operand of the lowest guard-true lane. -/
def lowOperand (s : State) (u : Bundle) (g : BitVec 32) (o : Opnd) : Wide := readReg s u o (lowest g)

/-! System registers (R327 to R329). -/

/-- The width in words of a system register. -/
def sysWords (r : Nat) : Nat := if r = 4 ∨ r = 5 ∨ r = 7 ∨ r = 8 ∨ (0x13 ≤ r ∧ r ≤ 0x17) then 2 else 1

/-- The lowest level that may read a register, and the one that may write it. -/
def readLevel (r : Nat) : Nat := if r ≤ 0xA then 0 else 2
def writeLevel (r : Nat) : Nat := if r = 2 ∨ r = 3 then 0 else 2

/-- `TOKBAL` and `OPPT` (R359, R361). -/
def tokWord (s : State) : Word := packWord [(s.plat.out.toNat, 16), (s.plat.bal.toNat, 0)]
/-- Whether a collective is open on a tempo-locked communicator (R366). -/
def tempoLocked (s : State) : Bool := s.fab.colls.any (fun c => (Map.find s.fab.comms c.2.comm).any (fun x => x.tempo))
def oppWord (s : State) : Word :=
  packWord [(bit s.plat.low, 31), (bit s.plat.lkb, 30), (bit (tempoLocked s), 29), (s.plat.mhz, 16), (s.plat.idx, 0)]
/-- The energy count of the issuing thread's launch (R367). -/
def energyOf (s : State) (w : Nat) : Nat := (launchAt s (wgAt s w).served).energy

/-- The value of a system register for an issuing thread (R327). -/
def sysValue (s : State) (u : Bundle) (r : Nat) : DWord :=
  let w := u.wg
  match r with
  | 0x00 => (wordAt (khwOf s w) 0).zeroExtend 64
  | 0x01 => BitVec.ofNat 64 (sysCtx s w)
  | 0x02 => (sqAt s w u.sq).fxs.zeroExtend 64
  | 0x03 => (sqAt s w u.sq).watch.zeroExtend 64
  | 0x04 => Config.ncapm
  | 0x05 => Config.ncapv
  | 0x06 => Config.fmtcap.zeroExtend 64
  | 0x07 => BitVec.ofNat 64 (energyOf s w)
  | 0x08 => s.plat.tclk
  | 0x09 => (tokWord s).zeroExtend 64
  | 0x0A => (oppWord s).zeroExtend 64
  | 0x10 => s.l2eng.zeroExtend 64
  | 0x11 => s.fab.pmap.zeroExtend 64
  | 0x12 => (dbgctlOf s (sysCtx s w)).zeroExtend 64
  | 0x13 => Map.getD s.faultq (dieOf (wgAt s w).core) 0
  | _ => bpaOf s (sysCtx s w) (r - 0x14)

def execSysrd (d : BitVec 6) (r : BitVec 8) (s : State) : Host.Outcome State Fault Refusal :=
  withBundle s (sysRead (readLevel r.toNat) d (sysWords r.toNat) (fun s u => wide64 (sysValue s u r.toNat)))

/-- Records that waited for room in a die controller's queue enter it (R336). -/
def refillFaults (s : State) (die : Nat) : State :=
  let waiting := s.faultWait.filter (fun f => f.1 == die)
  waiting.foldl (fun s f => postRecord s die f.2) { s with faultWait := s.faultWait.filter (fun f => f.1 != die) }

/-- Writes `FAULTQ` and empties the queue (R329). -/
def writeFaultq (s : State) (die : Nat) (v : DWord) : State :=
  refillFaults { s with
    faultq := Map.put s.faultq die (v &&& 0x000FFFFFFFFFF00F), faults := Map.put s.faults die [], faultSlot := Map.put s.faultSlot die 0 } die

/-- Writes `PMAP`, which takes effect only while the device is quiesced (R297). -/
def writePmap (s : State) (v : Word) : State :=
  if s.fab.quiesced.isSome then { s with fab := { s.fab with pmap := v &&& 0x00FFFFFF } } else s

/-- Writes a system register; reserved bits are ignored (R4), and so is a write to a register that is read-only in its map (R327). -/
def sysWrite (s : State) (u : Bundle) (r : Nat) (v : DWord) : State :=
  let x : Word := v.truncate 32
  let c := sysCtx s u.wg
  match r with
  | 0x02 => modSq s u.wg u.sq (fun sq => { sq with fxs := sq.fxs &&& ~~~x })
  | 0x03 => modSq s u.wg u.sq (fun sq => { sq with watch := x &&& 0x0FFFFFFF })
  | 0x10 => { s with l2eng := x &&& 0xFFFF }
  | 0x11 => writePmap s x
  | 0x12 => { s with dbgctl := Map.put s.dbgctl c (x &&& 0x8F) }
  | 0x13 => writeFaultq s (dieOf (wgAt s u.wg).core) v
  | _ => if 0x14 ≤ r ∧ r ≤ 0x17 then { s with bpa := Map.put s.bpa (c * 4 + (r - 0x14)) (v &&& 0x000FFFFFFFFFFFFC) } else s

def execSyswr (a : BitVec 6) (r : BitVec 8) (s : State) : Host.Outcome State Fault Refusal :=
  withBundle s (sysOp (writeLevel r.toNat) [(a, sysWords r.toNat)] (fun u g s =>
    sysWrite (advance s u u.e.mask) u r.toNat (w64 (lowOperand s u g (own a (sysWords r.toNat))))))

/-! Counters (R348). -/

def execEcnt (d : BitVec 6) (s : State) : Host.Outcome State Fault Refusal :=
  withBundle s (sysRead 0 d 2 (fun s u => wide64 (BitVec.ofNat 64 (energyOf s u.wg))))
def execClkRd (d : BitVec 6) (s : State) : Host.Outcome State Fault Refusal := withBundle s (sysRead 0 d 2 (fun s _ => wide64 s.plat.tclk))
def execTokRd (d : BitVec 6) (s : State) : Host.Outcome State Fault Refusal := withBundle s (sysRead 0 d 1 (fun s _ => wide32 (tokWord s)))
/-- A counter of a squad: cycles, or one of the others. -/
def perfValue (sq : Squad) (sel : Nat) : Nat := if sel = 0 then sq.cycle else Map.getD sq.perf sel 0
def execPerfRd (d : BitVec 6) (sel : BitVec 8) (s : State) : Host.Outcome State Fault Refusal :=
  withBundle s (sysRead 0 d 2 (fun s u => wide64 (BitVec.ofNat 64 (perfValue (sqAt s u.wg u.sq) sel.toNat))))

/-! Whole-device operations (R349, R350). -/

/-- Whether the work that an operation of the whole device waits for is done. -/
def devDone (s : State) (d : DevOp) : Bool :=
  (match d.pub with
   | some p => pubsDone s [p]
   | none => true)
    && d.xs.all (fun x => match Map.find (coreAt s x.1).xfers x.2 with
        | some t => t.pieces.isEmpty
        | none => true)
    && d.cs.all (fun c => !(ceAt s c.1 c.2.1).moves.any (fun m => decide (m.1 ≤ c.2.2)) || (ceAt s c.1 c.2.1).stuck.isSome)

/-- Releases the threads whose operations of the whole device are done. -/
def settleDev (s : State) : State :=
  (s.devOps.filter (fun d => devDone s d.2)).foldl (fun s d =>
    endWaits { s with devOps := Map.del s.devOps d.1 } d.2.wg d.2.sq (fun x => x.why == .device d.1)) s

/-- Makes the guard-true threads wait for an operation of the whole device. -/
def awaitDev (s : State) (u : Bundle) (g : BitVec 32) (pub : Option Nat) (xs : List (Nat × Nat)) (cs : List (Nat × Nat × Nat)) : State :=
  let id := newId s
  let s := { id.2 with devOps := Map.put id.2.devOps id.1 { wg := u.wg, sq := u.sq, pub := pub, xs := xs, cs := cs } }
  settleDev (wait (advance s u (u.e.mask &&& ~~~g)) u g (.device id.1) u.next)

/-- The engine work of a context (or of all) that has passed its checks and not written its data. -/
def checkedXfers (s : State) (mine : Nat → Bool) : List (Nat × Nat) :=
  s.cores.flatMap (fun c => (c.2.xfers.filter (fun x => !x.2.pieces.isEmpty && mine (wgAt s x.2.wg).ctx)).map (fun x => (c.1, x.1)))
def checkedMoves (s : State) (mine : Nat → Bool) : List (Nat × Nat × Nat) :=
  s.cores.flatMap (fun c => (c.2.ces.filter (fun k => !k.2.moves.isEmpty && (k.2.owner.any (fun w => mine (wgAt s w).ctx)))).map (fun k =>
    (c.1, k.1, k.2.moveNo)))

/-- Drops translations, and waits for the engine work of the contexts concerned. -/
def invalidate (u : Bundle) (g : BitVec 32) (s : State) (drop : TlbEntry → Bool) (mine : Nat → Bool) : State :=
  awaitDev { s with tlb := s.tlb.filter (fun t => !drop t) } u g none (checkedXfers s mine) (checkedMoves s mine)

def execTlbInvPage (a : BitVec 6) (s : State) : Host.Outcome State Fault Refusal :=
  withBundle s (sysOp 2 [(a, 2)] (fun u g s =>
    let va := w64 (lowOperand s u g (own a 2))
    let c := sysCtx s u.wg
    if bitsOf va.toNat 63 52 ≠ 0 then ownFault s u { faultInfo 0x10 3 with faddr := va }
    else invalidate u g s (fun t => t.ctx == c && t.page == va.toNat / 2 ^ pageBits t.level) (fun k => k == c)))
def execTlbInvCtx (s : State) : Host.Outcome State Fault Refusal :=
  withBundle s (sysOp 2 [] (fun u g s => invalidate u g s (fun t => t.ctx == sysCtx s u.wg) (fun k => k == sysCtx s u.wg)))
def execTlbInvAll (s : State) : Host.Outcome State Fault Refusal :=
  withBundle s (sysOp 2 [] (fun u g s => invalidate u g s (fun _ => true) (fun _ => true)))

/-- Whether `size` bytes from a local address lie in installed memory, in one run of it (R183). -/
def backingOk (a size : Nat) : Bool :=
  if bitsOf a 40 40 = 0 then decide (a + size ≤ 0x9000000000) else decide (bitsOf a 35 0 + size ≤ 0x900000000)

/-- Whether `bmt.set` refuses an entry (R350). -/
def bmtBad (ws : List Word) : Bool :=
  recBits ws 0 28 16 != 0 || recBits ws 1 31 25 != 0 || recBits ws 2 31 25 != 0 || recBits ws 3 31 20 != 0 || bmtSize ws == 0
    || (!bmtDual ws && (bmtFront ws != 0 || wordAt ws 2 != 0)) || !backingOk (bmtBacking ws 0) (bmtSize ws)
    || (bmtDual ws && !backingOk (bmtBacking ws 1) (bmtSize ws))

/-- Context 0 has no table (R326). -/
def execBmtSet (a : BitVec 6) (m : BitVec 2) (b : BitVec 6) (s : State) : Host.Outcome State Fault Refusal :=
  withBundle s (sysOp 1 [(b, 4)] (fun u g s =>
    let n := (w32 (lowOperand s u g ⟨a, m, 1⟩)).toNat % 4096
    let ws := wordsOf (lowOperand s u g (own b 4)) 4
    let c := sysCtx s u.wg
    if bmtBad ws then ownFault s u (faultInfo 0x1C 4)
    else if (Map.find s.ctxs c).isNone then advance s u u.e.mask
    else
      let r := sendEntry s c n ws true
      awaitDev r.2 u g (some r.1) [] []))

/-! Parked workgroups (R338, R351). -/

/-- The placed or adjourned workgroup that an id and a launch id name in a context; a trap kernel's is found after the launch's own. -/
def namedWg (s : State) (ctx id lid : Nat) : Option Nat :=
  let fits := fun (trap : Bool) (w : Nat) =>
    let g := wgAt s w
    g.trapOf.isSome == trap && g.status < 2 && g.ctx == ctx && g.id == id && g.level < 2 && (launchAt s g.launch).lid % 65536 == lid
  match (List.range s.wgs.length).find? (fits false) with
  | some w => some w
  | none => (List.range s.wgs.length).find? (fits true)

/-- The live threads of a squad: lane block, lane, where each stands. -/
def liveThreads (sq : Squad) : List (Nat × Nat × Place) :=
  (sq.frontier ++ sq.overflow).flatMap (fun e => (lanesOf e.mask).map (fun l => (e.lb, l, e.place)))
    ++ sq.waiters.flatMap (fun x => (lanesOf x.mask).map (fun l => (x.lb, l, x.stand)))

/-- Resumes the parked copy-engine contexts of a workgroup. -/
def resumeCes (s : State) (w : Nat) : State :=
  (List.range 4).foldl (fun s k => resumeCeOf s w k) s

/-- `park.ctl` resume: of an adjourned workgroup, also one that is committed again, it waits for the restore (R351). A squad that STOP_SQUAD froze is released whole (R340). -/
def resumeWg (s : State) (w : Nat) : State :=
  if (wgAt s w).status = 1 ∨ (wgAt s w).leaving = some 2 then modWg s w (fun g => { g with resume := true })
  else
    let s := (List.range (wgAt s w).squads.length).foldl (fun s q =>
      modSq (resumeThreads s w q (fun _ => true) false) w q (fun sq => { sq with frozen := [] })) s
    resumeCes s w

/-- The threads of a squad exit, and what it was about to do goes. -/
def emptySquad (sq : Squad) : Squad :=
  { sq with
    frontier := [], overflow := [], waiters := [], parked := [], doomed := [], frozen := [], unmatched := [], stepping := [], checks := [], holds := []
    exited := (List.range sq.nlb).map (fun b => (b, BitVec.allOnes 32)) }

/-- Finishes the copy-engine contexts of a workgroup that have not finished, with a status. -/
def endCes (s : State) (w st : Nat) : State :=
  (List.range 4).foldl (fun s k =>
    let c := ceAt s (wgAt s w).core k
    if c.owner = some w ∧ 1 ≤ c.st ∧ c.st ≤ 3 then endCe s (wgAt s w).core k st else s) s

/-- Discards the queued matrix operations of a workgroup (R257). -/
def discardMat (s : State) (w : Nat) : State := dropOps s (((matOf s w).filter (fun o => !o.started)).map (fun o => o.id))

/-- Abandons the transfer operations of a workgroup that will not end by themselves: those with parked lanes, and those that poison stopped (R264, R280). -/
def abandonXfers (s : State) (w : Nat) : State :=
  modCore s (wgAt s w).core (fun c => { c with xfers := c.xfers.map (fun x =>
    if x.2.wg == w && (!x.2.parkedLanes.isEmpty || x.2.stopped) then (x.1, { x.2 with abandoned := true, parkedLanes := [] }) else x) })

/-- KILLING A WORKGROUP (R338): its threads exit without a record, its engine work ends or is abandoned, its barriers break. -/
def killWg (s : State) (w : Nat) : State :=
  let was := (wgAt s w).killed
  let s := abandonXfers (discardMat (endCes s w 6) w) w
  let s := { s with
    pubOps := s.pubOps.filter (fun p => p.2.wg != w)
    devOps := s.devOps.filter (fun p => p.2.wg != w)
    pageReqs := s.pageReqs.filter (fun p => p.2.wg != w || p.2.delivery.isSome) }
  let s := modWg s w (fun g => { g with
    squads := g.squads.map emptySquad, killed := true, arrivals := [], discard := [], resume := false, saved := Saved.none
    -- one that was being flushed retires, and is not placed again
    leaving := if g.leaving = some 3 then none else g.leaving
    bars := (List.range 16).foldl (fun m k => Map.put m k { barOf g k with broken := some ((barOf g k).broken.getD 2) }) g.bars })
  if was then s else modLaunch s (wgAt s w).launch (fun l => { l with killed := l.killed + 1 })

/-- `park.ctl` stop: every live thread parks at its next issue; one record names the lowest. -/
def stopWg (s : State) (w : Nat) : State :=
  let g := wgAt s w
  let live := (List.range g.squads.length).flatMap (fun q => (liveThreads (sqAt s w q)).map (fun t => (q, t)))
  let s := live.foldl (fun s t => modSq s w t.1 (fun sq => { sq with doomed := sq.doomed ++ [(t.2.1, t.2.2.1, none)] })) s
  let i := { faultInfo 0x28 6 with dbg := true }
  match firstBy (fun t => [t.1, t.2.1, t.2.2.1]) live with
  | some t =>
    let p := t.2.2.2
    reportThread s w t.1 t.2.1 t.2.2.1 (threadRecord s w t.1 t.2.1 t.2.2.1 (placeClass p) p i)
  | none =>
    postRecord s (dieOf g.core) (recordOf i 7 0 0 0 0 g.id (launchAt s g.launch).lid g.ctx 0 0 s.plat.tclk)

/-- The shape of `park.ctl`: D is 1 when the function was applied, else 0. -/
def parkCtl (d a : BitVec 6) (ok : State → Nat → Bool) (act : State → Nat → State) : Bundle → State → State :=
  sysOp 1 [(a, 2)] (fun u g s =>
    let v := w64 (lowOperand s u g (own a 2))
    let set := fun (s : State) (x : Word) => modSq s u.wg u.sq (fun sq => vset sq u.e.lb d.toNat g (fun _ => x))
    let s := advance s u u.e.mask
    match namedWg s (sysCtx s u.wg) (bitsOf v.toNat 31 0) (bitsOf v.toNat 47 32) with
    | none => set s 0
    | some w => if ok s w && !((wgAt s u.wg).level == 1 && w == u.wg) then act (set s 1) w else set s 0)

def execParkCtlResume (d a : BitVec 6) (s : State) : Host.Outcome State Fault Refusal :=
  withBundle s (parkCtl d a (fun s w => anyParked (wgAt s w)) resumeWg)
def execParkCtlKill (d a : BitVec 6) (s : State) : Host.Outcome State Fault Refusal := withBundle s (parkCtl d a (fun _ _ => true) killWg)
def execParkCtlStop (d a : BitVec 6) (s : State) : Host.Outcome State Fault Refusal := withBundle s (parkCtl d a (fun _ _ => true) stopWg)

/-! Debug and firmware operations (R353). -/

def execDbgSel (a : BitVec 6) (s : State) : Host.Outcome State Fault Refusal :=
  withBundle s (sysOp 2 [] (fun u g s =>
    modWg (advance s u u.e.mask) u.wg (fun x => { x with selected := bitsOf (w32 (lowOperand s u g (own a 1))).toNat 15 0 })))

def execDbgStep (a : BitVec 6) (s : State) : Host.Outcome State Fault Refusal :=
  withBundle s (sysOp 2 [(a, 2)] (fun u g s =>
    let v := w64 (lowOperand s u g (own a 2))
    let s := advance s u u.e.mask
    match namedWg s (sysCtx s u.wg) (bitsOf v.toNat 31 0) (bitsOf v.toNat 47 32) with
    | none => s
    | some w => (List.range (wgAt s w).squads.length).foldl (fun s q => resumeThreads s w q (fun _ => true) true) s))

def execHalt (s : State) : Host.Outcome State Fault Refusal :=
  withBundle s (sysOp 2 [] (fun u g s => wait (advance s u (u.e.mask &&& ~~~g)) u g .halted u.next))

/-- The shape of the cache operations. -/
def cacheOp (al : List (BitVec 6 × Nat)) (f : CoreSt → CoreSt) : Bundle → State → State :=
  sysOp 2 al (fun u _ s => let s := advance s u u.e.mask
                           { s with cores := s.cores.map (fun c => (c.1, f c.2)) })

def execCacheOpIinv (s : State) : Host.Outcome State Fault Refusal := withBundle s (cacheOp [] (fun c => { c with l1i := [] }))
def execCacheOpDinv (s : State) : Host.Outcome State Fault Refusal := withBundle s (cacheOp [] (fun c => { c with l1d := [] }))
/-- The L2 holds no bytes that memory does not: writing lines back changes neither. -/
def execCacheOpL2wb (a : BitVec 6) (s : State) : Host.Outcome State Fault Refusal := withBundle s (cacheOp [(a, 2)] (fun c => c))
def execCacheOpL2key (_a : BitVec 6) (s : State) : Host.Outcome State Fault Refusal := withBundle s (cacheOp [] (fun c => c))
def execCacheOpL2all (s : State) : Host.Outcome State Fault Refusal := withBundle s (cacheOp [] (fun c => c))

/-! Trap queues (R352). -/

/-- The records queued for a trap kernel, or for a firmware squad's die controller. -/
def queuedRecords (s : State) (w : Nat) : List (List Word) :=
  let g := wgAt s w
  match g.trapOf with
  | some l => (launchAt s l).trapQ
  | none => if g.level = 2 then Map.getD s.faults (dieOf g.core) [] else []

/-- Removes the oldest record of a queue. -/
def takeRecord (s : State) (w : Nat) : State :=
  let g := wgAt s w
  match g.trapOf with
  | some l => modLaunch s l (fun x => { x with trapQ := x.trapQ.drop 1 })
  | none => refillFaults { s with faults := Map.put s.faults (dieOf g.core) ((Map.getD s.faults (dieOf g.core) []).drop 1) } (dieOf g.core)

/-- Puts one store of a lane into its squad's queue: it goes as the lane's own store would (R175, R195, R215, R217). -/
def postStore (s : State) (u : Bundle) (l : Nat) (va : BitVec 64) (p : Acc) (bs : List Byte) : State :=
  let ln : StLane :=
    { lane := l, ea := va, loc := p.loc, attr := p.attr, bytes := bs, atom := none, ret := none, ord := none, place := u.e.place
      staged := { d := 0, a := 0, b := 0, c := 0 }, shown := [] }
  modSq s u.wg u.sq (fun sq => { sq with
    seq := sq.seq + 1
    stq := sq.stq ++ [{ seq := sq.seq, lb := u.e.lb, lanes := [ln], scope := 0, release := false, atomic := false }] })

/-- Writes the records on their way to the memory of the queues (R329). -/
def writeQueues (s : State) : State :=
  s.queueWrites.foldl (fun s x => physWrite s x.1 (x.2.flatMap bytesOfWord)) { s with queueWrites := [] }

/-- The record goes to memory as one store of the issuing thread, after its older ones and seen by its own younger loads (R215, R217; log entry 77). -/
def execFaultRd (d a : BitVec 6) (s : State) : Host.Outcome State Fault Refusal :=
  withBundle s (sysOp 1 [(a, 2)] (fun u g s =>
    let va := w64 (lowOperand s u g (own a 2))
    let x := wgAt s u.wg
    let set := fun (s : State) (v : Nat) => modSq s u.wg u.sq (fun sq => vset sq u.e.lb d.toNat g (fun _ => BitVec.ofNat 32 v))
    if va.toNat % 64 ≠ 0 then ownFault s u { faultInfo 0x12 0 with faddr := va }
    else
      match queuedRecords s u.wg with
      | [] => set (advance s u u.e.mask) 0
      | r :: rest =>
        match access s x.core x.ctx (x.level == 2) va .store with
        | (s, .error e) => ownFault s u { faultInfo e.1 e.2 with faddr := va }
        | (s, .ok p) =>
          let s := postStore s u (lowest g) va p (r.flatMap bytesOfWord)
          set (takeRecord (advance s u u.e.mask) u.wg) (1 + rest.length)))

/-- Ends the waits of `eret` whose queue holds a record; a host doorbell ends those of firmware. -/
def testErets (s : State) : State :=
  let bell := s.plat.doorbell
  let s := (List.range s.wgs.length).foldl (fun s w =>
    if !(queuedRecords s w).isEmpty || (bell && (wgAt s w).level == 2) then endWaitsWg s w (fun x => x.why == .eret) else s) s
  { s with plat := { s.plat with doorbell := false } }

def execEret (s : State) : Host.Outcome State Fault Refusal :=
  withBundle s (sysOp 1 [] (fun u g s =>
    if (queuedRecords s u.wg).isEmpty then wait (advance s u (u.e.mask &&& ~~~g)) u g .eret u.next else advance s u u.e.mask))

end Sys2Proof.Machine
end

