-- ==== Sys2Proof/Machine/MemEvents.lean ====
section
/-! DEFINITION. The events of memory: data returning to loads, stores leaving their queue, being performed and acknowledged, atomics, ordered
updates, last checks, ECC errors and requests of other devices (R175 to R177, R186, R195, R196, R203, R208 to R217, R330). An event whose
argument names nothing that may happen leaves the state as it is. -/

namespace Sys2Proof.Machine

/-! Loads (R176, R177, R212, R216). -/

/-- Whether a load may take its value: loads of one thread do so in program order, and after an acquire has landed. -/
def loadTurn (sq : Squad) (p : Pend) : Bool := !loadAhead sq p.lb p.lane p.seq

/-- The bits a load writes, from its bytes. -/
def Pend.word (p : Pend) (v : Nat) : Wide :=
  let x := v % 2 ^ (8 * p.size)
  match p.fmt with
  | .zext => BitVec.ofNat 256 x
  | .sext => wide32 (BitVec.ofInt 32 (if 2 ^ (8 * p.size - 1) ≤ x then (x : Int) - 2 ^ (8 * p.size) else x))

/-- A load's data lands in its register; at an acquire the core's L1 lines go. A thread in far-wait re-enters. -/
def landLoad (s : State) (w q k : Nat) (p : Pend) (v : Nat) : State :=
  let s := if p.acq then l1Invalidate s (wgAt s w).core else s
  let s := modSq s w q (fun sq =>
    vsetWide { sq with loads := Map.del sq.loads k } p.lb p.d.toNat ((1#32) <<< p.lane) (fun _ => p.word v) (regWords p.size))
  afterMem (endWaits s w q (fun x => x.why == .far k)) w q

/-- Whether a thread waits in an instruction for something that ends with its access. -/
def waitsAt (p : Pend) (k : Nat) (x : Waiter) : Bool :=
  x.lb == p.lb && inMask x.mask p.lane && x.stand == p.place && (match x.why with
    | .far j => j == k
    | .check _ => true
    | .atomAck _ => true
    | _ => false)

/-- A thread's access fails after its issue: the thread parks in the instruction with its staged operands, when it still waits there, else at its next
issue. -/
def failAccess (s : State) (w q lb lane : Nat) (place : Place) (staged : Staged) (waits : Waiter → Bool) (i : FaultInfo) : State :=
  let one := (1#32) <<< lane
  let r := threadRecord s w q lb lane (Cls.code (clauseClass place.hdr)) place i
  let s := if (sqAt s w q).waiters.any waits then
      let s := modSq s w q (fun sq => { sq with
        waiters := sq.waiters.flatMap (fun x =>
          if waits x then (if x.mask = one then [] else [{ x with mask := x.mask &&& ~~~one }]) else [x])
        checks := sq.checks.filterMap (fun c =>
          if c.2.lb = lb then (if c.2.mask &&& ~~~one = 0 then none else some (c.1, { c.2 with mask := c.2.mask &&& ~~~one })) else some c) })
      parkThreads s w q lb [lane] place (fun _ => .replay staged false)
    else modSq s w q (fun sq => { sq with doomed := sq.doomed ++ [(lb, lane, none)] })
  afterMem (reportThread s w q lb lane r) w q

/-- A load fails after its issue. -/
def failLoad (s : State) (w q k : Nat) (p : Pend) (code sub : Nat) : State :=
  failAccess (modSq s w q (fun sq => { sq with loads := Map.del sq.loads k })) w q p.lb p.lane p.place p.staged (waitsAt p k)
    { faultInfo code sub with faddr := p.ea, staged := some p.shown }

/-- A store or atomic of a lane fails after its issue (R186). -/
def failStore (s : State) (w q lb : Nat) (l : StLane) (code sub : Nat) : State :=
  failAccess s w q lb l.lane l.place l.staged (fun x => x.lb == lb && inMask x.mask l.lane && x.stand == l.place && (match x.why with
      | .check _ => true
      | .atomAck _ => true
      | _ => false))
    { faultInfo code sub with faddr := l.ea, staged := some l.shown }

/-- Whether an atomic of the load's own thread, or a part of it, is on its way to bytes that the load reads. -/
def atomAhead (s : State) (w q : Nat) (p : Pend) (a : Nat) : Bool :=
  s.flights.any (fun f => f.2.wg == w && f.2.sq == q && f.2.lb == p.lb && f.2.ln.lane == p.lane && f.2.ln.atom.isSome && !f.2.performed
    && decide (f.2.seq < p.seq) && f.2.ln.ord.isNone && f.2.ln.loc.same (.local a) f.2.ln.size p.size)

/-- LOAD_DATA_RETURN: load `k` of a squad takes its value and its data lands; of a remote one the request is sent. -/
def loadReturns (s : State) (w q k : Nat) (p : Pend) : State :=
  let g := wgAt s w
  let sq := sqAt s w q
  let own := fun (loc : Loc) (none_ : State) => match forward sq p.lb p.lane p.seq loc p.size with
    | .data bs => landLoad s w q k p (leNat bs)
    | .wait => s
    | .none => none_
  match p.src with
  | .value v => landLoad s w q k p v.toNat
  | src =>
    if !loadTurn sq p then s
    else
      match src with
      | .sbuf off => own (.sbuf off) (
          if bufPoisoned g 4 off p.size then failLoad s w q k p 0x15 0
          else landLoad s w q k p (leNat (bufRead g 4 off p.size)))
      | .buf v spc off =>
        if bufPoisoned (wgAt s v) spc off p.size then failLoad s w q k p 0x15 0
        else
          let b := bufBytes s v spc off p.size
          landLoad b.1 w q k p (leNat b.2)
      | .mem a attr home =>
        own (.local a) (
          let x := frontLoc s g.core a attr
          if atomAhead s w q p a then s
          else if poisoned s x p.size then failLoad s w q k p 0x15 0
          else if readsBack s g.core x p.size attr.bmt then
            let d := draw s
            landLoad d.2 w q k p (leNat (freeBytes d.1 p.size))
          else
            let r := loadBytes (ackLine s g.core (lineOf x)) g.core a p.size attr home
            let s := modSq r.1 w q (fun sq => perfAdd sq (if r.2.2 then 4 else 5) 1)
            let m := monoBytes s x attr.bmt r.2.1
            landLoad m.1 w q k p (leNat m.2))
      | .far d a false => own (.remote d a) (sendLoads s w q)
      | _ => s

def execLoadDataReturn (s : State) : Host.Outcome State Fault Refusal :=
  .next (match s.arg with
    | .ids w q k =>
      match Map.find (sqAt s w q).loads k with
      | some p => loadReturns s w q k p
      | none => s
    | _ => s)

/-! Remote accesses (R195, R196, R296, R299). -/

/-- Finds a pending load of any squad by its number. -/
def findLoad (s : State) (k : Nat) : Option (Nat × Nat × Pend) :=
  (List.range s.wgs.length).findSome? (fun w => (List.range (wgAt s w).squads.length).findSome? (fun q =>
    (Map.find (sqAt s w q).loads k).map (fun p => (w, q, p))))

/-- The flight of an atomic whose old value returns to load `k`. -/
def flightOf (s : State) (k : Nat) : Option (Nat × Flight) := s.flights.find? (fun f => f.2.ln.ret == some k)

/-- Whether load `k` waits for a reply that may come: its request has been sent. -/
def replyDue (s : State) (k : Nat) (p : Pend) : Bool :=
  match p.src with
  | .far _ _ sent => sent
  | .await => (flightOf s k).any (fun f => isFar f.2)
  | _ => false

/-- The subcode of a remote failure (R196). -/
def remoteSub : RemoteStatus → Nat
  | .noRoute => 1
  | .refused => 2
  | .range => 4
  | _ => 0

/-- A remote load or returning atomic fails. -/
def failFar (s : State) (w q k : Nat) (p : Pend) (code sub : Nat) : State :=
  let s := match flightOf s k with
    | some f => { s with flights := Map.del s.flights f.1 }
    | none => s
  failLoad s w q k p code sub

/-- REMOTE_REPLY: the reply to a remote load or returning atomic. -/
def execRemoteReply (s : State) : Host.Outcome State Fault Refusal :=
  .next (match s.arg with
    | .reply k data st =>
      match findLoad s k with
      | some (w, q, p) =>
        if !replyDue s k p then s
        else
          match st with
          | .ok =>
            let s := match flightOf s k with
              | some f => ackFlight s f.1 f.2
              | none => s
            let p := { p with src := .value data }
            if loadTurn (sqAt s w q) p then landLoad s w q k p data.toNat
            else modSq s w q (fun sq => { sq with loads := Map.put sq.loads k p })
          | .poison => failFar s w q k p 0x15 0
          | x => failFar s w q k p 0x16 (remoteSub x)
      | none => s
    | _ => s)

/-- A posted remote store or atomic fails: the first failure is kept for the next `fence.dom` or `st.rel.dom` of its squad; an answer that names poisoned
data is the poison fault (R196). -/
def failPosted (s : State) (id : Nat) (f : Flight) (code sub : Nat) : State :=
  ackFlight (modSq s f.wg f.sq (fun sq => { sq with remoteErr := match sq.remoteErr with
    | some e => some e
    | none => some (code, sub, f.ln.ea.toNat) })) id f

/-- REMOTE_TIMEOUT: a request that has left, and is not answered within 1 ms, fails. -/
def execRemoteTimeout (s : State) : Host.Outcome State Fault Refusal :=
  .next (match s.arg with
    | .ids k _ _ =>
      match findLoad s k, Map.find s.flights k with
      | some (w, q, p), _ => if replyDue s k p then failFar s w q k p 0x16 3 else s
      | none, some f => if isFar f ∧ f.ln.ret.isNone then failPosted s k f 0x16 3 else s
      -- a remap never fails traffic of the engines (R299)
      | none, none => if s.fab.quiesced.isNone then statusAnswered s k (some 0x16) else s
    | _ => s)

/-- REMOTE_STORE_ACK: the acknowledgement of a posted remote store or non-returning atomic, or of an engine's status word. -/
def execRemoteStoreAck (s : State) : Host.Outcome State Fault Refusal :=
  .next (match s.arg with
    | .reply k _ st =>
      match Map.find s.flights k with
      | some f =>
        if isFar f ∧ f.ln.ret.isNone then
          match st with
          | .ok => ackFlight s k f
          | .poison => failPosted s k f 0x15 0
          | x => failPosted s k f 0x16 (remoteSub x)
        else s
      | none => statusAnswered s k (match st with
        | .ok => none
        | .poison => some 0x15
        | _ => some 0x16)
    | _ => s)

/-- REMAP_DRAIN_EXPIRY (R299 step 2): every request on the dead plane that has left and is not answered fails. -/
def execRemapDrainExpiry (s : State) : Host.Outcome State Fault Refusal :=
  .next (match s.fab.quiesced with
    | none => s
    | some plane =>
      if s.fab.drained then s
      else
        let onPlane := fun (l : Loc) => match l with
          | .remote _ a => planeIn s.fab.oldPmap a == plane
          | _ => false
        let posted := s.flights.filter (fun f => onPlane f.2.ln.loc && f.2.ln.ret.isNone)
        let loads := (List.range s.wgs.length).flatMap (fun w => (List.range (wgAt s w).squads.length).flatMap (fun q =>
          (sqAt s w q).loads.filterMap (fun p => match p.2.src with
            | .far d a true => if onPlane (.remote d a) then some (w, q, p.1, p.2) else none
            | .await => match flightOf s p.1 with
              | some f => if onPlane f.2.ln.loc then some (w, q, p.1, p.2) else none
              | none => none
            | _ => none)))
        let s := posted.foldl (fun s f => failPosted s f.1 f.2 0x16 3) s
        let s := loads.foldl (fun s x => failFar s x.1 x.2.1 x.2.2.1 x.2.2.2 0x16 3) s
        { s with fab := { s.fab with drained := true } })

/-! Stores (R175, R177, R212, R215, R217). -/

/-- Whether the older loads of every lane's own thread have taken their values, and the acquires among them have landed: a store never becomes visible
before an earlier load of its thread has its value (R215, R219). -/
def loadsTaken (sq : Squad) (e : StEntry) : Bool := e.lanes.all (fun l => !loadAhead sq e.lb l.lane e.seq)

/-- Whether the atomics before an entry that its lanes' own threads sent to local memory are performed: a store that the core's loads see before an earlier
atomic of its thread would show them out of program order (R215). Ordered updates are outside this order (R217). -/
def atomsPerformed (s : State) (w q : Nat) (e : StEntry) : Bool :=
  e.lanes.all (fun l => match l.loc with
    | .local _ => !s.flights.any (fun f => f.2.wg == w && f.2.sq == q && f.2.lb == e.lb && f.2.ln.lane == l.lane && f.2.ln.atom.isSome
        && f.2.ln.ord.isNone && !f.2.performed && !isFar f.2)
    | _ => true)

/-- Whether the requests of an entry's remote lanes may be sent: older remote loads of the squad to the same bytes have been (R224), and the fabric takes
them (R299, R300). -/
def lanesMaySend (s : State) (sq : Squad) (e : StEntry) : Bool :=
  e.lanes.all (fun l => match l.loc with
    | .remote d a =>
      maySend s d a (e.lanes.filter (fun x => match x.loc with
        | .remote c _ => c == d
        | _ => false)).length
        && !sq.loads.any (fun p => decide (p.2.seq < e.seq) && (match p.2.src with
          | .far c b sent => !sent && (Loc.remote c b).same (.remote d a) p.2.size l.size
          | _ => false))
    | _ => true)

/-- Whether the oldest entry of a squad's store queue may leave (R175, R199, R203, R215, R224, R299). -/
def mayLeave (s : State) (w q : Nat) (e : StEntry) : Bool :=
  loadsTaken (sqAt s w q) e && atomsPerformed s w q e
    && (!e.release || decide (e.scope < 2) || !s.flights.any (fun f => f.2.wg == w && f.2.sq == q && !isFar f.2))
    && (!e.release || decide (e.scope < 5) || !s.flights.any (fun f => f.2.wg == w && f.2.sq == q && isFar f.2))
    && lanesMaySend s (sqAt s w q) e

/-- A posted remote fault that came while a `st.rel.dom` waited in the queue (R196): the release faults in its lowest lane, which performs nothing; its
thread, which did not wait, parks at its next issue (log entry 26). The entry that leaves. -/
def releaseFault (s : State) (w q : Nat) (e : StEntry) : State × StEntry :=
  match (sqAt s w q).remoteErr, e.lanes with
  | some x, l :: rest =>
    if e.release ∧ e.scope = 5 ∧ !e.atomic then
      let s := modSq s w q (fun sq => { sq with remoteErr := none })
      (failStore s w q e.lb { l with ea := BitVec.ofNat 64 x.2.2 } x.1 x.2.1, { e with lanes := rest })
    else (s, e)
  | _, _ => (s, e)

/-- Drops the line of a location from a core's L1. -/
def l1Drop (s : State) (core a : Nat) : State := modCore s core (fun c => { c with l1d := Map.del c.l1d (lineOf a) })

/-- One lane of an entry leaves: into S, or into the L1 and towards its home slice or its device. Each lane is a write of its own, so that the lanes of a bundle
that together cover a poisoned line or unit do not clear it: the spec does not say (DESIGN CHOICE, log entry 25). -/
def leaveLane (s : State) (w q : Nat) (e : StEntry) (l : StLane) : State :=
  let core := (wgAt s w).core
  let fly := fun (s : State) =>
    let id := newId s
    { id.2 with flights := Map.put id.2.flights id.1 { core := core, wg := w, sq := q, lb := e.lb, seq := e.seq, ln := l, performed := false } }
  match l.loc with
  | .sbuf o => modWg s w (fun g => bufWrite g 4 o l.bytes)
  | .local a => fly (if l.atom.isSome then l1Drop s core a else l1Update s core a l.bytes)
  | .remote d a =>
    { fly s with out := s.out ++ [.request s.ids d (requestOf s w a (l.asks (flushes s w)))] }

/-- STORE_QUEUE_DEPARTURE: the oldest entry of a squad's queue leaves, its lanes in ascending order. -/
def execStoreQueueDeparture (s : State) : Host.Outcome State Fault Refusal :=
  .next (match s.arg with
    | .ids w q _ =>
      match (sqAt s w q).stq with
      | [] => s
      | e :: rest =>
        if mayLeave s w q e then
          let r := releaseFault s w q e
          let s := r.2.lanes.foldl (fun s l => leaveLane s w q e l) r.1
          afterMem (modSq s w q (fun sq => { sq with stq := rest })) w q
        else s
    | _ => s)

/-- Whether an earlier write of the same core to the bytes of a flight is still to be performed: writes of one core to one location are
performed in the order in which they left (R215, R217). -/
def flightTurn (s : State) (id : Nat) (f : Flight) : Bool :=
  !f.performed && !isFar f && s.flights.all (fun x =>
    !(decide (x.1 < id) && x.2.core == f.core && !x.2.performed && x.2.ln.loc.same f.ln.loc x.2.ln.size f.ln.size))

/-- Records that a flight is performed. -/
def markPerformed (s : State) (id : Nat) : State := { s with flights := Map.modify s.flights id (fun f => { f with performed := true }) }

/-- HOME_SLICE_WRITE: a store is performed at its home slice, which tests the ticket waiters again (R101, R217). -/
def execHomeSliceWrite (s : State) : Host.Outcome State Fault Refusal :=
  .next (match s.arg with
    | .ids id _ _ =>
      match Map.find s.flights id with
      | some f =>
        match f.ln.loc with
        | .local a =>
          if flightTurn s id f ∧ f.ln.atom.isNone then markPerformed (performWrite s a f.ln.attr.key f.ln.bytes) id else s
        | _ => s
      | none => s
    | _ => s)

/-- STORE_ACKNOWLEDGEMENT: the home slice has performed a write of the core. -/
def execStoreAcknowledgement (s : State) : Host.Outcome State Fault Refusal :=
  .next (match s.arg with
    | .ids id _ _ =>
      match Map.find s.flights id with
      | some f => if f.performed then ackFlight s id f else s
      | none => s
    | _ => s)

/-! Atomics (R201 to R203). -/

/-- Whether a launch's contract flushes (R148). -/
def launchFlushes (l : Launch) : Bool :=
  let nc := recBits l.khw 0 26 23
  nc == 1 || (nc == 0 && recBits l.khw 0 31 28 == 5)

/-- A read-modify-write of local memory at its home slice: the old value, which is a free one where the word lies in the back of a DUAL entry, read
through another mapping (`back`, R276). -/
def performAtom (s : State) (flush back : Bool) (a key : Nat) (n : Nat) (op : AtomOp) : State × DWord :=
  let s := keyLine s (lineOf a) key
  let d := draw s
  let old := BitVec.ofNat 64 (leNat (if back then freeBytes d.1 n else Memory.readAll s.mem a n))
  (performWrite (if back then d.2 else s) a key (leBytes n (op.apply flush old).toNat), old)

/-- An atomic of a flight performed at location `a`, its line leaving the core's L1. -/
def flightAtom (s : State) (f : Flight) (a : Nat) (op : AtomOp) : State × DWord :=
  performAtom (l1Drop s f.core a) (flushes s f.wg) (readsBack s f.core a f.ln.size f.ln.attr.bmt) a f.ln.attr.key f.ln.size op

/-- ATOMIC_PERFORM: an atomic is performed at its home slice, and its line leaves the core's L1. -/
def execAtomicPerform (s : State) : Host.Outcome State Fault Refusal :=
  .next (match s.arg with
    | .ids id _ _ =>
      match Map.find s.flights id with
      | some f =>
        match f.ln.loc, f.ln.atom with
        | .local a, some op =>
          if flightTurn s id f ∧ f.ln.ord.isNone then
            match f.ln.ret.bind (fun k => (Map.find (sqAt s f.wg f.sq).loads k).map (fun p => (k, p))) with
            | some (k, p) =>
              if poisoned s a f.ln.size then failLoad (markPerformed s id) f.wg f.sq k p 0x15 0
              else
                let r := flightAtom s f a op
                markPerformed (modSq r.1 f.wg f.sq (fun sq => { sq with
                  loads := Map.put sq.loads k { p with src := .value (r.2.zeroExtend 128) } })) id
            | none =>
              if poisoned s a f.ln.size then ackFlight (failStore s f.wg f.sq f.lb f.ln 0x15 0) id f
              else markPerformed (flightAtom s f a op).1 id
          else s
        | _, _ => s
      | none => s
    | _ => s)

/-! Ordered updates (R208 to R210, R231). -/

/-- The home slice of a location (R184). -/
def sliceOf (a : Nat) : Nat := a / 2 ^ 36 * 8 + xorGroups 3 (a % 2 ^ 36 / 128) 10

/-- The lowest workgroup id of a launch that is not retired (R209). -/
def watermarkFrom (retired : List Nat) : Nat → Nat → Nat
  | 0, w => w
  | n + 1, w => if retired.contains w then watermarkFrom retired n (w + 1) else w

def watermark (l : Launch) : Nat := watermarkFrom l.retired (l.retired.length + 1) 0

/-- The order of issuer keys. -/
def Upd.key (u : Upd) : List Nat := [u.wg, u.tid, u.seq]

/-- The lines with held or logged updates of a launch. -/
def updateLines (s : State) (l : Nat) : List Nat :=
  ((s.trackers.filter (fun t => t.launch == l)).map (fun t => t.line)
    ++ (s.ulog.filter (fun u => u.1 == l)).map (fun u => lineOf u.2.2.loc)).dedup

/-- The held and logged updates of a launch to one line. -/
def updatesOf (s : State) (l line : Nat) : List Upd :=
  (s.trackers.filter (fun t => t.launch == l && t.line == line)).flatMap (fun t => t.held)
    ++ (s.ulog.filter (fun u => u.1 == l && lineOf u.2.2.loc == line)).map (fun u => u.2.2)

/-- Whether an update of a launch is due: its workgroup is below the watermark (R209). The trap kernel's id is none of the launch's workgroups': its updates
come after theirs, when all of them have retired (DESIGN CHOICE, log entry 86). -/
def updateDue (x : Launch) (u : Upd) : Bool :=
  decide (u.wg < watermark x) || (decide ((wordAt x.rec_ 2).toNat ≤ u.wg) && x.retired.length == (wordAt x.rec_ 2).toNat)

/-- The next update of a launch to a line that is due: the one with the lowest key (R209). -/
def dueUpdate (s : State) (l line : Nat) : Option Upd := firstBy Upd.key ((updatesOf s l line).filter (updateDue (launchAt s l)))

/-- The launch whose contract an update is applied under: its own, or that of the trap kernel's header. -/
def updateContract (s : State) (l : Nat) (u : Upd) : Launch :=
  let x := launchAt s l
  match x.trapWg with
  | some w => if u.wg = (wgAt s w).id then launchAt s (wgAt s w).launch else x
  | none => x

/-- The record of an update that meets poison when it is applied (R186): its issuer has retired, so the record alone tells of it. -/
def updatePoison (s : State) (l : Nat) (u : Upd) : State :=
  let i := { faultInfo 0x15 0 with faddr := BitVec.ofNat 64 (u.loc / 128 * 128) }
  let r := recordOf i 2 (u.tid % 32) (u.tid % 512) (u.tid / 512) 0 u.wg (launchAt s l).lid (launchAt s l).ctx 0 0 s.plat.tclk
  postRecord s (sliceOf u.loc / 32) r

/-- No core: what reads as it has the device's own view of the buffer map. -/
def noCore : Nat := 2 ^ 16

/-- The ordered update unit applies the next due update of a launch to a line and takes it out of its tracker and the log; different lines advance
independently (R209, R231). An update that meets poison is dropped with a record (log entry 66). -/
def applyUpdate1 (s : State) (l line : Nat) : State :=
  match dueUpdate s l line with
  | none => s
  | some u =>
    let n := match u.op with
      | .op _ ty _ => atomBytes ty
      | .cas ty _ _ => atomBytes ty
    let s := if poisoned s u.loc n then updatePoison s l u
      else (performAtom s (launchFlushes (updateContract s l u)) (readsBack s noCore u.loc n none) u.loc ((recordedKey s (lineOf u.loc)).getD 0) n u.op).1
    let s := { s with
      ulog := s.ulog.filter (fun x => !(x.1 == l && x.2.2 == u))
      trackers := s.trackers.map (fun t => if t.launch == l && t.line == line then { t with held := t.held.filter (· != u) } else t) }
    -- a tracker is freed when no update of the launch to the line remains
    if (updatesOf s l line).isEmpty then { s with trackers := s.trackers.filter (fun t => !(t.launch == l && t.line == line)) } else s

/-- Entries of 32 bytes in a launch's log segment of one slice. -/
def segmentEntries (l : Launch) : Nat := recBits l.rec_ 15 31 20 * 65536 / 128 / 32

/-- The virtual address of entry `n` of a launch's log segment. -/
def logAddr (l : Launch) (slice n : Nat) : Nat := recAddr l.rec_ 14 + slice * segmentEntries l * 32 + n * 32

/-- LOG_FULL_FAULT: a record names the launch, the line and the issuer key; every workgroup of the launch parks at its next issue. -/
def logFullFault (s : State) (f : Flight) (u : Upd) : State :=
  let g := wgAt s f.wg
  let i := { faultInfo 0x14 2 with faddr := BitVec.ofNat 64 (f.ln.ea.toNat / 128 * 128) }
  let r := recordOf i 7 (u.tid % 32) (u.tid % 512) (u.tid / 512) 0 u.wg (launchAt s g.launch).lid g.ctx 0 0 s.plat.tclk
  let r := r.take 10 ++ [BitVec.ofNat 32 u.seq] ++ r.drop 11
  modLaunch (postRecord s (dieOf f.core) r) g.served (fun l => { l with logFull := true })

/-- Appends an update to its launch's log segment: the entry's bytes in memory have no stated form. -/
def appendLog (s : State) (f : Flight) (u : Upd) : State :=
  let l := (wgAt s f.wg).served
  let slice := sliceOf u.loc
  let n := (s.ulog.filter (fun x => x.1 == l && x.2.1 == slice)).length
  if segmentEntries (launchAt s l) ≤ n then logFullFault s f u
  else
    let d := draw s
    let r := access d.2 f.core (wgAt s f.wg).ctx false (BitVec.ofNat 64 (logAddr (launchAt s l) slice n)) .engineWrite
    let s := match r.2 with
      | .ok p => match p.loc with
        | .local a => performWrite r.1 a p.attr.key (freeBytes d.1 32)
        | _ => r.1
      | .error _ => r.1
    { s with ulog := s.ulog ++ [(l, slice, u)] }

/-- ORDERED_UPDATE_ARRIVAL: an update is held in a line tracker or logged; either is its acknowledgement's ground (R203). -/
def execOrderedUpdateArrival (s : State) : Host.Outcome State Fault Refusal :=
  .next (match s.arg with
    | .ids id _ _ =>
      match Map.find s.flights id with
      | some f =>
        match f.ln.loc, f.ln.atom, f.ln.ord with
        | .local a, some op, some n =>
          if f.performed then s
          else
            let s := keyLine (l1Drop s f.core a) (lineOf a) f.ln.attr.key
            let l := (wgAt s f.wg).served
            let u : Upd := { wg := (wgAt s f.wg).id, tid := f.sq * 512 + f.lb * 32 + f.ln.lane, seq := n, loc := a, op := op }
            let mine := fun (t : Tracker) => t.launch == l && t.line == lineOf a
            let used := (s.trackers.filter (fun t => sliceOf (t.line * 128) == sliceOf a)).length
            let s := match s.trackers.find? mine with
              | none =>
                if used < 64 then { s with trackers := s.trackers ++ [{ launch := l, line := lineOf a, log := false, held := [u] }] }
                else appendLog s f u
              | some t =>
                if !t.log ∧ t.held.length < 16 then
                  { s with trackers := s.trackers.map (fun x => if mine x then { x with held := insertBy Upd.key u x.held } else x) }
                else appendLog { s with trackers := s.trackers.map (fun x => if mine x then { x with log := true } else x) } f u
            markPerformed s id
        | _, _, _ => s
      | none => s
    | _ => s)

/-! Last checks (R330), errors (R186), requests of other devices (R195). -/

/-- LAST_CHECK_COMPLETION: the places of an instruction's lanes are freed and its threads go on. -/
def execLastCheckCompletion (s : State) : Host.Outcome State Fault Refusal :=
  .next (match s.arg with
    | .ids w q k =>
      if (Map.find (sqAt s w q).checks k).any (fun c => decide (c.due ≤ (sqAt s w q).cycle)) then
        endWaits (modSq s w q (fun sq => { sq with checks := Map.del sq.checks k })) w q (fun x => x.why == .check k)
      else s
    | _ => s)

/-- MEMORY_ECC_ERROR: corrected errors are counted, an L1 line with a parity error is dropped, the others poison a line or a unit. -/
def execMemoryEccError (s : State) : Host.Outcome State Fault Refusal :=
  .next (match s.arg with
    | .ecc e =>
      match e with
      | .corrected => { s with plat := { s.plat with corrected := s.plat.corrected + 1 } }
      | .l1Parity core line => modCore s core (fun c => { c with l1d := Map.del c.l1d line })
      | .line n => { s with poison := if s.poison.contains n then s.poison else s.poison ++ [n] }
      | .unit w b u =>
        if b < 4 ∧ u * 32 < allocOf s w (b + 1) then
          let k := (b + 1) * 2 ^ 15 + u
          modWg s w (fun g => { g with poison := if g.poison.contains k then g.poison else g.poison ++ [k] })
        else s
    | _ => s)

/-- The bytes and the operation of a request of another device. -/
def remoteSize : RemoteAccess → Nat
  | .load n => n
  | .store bs => bs.length
  | .atom _ ty _ _ => atomBytes ty
  | .cas ty _ _ => atomBytes ty

/-- Serves a request at its home slice; which ranges firmware has granted to a context no rule states (log entry 2). -/
def serve (s : State) (r : RemoteRequest) : State × QWord × RemoteStatus :=
  match localLoc r.local40.toNat with
  | none => (s, 0, .range)
  | some a =>
    let d := draw s
    let s := d.2
    if !Config.freeChoice d.1 then (s, 0, .refused)
    else
      let key := (recordedKey s (lineOf a)).getD 0
      let bad := poisoned s a (max 1 (remoteSize r.access))
      match r.access with
      | .load n => if bad then (s, 0, .poison) else (s, BitVec.ofNat 128 (leNat (Memory.readAll s.mem a n)), .ok)
      | .store bs => (performWrite s a key bs, 0, .ok)
      | .atom f ty x flush =>
        if bad then (s, 0, .poison)
        else
          let p := performAtom s flush false a key (atomBytes ty) (.op f ty x)
          (p.1, p.2.zeroExtend 128, .ok)
      | .cas ty c n =>
        if bad then (s, 0, .poison)
        else
          let p := performAtom s false false a key (atomBytes ty) (.cas ty c n)
          (p.1, p.2.zeroExtend 128, .ok)

/-- REMOTE_REQUEST_ARRIVAL: a request of another device is served and answered. -/
def execRemoteRequestArrival (s : State) : Host.Outcome State Fault Refusal :=
  .next (match s.arg with
    | .request r =>
      let x := serve s r
      { x.1 with out := x.1.out ++ [.reply r.src x.2.1 x.2.2] }
    | _ => s)

end Sys2Proof.Machine
end

