-- ==== Sys2Proof/Machine/SquadEvents.lean ====
section
/-! DEFINITION. The events of squads: regrouping, clause waits, instruction lines, convergence timeouts, counting of updates, and the retirement
of lane blocks (R34, R60, R61, R67, R70, R78, R81 to R100). -/

namespace Sys2Proof.Machine

/-! Regrouping (R60). -/

/-- Whether two entries merge: those of one lane block and one PC do, but a replay entry that has not issued. -/
def merges (a b : Entry) : Bool := a.lb == b.lb && a.place.pc == b.place.pc && a.replay.isEmpty && b.replay.isEmpty

/-- Two entries as one. Where the clauses of one PC differ, it stands in that of the earliest-formed part (log entry 15). -/
def mergeTwo (a b : Entry) : Entry :=
  { a with
    place := if a.formed ≤ b.formed then a.place else b.place
    mask := a.mask ||| b.mask, age := max a.age b.age, pwait := max a.pwait b.pwait, formed := min a.formed b.formed
    notBefore := max a.notBefore b.notBefore, yielded := a.yielded || b.yielded }

/-- Adds an entry to merged ones, each with the flag that a part of it stands in the frontier. -/
def addMerged (x : Bool × Entry) : List (Bool × Entry) → List (Bool × Entry)
  | [] => [x]
  | y :: ys => if merges y.2 x.2 then (y.1 || x.1, mergeTwo y.2 x.2) :: ys else y :: addMerged x ys

/-- The frontier and the overflow queue after the merging and clearing steps. -/
def mergeAll (sq : Squad) : Squad :=
  let all := (sq.frontier.map (fun e => (true, e)) ++ sq.overflow.map (fun e => (false, e))).foldl (fun acc x => addMerged x acc) []
  let all := all.map (fun x => (x.1, { x.2 with yielded := false }))
  { sq with frontier := (all.filter (fun x => x.1)).map (fun x => x.2), overflow := (all.filter (fun x => !x.1)).map (fun x => x.2) }

/-- Moves one aged overflow entry into the frontier, in the place of the lowest-sorted entry that is not aged, if one is needed. -/
def promote (key : Entry → List Nat) (sq : Squad) (e : Entry) : Squad :=
  let rest := sq.overflow.filter (fun f => f.formed != e.formed)
  if sq.frontier.length < Config.frontierSize then { sq with frontier := sq.frontier ++ [e], overflow := rest }
  else
    match (sortBy key (sq.frontier.filter (fun f => decide (f.age < Config.starvation)))).getLast? with
    | none => sq
    | some out => { sq with frontier := sq.frontier.filter (fun f => f.formed != out.formed) ++ [e], overflow := rest ++ [out] }

/-- Regroups a squad. The rule names no order among overflow entries that are aged 4,096 or more; they are moved in sort order (log entry 15). -/
def regroupSquad (ver : Nat) (peek : VAddr → Word) (sq : Squad) : Squad :=
  let key := sortKey ver peek
  let sq := mergeAll sq
  let room := Config.frontierSize - sq.frontier.length
  let queue := sortBy key sq.overflow
  let sq := { sq with frontier := sq.frontier ++ queue.take room, overflow := queue.drop room }
  let sq := (sq.overflow.filter (fun e => decide (Config.starvation ≤ e.age))).foldl (promote key) sq
  { sq with regrouped := true }

/-- REGROUP: before every cycle whose number is a multiple of 4. -/
def execRegroup (s : State) : Host.Outcome State Fault Refusal :=
  .next (match s.arg with
    | .ids w q _ =>
      if (sqAt s w q).cycle % 4 = 0 ∧ !(sqAt s w q).regrouped then
        let ver := versionOf s w
        let peek := peekWord s w
        modSq s w q (regroupSquad ver peek)
      else s
    | _ => s)

/-! Waits, lines, timeouts. -/

/-- CLAUSE_WAIT_RELEASE: the clause waits of a squad whose condition has come true end. -/
def execClauseWaitRelease (s : State) : Host.Outcome State Fault Refusal :=
  .next (match s.arg with
    | .ids w q _ => testClauses s w q
    | _ => s)

/-- Whether an entry of a workgroup stands in a line, or its second word does. -/
def wantsLine (s : State) (w line : Nat) : Bool :=
  (wgAt s w).squads.any (fun sq => (sq.frontier ++ sq.overflow).any (fun e =>
    e.place.pc.toNat / 128 == line || (e.place.pc.toNat + 4) / 128 == line))

/-- Fills a line of a core's L1 instruction cache: in a full set it takes the place of a line that the spec leaves open. That virtual line `n` stands in set
`n` mod 128 is the model's choice (R178, log entry 62). -/
def l1iFill (s : State) (core ctx line : Nat) (bs : List Byte) : State :=
  let set := (coreAt s core).l1i.filter (fun p => p.1.2 % Config.l1iSets == line % Config.l1iSets)
  if set.length < Config.l1iWays then modCore s core (fun c => { c with l1i := c.l1i ++ [((ctx, line), bs)] })
  else
    let out := (set.map (·.1)).getD (Config.freeNumber s.freeCtr % set.length) (ctx, line)
    modCore { s with freeCtr := s.freeCtr + 1 } core (fun c => { c with l1i := c.l1i.filter (fun p => p.1 != out) ++ [((ctx, line), bs)] })

/-- IFETCH_LINE_ARRIVAL: a line that an entry stands in, and may fetch, enters the L1 instruction cache. -/
def execIfetchLineArrival (s : State) : Host.Outcome State Fault Refusal :=
  .next (match s.arg with
    | .ids w line _ =>
      let g := wgAt s w
      if wantsLine s w line ∧ (cachedLine s g.core (fetchCtx g) line).isNone then
        match fetchCheck s g.core g.ctx (g.level == 2) (BitVec.ofNat 52 (line * 128)) with
        | (s, .error _) => s
        | (s, .ok a) =>
          let r := fetchLine s a
          l1iFill r.1 g.core (fetchCtx g) line r.2
      else s
    | _ => s)

/-- CONVERGENCE_TIMEOUT: the entry formed with a number has waited too long for partners: its threads park at the instruction. -/
def execConvergenceTimeout (s : State) : Host.Outcome State Fault Refusal :=
  .next (match s.arg with
    | .ids w q n =>
      match ((sqAt s w q).frontier ++ (sqAt s w q).overflow).find? (fun e => e.formed == n && decide (Config.partnerLimit ≤ e.pwait)) with
      | none => s
      | some e =>
        let s := modSq s w q (fun sq => { sq with
          frontier := sq.frontier.filter (fun f => f.formed != n), overflow := sq.overflow.filter (fun f => f.formed != n) })
        faultIssue s { wg := w, sq := q, e := e, guard := 7, words := 0 } e.mask (faultInfo 0x07 0)
    | _ => s)

/-! Updates that count after their issue (R81, R82, R88, R95, R100). -/

/-- The threads of update `i` of a workgroup that may be counted now: a thread's updates count in its program order, and those of a commit or a free
all together. -/
def dueOf (s : State) (w i : Nat) (a : Arrival) : BitVec 32 :=
  let earlier := ((wgAt s w).arrivals.take i).foldl (fun m b => if b.sq = a.sq ∧ b.lb = a.lb then m ||| b.mask else m) 0
  let m := countable s w a &&& ~~~earlier
  match a.what with
  | .barrier .. => m
  | _ => if m = a.mask then m else 0

/-- The order in which updates that may be counted at one time are (R82): frees first, then ascending squad and thread. -/
def updateKey (a : Arrival) (m : BitVec 32) : List Nat :=
  [match a.what with
    | .free _ => 0
    | _ => 1, a.sq, a.lb, lowest m]

/-- Counts the threads of update `i` of a workgroup that may be counted, if `kind` holds of it and no other update comes before it. -/
def countUpdate (s : State) (w i : Nat) (kind : Update → Bool) : State :=
  match (wgAt s w).arrivals[i]? with
  | none => s
  | some a =>
    let m := dueOf s w i a
    let first := (wgAt s w).arrivals.zipIdx.all (fun b =>
      let n := dueOf s w b.2 b.1
      b.2 == i || n == 0 || !keyLt (updateKey b.1 n) (updateKey a m))
    if !kind a.what || m == 0 || !first then s
    else
      let s := modWg s w (fun g => { g with
        arrivals := if m = a.mask then g.arrivals.eraseIdx i else modAt g.arrivals i (fun b => { b with mask := b.mask &&& ~~~m }) })
      applyUpdate s w a m

/-- An event that counts an update of a kind. -/
def onUpdate (s : State) (kind : Update → Bool) : Host.Outcome State Fault Refusal :=
  .next (match s.arg with
    | .ids w i _ => countUpdate s w i kind
    | _ => s)

/-- BARRIER_ARRIVAL_COUNT: thread arrivals whose stores have left the queue are counted, and may complete the phase (R84). -/
def execBarrierArrivalCount (s : State) : Host.Outcome State Fault Refusal :=
  onUpdate s (fun u => match u with
    | .barrier .. => true
    | _ => false)

/-- RING_UPDATE_APPLY. -/
def execRingUpdateApply (s : State) : Host.Outcome State Fault Refusal :=
  onUpdate s (fun u => match u with
    | .commit _ => true
    | .free _ => true
    | _ => false)

/-- XBAR_ARRIVAL_COUNT. -/
def execXbarArrivalCount (s : State) : Host.Outcome State Fault Refusal :=
  onUpdate s (fun u => match u with
    | .xbar _ _ => true
    | _ => false)

/-! Retirement of lane blocks (R78). -/

/-- Whether a lane block may retire: its threads have exited and no load to its registers is outstanding. -/
def mayRetireBlock (sq : Squad) (lb : Nat) : Bool :=
  decide (lb < sq.nlb) && exitedOf sq lb == BitVec.allOnes 32 && !sq.retired.contains lb && !sq.loads.any (fun p => p.2.lb == lb)

/-- LANE_BLOCK_RETIREMENT: the lane block's registers are freed. -/
def execLaneBlockRetirement (s : State) : Host.Outcome State Fault Refusal :=
  .next (match s.arg with
    | .ids w q lb =>
      if mayRetireBlock (sqAt s w q) lb then
        modSq s w q (fun sq =>
          { sq with
            retired := sq.retired ++ [lb]
            -- an exited signer still supplies its registers (R240)
            v := sq.v.filter (fun x => x.1 / 256 != lb || (suppliedItems sq).contains (itemV lb (x.1 % 256)))
            p := sq.p.filter (fun x => x.1 / 8 != lb), x := sq.x.filter (fun x => x.1 / 4 != lb)
            j := sq.j.filter (fun x => x.1 / 16 != lb) })
      else s
    | _ => s)

end Sys2Proof.Machine
end

