-- ==== Sys2Proof/Machine/Placement.lean ====
section
/-! DEFINITION. Kernel headers and launch records with their checks, room on cores, and workgroups as they are placed (R17, R22 to R29, R99,
R106 to R112, R228, R337). -/

namespace Sys2Proof.Machine

/-! Reading records as the launch unit does. -/

/-- `n` words at a physical address; beyond installed memory they have no stated value. -/
def physWords (s : State) (pa n : Nat) : State × List Word :=
  let d := draw s
  (d.2, (List.range n).map (fun k => match physRead s (pa + 4 * k) 4 with
    | some x => BitVec.ofNat 32 x
    | none => Config.freeWord d.1 k))

/-- The number under which units that belong to no core see buffer map entries: as the device holds them. -/
def unitView : Nat := 2 ^ 20

/-- `n` words at a virtual address of a context, or the fault that stops the read; `al` is its alignment. -/
def contextWords (s : State) (ctx va al n : Nat) : State × Except (Nat × Nat) (List Word) :=
  if va % al ≠ 0 then (s, .error (0x12, 0))
  else
    match access s unitView ctx false (BitVec.ofNat 64 va) .load with
    | (s, .error e) => (s, .error e)
    | (s, .ok a) =>
      match a.loc with
      | .local x =>
        if poisoned s x (4 * n) then (s, .error (0x15, 0))
        else
          let s := keyLine s (lineOf x) a.attr.key
          (s, .ok ((List.range n).map (fun k => memWord s (x + 4 * k))))
      | _ => let d := draw s
             (d.2, .ok ((List.range n).map (Config.freeWord d.1)))

/-! Kernel headers (R22 to R28). -/

def hdrVer (k : List Word) : Nat := recBits k 0 31 28
def hdrD (k : List Word) : Bool := (wordAt k 0).getLsbD 22
def hdrSquads (k : List Word) : Nat := recBits k 0 16 15 + 1
/-- Squad `q`'s byte of KHW1 (R24). -/
def hdrByte (k : List Word) (q : Nat) : Nat := recBits k 1 (8 * q + 7) (8 * q)
def hdrRole (k : List Word) (q : Nat) : Nat := hdrByte k q % 4
def hdrBlocks (k : List Word) (q : Nat) : Nat := hdrByte k q / 4 % 16 + 1
def hdrAlloc (k : List Word) (q : Nat) : Nat := hdrByte k q / 64
def hdrEntry (k : List Word) (q : Nat) : Nat := recBits k (3 + q) 23 0
/-- Granules of a typed buffer: 1 W, 2 A, 3 C, 4 S (R25). -/
def hdrGranules (k : List Word) (spc : Nat) : Nat :=
  match spc with
  | 1 => recBits k 2 5 0
  | 2 => recBits k 2 10 6
  | 3 => recBits k 2 15 11
  | _ => recBits k 2 19 16
def hdrTags (k : List Word) : Nat := recBits k 2 26 20

/-- Whether a version may name a contract (R27): one whose `NCAPM` code is nonzero. -/
def contractAccepted (ver nc : Nat) : Bool :=
  if ver = 5 then decide (nc ≤ 1) else nc == 0 || Config.ncapm.toNat / 16 ^ nc % 16 != 0

/-- The first header check that fails (R28), after the one that the header can be read. -/
def headerRefusal (k : List Word) : Option Nat :=
  let ver := hdrVer k
  let nsq := hdrSquads k
  let present := List.range nsq
  let absent := (List.range 4).filter (fun q => decide (nsq ≤ q))
  let count := fun (r : Nat) => (present.filter (fun q => hdrRole k q == r)).length
  if !(ver == 5 || ver == 6 || ver == 7) then some 2
  else if !contractAccepted ver (recBits k 0 26 23) then some 3
  else if recBits k 0 14 0 ≠ 0 ∨ recBits k 2 31 30 ≠ 0 ∨ (List.range 4).any (fun q => recBits k (3 + q) 31 24 != 0)
      ∨ absent.any (fun q => hdrByte k q != 0 || hdrEntry k q != 0) then some 4
  else if 0 < count 3 ∨ 1 < count 1 ∨ 1 < count 2 then some 5
  else if present.any (fun q => decide (32768 < hdrBlocks k q * 32 * (64 * (hdrAlloc k q + 1)))) then some 6
  else if 32 < hdrGranules k 1 ∨ 16 < hdrGranules k 2 ∨ 16 < hdrGranules k 3 ∨ 8 < hdrGranules k 4 ∨ 64 < hdrTags k then some 7
  else if present.any (fun q => decide (hdrEntry k q < 8)) then some 8
  else if ver = 5 ∧ (hdrD k ∨ recBits k 0 18 17 ≠ 0) then some 9
  else none

/-! Launch records (R106, R107). -/

def recImage (r : List Word) : Nat := recAddr r 0
def recNwg (r : List Word) : Nat := (wordAt r 2).toNat
def recPri (r : List Word) : Nat := recBits r 3 14 12
def recP (r : List Word) : Nat := recBits r 3 10 8
def recGang (r : List Word) : Nat := recBits r 3 5 0
def recTrap (r : List Word) : Nat := recAddr r 12

/-- The granules of each typed buffer, and the tags, of a core (R15, R17). -/
def coreGranules (spc : Nat) : Nat :=
  match spc with
  | 1 => 32
  | 2 => 16
  | 3 => 16
  | _ => 8
def coreTags : Nat := 64

/-- Whether `n` workgroups of a kernel fit one empty core together (R17). -/
def fitEmpty (k : List Word) (n : Nat) : Bool :=
  decide (n * hdrSquads k ≤ 4) && [1, 2, 3, 4].all (fun spc => decide (n * hdrGranules k spc ≤ coreGranules spc)) && decide (n * hdrTags k ≤ coreTags)

/-- Whether a record has a nonzero reserved field (R106). -/
def recReserved (r : List Word) (d : Bool) : Bool :=
  recBits r 1 31 20 != 0 || recBits r 3 31 22 != 0 || recBits r 3 7 6 != 0 || recBits r 5 31 20 != 0 || recBits r 6 31 29 != 0
    || recBits r 6 15 13 != 0 || recBits r 9 31 29 != 0 || recBits r 9 15 12 != 0 || recBits r 11 31 20 != 0 || recBits r 13 31 20 != 0
    || (!d && recP r != 0)

/-- The first record check that fails (R107); `tag` says that the authentication tag, where there is one, is good. -/
def recordRefusal (r k : List Word) (tag : Bool) : Option Nat :=
  let d := hdrD k
  if recNwg r = 0 then some 10
  else if !d ∧ (recGang r = 0 ∨ 32 < recGang r) then some 11
  else if recReserved r d then some 12
  else if d ∧ (recP r = 0 ∨ 4 < recP r ∨ recNwg r ≠ 512 * recP r) then some 13
  else if d ∧ !fitEmpty k (recP r) then some 14
  else if recAddr r 10 % 4 ≠ 0 then some 15
  else if !tag then some 16
  else none

/-! Room (R17, R109). -/

/-- The quarters in use on a core: of placed workgroups, those reserved for trap kernels, and those reserved for the gang being placed. -/
def quartersUsed (s : State) (keep : Wg → Bool) (core : Nat) : List Nat :=
  ((s.wgs.filter (fun g => g.status == 0 && g.core == core && keep g)).flatMap (fun g => g.quarters)
    ++ s.launches.filterMap (fun l => match l.trapCore with
      | some t => if l.stage = 4 ∧ t / 4 = core then some (t % 4) else none
      | none => none)).dedup

/-- The workgroups of a gang under placement that stand on a core. -/
def reservedOn (s : State) (core : Nat) : List Nat :=
  (List.range s.launches.length).flatMap (fun l => match (launchAt s l).placing with
    | some p => ((p.1.take p.2.1).filter (fun x => x.2 == core)).map (fun _ => l)
    | none => [])

/-- A core's use of one resource: by its placed workgroups and reservations. -/
def useOf (s : State) (keep : Wg → Bool) (core : Nat) (f : List Word → Nat) : Nat :=
  (s.wgs.filter (fun g => g.status == 0 && g.core == core && g.level != 2 && keep g)).foldl (fun n g => n + f (launchAt s g.launch).khw) 0
    + (reservedOn s core).foldl (fun n l => n + f (launchAt s l).khw) 0

/-- Whether a core has room for `n` more workgroups of a kernel. -/
def hasRoom (s : State) (keep : Wg → Bool) (core : Nat) (k : List Word) (n : Nat) : Bool :=
  decide ((quartersUsed s keep core).length + (reservedOn s core).foldl (fun m l => m + hdrSquads (launchAt s l).khw) 0 + n * hdrSquads k ≤ 4)
    && [1, 2, 3, 4].all (fun spc => decide (useOf s keep core (fun h => hdrGranules h spc) + n * hdrGranules k spc ≤ coreGranules spc))
    && decide (useOf s keep core hdrTags + n * hdrTags k ≤ coreTags)

/-- Assigns gang members in order, each to the lowest core of a section with room, counting the assignments before it (R109). -/
def assignEach (s : State) (keep : Wg → Bool) (k : List Word) (cores : List Nat) : List Nat → List (Nat × Nat) → Option (List (Nat × Nat))
  | [], acc => some acc
  | w :: ws, acc =>
    match cores.find? (fun c => hasRoom s keep c k ((acc.filter (fun a => a.2 == c)).length + 1)) with
    | some c => assignEach s keep k cores ws (acc ++ [(w, c)])
    | none => none

/-- Whether a cluster hosts a cluster-aligned gang. -/
def hostsAligned (s : State) (keep : Wg → Bool) (cluster : Nat) : Bool :=
  s.wgs.any (fun g => g.status == 0 && g.aligned && g.core / 4 == cluster && g.level != 2 && keep g)

/-- Assigns the members of a gang in section `sec` (R99, R109). -/
def assignGang (s : State) (keep : Wg → Bool) (k : List Word) (aligned : Bool) (g : Nat × Nat) (members : List Nat) (sec : Nat) :
    Option (List (Nat × Nat)) :=
  if aligned then
    let clusters := ((List.range 8).map (fun i => sec * 8 + i)).filter (fun c =>
      !hostsAligned s keep c && (List.range 4).all (fun i => hasRoom s keep (c * 4 + i) k 1))
    if g.2 ≤ 4 * clusters.length then some (members.map (fun w => (w, clusters.getD ((w - g.1) / 4) 0 * 4 + (w - g.1) % 4)))
    else none
  else assignEach s keep k ((List.range 32).map (fun i => sec * 32 + i)) members []

/-- The lowest quarter of the device that stays free beside a gang's own (R337). -/
def freeQuarter (s : State) (keep : Wg → Bool) (k : List Word) (plan : List (Nat × Nat)) : Option Nat :=
  (List.range 512).findSome? (fun core =>
    let n := (plan.filter (fun a => a.2 == core)).length * hdrSquads k
    (((List.range 4).filter (fun q => !(quartersUsed s keep core).contains q)).drop n).head?.map (fun q => core * 4 + q))

/-! Workgroups as they start (R112, R179, R228). -/

/-- The lowest free units of a resource. -/
def lowestFree (total : Nat) (used : List Nat) (n : Nat) : List Nat := ((List.range total).filter (fun x => !used.contains x)).take n

/-- The physical granules of a core in use, for a typed buffer. -/
def granulesUsed (s : State) (core spc : Nat) : List Nat :=
  (s.wgs.filter (fun g => g.status == 0 && g.core == core)).flatMap (fun g => (g.granules.filter (fun x => x.1 == spc)).map (fun x => x.2))

/-- The granules a workgroup of a kernel is given on a core, by space; which of the free ones is the model's choice (log entry 13). -/
def takeGranules (s : State) (core : Nat) (k : List Word) : List (Nat × Nat) :=
  [1, 2, 3, 4].flatMap (fun spc => (lowestFree (coreGranules spc) (granulesUsed s core spc) (hdrGranules k spc)).map (fun n => (spc, n)))

/-- The key of a physical granule of a core. -/
def granuleKey (core : Nat) (x : Nat × Nat) : Nat := core * 512 + x.1 * 64 + x.2

/-- The granules, by space × 64 + number in the allocation, that another context used last: they read as zero (R179). -/
def zeroGranules (s : State) (core ctx : Nat) (gs : List (Nat × Nat)) : List Nat :=
  [1, 2, 3, 4].flatMap (fun spc => ((gs.filter (fun x => x.1 == spc)).zipIdx).filterMap (fun x =>
    match Map.find s.granuleCtx (granuleKey core x.1) with
    | some c => if c ≠ ctx then some (spc * 64 + x.2) else none
    | none => none))

/-- A squad of a kernel at its entry. -/
def startSquad (image : Nat) (k : List Word) (q : Nat) : Squad :=
  Squad.start (hdrRole k q) (hdrAlloc k q) (hdrBlocks k q) (BitVec.ofNat 52 (image + 4 * hdrEntry k q)) (fun _ => BitVec.allOnes 32)

/-- WORKGROUP_ENTRY (R228): a workgroup starts on a core with fresh state; the core's L1 data lines go. -/
def startWg (s : State) (l core id persist gang size : Nat) (aligned : Bool) (level : Nat) (trapOf : Option Nat) (quarter : Option Nat) : State :=
  let x := launchAt s l
  let k := x.khw
  let gs := takeGranules s core k
  let d := draw s
  let s := d.2
  let g : Wg :=
    { blankWg with
      id := id, launch := l, ctx := x.ctx, level := level, core := core, persist := persist, gang := gang, gangSize := size, aligned := aligned
      status := 0
      quarters := match quarter with
        | some q => [q]
        | none => lowestFree 4 (quartersUsed s (fun _ => true) core) (hdrSquads k)
      squads := (List.range (hdrSquads k)).map (startSquad (recImage x.rec_) k)
      zeroGr := zeroGranules s core x.ctx gs, granules := gs, seed := d.1, placedAt := s.placements, trapOf := trapOf }
  l1Invalidate { s with
    wgs := s.wgs ++ [g], placements := s.placements + 1
    granuleCtx := gs.foldl (fun m y => Map.put m (granuleKey core y) x.ctx) s.granuleCtx } core

/-- The index of a workgroup of a launch that is placed or adjourned. -/
def wgOf (s : State) (l id : Nat) : Option Nat :=
  (List.range s.wgs.length).find? (fun w => (wgAt s w).launch == l && (wgAt s w).id == id && (wgAt s w).status < 2 && (wgAt s w).trapOf.isNone)

/-- Clears the cluster barriers and bindings of a cluster (R99). -/
def clearCluster (s : State) (cluster : Nat) : State :=
  { s with xb := s.xb.filter (fun x => x.1 / 8 != cluster), xc := s.xc.filter (fun x => x.1 / 4 != cluster) }

/-- Restores a cluster's barriers and bindings (R99, R344). -/
def restoreCluster (s : State) (cluster : Nat) (v : ClusterSt) : State :=
  let s := clearCluster s cluster
  { s with
    xb := v.xb.foldl (fun m x => Map.put m (cluster * 8 + x.1) x.2) s.xb
    xc := v.xc.foldl (fun m x => Map.put m (cluster * 4 + x.1) x.2) s.xc }

/-- The lowest workgroup id of the four of a cluster-aligned gang that stand in one cluster. -/
def clusterKey (gang id : Nat) : Nat := gang + (id - gang) / 4 * 4

/-- The state of a cluster that four members of a cluster-aligned gang are committed to (R99): that of the four's adjournment, or the reset state. -/
def commitCluster (s : State) (l : Nat) (x : Nat × Nat) : State :=
  match Map.find (launchAt s l).clusters x.1 with
  | some v => modLaunch (restoreCluster s x.2 v) l (fun y => { y with clusters := Map.del y.clusters x.1 })
  | none => clearCluster s x.2

/-- Commits one workgroup of a gang: a new one starts, an adjourned one takes its place and waits for its restore (R343). -/
def commitWgAt (s : State) (l gang size : Nat) (aligned : Bool) (persist : Nat → Nat) (a : Nat × Nat) : State :=
  match wgOf s l a.1 with
  | some w =>
    let x := launchAt s l
    let gs := takeGranules s a.2 x.khw
    let qs := lowestFree 4 (quartersUsed s (fun _ => true) a.2) (hdrSquads x.khw)
    let s := modWg s w (fun g => { g with status := 0, core := a.2, quarters := qs, granules := gs, leaving := some 2 })
    { s with granuleCtx := gs.foldl (fun m y => Map.put m (granuleKey a.2 y) x.ctx) s.granuleCtx }
  | none => startWg s l a.2 a.1 (persist a.1) gang size aligned 0 none none

/-- Commits the members of a gang, and the clusters of a cluster-aligned one. Its cluster state goes with the four, also when member 4k, whose record
bears it, has retired before the others were adjourned: the spec does not say what holds then (DESIGN CHOICE, log entry 67). -/
def commitMembers (s : State) (l gang size : Nat) (aligned : Bool) (persist : Nat → Nat) (a : List (Nat × Nat)) : State :=
  let s := if aligned then ((a.map (fun m => (clusterKey gang m.1, m.2 / 4))).dedup).foldl (fun s x => commitCluster s l x) s else s
  a.foldl (fun s m => commitWgAt s l gang size aligned persist m) s

end Sys2Proof.Machine
end

