-- ==== Sys2Proof/Machine/LaunchEvents.lean ====
section
/-! DEFINITION. The events of launches: queues, selection, admission, placement, retirement, completion, pre-emption, trap kernels, the watchdog and
page requests, and the routing of fault records (R20, R101 to R111, R191, R336 to R346, R378). -/

namespace Sys2Proof.Machine

/-! Queues (R105, R374, R378). -/

def setQueue (s : State) (q : Nat) (x : Queue) : State := { s with queues := Map.put s.queues q x }
/-- Sets `DSTAT.PERR` (R377). -/
def setPerr (s : State) : State := { s with plat := { s.plat with perr := true } }

/-- QTAIL_WRITE. -/
def execQtailWrite (s : State) : Host.Outcome State Fault Refusal :=
  .next (match s.arg with
    | .value q v =>
      let x := queueOf s q
      let t : BitVec 16 := v.truncate 16
      if 64 ≤ q ∨ x.cfg.getLsbD 29 then s
      else if queueSlots x < (t - x.head).toNat then setPerr s
      else setQueue s q { x with tail := t }
    | _ => s)

/-- Lanes of `launch` that wait for a slot enqueue their records while there is room, in ascending squad and lane order; one that is parked in that wait does
so when it is resumed (R339, `settleWaitingSlots`). -/
def settleSlots (s : State) (q : Nat) : State :=
  (List.range s.wgs.length).foldl (fun s w =>
    (List.range (wgAt s w).squads.length).foldl (fun s i =>
      ((sqAt s w i).waiters).foldl (fun s x => match x.why with
        | .slot k d ws =>
          if k = q ∧ !queueFull s q then
            let s := modSq (enqueue s q ws) w i (fun sq => vset sq x.lb d.toNat x.mask (fun _ => signalOf ws))
            endWaits s w i (fun y => y == x)
          else s
        | _ => s) s) s) s

/-- Tests the waits for slots again, those that were parked in it and are resumed among them (R105, R339). -/
def settleWaitingSlots (s : State) : State :=
  let waits := s.wgs.flatMap (fun g => g.squads.flatMap (fun q => q.waiters.filterMap (fun x => match x.why with
    | .slot k _ _ => some k
    | _ => none)))
  waits.dedup.foldl settleSlots s

/-- Whether the launch unit may take a queue's next record (R108): the one before it is admitted. Nothing is taken before `RDY` (R365, R381). -/
def queueEligible (s : State) (q : Nat) : Bool :=
  let x := queueOf s q
  s.plat.rdy && x.cfg.getLsbD 31 && decide (0 < queueHolds x) && !(ctxAt s (bitsOf x.cfg.toNat 15 0)).away && (match x.last with
    | some l => decide (4 ≤ (launchAt s l).stage)
    | none => true)

/-- The slot of a queue's next record. -/
def nextSlot (s : State) (q : Nat) : Nat := (queueOf s q).base + slotBytes (queueOf s q) * ((queueOf s q).head.toNat % queueSlots (queueOf s q))

/-- The queue whose record is taken next (R108): highest priority, round-robin among equals. -/
def nextQueue (s : State) : Option Nat :=
  firstBy (fun q => [7 - recPri (physWords s (nextSlot s q) 16).2, (q + 63 - s.lastQueue) % 64]) ((List.range 64).filter (queueEligible s))

/-- Whether the authentication tag of a confidential record is good (R374). The nonce and the tag are taken with their highest byte first (log entry 70). -/
def tagGood (s : State) (q : Nat) (r tag : List Word) : Bool :=
  let x := queueOf s q
  !x.cfg.getLsbD 30 || (match (ctxAt s (bitsOf x.cfg.toNat 15 0)).launchKey with
    | some k => gcmTag k (BitVec.ofNat 96 (q * 2 ^ 90 + x.qseq.toNat)) (r.flatMap bytesOfWord)
        == BitVec.ofNat 128 (leNat (tag.flatMap bytesOfWord).reverse)
    | none => false)

/-- Appends a launch read from a queue, and moves the queue on. -/
def takeRecordOf (s : State) (q : Nat) (r k : List Word) (refused : Option Nat) : State :=
  let x := queueOf s q
  let l : Launch := { blankLaunch with
    ctx := bitsOf x.cfg.toNat 15 0, queue := q, slot := x.head.toNat % queueSlots x, rec_ := r, khw := k, refused := refused, stage := 3 }
  settleSlots { s with
    launches := s.launches ++ [l], lastQueue := q
    queues := Map.put s.queues q { x with head := x.head + 1, qseq := x.qseq + bit (x.cfg.getLsbD 30), last := some s.launches.length } } q

/-- Whether a fault may be resolved by firmware: an absent page. -/
def pageAbsent (e : Nat × Nat) : Bool := e == (0x10, 1)

/-- LAUNCH_RECORD_SELECTION: the launch unit reads the next record and its kernel header and checks them (R28, R107). While the header's page
is absent, firmware may still bring it in, and the record is not taken yet. The spec does not say what nonzero bytes among the 48 reserved ones of a
confidential slot do (R374): they are ignored (DESIGN CHOICE, log entry 70). -/
def execLaunchRecordSelection (s : State) : Host.Outcome State Fault Refusal :=
  .next (match nextQueue s with
    | none => s
    | some q =>
      let r := physWords s (nextSlot s q) 16
      let tag := physWords r.1 (nextSlot s q + 64) 4
      let ctx := bitsOf (queueOf s q).cfg.toNat 15 0
      if (Map.find s.ctxs ctx).isNone ∨ recImage r.2 % 128 ≠ 0 then takeRecordOf r.1 q r.2 [] (some 1)
      else
        match contextWords r.1 ctx (recImage r.2) 128 8 with
        | (s, .error e) =>
          let d := draw s
          if pageAbsent e ∧ Config.freeChoice d.1 then d.2 else takeRecordOf d.2 q r.2 [] (some 1)
        | (s, .ok k) =>
          let bad := match headerRefusal k with
            | some n => some n
            | none => recordRefusal r.2 k (tagGood s q r.2 tag.2)
          takeRecordOf s q r.2 k bad)

/-- Whether the wait events of a launch have reached their thresholds (R103, R106). -/
def waitsMet (s : State) (l : Launch) : Bool :=
  (!(wordAt l.rec_ 6).getLsbD 12 || reached (eventValue s l.ctx (recBits l.rec_ 6 11 0)) (wordAt l.rec_ 7))
    && (!(wordAt l.rec_ 6).getLsbD 28 || reached (eventValue s l.ctx (recBits l.rec_ 6 27 16)) (wordAt l.rec_ 8))

/-- Whether a launch is held at stage 3 with nothing left to wait for; none is admitted before the first synchronisation of `TCLK` (R365). -/
def admissible (s : State) (l : Nat) : Bool :=
  s.plat.tsy && decide (l < s.launches.length) && (launchAt s l).stage == 3 && waitsMet s (launchAt s l)

/-- The order of launches admitted in one cycle (R108): `PRI`, then queue number. -/
def admissionKey (s : State) (l : Nat) : List Nat := [7 - recPri (launchAt s l).rec_, (launchAt s l).queue, l]

/-- LAUNCH_ADMISSION: a held launch whose waits are met, the first of those in order, takes a launch id and its place in the admission order. -/
def execLaunchAdmission (s : State) : Host.Outcome State Fault Refusal :=
  .next (match s.arg with
    | .ids l _ _ =>
      let x := launchAt s l
      if firstBy (admissionKey s) ((List.range s.launches.length).filter (admissible s)) = some l then
        let id := (ctxAt s x.ctx).lid
        let s := modLaunch s l (fun y => { y with stage := 4, lid := id, order := s.admitted, lastIssue := s.plat.tclk.toNat })
        modCtx { s with admitted := s.admitted + 1 } x.ctx (fun c => { c with lid := (id + 1) % 65536 })
      else s
    | _ => s)

/-! The distributor (R109, R110). -/

/-- Whether a launch may enter stage 4 (R108): it overlaps, or the one before it in its queue is complete. -/
def mayPlace (s : State) (l : Nat) : Bool :=
  let x := launchAt s l
  (wordAt x.rec_ 3).getLsbD 15
    || (match ((List.range l).filter (fun i => (launchAt s i).queue == x.queue && (launchAt s i).stage != 9)).getLast? with
      | some i => (launchAt s i).stage == 8
      | none => true)

/-- Whether a pre-empted gang may be placed again: all its members are off their cores. -/
def gangBack (s : State) (l : Nat) (g : Nat × Nat) : Bool :=
  !s.wgs.any (fun x => x.launch == l && x.gang == g.1 && x.status == 0 && x.trapOf.isNone)

/-- The members of a gang that have not retired. -/
def gangMembers (s : State) (l : Nat) (g : Nat × Nat) : List Nat :=
  ((List.range g.2).map (fun i => g.1 + i)).filter (fun w => !(launchAt s l).retired.contains w)

/-- The next gang of a launch: a pre-empted one that is back, or the next workgroups in order; a D launch is one gang. -/
def nextGang (s : State) (l : Nat) : Option (Nat × Nat) :=
  let x := launchAt s l
  match x.again.find? (fun g => gangBack s l g && !(gangMembers s l g).isEmpty) with
  | some g => some g
  | none =>
    if recNwg x.rec_ ≤ x.next then none
    else some (x.next, if hdrD x.khw then recNwg x.rec_ else min (recGang x.rec_) (recNwg x.rec_ - x.next))

/-- The launch the distributor works on: the admitted one of highest `PRI` that has workgroups to place, the earliest admitted of those. -/
def distributing (s : State) : Option Nat :=
  firstBy (fun l => [7 - recPri (launchAt s l).rec_, (launchAt s l).order])
    ((List.range s.launches.length).filter (fun l =>
      (launchAt s l).stage == 4 && (launchAt s l).refused.isNone && mayPlace s l && !(ctxAt s (launchAt s l).ctx).away
        && ((launchAt s l).placing.isSome || (nextGang s l).isSome)))

/-- Whether a gang is cluster-aligned (R99). -/
def isAligned (x : Launch) (size : Nat) : Bool := if hdrD x.khw then recP x.rec_ == 1 else size % 4 == 0

/-- Whether a first gang must also find a quarter for its trap kernel (R337): not when a D launch takes every quarter. -/
def needsTrapQuarter (x : Launch) : Bool :=
  recTrap x.rec_ != 0 && x.trapCore.isNone && !(hdrD x.khw && recP x.rec_ * hdrSquads x.khw == 4)

/-- The plan for a gang: its cores, in the first section with room from `next_section` on. -/
def planGang (s : State) (keep : Wg → Bool) (l : Nat) (g : Nat × Nat) : Option (List (Nat × Nat)) :=
  let x := launchAt s l
  (List.range 16).findSome? (fun i =>
    let sec := (x.nextSection + i) % 16
    match assignGang s keep x.khw (isAligned x g.2) g (gangMembers s l g) sec with
    | some a => if needsTrapQuarter x ∧ (freeQuarter s keep x.khw a).isNone then none else some a
    | none => none)

/-- The plan for a D launch (R110): workgroup w on core w mod 512. -/
def planD (s : State) (keep : Wg → Bool) (l : Nat) (g : Nat × Nat) : Option (List (Nat × Nat)) :=
  let x := launchAt s l
  let a := (gangMembers s l g).map (fun w => (w, w % 512))
  if (List.range 512).all (fun c => hasRoom s keep c x.khw ((a.filter (fun y => y.2 == c)).length) && !(isAligned x g.2 && hostsAligned s keep (c / 4)))
    && !(needsTrapQuarter x && (freeQuarter s keep x.khw a).isNone) then some a else none

/-- GANG_RESERVATION: the next workgroup of the gang under placement is reserved, or a new gang begins; a launch of higher `PRI` admitted
since the gang began releases all of it. -/
def execGangReservation (s : State) : Host.Outcome State Fault Refusal :=
  .next (match (List.range s.launches.length).find? (fun l => (launchAt s l).placing.isSome) with
    | some l =>
      match (launchAt s l).placing with
      | some (a, n, since) =>
        if a.length ≤ n then s
        else
          let x := launchAt s l
          let higher := s.launches.any (fun y => y.stage == 4 && y.refused.isNone && decide (recPri x.rec_ < recPri y.rec_) && decide (since ≤ y.order))
          modLaunch s l (fun y => { y with placing := if higher then none else some (a, n + 1, since) })
      | none => s
    | none =>
      match distributing s with
      | none => s
      | some l =>
        if s.plat.low ∨ hdrD (launchAt s l).khw then s
        else
          match nextGang s l with
          | none => s
          | some g =>
            match planGang s (fun _ => true) l g with
            | none => s
            | some a => modLaunch s l (fun y => { y with placing := some (a, 1, s.admitted) }))

/-- The record of a launch's trap kernel and its header, when both are good (R337). -/
def trapRecord (s : State) (l : Nat) : State × Option (List Word × List Word) :=
  let x := launchAt s l
  match contextWords s x.ctx (recTrap x.rec_) 64 16 with
  | (s, .error _) => (s, none)
  | (s, .ok t) =>
    let bad := recBits t 1 31 20 != 0 || recBits t 3 31 20 != 0 || recAddr t 2 % 64 != 0 || recBits t 4 31 4 != 0 || decide (9 ≤ recBits t 4 3 0)
      || (List.range 11).any (fun k => wordAt t (5 + k) != 0) || recAddr t 0 % 128 != 0
    if bad then (s, none)
    else
      match contextWords s x.ctx (recAddr t 0) 128 8 with
      | (s, .error _) => (s, none)
      | (s, .ok k) =>
        let ok := (headerRefusal k).isNone && hdrSquads k == 1 && decide (hdrBlocks k 0 ≤ 4) && [1, 2, 3, 4].all (fun spc => hdrGranules k spc == 0)
        (s, if ok then some (t, k) else none)

/-- Reserves the quarter of a trap kernel and reads its record, when a launch's first gang is placed. -/
def reserveTrap (s : State) (l : Nat) : State :=
  let x := launchAt s l
  if needsTrapQuarter x then
    let r := trapRecord s l
    modLaunch r.1 l (fun y => { y with
      trapCore := freeQuarter r.1 (fun _ => true) x.khw [], trap := r.2.map (fun t => t.1 ++ t.2) })
  else s

/-- Commits a gang: every member enters stage 5 together. -/
def commitGang (s : State) (l : Nat) (a : List (Nat × Nat)) : State :=
  let x := launchAt s l
  let first := (x.again.find? (fun g => a.any (fun y => decide (g.1 ≤ y.1) && decide (y.1 < g.1 + g.2))))
  let g := first.getD (x.next, a.length)
  let p := fun (w : Nat) => if hdrD x.khw then w / 512 else 0
  let s := modLaunch s l (fun y => { y with
    placing := none
    again := y.again.filter (fun h => some h != first)
    next := if first.isSome then y.next else y.next + a.length })
  reserveTrap (commitMembers s l g.1 g.2 (isAligned x g.2) p a) l

/-- GANG_COMMIT: a gang whose members are all reserved is committed. -/
def execGangCommit (s : State) : Host.Outcome State Fault Refusal :=
  .next (match (List.range s.launches.length).find? (fun l => (launchAt s l).placing.isSome) with
    | some l =>
      match (launchAt s l).placing with
      | some (a, n, _) =>
        if a.length ≤ n ∧ !s.plat.low then
          let s := modLaunch s l (fun y => { y with nextSection := (((a.head?.map (fun m => m.2)).getD 0) / 32 + 1) % 16 })
          commitGang s l a
        else s
      | none => s
    | none => s)

/-- D_LAUNCH_PLACEMENT: a D launch is placed whole, once every core has room. -/
def execDLaunchPlacement (s : State) : Host.Outcome State Fault Refusal :=
  .next (if s.launches.any (fun x => x.placing.isSome) ∨ s.plat.low then s
    else
      match distributing s with
      | none => s
      | some l =>
        if !hdrD (launchAt s l).khw then s
        else
          match nextGang s l with
          | none => s
          | some g =>
            match planD s (fun _ => true) l g with
            | none => s
            | some a => commitGang s l a)

/-! Retirement and completion (R102, R111, R210, R228, R346). -/

/-- Whether the engine work of a workgroup is finished. -/
def enginesDone (s : State) (w : Nat) : Bool :=
  let g := wgAt s w
  !(coreAt s g.core).xfers.any (fun x => x.2.wg == w) && (matOf s w).isEmpty
    && (List.range 4).all (fun k => (ceAt s g.core k).owner != some w || ceFinished (ceAt s g.core k))
    && !s.pubOps.any (fun p => p.2.wg == w)

/-- Whether a workgroup's stores are performed and acknowledged, and its ordered updates placed (R210, R228). -/
def storesDone (s : State) (w : Nat) : Bool :=
  (wgAt s w).squads.all (fun q => q.stq.isEmpty) && !s.flights.any (fun f => f.2.wg == w)

/-- Whether every write that a workgroup's squads and engines began is performed (R21), its publishes at every core (R277). -/
def writesDone (s : State) (w : Nat) : Bool :=
  storesDone s w && !s.pubOps.any (fun p => p.2.wg == w) && !(coreAt s (wgAt s w).core).xfers.any (fun x => x.2.wg == w)
    && (List.range 4).all (fun k => (ceAt s (wgAt s w).core k).owner != some w
        || ((ceAt s (wgAt s w).core k).moves.isEmpty && (ceAt s (wgAt s w).core k).pubWait.isNone))

/-- Whether a workgroup may retire. -/
def mayRetire (s : State) (w : Nat) : Bool :=
  let g := wgAt s w
  decide (w < s.wgs.length) && (g.status == 0 || (g.status == 1 && g.killed)) && g.level < 2
    && g.squads.all (fun q => (List.range q.nlb).all (fun b => q.retired.contains b))
    && !anyParked g && g.arrivals.isEmpty && enginesDone s w && storesDone s w

/-- Frees what a workgroup holds: its quarters, granules, tags, barriers and rings, and its copy-engine contexts. -/
def freeWg (s : State) (w : Nat) : State :=
  let core := (wgAt s w).core
  let s := (List.range 4).foldl (fun s k => if (ceAt s core k).owner = some w then modCe s core k (fun _ => CeCtx.free) else s) s
  modWg s w (fun g => { g with status := 2, quarters := [], granules := [], tags := 0, bars := [], rings := [], leaving := none, saved := Saved.none })

/-- WORKGROUP_RETIREMENT: its resources are freed, an unpassed ticket is forfeited, and the watermark may rise. -/
def execWorkgroupRetirement (s : State) : Host.Outcome State Fault Refusal :=
  .next (match s.arg with
    | .ids w _ _ =>
      if !mayRetire s w then s
      else
        let g := wgAt s w
        let s := freeWg s w
        if g.trapOf.isSome then s
        else
          let s := modLaunch s g.launch (fun l => { l with
            retired := l.retired ++ [g.id]
            forfeits := if recAddr l.rec_ 10 ≠ 0 ∧ !g.passed then l.forfeits ++ [g.id] else l.forfeits })
          s
    | _ => s)

/-- The location of a launch's ticket word. -/
def launchTicket (s : State) (l : Nat) : State × Option Nat :=
  match access s unitView (launchAt s l).ctx false (BitVec.ofNat 64 (recAddr (launchAt s l).rec_ 10)) .atomic with
  | (s, .ok a) => (s, match a.loc with
    | .local x => some x
    | _ => none)
  | (s, .error _) => (s, none)

/-- TICKET_FORFEIT_PASS: the distributor passes a forfeited ticket once the word reaches it. -/
def execTicketForfeitPass (s : State) : Host.Outcome State Fault Refusal :=
  .next (match s.arg with
    | .ids l _ _ =>
      match launchTicket s l with
      | (s, none) => s
      | (s, some a) =>
        match (launchAt s l).forfeits.find? (fun i => memWord s a == BitVec.ofNat 32 i) with
        | none => s
        | some i =>
          modLaunch (incrementWord s a) l (fun x => { x with
            forfeits := x.forfeits.erase i, ffcnt := x.ffcnt + 1, ffwg := if x.ffcnt = 0 then i else min x.ffwg i })
    | _ => s)

/-- Whether a launch may complete (R20, R29, R210). -/
def mayComplete (s : State) (l : Nat) : Bool :=
  let x := launchAt s l
  decide (l < s.launches.length) && x.stage == 4
    && (x.refused.isSome
      || (x.retired.length == recNwg x.rec_ && x.forfeits.isEmpty && (updateLines s l).isEmpty
        && (match x.trapWg with
          | some w => writesDone s w
          | none => true)))

/-- The completion record (R346). -/
def completionRecord (x : Launch) (tclk : BitVec 64) : List Word :=
  let cst := if x.refused.isSome then 2 else if 0 < x.killed then 3 else 1
  let e : BitVec 64 := BitVec.ofNat 64 (if x.refused.isSome then 0 else x.energy)
  [packWord [(cst, 24), (x.refused.getD 0, 16), (x.lid, 0)], BitVec.ofNat 32 x.ffcnt, BitVec.ofNat 32 x.ffwg, BitVec.ofNat 32 x.killed,
   e.truncate 32, (e >>> 32).truncate 32, tclk.truncate 32, (tclk >>> 32).truncate 32]

/-- Adds a launch's energy into its slot of the context's energy table (R368). -/
def addEnergy (s : State) (x : Launch) : State :=
  let enb := recAddr (ctxAt s x.ctx).words 7
  if enb = 0 then s
  else
    let a := enb + 8 * recBits x.rec_ 9 11 0
    let e := if x.refused.isSome then 0 else x.energy
    testTickets (physWrite s a (leBytes 8 ((physRead s a 8).getD 0 + e)))

/-- LAUNCH_COMPLETION: the record, then the energy, then the signal event; the trap kernel's reservation ends. -/
def execLaunchCompletion (s : State) : Host.Outcome State Fault Refusal :=
  .next (match s.arg with
    | .ids l _ _ =>
      if !mayComplete s l then s
      else
        let x := launchAt s l
        let q := queueOf s x.queue
        let s := testTickets (physWrite s (q.comp + 32 * x.slot) ((completionRecord x s.plat.tclk).flatMap bytesOfWord))
        let s := addEnergy s x
        let s := if (wordAt x.rec_ 9).getLsbD 28 then
            setEvent s x.ctx (recBits x.rec_ 9 27 16) (eventValue s x.ctx (recBits x.rec_ 9 27 16) + 1)
          else s
        let s := match x.trapWg with
          | some w => if (wgAt s w).status < 2 then
              freeWg (modWg (discardMat (endCes s w 6) w) w (fun g => { g with squads := g.squads.map emptySquad })) w else s
          | none => s
        let s := settleSlots (modLaunch s l (fun y => { y with stage := 8, trapCore := none })) x.queue
        if q.cfg.getLsbD 28 then { setQueue s x.queue { queueOf s x.queue with irq := true } with out := s.out ++ [.interrupt] } else s
    | _ => s)

/-! Pre-emption (R341 to R345). -/

/-- The treatments of R343. -/
inductive Treatment where
  | flush
  | drain
  | adjourn
  deriving DecidableEq, Repr

/-- The drain limit of a context in nanoseconds, at most 50 µs on a context switch (R342, R345, R380). -/
def drainLimit (s : State) (ctx : Nat) (switch : Bool) : Nat :=
  let d := recBits (ctxAt s ctx).words 14 31 16
  let us := if d = 0 then 50 else d
  1000 * (if switch then min us 50 else us)

/-- The issues of a workgroup in the last 10 µs (R342). -/
def recentIssues (s : State) (g : Wg) : Nat := (g.issueLog.filter (fun t => decide (s.plat.tclk.toNat < t + Config.rateWindow))).length

/-- The decision of R342 for one workgroup: with n issues in 10 µs, the rate r is n / 10 µs. -/
def decide_ (s : State) (limit : Nat) (w : Nat) : Treatment :=
  let g := wgAt s w
  let k := (launchAt s g.launch).khw
  let e := (wordAt k 7).toNat * 1024
  let n := recentIssues s g
  if anyParked g then .adjourn
  else if e = 0 then .adjourn
  else if (wordAt k 0).getLsbD 21 ∧ !g.committed ∧ g.issues < e / 4 then .flush
  else if 0 < n ∧ (e - g.issues) * Config.rateWindow ≤ limit * n then .drain
  else .adjourn

/-- The decisions for the members of a gang; those of a cluster-aligned gang are taken as a whole. -/
def decideGang (s : State) (limit : Nat) (ws : List Nat) (aligned : Bool) : List (Nat × Treatment) :=
  let r := ws.map (fun w => (w, decide_ s limit w))
  if aligned then
    let t : Treatment := if r.all (fun x => x.2 == .flush) then .flush else if r.all (fun x => x.2 != .adjourn) then .drain else .adjourn
    ws.map (fun w => (w, t))
  else r

/-- FLUSH (R343): threads are killed without records, queued matrix operations discarded, copy-engine contexts stopped; the slot is free once its stores,
transfer operations and requested lines are done. -/
def flushWg (s : State) (w : Nat) : State :=
  let s := abandonXfers (discardMat (endCes s w 5) w) w
  let s := { s with devOps := s.devOps.filter (fun p => p.2.wg != w) }
  modWg s w (fun g => { g with squads := g.squads.map emptySquad, arrivals := [], discard := [], saved := Saved.none, leaving := some 3 })

/-- Frees the flushed workgroups whose stores and engine work are done. A flushed trap kernel stays marked: it is placed again whether or not its queue holds
a record (`execTrapKernelStart`). -/
def settleFlushes (s : State) : State :=
  (List.range s.wgs.length).foldl (fun s w =>
    if (wgAt s w).status = 0 ∧ (wgAt s w).leaving = some 3 ∧ enginesDone s w ∧ storesDone s w then
      modWg (freeWg s w) w (fun g => { g with leaving := if g.trapOf.isSome then some 3 else none })
    else s) s

/-- Applies a treatment. A workgroup that is committed again and not restored has nothing to drain: it is adjourned again. -/
def treat (s : State) (limit : Nat) (x : Nat × Treatment) : State :=
  match x.2 with
  | .flush => flushWg s x.1
  | .drain => modWg s x.1 (fun g =>
      if g.leaving = some 2 then { g with leaving := some 1 } else { g with leaving := some 0, leaveBy := s.plat.tclk.toNat + 2 * limit })
  | .adjourn => modWg s x.1 (fun g => { g with leaving := some 1 })

/-- Whether a workgroup is placed and no pre-emption of it is under way. -/
def Wg.stays (g : Wg) : Bool := g.status == 0 && (g.leaving.isNone || g.leaving == some 2)

/-- The committed gangs that may be pre-empted: launch, first id, size. -/
def committedGangs (s : State) (keep : Wg → Bool) : List (Nat × Nat × Nat) :=
  ((s.wgs.filter (fun g => g.stays && g.level == 0 && keep g)).map (fun g => (g.launch, g.gang, g.gangSize))).dedup

/-- Pre-empts a gang: its members are treated together and return together. -/
def preemptGang (s : State) (switch : Bool) (x : Nat × Nat × Nat) : State :=
  let ws := (List.range s.wgs.length).filter (fun w =>
    (wgAt s w).launch == x.1 && (wgAt s w).gang == x.2.1 && (wgAt s w).stays && (wgAt s w).level == 0)
  let aligned := ws.any (fun w => (wgAt s w).aligned)
  let limit := drainLimit s (launchAt s x.1).ctx switch
  let s := (decideGang s limit ws aligned).foldl (fun s y => treat s limit y) s
  modLaunch s x.1 (fun l => { l with again := l.again.filter (fun g => g != (x.2.1, x.2.2)) ++ [(x.2.1, x.2.2)] })

/-- PREEMPTION: a launch with `PE` = 1 that finds no room, even with the gangs already leaving, pre-empts one gang of lower `PRI`: the lowest,
and among those the latest admitted. -/
def execPreemption (s : State) : Host.Outcome State Fault Refusal :=
  .next (if s.launches.any (fun x => x.placing.isSome) ∨ s.plat.low then s
    else
      match distributing s with
      | none => s
      | some l =>
        let x := launchAt s l
        match nextGang s l with
        | none => s
        | some g =>
          let fits := if hdrD x.khw then (planD s Wg.stays l g).isSome else (planGang s Wg.stays l g).isSome
          let cand := (committedGangs s (fun _ => true)).filter (fun y => decide (recPri (launchAt s y.1).rec_ < recPri x.rec_))
          if !(wordAt x.rec_ 3).getLsbD 11 ∨ fits then s
          else
            let d := draw s
            match firstBy (fun y => [recPri (launchAt s y.1).rec_, s.admitted - (launchAt s y.1).order, 0]) cand with
            | none => s
            | some first =>
              -- which of one launch's gangs goes first is not stated
              let same := cand.filter (fun y => y.1 == first.1)
              preemptGang d.2 false (same.getD (Config.freeNumber d.1 % same.length) first))

/-- CONTEXT_SWITCH (R345): every placed workgroup of a context is pre-empted, trap kernels included, and none is placed until the context is switched
back (`j` = 1). A drain under way gets the capped limit. -/
def execContextSwitch (s : State) : Host.Outcome State Fault Refusal :=
  .next (match s.arg with
    | .ids ctx 1 _ => modCtx s ctx (fun c => { c with away := false })
    | .ids ctx _ _ =>
      let limit := drainLimit s ctx true
      let s := modCtx s ctx (fun c => { c with away := true })
      let s := { s with launches := s.launches.map (fun x => if x.ctx = ctx then { x with placing := none } else x) }
      let s := (committedGangs s (fun g => g.ctx == ctx)).foldl (fun s x => preemptGang s true x) s
      (List.range s.wgs.length).foldl (fun s w =>
        let g := wgAt s w
        if g.ctx ≠ ctx ∨ g.status ≠ 0 then s
        else if g.leaving = some 0 then modWg s w (fun g => { g with leaveBy := min g.leaveBy (s.plat.tclk.toNat + 2 * limit) })
        else if g.trapOf.isSome ∧ g.leaving.isNone then treat s limit (w, decide_ s limit w)
        else s) s
    | _ => s)

/-- DRAIN_TIMEOUT: a draining workgroup that has not retired by twice the drain limit is adjourned after all; a cluster-aligned gang as a whole (R342). -/
def execDrainTimeout (s : State) : Host.Outcome State Fault Refusal :=
  .next (match s.arg with
    | .ids w _ _ =>
      let x := wgAt s w
      if x.leaving = some 0 ∧ x.status = 0 ∧ x.leaveBy ≤ s.plat.tclk.toNat then
        { s with wgs := s.wgs.zipIdx.map (fun p =>
            let g := p.1
            let mine := p.2 == w || (x.aligned && g.launch == x.launch && g.gang == x.gang && g.level == 0)
            if mine ∧ g.leaving = some 0 ∧ g.status = 0 then { g with leaving := some 1 } else g) }
      else s
    | _ => s)

/-- Whether what an adjournment waits for is done (R343). -/
def mayAdjourn (s : State) (w : Nat) : Bool :=
  let g := wgAt s w
  decide (w < s.wgs.length) && g.status == 0 && g.leaving == some 1 && g.squads.all (fun q => q.loads.isEmpty && q.checks.isEmpty) && storesDone s w
    && (matOf s w).isEmpty
    && (coreAt s g.core).xfers.all (fun x => x.2.wg != w || (x.2.pieces.isEmpty && (x.2.stopped || !x.2.parkedLanes.isEmpty)))
    && (List.range 4).all (fun k => let c := ceAt s g.core k
                                    c.owner != some w || ((c.moves.isEmpty || c.stuck.isSome) && c.ldi.isEmpty))
    && (!g.aligned || (clusterMembers s g.core).all (fun v => (wgAt s v).arrivals.all (fun a => match a.what with
        | .xbar _ _ => false
        | _ => true)))

/-- The lowest place of a context's save area that no adjourned workgroup's record takes; the spec does not say where each lies (log entry 48). -/
def saveSlot (s : State) (ctx : Nat) : Nat :=
  let used := s.wgs.filterMap (fun g => if g.ctx = ctx then g.saved.slot else none)
  ((List.range (used.length + 1)).find? (fun k => !used.contains k)).getD 0

/-- Writes an adjournment record at a physical address, encrypted: under any other key its lines hold unspecified bytes (R193, R344). -/
def sealRecord (s : State) (pa : Nat) : State :=
  let id := newId s
  let base := bitsOf pa 40 0
  let inside := fun (line : Nat) =>
    let a := localOf (line * 128) (base.testBit 40)
    decide (base ≤ a) && decide (a < base + saveBytes)
  { id.2 with
    sealed := (base, 64 + id.1) :: id.2.sealed.filter (fun x => x.1 != base)
    lineKeys := id.2.lineKeys.filter (fun x => !inside x.1), keyBack := id.2.keyBack.filter (fun x => !inside x.1)
    poison := id.2.poison.filter (fun l => !inside l) }

/-- ADJOURNMENT: the workgroup's state is saved and its slot freed. The cluster state is that at the last adjournment of the four (R99, R344). -/
def execAdjournment (s : State) : Host.Outcome State Fault Refusal :=
  .next (match s.arg with
    | .ids w _ _ =>
      if !mayAdjourn s w then s
      else
        let g := wgAt s w
        let o := coreAt s g.core
        let cl := g.core / 4
        let slot := saveSlot s g.ctx
        let v : Saved :=
          { ces := o.ces.filter (fun c => c.2.owner == some w) ++ g.saved.ces, xfers := o.xfers.filter (fun x => x.2.wg == w) ++ g.saved.xfers
            slot := some slot }
        let c : ClusterSt :=
          { xb := (s.xb.filter (fun x => x.1 / 8 == cl)).map (fun x => (x.1 % 8, x.2))
            xc := (s.xc.filter (fun x => x.1 / 4 == cl)).map (fun x => (x.1 % 4, x.2)) }
        let s := modCore s g.core (fun o => { o with
          ces := o.ces.filter (fun c => c.2.owner != some w), xfers := o.xfers.filter (fun x => x.2.wg != w) })
        let s := if g.aligned then modLaunch s g.launch (fun l => { l with clusters := Map.put l.clusters (clusterKey g.gang g.id) c }) else s
        let s := modWg s w (fun g => { g with status := 1, quarters := [], granules := [], leaving := none, saved := v })
        sealRecord s (recAddr (ctxAt s g.ctx).words 9 + slot * saveBytes)
    | _ => s)

/-- Entries as they are formed anew at a restore (R66). The rule gives their ages and marks and no order of formation: they keep the order they had
(DESIGN CHOICE, log entry 68). -/
def renewEntry (e : Entry) : Entry := { e with age := 0, yielded := false, pwait := 0, notBefore := 0 }

/-- WORKGROUP_RESTORE: a workgroup committed again goes on as after a workgroup entry: its copy-engine contexts take their numbers on the new
core, tags held for it are set, and a resume ordered meanwhile takes effect. An adjourned trap kernel goes back to its quarter. The core has every publish that
the workgroup may have seen (R227). The spec does not say whether a squad's cycle count starts again; it goes on from where it stood (DESIGN CHOICE, log
entry 68). -/
def execWorkgroupRestore (s : State) : Host.Outcome State Fault Refusal :=
  .next (match s.arg with
    | .ids w _ _ =>
      let g := wgAt s w
      let core := match g.trapOf with
        | some l => ((launchAt s l).trapCore.getD 0) / 4
        | none => g.core
      let back := (g.status = 0 ∧ g.leaving = some 2) ∨ (g.status = 1 ∧ g.trapOf.isSome ∧ !(ctxAt s g.ctx).away)
      let seen := s.pubs.all (fun p => !p.2.waiting.contains core)
      let free := g.saved.ces.all (fun c => ceFree s w (ceAt s core c.1))
      if w < s.wgs.length ∧ back ∧ free ∧ seen then
        let s := modWg s w (fun g => { g with
          status := 0, core := core, leaving := none
          quarters := match g.trapOf with
            | some l => [((launchAt s l).trapCore.getD 0) % 4]
            | none => g.quarters
          squads := g.squads.map (fun q => { q with
            regrouped := false, frontier := q.frontier.map renewEntry, overflow := q.overflow.map renewEntry }) })
        let s := modCore s core (fun o => { o with
          ces := g.saved.ces.foldl (fun m c => Map.put m c.1 c.2) o.ces
          xfers := g.saved.xfers.foldl (fun m x => Map.put m x.1 x.2) o.xfers })
        let s := l1Invalidate (modWg s w (fun g => { g with saved := Saved.none, lateTags := [] })) core
        let ver := versionOf s w
        let peek := peekWord s w
        let s := (List.range g.squads.length).foldl (fun s q => modSq s w q (regroupSquad ver peek)) s
        let s := g.lateTags.foldl (fun s t => setTag s w t) s
        if g.resume then resumeWg (modWg s w (fun g => { g with resume := false })) w else s
      else s
    | _ => s)

/-! Trap kernels, routing, page requests, the watchdog (R191, R336, R337, R339). -/

/-- The workgroup id of a launch's trap kernel: any but those of the launch's workgroups, since firmware tells their records apart (R336, R337; log
entry 43). -/
def trapId (x : Launch) (n : Nat) : Nat := recNwg x.rec_ + Config.freeNumber n % (2 ^ 32 - recNwg x.rec_)

/-- Whether a launch's trap kernel was flushed and is to be placed again (R343). -/
def trapFlushed (s : State) (x : Launch) : Bool := x.trapWg.any (fun w => (wgAt s w).status == 2 && (wgAt s w).leaving == some 3)

/-- TRAP_KERNEL_START: the trap kernel starts in its quarter when its queue holds its first record, and starts again, when its threads have
all exited, for the records after them (R352), or after a flush (R343). Its header stands as a launch of its own. R337 reserves a quarter for it and no tags:
where its header grants some, they are not tested against those held on the core (DESIGN CHOICE, log entry 78). The words of the launch record that `idr`
reads in it are those of the launch it serves (DESIGN CHOICE, log entry 84). -/
def execTrapKernelStart (s : State) : Host.Outcome State Fault Refusal :=
  .next (match s.arg with
    | .ids l _ _ =>
      let x := launchAt s l
      match x.trap, x.trapCore with
      | some t, some q =>
        if l < s.launches.length ∧ x.stage = 4 ∧ (!x.trapQ.isEmpty ∨ trapFlushed s x) ∧ !(ctxAt s x.ctx).away then
          match x.trapWg with
          | none =>
            let own : Launch := { blankLaunch with
              ctx := x.ctx, queue := x.queue, rec_ := (wordAt t 0) :: (wordAt t 1) :: x.rec_.drop 2, khw := t.drop 16, stage := 9, lid := x.lid }
            let d := draw { s with launches := s.launches ++ [own] }
            let s := startWg d.2 s.launches.length (q / 4) (trapId x d.1) 0 0 1 false 1 (some l) (some (q % 4))
            modLaunch s l (fun y => { y with trapWg := some (s.wgs.length - 1) })
          | some w =>
            let g := wgAt s w
            if g.status = 2 then
              let s := startWg s g.launch (q / 4) g.id 0 0 1 false 1 (some l) (some (q % 4))
              modLaunch s l (fun y => { y with trapWg := some (s.wgs.length - 1) })
            else s
        else s
      | _, _ => s
    | _ => s)

/-- Puts a record into a launch's trap queue: into the next of its places in rotation, at `TQ` in the launch's context (R337). Where `TQ` cannot be
written, it stands in no memory (log entry 42). -/
def postTrap (s : State) (l : Nat) (t r : List Word) : State :=
  let x := launchAt s l
  let va := recAddr t 2 + 64 * (x.trapSlot % 2 ^ (recBits t 4 3 0 + 4))
  let s := match access s unitView x.ctx false (BitVec.ofNat 64 va) .store with
    | (s, .ok p) => (match p.loc with
      | .local a => performWrite s a p.attr.key (r.flatMap bytesOfWord)
      | _ => s)
    | (s, .error _) => s
  modLaunch s l (fun x => { x with trapQ := x.trapQ ++ [r], trapSlot := x.trapSlot + 1 })

/-- Sends a record to its launch's trap-kernel queue, if it has one with room; to the host runtime when it has none. Nothing, when the queue is full. -/
def forwardRecord (s : State) (r : List Word) : Option State :=
  let ctx := recBits r 3 15 0
  let lid := recBits r 3 31 16
  let toHost := some { s with out := s.out ++ [.hostRecord r] }
  match (List.range s.launches.length).find? (fun l => (launchAt s l).ctx == ctx && (launchAt s l).lid % 65536 == lid && (launchAt s l).stage == 4) with
  | none => toHost
  | some l =>
    let own := s.wgs.any (fun g => g.trapOf == some l && g.id == (wordAt r 2).toNat)
    match (launchAt s l).trap, (launchAt s l).trapCore with
    | some t, some _ =>
      if own then toHost
      else if 2 ^ (recBits t 4 3 0 + 4) ≤ (launchAt s l).trapQ.length then none
      else some (postTrap s l t r)
    | _, _ => toHost

/-- What firmware does with a record that it has taken from a die controller's queue (R336); nothing, while its trap queue is full. -/
def routeOne (taken : State) (r : List Word) : Option State :=
  let code := recBits r 0 31 24
  let sub := recBits r 0 23 16
  let toHost := { taken with out := taken.out ++ [.hostRecord r] }
  if (code = 0x10 ∧ sub = 1) ∨ (code = 0x20 ∧ sub = 3) then
    let id := newId taken
    let va : BitVec 64 := pairOf (wordAt r 6) (wordAt r 7)
    let ctx := recBits r 3 15 0
    match namedWg taken ctx (wordAt r 2).toNat (recBits r 3 31 16) with
    | some w => some { id.2 with pageReqs := Map.put id.2.pageReqs id.1 { wg := w, ctx := ctx, addr := va, rec_ := r, delivery := none }
                                 out := id.2.out ++ [.pageRequest id.1 va] }
    | none => some toHost
  else if (wordAt r 1).getLsbD 28 ∧ (code = 0x21 ∨ code = 0x22) then some toHost
  else if code = 0x28 then some toHost
  else forwardRecord taken r

/-- Firmware reads the records of a die controller's queue in order and routes the oldest that need not wait for its trap queue (R336). -/
def routeRecord (s : State) (die : Nat) : State :=
  let recs := Map.getD s.faults die []
  ((recs.zipIdx).findSome? (fun r => routeOne (refillFaults { s with faults := Map.put s.faults die (recs.eraseIdx r.2) } die) r.1)).getD s

/-- Zeros the 4 KiB frame of a new table, line by line: the lines of an interleaved frame lie in different stacks (R184, R187). -/
def clearTable (s : State) (a : Nat) : State := (List.range 32).foldl (fun s k => physWrite s (a + 128 * k) (List.replicate 128 0)) s

/-- The table that a walk reaches through the levels whose index bits are given, making the tables that are absent from frames (R187). -/
def tableAt (s : State) (a va : Nat) : List (Nat × Nat) → List (BitVec 40) → Option (State × Nat)
  | [], _ => some (s, a)
  | b :: bs, frames =>
    match pte s a (bitsOf va b.1 b.2), frames with
    | none, _ => none
    | some e, frames =>
      if e.getLsbD 63 then (if e.getLsbD 62 then tableAt s (bitsOf e.toNat 39 0 * 4096) va bs frames else none)
      else match frames with
        | [] => none
        | f :: rest =>
          let s := clearTable s (f.toNat * 4096)
          tableAt (physWrite s (a + 8 * bitsOf va b.1 b.2) (leBytes 8 (2 ^ 63 + 2 ^ 62 + f.toNat))) (f.toNat * 4096) va bs rest

/-- Installs a leaf for an address with the tables above it (R187, R191); nothing where it has no place. -/
def installLeaf (s : State) (ctx va : Nat) (x : PageGrant) : Option State :=
  let path := [(51, 43), (42, 34)] ++ (if x.level = 0 then [(33, 25)] else [])
  (tableAt s (recAddr (ctxAt s ctx).words 1) va path x.tables).map (fun r =>
    testTickets (physWrite r.1 (r.2 + 8 * (if x.level = 0 then bitsOf va 24 16 else bitsOf va 33 25)) (leBytes 8 x.leaf.toNat)))

/-- Acknowledges the fault of a record: its lane replays, or the threads that parked with it go on; a copy-engine context resumes (R294). -/
def acknowledge (s : State) (w : Nat) (r : List Word) : State :=
  if recBits r 0 31 24 = 0x20 then resumeCeOf s w (recBits r 1 9 8)
  else
    let lane := recBits r 1 25 21
    let lb := recBits r 1 20 12 / 32
    let pc := (wordAt r 4).toNat + 2 ^ 32 * recBits r 5 19 0
    resumeThreads s w (recBits r 1 11 10) (fun p =>
      p.lb == lb && p.place.pc.toNat == pc && (match p.how with
        | .replay _ _ => p.lane == lane
        | .go _ => true
        | .rewait _ _ => false)) false

/-- A delivery's landing page is there: it goes on where it stopped (R311). -/
def resumeLanding (s : State) (k : Nat) : State :=
  { s with fab := { s.fab with deliveries := Map.modify s.fab.deliveries k (fun d => { d with asked := false }) } }

/-- PAGE_REQUEST_RESPONSE: the entry is installed and the fault acknowledged, or the record is forwarded. Tables that do not fit the walk install nothing,
and the request stands. -/
def execPageRequestResponse (s : State) : Host.Outcome State Fault Refusal :=
  .next (match s.arg with
    | .page k leaf =>
      match Map.find s.pageReqs k with
      | none => s
      | some p =>
        let s' := { s with pageReqs := Map.del s.pageReqs k }
        match leaf, p.delivery with
        | none, none => (forwardRecord s' p.rec_).getD s
        | none, some d => endDelivery s' d 4 (some ((0x10, 1), p.addr))
        | some e, none => ((installLeaf s' p.ctx p.addr.toNat e).map (fun t => acknowledge t p.wg p.rec_)).getD s
        | some e, some d => ((installLeaf s' p.ctx p.addr.toNat e).map (fun t => resumeLanding t d)).getD s
    | _ => s)

/-- The watchdog period of a context in nanoseconds (R339, R380). -/
def watchdogPeriod (s : State) (ctx : Nat) : Nat := recBits (ctxAt s ctx).words 14 15 0 * 1000000

/-- Parks the waiting threads of a workgroup with one watchdog record. -/
def watchdogWg (s : State) (w : Nat) : State :=
  let g := wgAt s w
  let all := (List.range g.squads.length).flatMap (fun q => (sqAt s w q).waiters.map (fun x => (q, x)))
  match firstBy (fun x => [x.1, x.2.lb, lowest x.2.mask]) all with
  | none => s
  | some f =>
    let s := all.foldl (fun s y =>
      let s := modSq s w y.1 (fun sq => { sq with waiters := sq.waiters.filter (fun x => x != y.2) })
      parkThreads s w y.1 y.2.lb (lanesOf y.2.mask) y.2.stand (fun _ => .rewait y.2.why y.2.next)) s
    let cls := if f.2.stand.atHdr then 7 else Cls.code (clauseClass f.2.stand.hdr)
    reportThread s w f.1 f.2.lb (lowest f.2.mask) (threadRecord s w f.1 f.2.lb (lowest f.2.mask) cls f.2.stand (faultInfo 0x2A 0))

/-- WATCHDOG_EXPIRY: no workgroup of a launch has issued for the period. -/
def execWatchdogExpiry (s : State) : Host.Outcome State Fault Refusal :=
  .next (match s.arg with
    | .ids l _ _ =>
      let x := launchAt s l
      let p := watchdogPeriod s x.ctx
      if l < s.launches.length ∧ x.stage = 4 ∧ p ≠ 0 ∧ x.lastIssue + p ≤ s.plat.tclk.toNat then
        (List.range s.wgs.length).foldl (fun s w =>
          if (wgAt s w).launch = l ∧ (wgAt s w).status = 0 then watchdogWg s w else s) s
      else s
    | _ => s)

end Sys2Proof.Machine
end

