-- ==== Sys2Proof/Machine/EngineEvents.lean ====
section
/-! DEFINITION. The steps of the engines: the matrix engine's occupancy and completion, the lines and completions of the transfer unit and
the copy engine, and publication (R233, R247, R257, R258, R264, R265, R277, R278, R285, R289). -/

namespace Sys2Proof.Machine

/-! The matrix engine. -/

/-- The workgroups that have operations in a core's engine, the one placed earliest first (R233). -/
def issuersOf (s : State) (core : Nat) : List Nat :=
  sortBy (fun w => [(wgAt s w).placedAt, w]) (((coreAt s core).mat.map (fun o => o.wg)).dedup)

/-- The first operation of an issuer that has not begun its occupancy. -/
def headOp (s : State) (w : Nat) : Option MatOp := (matOf s w).find? (fun o => !o.started && !o.isFence)

/-- Whether an operation has operands of an emulated format (R258). -/
def emulated (o : MatOp) : Bool :=
  (matFields o.ins).isSome && !o.null && ((shapeOf o.mf0).fa == 18 || (shapeOf o.mf0).fa == 19)

/-- The parts of an operation: itself, or the four of a cluster operation, in core order (R249). -/
def partsOf (s : State) (o : MatOp) : List MatOp :=
  match o.cluster with
  | none => [o]
  | some c => sortBy (fun x => [(wgAt s x.wg).core]) (s.cores.flatMap (fun k => k.2.mat.filter (fun x => x.cluster == some c)))

/-- Changes an operation where it stands. -/
def modOp (s : State) (o : MatOp) (f : MatOp → MatOp) : State :=
  modCore s (wgAt s o.wg).core (fun c => { c with mat := c.mat.map (fun x => if x.id = o.id then f x else x) })

/-- Whether a unit that a descriptor operand touches is poisoned (R243). -/
def operandPoisoned (s : State) (o : MatOp) : Bool :=
  match matFields o.ins with
  | none => false
  | some (f, _, _) =>
    let p := shapeOf o.mf0
    let bad := fun (d : DWord) (code rows : Nat) =>
      let home := descHome s o.wg d
      (descAll d (codeBits code) rows p.k).any (fun x => bufPoisoned (wgAt s home.1) home.2 x 1)
    !o.null && ((f.x && bad o.descA p.fa p.m) || (f.y && bad o.descB p.fb p.n))

/-- Whether an operation reads C, and meets a poisoned unit there (R186). -/
def tilePoisoned (s : State) (o : MatOp) : Bool :=
  let t := tileOf o
  match matFields o.ins, accFields o.ins with
  | some (_, what, _), _ =>
    let reads := what != 1 && o.run != some 3
    !o.null && reads && bufPoisoned (wgAt s o.wg) 3 t.1 (if o.run = some 0 then 0 else t.2)
  | none, some (_, some k, n) => !o.null && bufPoisoned (wgAt s o.wg) 3 (k * 8192) (n * 8192)
  | none, _ => false

/-- Reads the descriptor operands. -/
def fillOp (s : State) (o : MatOp) : MatOp :=
  match matFields o.ins with
  | none => o
  | some (f, _, _) =>
    if o.null then o
    else
      let p := shapeOf o.mf0
      { o with
        aRows := if f.x then descRows s o.wg o.descA (codeBits p.fa) p.m p.k else o.aRows
        bRows := if f.y then descRows s o.wg o.descB (codeBits p.fb) p.n p.k else o.bRows }

/-- A fault found while operations execute: each part faults, and is gone with what it did to the runs (R249, R257). -/
def opsFault (s : State) (ps : List MatOp) (code sub : Nat) : State := dropOps (matFault s ps code sub) (ps.map (fun o => o.id))

/-- Whether an operation can begin: with all its parts, each first of its issuer. -/
def canStart (s : State) (o : MatOp) : Bool :=
  let ps := partsOf s o
  !emulated o && (o.cluster.isNone || ps.length == 4) && ps.all (fun x => (headOp s x.wg).any (fun h => h.id == x.id))

/-- The operation that begins next on a core: of the issuers that have one, the next in turn (R233). -/
def nextOp (s : State) (core : Nat) : Option MatOp :=
  let able := ((issuersOf s core).filterMap (headOp s)).filter (canStart s)
  let last := wgAt s (coreAt s core).matTurn
  match able.find? (fun o => decide (last.placedAt < (wgAt s o.wg).placedAt)) with
  | some o => some o
  | none => able.head?

/-- MATRIX_OCCUPANCY_START: the next operation begins, and reads its scratchpad operands; poison among them is its fault. -/
def execMatrixOccupancyStart (s : State) : Host.Outcome State Fault Refusal :=
  .next (match s.arg with
    | .ids core _ _ =>
      match nextOp s core with
      | none => s
      | some o =>
        let ps := partsOf s o
        let s := ps.foldl (fun s x => modCore s (wgAt s x.wg).core (fun c => { c with matTurn := x.wg })) s
        if ps.any (operandPoisoned s) then opsFault s ps 0x15 0
        else ps.foldl (fun s x => modOp s x (fun y => { fillOp s y with started := true })) s
    | _ => s)

/-- The parts of an operation complete in one step: their results, and what waited for them. -/
def completeParts (s : State) (ps : List MatOp) : State :=
  if ps.any (tilePoisoned s) then opsFault s ps 0x15 0
  else
    let s := ps.foldl (fun s o => if o.null then s else matEffect s o) s
    let s := ps.foldl (fun s o => modCore s (wgAt s o.wg).core (fun c => { c with mat := c.mat.filter (fun x => x.id != o.id) })) s
    ps.foldl (fun s o => matSettle s o.wg) s

/-- Whether an operation is the earliest of its core's engine that executes. -/
def firstStarted (s : State) (o : MatOp) : Bool :=
  o.started && (matOf s o.wg).all (fun x => x.isFence || x.id == o.id || decide (o.id < x.id))

/-- MATRIX_OP_COMPLETION: the earliest operation of an issuer completes, a cluster operation on all four cores at once. -/
def execMatrixOpCompletion (s : State) : Host.Outcome State Fault Refusal :=
  .next (match s.arg with
    | .ids w _ _ =>
      match (matOf s w).find? (fun o => o.started) with
      | none => s
      | some o =>
        let ps := partsOf s o
        if (o.cluster.isNone || ps.length == 4) && ps.all (firstStarted s) then completeParts s ps else s
    | _ => s)

/-- EMULATED_FORMAT_TRAP: firmware computes the tile of the operation at the head of an issuer's order; when `fail` is not 0 it fails. -/
def execEmulatedFormatTrap (s : State) : Host.Outcome State Fault Refusal :=
  .next (match s.arg with
    | .ids w fail _ =>
      match (matOf s w).find? (fun o => !o.isFence) with
      | none => s
      | some o =>
        let ps := partsOf s o
        let heads := ps.all (fun x => ((matOf s x.wg).find? (fun y => !y.isFence)).any (fun y => y.id == x.id))
        if !emulated o || !heads || !(o.cluster.isNone || ps.length == 4) then s
        else if ps.any (operandPoisoned s) then opsFault s ps 0x15 0
        else if fail ≠ 0 then opsFault s ps 0x09 1
        else completeParts s (ps.map (fillOp s))
    | _ => s)

/-! The transfer unit and the copy engine. -/

/-- TRANSFER_LINE_WRITE: one line request of operation `k` of a core, that of its piece `j`. -/
def execTransferLineWrite (s : State) : Host.Outcome State Fault Refusal :=
  .next (match s.arg with
    | .ids core k j => settleDev (xferLine s core k j)
    | _ => s)

/-- TRANSFER_OP_COMPLETION. -/
def execTransferOpCompletion (s : State) : Host.Outcome State Fault Refusal :=
  .next (match s.arg with
    | .ids core k _ => xferEnd s core k
    | _ => s)

/-- CE_LINE_WRITE: line request `j` of context `k` of a core. -/
def execCeLineWrite (s : State) : Host.Outcome State Fault Refusal :=
  .next (match s.arg with
    | .ids core k j => settleDev (ceLine s core k j)
    | _ => s)

/-- CE_COMPLETION_TAKES_EFFECT. -/
def execCeCompletionTakesEffect (s : State) : Host.Outcome State Fault Refusal :=
  .next (match s.arg with
    | .ids core k _ => ceComp s core k
    | _ => s)

/-- CE_LDI_RETURN. -/
def execCeLdiReturn (s : State) : Host.Outcome State Fault Refusal :=
  .next (match s.arg with
    | .ids core k _ => ceLdiLands s core k
    | _ => s)

/-! Publication. -/

/-- PUBLISH_PERFORM: the next publish of a `publish` instruction. -/
def execPublishPerform (s : State) : Host.Outcome State Fault Refusal :=
  .next (match s.arg with
    | .ids id _ _ => stepPub s id
    | _ => s)

/-- What waits for publishes goes on when they are complete. -/
def settlePubs (s : State) : State :=
  let s := s.pubOps.foldl (fun s p => settlePub s p.1) s
  let s := s.fab.deliveries.foldl (fun s p => settleDelivery s p.1) s
  let s := s.fab.colls.foldl (fun s p => settleColl s p.1) s
  settleDev s

/-- PUBLISH_CORE_APPLY: a core applies the earliest publish it has not applied, which must be `id`. -/
def execPublishCoreApply (s : State) : Host.Outcome State Fault Refusal :=
  .next (match s.arg with
    | .ids id core _ =>
      if s.pubs.any (fun p => decide (p.1 < id) && p.2.waiting.contains core) then s else settlePubs (applyPublish s id core)
    | _ => s)

end Sys2Proof.Machine
end

