-- ==== Sys2Proof/Machine/PlatformEvents.lean ====
section
/-! DEFINITION. The events of the platform: fabric links and planes, power, tokens, tempo, energy, the host's registers and window, contexts,
identity and measurement, and bring-up (R297 to R299, R329, R355 to R381). -/

namespace Sys2Proof.Machine

def modPlat (s : State) (f : Platform → Platform) : State := { s with plat := f s.plat }
def modFab (s : State) (f : Fabric → Fabric) : State := { s with fab := f s.fab }
def emit (s : State) (x : Outgoing) : State := { s with out := s.out ++ [x] }

/-! Links and planes (R298, R299, R376). A link has the number of its plane, plus 8 on bridge die 1. -/

/-- FLIT_RECEIVE: a good unit ends a row of retries; sixteen failed retries in a row take the link down, and its plane is dead. A link whose frame
counter has no number left waits for its rekeying. -/
def execFlitReceive (s : State) : Host.Outcome State Fault Refusal :=
  .next (match s.arg with
    | .flit l good =>
      match Map.find s.fab.links l with
      | none => s
      | some k =>
        if k.down ∨ 2 ^ 48 ≤ k.frames + 1 then s
        else
          let n := if good then 0 else k.retries + 1
          -- the first bad one is no retry
          let down := decide (17 ≤ n)
          let k := { k with retries := n, frames := k.frames + 1, crcFails := k.crcFails + (if good then 0 else 1), down := down }
          modFab s (fun f => { f with links := Map.put f.links l k, dead := if down then (f.dead ++ [l % 8]).dedup else f.dead })
    | _ => s)

/-- LINK_REKEY. -/
def execLinkRekey (s : State) : Host.Outcome State Fault Refusal :=
  .next (match s.arg with
    | .ids l _ _ => modFab s (fun f => { f with links := Map.modify f.links l (fun k => if k.down then k else { k with frames := 0, keys := k.keys + 1 }) })
    | _ => s)

/-- PLANE_QUIESCE: operations numbered from now on are held at the source. -/
def execPlaneQuiesce (s : State) : Host.Outcome State Fault Refusal :=
  .next (match s.arg with
    | .ids plane _ _ =>
      if s.fab.quiesced.isSome ∨ 8 ≤ plane then s else modFab s (fun f => { f with quiesced := some plane, oldPmap := f.pmap, drained := false })
    | _ => s)

/-- PMAP_WRITE: after the drain of step 2 (R297, R299). -/
def execPmapWrite (s : State) : Host.Outcome State Fault Refusal :=
  .next (match s.arg with
    | .value _ v => if s.fab.drained then writePmap s (v.truncate 32) else s
    | _ => s)

/-- REMAP_RESUME: after the drain of step 2; what was held goes out, and the collectives whose source was held are read. -/
def execRemapResume (s : State) : Host.Outcome State Fault Refusal :=
  .next (if s.fab.quiesced.isSome ∧ s.fab.drained then
      let t := { modFab s (fun f => { f with quiesced := none, drained := false, heldOut := [] }) with out := s.out ++ s.fab.heldOut }
      t.fab.colls.foldl (fun t c => compareSignatures t c.1) t else s)

/-! Operating points (R355 to R360). -/

/-- The points of the list: `MHZ` and the watts of the classes matrix, vector, memory, idle. -/
def oppList (m : Map Word) : List (Nat × List Nat) :=
  ((List.range 24).filter (fun k => (Map.getD m (4 * k) 0).getLsbD 31)).map (fun k =>
    let w := fun (i : Nat) => (Map.getD m (4 * k + i) 0).toNat
    (bitsOf (w 0) 10 0, [bitsOf (w 1) 15 0, bitsOf (w 1) 31 16, bitsOf (w 2) 15 0, bitsOf (w 2) 31 16]))

/-- The list in force. -/
def points (s : State) : List (Nat × List Nat) := oppList s.plat.opp

/-- Whether a device with no interval counted is idle: the counts that fractions are taken of. -/
def countsOf (l : List Nat) : List Nat := if l.foldl (· + ·) 0 = 0 then [0, 0, 0, 1] else l

/-- Predicted power as a fraction: numerator, and the number of intervals counted (R357). -/
def power (counts watts : List Nat) : Nat × Nat :=
  (((countsOf counts).zip watts).foldl (fun n p => n + p.1 * p.2) 0, (countsOf counts).foldl (· + ·) 0)

/-- The watts the device may use. -/
def budget (s : State) : Nat := min s.plat.bal.toNat s.plat.plimit.toNat

/-- Whether point `k` is within the budget, by the fractions of the last decision. -/
def affordable (s : State) (k : Nat) : Bool :=
  match (points s)[k]? with
  | some p => let x := power s.plat.counted p.2
              decide (x.1 ≤ budget s * x.2)
  | none => false

/-- The highest point within the budget. -/
def highestPoint (s : State) : Option Nat := ((List.range (points s).length).filter (affordable s)).getLast?

/-- Asks for point `k`; it takes effect with OPERATING_POINT_CHANGE. -/
def choosePoint (s : State) (k : Nat) : State := modPlat s (fun p => { p with nextIdx := some k })

/-- The point the device runs at, or is about to. -/
def pointOf (s : State) : Nat := s.plat.nextIdx.getD s.plat.idx

/-- Amounts to trade (R362): need and surplus, in whole trade units. -/
def tradeAmounts (s : State) : Nat × Nat :=
  match (points s).getLast? with
  | none => (0, 0)
  | some p =>
    let x := power s.plat.counted p.2
    let tu := max 1 (bitsOf s.plat.trade.toNat 23 16)
    let flr := bitsOf s.plat.trade.toNat 15 0
    let bal := s.plat.bal.toNat
    ((x.1 - bal * x.2) / (x.2 * tu) * tu, (bal * x.2 - max x.1 (flr * x.2)) / (x.2 * tu) * tu)

/-- The trading group that the device lists, and its rank there (R362). -/
def groupOfDevice (s : State) : Nat := bitsOf s.plat.tgrp.toNat 15 0
def rankOfDevice (s : State) : Nat := bitsOf s.plat.tgrp.toNat 25 16

/-- Chooses the point (R357, R366): under a tempo lock a decision only lowers it, and breaks the lock. -/
def chooseByBudget (s : State) : State :=
  let best := highestPoint s
  let k := best.getD 0
  let low := best.isNone
  let lock := tempoLocked s
  let s := if low then emit s .interrupt else s
  let s := modPlat s (fun p => { p with low := low, lkb := p.lkb || (lock && decide (k < pointOf s)) })
  if lock && decide (pointOf s < k) then s else choosePoint s k

/-- A decision of the power controller over the intervals counted, and its trade amounts (R357, R362). -/
def decision (s : State) : State :=
  if (points s).isEmpty then modPlat s (fun p => { p with low := true, intervals := [0, 0, 0, 0], counted := p.intervals })
  else
    let s := chooseByBudget (modPlat s (fun p => { p with intervals := [0, 0, 0, 0], counted := p.intervals }))
    let on := s.plat.tgrp.getLsbD 31
    let t := tradeAmounts s
    let s := modPlat s (fun p => { p with need := t.1, surplus := if on then t.2 else 0 })
    if on ∧ t.1 ≠ 0 then emit s (.tradeRequest (groupOfDevice s) (rankOfDevice s) t.1) else s

/-- A lowering of `BAL` below the power of the current point forces a decision at once (R364). -/
def checkBudget (s : State) : State :=
  match (points s)[pointOf s]? with
  | none => s
  | some p => let x := power s.plat.counted p.2
              if s.plat.bal.toNat * x.2 < x.1 then chooseByBudget s else s

/-- The class of an interval, by the cycles of its 1,024 that each test counts, in order (R357). -/
def classOf (mat vec mem : Nat) : Activity :=
  if 512 ≤ mat then .matrix else if 512 ≤ vec then .vector else if 512 ≤ mem then .memory else .idle

/-- Charges energy to a launch (key l + 1) or to context 0 (key 0). -/
def charge (s : State) (key e : Nat) : State :=
  let s := modPlat s (fun p => { p with estimates := Map.put p.estimates key (Map.getD p.estimates key 0 + e) })
  if key = 0 then modPlat s (fun p => { p with ctx0Energy := p.ctx0Energy + e })
  else modLaunch s (key - 1) (fun l => { l with energy := l.energy + e })

/-- The shares of an energy among weights: in proportion, what is left by rounding to the first; equal ones where no weight is set (DESIGN CHOICE, log
entry 72). -/
def sharesOf (e : Nat) (ws : List Nat) : List Nat :=
  let total := ws.foldl (· + ·) 0
  let ws := if total = 0 then ws.map (fun _ => 1) else ws
  let total := ws.foldl (· + ·) 0
  let base := ws.map (fun w => e * w / total)
  match base with
  | [] => []
  | x :: rest => (x + (e - base.foldl (· + ·) 0)) :: rest

/-- Charges the energy of engine work to the launches whose workgroups started it; that of firmware's own squads to context 0 (R367). -/
def chargeWork (s : State) (work : List (Nat × Nat)) : State :=
  (work.filter (fun x => decide (x.1 < s.wgs.length))).foldl (fun s x =>
    charge s (if (wgAt s x.1).level = 2 then 0 else (wgAt s x.1).served + 1) x.2) s

/-- ACTIVITY_INTERVAL: a core's interval is counted in its class; its energy is charged to the launches of the workgroups on it, shared by issue slots, an idle
interval's to context 0; that of the engines' work in the interval, to the launches that started it (R357, R367). -/
def execActivityInterval (s : State) : Host.Outcome State Fault Refusal :=
  .next (match s.arg with
    | .activity core mat vec mem energy work =>
      if Config.cores ≤ core then s
      else
        let cls := classOf mat vec mem
        let n := match cls with
          | .matrix => 0
          | .vector => 1
          | .memory => 2
          | .idle => 3
        let here := s.wgs.filter (fun g => g.status == 0 && g.core == core && g.level != 2)
        let s := chargeWork (modPlat s (fun p => { p with intervals := modAt p.intervals n (· + 1) })) work
        let s := { s with wgs := s.wgs.map (fun g => if g.core = core then { g with counted := g.issues } else g) }
        if cls = .idle ∨ here.isEmpty then charge s 0 energy
        else (here.zip (sharesOf energy (here.map (fun g => g.issues - g.counted)))).foldl (fun s x => charge s (x.1.served + 1) x.2) s
    | _ => s)

/-- POWER_DECISION. -/
def execPowerDecision (s : State) : Host.Outcome State Fault Refusal := .next (decision s)

/-- OPERATING_POINT_CHANGE. -/
def execOperatingPointChange (s : State) : Host.Outcome State Fault Refusal :=
  .next (match s.plat.nextIdx with
    | none => s
    | some k =>
      match (points s)[k]? with
      | some p => modPlat s (fun x => { x with idx := k, mhz := p.1, nextIdx := none })
      | none => modPlat s (fun x => { x with nextIdx := none }))

/-- ENERGY_CORRECTION: the measured energy of the millisecond, split in proportion to the estimates, replaces them in the counts; a count never
decreases (R367). -/
def execEnergyCorrection (s : State) : Host.Outcome State Fault Refusal :=
  .next (match s.arg with
    | .value _ v =>
      let total := s.plat.estimates.foldl (fun n e => n + e.2) 0
      let fix := fun (count e : Nat) => max count (count - e + (if total = 0 then 0 else v.toNat * e / total))
      let s := s.plat.estimates.foldl (fun s e =>
        if e.1 = 0 then modPlat s (fun p => { p with ctx0Energy := fix p.ctx0Energy e.2 })
        else modLaunch s (e.1 - 1) (fun l => { l with energy := fix l.energy e.2 })) s
      modPlat s (fun p => { p with estimates := [] })
    | _ => s)

/-- Whether an ordinary workgroup is placed. -/
def anyPlaced (s : State) : Bool := s.wgs.any (fun g => g.status == 0 && g.level < 2)

/-- Whether work is placed or a launch queue holds records (R360). -/
def workPending (s : State) : Bool := anyPlaced s || (List.range 64).any (fun q => queueHolds (queueOf s q) != 0)

/-- PWRCMD_SELF_REFRESH. -/
def execPwrcmdSelfRefresh (s : State) : Host.Outcome State Fault Refusal :=
  .next (if workPending s then setPerr s else if s.plat.pwrcmd = 0 then modPlat s (fun p => { p with pwrcmd := 1 }) else s)

/-- Whether traffic is a collective engine's. -/
def ofColl (s : State) (x : Outgoing) : Bool :=
  match x with
  | .signature _ _ | .collAck _ | .heartbeat _ | .collectiveData _ _ _ => true
  | .announce k _ => (Map.find s.fab.colls k).isSome
  | .request k _ _ => (Map.find s.fab.statuses k).any (fun o => o.code == 0x22)
  | _ => false

/-- The state of the four C-dies is lost: cores, memory, die controllers. The bridge dies keep theirs, the root processor's squad among it (R13). -/
def loseDies (s : State) : State :=
  let r := State.reset
  { s with
    wgs := s.wgs.map (fun g => if g.core = 516 then g else { g with status := 2 })
    cores := s.cores.filter (fun c => c.1 == 516), xb := r.xb, xc := r.xc, mem := r.mem, poison := r.poison
    lineKeys := r.lineKeys, keyBack := r.keyBack, sealed := r.sealed, unpub := r.unpub, flights := r.flights, trackers := r.trackers, ulog := r.ulog
    tlb := r.tlb, l2eng := r.l2eng, pubs := r.pubs, faultSlot := r.faultSlot, queueWrites := r.queueWrites
    pubOps := r.pubOps, devOps := r.devOps, faultq := r.faultq, faults := r.faults, faultWait := r.faultWait, unsettled := r.unsettled
    pageReqs := r.pageReqs, granuleCtx := r.granuleCtx
    -- the collective engines sit on the C-dies
    fab := { s.fab with
      colls := [], statuses := s.fab.statuses.filter (fun x => x.2.code != 0x22)
      waitOut := s.fab.waitOut.filter (fun x => !ofColl s x.2), heldOut := s.fab.heldOut.filter (fun x => !ofColl s x) }
    plat := { s.plat with keySlots := [], rdy := false } }

/-- PWRCMD_POWER_OFF. -/
def execPwrcmdPowerOff (s : State) : Host.Outcome State Fault Refusal :=
  .next (if workPending s then setPerr s else modPlat (loseDies s) (fun p => { p with pwrcmd := 2 }))

/-! Tokens (R361 to R364). -/

/-- The device that `TGLIST` names at a rank (R362). -/
def listedDevice (s : State) (rank : Nat) : Option Nat := physRead s (s.plat.tglist.toNat + 2 * rank) 2

/-- One request, of a device of a group at a rank, for an amount: the donor grants from its surplus, never more than its balance, which a `TOKADJ` may have
lowered since the decision (DESIGN CHOICE, log entry 73). -/
def grantTrade (s : State) (group rank dev amount : Nat) : State :=
  let g := min (min s.plat.surplus amount) s.plat.bal.toNat
  if !s.plat.tgrp.getLsbD 31 ∨ group ≠ groupOfDevice s ∨ listedDevice s rank ≠ some dev ∨ g = 0 then s
  else
    let id := newId s
    let s := modPlat id.2 (fun p => { p with
      bal := p.bal - BitVec.ofNat 16 g, out := p.out + BitVec.ofNat 16 g, surplus := p.surplus - g
      trades := Map.put p.trades id.1 { dev := dev, amount := g, abandoned := false } })
    checkBudget (emit s (.tradeGrant dev g))

/-- Requests as an event carries them: four words each, group, rank, device and amount. -/
def tradeRequests : Nat → List Word → List (List Nat)
  | 0, _ => []
  | n + 1, l => if l.length < 4 then [] else (l.take 4).map (fun w => w.toNat) :: tradeRequests n (l.drop 4)

/-- TRADE_REQUEST_RECEIPT: the requests that arrive together are handled in ascending rank (R362). -/
def execTradeRequestReceipt (s : State) : Host.Outcome State Fault Refusal :=
  .next (match s.arg with
    | .words ws =>
      (sortBy (fun r => [r.getD 1 0]) (tradeRequests ws.length ws)).foldl (fun s r => grantTrade s (r.getD 0 0) (r.getD 1 0) (r.getD 2 0) (r.getD 3 0)) s
    | _ => s)

/-- TRADE_GRANT_RECEIPT. -/
def execTradeGrantReceipt (s : State) : Host.Outcome State Fault Refusal :=
  .next (match s.arg with
    | .ids dev g _ => emit (modPlat s (fun p => { p with bal := p.bal + BitVec.ofNat 16 g })) (.tradeAck dev)
    | _ => s)

/-- TRADE_ACK_RECEIPT: of trade `k`; an acknowledgement of a released trade is discarded. -/
def execTradeAckReceipt (s : State) : Host.Outcome State Fault Refusal :=
  .next (match s.arg with
    | .ids k _ _ =>
      match Map.find s.plat.trades k with
      | none => s
      | some t =>
        let n : BitVec 16 := BitVec.ofNat 16 t.amount
        let s := modPlat s (fun p => { p with
          out := p.out - n, tokabn := if t.abandoned then p.tokabn - n else p.tokabn, trades := Map.del p.trades k })
        if t.abandoned then emit s (.tradeReport t.dev t.amount true) else s
    | _ => s)

/-- TRADE_ABANDONMENT: trade `k` is not acknowledged in time, or its recipient is lost. -/
def execTradeAbandonment (s : State) : Host.Outcome State Fault Refusal :=
  .next (match s.arg with
    | .ids k _ _ =>
      match Map.find s.plat.trades k with
      | none => s
      | some t =>
        if t.abandoned then s
        else
          let s := modPlat s (fun p => { p with
            tokabn := p.tokabn + BitVec.ofNat 16 t.amount, trades := Map.put p.trades k { t with abandoned := true } })
          emit s (.tradeReport t.dev t.amount false)
    | _ => s)

/-- TOKADJ_WRITE: a lowering below the power of the current point forces a decision at once; a raise counts at the next one (R364). -/
def execTokadjWrite (s : State) : Host.Outcome State Fault Refusal :=
  .next (match s.arg with
    | .value _ v =>
      let n : Int := s.plat.bal.toNat + (v.truncate 32 : Word).toInt
      let set := fun (x : BitVec 16) => modPlat s (fun p => { p with bal := x })
      if n < 0 then (if s.plat.bal = 0 then setPerr s else checkBudget (setPerr (set 0)))
      else if 65535 < n then setPerr s
      else if n < s.plat.bal.toNat then checkBudget (set (BitVec.ofInt 16 n))
      else set (BitVec.ofInt 16 n)
    | _ => s)

/-- TOKREL_WRITE. -/
def execTokrelWrite (s : State) : Host.Outcome State Fault Refusal :=
  .next (match s.arg with
    | .value _ v =>
      let x : BitVec 16 := v.truncate 16
      if x ≠ s.plat.tokabn then setPerr s
      else modPlat s (fun p => { p with out := p.out - x, tokabn := 0, trades := p.trades.filter (fun t => !t.2.abandoned) })
    | _ => s)

/-! Tempo (R365, R366). -/

/-- What a member offers: the frequency of its highest point within the budget, or of point 0. -/
def ownTempo (s : State) : Nat := (((points s)[(highestPoint s).getD 0]?).map (fun p => p.1)).getD s.plat.mhz

/-- TEMPO_EXCHANGE: the own value goes out; the values of the other members that arrive are kept. -/
def execTempoExchange (s : State) : Host.Outcome State Fault Refusal :=
  .next (if !tempoLocked s then s
    else
      match s.arg with
      | .nats l => modPlat s (fun p => { p with tempoSeen := p.tempoSeen ++ l })
      | .unit => emit (modPlat s (fun p => { p with tempoOwn := some (ownTempo s) })) (.tempo (ownTempo s))
      | _ => s)

/-- The highest listed point not above a frequency, or point 0. -/
def pointBelow (s : State) (mhz : Nat) : Nat :=
  (((List.range (points s).length).filter (fun k => decide ((((points s)[k]?).map (fun p => p.1)).getD 0 ≤ mhz))).getLast?).getD 0

/-- TEMPO_BOUNDARY: `TCLK` stands at the next multiple of 2^20. -/
def execTempoBoundary (s : State) : Host.Outcome State Fault Refusal :=
  .next (if s.plat.hold.isSome then s
    else
      let t := (s.plat.tclk.toNat + 2 ^ 20 - 1) / 2 ^ 20 * 2 ^ 20
      let s := modPlat s (fun p => { p with tclk := BitVec.ofNat 64 t })
      let mhz := s.plat.tempoSeen.foldl min (s.plat.tempoOwn.getD (ownTempo s))
      let s' := modPlat s (fun p => { p with lkb := false, tempoSeen := [], tempoOwn := none })
      if tempoLocked s ∧ !(points s).isEmpty then choosePoint s' (min (pointBelow s mhz) ((highestPoint s).getD 0)) else s')

/-- Bring-up ends (R381 step 7): `RDY` at the boot point, with `BAL` 0 and `LOW` 1. -/
def becomeReady (s : State) : State :=
  modPlat s (fun p => { p with tsy := true, rdy := true, step := 7, bal := 0, low := true, mhz := 360, idx := 0, nextIdx := none })

/-- Time passes: `TCLK` counts `ns` nanoseconds, or stands still while the domain's time comes up to it (R365). -/
def advanceClock (s : State) (ns : Nat) : State :=
  match s.plat.hold with
  | none => modPlat s (fun p => { p with tclk := p.tclk + BitVec.ofNat 64 ns })
  | some t =>
    let t := t + BitVec.ofNat 64 ns
    if s.plat.tclk.toNat ≤ t.toNat then becomeReady (modPlat s (fun p => { p with tclk := t, hold := none }))
    else modPlat s (fun p => { p with hold := some t })

/-- TCLK_SYNCHRONISATION: `TCLK` jumps forward to the domain's time, or is held still until that time reaches it; a device alone takes its own
count. It happens once. -/
def execTclkSynchronisation (s : State) : Host.Outcome State Fault Refusal :=
  .next (if s.plat.step ≠ 6 ∨ s.plat.berr ∨ s.plat.hold.isSome then s
    else if s.plat.tsy then becomeReady s
    else
      match s.arg with
      | .value _ t =>
        if s.plat.tclk.toNat ≤ t.toNat then becomeReady (modPlat s (fun p => { p with tclk := t }))
        else modPlat s (fun p => { p with hold := some t })
      | .unit => becomeReady s
      | _ => s)

/-! Host registers (R355, R356, R360, R377 to R379). -/

/-- PLIMIT_WRITE. -/
def execPlimitWrite (s : State) : Host.Outcome State Fault Refusal :=
  .next (match s.arg with
    | .value _ v =>
      let n := bitsOf v.toNat 11 0
      if 800 ≤ n ∧ n ≤ 2800 then modPlat s (fun p => { p with plimit := BitVec.ofNat 12 n }) else setPerr s
    | _ => s)

/-- A write to an event counter (R379). -/
def evcmd (s : State) (f : Word → Word → Word) : State :=
  match s.arg with
  | .evcmd ctx e v =>
    if (Map.find s.ctxs ctx.toNat).isNone then setPerr s
    else setEvent s ctx.toNat e.toNat (f (eventValue s ctx.toNat e.toNat) v)
  | _ => s

/-- EVCMD_SET and EVCMD_ADD. -/
def execEvcmdSet (s : State) : Host.Outcome State Fault Refusal := .next (evcmd s (fun _ v => v))
def execEvcmdAdd (s : State) : Host.Outcome State Fault Refusal := .next (evcmd s (fun x v => x + v))

/-- QCFG_WRITE: only while the queue is not enabled; setting `EN` empties it. -/
def execQcfgWrite (s : State) : Host.Outcome State Fault Refusal :=
  .next (match s.arg with
    | .value q v =>
      let x := queueOf s q
      let lsz := bitsOf v.toNat 19 16
      if 64 ≤ q then s
      else if x.cfg.getLsbD 31 ∨ lsz < 4 ∨ 12 < lsz then setPerr s
      else
        let cfg : Word := v.truncate 32 &&& 0xF00FFFFF
        setQueue s q { x with cfg := cfg, head := if cfg.getLsbD 31 then x.tail else x.head, last := none }
    | _ => s)

/-- Whether a list of operating points keeps the conditions of R355. -/
def oppGood (m : Map Word) : Bool :=
  let l := (oppList m).map (fun p => p.1)
  !l.isEmpty && l.all (fun f => decide (360 ≤ f) && decide (f ≤ 1050) && f % 30 == 0) && ((l.zip (l.drop 1)).all (fun p => decide (p.1 < p.2)))

/-- Measuring a digest into a slot (R371). -/
def measure (s : State) (slot : Nat) (d : BitVec 256) : State :=
  modPlat s (fun p =>
    let bytes := fun (x : BitVec 256) => (leBytes 32 x.toNat).reverse
    { p with slots := Map.put p.slots slot (sha256 (bytes (Map.getD p.slots slot 0) ++ bytes d)) })

/-- OPP_LIST_WRITE: the list's words, in order of their offsets. What is measured is the digest of its bytes. -/
def execOppListWrite (s : State) : Host.Outcome State Fault Refusal :=
  .next (match s.arg with
    | .words ws =>
      let m : Map Word := (List.range 96).filterMap (fun i =>
        let w := if i % 4 = 0 then wordAt ws i &&& 0x800007FF else if i % 4 = 3 then 0 else wordAt ws i
        if w = 0 then none else some (i, w))
      if anyPlaced s ∨ !oppGood m then setPerr s
      else measure (modPlat s (fun p => { p with opp := m })) 5 (sha256 ((List.range 96).flatMap (fun i => bytesOfWord (Map.getD m i 0))))
    | _ => s)

/-- FAULTQ_WRITE: of the queue of die controller `die`. -/
def execFaultqWrite (s : State) : Host.Outcome State Fault Refusal :=
  .next (match s.arg with
    | .value die v => if die < 5 then writeFaultq s die v else s
    | _ => s)

/-- `DSTAT` (R377). -/
def dstatWord (s : State) : Word :=
  packWord [(s.plat.brsn.toNat, 8), (bit s.plat.berr, 3), (bit s.plat.perr, 2), (bit s.plat.tsy, 1), (bit s.plat.rdy, 0)]

/-- What the host reads in BAR0 at an offset: the registers of R377 and of the queues (R378), the write-only ones as zero (R3); nothing where no register
stands. -/
def hostRegister (s : State) (off : Nat) : Option DWord :=
  let p := s.plat
  let w := fun (x : Word) => some (x.zeroExtend 64 : DWord)
  let q := queueOf s ((off - 0x10000) / 0x40)
  if 0x100 ≤ off ∧ off < 0x280 then (if off % 4 = 0 then w (Map.getD p.opp ((off - 0x100) / 4) 0) else none)
  else if 0x10000 ≤ off ∧ off < 0x11000 then
    match off % 0x40 with
    | 0x00 => some (BitVec.ofNat 64 q.base)
    | 0x08 => w q.cfg
    | 0x10 => some (q.tail.zeroExtend 64)
    | 0x14 => some (q.head.zeroExtend 64)
    | 0x18 => some (BitVec.ofNat 64 q.comp)
    | 0x20 => some q.qseq
    | _ => none
  else
    match off with
    | 0x00 => w (dstatWord s)
    | 0x08 => some (p.plimit.zeroExtend 64)
    | 0x0C => some (BitVec.ofNat 64 p.pwrcmd)
    | 0x10 => some 0
    | 0x14 => w (tokWord s)
    | 0x18 => w p.tgrp
    | 0x1C => w p.trade
    | 0x20 => some p.tglist
    | 0x28 => some p.tclk
    | 0x30 => some 0
    | 0x38 => some p.winbase
    | 0x40 => some p.fwmbox
    | 0x48 => some (p.tokabn.zeroExtend 64)
    | 0x4C => some 0
    | _ => none

/-- REGISTER_WRITE: reserved bits are ignored. The host's read of a register stands here too: its value goes out (log entry 74). -/
def execRegisterWrite (s : State) : Host.Outcome State Fault Refusal :=
  .next (match s.arg with
    | .host r v =>
      match r with
      | .dstat => modPlat s (fun p => { p with perr := p.perr && !v.getLsbD 2 })
      | .tgrp => modPlat s (fun p => { p with tgrp := v.truncate 32 &&& 0x83FFFFFF })
      | .trade => modPlat s (fun p => { p with trade := v.truncate 32 &&& 0x00FFFFFF })
      | .tglist => modPlat s (fun p => { p with tglist := v })
      | .winbase => modPlat s (fun p => { p with winbase := v &&& 0xFFFFFFF000000000 })
      | .fwmbox => testErets (modPlat s (fun p => { p with fwmbox := v, doorbell := true }))
      | .evcmd => setPerr s
      | .qbase q =>
        if 64 ≤ q then s
        else if (queueOf s q).cfg.getLsbD 31 then setPerr s
        else setQueue s q { queueOf s q with base := bitsOf v.toNat 51 12 * 4096 }
      | .qcomp q => if 64 ≤ q then s else setQueue s q { queueOf s q with comp := bitsOf v.toNat 51 5 * 32 }
    | .ids off _ _ =>
      match hostRegister s off with
      | some v => emit s (.register off v)
      | none => s
    | _ => s)

/-! The window onto memory (R375). -/

/-- The confidential context that a line's key slot belongs to. -/
def confidentialOf (s : State) (line : Nat) : Option Nat :=
  match recordedKey s line with
  | none => none
  | some k =>
    if k = 0 then none
    else (s.ctxs.find? (fun c => recBits c.2.words 0 22 17 == k && (wordAt c.2.words 0).getLsbD 16)).map (fun c => c.1)

/-- Counts and logs a blocked access. -/
def logRead (s : State) (c a : Nat) : State :=
  modCtx s c (fun x => { x with reads := (x.reads + 1) % 2 ^ 32, readLog := (x.readLog ++ [a]).drop (x.readLog.length + 1 - 64) })

/-- One byte of a host access: of a confidential line a read gives zero and a write is dropped. -/
def windowByte (s : State) (pa : Nat) (b : Byte) (wr : Bool) : State × Byte :=
  match physLoc pa with
  | some (.local a) =>
    if (confidentialOf s (lineOf a)).isSome then (s, 0)
    else if wr then (performWrite s a 0 [b], 0)
    else
      let s := keyLine s (lineOf a) 0
      (s, Memory.read s.mem a)
  | _ => let d := draw s
         (d.2, (Config.freeWord d.1 0).truncate 8)

/-- HOST_WINDOW_ACCESS: of the bytes at an offset, within one line. -/
def execHostWindowAccess (s : State) : Host.Outcome State Fault Refusal :=
  .next (match s.arg with
    | .window off bytes wr =>
      let pa := (s.plat.winbase.toNat + off) % 2 ^ 40
      if 2 ^ 36 ≤ off ∨ bytes.isEmpty ∨ 128 < pa % 128 + bytes.length then s
      else
        let s := match physLoc pa with
          | some (.local a) =>
            match confidentialOf s (lineOf a) with
            | some c => logRead s c pa
            | none => s
          | _ => s
        let r := bytes.zipIdx.foldl (fun (x : State × List Byte) b =>
          let y := windowByte x.1 (pa + b.2) b.1 wr
          (y.1, x.2 ++ [y.2])) (s, [])
        if wr then r.1 else emit r.1 (.window r.2)
    | _ => s)

/-! Contexts and identity (R369 to R373, R380). -/

/-- Whether a context record is refused (R380). -/
def contextRefused (s : State) (ws : List Word) : Bool :=
  let c := recBits ws 0 15 0
  let key := recBits ws 0 22 17
  ws.length != 16 || recBits ws 0 31 23 != 0 || wordAt ws 15 != 0 || [2, 4, 6, 8, 10, 12].any (fun k => recBits ws k 31 20 != 0)
    || c == 0 || (Map.find s.ctxs c).isSome || (key != 0 && s.ctxs.any (fun x => recBits x.2.words 0 22 17 == key))

/-- The debug registers of a context at their reset values (R329). -/
def forgetDebug (s : State) (c : Nat) : State := { s with dbgctl := Map.del s.dbgctl c, bpa := s.bpa.filter (fun x => x.1 / 4 != c) }

/-- CONTEXT_CREATE; the mailbox returns 0 for a context created, 1 for a record refused. -/
def execContextCreate (s : State) : Host.Outcome State Fault Refusal :=
  .next (match s.arg with
    | .words ws =>
      if !s.plat.rdy then s
      else if contextRefused s ws then emit s (.status 1)
      else emit { forgetDebug s (recBits ws 0 15 0) with ctxs := Map.put s.ctxs (recBits ws 0 15 0) { blankCtx with words := ws } } (.status 0)
    | _ => s)

/-- Makes the lines recorded under a key slot unreadable by any key: another key, or none, is loaded into the slot (R193, R373). -/
def retireKey (s : State) (key : Nat) : State :=
  let id := newId s
  { id.2 with
    lineKeys := id.2.lineKeys.map (fun l => if l.2 = key then (l.1, 64 + id.1) else l)
    keyBack := id.2.keyBack.map (fun l => (l.1, l.2.filter (fun p => p.1 != key))) }

/-- CONTEXT_DESTROY: the lines under the context's key are written back, and its slot is zeroed: no key reads them any more. -/
def execContextDestroy (s : State) : Host.Outcome State Fault Refusal :=
  .next (match s.arg with
    | .ids c _ _ =>
      if (Map.find s.ctxs c).isNone then s
      else
        let key := recBits (ctxAt s c).words 0 22 17
        let s := if key = 0 then s else modPlat (retireKey s key) (fun p => { p with keySlots := Map.del p.keySlots key })
        { forgetDebug s c with ctxs := Map.del s.ctxs c }
    | _ => s)

/-- Whether the root processor has a lower tree with a leaf to use, has none and can make one, or has none for good. -/
inductive Identity where
  | ready
  | waiting
  | exhausted
  deriving DecidableEq, Repr

def identity (s : State) : Identity :=
  if s.plat.exhausted then .exhausted else if s.plat.leaves < 1024 then .ready else if s.plat.counter < 2 ^ 20 then .waiting else .exhausted

/-- A new lower tree: the counter is incremented, and the tree has its leaves. -/
def newTree (s : State) : State :=
  if s.plat.counter < 2 ^ 20 then modPlat s (fun p => { p with counter := p.counter + 1, leaves := 0, exhausted := false })
  else modPlat s (fun p => { p with exhausted := true })

/-- Answers one attestation request (R372). -/
def attest (s : State) (nonce : BitVec 256) (mask : BitVec 16) (ctx : Option (BitVec 16)) : State :=
  let slots := ((List.range 16).filter (fun k => mask.getLsbD k)).map (fun k => Map.getD s.plat.slots k 0)
  let log := (ctx.bind (fun c => Map.find s.ctxs c.toNat)).map (fun c => (c.reads, c.readLog))
  let kem := Config.kemPublicHash s.plat.boot
  let bytes := fun (st : Nat) => leBytes 32 nonce.toNat ++ slots.flatMap (fun x => leBytes 32 x.toNat) ++ leBytes 4 s.plat.counter
    ++ leBytes 32 kem.toNat ++ ((log.map (fun l => leBytes 4 l.1 ++ l.2.flatMap (leBytes 8))).getD []) ++ [BitVec.ofNat 8 st]
  match identity s with
  | .waiting => s
  | .exhausted => emit s (.attestation nonce slots s.plat.counter kem log 3 [])
  | .ready =>
    let s := modPlat s (fun p => { p with leaves := p.leaves + 1 })
    emit s (.attestation nonce slots s.plat.counter kem log 0 (hssSign s.plat.counter s.plat.leaves (bytes 0)))

/-- Answers the requests that wait, in arrival order, while there are leaves or the identity is exhausted. -/
def answerRequests : Nat → State → State
  | 0, s => s
  | n + 1, s =>
    match s.plat.asked with
    | [] => s
    | r :: rest =>
      if identity s = .waiting then s
      else answerRequests n (attest (modPlat s (fun p => { p with asked := rest })) r.1 r.2.1 r.2.2)

/-- LOWER_TREE_REGENERATION: the requests that waited for it are answered. -/
def execLowerTreeRegeneration (s : State) : Host.Outcome State Fault Refusal :=
  .next (if 3 ≤ s.plat.step ∧ 1024 ≤ s.plat.leaves ∧ !s.plat.exhausted then answerRequests s.plat.asked.length (newTree s) else s)

/-- ATTESTATION_REQUEST. -/
def execAttestationRequest (s : State) : Host.Outcome State Fault Refusal :=
  .next (match s.arg with
    | .attest nonce mask ctx =>
      if s.plat.step < 3 then s
      else
        let s := modPlat s (fun p => { p with asked := p.asked ++ [(nonce, mask, ctx)] })
        answerRequests s.plat.asked.length s
    | _ => s)

/-- KEM_ENCAPSULATION: the keys of a context from a tenant's secret. -/
def execKemEncapsulation (s : State) : Host.Outcome State Fault Refusal :=
  .next (match s.arg with
    | .kem ctx ct =>
      if s.plat.step < 3 then s
      else if identity s = .exhausted then emit s (.status 3)
      else if (Map.find s.ctxs ctx.toNat).isNone then emit s (.status 1)
      else
        let k := Config.hkdf (Config.kemDecapsulate s.plat.boot ct) ctx.toNat
        let key := recBits (ctxAt s ctx.toNat).words 0 22 17
        let s := if key = 0 then s else modPlat (retireKey s key) (fun p => { p with keySlots := Map.put p.keySlots key k.1 })
        emit (modCtx s ctx.toNat (fun c => { c with launchKey := some k.2.1, saveKey := some k.2.2 })) (.status 0)
    | _ => s)

/-- MEASUREMENT_EXTEND: slots 8 to 15. -/
def execMeasurementExtend (s : State) : Host.Outcome State Fault Refusal :=
  .next (match s.arg with
    | .measure slot d => if 8 ≤ slot ∧ slot ≤ 15 ∧ 2 ≤ s.plat.step then measure s slot d else s
    | _ => s)

/-! Bring-up (R326, R371, R381). -/

/-- Everything but the monotonic counter starts again, and what is the model's own goes on. -/
def resetDevice (s : State) (step : Nat) : State :=
  { State.reset with
    agenda := s.agenda, cur := s.cur, arg := s.arg, freeCtr := s.freeCtr, ids := s.ids, rr := s.rr, out := s.out
    plat := { Platform.reset with counter := s.plat.counter, boot := s.plat.boot + 1, step := step } }

/-- RESET_RELEASE: step 1, and the root processor's measurement of its ROM in step 2. -/
def execResetRelease (s : State) : Host.Outcome State Fault Refusal := .next (measure (resetDevice s 2) 0 Config.romDigest)

/-- POWER_LOSS: the counter alone survives. -/
def execPowerLoss (s : State) : Host.Outcome State Fault Refusal := .next (resetDevice s 1)

/-- Bring-up stops at a step with a reason. -/
def bringUpFails (s : State) (step : Nat) (reason : BitVec 8) : State :=
  modPlat s (fun p => { p with berr := true, brsn := reason, step := step })

/-- A failure of a step whose reason the spec does not number. -/
def bringUpStops (s : State) (step : Nat) : State :=
  let d := draw s
  bringUpFails d.2 step ((Config.freeWord d.1 0).truncate 8)

/-- Measures an image, then verifies it; a failure stops the boot with a reason the spec does not number. -/
def loadImage (s : State) (step slot : Nat) (i : FirmwareImage) : State :=
  let s := measure s slot i.digest
  if Config.hssVerify i.digest i.signature ∧ Config.minVersion slot ≤ i.version then s
  else bringUpStops s step

/-- The firmware's squad on a controller: one lane block of which only lane 0 runs (R326). Its registers and its clause entry are as at any start. -/
def startFirmware (s : State) (core : Nat) (base : BitVec 52) : State :=
  let sq := Squad.start 0 0 1 base (fun _ => 1)
  let g : Wg :=
    { blankWg with
      launch := s.launches.length - 1, level := 2, core := core, gangSize := 1, quarters := [0], placedAt := s.placements
      squads := [{ sq with exited := [(0, 0xFFFFFFFE)] }] }
  { s with wgs := s.wgs ++ [g], placements := s.placements + 1 }

/-- Places an image's words: each at its own physical address, since the lines of an address range lie on all stacks (R184). -/
def placeImage (s : State) (i : FirmwareImage) : State :=
  (List.range i.code.length).foldl (fun s k => physWrite s (i.base.toNat + 4 * k) (bytesOfWord (wordAt i.code k))) s

/-- One step of bring-up of those that follow the bundle, unless an earlier one failed. -/
def bringUpStep (b : FirmwareBundle) (n : Nat) (f : State → State) (s : State) : State :=
  if s.plat.berr then s
  else
    match b.failure with
    | some (k, reason) => if k = n then bringUpFails s n reason else f s
    | none => f s

/-- The clusters of a section of a C-die, by site (R14): its own eight, or seven of them and a spare one that no section before it took. That spare site 32 is
wired to sections 0 and 1 and site 33 to sections 2 and 3, and in which order the sites are numbered, is the model's choice (log entry 71). -/
def assignSection (ok : Nat → Bool) (used : List Nat) (sec : Nat) : Option (List Nat) :=
  let mine := ((List.range 8).map (fun i => sec * 8 + i)).filter ok
  let spare := 32 + sec / 2
  if mine.length = 8 then some mine
  else if mine.length = 7 ∧ ok spare ∧ !used.contains spare then some (mine ++ [spare])
  else none

/-- The sites of the 128 logical clusters, or none when a section has no eight working ones; a site with a faulty core is disabled. -/
def assignSites (fuse : List (List (BitVec 4))) : Option (List Nat) :=
  (List.range 4).foldl (fun acc die =>
    acc.bind (fun l => ((List.range 4).foldl (fun a sec =>
      a.bind (fun m => (assignSection (fun site => (fuse.getD die []).getD site 0 == 15) m sec).map (fun x => m ++ x))) (some [])).map
        (fun m => l ++ m.map (fun site => die * 34 + site)))) (some [])

/-- Steps 4 to 6: sections are assigned, the die controllers and the power controller start, memory is cleared, the links are trained and keyed. -/
def startDies (b : FirmwareBundle) (s : State) : State :=
  let s := bringUpStep b 4 (fun s =>
    match assignSites b.fuse with
    | none => bringUpStops s 4
    | some sites =>
      let s := loadImage (modPlat s (fun p => { p with sites := sites })) 4 2 b.die
      let s := if s.plat.berr then s else loadImage s 4 3 b.power
      if s.plat.berr then s
      else
        let s := { s with launches := s.launches ++ [{ blankLaunch with stage := 9 }] }
        [512, 513, 514, 515].foldl (fun s c => startFirmware s c b.die.base) s) s
  let s := bringUpStep b 5 (fun s =>
    placeImage (measure { s with mem := [], poison := [], lineKeys := [], keyBack := [], sealed := [] } 4 b.hbm) b.die) s
  bringUpStep b 6 (fun s =>
    let s := measure s 6 b.fabric
    let link : Link := { retries := 0, frames := 0, crcFails := 0, down := false, keys := 1 }
    modPlat (modFab s (fun f => { f with links := (List.range 16).map (fun l => (l, link)) })) (fun p => { p with step := 6 })) s

/-- FIRMWARE_BUNDLE_PLACEMENT: steps 3 to 6; the synchronisation of `TCLK` ends step 6. -/
def execFirmwareBundlePlacement (s : State) : Host.Outcome State Fault Refusal :=
  .next (match s.arg with
    | .bundle b =>
      if s.plat.step ≠ 2 ∨ s.plat.berr then s
      else
        let s := modPlat s (fun p => { p with bundle := some b })
        let s := bringUpStep b 3 (fun s =>
          let s := loadImage s 3 1 b.root
          -- the per-boot KEM key is signed with the first leaf
          if s.plat.berr then s else modPlat (newTree s) (fun p => { p with leaves := p.leaves + bit (!p.exhausted), step := 3 })) s
        let s := startDies b s
        if s.plat.berr then s else startFirmware (placeImage s b.root) 516 b.root.base
    | _ => s)

/-- PWRCMD_RUN: out of self-refresh; out of power-off, bring-up is repeated from the die controllers' start. -/
def execPwrcmdRun (s : State) : Host.Outcome State Fault Refusal :=
  .next (if workPending s then setPerr s
    else
      match s.plat.pwrcmd, s.plat.bundle with
      | 2, some b =>
        -- the root processor has run on
        let s := startDies b (modPlat s (fun p => { p with pwrcmd := 0 }))
        if s.plat.berr then s else placeImage s b.root
      | _, _ => modPlat s (fun p => { p with pwrcmd := 0 }))

end Sys2Proof.Machine
end

