-- ==== Sys2Proof/Machine/Dispatch.lean ====
section
/-! DEFINITION. The meaning of every row of the opcode table: one arm per constructor. -/

namespace Sys2Proof.Machine

/-- What an instruction or an event does. -/
def exec (i : Instr) (s : State) : Host.Outcome State Fault Refusal :=
  match i with
  | .bra o => Sys2Proof.Machine.execBra o s
  | .brx a m => Sys2Proof.Machine.execBrx a m s
  | .call o => Sys2Proof.Machine.execCall o s
  | .brk imm => Sys2Proof.Machine.execBrk imm s
  | .trap imm => Sys2Proof.Machine.execTrap imm s
  | .joinEnrol k => Sys2Proof.Machine.execJoinEnrol k s
  | .joinWait k => Sys2Proof.Machine.execJoinWait k s
  | .joinStrike k => Sys2Proof.Machine.execJoinStrike k s
  | .joinClr k => Sys2Proof.Machine.execJoinClr k s
  | .joinRd d k m => Sys2Proof.Machine.execJoinRd d k m s
  | .barInit k a => Sys2Proof.Machine.execBarInit k a s
  | .barArrive k r => Sys2Proof.Machine.execBarArrive k r s
  | .barArriveFinisher p k r => Sys2Proof.Machine.execBarArriveFinisher p k r s
  | .barWaitImm k h => Sys2Proof.Machine.execBarWaitImm k h s
  | .barWaitReg k a => Sys2Proof.Machine.execBarWaitReg k a s
  | .barSync k => Sys2Proof.Machine.execBarSync k s
  | .barSyncFinisher p k => Sys2Proof.Machine.execBarSyncFinisher p k s
  | .barExpect k a => Sys2Proof.Machine.execBarExpect k a s
  | .barRd d k s1 => Sys2Proof.Machine.execBarRd d k s1 s
  | .tagWaitAll k => Sys2Proof.Machine.execTagWaitAll k s
  | .tagWaitAny k => Sys2Proof.Machine.execTagWaitAny k s
  | .tagFfr d k => Sys2Proof.Machine.execTagFfr d k s
  | .tagClr k => Sys2Proof.Machine.execTagClr k s
  | .tagRd d h => Sys2Proof.Machine.execTagRd d h s
  | .ringInit k a => Sys2Proof.Machine.execRingInit k a s
  | .ringWaitFull d k => Sys2Proof.Machine.execRingWaitFull d k s
  | .ringWaitFree d k => Sys2Proof.Machine.execRingWaitFree d k s
  | .ringCommit k => Sys2Proof.Machine.execRingCommit k s
  | .ringFree k => Sys2Proof.Machine.execRingFree k s
  | .ringRd d k s1 => Sys2Proof.Machine.execRingRd d k s1 s
  | .convDecl k a => Sys2Proof.Machine.execConvDecl k a s
  | .convXdecl k a => Sys2Proof.Machine.execConvXdecl k a s
  | .convRd d k s1 => Sys2Proof.Machine.execConvRd d k s1 s
  | .tktWait a b n => Sys2Proof.Machine.execTktWait a b n s
  | .tktPass a => Sys2Proof.Machine.execTktPass a s
  | .xbarArrive d k => Sys2Proof.Machine.execXbarArrive d k s
  | .xbarWaitImm k h => Sys2Proof.Machine.execXbarWaitImm k h s
  | .xbarWaitReg k a => Sys2Proof.Machine.execXbarWaitReg k a s
  | .launch d a => Sys2Proof.Machine.execLaunch d a s
  | .evtWait a m b n => Sys2Proof.Machine.execEvtWait a m b n s
  | .iaddI32 d a m b n => Sys2Proof.Machine.execIaddI32 d a m b n s
  | .iaddI64 d a m b n => Sys2Proof.Machine.execIaddI64 d a m b n s
  | .isubI32 d a m b n => Sys2Proof.Machine.execIsubI32 d a m b n s
  | .isubI64 d a m b n => Sys2Proof.Machine.execIsubI64 d a m b n s
  | .imulI32 d a m b n => Sys2Proof.Machine.execImulI32 d a m b n s
  | .imulhI32 d a m b n => Sys2Proof.Machine.execImulhI32 d a m b n s
  | .imulhN32 d a m b n => Sys2Proof.Machine.execImulhN32 d a m b n s
  | .imadI32 d a m b n => Sys2Proof.Machine.execImadI32 d a m b n s
  | .iaddc d a m b n => Sys2Proof.Machine.execIaddc d a m b n s
  | .iminI32 d a m b n => Sys2Proof.Machine.execIminI32 d a m b n s
  | .iminN32 d a m b n => Sys2Proof.Machine.execIminN32 d a m b n s
  | .imaxI32 d a m b n => Sys2Proof.Machine.execImaxI32 d a m b n s
  | .imaxN32 d a m b n => Sys2Proof.Machine.execImaxN32 d a m b n s
  | .iabsI32 d a m => Sys2Proof.Machine.execIabsI32 d a m s
  | .imulwN32 d a m b n => Sys2Proof.Machine.execImulwN32 d a m b n s
  | .land d a m b n => Sys2Proof.Machine.execLand d a m b n s
  | .lor d a m b n => Sys2Proof.Machine.execLor d a m b n s
  | .lxor d a m b n => Sys2Proof.Machine.execLxor d a m b n s
  | .andn d a m b n => Sys2Proof.Machine.execAndn d a m b n s
  | .shl d a m b n => Sys2Proof.Machine.execShl d a m b n s
  | .shr d a m b n => Sys2Proof.Machine.execShr d a m b n s
  | .sar d a m b n => Sys2Proof.Machine.execSar d a m b n s
  | .rotl d a m b n => Sys2Proof.Machine.execRotl d a m b n s
  | .popc d a m => Sys2Proof.Machine.execPopc d a m s
  | .clz d a m => Sys2Proof.Machine.execClz d a m s
  | .brev d a m => Sys2Proof.Machine.execBrev d a m s
  | .bfx d a m pos len sg => Sys2Proof.Machine.execBfx d a m pos len sg s
  | .bfi d a m pos len => Sys2Proof.Machine.execBfi d a m pos len s
  | .iaddi d a m imm => Sys2Proof.Machine.execIaddi d a m imm s
  | .andi d a m imm => Sys2Proof.Machine.execAndi d a m imm s
  | .ori d a m imm => Sys2Proof.Machine.execOri d a m imm s
  | .xori d a m imm => Sys2Proof.Machine.execXori d a m imm s
  | .shli d a m imm => Sys2Proof.Machine.execShli d a m imm s
  | .shri d a m imm => Sys2Proof.Machine.execShri d a m imm s
  | .sari d a m imm => Sys2Proof.Machine.execSari d a m imm s
  | .movi d imm => Sys2Proof.Machine.execMovi d imm s
  | .icmpI32 p c a m b n => Sys2Proof.Machine.execIcmpI32 p c a m b n s
  | .icmpN32 p c a m b n => Sys2Proof.Machine.execIcmpN32 p c a m b n s
  | .icmpI64 p c a m b n => Sys2Proof.Machine.execIcmpI64 p c a m b n s
  | .fcmpF32 p c a m b n => Sys2Proof.Machine.execFcmpF32 p c a m b n s
  | .fcmpF64 p c a m b n => Sys2Proof.Machine.execFcmpF64 p c a m b n s
  | .plog p f q s1 => Sys2Proof.Machine.execPlog p f q s1 s
  | .sel d a m b n p => Sys2Proof.Machine.execSel d a m b n p s
  | .pmovVp a m => Sys2Proof.Machine.execPmovVp a m s
  | .pmovPv d => Sys2Proof.Machine.execPmovPv d s
  | .mov d a m => Sys2Proof.Machine.execMov d a m s
  | .movl d lit => Sys2Proof.Machine.execMovl d lit s
  | .qset q a m => Sys2Proof.Machine.execQset q a m s
  | .qget d q => Sys2Proof.Machine.execQget d q s
  | .permSet t a m => Sys2Proof.Machine.execPermSet t a m s
  | .shfl d a b n => Sys2Proof.Machine.execShfl d a b n s
  | .shfl16 d a s1 t => Sys2Proof.Machine.execShfl16 d a s1 t s
  | .voteAny p q => Sys2Proof.Machine.execVoteAny p q s
  | .voteAll p q => Sys2Proof.Machine.execVoteAll p q s
  | .voteBallot q d => Sys2Proof.Machine.execVoteBallot q d s
  | .idr d s1 => Sys2Proof.Machine.execIdr d s1 s
  | .faddF32 d a m b n => Sys2Proof.Machine.execFaddF32 d a m b n s
  | .faddF64 d a m b n => Sys2Proof.Machine.execFaddF64 d a m b n s
  | .faddH2 d a m b n => Sys2Proof.Machine.execFaddH2 d a m b n s
  | .faddB2 d a m b n => Sys2Proof.Machine.execFaddB2 d a m b n s
  | .fsubF32 d a m b n => Sys2Proof.Machine.execFsubF32 d a m b n s
  | .fsubF64 d a m b n => Sys2Proof.Machine.execFsubF64 d a m b n s
  | .fmulF32 d a m b n => Sys2Proof.Machine.execFmulF32 d a m b n s
  | .fmulF64 d a m b n => Sys2Proof.Machine.execFmulF64 d a m b n s
  | .fmulH2 d a m b n => Sys2Proof.Machine.execFmulH2 d a m b n s
  | .fmulB2 d a m b n => Sys2Proof.Machine.execFmulB2 d a m b n s
  | .ffmaF32 d a m b n => Sys2Proof.Machine.execFfmaF32 d a m b n s
  | .ffmaF64 d a m b n => Sys2Proof.Machine.execFfmaF64 d a m b n s
  | .ffmaH2 d a m b n => Sys2Proof.Machine.execFfmaH2 d a m b n s
  | .ffmaB2 d a m b n => Sys2Proof.Machine.execFfmaB2 d a m b n s
  | .ffmalF32 d a m b n c k rm => Sys2Proof.Machine.execFfmalF32 d a m b n c k rm s
  | .ffmalF64 d a m b n c k rm => Sys2Proof.Machine.execFfmalF64 d a m b n c k rm s
  | .fminF32 d a m b n => Sys2Proof.Machine.execFminF32 d a m b n s
  | .fminF64 d a m b n => Sys2Proof.Machine.execFminF64 d a m b n s
  | .fmaxF32 d a m b n => Sys2Proof.Machine.execFmaxF32 d a m b n s
  | .fmaxF64 d a m b n => Sys2Proof.Machine.execFmaxF64 d a m b n s
  | .fsgn d a m b n ty f => Sys2Proof.Machine.execFsgn d a m b n ty f s
  | .frcp d a m => Sys2Proof.Machine.execFrcp d a m s
  | .frsq d a m => Sys2Proof.Machine.execFrsq d a m s
  | .fsqrt d a m => Sys2Proof.Machine.execFsqrt d a m s
  | .fexp2 d a m => Sys2Proof.Machine.execFexp2 d a m s
  | .flog2 d a m => Sys2Proof.Machine.execFlog2 d a m s
  | .fsin d a m => Sys2Proof.Machine.execFsin d a m s
  | .fcos d a m => Sys2Proof.Machine.execFcos d a m s
  | .cvt d a m fd fs rm sat => Sys2Proof.Machine.execCvt d a m fd fs rm sat s
  | .pack d a m b n q fd rm sat => Sys2Proof.Machine.execPack d a m b n q fd rm sat s
  | .unpack d a m q fs rm hi => Sys2Proof.Machine.execUnpack d a m q fs rm hi s
  | .amax d a => Sys2Proof.Machine.execAmax d a s
  | .amaxQuad d a => Sys2Proof.Machine.execAmaxQuad d a s
  | .scaleFit d a p s1 m => Sys2Proof.Machine.execScaleFit d a p s1 m s
  | .normAcc k a => Sys2Proof.Machine.execNormAcc k a s
  | .normChk p k => Sys2Proof.Machine.execNormChk p k s
  | .hcnt d => Sys2Proof.Machine.execHcnt d s
  | .hchk p => Sys2Proof.Machine.execHchk p s
  | .ixSet x a m => Sys2Proof.Machine.execIxSet x a m s
  | .ixLd d x k => Sys2Proof.Machine.execIxLd d x k s
  | .ixSt s1 x k => Sys2Proof.Machine.execIxSt s1 x k s
  | .ixRd d x => Sys2Proof.Machine.execIxRd d x s
  | .ldB8 d a o => Sys2Proof.Machine.execLdB8 d a o s
  | .ldI8 d a o => Sys2Proof.Machine.execLdI8 d a o s
  | .ldB16 d a o => Sys2Proof.Machine.execLdB16 d a o s
  | .ldI16 d a o => Sys2Proof.Machine.execLdI16 d a o s
  | .ldB32 d a o => Sys2Proof.Machine.execLdB32 d a o s
  | .ldB64 d a o => Sys2Proof.Machine.execLdB64 d a o s
  | .ldB128 d a o => Sys2Proof.Machine.execLdB128 d a o s
  | .stB8 s1 a o => Sys2Proof.Machine.execStB8 s1 a o s
  | .stB16 s1 a o => Sys2Proof.Machine.execStB16 s1 a o s
  | .stB32 s1 a o => Sys2Proof.Machine.execStB32 s1 a o s
  | .stB64 s1 a o => Sys2Proof.Machine.execStB64 s1 a o s
  | .stB128 s1 a o => Sys2Proof.Machine.execStB128 s1 a o s
  | .ldAcq d a o sc sg z => Sys2Proof.Machine.execLdAcq d a o sc sg z s
  | .stRel s1 a o sc z => Sys2Proof.Machine.execStRel s1 a o sc z s
  | .atom d a b n ty sc r op => Sys2Proof.Machine.execAtom d a b n ty sc r op s
  | .atomCas d a b n c k ty sc => Sys2Proof.Machine.execAtomCas d a b n c k ty sc s
  | .lbw d a z o => Sys2Proof.Machine.execLbw d a z o s
  | .lba d a z o => Sys2Proof.Machine.execLba d a z o s
  | .lbc d a z o => Sys2Proof.Machine.execLbc d a z o s
  | .lbs d a z o => Sys2Proof.Machine.execLbs d a z o s
  | .sba s1 a z o => Sys2Proof.Machine.execSba s1 a z o s
  | .sbc s1 a z o => Sys2Proof.Machine.execSbc s1 a z o s
  | .sbs s1 a z o => Sys2Proof.Machine.execSbs s1 a z o s
  | .lbx d a o core buf z => Sys2Proof.Machine.execLbx d a o core buf z s
  | .fence s1 => Sys2Proof.Machine.execFence s1 s
  | .pref a l => Sys2Proof.Machine.execPref a l s
  | .mfmt k q => Sys2Proof.Machine.execMfmt k q s
  | .mma c x a y b r => Sys2Proof.Machine.execMma c x a y b r s
  | .mmz c x a y b r => Sys2Proof.Machine.execMmz c x a y b r s
  | .mmp c x a y b r => Sys2Proof.Machine.execMmp c x a y b r s
  | .mmaCl c x a y b r => Sys2Proof.Machine.execMmaCl c x a y b r s
  | .mmzCl c x a y b r => Sys2Proof.Machine.execMmzCl c x a y b r s
  | .mmpCl c x a y b r => Sys2Proof.Machine.execMmpCl c x a y b r s
  | .accLd c a b r => Sys2Proof.Machine.execAccLd c a b r s
  | .accSt a b r => Sys2Proof.Machine.execAccSt a b r s
  | .accClr c n r => Sys2Proof.Machine.execAccClr c n r s
  | .accCp c t n r => Sys2Proof.Machine.execAccCp c t n r s
  | .mfence k => Sys2Proof.Machine.execMfence k s
  | .mhealth d r => Sys2Proof.Machine.execMhealth d r s
  | .cpaB32 d a x na kind => Sys2Proof.Machine.execCpaB32 d a x na kind s
  | .cpaB64 d a x na kind => Sys2Proof.Machine.execCpaB64 d a x na kind s
  | .cpaB128 d a x na kind => Sys2Proof.Machine.execCpaB128 d a x na kind s
  | .tcp d a b x na kind => Sys2Proof.Machine.execTcp d a b x na kind s
  | .tcpColl a x na kind => Sys2Proof.Machine.execTcpColl a x na kind s
  | .cpeRun d a b => Sys2Proof.Machine.execCpeRun d a b s
  | .cpeStop a => Sys2Proof.Machine.execCpeStop a s
  | .cpeRd d a s1 => Sys2Proof.Machine.execCpeRd d a s1 s
  | .publish d a m => Sys2Proof.Machine.execPublish d a m s
  | .bmtRd d a m w => Sys2Proof.Machine.execBmtRd d a m w s
  | .send a => Sys2Proof.Machine.execSend a s
  | .recvPost d a => Sys2Proof.Machine.execRecvPost d a s
  | .recvCancel d a m => Sys2Proof.Machine.execRecvCancel d a m s
  | .recvProbe d a => Sys2Proof.Machine.execRecvProbe d a s
  | .sysrd d r => Sys2Proof.Machine.execSysrd d r s
  | .syswr a r => Sys2Proof.Machine.execSyswr a r s
  | .ecnt d => Sys2Proof.Machine.execEcnt d s
  | .clkRd d => Sys2Proof.Machine.execClkRd d s
  | .tlbInvPage a => Sys2Proof.Machine.execTlbInvPage a s
  | .bmtSet a m b => Sys2Proof.Machine.execBmtSet a m b s
  | .parkCtlResume d a => Sys2Proof.Machine.execParkCtlResume d a s
  | .parkCtlKill d a => Sys2Proof.Machine.execParkCtlKill d a s
  | .parkCtlStop d a => Sys2Proof.Machine.execParkCtlStop d a s
  | .dbgSel a => Sys2Proof.Machine.execDbgSel a s
  | .dbgStep a => Sys2Proof.Machine.execDbgStep a s
  | .perfRd d s1 => Sys2Proof.Machine.execPerfRd d s1 s
  | .cacheOpL2wb a => Sys2Proof.Machine.execCacheOpL2wb a s
  | .cacheOpL2key a => Sys2Proof.Machine.execCacheOpL2key a s
  | .tokRd d => Sys2Proof.Machine.execTokRd d s
  | .faultRd d a => Sys2Proof.Machine.execFaultRd d a s
  | .ceAdd d a b => Sys2Proof.Machine.execCeAdd d a b s
  | .ceSub d a b => Sys2Proof.Machine.execCeSub d a b s
  | .ceMul d a b => Sys2Proof.Machine.execCeMul d a b s
  | .ceMadd d a b => Sys2Proof.Machine.execCeMadd d a b s
  | .ceAnd d a b => Sys2Proof.Machine.execCeAnd d a b s
  | .ceOr d a b => Sys2Proof.Machine.execCeOr d a b s
  | .ceXor d a b => Sys2Proof.Machine.execCeXor d a b s
  | .ceShl d a b => Sys2Proof.Machine.execCeShl d a b s
  | .ceShr d a b => Sys2Proof.Machine.execCeShr d a b s
  | .ceAddi d a imm => Sys2Proof.Machine.execCeAddi d a imm s
  | .ceLui d a imm => Sys2Proof.Machine.execCeLui d a imm s
  | .ceOri d a imm => Sys2Proof.Machine.execCeOri d a imm s
  | .ceMin d a b => Sys2Proof.Machine.execCeMin d a b s
  | .ceMax d a b => Sys2Proof.Machine.execCeMax d a b s
  | .ceBeq a b o => Sys2Proof.Machine.execCeBeq a b o s
  | .ceBne a b o => Sys2Proof.Machine.execCeBne a b o s
  | .ceBlt a b o => Sys2Proof.Machine.execCeBlt a b o s
  | .ceBge a b o => Sys2Proof.Machine.execCeBge a b o s
  | .ceJmp a o => Sys2Proof.Machine.execCeJmp a o s
  | .ceLoopSet n a imm => Sys2Proof.Machine.execCeLoopSet n a imm s
  | .ceLoopEnd n o => Sys2Proof.Machine.execCeLoopEnd n o s
  | .ceLdi d a imm => Sys2Proof.Machine.execCeLdi d a imm s
  | .ceLdi64 d a imm => Sys2Proof.Machine.execCeLdi64 d a imm s
  | .ceStw d a imm => Sys2Proof.Machine.execCeStw d a imm s
  | .ceTadr d a b => Sys2Proof.Machine.execCeTadr d a b s
  | .ceTnext d a b => Sys2Proof.Machine.execCeTnext d a b s
  | .ceMv d a b n => Sys2Proof.Machine.execCeMv d a b n s
  | .ceMvt d a b n => Sys2Proof.Machine.execCeMvt d a b n s
  | .ceGat d a b n => Sys2Proof.Machine.execCeGat d a b n s
  | .ceScat d a b n => Sys2Proof.Machine.execCeScat d a b n s
  | .ceArr n a => Sys2Proof.Machine.execCeArr n a s
  | .ceTagset t => Sys2Proof.Machine.execCeTagset t s
  | .ceRingCommit n => Sys2Proof.Machine.execCeRingCommit n s
  | .ceRingWait d n => Sys2Proof.Machine.execCeRingWait d n s
  | .cePublish a => Sys2Proof.Machine.execCePublish a s
  | .nop => Sys2Proof.Machine.execNop s
  | .ret => Sys2Proof.Machine.execRet s
  | .exit => Sys2Proof.Machine.execExit s
  | .yld => Sys2Proof.Machine.execYld s
  | .l1Inv => Sys2Proof.Machine.execL1Inv s
  | .mwait => Sys2Proof.Machine.execMwait s
  | .eret => Sys2Proof.Machine.execEret s
  | .tlbInvCtx => Sys2Proof.Machine.execTlbInvCtx s
  | .tlbInvAll => Sys2Proof.Machine.execTlbInvAll s
  | .halt => Sys2Proof.Machine.execHalt s
  | .cacheOpIinv => Sys2Proof.Machine.execCacheOpIinv s
  | .cacheOpDinv => Sys2Proof.Machine.execCacheOpDinv s
  | .cacheOpL2all => Sys2Proof.Machine.execCacheOpL2all s
  | .ceHalt => Sys2Proof.Machine.execCeHalt s
  | .ceWfb => Sys2Proof.Machine.execCeWfb s
  | .ceYieldctx => Sys2Proof.Machine.execCeYieldctx s
  | .qtailWrite => Sys2Proof.Machine.execQtailWrite s
  | .launchRecordSelection => Sys2Proof.Machine.execLaunchRecordSelection s
  | .launchAdmission => Sys2Proof.Machine.execLaunchAdmission s
  | .gangReservation => Sys2Proof.Machine.execGangReservation s
  | .gangCommit => Sys2Proof.Machine.execGangCommit s
  | .dLaunchPlacement => Sys2Proof.Machine.execDLaunchPlacement s
  | .preemption => Sys2Proof.Machine.execPreemption s
  | .regroup => Sys2Proof.Machine.execRegroup s
  | .clauseWaitRelease => Sys2Proof.Machine.execClauseWaitRelease s
  | .ifetchLineArrival => Sys2Proof.Machine.execIfetchLineArrival s
  | .convergenceTimeout => Sys2Proof.Machine.execConvergenceTimeout s
  | .loadDataReturn => Sys2Proof.Machine.execLoadDataReturn s
  | .remoteReply => Sys2Proof.Machine.execRemoteReply s
  | .remoteTimeout => Sys2Proof.Machine.execRemoteTimeout s
  | .storeQueueDeparture => Sys2Proof.Machine.execStoreQueueDeparture s
  | .homeSliceWrite => Sys2Proof.Machine.execHomeSliceWrite s
  | .storeAcknowledgement => Sys2Proof.Machine.execStoreAcknowledgement s
  | .atomicPerform => Sys2Proof.Machine.execAtomicPerform s
  | .remoteStoreAck => Sys2Proof.Machine.execRemoteStoreAck s
  | .orderedUpdateArrival => Sys2Proof.Machine.execOrderedUpdateArrival s
  | .barrierArrivalCount => Sys2Proof.Machine.execBarrierArrivalCount s
  | .ringUpdateApply => Sys2Proof.Machine.execRingUpdateApply s
  | .xbarArrivalCount => Sys2Proof.Machine.execXbarArrivalCount s
  | .laneBlockRetirement => Sys2Proof.Machine.execLaneBlockRetirement s
  | .workgroupRetirement => Sys2Proof.Machine.execWorkgroupRetirement s
  | .ticketForfeitPass => Sys2Proof.Machine.execTicketForfeitPass s
  | .launchCompletion => Sys2Proof.Machine.execLaunchCompletion s
  | .matrixOccupancyStart => Sys2Proof.Machine.execMatrixOccupancyStart s
  | .matrixOpCompletion => Sys2Proof.Machine.execMatrixOpCompletion s
  | .emulatedFormatTrap => Sys2Proof.Machine.execEmulatedFormatTrap s
  | .transferOpCompletion => Sys2Proof.Machine.execTransferOpCompletion s
  | .ceLineWrite => Sys2Proof.Machine.execCeLineWrite s
  | .ceCompletionTakesEffect => Sys2Proof.Machine.execCeCompletionTakesEffect s
  | .ceLdiReturn => Sys2Proof.Machine.execCeLdiReturn s
  | .publishPerform => Sys2Proof.Machine.execPublishPerform s
  | .publishCoreApply => Sys2Proof.Machine.execPublishCoreApply s
  | .sendCompletion => Sys2Proof.Machine.execSendCompletion s
  | .messageArrival => Sys2Proof.Machine.execMessageArrival s
  | .heldMessageReoffer => Sys2Proof.Machine.execHeldMessageReoffer s
  | .recvPostTaken => Sys2Proof.Machine.execRecvPostTaken s
  | .recvCancelHandled => Sys2Proof.Machine.execRecvCancelHandled s
  | .recvProbeResult => Sys2Proof.Machine.execRecvProbeResult s
  | .bulkGrant => Sys2Proof.Machine.execBulkGrant s
  | .deliveryCompletion => Sys2Proof.Machine.execDeliveryCompletion s
  | .deliveryFailure => Sys2Proof.Machine.execDeliveryFailure s
  | .collectiveSignatureArrival => Sys2Proof.Machine.execCollectiveSignatureArrival s
  | .collectiveBackWritten => Sys2Proof.Machine.execCollectiveBackWritten s
  | .collectiveAckArrival => Sys2Proof.Machine.execCollectiveAckArrival s
  | .collectiveHeartbeat => Sys2Proof.Machine.execCollectiveHeartbeat s
  | .memberLost => Sys2Proof.Machine.execMemberLost s
  | .collectiveTimeout => Sys2Proof.Machine.execCollectiveTimeout s
  | .flitReceive => Sys2Proof.Machine.execFlitReceive s
  | .linkRekey => Sys2Proof.Machine.execLinkRekey s
  | .planeQuiesce => Sys2Proof.Machine.execPlaneQuiesce s
  | .remapDrainExpiry => Sys2Proof.Machine.execRemapDrainExpiry s
  | .pmapWrite => Sys2Proof.Machine.execPmapWrite s
  | .remapResume => Sys2Proof.Machine.execRemapResume s
  | .activityInterval => Sys2Proof.Machine.execActivityInterval s
  | .powerDecision => Sys2Proof.Machine.execPowerDecision s
  | .operatingPointChange => Sys2Proof.Machine.execOperatingPointChange s
  | .energyCorrection => Sys2Proof.Machine.execEnergyCorrection s
  | .tradeRequestReceipt => Sys2Proof.Machine.execTradeRequestReceipt s
  | .tradeGrantReceipt => Sys2Proof.Machine.execTradeGrantReceipt s
  | .tradeAckReceipt => Sys2Proof.Machine.execTradeAckReceipt s
  | .tradeAbandonment => Sys2Proof.Machine.execTradeAbandonment s
  | .tokadjWrite => Sys2Proof.Machine.execTokadjWrite s
  | .tokrelWrite => Sys2Proof.Machine.execTokrelWrite s
  | .tempoExchange => Sys2Proof.Machine.execTempoExchange s
  | .tempoBoundary => Sys2Proof.Machine.execTempoBoundary s
  | .tclkSynchronisation => Sys2Proof.Machine.execTclkSynchronisation s
  | .plimitWrite => Sys2Proof.Machine.execPlimitWrite s
  | .pwrcmdRun => Sys2Proof.Machine.execPwrcmdRun s
  | .pwrcmdSelfRefresh => Sys2Proof.Machine.execPwrcmdSelfRefresh s
  | .pwrcmdPowerOff => Sys2Proof.Machine.execPwrcmdPowerOff s
  | .evcmdSet => Sys2Proof.Machine.execEvcmdSet s
  | .evcmdAdd => Sys2Proof.Machine.execEvcmdAdd s
  | .qcfgWrite => Sys2Proof.Machine.execQcfgWrite s
  | .oppListWrite => Sys2Proof.Machine.execOppListWrite s
  | .faultqWrite => Sys2Proof.Machine.execFaultqWrite s
  | .registerWrite => Sys2Proof.Machine.execRegisterWrite s
  | .hostWindowAccess => Sys2Proof.Machine.execHostWindowAccess s
  | .contextCreate => Sys2Proof.Machine.execContextCreate s
  | .contextDestroy => Sys2Proof.Machine.execContextDestroy s
  | .contextSwitch => Sys2Proof.Machine.execContextSwitch s
  | .attestationRequest => Sys2Proof.Machine.execAttestationRequest s
  | .kemEncapsulation => Sys2Proof.Machine.execKemEncapsulation s
  | .measurementExtend => Sys2Proof.Machine.execMeasurementExtend s
  | .firmwareBundlePlacement => Sys2Proof.Machine.execFirmwareBundlePlacement s
  | .resetRelease => Sys2Proof.Machine.execResetRelease s
  | .lowerTreeRegeneration => Sys2Proof.Machine.execLowerTreeRegeneration s
  | .pageRequestResponse => Sys2Proof.Machine.execPageRequestResponse s
  | .trapKernelStart => Sys2Proof.Machine.execTrapKernelStart s
  | .watchdogExpiry => Sys2Proof.Machine.execWatchdogExpiry s
  | .drainTimeout => Sys2Proof.Machine.execDrainTimeout s
  | .adjournment => Sys2Proof.Machine.execAdjournment s
  | .workgroupRestore => Sys2Proof.Machine.execWorkgroupRestore s
  | .memoryEccError => Sys2Proof.Machine.execMemoryEccError s
  | .transferLineWrite => Sys2Proof.Machine.execTransferLineWrite s
  | .lastCheckCompletion => Sys2Proof.Machine.execLastCheckCompletion s
  | .remoteRequestArrival => Sys2Proof.Machine.execRemoteRequestArrival s
  | .communicatorSetup => Sys2Proof.Machine.execCommunicatorSetup s
  | .powerLoss => Sys2Proof.Machine.execPowerLoss s

end Sys2Proof.Machine
end

