-- ==== Sys2Proof/Machine/Ready.lean ====
section
/-! DEFINITION. When an entry issues: what each instruction reads and writes, the scoreboard, partner waits, the room an instruction needs, the
checks of clause entry, fetching and decoding (R33 to R41, R52, R56 to R70, R138, R174, R240, R330). -/

namespace Sys2Proof.Machine

/-! What an instruction reads and writes (R39), and the room it needs (R61). -/

/-- The items an instruction names, its latencies, and the resources it takes. -/
structure Use where
  src : List Opnd := []
  /-- Destination registers, with their counts of words. -/
  dst : List (BitVec 6 × Nat) := []
  lat : Nat := 0
  psrc : List (BitVec 3) := []
  pdst : List (BitVec 3) := []
  /-- q registers read and written, pt tables, index registers read and written, format records written. -/
  q : List Nat := []
  qdst : List Nat := []
  ptdst : List Nat := []
  x : List Nat := []
  xdst : List Nat := []
  mfdst : List Nat := []
  /-- The norm watcher it updates (R174). -/
  watch : Option (BitVec 4) := none
  /-- Potentially faulting; potentially faulting when the launch traps invalid operations (R330, R147). -/
  pf : Bool := false
  fp : Bool := false
  /-- Sets flags of `FXS` or the health counters, or reads them. -/
  flags : Bool := false
  counts : Bool := false
  readsFlags : Bool := false
  readsCounts : Bool := false
  /-- Needs the squad's stores drained, a place of the store queue, of the transfer unit, of the collective engine, a context. -/
  drain : Bool := false
  /-- Publishes, or starts an engine: what follows from it happens after its threads' earlier loads (R218, R227). -/
  starts : Bool := false
  store : Bool := false
  /-- Writes a typed buffer at its issue. -/
  buf : Bool := false
  xfer : Bool := false
  coll : Bool := false
  run : Bool := false
  /-- Cycles to the quarter's next VEC issue (R174). -/
  gap : Nat := 1
  /-- Where in C it reads or writes (R182): the register that holds the offset, whether it is staged in slot b, an added offset. -/
  tile : Option (BitVec 6 × Bool × Int) := none
  /-- The convergence register it signs. -/
  sign : Option (BitVec 3) := none
  deriving DecidableEq, Repr

/-- Two sources and one; `wd` words of destination, `ws` of each source. -/
def two (d a : BitVec 6) (m : BitVec 2) (b : BitVec 6) (n : BitVec 2) (wd ws lat : Nat) : Use :=
  { src := [⟨a, m, ws⟩, ⟨b, n, ws⟩], dst := [(d, wd)], lat := lat }
def one (d a : BitVec 6) (m : BitVec 2) (wd ws lat : Nat) : Use := { src := [⟨a, m, ws⟩], dst := [(d, wd)], lat := lat }

/-- The q pair of a descriptor operand. -/
def descItems (x : BitVec 1) (a : BitVec 6) : List Nat := if x = 1 then [a.toNat, a.toNat + 1] else []
/-- A matrix operation. -/
def mat (c : BitVec 3) (x : BitVec 1) (a : BitVec 6) (y : BitVec 1) (b : BitVec 6) : Use :=
  { q := descItems x a ++ descItems y b, pf := x == 1 || y == 1, sign := some c }

/-- What an instruction uses. Where the spec gives the destination of an instruction no latency (ring waits, `launch`, `park.ctl`, `fault.rd`), it is the
integer latency, 4 cycles (log entry 17). Those not named read and write nothing that is tracked. -/
def usesOf (i : Instr) : Use :=
  match i with
  | .brx a m => { src := [⟨a, m, 2⟩] }
  | .ret => { src := [own 62 2] }
  | .call _ => { dst := [(62, 2)], lat := 4 }
  | .joinRd d _ _ | .barRd d _ _ | .tagRd d _ | .ringRd d _ _ | .convRd d _ _ => { dst := [(d, 1)], lat := 4 }
  | .barInit _ a | .barWaitReg _ a | .barExpect _ a | .ringInit _ a | .xbarWaitReg _ a | .convDecl _ a | .convXdecl _ a => { src := [own a 1] }
  | .barArriveFinisher p _ _ | .barSyncFinisher p _ => { pdst := [p] }
  | .tagWaitAll k | .tagWaitAny k | .tagClr k => { q := [2 * k.toNat, 2 * k.toNat + 1] }
  | .tagFfr d k => { dst := [(d, 1)], q := [2 * k.toNat, 2 * k.toNat + 1], lat := 4 }
  | .ringWaitFull d _ | .ringWaitFree d _ | .xbarArrive d _ => { dst := [(d, 1)], lat := 4 }
  | .tktWait a b n => { src := [own a 2, ⟨b, n, 1⟩], pf := true }
  | .tktPass a => { src := [own a 2], pf := true, drain := true }
  | .launch d a => { src := [own a 2], dst := [(d, 1)], pf := true, drain := true, lat := 4 }
  | .evtWait a m b n => { src := [⟨a, m, 1⟩, ⟨b, n, 1⟩], pf := true }
  | .iaddI32 d a m b n | .isubI32 d a m b n | .iminI32 d a m b n | .iminN32 d a m b n | .imaxI32 d a m b n | .imaxN32 d a m b n |
     .land d a m b n | .lor d a m b n | .lxor d a m b n | .andn d a m b n | .shl d a m b n | .shr d a m b n | .sar d a m b n | .rotl d a m b n =>
    two d a m b n 1 1 4
  | .iaddI64 d a m b n | .isubI64 d a m b n => two d a m b n 2 2 6
  | .imulI32 d a m b n | .imulhI32 d a m b n | .imulhN32 d a m b n => two d a m b n 1 1 6
  | .imulwN32 d a m b n => two d a m b n 2 1 6
  | .imadI32 d a m b n => { two d a m b n 1 1 6 with src := [own d 1, ⟨a, m, 1⟩, ⟨b, n, 1⟩] }
  | .iaddc d a m b n => { two d a m b n 1 1 4 with psrc := [6], pdst := [6] }
  | .sel d a m b n p => { two d a m b n 1 1 4 with psrc := [p] }
  | .iabsI32 d a m | .popc d a m | .clz d a m | .brev d a m | .iaddi d a m _ | .andi d a m _ | .ori d a m _ | .xori d a m _ | .shli d a m _ |
     .shri d a m _ | .sari d a m _ | .mov d a m | .bfx d a m _ _ _ => one d a m 1 1 4
  | .bfi d a m _ _ => { one d a m 1 1 4 with src := [own d 1, ⟨a, m, 1⟩] }
  | .movi d _ | .movl d _ | .idr d _ => { dst := [(d, 1)], lat := 4 }
  | .icmpI32 p _ a m b n | .icmpN32 p _ a m b n => { src := [⟨a, m, 1⟩, ⟨b, n, 1⟩], pdst := [p], lat := 4 }
  | .icmpI64 p _ a m b n => { src := [⟨a, m, 2⟩, ⟨b, n, 2⟩], pdst := [p], lat := 6 }
  | .plog p _ q s => { psrc := [q, s], pdst := [p], lat := 4 }
  | .pmovVp a m => { src := [⟨a, m, 1⟩], pdst := [0, 1, 2, 3, 4, 5, 6], lat := 4 }
  | .pmovPv d => { psrc := [0, 1, 2, 3, 4, 5, 6], dst := [(d, 1)], lat := 4 }
  | .qset q a m => { src := [⟨a, m, 1⟩], qdst := [q.toNat], lat := 4 }
  | .qget d q => { dst := [(d, 1)], q := [q.toNat], lat := 4 }
  | .permSet t a m => { src := [⟨a, m, 1⟩], ptdst := [t.toNat], lat := 4 }
  | .shfl d a b n => { src := [own a 1, ⟨b, n, 1⟩], dst := [(d, 1)], lat := 6 }
  | .shfl16 d a _ _ => { src := [own a 1], dst := [(d, 1)], lat := 6 }
  | .voteAny p q | .voteAll p q => { psrc := [q], pdst := [p], lat := 6 }
  | .voteBallot q d => { psrc := [q], dst := [(d, 1)], lat := 6 }
  | .ixSet x a m => { src := [⟨a, m, 1⟩], xdst := [x.toNat], lat := 4 }
  | .ixRd d x => { x := [x.toNat], dst := [(d, 1)], lat := 4 }
  | .ixLd d x _ => { x := [x.toNat], dst := [(d, 1)], lat := 6, pf := true }
  | .ixSt s x _ => { x := [x.toNat], src := [own s 1], pf := true }
  | .faddF32 d a m b n | .faddH2 d a m b n | .faddB2 d a m b n | .fsubF32 d a m b n | .fmulF32 d a m b n | .fmulH2 d a m b n |
     .fmulB2 d a m b n => { two d a m b n 1 1 6 with fp := true, flags := true }
  | .ffmaF32 d a m b n | .ffmaH2 d a m b n | .ffmaB2 d a m b n =>
    { two d a m b n 1 1 6 with src := [own d 1, ⟨a, m, 1⟩, ⟨b, n, 1⟩], fp := true, flags := true }
  | .faddF64 d a m b n | .fsubF64 d a m b n | .fmulF64 d a m b n => { two d a m b n 2 2 10 with fp := true, flags := true, gap := 2 }
  | .ffmaF64 d a m b n => { two d a m b n 2 2 10 with src := [own d 2, ⟨a, m, 2⟩, ⟨b, n, 2⟩], fp := true, flags := true, gap := 2 }
  | .ffmalF32 d a m b n c k _ => { two d a m b n 1 1 6 with src := [⟨a, m, 1⟩, ⟨b, n, 1⟩, ⟨c, k, 1⟩], fp := true, flags := true }
  | .ffmalF64 d a m b n c k _ => { two d a m b n 2 2 10 with src := [⟨a, m, 2⟩, ⟨b, n, 2⟩, ⟨c, k, 2⟩], fp := true, flags := true, gap := 2 }
  | .fminF32 d a m b n | .fmaxF32 d a m b n => { two d a m b n 1 1 4 with fp := true, flags := true }
  | .fminF64 d a m b n | .fmaxF64 d a m b n => { two d a m b n 2 2 4 with fp := true, flags := true }
  | .fsgn d a m b n ty f =>
    let w := if ty = 1 then 2 else 1
    { dst := [(d, w)], src := ⟨a, m, w⟩ :: (if f = 2 then [⟨b, n, w⟩] else []), lat := 4 }
  | .fcmpF32 p _ a m b n => { src := [⟨a, m, 1⟩, ⟨b, n, 1⟩], pdst := [p], lat := 4, fp := true, flags := true }
  | .fcmpF64 p _ a m b n => { src := [⟨a, m, 2⟩, ⟨b, n, 2⟩], pdst := [p], lat := 6, fp := true, flags := true, gap := 2 }
  | .frcp d a m | .frsq d a m | .fsqrt d a m | .fexp2 d a m | .flog2 d a m | .fsin d a m | .fcos d a m =>
    { one d a m 1 1 18 with fp := true, flags := true, gap := 4 }
  | .cvt d a m fd fs _ _ =>
    let wide := fd == 1 || fs == 1
    { one d a m (codeWords fd.toNat) (codeWords fs.toNat) (if wide then 10 else 6) with fp := true, flags := true, gap := if wide then 2 else 1 }
  | .pack d a m b n q fd _ _ =>
    let w := codeBits fd.toNat
    { src := ⟨a, m, if w = 16 then 2 else 4⟩ :: (if w = 4 then [⟨b, n, 4⟩] else []), dst := [(d, 1)], q := [q.toNat], counts := true, lat := 8
      fp := true, flags := true, gap := 2 }
  | .unpack d a m q fs _ _ =>
    { one d a m (if codeBits fs.toNat = 16 then 2 else 4) 1 8 with q := [q.toNat], fp := true, flags := true, gap := 2 }
  | .amax d a => { src := [own a 1], dst := [(d, 1)], lat := 8 }
  | .amaxQuad d a => { src := [own a 4], dst := [(d, 1)], lat := 8 }
  | .scaleFit d a p _ _ => { src := [own d 1, own a 1], dst := [(d, 1)], pdst := [p], lat := 10, fp := true, flags := true }
  | .normAcc k a => { src := [own a 1], watch := some k, lat := 4 }
  | .normChk p k => { pdst := [p], watch := some k, lat := 4 }
  | .hcnt d => { dst := [(d, 1)], readsCounts := true, counts := true, lat := 4 }
  | .hchk p => { pdst := [p], readsCounts := true, counts := true, lat := 4 }
  | .ldB8 d a _ | .ldI8 d a _ | .ldB16 d a _ | .ldI16 d a _ | .ldB32 d a _ => { src := [own a 2], dst := [(d, 1)], pf := true }
  | .ldB64 d a _ => { src := [own a 2], dst := [(d, 2)], pf := true }
  | .ldB128 d a _ => { src := [own a 2], dst := [(d, 4)], pf := true }
  | .stB8 s a _ | .stB16 s a _ | .stB32 s a _ => { src := [own a 2, own s 1], pf := true, store := true }
  | .stB64 s a _ => { src := [own a 2, own s 2], pf := true, store := true }
  | .stB128 s a _ => { src := [own a 2, own s 4], pf := true, store := true }
  | .ldAcq d a _ _ _ z => { src := [own a 2], dst := [(d, regWords (2 ^ z.toNat))], pf := true }
  | .stRel s a _ _ z => { src := [own a 2, own s (regWords (2 ^ z.toNat))], pf := true, store := true }
  | .atom d a b n ty _ r _ =>
    let w := atomBytes ty / 4
    { src := [own a 2, ⟨b, n, w⟩], dst := if r = 1 then [(d, w)] else [], pf := true, store := true }
  | .atomCas d a b n c k ty _ =>
    let w := atomBytes ty / 4
    { src := [own a 2, ⟨b, n, w⟩, ⟨c, k, w⟩], dst := [(d, w)], pf := true, store := true }
  | .lbw d a z _ | .lba d a z _ | .lbs d a z _ => { src := [own a 1], dst := [(d, regWords (bufSize z))], pf := true }
  | .lbc d a z o => { src := [own a 1], dst := [(d, regWords (bufSize z))], pf := true, tile := some (a, false, o.toInt * bufSize z) }
  | .lbx d a _ _ _ z => { src := [own a 1], dst := [(d, regWords (bufSize z))], pf := true }
  | .sba s a z _ => { src := [own a 1, own s (regWords (bufSize z))], pf := true, buf := true }
  | .sbs s a z _ => { src := [own a 1, own s (regWords (bufSize z))], pf := true, store := true }
  | .sbc s a z o => { src := [own a 1, own s (regWords (bufSize z))], pf := true, buf := true, tile := some (a, false, o.toInt * bufSize z) }
  | .fence _ | .l1Inv => { pf := true }
  | .pref a _ => { src := [own a 2], pf := true }
  | .mfmt k q => { q := [2 * q.toNat, 2 * q.toNat + 1], mfdst := [k.toNat], lat := 4 }
  | .mma c x a y b _ | .mmz c x a y b _ | .mmp c x a y b _ | .mmaCl c x a y b _ | .mmzCl c x a y b _ | .mmpCl c x a y b _ => mat c x a y b
  | .accClr c _ _ | .accCp c _ _ _ => { sign := some c }
  | .accLd c a b r =>
    { src := [own b 1], dst := [(a, accWords c)], pf := true, flags := c != 0, lat := 28, tile := some (b, true, r.toNat * 8192) }
  | .accSt a b r => { src := [own a 4, own b 1], pf := true, tile := some (b, true, r.toNat * 8192) }
  | .mhealth d _ => { dst := [(d, 1)], lat := 4 }
  | .cpaB32 d a _ _ _ | .cpaB64 d a _ _ _ | .cpaB128 d a _ _ _ => { src := [own d 2, own a 2], pf := true, xfer := true, starts := true }
  | .tcp d a b _ _ _ => { src := [own d 2, own a 2, own b 8], pf := true, xfer := true, starts := true }
  | .tcpColl a _ _ _ => { src := [own a 2], pf := true, drain := true, coll := true }
  | .cpeRun d a b => { src := [own a 2, own b 2], dst := [(d, 1)], pf := true, run := true, lat := 4, starts := true }
  | .cpeStop a => { src := [own a 1], pf := true }
  | .cpeRd d a _ => { src := [own a 1], dst := [(d, 1)], pf := true, lat := 32 }
  | .publish d a m => { one d a m 1 1 0 with pf := true, starts := true }
  | .bmtRd d a m _ => { one d a m 1 1 32 with pf := true }
  | .send a => { src := [own a 2], pf := true, drain := true }
  | .recvPost d a => { src := [own a 2], dst := [(d, 1)], pf := true, drain := true }
  | .recvCancel d a m => { one d a m 1 1 0 with pf := true }
  | .recvProbe d a => { src := [own a 2], dst := [(d, 4)], pf := true }
  | .sysrd d r => { dst := [(d, sysWords r.toNat)], lat := if r = 7 ∨ r = 9 then 32 else 4, readsFlags := r == 2 }
  | .syswr a r => { src := [own a (sysWords r.toNat)], readsFlags := r == 2, flags := r == 2, lat := 4 }
  | .ecnt d => { dst := [(d, 2)], lat := 32 }
  | .tokRd d => { dst := [(d, 1)], lat := 32 }
  | .clkRd d | .perfRd d _ => { dst := [(d, 2)], lat := 8 }
  | .tlbInvPage a | .dbgStep a | .cacheOpL2wb a => { src := [own a 2] }
  | .dbgSel a | .cacheOpL2key a => { src := [own a 1] }
  | .bmtSet a m b => { src := [⟨a, m, 1⟩, own b 4] }
  | .parkCtlResume d a | .parkCtlKill d a | .parkCtlStop d a => { src := [own a 2], dst := [(d, 1)], lat := 4 }
  | .faultRd d a => { src := [own a 2], dst := [(d, 1)], lat := 4, store := true }
  | _ => {}

/-! The scoreboard (R39). -/

/-- The items of a register operand: its words in the lane block, and its permutation table. -/
def opndItems (lb : Nat) (o : Opnd) : List Nat :=
  (List.range o.n).map (fun i => itemV lb (o.r.toNat + i)) ++ (if o.m = 0 then [] else [itemPt o.m.toNat])

/-- The item of a norm watcher (R174). -/
def itemWatch (k : BitVec 4) : Nat := 4156 + k.toNat

/-- The items an instruction writes: those that a second write waits for, and the squad's own (q, pt, format records), which are written in issue
order without waiting (R123); those it reads, its guard among them. -/
def dstItems (lb : Nat) (u : Use) : List Nat :=
  u.dst.flatMap (fun d => opndItems lb (own d.1 d.2)) ++ u.pdst.map (fun p => itemP lb p.toNat) ++ u.xdst.map (fun x => itemX lb x)
    ++ u.watch.toList.map itemWatch
def orderedItems (u : Use) : List Nat := u.qdst.map itemQ ++ u.ptdst.map itemPt ++ u.mfdst.map itemMf
def srcItems (lb : Nat) (guard : BitVec 3) (u : Use) : List Nat :=
  u.src.flatMap (opndItems lb) ++ (guard :: u.psrc).map (fun p => itemP lb p.toNat) ++ u.q.map itemQ ++ u.x.map (fun x => itemX lb x)
    ++ (if u.readsFlags then [itemFxs] else []) ++ (if u.readsCounts then [itemCounters] else [])
    ++ (match u.sign with
        | some c => [itemMf c.toNat]
        | none => [])

/-- The item of an indexed word (R116): a v register's own, or the group's. -/
def itemWord (lb w : Nat) : Nat := if w < 64 then itemV lb w else itemGroup lb

/-- The words that an index instruction reaches, and whether it writes them. -/
def indexedItems (s : State) (u : Bundle) (i : Instr) : List Nat × Bool :=
  let words := fun (x : BitVec 2) (k : BitVec 8) =>
    ((lanesOf (activeMask s u)).filterMap (fun l => ixWord (sqAt s u.wg u.sq) (w32 (ixStage s u x none l).c).toNat k.toNat)).map (itemWord u.e.lb)
  match i with
  | .ixLd _ x k => (words x k, false)
  | .ixSt _ x k => (words x k, true)
  | _ => ([], false)

/-- The item of the quarter's vector pipeline (R174). -/
def itemPipe : Nat := 4152

/-- The register that a waiter's wait will write. -/
def Waiter.dest (x : Waiter) : Option Nat :=
  match x.why with
  | .ringFull _ d => some (itemV x.lb d.toNat)
  | .ringFree _ d => some (itemV x.lb d.toNat)
  | .slot _ d _ => some (itemV x.lb d.toNat)
  | _ => none

/-- Whether an item carries a mark: of a fixed latency, of work under way, of a load whose data has not landed, or of a wait that will write it. -/
def pending (sq : Squad) (k : Nat) : Bool :=
  sq.marks.any (fun m => m.1 == k && decide (sq.cycle < m.2)) || sq.holds.any (fun h => h.1 == k)
    || sq.loads.any (fun p => decide (itemV p.2.lb p.2.d.toNat ≤ k) && decide (k < itemV p.2.lb p.2.d.toNat + regWords p.2.size))
    || (allWaiters sq).any (fun x => x.dest == some k)
/-- Whether an item carries such a mark, or that of an open operation it is supplied to (R240). -/
def busy (sq : Squad) (k : Nat) : Bool := pending sq k || (suppliedItems sq).contains k

/-- The registers that a signature supplies (R240): a second signature of the same registers does not wait for the first. -/
def signedItems (sq : Squad) (lb : Nat) (use : Use) (i : Instr) : List Nat :=
  match use.sign with
  | some c => operandItems (convOf sq c.toNat).mf0 i lb
  | none => []

/-- Whether every item that an instruction names is free; a replay entry has read its sources (R331). -/
def itemsFree (s : State) (u : Bundle) (i : Instr) : Bool :=
  let sq := sqAt s u.wg u.sq
  let use := usesOf i
  let reads := if u.e.replay.isEmpty then srcItems u.e.lb u.guard use else []
  !(dstItems u.e.lb use ++ reads ++ (indexedItems s u i).1 ++ (if i.cls = some .vec then [itemPipe] else [])).any (busy sq)
    && !(signedItems sq u.e.lb use i).any (pending sq)

/-- Sets the mark of an item until a cycle. -/
def markItem (n : Nat) (sq : Squad) (k : Nat) : Squad := { sq with marks := Map.put sq.marks k (max n (Map.getD sq.marks k 0)) }

/-- The marks that an issue sets (R39): a permuted source adds two cycles (R63). -/
def setMarks (s : State) (u : Bundle) (i : Instr) : State :=
  let use := usesOf i
  let ix := indexedItems s u i
  modSq s u.wg u.sq (fun sq =>
    let sq := { sq with marks := sq.marks.filter (fun m => decide (sq.cycle < m.2)) }
    let late := sq.cycle + use.lat + (if use.src.any (fun o => o.m != 0) then 2 else 0)
    let own := (if use.lat = 0 then [] else dstItems u.e.lb use ++ orderedItems use) ++ (if use.flags then [itemFxs] else []) ++ (if use.counts then [itemCounters] else [])
    let sq := own.foldl (markItem late) sq
    let sq := (if ix.2 then ix.1 else []).foldl (markItem (sq.cycle + 4)) sq
    let sq := if 1 < use.gap then markItem (sq.cycle + use.gap) sq itemPipe else sq
    -- with V = 1 the last check is made when the result is produced (R147)
    if use.fp then
      { sq with checks := sq.checks.map (fun c => if c.2.lb = u.e.lb ∧ c.2.mask &&& u.e.mask ≠ 0 then (c.1, { c.2 with due := late }) else c) }
    else sq)

/-! Partners (R69). -/

/-- The partners whose registers an instruction reads for a lane. -/
def partnersOf (s : State) (u : Bundle) (i : Instr) (l : Nat) : List Nat :=
  let sq := sqAt s u.wg u.sq
  let half := h16 s u.wg
  let coded := ((usesOf i).src.filter (fun o => o.m != 0)).map (fun o => partner sq half o.m.toNat l)
  let moved := match i with
    | .shfl _ _ b n => let seg := segment half l
                       [seg.1 + (w32 (readReg s u ⟨b, n, 1⟩ l)).toNat % seg.2]
    | .shfl16 _ _ m t => [shfl16Source half m.toNat t.toNat l]
    | _ => []
  coded ++ moved

/-- Whether a wait lets a partner's registers be read. -/
def Wait.readable (hdr : Word) : Wait → Bool
  | .clause => bitsOf hdr.toNat 20 18 < 5
  | .join _ => true
  | .barrier _ _ => true
  | .sync _ _ => true
  | .ringFull _ _ => true
  | .ringFree _ _ => true
  | .tagAll _ => true
  | .tagAny _ => true
  | .xbar _ _ => true
  | .ticket _ _ => true
  | .event _ _ => true
  | _ => false

/-- Whether a thread of a lane block stands where its registers may be read by an entry. -/
def partnerStands (sq : Squad) (e : Entry) (l : Nat) : Bool :=
  inMask e.mask l || inMask (exitedOf sq e.lb) l || sq.parked.any (fun p => p.lb == e.lb && p.lane == l)
    || sq.waiters.any (fun x => x.lb == e.lb && inMask x.mask l && x.why.readable x.next.hdr)

/-- Whether an entry waits for partners. Replayed lanes have read theirs. -/
def partnerWait (s : State) (u : Bundle) (i : Instr) : Bool :=
  u.e.replay.isEmpty && (lanesOf (activeMask s u)).any (fun l => (partnersOf s u i l).any (fun p => !partnerStands (sqAt s u.wg u.sq) u.e p))

/-! Room (R61). -/

/-- Whether a core's engine, and an issuer's queue, have room for one more operation (R232). -/
def matRoom (s : State) (w : Nat) : Bool :=
  let ops := (coreAt s (wgAt s w).core).mat.filter (fun o => !o.isFence)
  decide ((ops.filter (fun o => o.wg == w)).length < 8) && decide (ops.length < 16)

/-- Whether signatures can be added: a signer signs the open operation once, and the last signature needs the engine's room (R238, R249). -/
def signRoom (s : State) (u : Bundle) (k : Nat) : Bool :=
  let c := convOf (sqAt s u.wg u.sq) k
  let core := (wgAt s u.wg).core
  let tids := ((lanesOf u.e.mask).map (fun l => u.e.lb * 32 + l)).filter (fun t => decide (c.first ≤ t) && decide (t < c.first + c.count))
  let others := (Map.getD s.xc (core / 4 * 4 + k) []).filter (fun p => p.1 != core % 4)
  let last := decide (c.count ≤ c.signed.length + tids.length)
  !(decide (2 ≤ c.st) && tids.any (fun t => c.signed.contains t))
    && (!last || (if c.bound then decide (others.length < 3) || (matRoom s u.wg && others.all (fun p => matRoom s p.2.wg)) else matRoom s u.wg))

/-- Whether the regions of C that the lanes read or write are free of outstanding operations (R39, R182). -/
def regionFree (s : State) (u : Bundle) (t : BitVec 6 × Bool × Int) : Bool :=
  (lanesOf (activeMask s u)).all (fun l =>
    let v := match u.e.replay.find? (fun p => p.1 == l) with
      | some p => if t.2.1 then p.2.b else p.2.a
      | none => readReg s u (own t.1 1) l
    let off : Int := (w32 v).toNat + t.2.2
    off < 0 || !(matOf s u.wg).any (fun o => writesRegion o (off.toNat / 8192)))

/-- Whether a thread has a load of a typed buffer whose value is still to be taken. -/
def bufAhead (sq : Squad) (lb lane : Nat) : Bool :=
  sq.loads.any (fun p => p.2.lb == lb && p.2.lane == lane && (match p.2.src with
    | .buf _ _ _ => true
    | _ => false))

/-- Whether the loads before an instruction in its threads' program order let it act: one that drains the store queue releases, and it and one that publishes
or starts an engine wait until they have taken their values (R216, R218, R219, R227, R229); a write of a typed buffer, or a signature, comes after the thread's own reads of typed buffers (R182). -/
def loadsAllow (sq : Squad) (u : Bundle) (use : Use) (g : BitVec 32) : Bool :=
  (lanesOf g).all (fun l => !((use.drain || use.starts) && loadAhead sq u.e.lb l sq.seq) && !((use.buf || use.sign.isSome) && bufAhead sq u.e.lb l))

/-- Whether the resources an instruction takes are free. -/
def hasPlaces (s : State) (u : Bundle) (i : Instr) : Bool :=
  let sq := sqAt s u.wg u.sq
  let use := usesOf i
  let g := activeMask s u
  let core := (wgAt s u.wg).core
  (match use.sign with
   | some c => signRoom s u c.toNat
   | none => true)
  && (g == 0 ||
    ((!(use.pf || (use.fp && trapInvalid s u.wg)) || !u.e.replay.isEmpty || decide (placesUsed sq + popCount g ≤ Config.replayPlaces))
      && (!use.store || decide (sq.stq.length < Config.storeQueueSize))
      && (!use.xfer || (parkedXfer s u g).isSome || decide ((coreAt s core).xfers.length < 32))
      && (!use.coll || decide ((s.fab.colls.filter (fun c => c.2.die == dieOf core)).length < 16))
      && (match i with
          | .send a => decide (s.fab.sends.length + sendPasses s u a ≤ sendQueueSize)
          | _ => true)
      && (!use.run || (ceToTake s u.wg).isSome)
      && (!use.drain || squadDrained s u.wg u.sq sq.seq)
      && loadsAllow sq u use g
      && (match use.tile with
          | some t => regionFree s u t
          | none => true)))

/-! Clause entry (R18, R34, R35, R52). -/

/-- The classes a role may enter; firmware's own are those of VECTOR (R326). -/
def roleAllows (role cls : Nat) : Bool :=
  cls == 0 || cls == 1 || cls == 5 || (cls == 2 && role != 1) || (cls == 3 && role == 1) || (cls == 4 && role == 2)

/-- The operand bits that a wait kind leaves zero. -/
def wopUnused (kind wop : Nat) : Bool :=
  match kind with
  | 1 => bitsOf wop 4 0 == 0
  | 2 => bitsOf wop 9 6 == 0
  | 3 => bitsOf wop 9 3 == 0
  | 4 => bitsOf wop 9 3 == 0
  | _ => wop == 0

/-- The first entry check that a header fails: fault code and subcode; after those of R35, the use of a ring or barrier that is not set up
(R88, R95). -/
def entryFault (s : State) (w q : Nat) (pc : VAddr) (hdr : Word) : Option (Nat × Nat) :=
  let h := hdr.toNat
  let kind := bitsOf h 20 18
  let wop := bitsOf h 17 8
  if pc.toNat % 4 ≠ 0 ∨ bitsOf h 31 28 ≠ 12 then some (0x02, 1)
  else if bitsOf h 27 24 = 0 then some (0x02, 2)
  else if 6 ≤ bitsOf h 23 21 then some (0x02, 3)
  else if kind = 7 ∨ !wopUnused kind wop then some (0x02, 4)
  else if !roleAllows (sqAt s w q).role (bitsOf h 23 21) then some (0x03, 0)
  else if kind = 2 ∧ tagsOf s w ≤ bitsOf h 13 8 then some (0x18, 0)
  else if (kind = 3 ∨ kind = 4) ∧ ringsOf s w ≤ bitsOf h 10 8 then some (0x1A, 1)
  else if (kind = 3 ∨ kind = 4) ∧ (ringOf (wgAt s w) (bitsOf h 10 8)).slots = 0 then some (0x1A, 3)
  else
    match clauseBarrier hdr with
    | some b => (barFault s w b.1 true).map (fun i => (i.code, i.sub))
    | none => none

/-- The place of a clause's first word. -/
def firstPlace (pc : VAddr) (hdr : Word) : Place := { pc := pc + 4, base := pc, hdr := hdr, atHdr := false }

/-! Tending an entry: what happens to its threads without an issue. -/

/-- Takes an entry out of its squad. -/
def takeEntry (s : State) (w q : Nat) (e : Entry) : State :=
  modSq s w q (fun sq => { sq with
    frontier := sq.frontier.filter (fun f => f.formed != e.formed), overflow := sq.overflow.filter (fun f => f.formed != e.formed) })
/-- An entry as a bundle that takes no word. -/
def bundleOf (w q : Nat) (e : Entry) : Bundle := { wg := w, sq := q, e := e, guard := 7, words := 0 }

/-- The lanes of an entry that are to park at their next issue. -/
def doomedOf (sq : Squad) (e : Entry) : List (Nat × Nat × Option (List Word)) :=
  sq.doomed.filter (fun d => d.1 == e.lb && inMask e.mask d.2.1) ++ (lanesOf (e.mask &&& marked sq.frozen e.lb)).map (fun l => (e.lb, l, none))

/-- How a lane of an entry goes on after it parked before an issue: a replayed lane keeps its staged operands. -/
def howFor (e : Entry) (noBp : Bool) (l : Nat) : Resume :=
  match e.replay.find? (fun p => p.1 == l) with
  | some p => .replay p.2 noBp
  | none => .go noBp

/-- Parks lanes of an entry taken out of the frontier; the others stay. -/
def parkLanes (s : State) (w q : Nat) (e : Entry) (m : BitVec 32) (noBp : Bool) : State :=
  let s := parkThreads (takeEntry s w q e) w q e.lb (lanesOf m) e.place (howFor e noBp)
  let rest := e.mask &&& ~~~m
  if rest = 0 then s else seatIn s w q { e with mask := rest, replay := e.replay.filter (fun p => inMask rest p.1) }

/-- Parks the lanes that are to park at their next issue, each with its record, if it has one. -/
def parkDoomed (s : State) (w q : Nat) (e : Entry) (ds : List (Nat × Nat × Option (List Word))) : State :=
  let s := parkLanes s w q e (maskOf (fun l => ds.any (fun d => d.2.1 == l))) false
  let s := modSq s w q (fun sq => { sq with
    doomed := sq.doomed.filter (fun d => !ds.any (fun x => x.1 == d.1 && x.2.1 == d.2.1))
    frozen := ds.foldl (fun m x => unmarkLanes m x.1 ((1#32) <<< x.2.1)) sq.frozen })
  ds.foldl (fun s d => match d.2.2 with
    | some r => reportThread s w q d.1 d.2.1 r
    | none => s) s

/-- Parks threads of an entry where it stands, with one record that names the lowest. -/
def parkPart (s : State) (w q : Nat) (e : Entry) (m : BitVec 32) (i : FaultInfo) (noBp : Bool) : State :=
  reportThread (parkLanes s w q e m noBp) w q e.lb (lowest m)
    (threadRecord s w q e.lb (lowest m) (placeClass e.place) e.place i)

/-- Parks a whole entry. -/
def parkEntry (s : State) (w q : Nat) (e : Entry) (i : FaultInfo) (noBp : Bool) : State := parkPart s w q e e.mask i noBp

/-- Sends an entry at a header that passed its checks into the clause, or makes it wait (R34, R35). -/
def enterClause (s : State) (w q : Nat) (e : Entry) (hdr : Word) : State :=
  let next := firstPlace e.place.pc hdr
  let s := takeEntry s w q e
  if clauseReady s w q e.lb e.mask hdr then modSq s w q (fun sq => { sq with frontier := sq.frontier ++ [{ e with place := next }] })
  else
    splitClauseLoads (modSq s w q (fun sq => { sq with waiters := sq.waiters ++
      [{ lb := e.lb, mask := e.mask, why := .clause, stand := e.place, next := next }] })) w q

/-- The breakpoint that an address meets in a context (R340). -/
def breakpointAt (s : State) (w : Nat) (pc : VAddr) : Option Nat :=
  let ctx := (wgAt s w).ctx
  -- firmware's own squads are entries of no launch
  if (wgAt s w).level = 2 then none
  else (List.range 4).find? (fun k => (dbgctlOf s ctx).getLsbD k && (bpaOf s ctx k).truncate 52 == pc)

/-- What stands at an entry's place, as far as it is fetched. -/
inductive Seen where
  /-- A line is not in the L1 instruction cache. -/
  | missing
  /-- Fetching failed: code, subcode, and the word's address. -/
  | fault (code sub : Nat) (pc : VAddr)
  | header (hdr : Word)
  | instr (i : Instr) (words : Nat) (guard : BitVec 3)
  /-- The word is no instruction: code and subcode. -/
  | illegal (code sub : Nat)
  deriving DecidableEq, Repr

/-- Fetches one word for a workgroup. -/
def fetchWord (s : State) (w : Nat) (pc : VAddr) : State × Except Seen Word :=
  let g := wgAt s w
  match fetchCheck s g.core g.ctx (g.level == 2) pc with
  | (s, .error e) => (s, .error (.fault e.1 e.2 pc))
  | (s, .ok _) =>
    match cachedWord s g.core (fetchCtx g) pc with
    | none => (s, .error .missing)
    | some x => (s, .ok x)

/-- What a decoded word stands for in a clause. -/
def seenOf (c : Cls) (ver : Nat) (w : Word) (x : Option Word) : Seen :=
  match decodeWord c ver w x with
  | .ok i => .instr i (if isLong c ver w then 2 else 1) (guardOf w)
  | .error .split => .illegal 0x02 5
  | .error _ => .illegal 0x01 0

/-- Fetches and decodes at an entry's place (R37, R51, R67). -/
def look (s : State) (w : Nat) (p : Place) : State × Seen :=
  if p.atHdr then
    if p.pc.toNat % 4 ≠ 0 then (s, .header 0)
    else
      match fetchWord s w p.pc with
      | (s, .error e) => (s, e)
      | (s, .ok h) => (s, .header h)
  else
    match fetchWord s w p.pc with
    | (s, .error e) => (s, e)
    | (s, .ok x) =>
      let c := clauseClass p.hdr
      if isLong c (versionOf s w) x && decide (p.wordIndex < clauseWords p.hdr) then
        match fetchWord s w (p.pc + 4) with
        | (s, .error e) => (s, e)
        | (s, .ok y) => (s, seenOf c (versionOf s w) x (some y))
      else (s, seenOf c (versionOf s w) x none)

/-- Tends an entry, if anything happens to its threads before they issue: a pending park, a fetch fault, the header's checks and wait, a breakpoint,
a word that is no instruction (R35, R37, R51, R52, R67, R88, R98, R209, R338, R340). -/
def tend (s : State) (w q : Nat) (e : Entry) : Option State :=
  let sq := sqAt s w q
  match doomedOf sq e with
  | d :: ds => some (parkDoomed s w q e (d :: ds))
  | [] =>
    if (launchAt s (wgAt s w).served).logFull then some (parkLanes s w q e e.mask false)
    else
      match look s w e.place with
      | (_, .missing) => none
      | (t, .fault c sub pc) => some (parkEntry t w q e { faultInfo c sub with faddr := pc.zeroExtend 64 } false)
      | (t, .header h) =>
        some (match entryFault t w q e.place.pc h with
          | some f => parkEntry t w q e (faultInfo f.1 f.2) false
          | none => enterClause t w q e h)
      | (t, .illegal c sub) => some (parkEntry t w q e (faultInfo c sub) false)
      | (t, .instr _ _ _) =>
        -- threads resumed from a match make none (R340)
        let m := e.mask &&& ~~~marked sq.unmatched e.lb
        match (if m = 0 then none else breakpointAt s w e.place.pc) with
        | none => none
        | some k => some (stopSquad (parkPart t w q e m { faultInfo 0x28 (k + 1) with dbg := true } true) w q)

/-! The issue choice (R61, R62). -/

/-- The bundle and instruction of an entry that stands at a fetched instruction, with the state after its fetch. -/
def standing (s : State) (w q : Nat) (e : Entry) : Option (State × Bundle × Instr) :=
  if e.place.atHdr then none
  else
    match look s w e.place with
    | (t, .instr i n g) => some (t, { wg := w, sq := q, e := e, guard := g, words := n }, i)
    | _ => none

/-- Whether an entry is ready. -/
def ready (s : State) (w q : Nat) (e : Entry) : Bool :=
  decide (e.notBefore ≤ (sqAt s w q).cycle) && (match standing s w q e with
    | some (_, u, i) => itemsFree s u i && !partnerWait s u i && hasPlaces s u i
    | none => false)

/-- Whether an entry is held back by its partners. -/
def waitsPartners (s : State) (w q : Nat) (e : Entry) : Bool :=
  match standing s w q e with
  | some (_, u, i) => partnerWait s u i
  | none => false

/-- The entry that issues. -/
def choose (s : State) (w q : Nat) : Option Entry :=
  let sq := sqAt s w q
  let ver := versionOf s w
  let peek := peekWord s w
  let cand := sq.frontier.filter (ready s w q)
  match firstBy (fun e => (2 ^ 64 - e.age) :: sortKey ver peek e) (cand.filter (fun e => decide (Config.starvation ≤ e.age))) with
  | some e => some e
  | none => firstBy (sortKey ver peek) cand

/-- Ages the entries of a squad, all but the one that issues, and counts partner waits (R57, R62, R70). -/
def ageEntries (s : State) (w q : Nat) : State :=
  let held := (sqAt s w q).frontier.filter (waitsPartners s w q)
  modSq s w q (fun sq => { sq with
    frontier := sq.frontier.map (fun e => { e with age := e.age + 1, pwait := e.pwait + bit (held.any (fun f => f.formed == e.formed)) })
    overflow := sq.overflow.map (fun e => { e with age := e.age + 1 }) })

/-- Whether some entry of a squad waits for partners. -/
def anyWaitsPartners (s : State) (w q : Nat) : Bool := (sqAt s w q).frontier.any (waitsPartners s w q)

/-- Ends a cycle of a squad (R60). -/
def endCycle (s : State) (w q : Nat) : State := modSq s w q (fun sq => { sq with cycle := sq.cycle + 1, regrouped := false })

/-- The counts of an issue (R26, R339, R342, R348): the squad's, the workgroup's, and the launch's last one. -/
def countIssue (s : State) (u : Bundle) : State :=
  let n := popCount (activeMask s u)
  let s := modSq s u.wg u.sq (fun sq => perfAdd (perfAdd sq 1 1) 2 n)
  let now := s.plat.tclk.toNat
  let s := modWg s u.wg (fun g => { g with issues := g.issues + 1, issueLog := now :: g.issueLog.filter (fun t => decide (now < t + Config.rateWindow)) })
  modLaunch s (wgAt s u.wg).launch (fun l => { l with lastIssue := s.plat.tclk.toNat })

/-- The entry of a squad that has waited too long for partners (R70), also one that was moved to the overflow queue since. -/
def timedOut (s : State) (w q : Nat) : Option Entry :=
  ((sqAt s w q).frontier ++ (sqAt s w q).overflow).find? (fun e => decide (Config.partnerLimit ≤ e.pwait))

/-- The issue uses up what resuming and stepping granted its threads: one issue without a match, and dbg.step's one issue (R340, R353). -/
def useGrants (s : State) (u : Bundle) : State :=
  modSq s u.wg u.sq (fun sq => { sq with
    unmatched := unmarkLanes sq.unmatched u.e.lb u.e.mask, stepping := unmarkLanes sq.stepping u.e.lb u.e.mask })

/-- `dbg.step`'s one issue is over (R353): the threads of `m` that made it park again where they stand, with a debug record for each entry; those that
wait do so when their wait is released. -/
def stepDone (s : State) (u : Bundle) (m : BitVec 32) : State :=
  if m = 0 then s
  else
    let sq := sqAt s u.wg u.sq
    let i : FaultInfo := { faultInfo 0x28 6 with dbg := true }
    let mine := (sq.frontier ++ sq.overflow).filter (fun e => e.lb == u.e.lb && e.mask &&& m != 0)
    let s := mine.foldl (fun s e => parkPart s u.wg u.sq e (e.mask &&& m) i false) s
    let held := sq.waiters.filter (fun x => x.lb == u.e.lb && x.mask &&& m != 0)
    held.foldl (fun s x =>
      let n := x.mask &&& m
      let r := threadRecord s u.wg u.sq x.lb (lowest n) (placeClass x.stand) x.stand i
      modSq s u.wg u.sq (fun sq => { sq with
        doomed := sq.doomed ++ (lanesOf n).map (fun l => (x.lb, l, if l = lowest n then some r else none)) })) s

end Sys2Proof.Machine
end

