-- ==== Sys2Proof/Machine/Turns.lean ====
section
/-! DEFINITION. The turns of which a run is made: a squad's next doing, a copy-engine context's next instruction, an event, firmware's routing; what
a turn may be when none is given; and how a word is placed to be fetched next (R60 to R63, R285, R336; log entries 3, 4 and 5). -/

namespace Sys2Proof.Machine

/-- Goes on from a next state. -/
def andThen (o : Host.Outcome State Fault Refusal) (f : State → State) : Host.Outcome State Fault Refusal :=
  match o with
  | .next s => .next (f s)
  | .fault e => .fault e
  | .refused r => .refused r

/-! A squad's turn. -/

/-- Whether a workgroup's squads and contexts issue: it is placed, and neither being adjourned nor waiting for its restore (R343). -/
def issuing (s : State) (w : Nat) : Bool := (wgAt s w).status == 0 && (wgAt s w).leaving.all (· == 0)

/-- The first entry, in sort order, whose threads something happens to before they issue, with the state after it. -/
def tendFirst (s : State) (w q : Nat) : Option State :=
  let ver := versionOf s w
  let peek := peekWord s w
  let c := (sqAt s w q).cycle
  (sortBy (sortKey ver peek) ((sqAt s w q).frontier.filter (fun e => decide (e.notBefore ≤ c)))).findSome? (tend s w q)

/-- The state in which the instruction of a chosen entry executes: the entry is taken out, the others age, the issue is counted. -/
def beginIssue (s : State) (w q : Nat) (u : Bundle) : State :=
  let s := takeEntry s w q u.e
  let s := ageEntries s w q
  { useGrants (countIssue s u) u with cur := some (.bundle u) }

/-- The threads of a bundle that dbg.step released for this one issue (R353). -/
def steppers (s : State) (u : Bundle) : BitVec 32 := u.e.mask &&& marked (sqAt s u.wg u.sq).stepping u.e.lb

/-- What follows the instruction's own effect: its marks, the end of a single step, the end of the cycle. -/
def endIssue (w q : Nat) (u : Bundle) (i : Instr) (steps : BitVec 32) (s : State) : State := endCycle (stepDone (setMarks s u i) u steps) w q

/-- The next doing of a squad: a convergence timeout that has come (R70); a regroup that is due; what happens to an entry before it issues; the
cycle's issue, or none. -/
def issueTurn (s : State) (w q : Nat) : Host.Outcome State Fault Refusal :=
  if !issuing s w || decide ((wgAt s w).squads.length ≤ q) then .next s
  else
  match timedOut s w q with
  | some e => exec .convergenceTimeout { s with arg := .ids w q e.formed }
  | none =>
  if (sqAt s w q).cycle % 4 = 0 ∧ !(sqAt s w q).regrouped then exec .regroup { s with arg := .ids w q 0 }
  else
    match tendFirst s w q with
    | some t => .next t
    | none =>
      let held := anyWaitsPartners s w q
      let count := fun (t : State) => if held then modSq t w q (fun sq => perfAdd sq 3 1) else t
      match (choose s w q).bind (standing s w q) with
      | none => .next (endCycle (count (ageEntries s w q)) w q)
      | some (t, u, i) => andThen (exec i (count (beginIssue t w q u))) (endIssue w q u i (steppers s u))

/-! A copy engine's turn (R285). -/

/-- The instruction at a context's PC with the state after its fetch, or the subcode and code of the fault. -/
def ceLook (s : State) (core k : Nat) : State × Except (Nat × Nat) Instr :=
  match ceFetch s core k with
  | (s, .error e) => (s, .error e)
  | (s, .ok w) =>
    match decodeWord .ce (versionOf s (ceOwner s core k)) w none with
    | .ok i => (s, .ok i)
    | .error _ => (s, .error (1, 0))

/-- Whether a context is ready. -/
def ceReady (s : State) (core k : Nat) : Bool :=
  ceLive s core k && issuing s (ceOwner s core k) && (match (ceLook s core k).2 with
    | .ok i => ceMayIssue s core k i
    | .error _ => true)

/-- The context whose turn it is on a core. -/
def nextCe (s : State) (core : Nat) : Option Nat :=
  ((List.range 4).map (fun j => ((coreAt s core).ceTurn + 1 + j) % 4)).find? (ceReady s core)

/-- One instruction of a context, if it is that context's turn. -/
def engineTurn (s : State) (core k : Nat) : Host.Outcome State Fault Refusal :=
  if nextCe s core ≠ some k then .next s
  else
    let r := ceLook s core k
    let s := modCore r.1 core (fun c => { c with ceTurn := k })
    match r.2 with
    | .error e => .next (ceFault s core k (ceAt s core k).pc e.1 e.2 (if e.1 = 1 then 0 else (ceAt s core k).pc))
    | .ok i => exec i { s with cur := some (.engine core k) }

/-! Turns. -/

/-- An event row executes on its argument; the other rows are no events. -/
def eventTurn (s : State) (i : Instr) (x : EventArg) : Host.Outcome State Fault Refusal :=
  if i.cls.isNone then exec i { s with arg := x } else .fault .notAnEvent

def runTurn (s : State) (t : Turn) : Host.Outcome State Fault Refusal :=
  match t with
  | .event i x => eventTurn s i x
  | .issue w q => issueTurn s w q
  | .engine core k => engineTurn s core k
  | .route die => .next (routeRecord s die)
  | .update l line => .next (applyUpdate1 s l line)

/-- Time passes before a turn, by an amount that nothing fixes (log entry 4). -/
def passTime (s : State) : State := advanceClock (draw s).2 (Config.freeNumber (draw s).1)

/-- After a turn: records enter their queues' memory, flushed workgroups that are done are freed, waits that depend on queues of records, on work of the
whole device, and on room in launch queues, are tested (R105, R329, R339, R343, R349, R352), and small operations of the engines go out as the window has room
(R300). -/
def settle (s : State) : State := releaseSmall (settleWaitingSlots (settleDev (testErets (settleFlushes (writeQueues s)))))

/-- The engine work of a workgroup: on its core, and in the device's engines. -/
structure EngineWork where
  xfers : Map Xfer
  ces : Map CeCtx
  mat : List MatOp
  pubs : Map PubOp
  sends : Map SendOp
  deliveries : Map Delivery
  colls : Map Coll
  deriving DecidableEq, Repr

def engineWork (s : State) (w : Nat) : EngineWork :=
  let o := coreAt s (wgAt s w).core
  { xfers := o.xfers.filter (fun x => x.2.wg == w), ces := o.ces.filter (fun c => c.2.owner == some w), mat := matOf s w
    pubs := s.pubOps.filter (fun x => x.2.wg == w), sends := s.fab.sends.filter (fun x => x.2.wg == w)
    deliveries := s.fab.deliveries.filter (fun x => x.2.post.wg == w), colls := s.fab.colls.filter (fun x => x.2.wg == w) }

/-- Progress of a launch's engine operations over a turn counts for its watchdog as an issue does (R339). -/
def noteProgress (before after : State) : State :=
  (List.range after.wgs.length).foldl (fun s w =>
    if engineWork before w = engineWork after w then s
    else modLaunch s (wgAt after w).launch (fun l => { l with lastIssue := after.plat.tclk.toNat })) after

/-! The device's own turns, when none is given: every one that may have something to do (log entry 4). -/

/-- An event on numbered units. -/
def on (i : Instr) (a b c : Nat) : Turn := .event i (.ids a b c)

def squadTurns (s : State) (w q : Nat) : List Turn :=
  let sq := sqAt s w q
  [.issue w q, on .clauseWaitRelease w q 0, on .storeQueueDeparture w q 0]
    ++ (sq.frontier ++ sq.overflow).map (fun e => on .convergenceTimeout w q e.formed)
    ++ sq.loads.map (fun p => on .loadDataReturn w q p.1)
    ++ sq.checks.map (fun c => on .lastCheckCompletion w q c.1)
    ++ (List.range sq.nlb).map (fun lb => on .laneBlockRetirement w q lb)

def wgTurns (s : State) (w : Nat) : List Turn :=
  let g := wgAt s w
  let lines := (g.squads.flatMap (fun sq => (sq.frontier ++ sq.overflow).flatMap (fun e =>
    [e.place.pc.toNat / 128, (e.place.pc.toNat + 4) / 128]))).dedup
  (List.range g.squads.length).flatMap (squadTurns s w)
    ++ lines.map (fun l => on .ifetchLineArrival w l 0)
    ++ (List.range g.arrivals.length).flatMap (fun i => [on .barrierArrivalCount w i 0, on .ringUpdateApply w i 0, on .xbarArrivalCount w i 0])
    ++ [on .workgroupRetirement w 0 0, on .matrixOpCompletion w 0 0, on .emulatedFormatTrap w 0 0, on .adjournment w 0 0, on .workgroupRestore w 0 0]

def coreTurns (s : State) (core : Nat) : List Turn :=
  let c := coreAt s core
  (match nextCe s core with
   | some k => [.engine core k]
   | none => [])
    ++ [on .matrixOccupancyStart core 0 0]
    ++ c.xfers.flatMap (fun x => on .transferOpCompletion core x.1 0 :: (List.range x.2.pieces.length).map (fun j => on .transferLineWrite core x.1 j))
    ++ c.ces.flatMap (fun k => (List.range k.2.moves.length).map (fun j => on .ceLineWrite core k.1 j)
        ++ [on .ceCompletionTakesEffect core k.1 0, on .ceLdiReturn core k.1 0])

def flightTurns (id : Nat) : List Turn :=
  [on .homeSliceWrite id 0 0, on .storeAcknowledgement id 0 0, on .atomicPerform id 0 0, on .orderedUpdateArrival id 0 0]

def launchTurns (l : Nat) : List Turn :=
  [on .launchAdmission l 0 0, on .ticketForfeitPass l 0 0, on .launchCompletion l 0 0, on .trapKernelStart l 0 0, on .watchdogExpiry l 0 0]

def fabricTurns (s : State) : List Turn :=
  s.fab.sends.map (fun x => on .messageArrival x.1 0 0)
    ++ (s.fab.sends.filter (fun x => x.2.fate.isSome)).map (fun x => .event .sendCompletion (.sendDone x.1 0 0))
    ++ (List.range s.fab.held.length).map (fun i => on .heldMessageReoffer i 0 0)
    ++ s.fab.reqs.flatMap (fun r => [on .recvPostTaken r.1 0 0, on .recvCancelHandled r.1 0 0, on .recvProbeResult r.1 0 0])
    ++ (announced s).map (fun x => on .bulkGrant x.2.1 x.2.2 0)
    ++ s.fab.deliveries.flatMap (fun d => [on .deliveryCompletion d.1 0 0, on .deliveryCompletion d.1 1 0])
    ++ s.fab.colls.flatMap (fun c => [on .collectiveBackWritten c.1 0 0, on .collectiveHeartbeat c.1 0 0])

/-- The turns that the device itself may take. -/
def candidates (s : State) : List Turn :=
  (List.range s.wgs.length).flatMap (wgTurns s)
    ++ s.cores.flatMap (fun c => coreTurns s c.1)
    ++ s.flights.flatMap (fun f => flightTurns f.1)
    ++ (List.range s.launches.length).flatMap launchTurns
    ++ [.event .launchRecordSelection .unit, .event .gangReservation .unit, .event .gangCommit .unit, .event .dLaunchPlacement .unit,
        .event .preemption .unit]
    ++ s.pubOps.map (fun p => on .publishPerform p.1 0 0)
    ++ s.pubs.flatMap (fun p => p.2.waiting.map (fun c => on .publishCoreApply p.1 c 0))
    ++ fabricTurns s
    ++ [.event .powerDecision .unit, .event .operatingPointChange .unit, .event .lowerTreeRegeneration .unit]
    ++ [0, 1, 2, 3, 4].map Turn.route
    ++ (List.range s.launches.length).flatMap (fun l => (updateLines s l).map (fun x => Turn.update l x))

/-- The next turn: the first of the agenda, or, when that is empty, the device's own turns in rotation. -/
def nextTurn (s : State) : State × Option Turn :=
  match s.agenda with
  | t :: rest => ({ s with agenda := rest }, some t)
  | [] =>
    let c := candidates s
    ({ s with rr := s.rr + 1 }, (c.drop (s.rr % c.length)).head?)

/-! Placing a word to be fetched next (log entry 5). -/

/-- Where the placed clause's header stands. -/
def placedAt : Nat := 0x1000

/-- The header of the placed clause: 15 words of a class, no wait. -/
def placedHeader (c : Cls) : Word := 0xCF000000 ||| BitVec.ofNat 32 (Cls.code c * 2 ^ 21)

/-- The header and the word in memory, the words after it zero, in a line that is not poisoned and in the instruction cache of core 0. -/
def placeWords (s : State) (hdr w : Word) : State :=
  match localLoc placedAt with
  | none => s
  | some l =>
    let bs := bytesOfWord hdr ++ bytesOfWord w ++ List.replicate 120 0
    { s with
      mem := Memory.writeAll s.mem l bs
      poison := s.poison.filter (· != lineOf l)
      lineKeys := Map.put s.lineKeys (lineOf l) 0
      keyBack := Map.del s.keyBack (lineOf l)
      cores := Map.put s.cores 0 { coreAt s 0 with
        l1i := ((2 ^ 16, placedAt / 128), bs) :: (coreAt s 0).l1i.filter (fun p => p.1 != (2 ^ 16, placedAt / 128)) } }

/-- The launch and the workgroup that the placed word runs in: firmware's level, so that addresses are physical, encoding version 7. -/
def placedLaunch : Launch := { blankLaunch with khw := [0x70000000, 0, 0], stage := 9 }
def placedWg (s : State) (hdr : Word) : Wg :=
  let p : Place := { pc := BitVec.ofNat 52 (placedAt + 4), base := BitVec.ofNat 52 placedAt, hdr := hdr, atHdr := false }
  let sq := Squad.start 0 0 1 0 (fun _ => 0)
  { blankWg with
    launch := s.launches.length, level := 2, status := 0, quarters := [0]
    squads := [{ sq with
      regrouped := true, unmatched := [(0, BitVec.allOnes 32)]
      frontier := [{ lb := 0, place := p, mask := BitVec.allOnes 32, age := 0, yielded := false, pwait := 0, formed := 0, notBefore := 0
                     replay := [] }] }] }

/-- A state whose very next step fetches and runs a word: one entry of a squad that stands on it, or, for a word of the copy engine's, a context. -/
def placeWord (s : State) (w : Word) : State :=
  let c := ((tableInstr w).map (fun p => p.1)).getD .ctl
  let hdr := placedHeader c
  let g := s.wgs.length
  let t := placeWords s hdr w
  let t := { t with cur := none, launches := s.launches ++ [placedLaunch], wgs := s.wgs ++ [placedWg s hdr] }
  if c = .ce then
    let e := { CeCtx.free with owner := some g, pc := BitVec.ofNat 64 (placedAt + 4), st := 1 }
    { modCore (modCe t 0 0 (fun _ => e)) 0 (fun o => { o with ceTurn := 3 }) with agenda := .engine 0 0 :: s.agenda }
  else { t with agenda := .issue g 0 :: s.agenda }

end Sys2Proof.Machine
end

