-- ==== Sys2Proof/Machine/Step.lean ====
section
/-! DEFINITION. One step of the machine: time passes, one turn is taken, and what follows a turn is done. -/

namespace Sys2Proof.Machine

/-- One step: the next turn of the agenda or, when it is empty, of the device's own. -/
def step (s : State) : Host.Outcome State Fault Refusal :=
  match nextTurn (passTime s) with
  | (s, none) => .next s
  | (s, some t) => andThen (runTurn s t) (fun r => settle (noteProgress s r))

/-- `s` with an instruction stored where the next step fetches, its further bits zero: the word `w`, followed by words of zeros. A word of the
table has 32 bits, whatever `nbits` says. -/
def State.withFetchWord (s : State) (_nbits w : Nat) : State := placeWord s (BitVec.ofNat 32 w)

end Sys2Proof.Machine
end

