-- ==== Sys2Proof/Safety.lean ====
section
/-! DEFINITION. What counts as a safe run, and the terms in which claims speak of one instruction: who issues it, what it changes, and that it
changes nothing else. -/

namespace Sys2Proof.Machine

/-! Runs. -/

/-- A run of `k` steps from a state does not stop. -/
def runs (k : Nat) (s : State) : Prop := ∃ t, Host.Core.run core k s = .next t

/-- Memory is in its canonical form. -/
def State.sound (s : State) : Prop := Memory.wf s.mem

/-! The issuing bundle. -/

/-- The bundle in hand, in a squad that exists. -/
abbrev Issuing (s : State) (u : Bundle) : Prop :=
  s.cur = some (.bundle u) ∧ u.wg < s.wgs.length ∧ u.sq < (wgAt s u.wg).squads.length

/-- The issuing squad. -/
def squadOf (s : State) (u : Bundle) : Squad := sqAt s u.wg u.sq

/-- The word and the pair that a register operand with a permutation code names for a lane (R113, R122). -/
def srcWord (s : State) (u : Bundle) (a : BitVec 6) (m : BitVec 2) (l : Nat) : Word :=
  vget (squadOf s u) u.e.lb a.toNat (partner (squadOf s u) (h16 s u.wg) m.toNat l)
def srcPair (s : State) (u : Bundle) (a : BitVec 6) (m : BitVec 2) (l : Nat) : DWord :=
  let k := partner (squadOf s u) (h16 s u.wg) m.toNat l
  pairOf (vget (squadOf s u) u.e.lb a.toNat k) (vget (squadOf s u) u.e.lb (a.toNat + 1) k)

/-- A lane's own register, and its predicates. -/
def ownWord (s : State) (u : Bundle) (a : BitVec 6) (l : Nat) : Word := vget (squadOf s u) u.e.lb a.toNat l
def predBit (s : State) (u : Bundle) (p : BitVec 3) (l : Nat) : Bool := inMask (pget (squadOf s u) u.e.lb p.toNat) l

/-- Register numbers that a pair or quad may start at (R41). -/
abbrev aligned (al : List (BitVec 6 × Nat)) : Prop := ∀ p ∈ al, p.1.toNat % p.2 = 0

/-! What an instruction leaves unchanged. -/

/-- Nothing but one squad differs between `s` and `t`, and of the squad only what `k` takes from the new one; no instruction is in hand. -/
def squadFrame (k : Squad → Squad → Squad) (s t : State) (w q : Nat) : Prop :=
  t = { s with wgs := t.wgs, cur := none }
    ∧ (∀ a, Memory.read t.mem a = Memory.read s.mem a)
    ∧ t.wgs.length = s.wgs.length
    ∧ (∀ v, v ≠ w → wgAt t v = wgAt s v)
    ∧ wgAt t w = { wgAt s w with squads := (wgAt t w).squads }
    ∧ (∀ r, r ≠ q → sqAt t w r = sqAt s w r)
    ∧ sqAt t w q = k (sqAt s w q) (sqAt t w q)

/-- The entries may change. -/
def keepEntries (o n : Squad) : Squad := { o with frontier := n.frontier, overflow := n.overflow }
/-- The v registers may change too. -/
def keepV (o n : Squad) : Squad := { keepEntries o n with v := n.v }
/-- The predicates may change too. -/
def keepP (o n : Squad) : Squad := { keepEntries o n with p := n.p }
/-- Squad registers, the permutation tables, the index registers may change too. -/
def keepQ (o n : Squad) : Squad := { keepEntries o n with q := n.q }
def keepPt (o n : Squad) : Squad := { keepEntries o n with pt := n.pt }
def keepX (o n : Squad) : Squad := { keepEntries o n with x := n.x }
/-- The v registers and the sticky flags, or predicates and sticky flags, may change. -/
def keepVF (o n : Squad) : Squad := { keepV o n with fxs := n.fxs }
def keepPF (o n : Squad) : Squad := { keepP o n with fxs := n.fxs }

/-- An entry has taken its place in the frontier of a squad; where the frontier is full, one of the entries has gone to the overflow (R59). -/
def seated (old new : Squad) (e : Entry) : Prop :=
  if old.frontier.length < Config.frontierSize then new.frontier = old.frontier ++ [e] ∧ new.overflow = old.overflow
  else ∃ x ∈ old.frontier ++ [e], new.frontier = (old.frontier ++ [e]).erase x ∧ new.overflow = old.overflow ++ [x]

/-- All threads of the bundle stand behind the instruction, as one entry that may issue from the next cycle: the bundle's own, with its mark and its
formation number (R57, R62, R64). -/
def movedOn (s t : State) (u : Bundle) : Prop :=
  u.e.mask ≠ 0 → seated (squadOf s u) (squadOf t u)
    { u.e with place := u.next, notBefore := (squadOf s u).cycle + 1, age := 0, pwait := 0, replay := [] }

/-! Results of register instructions. -/

/-- An instruction with a premise on state and bundle completes: every thread moves on, of its squad only what `k` says changes, and `post`
relates the squad before and after. -/
def completes (i : Instr) (k : Squad → Squad → Squad) (pre : State → Bundle → Prop) (post : State → Bundle → Squad → Squad → Prop) : Prop :=
  ∀ s u, Issuing s u → pre s u →
    ∃ t, exec i s = .next t ∧ squadFrame k s t u.wg u.sq ∧ movedOn s t u ∧ post s u (squadOf s u) (squadOf t u)

/-- The registers after a write of `n` words from `d` on in the lanes of `m`; every other register of every lane is as before. -/
def wordsWritten (u : Bundle) (m : BitVec 32) (d : BitVec 6) (n : Nat) (f : Nat → Wide) (old new : Squad) : Prop :=
  ∀ lb r l, r < 256 → l < 32 → vget new lb r l =
    if lb = u.e.lb ∧ d.toNat ≤ r ∧ r < d.toNat + n ∧ inMask m l = true then (f l).extractLsb' (32 * (r - d.toNat)) 32 else vget old lb r l

/-- An instruction that writes a word, or `n` words, of each guard-true lane, and nothing else. -/
def writesWords (i : Instr) (al : List (BitVec 6 × Nat)) (d : BitVec 6) (n : Nat) (f : State → Bundle → Nat → Wide) : Prop :=
  completes i keepV (fun _ _ => aligned ((d, n) :: al)) (fun s u o new => wordsWritten u (activeMask s u) d n (f s u) o new)
def writesWord (i : Instr) (d : BitVec 6) (f : State → Bundle → Nat → Word) : Prop := writesWords i [] d 1 (fun s u l => wide32 (f s u l))
def writesPair (i : Instr) (al : List (BitVec 6 × Nat)) (d : BitVec 6) (f : State → Bundle → Nat → DWord) : Prop :=
  writesWords i al d 2 (fun s u l => wide64 (f s u l))

/-- The predicates after a write of one: p7 discards it (R112). -/
def predWritten (u : Bundle) (m : BitVec 32) (p : BitVec 3) (f : Nat → Bool) (old new : Squad) : Prop :=
  ∀ lb k l, k < 8 → l < 32 → inMask (pget new lb k) l =
    if lb = u.e.lb ∧ k = p.toNat ∧ k ≠ 7 ∧ inMask m l = true then f l else inMask (pget old lb k) l

/-- An instruction that writes a predicate of each guard-true lane, and nothing else. -/
def writesPred (i : Instr) (al : List (BitVec 6 × Nat)) (p : BitVec 3) (f : State → Bundle → Nat → Bool) : Prop :=
  completes i keepP (fun _ _ => aligned al) (fun s u o new => predWritten u (activeMask s u) p (f s u) o new)

/-! Effects apart from where threads stand. -/

/-- A squad without what says where its threads stand and what they wait for. -/
def Squad.still (q : Squad) : Squad :=
  { q with
    frontier := [], overflow := [], forms := 0, waiters := [], parked := [], doomed := [], checks := [], frozen := [], unmatched := [], stepping := [] }

/-- The machine without what says where threads stand, who is in hand, and which fault records there are: two states with one `still` agree in
every register, flag, counter, shared object, queue, byte of memory and setting. -/
def still (s : State) : State :=
  { s with cur := none, ids := 0, faults := [], faultWait := [], unsettled := [], faultSlot := [], queueWrites := []
           wgs := s.wgs.map (fun g => { g with squads := g.squads.map Squad.still }) }

/-- Every fault record that the device holds, read by firmware or not. -/
def recordsOf (s : State) : List (List Word) := s.faults.flatMap (·.2) ++ s.faultWait.map (·.2) ++ s.unsettled.map (·.words)

/-- What becomes of a thread of the issuing bundle. -/
inductive Fate where
  /-- It stands at a place, in an entry of its squad. -/
  | on (p : Place)
  /-- It waits, and goes on at the next instruction. -/
  | waits (why : Wait)
  /-- It waits for the last check of its instruction, and goes on at the next instruction (R330). -/
  | checked
  /-- It is parked at a place, and there is a record with a code and a subcode. -/
  | parked (p : Place) (code sub : Nat)
  /-- It has exited. -/
  | exited

/-- Whether a thread of the issuing bundle met a fate. -/
def met (t : State) (u : Bundle) (l : Nat) : Fate → Prop
  | .on p => ∃ e ∈ (squadOf t u).frontier ++ (squadOf t u).overflow, e.lb = u.e.lb ∧ inMask e.mask l = true ∧ e.place = p
  | .waits why => ∃ x ∈ (squadOf t u).waiters, x.lb = u.e.lb ∧ inMask x.mask l = true ∧ x.why = why ∧ x.next = u.next
  | .checked => ∃ x ∈ (squadOf t u).waiters, x.lb = u.e.lb ∧ inMask x.mask l = true ∧ (∃ k, x.why = .check k) ∧ x.next = u.next
  | .parked p code sub => (∃ x ∈ (squadOf t u).parked, x.lb = u.e.lb ∧ x.lane = l ∧ x.place = p)
      ∧ ∃ r ∈ recordsOf t, recBits r 0 31 24 = code ∧ recBits r 0 23 16 = sub
  | .exited => inMask (exitedOf (squadOf t u) u.e.lb) l = true

/-- An instruction with a premise completes: apart from where threads stand the machine is then `f`, memory byte for byte, and each thread of
the bundle meets its fate. -/
def does (i : Instr) (pre : State → Bundle → Prop) (f : State → Bundle → State) (fates : State → Bundle → Nat → Fate) : Prop :=
  ∀ s u, Issuing s u → pre s u → ∃ t, exec i s = .next t
    ∧ still t = still (f s u)
    ∧ (∀ a, Memory.read t.mem a = Memory.read (f s u).mem a)
    ∧ ∀ l, l < 32 → inMask u.e.mask l = true → met t u l (fates s u l)

/-- The threads that are not of the issuing bundle stand, wait and are parked as they were, in every squad, and no fault record is gone. -/
def othersStay (s t : State) (u : Bundle) : Prop :=
  (∀ w q, ¬(w = u.wg ∧ q = u.sq) → (sqAt t w q).frontier = (sqAt s w q).frontier ∧ (sqAt t w q).overflow = (sqAt s w q).overflow
    ∧ (sqAt t w q).waiters = (sqAt s w q).waiters ∧ (sqAt t w q).parked = (sqAt s w q).parked)
  ∧ (∀ lb l, l < 32 → ¬(lb = u.e.lb ∧ inMask u.e.mask l = true) →
      (∀ p, (∃ e ∈ (squadOf t u).frontier ++ (squadOf t u).overflow, e.lb = lb ∧ inMask e.mask l = true ∧ e.place = p) ↔
            ∃ e ∈ (squadOf s u).frontier ++ (squadOf s u).overflow, e.lb = lb ∧ inMask e.mask l = true ∧ e.place = p)
      ∧ (∀ x, x.lb = lb → inMask x.mask l = true → (x ∈ (squadOf t u).waiters ↔ x ∈ (squadOf s u).waiters))
      ∧ ∀ x, x.lb = lb → x.lane = l → (x ∈ (squadOf t u).parked ↔ x ∈ (squadOf s u).parked))
  ∧ ∀ r ∈ recordsOf s, r ∈ recordsOf t

/-- As `does`, of an instruction that lets no other thread go on: those stay where they are, and every record stays. -/
def doesAlone (i : Instr) (pre : State → Bundle → Prop) (f : State → Bundle → State) (fates : State → Bundle → Nat → Fate) : Prop :=
  ∀ s u, Issuing s u → pre s u → ∃ t, exec i s = .next t
    ∧ still t = still (f s u)
    ∧ (∀ a, Memory.read t.mem a = Memory.read (f s u).mem a)
    ∧ (∀ l, l < 32 → inMask u.e.mask l = true → met t u l (fates s u l))
    ∧ othersStay s t u

/-- The issuing squad, or its workgroup, changed. -/
def inSquad (s : State) (u : Bundle) (f : Squad → Squad) : State := modSq s u.wg u.sq f
def inWg (s : State) (u : Bundle) (f : Wg → Wg) : State := modWg s u.wg f

/-- Every thread goes on at the next instruction. -/
def allOn (_ : State) (u : Bundle) (_ : Nat) : Fate := .on u.next
/-- Guard-true threads meet one fate, the others go on. -/
def activeFate (f : Fate) (s : State) (u : Bundle) (l : Nat) : Fate := if inMask (activeMask s u) l then f else .on u.next

/-! Shared objects as the issuing bundle sees them. -/

/-- A rejoin mask is satisfied (R71), and what remains of it after its test. -/
def joinSatisfied (q : Squad) (lb : Nat) (j : Join) : Bool := j.arr != 0 && j.enr &&& ~~~j.arr &&& ~~~(exitedOf q lb) == 0
def joinTested (q : Squad) (lb : Nat) (j : Join) : Join := if joinSatisfied q lb j then { j with arr := 0 } else j

/-- A barrier and a ring of the workgroup. -/
def barAt (s : State) (u : Bundle) (k : BitVec 4) : Bar := barOf (wgAt s u.wg) k.toNat
def ringAt (s : State) (u : Bundle) (k : BitVec 4) : Ring := ringOf (wgAt s u.wg) k.toNat

/-- The sum of the guard-true lanes' signed words. -/
def laneSum (s : State) (u : Bundle) (a : BitVec 6) : Int := ((lanesOf (activeMask s u)).map (fun l => (ownWord s u a l).toInt)).sum

/-- An update of the bundle's guard-true threads counts at its issue: their stores have left the store queue, their loads have taken their values, an
acquire among them has landed, and no update of the workgroup waits before it (R81, R218). -/
abbrev countsNow (s : State) (u : Bundle) : Prop :=
  (squadOf s u).stq = [] ∧ (wgAt s u.wg).arrivals = []
    ∧ ∀ l, l < 32 → inMask (activeMask s u) l = true → loadAhead (squadOf s u) u.e.lb l (squadOf s u).seq = false

/-- Arrivals that can be counted at once and do not complete the thread count (R81, R84). -/
abbrev arrivesFreely (s : State) (u : Bundle) (k : BitVec 4) : Prop :=
  activeMask s u ≠ 0 ∧ (barAt s u k).broken = none ∧ (barAt s u k).init = true
    ∧ (barAt s u k).tarr + (lanesOf (activeMask s u)).length < (barAt s u k).texp ∧ countsNow s u

/-- A barrier with the bundle's guard-true threads counted. -/
def arrived (s : State) (u : Bundle) (_k : BitVec 4) (drop : Bool) (fin : Option (BitVec 3)) (b : Bar) : Bar :=
  let ls := lanesOf (activeMask s u)
  { b with
    tarr := b.tarr + ls.length
    drops := b.drops + (if drop then ls.length else 0)
    arrivers := b.arrivers ++ ls.map (fun l => { sq := u.sq, lb := u.e.lb, lane := l, fin := fin }) }

/-- Arrivals of the bundle's guard-true threads that are counted at once and complete the phase (R81, R84). -/
abbrev arrivesLast (s : State) (u : Bundle) (k : BitVec 4) : Prop :=
  activeMask s u ≠ 0 ∧ (barAt s u k).broken = none ∧ (barAt s u k).init = true
    ∧ (barAt s u k).tarr + (lanesOf (activeMask s u)).length = (barAt s u k).texp ∧ (barAt s u k).earr = (barAt s u k).eexp ∧ (barAt s u k).pend = 0
    ∧ countsNow s u

/-- A barrier in its next phase, after arrivals of the bundle that completed it (R84). -/
def nextPhase (s : State) (u : Bundle) (drop : Bool) (b : Bar) : Bar :=
  let texp := b.texp - (b.drops + if drop then (lanesOf (activeMask s u)).length else 0)
  { b with ph := !b.ph, init := texp != 0 || b.eexp != 0, tarr := 0, earr := 0, pend := 0, texp := texp, drops := 0, arrivers := [] }

/-- A thread waits for the end of a barrier's phase `ph`: in `bar.wait` or at a clause header for the other phase, or in `bar.sync`, counted (R84). -/
def awaitsPhase (k : BitVec 4) (ph : Bool) (x : Waiter) : Prop :=
  x.why = .barrier k.toNat (!ph) ∨ x.why = .sync k.toNat true ∨ (x.why = .clause ∧ clauseBarrier x.next.hdr = some (k.toNat, !ph))

/-- The mask of a tag instruction names granted tags only (R92). -/
abbrev tagsInGrant (s : State) (u : Bundle) (k : BitVec 4) : Prop := qpair (squadOf s u) k.toNat >>> tagsOf s u.wg = 0

/-- The word that names a signer range, and a declaration that no fault meets (R97, R98). -/
def signerWord (s : State) (u : Bundle) (a : BitVec 6) : Word := ownWord s u a (lowest (activeMask s u))
abbrev declares (s : State) (u : Bundle) (k : BitVec 4) (a : BitVec 6) : Prop :=
  activeMask s u ≠ 0 ∧ 1 ≤ (signerWord s u a).toNat / 2 ^ 16 % 2 ^ 10
    ∧ (signerWord s u a).toNat % 2 ^ 9 + (signerWord s u a).toNat / 2 ^ 16 % 2 ^ 10 ≤ 32 * (squadOf s u).nlb
    ∧ (convOf (squadOf s u) k.toNat).st < 2

/-! Votes and indexed accesses. -/

/-- The width of a vote's segment, and whether thread `t` votes with lane `i` (R31, R33, R136). -/
def voteWidth (s : State) (u : Bundle) : Nat := if versionOf s u.wg = 5 ∨ h16 s u.wg = true then 16 else 32
def votesWith (s : State) (u : Bundle) (i t : Nat) : Bool := decide (t / voteWidth s u = i / voteWidth s u) && inMask (activeMask s u) t

/-- The index register of a lane as LIM × 2^16 + BASE: the staged one of a replayed lane, else the one read at issue (R114, R331). -/
def indexReg (s : State) (u : Bundle) (x : BitVec 2) (l : Nat) : Nat :=
  match u.e.replay.find? (fun p => p.1 == l) with
  | some p => (w32 p.2.c).toNat
  | none => ((xget (squadOf s u) u.e.lb x.toNat l).1 * 2 ^ 16 + (xget (squadOf s u) u.e.lb x.toNat l).2) % 2 ^ 32

/-- The word that `ix.st` stores: the staged one of a replayed lane, else its register. -/
def indexSource (s : State) (u : Bundle) (v : BitVec 6) (l : Nat) : Word :=
  match u.e.replay.find? (fun p => p.1 == l) with
  | some p => w32 p.2.a
  | none => ownWord s u v l

/-- A lane is parked at the instruction with staged operands, and there is a record of a code and a subcode that names the lane and shows `ws` as
staged (R331, R334, R335). -/
def parkedStaged (t : State) (u : Bundle) (l code sub : Nat) (ws : List Word) (st : Staged → Prop) : Prop :=
  (∃ x ∈ (squadOf t u).parked, x.lb = u.e.lb ∧ x.lane = l ∧ x.place = u.e.place ∧ ∃ y, x.how = .replay y false ∧ st y)
    ∧ ∃ r ∈ recordsOf t, recBits r 0 31 24 = code ∧ recBits r 0 23 16 = sub ∧ recBits r 1 25 21 = l ∧ recBits r 1 26 26 = 1
      ∧ ∀ k, k < 6 → wordAt r (10 + k) = wordAt ws k

/-! Accesses of one guard-true thread. -/

/-- One thread of the bundle is guard-true. -/
abbrev theLane (s : State) (u : Bundle) (l : Nat) : Prop := l < 32 ∧ activeMask s u = 1#32 <<< l

/-- The machine as the checks of a memory instruction find it: the squad has numbered the access (R175). -/
def issued (s : State) (u : Bundle) : State := inSquad { s with cur := none } u (fun q => { q with seq := q.seq + 1 })

/-- Where the machine stands when an access passed its checks, with its contract-mix flag noted (R194). -/
def mixed (s : State) (u : Bundle) (m : Bool) : State := if m then inSquad s u (fun q => { q with fxs := q.fxs ||| 0x20 }) else s

/-- The machine after an access one of whose threads waits: the requests of the squad's remote loads that may be sent are sent. -/
def sentIf (s : State) (u : Bundle) (waits : Bool) : State := if waits then sendLoads s u.wg u.sq else s

/-- A load instruction of one guard-true thread whose address passes the checks leaves a pending load of its bytes for its destination, which names the thread,
the registers, the size, the extension and the address, and, where no store of its squad is queued, the place in memory; the
thread goes on after the last check, or after the reply of a remote access, whose request is sent if it may be; nothing else changes (R195 to R198, R216). -/
def loads (i : Instr) (size : Nat) (fmt : LoadFmt) (d a : BitVec 6) (off : DWord) (home acq : Bool) : Prop :=
  ∀ s u l r p, Issuing s u → theLane s u l → aligned [(a, 2), (d, regWords size)] →
    let st := stage s u { a := some (own a 2) } l
    let ea := w64 st.a + off
    laneAccess (issued s u) u.wg ea size size .load detRemote true true = (r, .ok p) →
    let x := startLoad r u (squadOf s u).seq l d size fmt home acq ea st p
    ∃ t, exec i s = .next t
      ∧ still t = still (let m := mixed x.1 u p.mix
          sentIf m u x.2.why.isSome) ∧ (∀ b, Memory.read t.mem b = Memory.read r.mem b)
      ∧ (∃ q, Map.find (squadOf t u).loads r.ids = some q ∧ q.seq = (squadOf s u).seq ∧ q.lb = u.e.lb ∧ q.lane = l ∧ q.d = d ∧ q.size = size ∧ q.fmt = fmt
          ∧ q.place = u.e.place ∧ q.ea = ea ∧ q.acq = acq
          ∧ (∀ b, p.acc.loc = .local b → (squadOf s u).stq = [] → q.src = .mem b p.acc.attr (home || p.acc.attr.det)))
      ∧ met t u l (match x.2.why with
        | some y => .waits y
        | none => .checked)
      ∧ othersStay s t u

/-- A store instruction of one guard-true thread whose address passes the checks adds one entry to the squad's store queue, with the bytes of its
register, little-endian; memory is as the checks left it until the entry is performed (R175, R198). -/
def stores (i : Instr) (size : Nat) (v a : BitVec 6) (off : DWord) (scope : Nat) (release : Bool) : Prop :=
  ∀ s u l r p, Issuing s u → theLane s u l → aligned [(a, 2), (v, regWords size)] → (squadOf s u).remoteErr = none →
    let st := stage s u { d := some (own v (regWords size)), a := some (own a 2) } l
    let ea := w64 st.a + off
    laneAccess (issued s u) u.wg ea size size .store detRemote false true = (r, .ok p) →
    ∃ t, exec i s = .next t
      ∧ still t = still (mixed (inSquad r u (fun q => { q with stq := q.stq ++ [{
          seq := (squadOf s u).seq, lb := u.e.lb, scope := scope, release := release, atomic := false
          lanes := [{ lane := l, ea := ea, loc := p.acc.loc, attr := p.acc.attr, bytes := leBytes size st.d.toNat, atom := none, ret := none
                      ord := none, place := u.e.place, staged := st
                      shown := stagedWords { d := some (own v (regWords size)), a := some (own a 2) } st [0] }] }] })) u p.mix)
      ∧ (∀ b, Memory.read t.mem b = Memory.read r.mem b) ∧ met t u l .checked ∧ othersStay s t u

/-- An access of `n` bytes at an offset of a typed buffer lies inside the allocation of workgroup `v`, at a multiple of its size (R179). -/
abbrev inAllocation (s : State) (v spc : Nat) (off : Int) (n : Nat) : Prop := 0 ≤ off ∧ off % n = 0 ∧ off + n ≤ allocOf s v spc

/-- A typed-buffer load of one guard-true thread inside the allocation of workgroup `v`, of bytes that are not poisoned and, in C, in no open run, gives
the buffer's bytes at issue to a pending load, or, behind an older load of its thread whose value is still to come, leaves one that takes them in its turn
(R179, R204, R205, R216, R225). One from S is behind no store of its squad. -/
def bufLoads (i : Instr) (size spc : Nat) (d a : BitVec 6) (off : Int) (pre : State → Bundle → Prop) (from_ : State → Bundle → Nat) : Prop :=
  ∀ s u l, Issuing s u → theLane s u l → aligned [(d, regWords size)] → pre s u →
    let st := stage s u { a := some (own a 1) } l
    let o := (w32 st.a).toNat + off * size
    inAllocation s (from_ s u) spc o size → bufPoisoned (wgAt s (from_ s u)) spc o.toNat size = false → (spc = 3 → (wgAt s (from_ s u)).runs = []) →
    (spc = 4 → (squadOf s u).stq = []) →
    ∃ t, exec i s = .next t
      ∧ still t = still (inSquad (issued s u) u (fun q => { q with loads := Map.put q.loads s.ids {
          seq := (squadOf s u).seq, lb := u.e.lb, lane := l, d := d, size := size, fmt := .zext, place := u.e.place, ea := BitVec.ofInt 64 o
          src := if loadAhead (squadOf s u) u.e.lb l (squadOf s u).seq then (if spc = 4 then .sbuf o.toNat else .buf (from_ s u) spc o.toNat)
            else .value (BitVec.ofNat 128 (leNat (bufRead (wgAt s (from_ s u)) spc o.toNat size)))
          staged := st, shown := [], acq := false } }))
      ∧ (∀ b, Memory.read t.mem b = Memory.read s.mem b) ∧ met t u l .checked ∧ othersStay s t u

/-- The staged operands of an atomic, and the entry that one of them queues (R201, R202). -/
def atomEntry (s : State) (u : Bundle) (l : Nat) (ea : DWord) (scope : Nat) (p : Passed) (op : AtomOp) (ret ord : Option Nat) (st : Staged)
    (shown : List Word) : StEntry :=
  { seq := (squadOf s u).seq, lb := u.e.lb, scope := scope, release := decide (2 ≤ scope), atomic := true
    lanes := [{ lane := l, ea := ea, loc := p.acc.loc, attr := p.acc.attr, bytes := [], atom := some op, ret := ret, ord := ord
                place := u.e.place, staged := st, shown := shown }] }

/-- Where an access goes. -/
def Loc.isRemote : Loc → Bool
  | .remote _ _ => true
  | _ => false

/-! Floating point (R146, R147). -/

/-- Whether a guard-true lane is stopped by the invalid trap: `V` is 1, the result is invalid, and the lane is not being replayed. -/
def invalidStops (s : State) (u : Bundle) (out : FpOut) : Bool := trapInvalid s u.wg && u.e.replay.isEmpty && out.flags.inv

/-- The guard-true lanes that the invalid trap does not stop. -/
def validLanes (s : State) (u : Bundle) (out : Nat → FpOut) : BitVec 32 := maskOf (fun l => inMask (activeMask s u) l && !invalidStops s u (out l))

/-- The issuing squad after the lanes of `m` wrote their values and predicates, or-ed their flags into `FXS` and added their counts. -/
def fpWritten (u : Bundle) (m : BitVec 32) (d : Option (BitVec 6 × Nat)) (p : Option (BitVec 3)) (out : Nat → FpOut) (q : Squad) : Squad :=
  let q1 := match d with
    | some (d, n) => vsetWide q u.e.lb d.toNat (maskOf (fun l => inMask m l && (out l).writes)) (fun l => (out l).val) n
    | none => q
  let q2 := match p with
    | some p => pset q1 u.e.lb p.toNat m (maskOf (fun l => (out l).pred))
    | none => q1
  { q2 with
    fxs := q.fxs ||| ((lanesOf m).foldl (fun (x : Flags) l => x.or (out l).flags) {}).word
    satc := min 0xFFFF (q.satc + (lanesOf m).foldl (fun n l => n + (out l).satc) 0)
    zerc := min 0xFFFF (q.zerc + (lanesOf m).foldl (fun n l => n + (out l).zerc) 0) }

/-- An instruction that can set INV: the lanes that are not stopped write, with `V` = 1 they wait for the last check, and a stopped lane parks at
the instruction with record code 0x0C; guard-false threads go on (R146, R147). -/
def fpDoes (i : Instr) (pre : State → Bundle → Prop) (d : Option (BitVec 6 × Nat)) (p : Option (BitVec 3)) (out : State → Bundle → Nat → FpOut) : Prop :=
  doesAlone i pre (fun s u => inSquad s u (fpWritten u (validLanes s u (out s u)) d p (out s u)))
    (fun s u l => activeFate (if invalidStops s u (out s u l) then .parked u.e.place 0x0C 0
      else if trapInvalid s u.wg then .checked else .on u.next) s u l)

/-- The operands of a lane: staged ones of a replayed lane, else the registers. -/
def operA (s : State) (u : Bundle) (a : BitVec 6) (m : BitVec 2) (k : Nat) (l : Nat) : Wide := (stage s u { a := some ⟨a, m, k⟩ } l).a
def operB (s : State) (u : Bundle) (b : BitVec 6) (n : BitVec 2) (k : Nat) (l : Nat) : Wide := (stage s u { b := some ⟨b, n, k⟩ } l).b
def operC (s : State) (u : Bundle) (c : BitVec 6) (x : BitVec 2) (k : Nat) (l : Nat) : Wide := (stage s u { c := some ⟨c, x, k⟩ } l).c
def operD (s : State) (u : Bundle) (d : BitVec 6) (k : Nat) (l : Nat) : Wide := (stage s u { d := some (own d k) } l).d

/-- A number of a format in the low bits of an operand, or in its half `j`; FP64 is never flushed (R144). -/
def numOf (f : Fmt) (s : State) (u : Bundle) (x : Wide) (j : Nat) : FVal :=
  f.read (flushes s u.wg && f.eb != 11) (x.toNat / 2 ^ ((f.signBit + 1) * j) % 2 ^ (f.signBit + 1))

/-- An exact result rounded to nearest in a format, with its flags. -/
def nearest (f : Fmt) (s : State) (u : Bundle) (r : XVal × Bool) : Nat × Flags := f.finish 0 (flushes s u.wg && f.eb != 11) r

/-- Both halves of a word. -/
def bothHalves (r : Nat → Nat × Flags) : FpOut := { val := BitVec.ofNat 256 ((r 0).1 + 2 ^ 16 * (r 1).1), flags := (r 0).2.or (r 1).2 }

/-- The rational number of an exact value. -/
def ratOf : XVal → Rat
  | .num neg n d => if neg then -((n : Rat) / d) else (n : Rat) / d
  | _ => 0

/-! Signed matrix operations (R96, R238). -/

/-- A convergence register of the issuing squad, and the thread numbers of lanes of the issuing bundle. -/
def convAt (s : State) (u : Bundle) (k : BitVec 3) : Conv := convOf (squadOf s u) k.toNat
def threadsOf (u : Bundle) (m : BitVec 32) : List Nat := (lanesOf m).map (fun l => u.e.lb * 32 + l)

/-- The register after the bundle signed for instruction `i`: guard-true threads in full. -/
def signedConv (s : State) (u : Bundle) (k : BitVec 3) (i : Instr) : Conv :=
  let c := convAt s u k
  { c with
    st := 2, signed := c.signed ++ threadsOf u u.e.mask, full := c.full ++ threadsOf u (activeMask s u)
    open_ := c.open_.or (some (i, u.e.place)) }

/-- Every thread of the bundle may sign `i` on its register: it lies in the range and the register is declared and bound as the form needs, the
signature agrees with the first, no thread of the range exited unsigned, and FP64 registers are even (R96, R98, R238, R239, R241). -/
abbrev maySign (s : State) (u : Bundle) (k : BitVec 3) (i : Instr) (cluster : Bool) : Prop :=
  u.e.mask ≠ 0 ∧ ((convAt s u k).st = 1 ∨ (convAt s u k).st = 2) ∧ (convAt s u k).bound = cluster
    ∧ (cluster = true → (wgAt s u.wg).aligned = true)
    ∧ (∀ l, l < 32 → inMask u.e.mask l = true → (convAt s u k).first ≤ u.e.lb * 32 + l ∧ u.e.lb * 32 + l < (convAt s u k).first + (convAt s u k).count)
    ∧ (∀ o ∈ (convAt s u k).open_, o.1 = i) ∧ ((convAt s u k).full = [] → oddDouble (convAt s u k).mf0 i = false)
    ∧ ∀ j, j < (convAt s u k).count → inMask (exitedOf (squadOf s u) (((convAt s u k).first + j) / 32)) (((convAt s u k).first + j) % 32) = true
        → (convAt s u k).first + j ∈ (convAt s u k).signed

/-- The signed forms with their fields: whether a cluster form, and the squad-register pairs that must be even (R43). -/
def signedForms (k : BitVec 3) (x : BitVec 1) (a : BitVec 6) (y : BitVec 1) (b : BitVec 6) (r : BitVec 5) : List (Instr × Bool) :=
  [(.mma k x a y b r, false), (.mmz k x a y b r, false), (.mmp k x a y b r, false), (.mmaCl k x a y b r, true), (.mmzCl k x a y b r, true),
    (.mmpCl k x a y b r, true)]

/-! Engines (R264, R283, R304). -/

/-- A transfer instruction of one guard-true thread whose checks pass becomes one operation of the core's transfer unit, with the pieces the
checks gave, and the thread goes on after the last check (R263, R264, R274). -/
def transfers (i : Instr) (al : List (BitVec 6 × Nat)) (o : Opnds) (x : BitVec 6) (na kind : BitVec 1)
    (f : State → Bundle → Nat → Staged → State × Except EngFault (List Piece × Bool)) : Prop :=
  ∀ s u l r ps mix, Issuing s u → theLane s u l → aligned al → u.e.replay = [] → completionFault s u.wg kind x = none →
    f { s with cur := none } u l (stage s u o l) = (r, .ok (ps, mix)) →
    ∃ t, exec i s = .next t
      ∧ still t = still (mixed (modCore r (wgAt s u.wg).core (fun c => { c with xfers := Map.put c.xfers r.ids {
          wg := u.wg, sq := u.sq, place := u.e.place, ins := i, kindBar := kind == 1, x := x.toNat, na := na == 1, pieces := ps
          halves := (ps.map (fun p => if p.half.isSome then 1 else 2 * p.n)).sum, parkedLanes := [], abandoned := false
          before := (squadOf s u).seq, stopped := false, landed := [] } })) u mix)
      ∧ (∀ b, Memory.read t.mem b = Memory.read r.mem b) ∧ met t u l .checked ∧ othersStay s t u

/-- The copy engine's context of the issuing core, and the one `cpe.run` takes: the lowest that no live workgroup owns, or that the issuing one
owns and has finished (R283). -/
def ceOf (s : State) (u : Bundle) (k : Nat) : CeCtx := ceAt s (wgAt s u.wg).core k
def ceMayTake (s : State) (u : Bundle) (k : Nat) : Bool :=
  match (ceOf s u k).owner with
  | none => true
  | some v => (wgAt s v).status == 2 || (v == u.wg && decide (4 ≤ (ceOf s u k).st) && (ceOf s u k).moves.isEmpty)

/-! Class SYS (R325 to R353). -/

/-- The issuing squad's privilege level is at least `lvl`: 0 user, 1 trap, 2 firmware (R325). -/
abbrev atLevel (s : State) (u : Bundle) (lvl : Nat) : Prop := lvl ≤ (wgAt s u.wg).level

/-- A SYS instruction that writes `n` words of every guard-true lane with one value, and nothing else. -/
def sysGives (i : Instr) (lvl : Nat) (d : BitVec 6) (n : Nat) (f : State → Bundle → DWord) : Prop :=
  completes i keepV (fun s u => atLevel s u lvl ∧ aligned [(d, n)])
    (fun s u o x => wordsWritten u (activeMask s u) d n (fun _ => wide64 (f s u)) o x)

/-- The context that SYS instructions act on: the issuing one, at firmware level the selected one (R326). -/
def contextOf (s : State) (u : Bundle) : Nat := if (wgAt s u.wg).level = 2 then (wgAt s u.wg).selected else (wgAt s u.wg).ctx

/-- The word and the pair that the lowest guard-true lane supplies (R347). -/
def lowWord (s : State) (u : Bundle) (a : BitVec 6) : Word := ownWord s u a (lowest (activeMask s u))
def lowPair (s : State) (u : Bundle) (a : BitVec 6) : DWord := srcPair s u a 0 (lowest (activeMask s u))

/-- No engine work of the contexts `mine` has passed its checks without being done; some has: a transfer operation with pieces to write, or a line request of
a copy-engine context that stands at no fault (R349). -/
abbrev nothingChecked (s : State) (mine : Nat → Bool) : Prop :=
  s.devOps = [] ∧ ∀ c ∈ s.cores, (∀ x ∈ c.2.xfers, x.2.pieces = [] ∨ mine (wgAt s x.2.wg).ctx = false)
    ∧ ∀ k ∈ c.2.ces, k.2.moves = [] ∨ ∀ w ∈ k.2.owner, mine (wgAt s w).ctx = false
abbrev somethingChecked (s : State) (mine : Nat → Bool) : Prop :=
  (∃ c k x, Map.find (coreAt s c).xfers k = some x ∧ x.pieces ≠ [] ∧ mine (wgAt s x.wg).ctx = true)
    ∨ ∃ c k w, (ceAt s c k).owner = some w ∧ mine (wgAt s w).ctx = true ∧ (ceAt s c k).stuck = none
        ∧ ∃ m ∈ (ceAt s c k).moves, m.1 ≤ (ceAt s c k).moveNo

/-- The workgroup that `park.ctl` and `dbg.step` name (R351). -/
def parkTarget (s : State) (u : Bundle) (a : BitVec 6) : Option Nat :=
  namedWg s (contextOf s u) ((lowPair s u a).toNat % 2 ^ 32) ((lowPair s u a).toNat / 2 ^ 32 % 2 ^ 16)

/-- No parked thread of a workgroup stands in a wait that its barrier no longer allows (R88). -/
abbrev nobodyBarred (s : State) (w : Nat) : Prop :=
  ∀ q p, q < (wgAt s w).squads.length → p ∈ (sqAt s w q).parked → stillBarred (wgAt s w) p = none

/-- Every parked thread of a workgroup goes on where it parked, or takes up the wait it parked in (R331, R338). -/
def allResumed (s t : State) (w : Nat) : Prop :=
  ∀ q p, q < (wgAt s w).squads.length → p ∈ (sqAt s w q).parked → p.lane < 32 → match p.how with
    | .rewait why next => ∃ x ∈ (sqAt t w q).waiters, x.lb = p.lb ∧ inMask x.mask p.lane = true ∧ x.why = why ∧ x.stand = p.place ∧ x.next = next
    | _ => ∃ e ∈ (sqAt t w q).frontier ++ (sqAt t w q).overflow, e.lb = p.lb ∧ inMask e.mask p.lane = true ∧ e.place = p.place

/-! The copy engine's contexts (R282 to R294). -/

/-- A context's instruction in hand. -/
abbrev CeIssuing (s : State) (core k : Nat) : Prop := s.cur = some (.engine core k)

/-- Register e0 reads as zero and ignores writes (R282). -/
def eReg (c : CeCtx) (r : BitVec 5) : DWord := if r = 0 then 0 else Map.getD c.e r.toNat 0
def eSet (c : CeCtx) (r : BitVec 5) (x : DWord) : CeCtx := if r = 0 then c else { c with e := Map.put c.e r.toNat x }

/-- The context goes on at the next word, or at an offset in words. -/
def eOn (c : CeCtx) : CeCtx := { c with pc := c.pc + 4, st := 1 }
def eTo (c : CeCtx) (o : BitVec 16) : CeCtx := { c with pc := c.pc + o.signExtend 64 * 4 }

/-- An instruction that changes its own context and nothing else of the machine. -/
def ceSteps (i : Instr) (pre : State → CeCtx → Prop) (f : CeCtx → CeCtx) : Prop :=
  ∀ s core k, CeIssuing s core k → pre s (ceAt s core k) → exec i s = .next (modCe { s with cur := none } core k f)

/-- An instruction that writes one register of its context and goes on. -/
def ceGives (i : Instr) (d : BitVec 5) (f : CeCtx → DWord) : Prop := ceSteps i (fun _ _ => True) (fun c => eOn (eSet c d (f c)))

/-- A context's fault at the instruction: it stands there parked with a subcode, and a record of code 0x20 with that subcode is held (R294). -/
def ceParks (i : Instr) (pre : State → CeCtx → Prop) (sub : Nat) : Prop :=
  ∀ s core k, CeIssuing s core k → pre s (ceAt s core k) → (ceAt s core k).st < 4 → (ceAt s core k).owner.isSome = true →
    ∃ t, exec i s = .next t ∧ ceAt t core k = { ceAt s core k with st := 3, fsub := sub }
      ∧ (∀ b, Memory.read t.mem b = Memory.read s.mem b) ∧ t.wgs = s.wgs
      ∧ ∃ r ∈ recordsOf t, recBits r 0 31 24 = 0x20 ∧ recBits r 0 23 16 = sub

/-- A move of `n` elements, the first from a clean cursor, that forms one line request without a fault: the request joins the outstanding ones and
the context goes on (R285, R291). -/
def moveGoesOut (i : Instr) (s : State) (core k : Nat) (elem : State → Nat → State × CeElem) (n : Nat) (s1 : State) : Prop :=
  ∀ r es, takeLine elem n 0 none s1 = (r, es) → es.length = n → 0 < n → (ceAt s1 core k).cursor = 0 → (ceAt s1 core k).moves.length < 64 →
    (∀ e ∈ es, e.faults = [] ∧ ∀ z ∈ e.stamps, z.1 = 0 ∨ z.1 = contractOf r (ceOwner s core k)) → (∀ e ∈ es, ∀ p ∈ e.piece, sourcePoisoned r (ceOwner s core k) core p = false) →
    ceAt r core k = ceAt s1 core k → es.filterMap (fun e => e.piece) ≠ [] →
    ∃ t, exec i s = .next t ∧ ceAt t core k = { ceAt s1 core k with
        pc := (ceAt s1 core k).pc + 4, st := 1, cursor := 0, held := none, left := [], moveNo := (ceAt s1 core k).moveNo + 1
        moves := (ceAt s1 core k).moves ++ [((ceAt s1 core k).moveNo, (ceAt s1 core k).pc, es.filterMap (fun e => e.piece))] }
      ∧ t.mem = r.mem ∧ t.wgs = r.wgs

/-! Events. -/

/-- An event with its argument completes in every state that meets a premise, with a relation between the states before and after. -/
def happens (i : Instr) (a : EventArg) (pre : State → Prop) (post : State → State → Prop) : Prop :=
  ∀ s, s.arg = a → pre s → ∃ t, exec i s = .next t ∧ post s t

/-- An event whose argument names nothing that may happen leaves the machine as it is. -/
def idle (i : Instr) (a : EventArg) (pre : State → Prop) : Prop := ∀ s, s.arg = a → pre s → exec i s = .next s

/-- There is such a squad. -/
abbrev isSquad (s : State) (w q : Nat) : Prop := w < s.wgs.length ∧ q < (wgAt s w).squads.length

/-- A thread stands at a place, in an entry; it is parked at a place. -/
def standsAt (sq : Squad) (lb l : Nat) (p : Place) : Prop := ∃ e ∈ sq.frontier ++ sq.overflow, e.lb = lb ∧ inMask e.mask l = true ∧ e.place = p
def standsAtPc (sq : Squad) (lb l : Nat) (pc : VAddr) : Prop :=
  ∃ e ∈ sq.frontier ++ sq.overflow, e.lb = lb ∧ inMask e.mask l = true ∧ e.place.pc = pc
def parkedAt (sq : Squad) (lb l : Nat) (p : Place) : Prop := ∃ x ∈ sq.parked, x.lb = lb ∧ x.lane = l ∧ x.place = p

/-- The device holds a fault record with a code and a subcode. -/
def hasRecord (t : State) (code sub : Nat) : Prop := ∃ r ∈ recordsOf t, recBits r 0 31 24 = code ∧ recBits r 0 23 16 = sub

/-- A wait has ended: its threads stand at the place after it. -/
def released (t : State) (w q : Nat) (x : Waiter) : Prop :=
  x ∉ (sqAt t w q).waiters ∧ ∀ l, l < 32 → inMask x.mask l = true → standsAt (sqAt t w q) x.lb l x.next

/-- `n` words of a value have landed in one thread's registers from `d` on; every other register is as before. -/
def landed (old new : Squad) (lb lane : Nat) (d : BitVec 6) (n : Nat) (x : Wide) : Prop :=
  ∀ b r l, r < 256 → l < 32 → vget new b r l =
    if b = lb ∧ d.toNat ≤ r ∧ r < d.toNat + n ∧ l = lane then x.extractLsb' (32 * (r - d.toNat)) 32 else vget old b r l

/-- Memory reads as `old` does but for the bytes of a write. -/
def bytesWritten (old new : Memory) (a : Nat) (bs : List Byte) : Prop :=
  ∀ x, Memory.read new x = if a ≤ x ∧ x < a + bs.length then bs.getD (x - a) 0 else Memory.read old x

/-- A load of one thread has landed: its registers hold the word of `v`, it is no longer outstanding, and an acquire has dropped the core's L1 lines. -/
def loadLanded (s t : State) (w q k : Nat) (p : Pend) (v : Nat) : Prop :=
  landed (sqAt s w q) (sqAt t w q) p.lb p.lane p.d (regWords p.size) (p.word v) ∧ Map.find (sqAt t w q).loads k = none
    ∧ (p.acq = true → (coreAt t (wgAt s w).core).l1d = [])

/-- A pending load of a lane, with a size that an instruction can have; it is its thread's turn. -/
abbrev loadDue (s : State) (w q k : Nat) (p : Pend) : Prop :=
  Map.find (sqAt s w q).loads k = some p ∧ p.lane < 32 ∧ p.size ≤ 16 ∧ loadTurn (sqAt s w q) p = true

/-! Launches (R106 to R111, R341 to R346). -/

/-- The members of a gang, all of which are placed for the first time. -/
abbrev freshGang (s : State) (l : Nat) (a : List (Nat × Nat)) : Prop := (a.map Prod.fst).Nodup ∧ ∀ m ∈ a, wgOf s l m.1 = none

/-- A gang of fresh workgroups stands on its cores: each member is a new workgroup of the launch, placed, at its squads' entries, with its share of
quarters (R109, R112, R228). -/
def gangPlaced (s t : State) (l : Nat) (a : List (Nat × Nat)) : Prop :=
  t.wgs.length = s.wgs.length + a.length ∧ (∀ w, w < s.wgs.length → wgAt t w = wgAt s w)
    ∧ ∀ i m, a[i]? = some m → (
      let g := wgAt t (s.wgs.length + i)
      g.id = m.1 ∧ g.core = m.2 ∧ g.launch = l ∧ g.status = 0 ∧ g.level = 0
        ∧ g.squads = (List.range (hdrSquads (launchAt s l).khw)).map (startSquad (recImage (launchAt s l).rec_) (launchAt s l).khw)
        ∧ g.bars = [] ∧ g.tags = 0 ∧ g.rings = [] ∧ g.bufs = [])

/-- The launch whose gang is being placed. -/
def placer (s : State) : Option Nat := (List.range s.launches.length).find? (fun l => (launchAt s l).placing.isSome)

/-- Launch `x`, with number `i`, is admitted before launch `y` of the same cycle (R108): by `PRI`, then by queue number. -/
def admittedBefore (x : Launch) (i : Nat) (y : Launch) (j : Nat) : Prop :=
  recPri y.rec_ < recPri x.rec_ ∨ (recPri y.rec_ = recPri x.rec_ ∧ (x.queue < y.queue ∨ (x.queue = y.queue ∧ i < j)))

/-- No thread waits for a slot of a queue. -/
abbrev nobodyEnqueues (s : State) : Prop := ∀ w q, ∀ x ∈ (sqAt s w q).waiters, ∀ k d ws, x.why ≠ .slot k d ws

/-- A pre-empted workgroup: flushed, draining, or its issue stopped to be adjourned (R343). -/
def leaves (t : State) (w : Nat) : Prop := (wgAt t w).leaving = some 3 ∨ (wgAt t w).leaving = some 0 ∨ (wgAt t w).leaving = some 1

/-- The physical address of a page-table leaf of level 0, where the tables above it are present (R187). -/
def leafSlot (s : State) (ctx va : Nat) : Option Nat :=
  let table := fun (e : BitVec 64) => if e.getLsbD 63 && e.getLsbD 62 then some (bitsOf e.toNat 39 0 * 4096) else none
  match (pte s (recAddr (ctxAt s ctx).words 1) (bitsOf va 51 43)).bind table with
  | none => none
  | some a => match (pte s a (bitsOf va 42 34)).bind table with
    | none => none
    | some b => match (pte s b (bitsOf va 33 25)).bind table with
      | none => none
      | some c => some (c + 8 * bitsOf va 24 16)

/-! The platform (R298, R355 to R381). -/

/-- An event that changes the platform's registers and nothing else. -/
def setsPlat (i : Instr) (a : EventArg) (pre : State → Prop) (f : State → Platform) : Prop := happens i a pre (fun s t => t = { s with plat := f s })

/-- The platform as bring-up ends (R381). -/
def readyAt (p : Platform) : Platform :=
  { p with tsy := true, rdy := true, step := 7, bal := 0, low := true, mhz := 360, idx := 0, nextIdx := none }

/-- An image that bring-up accepts (R371). -/
def imageGood (slot : Nat) (i : FirmwareImage) : Bool := Config.hssVerify i.digest i.signature && decide (Config.minVersion slot ≤ i.version)

/-- A slot's new value when a digest is measured into it (R371). -/
def extended (s : State) (slot : Nat) (d : BitVec 256) : BitVec 256 :=
  sha256 ((leBytes 32 (Map.getD s.plat.slots slot 0).toNat).reverse ++ (leBytes 32 d.toNat).reverse)

/-- The device at reset but for what the model keeps of its own, and the platform. -/
def asReset (t : State) : Prop :=
  { t with agenda := [], cur := none, arg := .unit, freeCtr := 0, ids := 0, rr := 0, out := [], plat := Platform.reset } = State.reset

/-! Engine steps (R232, R233, R247 to R258, R264, R265, R277, R285). -/

/-- A word of an operation's tile, `b` bytes each (R245). -/
def tileCode (g : Wg) (o : MatOp) (b x : Nat) : Nat := leNat (bufRead g 3 ((tileOf o).1 + x * b) b)

/-- An operation has left its engine; C outside its tile, the other buffers and memory are as before. -/
def opLeft (s t : State) (o : MatOp) : Prop :=
  (∀ x ∈ (coreAt t (wgAt s o.wg).core).mat, x.id ≠ o.id)
    ∧ (∀ spc off, off < 2 ^ 20 → ¬(spc = 3 ∧ (tileOf o).1 ≤ off ∧ off < (tileOf o).1 + (tileOf o).2) →
        bufByte (wgAt t o.wg) spc off = bufByte (wgAt s o.wg) spc off)
    ∧ ∀ x, Memory.read t.mem x = Memory.read s.mem x

/-- An operation alone, neither null nor with a run spoilt, whose tile lies in the buffer and is not poisoned. -/
abbrev opReady (s : State) (o : MatOp) : Prop :=
  o.cluster = none ∧ o.null = false ∧ o.spoilt = false ∧ o.wg < s.wgs.length ∧ tilePoisoned s o = false ∧ (tileOf o).1 + (tileOf o).2 ≤ 2 ^ 20

/-- The tile that the summation model gives (R149): each output is the model's sum over its row of A and column of B, with C, or for `mmz` -0. -/
def modelTile (s t : State) (o : MatOp) : Prop :=
  ∀ f what cl, matFields o.ins = some (f, what, cl) →
    let p := shapeOf o.mf0
    let wide := p.fc == 1
    let fm := if wide then fp64 else fp32
    let b := if wide then 8 else 4
    let m := { sumModel (contractOf s o.wg) wide with flush := (sumModel (contractOf s o.wg) wide).flush && !(p.fa == 18 || p.fa == 19) }
    ∀ i j, i < p.m → j < p.n → tileCode (wgAt t o.wg) o b (i * p.n + j) =
      (modelOut fm ((floatFmt p.fa).getD fp32) ((floatFmt p.fb).getD fp32) m (o.aRows.getD i []) (o.bRows.getD j [])
        (if what = 1 then 2 ^ fm.signBit else tileCode (wgAt s o.wg) o b (i * p.n + j))).1 % 2 ^ (8 * b)

/-- The value of a context's first completion operation, ready to take effect (R285). -/
abbrev compReady (s : State) (core k : Nat) (op : CeComp) : Prop :=
  (∃ before pc, (ceAt s core k).comps.head? = some (before, pc, op) ∧ ∀ m ∈ (ceAt s core k).moves, before ≤ m.1)
    ∧ (ceAt s core k).withheld = false ∧ (ceAt s core k).st < 4

/-! The fabric's engines (R300 to R323). -/

/-- What the device's engines have sent, or will send when a window has room or a remap is over (R299, R300). -/
def outgoing (t : State) : List Outgoing := t.out ++ t.fab.heldOut ++ t.fab.waitOut.map (fun x => x.2)

/-- The check of the page that a workgroup's engine writes a status word on (R301). -/
abbrev statusPage (s : State) (w a : Nat) : State × Except (Nat × Nat) Acc :=
  access s (wgAt s w).core (wgAt s w).ctx ((wgAt s w).level == 2) (BitVec.ofNat 64 a) .engineWrite

/-- A status word of a workgroup's engine has been written in a state `s`: in memory, where its page takes it, or it goes as a store to the device whose memory
the page lies in; where its page no longer takes it, there is the record of that (R301). -/
def statusWritten (s t : State) (w a : Nat) (ws : List Word) : Prop :=
  (∀ r x l, statusPage s w a = (r, .ok x) → x.loc = .local l →
    bytesWritten (keyLine r (lineOf l) x.attr.key).mem t.mem l (ws.flatMap bytesOfWord))
  ∧ (∀ r x d l, statusPage s w a = (r, .ok x) → x.loc = .remote d l →
      t.mem = r.mem ∧ ∃ k, Outgoing.request k d (requestOf s w l (.store (ws.flatMap bytesOfWord))) ∈ outgoing t)
  ∧ ∀ r e, statusPage s w a = (r, .error e) → t.mem = r.mem ∧ hasRecord t 0x21 3

/-- What follows a status word follows at once: its page is not on another device. -/
abbrev statusHere (s : State) (w a : Nat) : Prop := ∀ x d l, (statusPage s w a).2 = .ok x → x.loc ≠ .remote d l

/-- A receive request has been answered: the words are in its lane's registers and nothing else of its squad's registers changed. -/
def answered (s t : State) (k : Nat) (r : RecvReq) (ws : List Word) : Prop :=
  Map.find t.fab.reqs k = none ∧ ∀ b g l, g < 256 → l < 32 → vget (sqAt t r.wg r.sq) b g l =
    if b = r.lb ∧ l = r.lane ∧ r.d.toNat ≤ g ∧ g < r.d.toNat + ws.length then wordAt ws (g - r.d.toNat) else vget (sqAt s r.wg r.sq) b g l

/-- A request of a kind, of a thread of a squad that exists, is the next of its squad. -/
abbrev requestDue (s : State) (k kind : Nat) (r : RecvReq) : Prop :=
  Map.find s.fab.reqs k = some r ∧ r.kind = kind ∧ isSquad s r.wg r.sq ∧ r.lane < 32 ∧ (kind = 2 ∨ recvTurn s k r = true)

/-- A message is the next of its source in a context that exists, and none of that source is held. -/
abbrev messageDue (s : State) (m : Message) : Prop :=
  (Map.find s.ctxs m.ctx.toNat).isSome = true ∧ expectedSeq s m.src m.ctx.toNat = m.seq.toNat ∧ ∀ h ∈ s.fab.held, ¬(h.src = m.src ∧ h.ctx = m.ctx)

/-- A message that comes in without grants: a payload of at most 256 bytes, or an announcement (R300). -/
abbrev comesAtOnce (m : Message) : Prop := messageBytes m ≤ 256 ∨ 65536 < messageBytes m

/-- The grant of a payload is due: its source is the next, after the one granted last, of those that have announced bytes (R300). -/
def grantDue (s : State) (k rank src : Nat) : Prop :=
  (announced s).find? (fun x => x.2 == (k, rank)) = some (src, k, rank)
    ∧ ∀ y ∈ announced s, (src + 1023 - s.fab.lastGrant) % 1024 ≤ (y.1 + 1023 - s.fab.lastGrant) % 1024

/-- A state with a send put. -/
def withSend (s : State) (k : Nat) (op : SendOp) : State := { s with fab := { s.fab with sends := Map.put s.fab.sends k op } }

/-- Whether a member of a communicator being set up supports a contract: this device by its `NCAPV`, another by what it advertised (R316). -/
def memberSupports (e : CommEntry) (i j : Nat) : Prop :=
  if e.members.getD i 0 = Config.ownDevice then Config.ncapv.toNat / 16 ^ j % 16 ≠ 0 else (e.adverts.getD i 0).getLsbD j = true

/-- The first post of a context, in post order, that a message matches; the first unexpected message that a pattern matches (R307). -/
def postFor (s : State) (m : Message) : Option Post := s.fab.posts.find? (fun p => p.ctx == m.ctx.toNat && matchesPost m p.words)
def messageFor (s : State) (ctx : Nat) (ws : List Word) : Option (Message × Bool) :=
  s.fab.unexpected.find? (fun e => e.1.ctx.toNat == ctx && matchesPost e.1 ws)

/-- A delivery of a message to a post has begun. -/
def delivering (t : State) (p : Post) (m : Message) (pulled : Bool) : Prop :=
  ∃ x ∈ t.fab.deliveries, x.2 =
    { post := p, msg := m, pulled := pulled, pieces := none, len := 0, trunc := false, entries := [], pubs := [], granted := 0, asked := false, bad := false }

/-- A message has been taken by a post: the post has left the list and the next number is expected. -/
def taken (s t : State) (m : Message) (p : Post) : Prop :=
  t.fab.posts = s.fab.posts.filter (fun q => q.slot != p.slot) ∧ delivering t p m (decide (65536 < messageBytes m))
    ∧ expectedSeq t m.src m.ctx.toNat = (m.seq.toNat + 1) % 65536 ∧ t.mem = s.mem

/-- A collective has ended, with a record where it failed. -/
def collOver (t : State) (k sub : Nat) : Prop := Map.find t.fab.colls k = none ∧ hasRecord t 0x22 sub

/-! Steps. -/

/-- The state in which a squad's instruction executes, once its entry was chosen: the held-back entries of the cycle counted. -/
def issuedFrom (s t : State) (w q : Nat) (u : Bundle) : State :=
  let b := beginIssue t w q u
  if anyWaitsPartners s w q then modSq b w q (fun sq => perfAdd sq 3 1) else b

/-- The state a turn is taken in: time has passed, and the turn has left the agenda. -/
def turnState (s : State) (rest : List Turn) : State := { passTime s with agenda := rest }

/-- A turn of a squad comes to the issue: nothing else is to be done first, and an entry is chosen. -/
abbrev comesToIssue (s : State) (w q : Nat) (e : Entry) : Prop :=
  issuing s w = true ∧ q < (wgAt s w).squads.length ∧ timedOut s w q = none ∧ ((sqAt s w q).cycle % 4 = 0 → (sqAt s w q).regrouped = true) ∧ tendFirst s w q = none
    ∧ choose s w q = some e ∧ e.place.atHdr = false

end Sys2Proof.Machine
end

