-- ==== Sys2Proof/Certificates/Slice0/Obligations.lean ====
section
/-! DEFINITION. The statements for the provers: what the rules of spec/ say of the instructions, the events and the machine. Terms are in Safety. -/

open Sys2Proof Sys2Proof.Machine

/-- Words of the spec's own encodings decode to the instructions they stand for, in every family, those of the copy engine among them (R88, R132, R137,
R163, R198, R199, R236, R251, R273, R287, R304, R347). -/
def Obligations.WordsDecode : Prop :=
  decodeWord .ctl 7 0x30008027 none = .ok (.barInit 1 4)
  ∧ decodeWord .vec 7 0x6E08000F none = .ok (.idr 1 1)
  ∧ decodeWord .vec 7 0x80182047 none = .ok (.faddF32 3 1 0 2 0)
  ∧ decodeWord .vec 7 0x5C084067 (some 0x00000080) = .ok (.sel 1 2 0 3 0 4)
  ∧ decodeWord .vec 7 0xC0288007 (some 0x00288001) = .ok (.cvt 5 4 0 5 2 0 1)
  ∧ decodeWord .mem 7 0x08304017 none = .ok (.ldB32 6 2 2)
  ∧ decodeWord .mem 7 0x14304007 none = .ok (.stB32 6 2 0)
  ∧ decodeWord .mem 7 0x20388007 (some 0x00002002) = .ok (.ldAcq 7 4 0 4 0 2)
  ∧ decodeWord .mat 7 0x00000017 none = .ok (.mfmt 0 2)
  ∧ decodeWord .mat 7 0x10040617 none = .ok (.accLd 0 8 6 2)
  ∧ decodeWord .xfr 7 0x10518207 (some 0x04000001) = .ok (.tcp 10 12 16 1 0 1)
  ∧ decodeWord .xfr 7 0x40008007 none = .ok (.send 4)
  ∧ decodeWord .sys 7 0x00200027 none = .ok (.sysrd 4 4)
  ∧ decodeWord .ce 7 0x28610005 none = .ok (.ceAddi 3 1 5)
  ∧ decodeWord .ce 7 0 none = .ok .ceHalt

/-- A step runs the decoded instruction: in a squad's turn that comes to the issue, the words at the chosen entry's PC decode to the
instruction that is executed, with its guard, in the state with the entry taken out and the issue counted; what follows is its marks, the
end of a single step and of the cycle, the progress that a watchdog sees, and the device's waits. A copy-engine context's turn and an event's turn run theirs the same way (R37, R51, R60 to R63, R285,
R339, R353). That a
step takes the first turn of an agenda, what a turn is and what comes before an issue are the model's choices (log entries 1, 4, 16), and so is the fault
of a turn that names an instruction row as an event (log entry 58). -/
def Obligations.StepRunsInstruction : Prop :=
  (∀ s w q rest e t x i, (passTime s).agenda = .issue w q :: rest → comesToIssue (turnState s rest) w q e →
    fetchWord (turnState s rest) w e.place.pc = (t, .ok x) → isLong (clauseClass e.place.hdr) (versionOf t w) x = false →
    decodeWord (clauseClass e.place.hdr) (versionOf t w) x none = .ok i →
    let u : Bundle := { wg := w, sq := q, e := e, guard := guardOf x, words := 1 }
    step s = andThen (exec i (issuedFrom (turnState s rest) t w q u))
      (fun r => settle (noteProgress (turnState s rest) (endIssue w q u i (steppers (turnState s rest) u) r))))
  ∧ (∀ s w q rest e t t' x y i, (passTime s).agenda = .issue w q :: rest → comesToIssue (turnState s rest) w q e →
    fetchWord (turnState s rest) w e.place.pc = (t, .ok x) → isLong (clauseClass e.place.hdr) (versionOf t w) x = true →
    e.place.wordIndex < clauseWords e.place.hdr → fetchWord t w (e.place.pc + 4) = (t', .ok y) →
    decodeWord (clauseClass e.place.hdr) (versionOf t' w) x (some y) = .ok i →
    let u : Bundle := { wg := w, sq := q, e := e, guard := guardOf x, words := 2 }
    step s = andThen (exec i (issuedFrom (turnState s rest) t' w q u))
      (fun r => settle (noteProgress (turnState s rest) (endIssue w q u i (steppers (turnState s rest) u) r))))
  ∧ (∀ s core k rest t i, (passTime s).agenda = .engine core k :: rest → nextCe (turnState s rest) core = some k →
    ceLook (turnState s rest) core k = (t, .ok i) →
    step s = andThen (exec i { modCore t core (fun c => { c with ceTurn := k }) with cur := some (.engine core k) })
      (fun r => settle (noteProgress (turnState s rest) r)))
  ∧ ∀ s i x rest, (passTime s).agenda = .event i x :: rest →
    step s = if i.cls.isNone then andThen (exec i { turnState s rest with arg := x }) (fun r => settle (noteProgress (turnState s rest) r))
      else .fault .notAnEvent

/-- What reset leaves: memory in its canonical form and reading zero, no workgroup, launch or context, the package limit and the operating
point of a device not yet ready, launch queues disabled and empty, and the plane map in which every plane serves itself (R297, R355, R356,
R377, R378, R381). That `PERR` and `BERR` are 0 is the model's choice (log entry 9), that memory reads as zero its inference from R381 (log entry 11). -/
def Obligations.ResetState : Prop :=
  Memory.wf State.reset.mem ∧ (∀ a, Memory.read State.reset.mem a = 0)
  ∧ State.reset.wgs = [] ∧ State.reset.launches = [] ∧ State.reset.ctxs = [] ∧ State.reset.cores = []
  ∧ State.reset.plat.rdy = false ∧ State.reset.plat.berr = false ∧ State.reset.plat.perr = false ∧ State.reset.plat.low = true
  ∧ State.reset.plat.plimit = 800 ∧ State.reset.plat.bal = 0 ∧ State.reset.plat.mhz = 360 ∧ State.reset.plat.step = 1
  ∧ (∀ k, Map.find State.reset.plat.opp k = none)
  ∧ (∀ q, (queueOf State.reset q).base = 0 ∧ (queueOf State.reset q).cfg = 0 ∧ (queueOf State.reset q).tail = 0 ∧ (queueOf State.reset q).head = 0
      ∧ (queueOf State.reset q).comp = 0 ∧ (queueOf State.reset q).qseq = 0)
  ∧ ∀ p, p < 8 → bitsOf State.reset.fab.pmap.toNat (3 * p + 2) (3 * p) = p

/-- `nop` does nothing but advance the PC of its threads, all of them whatever their guard says, as the one entry they were: every register, flag, shared
object and byte of memory, every other entry, waiting and parked thread and every fault record is as before (R75). -/
def Obligations.NopOnlyAdvances : Prop :=
  completes .nop keepEntries (fun _ _ => True) (fun _ _ _ _ => True)

/-- The package limit `PLIMIT` (R356): a value from 800 to 2,800 is taken, another is ignored and sets `PERR`; it is 800 at reset. -/
def Obligations.PackageLimit : Prop :=
  (∀ n v, setsPlat .plimitWrite (.value n v) (fun _ => 800 ≤ bitsOf v.toNat 11 0 ∧ bitsOf v.toNat 11 0 ≤ 2800)
    (fun s => { s.plat with plimit := v.truncate 12 }))
  ∧ (∀ n v, setsPlat .plimitWrite (.value n v) (fun _ => bitsOf v.toNat 11 0 < 800 ∨ 2800 < bitsOf v.toNat 11 0)
    (fun s => { s.plat with perr := true }))
  ∧ State.reset.plat.plimit.toNat = 800

/-- No bit of an encoding is dropped: what the encoder writes for a well-formed instruction of an encoding version decodes to that
instruction with every operand, under its guard (R40 to R51). -/
def Obligations.EncodeDecode : Prop :=
  ∀ i c ver g, i.cls = some c → i.inVersion ver = true → i.wf = true →
    ∃ w rest, encode g i = w :: rest ∧ rest.length = (if isLong c ver w then 1 else 0) ∧ decodeWord c ver w rest.head? = .ok i
      ∧ (c ≠ .ce → guardOf w = g)

/-- Each word has one meaning: an instruction that decodes from words is well formed, of the clause's class and of the version, and its
encoding is those words (R40 to R51). -/
def Obligations.DecodeEncode : Prop :=
  ∀ c ver w x i, decodeWord c ver w x = .ok i →
    i.cls = some c ∧ i.inVersion ver = true ∧ i.wf = true ∧ encode (guardOf w) i = w :: (if isLong c ver w then x.toList else [])

/-- Memory keeps its canonical form, whatever the turn: addresses strictly rise and no listed byte is the one an unlisted address reads as
(R184, R185, R381). -/
def Obligations.MemoryStaysCanonical : Prop :=
  ∀ s t, Memory.wf s.mem → step s = .next t → Memory.wf t.mem

/-- The results of the integer arithmetic instructions for each guard-true lane, from the operands that the fields name, permuted where
coded; guard-false lanes, all other registers, the predicates, the flags and memory stay as they are (R125). The results of the logic, shift
and bit-field instructions, and of the immediate forms (R126, R127, R128). -/
def Obligations.IntegerResults : Prop :=
  ((∀ d a m b n, writesWord (.iaddI32 d a m b n) d (fun s u l => srcWord s u a m l + srcWord s u b n l))
   ∧ (∀ d a m b n, writesPair (.iaddI64 d a m b n) [(a, 2), (b, 2)] d (fun s u l => srcPair s u a m l + srcPair s u b n l))
   ∧ (∀ d a m b n, writesWord (.isubI32 d a m b n) d (fun s u l => srcWord s u a m l - srcWord s u b n l))
   ∧ (∀ d a m b n, writesPair (.isubI64 d a m b n) [(a, 2), (b, 2)] d (fun s u l => srcPair s u a m l - srcPair s u b n l))
   ∧ (∀ d a m b n, writesWord (.imulI32 d a m b n) d (fun s u l => srcWord s u a m l * srcWord s u b n l))
   ∧ (∀ d a m b n, writesWord (.imulhI32 d a m b n) d (fun s u l =>
       ((srcWord s u a m l).signExtend 64 * (srcWord s u b n l).signExtend 64).extractLsb' 32 32))
   ∧ (∀ d a m b n, writesWord (.imulhN32 d a m b n) d (fun s u l =>
       ((srcWord s u a m l).zeroExtend 64 * (srcWord s u b n l).zeroExtend 64).extractLsb' 32 32))
   ∧ (∀ d a m b n, writesWord (.imadI32 d a m b n) d (fun s u l => ownWord s u d l + srcWord s u a m l * srcWord s u b n l))
   ∧ (∀ d a m b n, writesWord (.iminI32 d a m b n) d (fun s u l =>
       if (srcWord s u b n l).slt (srcWord s u a m l) then srcWord s u b n l else srcWord s u a m l))
   ∧ (∀ d a m b n, writesWord (.iminN32 d a m b n) d (fun s u l =>
       if (srcWord s u b n l).ult (srcWord s u a m l) then srcWord s u b n l else srcWord s u a m l))
   ∧ (∀ d a m b n, writesWord (.imaxI32 d a m b n) d (fun s u l =>
       if (srcWord s u b n l).slt (srcWord s u a m l) then srcWord s u a m l else srcWord s u b n l))
   ∧ (∀ d a m b n, writesWord (.imaxN32 d a m b n) d (fun s u l =>
       if (srcWord s u b n l).ult (srcWord s u a m l) then srcWord s u a m l else srcWord s u b n l))
   ∧ (∀ d a m, writesWord (.iabsI32 d a m) d (fun s u l => if (srcWord s u a m l).msb then -(srcWord s u a m l) else srcWord s u a m l))
   ∧ (∀ d a m b n, writesPair (.imulwN32 d a m b n) [] d (fun s u l =>
       (srcWord s u a m l).zeroExtend 64 * (srcWord s u b n l).zeroExtend 64))
   ∧ ∀ d a m b n, completes (.iaddc d a m b n) (fun o x => { keepV o x with p := x.p }) (fun _ _ => True) (fun s u o x =>
       let sum := fun l => (srcWord s u a m l).toNat + (srcWord s u b n l).toNat + (if predBit s u 6 l then 1 else 0)
       wordsWritten u (activeMask s u) d 1 (fun l => wide32 (BitVec.ofNat 32 (sum l))) o x
         ∧ predWritten u (activeMask s u) 6 (fun l => decide (2 ^ 32 ≤ sum l)) o x))
  ∧ ((∀ d a m b n, writesWord (.land d a m b n) d (fun s u l => srcWord s u a m l &&& srcWord s u b n l))
     ∧ (∀ d a m b n, writesWord (.lor d a m b n) d (fun s u l => srcWord s u a m l ||| srcWord s u b n l))
     ∧ (∀ d a m b n, writesWord (.lxor d a m b n) d (fun s u l => srcWord s u a m l ^^^ srcWord s u b n l))
     ∧ (∀ d a m b n, writesWord (.andn d a m b n) d (fun s u l => srcWord s u a m l &&& ~~~(srcWord s u b n l)))
     ∧ (∀ d a m b n, writesWord (.shl d a m b n) d (fun s u l => srcWord s u a m l <<< (srcWord s u b n l).toNat))
     ∧ (∀ d a m b n, writesWord (.shr d a m b n) d (fun s u l => srcWord s u a m l >>> (srcWord s u b n l).toNat))
     ∧ (∀ d a m b n, writesWord (.sar d a m b n) d (fun s u l => (srcWord s u a m l).sshiftRight (srcWord s u b n l).toNat))
     ∧ (∀ d a m b n, writesWord (.rotl d a m b n) d (fun s u l => (srcWord s u a m l).rotateLeft ((srcWord s u b n l).toNat % 32)))
     ∧ (∀ d a m, writesWord (.popc d a m) d (fun s u l => BitVec.ofNat 32 ((List.range 32).countP (fun i => (srcWord s u a m l).getLsbD i))))
     ∧ (∀ d a m, writesWord (.clz d a m) d (fun s u l => BitVec.ofNat 32 ((List.range 33).findIdx (fun k => k = 32 ∨ (srcWord s u a m l).getLsbD (31 - k)))))
     ∧ (∀ d a m, writesWord (.brev d a m) d (fun s u l => maskOf (fun i => (srcWord s u a m l).getLsbD (31 - i))))
     ∧ (∀ d a m pos len sg, 1 ≤ len.toNat → pos.toNat + len.toNat ≤ 32 → writesWord (.bfx d a m pos len sg) d (fun s u l =>
         maskOf (fun i => (srcWord s u a m l).getLsbD (pos.toNat + (if i < len.toNat then i else len.toNat - 1)) && (decide (i < len.toNat) || sg == 1))))
     ∧ (∀ d a m pos len, 1 ≤ len.toNat → pos.toNat + len.toNat ≤ 32 → writesWord (.bfi d a m pos len) d (fun s u l =>
         maskOf (fun i => if pos.toNat ≤ i ∧ i < pos.toNat + len.toNat then (srcWord s u a m l).getLsbD (i - pos.toNat) else (ownWord s u d l).getLsbD i)))
     ∧ (∀ d a m i, writesWord (.iaddi d a m i) d (fun s u l => srcWord s u a m l + i.signExtend 32))
     ∧ (∀ d a m i, writesWord (.andi d a m i) d (fun s u l => srcWord s u a m l &&& i.signExtend 32))
     ∧ (∀ d a m i, writesWord (.ori d a m i) d (fun s u l => srcWord s u a m l ||| i.signExtend 32))
     ∧ (∀ d a m i, writesWord (.xori d a m i) d (fun s u l => srcWord s u a m l ^^^ i.signExtend 32))
     ∧ (∀ d a m i, writesWord (.shli d a m i) d (fun s u l => srcWord s u a m l <<< i.toNat))
     ∧ (∀ d a m i, writesWord (.shri d a m i) d (fun s u l => srcWord s u a m l >>> i.toNat))
     ∧ (∀ d a m i, writesWord (.sari d a m i) d (fun s u l => (srcWord s u a m l).sshiftRight i.toNat))
     ∧ ∀ d i, writesWord (.movi d i) d (fun _ _ _ => i.signExtend 32))

/-- The results of the compares and of the predicate instructions: each guard-true lane writes its predicate, p7 discards the write and
reads true, and the vote counts the guard-true threads of the bundle in the lane's segment (R112, R129, R130, R131, R136). -/
def Obligations.PredicateResults : Prop :=
  (∀ p c a m b n, c.toNat ≤ 5 → writesPred (.icmpI32 p c a m b n) [] p (fun s u l =>
      let x := (srcWord s u a m l).toInt
      let y := (srcWord s u b n l).toInt
      [decide (x = y), decide (x ≠ y), decide (x < y), decide (x ≤ y), decide (y < x), decide (y ≤ x)].getD c.toNat false))
  ∧ (∀ p c a m b n, c.toNat ≤ 5 → writesPred (.icmpN32 p c a m b n) [] p (fun s u l =>
      let x := (srcWord s u a m l).toNat
      let y := (srcWord s u b n l).toNat
      [decide (x = y), decide (x ≠ y), decide (x < y), decide (x ≤ y), decide (y < x), decide (y ≤ x)].getD c.toNat false))
  ∧ (∀ p c a m b n, c.toNat ≤ 5 → writesPred (.icmpI64 p c a m b n) [(a, 2), (b, 2)] p (fun s u l =>
      let x := (srcPair s u a m l).toInt
      let y := (srcPair s u b n l).toInt
      [decide (x = y), decide (x ≠ y), decide (x < y), decide (x ≤ y), decide (y < x), decide (y ≤ x)].getD c.toNat false))
  ∧ (∀ p f q r, writesPred (.plog p f q r) [] p (fun s u l =>
      let x := predBit s u q l
      let y := predBit s u r l
      [x && y, x || y, xor x y, x && !y, x || !y, !(x && y), !(x || y), !(xor x y)].getD f.toNat false))
  ∧ (∀ a m, completes (.pmovVp a m) keepP (fun _ _ => True) (fun s u o x =>
      ∀ lb k l, k < 8 → l < 32 → inMask (pget x lb k) l =
        if lb = u.e.lb ∧ k ≠ 7 ∧ inMask (activeMask s u) l = true then (srcWord s u a m l).getLsbD k else inMask (pget o lb k) l))
  ∧ (∀ p q, writesPred (.voteAny p q) [] p (fun s u i =>
      (List.range 32).any (fun t => votesWith s u i t && predBit s u q t)))
  ∧ ∀ p q, writesPred (.voteAll p q) [] p (fun s u i =>
      (List.range 32).all (fun t => !votesWith s u i t || predBit s u q t))

/-- The results of the moves between registers, predicates, squad registers, index registers and the permutation table, of the selections,
shuffles and ballots (R116, R119, R121, R131 to R136). What the identity reads give, selector by selector (R137). -/
def Obligations.MoveShuffleResults : Prop :=
  ((∀ d a m, writesWord (.mov d a m) d (fun s u l => srcWord s u a m l))
   ∧ (∀ d lit, writesWord (.movl d lit) d (fun _ _ _ => lit))
   ∧ (∀ d a m b n p, writesWord (.sel d a m b n p) d (fun s u l => if predBit s u p l then srcWord s u a m l else srcWord s u b n l))
   ∧ (∀ d, writesWord (.pmovPv d) d (fun s u l => maskOf (fun k => decide (k = 7) || (decide (k < 7) && predBit s u (BitVec.ofNat 3 k) l))))
   ∧ (∀ d q, writesWord (.qget d q) d (fun s u _ => qget (squadOf s u) q.toNat))
   ∧ (∀ q a m, completes (.qset q a m) keepQ (fun _ _ => True) (fun s u o x => ∀ k, qget x k =
       if k = q.toNat ∧ activeMask s u ≠ 0 then srcWord s u a m (lowest (activeMask s u)) else qget o k))
   ∧ (∀ t a m, 1 ≤ t.toNat → t.toNat ≤ 3 → completes (.permSet t a m) keepPt (fun _ _ => True) (fun s u o x =>
       ∀ k l, k ≤ 3 → l < 32 → ptget x k l = if k = t.toNat ∧ inMask (activeMask s u) l = true then (srcWord s u a m l).toNat % 32 else ptget o k l))
   ∧ (∀ d a b n, writesWord (.shfl d a b n) d (fun s u i =>
       let width := if h16 s u.wg then 16 else 32
       ownWord s u a (i / width * width + (srcWord s u b n i).toNat % width)))
   ∧ (∀ d a md t, writesWord (.shfl16 d a md t) d (fun s u i =>
       let width := if h16 s u.wg then 16 else 32
       let first := i / width * width
       ownWord s u a ([first + t.toNat % width, if first + t.toNat ≤ i then i - t.toNat else i,
         if i + t.toNat < first + width then i + t.toNat else i, first + Nat.xor (i - first) (t.toNat % width)].getD md.toNat 0)))
   ∧ (∀ q d, writesWord (.voteBallot q d) d (fun s u i =>
       maskOf (fun j =>
         let t := i / voteWidth s u * voteWidth s u + j
         decide (j < voteWidth s u) && votesWith s u i t && predBit s u q t)))
   ∧ (∀ x a m, completes (.ixSet x a m) keepX (fun _ _ => True) (fun s u o y =>
       ∀ lb k l, k < 4 → l < 32 → xget y lb k l =
         if lb = u.e.lb ∧ k = x.toNat ∧ inMask (activeMask s u) l = true
         then ((srcWord s u a m l).toNat / 2 ^ 16 % 512, (srcWord s u a m l).toNat % 512) else xget o lb k l))
   ∧ ∀ d x, writesWord (.ixRd d x) d (fun s u l =>
       BitVec.ofNat 32 ((xget (squadOf s u) u.e.lb x.toNat l).1 * 2 ^ 16 + (xget (squadOf s u) u.e.lb x.toNat l).2)))
  ∧ (∀ d sel, sel.toNat ≤ 14 → writesWord (.idr d sel) d (fun s u l =>
       let g := wgAt s u.wg
       let r := (launchAt s g.launch).rec_
       BitVec.ofNat 32 ([32 * u.e.lb + l, l, u.e.lb, u.sq, g.id, (wordAt r 2).toNat, g.core, g.core / 4, g.core / 32, Config.ownDevice,
         (wordAt r 4).toNat, (wordAt r 5).toNat % 2 ^ 20, if detLaunch s u.wg then g.persist else 0,
         if detLaunch s u.wg then (wordAt r 3).toNat / 2 ^ 8 % 8 else 0, (squadOf s u).role].getD sel.toNat 0)))

/-- Indexed accesses. A lane whose offset k is below the LIM of its index register, and whose word BASE + k is below its lane block's allocation,
reads or writes that word. A lane out of bounds writes nothing and parks at the instruction, with the index register (and the word to store) staged
and a record of code 0x06 that names it; the other threads go on (R114, R116, R331). What that record shows as staged is the model's choice (log
entry 75). -/
def Obligations.IndexedAccess : Prop :=
  let inBounds := fun (s : State) (u : Bundle) (x : BitVec 2) (k : BitVec 8) (l : Nat) =>
    decide (k.toNat < indexReg s u x l / 2 ^ 16) && decide (indexReg s u x l % 2 ^ 16 + k.toNat < 64 * ((squadOf s u).alloc + 1))
  let fate := fun (x : BitVec 2) (k : BitVec 8) (s : State) (u : Bundle) (l : Nat) =>
    activeFate (if inBounds s u x k l then .on u.next else .parked u.e.place 0x06 0) s u l
  (∀ d x k, doesAlone (.ixLd d x k) (fun _ _ => True)
      (fun s u => inSquad s u (fun q => vset q u.e.lb d.toNat (maskOf (fun l => inMask (activeMask s u) l && inBounds s u x k l))
        (fun l => vget (squadOf s u) u.e.lb (indexReg s u x l % 2 ^ 16 + k.toNat) l)))
      (fate x k))
  ∧ (∀ v x k, doesAlone (.ixSt v x k) (fun _ _ => True)
      (fun s u => inSquad s u (fun q => (lanesOf (maskOf (fun l => inMask (activeMask s u) l && inBounds s u x k l))).foldl
        (fun q l => vset q u.e.lb (indexReg s u x l % 2 ^ 16 + k.toNat) ((1#32) <<< l) (fun _ => indexSource s u v l)) q))
      (fate x k))
  ∧ (∀ d x k s u l, Issuing s u → u.e.lb < 16 → u.sq < 4 → l < 32 → inMask (activeMask s u) l = true → inBounds s u x k l = false →
      ∃ t, exec (.ixLd d x k) s = .next t ∧ parkedStaged t u l 0x06 0 [] (fun y => (w32 y.c).toNat = indexReg s u x l))
  ∧ ∀ v x k s u l, Issuing s u → u.e.lb < 16 → u.sq < 4 → l < 32 → inMask (activeMask s u) l = true → inBounds s u x k l = false →
      ∃ t, exec (.ixSt v x k) s = .next t
        ∧ parkedStaged t u l 0x06 0 [indexSource s u v l] (fun y => (w32 y.c).toNat = indexReg s u x l ∧ w32 y.a = indexSource s u v l)

/-- Control flow: `yld` marks its entry, `bra` and `call` send the guard-true threads to the word at their offset and `call` writes the
link, `brx` and `ret` send each to the header its pair names, `exit` ends it, `brk` and `trap` park it behind the instruction with a record
of their own code; guard-false threads go on at the next word (R76 to R80). The mark of `yld` (R79): the entry that goes on is marked when a
guard-true thread issued it, and no other entry is touched. An exit that leaves a rejoin mask satisfied lets the threads that wait on it go on (R71),
and one that leaves a convergence register open without its signature ends that operation with subcode 4 (R98). That an issue without guard-true
threads marks nothing is the model's inference (log entry 19), and that a record of `brx` or `ret` stands at the instruction (log entry 18). -/
def Obligations.ControlFlow : Prop :=
  (doesAlone .yld (fun _ _ => True) (fun s _ => s) allOn
   ∧ (∀ o, doesAlone (.bra o) (fun _ _ => True) (fun s _ => s)
       (fun s u l => activeFate (.on (headerPlace (u.e.place.pc + o.signExtend 52 * 4))) s u l))
   ∧ (∀ o, doesAlone (.call o) (fun _ _ => True)
       (fun s u =>
         let link := (u.e.place.base + BitVec.ofNat 52 (4 * (clauseWords u.e.place.hdr + 1))).zeroExtend 64
         inSquad s u (fun q => vset (vset q u.e.lb 62 (activeMask s u) (fun _ => link.extractLsb' 0 32)) u.e.lb 63 (activeMask s u)
           (fun _ => link.extractLsb' 32 32)))
       (fun s u l => activeFate (.on (headerPlace (u.e.place.pc + o.signExtend 52 * 4))) s u l))
   ∧ (∀ a m, doesAlone (.brx a m) (fun _ _ => a.toNat % 2 = 0) (fun s _ => s) (fun s u l =>
       let t := w64 (stage s u { a := some ⟨a, m, 2⟩ } l).a
       activeFate (if t.toNat < 2 ^ 52 then .on (headerPlace (t.truncate 52)) else .parked u.e.place 0x10 3) s u l))
   ∧ doesAlone .ret (fun _ _ => True) (fun s _ => s) (fun s u l =>
       let t := w64 (stage s u { a := some (own 62 2) } l).a
       activeFate (if t.toNat < 2 ^ 52 then .on (headerPlace (t.truncate 52)) else .parked u.e.place 0x10 3) s u l)
   ∧ doesAlone .exit
       (fun s u => (∀ k, k < 16 → (joinOf (squadOf s u) u.e.lb k).arr = 0) ∧ ∀ k, k < 8 → (convOf (squadOf s u) k).st ≠ 2)
       (fun s u => if activeMask s u = 0 then s else inSquad s u (fun q =>
         { q with
           exited := Map.put q.exited u.e.lb (exitedOf q u.e.lb ||| activeMask s u)
           j := (List.range 16).foldl (fun j k => Map.put j (u.e.lb * 16 + k)
             { Map.getD j (u.e.lb * 16 + k) { enr := 0, arr := 0 } with
               enr := (Map.getD j (u.e.lb * 16 + k) { enr := 0, arr := 0 }).enr &&& ~~~(activeMask s u) }) q.j }))
       (fun s u l => activeFate .exited s u l)
   ∧ (∀ n, doesAlone (.brk n) (fun _ _ => True) (fun s _ => s) (fun s u l => activeFate (.parked u.next 0x28 0) s u l))
   ∧ ∀ n, doesAlone (.trap n) (fun _ _ => True) (fun s _ => s) (fun s u l => activeFate (.parked u.next 0x29 0) s u l))
  ∧ (∀ s u, Issuing s u → activeMask s u ≠ 0 → ∃ t, exec .exit s = .next t
      ∧ (∀ l, l < 32 → inMask u.e.mask l = true → met t u l (activeFate .exited s u l))
      ∧ (∀ k, k < 16 → (joinOf (squadOf s u) u.e.lb k).arr ≠ 0 →
          (joinOf (squadOf s u) u.e.lb k).enr &&& ~~~(joinOf (squadOf s u) u.e.lb k).arr &&& ~~~(exitedOf (squadOf s u) u.e.lb ||| activeMask s u) = 0 →
          ∀ x ∈ (squadOf s u).waiters, x.lb = u.e.lb → x.why = .join k → released t u.wg u.sq x)
      ∧ ∀ k l, k < 8 → (convOf (squadOf s u) k).st = 2 → inMask (activeMask s u) l = true → l < 32 →
          (convOf (squadOf s u) k).first ≤ u.e.lb * 32 + l → u.e.lb * 32 + l < (convOf (squadOf s u) k).first + (convOf (squadOf s u) k).count →
          u.e.lb * 32 + l ∉ (convOf (squadOf s u) k).signed →
          convOf (squadOf t u) k = { convOf (squadOf s u) k with st := 1, signed := [], full := [], open_ := none }
            ∧ ((convOf (squadOf s u) k).signed ≠ [] → (convOf (squadOf s u) k).open_ ≠ none → hasRecord t 0x08 4))
  ∧ ∀ s u, Issuing s u → u.e.mask ≠ 0 → ∃ t, exec .yld s = .next t ∧ seated (squadOf s u) (squadOf t u)
       { u.e with place := u.next, notBefore := (squadOf s u).cycle + 1, age := 0, pwait := 0, replay := []
                  yielded := u.e.yielded || decide (activeMask s u ≠ 0) }

/-- The rejoin masks. Each instruction changes its register as the spec says: an enrolment, a strike or an arrival of the guard-true threads, a clear
of the mask, none of which an issue without guard-true threads makes. A register that is then satisfied loses its arrivals, and every thread that
waited on it stands at the place where it goes on; the arrivals of one that is not satisfied wait (R71, R73). -/
def Obligations.RejoinMasks : Prop :=
  let after := fun (s : State) (u : Bundle) (k : BitVec 4) (f : BitVec 32 → Join → Join) => f (activeMask s u) (joinOf (squadOf s u) u.e.lb k.toNat)
  let tests := fun (i : Instr) (k : BitVec 4) (f : BitVec 32 → Join → Join) (fates : State → Bundle → Nat → Fate) =>
    does i (fun _ _ => True) (fun s u => inSquad s u (fun q => setJoin q u.e.lb k.toNat (joinTested q u.e.lb (after s u k f)))) fates
      ∧ ∀ s u, Issuing s u → joinSatisfied (squadOf s u) u.e.lb (after s u k f) = true → ∃ t, exec i s = .next t
          ∧ ∀ x ∈ (squadOf s u).waiters, x.lb = u.e.lb → x.why = .join k.toNat → released t u.wg u.sq x
  (∀ k, tests (.joinEnrol k) k (fun g j => { j with enr := j.enr ||| g }) allOn)
  ∧ (∀ k, tests (.joinStrike k) k (fun g j => { j with enr := j.enr &&& ~~~g }) allOn)
  ∧ (∀ k, tests (.joinClr k) k (fun g j => if g = 0 then j else { j with enr := 0 }) allOn)
  ∧ (∀ k, tests (.joinWait k) k (fun g j => { j with arr := j.arr ||| g })
      (fun s u l => activeFate (if joinSatisfied (squadOf s u) u.e.lb (after s u k (fun g j => { j with arr := j.arr ||| g })) then .on u.next
        else .waits (.join k.toNat)) s u l))
  ∧ ∀ d k m, writesWord (.joinRd d k m) d (fun s u _ =>
      if m = 0 then (joinOf (squadOf s u) u.e.lb k.toNat).enr else (joinOf (squadOf s u) u.e.lb k.toNat).arr)

/-- Barrier set-up, expectations and reads, when none of the barrier faults applies (R83, R84, R88). A thread's arrival that is counted at
once and completes no phase: the count rises by the guard-true threads, `.drop` is remembered, a finisher predicate of a launch with D = 0
becomes false; `bar.sync` then waits for its phase (R84, R85, R88). -/
def Obligations.BarrierUse : Prop :=
  ((∀ k a, doesAlone (.barInit k a)
       (fun s u => activeMask s u ≠ 0 ∧ (barAt s u k).broken = none ∧ (barAt s u k).tarr = 0 ∧ (barAt s u k).earr = 0 ∧ (barAt s u k).pend = 0
         ∧ ∀ q ∈ (wgAt s u.wg).squads, ∀ x ∈ q.waiters, onBarrier k.toNat x = false)
       (fun s u =>
         let v := (ownWord s u a (lowest (activeMask s u))).toNat
         inWg s u (fun g => setBar g k.toNat { barOf g k.toNat with
           texp := v % 2 ^ 12, eexp := v / 2 ^ 12 % 2 ^ 4, init := decide (v % 2 ^ 16 ≠ 0), ph := false })) allOn)
   ∧ (∀ k a, doesAlone (.barExpect k a)
       (fun s u => activeMask s u ≠ 0 ∧ (barAt s u k).broken = none ∧ (barAt s u k).init = true
         ∧ -(2 ^ 27) ≤ (barAt s u k).pend + laneSum s u a ∧ (barAt s u k).pend + laneSum s u a < 2 ^ 27
         ∧ ¬((barAt s u k).tarr = (barAt s u k).texp ∧ (barAt s u k).earr = (barAt s u k).eexp ∧ (barAt s u k).pend + laneSum s u a = 0))
       (fun s u => inWg s u (fun g => setBar g k.toNat { barOf g k.toNat with pend := (barOf g k.toNat).pend + laneSum s u a })) allOn)
   ∧ ∀ d k sel, doesAlone (.barRd d k sel) (fun s u => activeMask s u ≠ 0 ∧ (barAt s u k).broken = none)
       (fun s u =>
         let b := barAt s u k
         inSquad s u (fun q => vset q u.e.lb d.toNat (activeMask s u) (fun _ =>
           if sel = 0 then BitVec.ofNat 32 (2 ^ 31 * bit b.ph + 2 ^ 30 * bit b.init + 2 ^ 16 * b.tarr + 2 ^ 12 * b.eexp + b.texp)
           else if sel = 1 then BitVec.ofNat 32 (2 ^ 28 * b.earr + (b.pend % 2 ^ 28).toNat)
           else BitVec.ofInt 32 (BitVec.ofInt 28 b.pend).toInt))) allOn)
  ∧ ((∀ k r, does (.barArrive k r) (fun s u => arrivesFreely s u k)
         (fun s u => inWg s u (fun g => setBar g k.toNat (arrived s u k (r == 1) none (barOf g k.toNat)))) allOn)
     ∧ (∀ p k r, does (.barArriveFinisher p k r)
         (fun s u => arrivesFreely s u k ∧ detLaunch s u.wg = false ∧ (squadOf s u).holds = [])
         (fun s u => inSquad (inWg s u (fun g => setBar g k.toNat (arrived s u k (r == 1) (some p) (barOf g k.toNat)))) u
           (fun q => pset q u.e.lb p.toNat (activeMask s u) 0)) allOn)
     ∧ (∀ k, does (.barSync k) (fun s u => arrivesFreely s u k)
         (fun s u => inWg s u (fun g => setBar g k.toNat (arrived s u k false none (barOf g k.toNat))))
         (fun s u l => activeFate (.waits (.sync k.toNat true)) s u l))
     ∧ ∀ p k, does (.barSyncFinisher p k)
         (fun s u => arrivesFreely s u k ∧ detLaunch s u.wg = false ∧ (squadOf s u).holds = [])
         (fun s u => inSquad (inWg s u (fun g => setBar g k.toNat (arrived s u k false (some p) (barOf g k.toNat)))) u
           (fun q => pset q u.e.lb p.toNat (activeMask s u) 0))
         (fun s u l => activeFate (.waits (.sync k.toNat true)) s u l))

/-- Arrivals that complete a barrier's phase (R84, R85): the phase bit toggles, the counts return to zero, the threads dropped leave the expected
count, the last thread alone takes a true finisher predicate, every thread goes on, and every thread of the workgroup that waited for that phase, in
`bar.wait`, in `bar.sync` or at a clause header, stands at the place where it goes on. A cluster barrier's arrival writes the complement of the phase;
one that counts at once and is not the last sets its core's bit; the last one toggles the phase, clears the arrivals and lets the waiting threads of
the cluster go on, their cores' L1 lines dropped; one that stores of its core hold back is kept, with its destination marked, and counts later (R81,
R100). -/
def Obligations.BarrierCompletion : Prop :=
  let completing := fun (i : Instr) (k : BitVec 4) (drop : Bool) (pre : State → Bundle → Prop) (f : State → Bundle → Squad → Squad) =>
    does i (fun s u => arrivesLast s u k ∧ pre s u)
        (fun s u => inSquad (inWg s u (fun g => setBar g k.toNat (nextPhase s u drop (barOf g k.toNat)))) u (f s u)) allOn
      ∧ ∀ s u, Issuing s u → arrivesLast s u k → pre s u → ∃ t, exec i s = .next t
          ∧ ∀ q x, x ∈ (sqAt s u.wg q).waiters → awaitsPhase k (barAt s u k).ph x → released t u.wg q x
  let decided := fun (k : BitVec 4) (s : State) (u : Bundle) => (squadOf s u).holds = [] ∧ (detLaunch s u.wg = false ∨ (barAt s u k).arrivers = [])
  let lastTrue := fun (p : BitVec 3) (s : State) (u : Bundle) (q : Squad) =>
    pset q u.e.lb p.toNat (activeMask s u) ((1#32) <<< ((lanesOf (activeMask s u)).getLast?).getD 0)
  (∀ k r, completing (.barArrive k r) k (r == 1) (fun _ _ => True) (fun _ _ q => q))
  ∧ (∀ k, completing (.barSync k) k false (fun _ _ => True) (fun _ _ q => q))
  ∧ (∀ p k r, completing (.barArriveFinisher p k r) k (r == 1) (decided k) (lastTrue p))
  ∧ (∀ p k, completing (.barSyncFinisher p k) k false (decided k) (lastTrue p))
  ∧ (∀ d k s u, Issuing s u → activeMask s u ≠ 0 → (wgAt s u.wg).aligned = true → (∀ f ∈ s.flights, f.2.core ≠ (wgAt s u.wg).core) →
       (wgAt s u.wg).arrivals = [] → (∀ l, l < 32 → inMask (activeMask s u) l = true → loadsTakenBy (squadOf s u) u.e.lb l s.ids = true) → (xbOf s (wgAt s u.wg).core k.toNat).2.getLsbD ((wgAt s u.wg).core % 4) = false →
       ∃ t, exec (.xbarArrive d k) s = .next t
         ∧ wordsWritten u (activeMask s u) d 1 (fun _ => wide32 (if (xbOf s (wgAt s u.wg).core k.toNat).1 then 0 else 1)) (squadOf s u) (squadOf t u)
         ∧ (∀ l, l < 32 → inMask u.e.mask l = true → met t u l (.on u.next))
         ∧ (∀ a, Memory.read t.mem a = Memory.read s.mem a)
         ∧ (let x := xbOf s (wgAt s u.wg).core k.toNat
            let m := x.2 ||| (1#4 <<< ((wgAt s u.wg).core % 4))
            if m = 15 then xbOf t (wgAt s u.wg).core k.toNat = (!x.1, 0)
              ∧ ∀ v ∈ clusterMembers s (wgAt s u.wg).core, ∀ q y, y ∈ (sqAt s v q).waiters → y.why = .xbar k.toNat (!x.1) →
                  released t v q y ∧ (coreAt t (wgAt s v).core).l1d = []
            else xbOf t (wgAt s u.wg).core k.toNat = (x.1, m)))
  ∧ ∀ d k, does (.xbarArrive d k)
      (fun s u => activeMask s u ≠ 0 ∧ (wgAt s u.wg).aligned = true
        ∧ ∃ f ∈ s.flights, f.1 < s.ids ∧ f.2.core = (wgAt s u.wg).core ∧ ∃ a, f.2.ln.loc = .local a)
      (fun s u => inWg (inSquad s u (fun q => { q with holds := q.holds ++ [(itemV u.e.lb d.toNat, s.ids)] })) u (fun g =>
        { g with arrivals := g.arrivals ++ [{ sq := u.sq, lb := u.e.lb, mask := activeMask s u, place := u.e.place, before := s.ids
                                              what := .xbar k.toNat d }] }))
      allOn

/-- Waits whose condition holds do not wait, and those whose condition does not hold do: barriers, tags, rings and cluster barriers, when no
fault of theirs applies; a ring wait that ends writes the cursor, and a cluster barrier wait that ends acquires (R81, R88, R92, R95, R100).
-/
def Obligations.Waits : Prop :=
  (∀ k h, doesAlone (.barWaitImm k h) (fun s u => activeMask s u ≠ 0 ∧ (barAt s u k).broken = none ∧ (barAt s u k).init = true) (fun s _ => s)
    (fun s u l => activeFate (if (barAt s u k).ph = (h == 1) then .on u.next else .waits (.barrier k.toNat (h == 1))) s u l))
  ∧ (∀ k a, doesAlone (.barWaitReg k a) (fun s u => activeMask s u ≠ 0 ∧ (barAt s u k).broken = none ∧ (barAt s u k).init = true) (fun s _ => s)
    (fun s u l => activeFate (if (barAt s u k).ph = (ownWord s u a l).getLsbD 0 then .on u.next
      else .waits (.barrier k.toNat ((ownWord s u a l).getLsbD 0))) s u l))
  ∧ (∀ k, doesAlone (.tagWaitAll k) (fun s u => activeMask s u ≠ 0 ∧ tagsInGrant s u k) (fun s _ => s)
    (fun s u l => activeFate (if (wgAt s u.wg).tags &&& qpair (squadOf s u) k.toNat = qpair (squadOf s u) k.toNat then .on u.next
      else .waits (.tagAll (qpair (squadOf s u) k.toNat))) s u l))
  ∧ (∀ k, doesAlone (.tagWaitAny k) (fun s u => activeMask s u ≠ 0 ∧ tagsInGrant s u k) (fun s _ => s)
    (fun s u l => activeFate (if (wgAt s u.wg).tags &&& qpair (squadOf s u) k.toNat ≠ 0 ∨ qpair (squadOf s u) k.toNat = 0 then .on u.next
      else .waits (.tagAny (qpair (squadOf s u) k.toNat))) s u l))
  ∧ (∀ d k, doesAlone (.ringWaitFull d k) (fun s u => activeMask s u ≠ 0 ∧ k.toNat < ringsOf s u.wg ∧ (ringAt s u k).slots ≠ 0)
    (fun s u => if (ringAt s u k).full.getLsbD (ringAt s u k).ccur then
        inSquad s u (fun q => vset q u.e.lb d.toNat (activeMask s u) (fun _ => BitVec.ofNat 32 (ringAt s u k).ccur)) else s)
    (fun s u l => activeFate (if (ringAt s u k).full.getLsbD (ringAt s u k).ccur then .on u.next else .waits (.ringFull k.toNat d)) s u l))
  ∧ (∀ d k, doesAlone (.ringWaitFree d k) (fun s u => activeMask s u ≠ 0 ∧ k.toNat < ringsOf s u.wg ∧ (ringAt s u k).slots ≠ 0)
    (fun s u => if (ringAt s u k).full.getLsbD (ringAt s u k).pcur then s else
        inSquad s u (fun q => vset q u.e.lb d.toNat (activeMask s u) (fun _ => BitVec.ofNat 32 (ringAt s u k).pcur)))
    (fun s u l => activeFate (if (ringAt s u k).full.getLsbD (ringAt s u k).pcur then .waits (.ringFree k.toNat d) else .on u.next) s u l))
  ∧ (∀ k h, doesAlone (.xbarWaitImm k h) (fun s u => activeMask s u ≠ 0 ∧ (wgAt s u.wg).aligned = true)
    (fun s u => if (xbOf s (wgAt s u.wg).core k.toNat).1 = (h == 1) then l1Invalidate s (wgAt s u.wg).core else s)
    (fun s u l => activeFate (if (xbOf s (wgAt s u.wg).core k.toNat).1 = (h == 1) then .on u.next else .waits (.xbar k.toNat (h == 1))) s u l))
  ∧ ∀ k a, doesAlone (.xbarWaitReg k a) (fun s u => activeMask s u ≠ 0 ∧ (wgAt s u.wg).aligned = true)
    (fun s u => if (lanesOf (activeMask s u)).any (fun l => (xbOf s (wgAt s u.wg).core k.toNat).1 == (ownWord s u a l).getLsbD 0)
      then l1Invalidate s (wgAt s u.wg).core else s)
    (fun s u l => activeFate (if (xbOf s (wgAt s u.wg).core k.toNat).1 = (ownWord s u a l).getLsbD 0 then .on u.next
      else .waits (.xbar k.toNat ((ownWord s u a l).getLsbD 0))) s u l)

/-- Tags and rings: finding, clearing and reading tags, setting up and reading rings, and a commit or a free that counts at once (R92, R93,
R95). -/
def Obligations.TagsAndRings : Prop :=
  (∀ d k, doesAlone (.tagFfr d k) (fun s u => activeMask s u ≠ 0 ∧ tagsInGrant s u k)
    (fun s u => inSquad s u (fun q => vset q u.e.lb d.toNat (activeMask s u) (fun _ => BitVec.ofNat 32
      ((List.range 65).findIdx (fun i => i = 64 ∨ ((wgAt s u.wg).tags &&& qpair (squadOf s u) k.toNat).getLsbD i))))) allOn)
  ∧ (∀ k, doesAlone (.tagClr k) (fun s u => activeMask s u ≠ 0 ∧ tagsInGrant s u k)
    (fun s u => inWg s u (fun g => { g with tags := g.tags &&& ~~~(qpair (squadOf s u) k.toNat) })) allOn)
  ∧ (∀ d h, writesWord (.tagRd d h) d (fun s u _ => (wgAt s u.wg).tags.extractLsb' (32 * h.toNat) 32))
  ∧ (∀ k a, doesAlone (.ringInit k a)
    (fun s u => activeMask s u ≠ 0 ∧ k.toNat < ringsOf s u.wg ∧ (ringAt s u k).full = 0
      ∧ 2 ≤ (ownWord s u a (lowest (activeMask s u))).toNat % 32 ∧ (ownWord s u a (lowest (activeMask s u))).toNat % 32 ≤ 16)
    (fun s u => inWg s u (fun g => setRing g k.toNat
      { slots := (ownWord s u a (lowest (activeMask s u))).toNat % 32, pcur := 0, ccur := 0, full := 0, sph := 0 })) allOn)
  ∧ (∀ k, does (.ringCommit k)
    (fun s u => activeMask s u ≠ 0 ∧ k.toNat < ringsOf s u.wg ∧ (ringAt s u k).slots ≠ 0 ∧ (ringAt s u k).full.getLsbD (ringAt s u k).pcur = false
      ∧ countsNow s u ∧ ∀ q ∈ (wgAt s u.wg).squads, q.waiters = [])
    (fun s u => inWg s u (fun g =>
      let r := ringOf g k.toNat
      setRing g k.toNat { r with full := r.full ||| (1#16 <<< r.pcur), sph := r.sph ^^^ (1#16 <<< r.pcur), pcur := (r.pcur + 1) % r.slots })) allOn)
  ∧ (∀ k, does (.ringFree k)
    (fun s u => activeMask s u ≠ 0 ∧ k.toNat < ringsOf s u.wg ∧ (ringAt s u k).slots ≠ 0 ∧ (ringAt s u k).full.getLsbD (ringAt s u k).ccur = true
      ∧ (squadOf s u).loads = [] ∧ (wgAt s u.wg).arrivals = [] ∧ ∀ q ∈ (wgAt s u.wg).squads, q.waiters = [])
    (fun s u => inWg s u (fun g =>
      let r := ringOf g k.toNat
      setRing g k.toNat { r with full := r.full &&& ~~~(1#16 <<< r.ccur), ccur := (r.ccur + 1) % r.slots })) allOn)
  ∧ ∀ d k sel, doesAlone (.ringRd d k sel) (fun s u => k.toNat < ringsOf s u.wg)
    (fun s u =>
      let r := ringAt s u k
      inSquad s u (fun q => vsetWide q u.e.lb d.toNat (activeMask s u) (fun _ => wide32 (if sel = 0 then
        BitVec.ofNat 32 (2 ^ 16 * r.full.toNat + 2 ^ 12 * r.ccur + 2 ^ 8 * r.pcur + r.slots) else r.sph.zeroExtend 32)) 1)) allOn

/-- Convergence registers: a declaration in range sets the signer range and the binding and empties the register, and the reads (R97, R98).
-/
def Obligations.ConvergenceRegisters : Prop :=
  (∀ k a, doesAlone (.convDecl k a) (fun s u => declares s u k a)
    (fun s u => inSquad s u (fun q => setConv q k.toNat { convOf q k.toNat with
      first := (signerWord s u a).toNat % 2 ^ 9, count := (signerWord s u a).toNat / 2 ^ 16 % 2 ^ 10, st := 1, bound := false, signed := []
      full := [], open_ := none })) allOn)
  ∧ (∀ k a, doesAlone (.convXdecl k a) (fun s u => declares s u k a ∧ (wgAt s u.wg).aligned = true)
    (fun s u => inSquad s u (fun q => setConv q k.toNat { convOf q k.toNat with
      first := (signerWord s u a).toNat % 2 ^ 9, count := (signerWord s u a).toNat / 2 ^ 16 % 2 ^ 10, st := 1, bound := true, signed := []
      full := [], open_ := none })) allOn)
  ∧ ∀ d k sel, writesWord (.convRd d k sel) d (fun s u _ =>
      let c := convOf (squadOf s u) k.toNat
      if sel = 0 then BitVec.ofNat 32 (2 ^ 16 * c.count + c.first)
      else BitVec.ofNat 32 (2 ^ 31 * bit c.bound + 2 ^ 16 * c.st + c.signed.length))

/-- Tickets, events and launches, of one guard-true thread whose access passes its checks. `tkt.wait` goes on, with the core's L1 lines dropped, when
the word has reached the threshold, and waits otherwise; `tkt.pass` adds one to the word, once for the workgroup that holds the ticket, and lets go on
the threads whose threshold the word has now reached (R101, R102). A `launch` copies its record, read from memory, into the 64 bytes of the next slot of
the queue that its field names, if the queue is granted to the context and has room, and the destination takes the signal event, or all ones; with no
room the thread waits with the record (R105). `evt.wait`: each guard-true thread goes on, with the core's L1 lines dropped, when its event's counter has
reached its threshold, and waits otherwise; an event number of 4,096 or more parks it with launch fault subcode 1 (R104). The context is the issuing
one, at firmware's level the selected one (R326). -/
def Obligations.TicketsLaunchesEvents : Prop :=
  let reaches := fun (x thr : Word) => decide ((x - thr).toNat < 2 ^ 31)
  (∀ a b n s u l, Issuing s u → a.toNat % 2 = 0 → theLane s u l → ∀ r loc,
     let st := stage s u { a := some (own a 2), b := some ⟨b, n, 1⟩ } l
     ticketAccess { s with cur := none } u.wg (w64 st.a) .load = (r, .ok loc) →
     ∃ t, exec (.tktWait a b n) s = .next t
       ∧ still t = still (if reaches (memWord r loc) (w32 st.b) then l1Invalidate r (wgAt s u.wg).core else r)
       ∧ (∀ x, Memory.read t.mem x = Memory.read r.mem x)
       ∧ ∀ k, k < 32 → inMask u.e.mask k = true →
           met t u k (activeFate (if reaches (memWord r loc) (w32 st.b) then .checked else .waits (.ticket loc (w32 st.b))) s u k))
  ∧ (∀ a s u l, Issuing s u → a.toNat % 2 = 0 → theLane s u l → ∀ r loc,
     ticketAccess { s with cur := none } u.wg (w64 (stage s u { a := some (own a 2) } l).a) .atomic = (r, .ok loc) →
     (ticketLoc r u.wg ≠ some loc ∨ ((wgAt s u.wg).passed = false ∧ memWord r loc = BitVec.ofNat 32 (wgAt s u.wg).id)) →
     ∃ t, exec (.tktPass a) s = .next t
       ∧ memWord t loc = memWord r loc + 1 ∧ (∀ x, ¬(loc ≤ x ∧ x < loc + 4) → Memory.read t.mem x = Memory.read r.mem x)
       ∧ (∀ k, k < 32 → inMask u.e.mask k = true → met t u k (activeFate .checked s u k))
       ∧ (ticketLoc r u.wg = some loc → (wgAt t u.wg).passed = true ∧ (wgAt t u.wg).committed = true)
       ∧ (∀ w q, (sqAt t w q).still = (sqAt r w q).still) ∧ t.queues = r.queues ∧ t.flights = r.flights
       ∧ ∀ w q x thr, x ∈ (sqAt s w q).waiters → x.why = .ticket loc thr → reaches (memWord r loc + 1) thr = true →
           released t w q x ∧ (coreAt t (wgAt s w).core).l1d = [])
  ∧ (∀ d a s u l, Issuing s u → a.toNat % 2 = 0 → theLane s u l → ∀ r ws mix,
       readRecord { s with cur := none } u.wg (w64 (stage s u { a := some (own a 2) } l).a) false = (r, .ok (ws, mix)) →
       let n := recBits ws 3 21 16
       let q := queueOf r n
       let slot := q.base + slotBytes q * (q.tail.toNat % queueSlots q)
       let event := if (wordAt ws 9).getLsbD 28 then BitVec.ofNat 32 (recBits ws 9 27 16) else 0xFFFFFFFF
       queueGranted q (contextOf s u) = true →
       ∃ t, exec (.launch d a) s = .next t ∧ (wgAt t u.wg).committed = true
         ∧ if queueFull r n = false then
             queueOf t n = { q with tail := q.tail + 1 } ∧ (∀ m, m ≠ n → queueOf t m = queueOf r m)
               ∧ (∀ b, physLoc slot = some (.local b) →
                   bytesWritten r.mem t.mem b (ws.flatMap bytesOfWord))
               ∧ wordsWritten u (activeMask s u) d 1 (fun _ => wide32 event) (squadOf s u) (squadOf t u)
               ∧ ∀ k, k < 32 → inMask u.e.mask k = true → met t u k (activeFate .checked s u k)
           else t.queues = r.queues ∧ (∀ b, Memory.read t.mem b = Memory.read r.mem b)
             ∧ ∀ k, k < 32 → inMask u.e.mask k = true → met t u k (activeFate (.waits (.slot n d ws)) s u k))
  ∧ ∀ a m b n s u, Issuing s u → u.e.replay = [] →
       let goes := fun l => decide ((srcWord s u a m l).toNat < 4096)
         && reaches (eventValue s (contextOf s u) (srcWord s u a m l).toNat) (srcWord s u b n l)
       ∃ t, exec (.evtWait a m b n) s = .next t
         ∧ still t = still (if (lanesOf (activeMask s u)).any goes then l1Invalidate s (wgAt s u.wg).core else s)
         ∧ (∀ x, Memory.read t.mem x = Memory.read s.mem x)
         ∧ ∀ l, l < 32 → inMask u.e.mask l = true → met t u l (activeFate
             (if 4096 ≤ (srcWord s u a m l).toNat then .parked u.e.place 0x1D 1
              else if goes l then .checked
              else .waits (.event (srcWord s u a m l).toNat (srcWord s u b n l))) s u l)

/-- Global loads, plain and acquiring, of one guard-true thread that passes its checks: each leaves a pending load of its size and extension
for its destination; an acquiring load at cluster scope and wider is performed at its home slice and drops the core's L1 lines (R195,
R197, R198, R199, R216). Global stores, plain and releasing, of one guard-true thread that passes its checks: each queues the low bytes of its register (R175,
R198, R199). -/
def Obligations.GlobalAccess : Prop :=
  ((∀ d a o, loads (.ldB8 d a o) 1 .zext d a (o.signExtend 64) false false)
   ∧ (∀ d a o, loads (.ldI8 d a o) 1 .sext d a (o.signExtend 64) false false)
   ∧ (∀ d a o, loads (.ldB16 d a o) 2 .zext d a (o.signExtend 64 * 2) false false)
   ∧ (∀ d a o, loads (.ldI16 d a o) 2 .sext d a (o.signExtend 64 * 2) false false)
   ∧ (∀ d a o, loads (.ldB32 d a o) 4 .zext d a (o.signExtend 64 * 4) false false)
   ∧ (∀ d a o, loads (.ldB64 d a o) 8 .zext d a (o.signExtend 64 * 8) false false)
   ∧ (∀ d a o, loads (.ldB128 d a o) 16 .zext d a (o.signExtend 64 * 16) false false)
   ∧ ∀ d a o sc sg z, z.toNat ≤ 4 → loads (.ldAcq d a o sc sg z) (2 ^ z.toNat) (if sg = 1 then .sext else .zext) d a
       (o.signExtend 64 * BitVec.ofNat 64 (2 ^ z.toNat)) (decide (2 ≤ sc.toNat)) (decide (2 ≤ sc.toNat)))
  ∧ ((∀ v a o, stores (.stB8 v a o) 1 v a (o.signExtend 64) 0 false)
     ∧ (∀ v a o, stores (.stB16 v a o) 2 v a (o.signExtend 64 * 2) 0 false)
     ∧ (∀ v a o, stores (.stB32 v a o) 4 v a (o.signExtend 64 * 4) 0 false)
     ∧ (∀ v a o, stores (.stB64 v a o) 8 v a (o.signExtend 64 * 8) 0 false)
     ∧ (∀ v a o, stores (.stB128 v a o) 16 v a (o.signExtend 64 * 16) 0 false)
     ∧ ∀ v a o sc z, z.toNat ≤ 4 → stores (.stRel v a o sc z) (2 ^ z.toNat) v a (o.signExtend 64 * BitVec.ofNat 64 (2 ^ z.toNat)) sc.toNat true)

/-- Atomics of one guard-true thread that passes its checks: the operation is queued with the thread's access number, and the old value of a returning
one goes to a pending load of the destination (R201, R202, R203). On a DET page a non-returning one is an ordered update, with the thread's next sequence
number, and its workgroup is committed; a returning one has no such page (R208). -/
def Obligations.AtomicsQueue : Prop :=
  let number := fun (u : Bundle) (l : Nat) => u.sq * 512 + u.e.lb * 32 + l
  let next := fun (s : State) (u : Bundle) (l : Nat) => Map.getD (wgAt s u.wg).ordSeq (number u l) 0
  let waits := fun (s : State) (u : Bundle) (sc : BitVec 3) => if sc.toNat < 2 then Fate.waits (.atomAck (squadOf s u).seq) else .checked
  (∀ d a b n ty sc (op : BitVec 3) s u l r p, Issuing s u → theLane s u l → aligned [(a, 2), (b, atomBytes ty / 4)] →
    let o : Opnds := { a := some (own a 2), b := some ⟨b, n, atomBytes ty / 4⟩ }
    let st := stage s u o l
    let det := p.acc.attr.det
    laneAccess (issued s u) u.wg (w64 st.a) (atomBytes ty) (atomBytes ty) .atomic (atomOrder false (next s u l)) true true = (r, .ok p) →
    ∃ t, exec (.atom d a b n ty sc 0 op) s = .next t
      ∧ still t = still (sentIf (mixed
          (let w := if det then inWg r u (fun g => { g with committed := true, ordSeq := Map.put g.ordSeq (number u l) (next s u l + 1) }) else r
           inSquad w u (fun q => { q with stq := q.stq ++
             [atomEntry s u l (w64 st.a) sc.toNat p (.op op ty (w64 st.b)) none (if det then some (next s u l) else none) st (stagedWords o st [2])] }))
          u p.mix) u (decide (sc.toNat < 2)))
      ∧ (∀ x, Memory.read t.mem x = Memory.read r.mem x) ∧ met t u l (waits s u sc))
  ∧ (∀ d a b n ty sc (op : BitVec 3) s u l r p, Issuing s u → theLane s u l → aligned [(a, 2), (b, atomBytes ty / 4), (d, atomBytes ty / 4)] →
    let o : Opnds := { a := some (own a 2), b := some ⟨b, n, atomBytes ty / 4⟩ }
    let st := stage s u o l
    laneAccess (issued s u) u.wg (w64 st.a) (atomBytes ty) (atomBytes ty) .atomic (atomOrder true (next s u l)) true true = (r, .ok p) →
    ∃ t, exec (.atom d a b n ty sc 1 op) s = .next t
      ∧ still t = still (sentIf (mixed (inSquad r u (fun q => { q with
          loads := Map.put q.loads r.ids { seq := (squadOf s u).seq, lb := u.e.lb, lane := l, d := d, size := atomBytes ty, fmt := .zext, src := .await
                                           place := u.e.place, ea := w64 st.a, staged := st, shown := stagedWords o st [2]
                                           acq := decide (2 ≤ sc.toNat) }
          stq := q.stq ++ [atomEntry s u l (w64 st.a) sc.toNat p (.op op ty (w64 st.b)) (some r.ids) none st (stagedWords o st [2])] })) u p.mix)
          u (p.acc.loc.isRemote || decide (sc.toNat < 2)))
      ∧ (∀ x, Memory.read t.mem x = Memory.read r.mem x)
      ∧ met t u l (if p.acc.loc.isRemote then .waits (.far r.ids) else waits s u sc))
  ∧ ∀ d a b n c k ty sc s u l r p, Issuing s u → theLane s u l →
    aligned [(a, 2), (b, atomBytes ty / 4), (c, atomBytes ty / 4), (d, atomBytes ty / 4)] →
    let o : Opnds := { a := some (own a 2), b := some ⟨b, n, atomBytes ty / 4⟩, c := some ⟨c, k, atomBytes ty / 4⟩ }
    let st := stage s u o l
    laneAccess (issued s u) u.wg (w64 st.a) (atomBytes ty) (atomBytes ty) .atomic (atomOrder true (next s u l)) true true = (r, .ok p) →
    ∃ t, exec (.atomCas d a b n c k ty sc) s = .next t
      ∧ still t = still (sentIf (mixed (inSquad r u (fun q => { q with
          loads := Map.put q.loads r.ids { seq := (squadOf s u).seq, lb := u.e.lb, lane := l, d := d, size := atomBytes ty, fmt := .zext, src := .await
                                           place := u.e.place, ea := w64 st.a, staged := st, shown := stagedWords o st [2, 3]
                                           acq := decide (2 ≤ sc.toNat) }
          stq := q.stq ++ [atomEntry s u l (w64 st.a) sc.toNat p (.cas ty (w64 st.b) (w64 st.c)) (some r.ids) none st (stagedWords o st [2, 3])] }))
          u p.mix) u (p.acc.loc.isRemote || decide (sc.toNat < 2)))
      ∧ (∀ x, Memory.read t.mem x = Memory.read r.mem x)
      ∧ met t u l (if p.acc.loc.isRemote then .waits (.far r.ids) else waits s u sc)

/-- Typed-buffer accesses of one guard-true thread inside its workgroup's allocation (an offset of zero or more, a multiple of the size, with the last
byte inside), and the cluster load inside the allocation of the member on the named core: a load takes the buffer's bytes at its issue, or after an older
load of its thread whose value is still to come; a store to A or C writes its bytes and no others of any buffer; a store to S queues them (R179, R204,
R205). A write to a typed buffer changes the bytes it names and no other byte of any buffer (R179). -/
def Obligations.TypedBuffers : Prop :=
  ((∀ d a z o, z.toNat ≤ 2 → bufLoads (.lbw d a z o) (4 * 2 ^ z.toNat) 1 d a o.toInt (fun _ _ => True) (fun _ u => u.wg))
   ∧ (∀ d a z o, z.toNat ≤ 2 → bufLoads (.lba d a z o) (4 * 2 ^ z.toNat) 2 d a o.toInt (fun _ _ => True) (fun _ u => u.wg))
   ∧ (∀ d a z o, z.toNat ≤ 2 → bufLoads (.lbc d a z o) (4 * 2 ^ z.toNat) 3 d a o.toInt (fun _ _ => True) (fun _ u => u.wg))
   ∧ (∀ d a z o, z.toNat ≤ 2 → bufLoads (.lbs d a z o) (4 * 2 ^ z.toNat) 4 d a o.toInt (fun _ _ => True) (fun _ u => u.wg))
   ∧ (∀ d a o core buf z, z.toNat ≤ 2 → bufLoads (.lbx d a o core buf z) (4 * 2 ^ z.toNat) (if buf = 0 then 1 else 2) d a o.toInt
       (fun s u => (wgAt s u.wg).aligned = true) (fun s u => clusterMember s u.wg core.toNat))
   ∧ (∀ v a z o s u l, Issuing s u → theLane s u l → z.toNat ≤ 2 → aligned [(v, regWords (4 * 2 ^ z.toNat))] →
       let st := stage s u { d := some (own v (regWords (4 * 2 ^ z.toNat))), a := some (own a 1) } l
       let off : Int := (w32 st.a).toNat + o.toInt * (4 * 2 ^ z.toNat : Nat)
       inAllocation s u.wg 2 off (4 * 2 ^ z.toNat) →
       ∃ t, exec (.sba v a z o) s = .next t
         ∧ still t = still (inWg (issued s u) u (fun g => bufWrite g 2 off.toNat (leBytes (4 * 2 ^ z.toNat) st.d.toNat))) ∧ met t u l .checked)
   ∧ (∀ v a z o s u l, Issuing s u → theLane s u l → z.toNat ≤ 2 → aligned [(v, regWords (4 * 2 ^ z.toNat))] →
       let st := stage s u { d := some (own v (regWords (4 * 2 ^ z.toNat))), a := some (own a 1) } l
       let off : Int := (w32 st.a).toNat + o.toInt * (4 * 2 ^ z.toNat : Nat)
       inAllocation s u.wg 3 off (4 * 2 ^ z.toNat) → (wgAt s u.wg).runs = [] →
       ∃ t, exec (.sbc v a z o) s = .next t
         ∧ still t = still (inWg (issued s u) u (fun g => bufWrite g 3 off.toNat (leBytes (4 * 2 ^ z.toNat) st.d.toNat))) ∧ met t u l .checked)
   ∧ ∀ v a z o s u l, Issuing s u → theLane s u l → z.toNat ≤ 2 → aligned [(v, regWords (4 * 2 ^ z.toNat))] →
       let st := stage s u { d := some (own v (regWords (4 * 2 ^ z.toNat))), a := some (own a 1) } l
       let off : Int := (w32 st.a).toNat + o.toInt * (4 * 2 ^ z.toNat : Nat)
       inAllocation s u.wg 4 off (4 * 2 ^ z.toNat) →
       ∃ t, exec (.sbs v a z o) s = .next t
         ∧ still t = still (inSquad (issued s u) u (fun q => { q with stq := q.stq ++ [{
             seq := (squadOf s u).seq, lb := u.e.lb, scope := 0, release := false, atomic := false
             lanes := [{ lane := l, ea := BitVec.ofInt 64 off, loc := .sbuf off.toNat, attr := physAttr, bytes := leBytes (4 * 2 ^ z.toNat) st.d.toNat
                         atom := none, ret := none, ord := none, place := u.e.place, staged := st, shown := [] }] }] }))
         ∧ (∀ b, Memory.read t.mem b = Memory.read s.mem b) ∧ met t u l .checked)
  ∧ (∀ (g : Wg) (spc off : Nat) (bs : List Byte) (spc' o : Nat), off + bs.length ≤ 2 ^ 20 → o < 2 ^ 20 → 
       bufByte (bufWrite g spc off bs) spc' o = if spc' = spc ∧ off ≤ o ∧ o < off + bs.length then bs.getD (o - off) 0 else bufByte g spc' o)

/-- Fences, the L1 invalidation and the prefetch. A fence goes on when the squad's store queue is empty and its threads' loads have landed, at cluster
scope and wider also every store of the squad is acknowledged by its home slice, at domain scope its posted remote stores too; it waits otherwise. At
cluster scope and wider, and for `l1.inv`, the core's L1 lines go. A domain fence reports a pending remote fault in its lowest thread. A prefetch changes
no register, nor any byte of memory where the line is recorded under the page's key (R193), and one to L2, or to an address that fails its checks,
nothing at all (R200, R206, R207). -/
def Obligations.FencesAndInvalidation : Prop :=
  let done := fun (s : State) (u : Bundle) (sc : BitVec 3) =>
    (squadOf s u).stq.isEmpty
      && (squadOf s u).loads.all (fun p => !(p.2.lb == u.e.lb && inMask (activeMask s u) p.2.lane))
      && s.flights.all (fun f => !(f.2.wg == u.wg && f.2.sq == u.sq)
          || (if f.2.ln.loc.isRemote then decide (sc.toNat < 5) else decide (sc.toNat < 2)))
  let drops := fun (s : State) (u : Bundle) (sc : BitVec 3) =>
    if activeMask s u ≠ 0 ∧ 2 ≤ sc.toNat ∧ done s u sc = true then l1Invalidate s (wgAt s u.wg).core else s
  (∀ sc, doesAlone (.fence sc) (fun s u => (squadOf s u).remoteErr = none) (fun s u => drops s u sc)
    (fun s u l => activeFate (if done s u sc then .checked else .waits (.fence sc.toNat (squadOf s u).seq)) s u l))
  ∧ (∀ code sub addr, code < 256 → sub < 256 → doesAlone (.fence 5)
      (fun s u => activeMask s u ≠ 0 ∧ (squadOf s u).remoteErr = some (code, sub, addr) ∧ done s u 5 = true)
      (fun s u => inSquad (drops s u 5) u (fun q => { q with remoteErr := none }))
      (fun s u l => activeFate (if l = lowest (activeMask s u) then .parked u.e.place code sub else .checked) s u l))
  ∧ doesAlone .l1Inv (fun _ _ => True) (fun s u => if activeMask s u = 0 then s else l1Invalidate s (wgAt s u.wg).core)
      (fun s u l => activeFate .checked s u l)
  ∧ ∀ a lv s u l r x, Issuing s u → theLane s u l → a.toNat % 2 = 0 →
      access (issued s u) (wgAt s u.wg).core (wgAt s u.wg).ctx ((wgAt s u.wg).level == 2) (w64 (stage s u { a := some (own a 2) } l).a) .load = (r, x) →
      ∃ t, exec (.pref a lv) s = .next t
        ∧ (∀ w q b g k, vget (sqAt t w q) b g k = vget (sqAt s w q) b g k) ∧ met t u l .checked
        ∧ ((∀ p y, x = .ok p → p.loc = .local y → recordedKey s (lineOf y) = some p.attr.key) → ∀ b, Memory.read t.mem b = Memory.read s.mem b)
        ∧ ((lv = 1 ∨ x.toOption = none) → still t = still r ∧ ∀ b, Memory.read t.mem b = Memory.read s.mem b)

/-- Addition, subtraction, multiplication and fused multiply-add of the four types: the exact result of the operands of each guard-true
lane, rounded once to nearest, with its flags or-ed into the squad's; an invalid lane stops when the trap is on (R144, R146, R147, R156,
R157). -/
def Obligations.FloatArithmetic : Prop :=
  (∀ d a m b n, fpDoes (.faddF32 d a m b n) (fun _ _ => True) (some (d, 1)) none (fun s u l =>
    outCode (nearest fp32 s u (fadd (numOf fp32 s u (operA s u a m 1 l) 0) (numOf fp32 s u (operB s u b n 1 l) 0)))))
  ∧ (∀ d a m b n, fpDoes (.faddF64 d a m b n) (fun _ _ => aligned [(d, 2), (a, 2), (b, 2)]) (some (d, 2)) none (fun s u l =>
    outCode (nearest fp64 s u (fadd (numOf fp64 s u (operA s u a m 2 l) 0) (numOf fp64 s u (operB s u b n 2 l) 0)))))
  ∧ (∀ d a m b n, fpDoes (.faddH2 d a m b n) (fun _ _ => True) (some (d, 1)) none (fun s u l => bothHalves (fun j =>
    nearest fp16 s u (fadd (numOf fp16 s u (operA s u a m 1 l) j) (numOf fp16 s u (operB s u b n 1 l) j)))))
  ∧ (∀ d a m b n, fpDoes (.faddB2 d a m b n) (fun _ _ => True) (some (d, 1)) none (fun s u l => bothHalves (fun j =>
    nearest bf16 s u (fadd (numOf bf16 s u (operA s u a m 1 l) j) (numOf bf16 s u (operB s u b n 1 l) j)))))
  ∧ (∀ d a m b n, fpDoes (.fsubF32 d a m b n) (fun _ _ => True) (some (d, 1)) none (fun s u l =>
    outCode (nearest fp32 s u (fadd (numOf fp32 s u (operA s u a m 1 l) 0) (numOf fp32 s u (operB s u b n 1 l) 0).negate))))
  ∧ (∀ d a m b n, fpDoes (.fsubF64 d a m b n) (fun _ _ => aligned [(d, 2), (a, 2), (b, 2)]) (some (d, 2)) none (fun s u l =>
    outCode (nearest fp64 s u (fadd (numOf fp64 s u (operA s u a m 2 l) 0) (numOf fp64 s u (operB s u b n 2 l) 0).negate))))
  ∧ (∀ d a m b n, fpDoes (.fmulF32 d a m b n) (fun _ _ => True) (some (d, 1)) none (fun s u l =>
    outCode (nearest fp32 s u (fmul (numOf fp32 s u (operA s u a m 1 l) 0) (numOf fp32 s u (operB s u b n 1 l) 0)))))
  ∧ (∀ d a m b n, fpDoes (.fmulF64 d a m b n) (fun _ _ => aligned [(d, 2), (a, 2), (b, 2)]) (some (d, 2)) none (fun s u l =>
    outCode (nearest fp64 s u (fmul (numOf fp64 s u (operA s u a m 2 l) 0) (numOf fp64 s u (operB s u b n 2 l) 0)))))
  ∧ (∀ d a m b n, fpDoes (.fmulH2 d a m b n) (fun _ _ => True) (some (d, 1)) none (fun s u l => bothHalves (fun j =>
    nearest fp16 s u (fmul (numOf fp16 s u (operA s u a m 1 l) j) (numOf fp16 s u (operB s u b n 1 l) j)))))
  ∧ (∀ d a m b n, fpDoes (.fmulB2 d a m b n) (fun _ _ => True) (some (d, 1)) none (fun s u l => bothHalves (fun j =>
    nearest bf16 s u (fmul (numOf bf16 s u (operA s u a m 1 l) j) (numOf bf16 s u (operB s u b n 1 l) j)))))
  ∧ (∀ d a m b n, fpDoes (.ffmaF32 d a m b n) (fun _ _ => True) (some (d, 1)) none (fun s u l =>
    outCode (nearest fp32 s u (ffma (numOf fp32 s u (operA s u a m 1 l) 0) (numOf fp32 s u (operB s u b n 1 l) 0)
      (numOf fp32 s u (operD s u d 1 l) 0)))))
  ∧ (∀ d a m b n, fpDoes (.ffmaF64 d a m b n) (fun _ _ => aligned [(d, 2), (a, 2), (b, 2)]) (some (d, 2)) none (fun s u l =>
    outCode (nearest fp64 s u (ffma (numOf fp64 s u (operA s u a m 2 l) 0) (numOf fp64 s u (operB s u b n 2 l) 0)
      (numOf fp64 s u (operD s u d 2 l) 0)))))
  ∧ (∀ d a m b n, fpDoes (.ffmaH2 d a m b n) (fun _ _ => True) (some (d, 1)) none (fun s u l => bothHalves (fun j =>
    nearest fp16 s u (ffma (numOf fp16 s u (operA s u a m 1 l) j) (numOf fp16 s u (operB s u b n 1 l) j)
      (numOf fp16 s u (operD s u d 1 l) j)))))
  ∧ (∀ d a m b n, fpDoes (.ffmaB2 d a m b n) (fun _ _ => True) (some (d, 1)) none (fun s u l => bothHalves (fun j =>
    nearest bf16 s u (ffma (numOf bf16 s u (operA s u a m 1 l) j) (numOf bf16 s u (operB s u b n 1 l) j)
      (numOf bf16 s u (operD s u d 1 l) j)))))
  ∧ (∀ d a m b n c k rm, fpDoes (.ffmalF32 d a m b n c k rm) (fun _ _ => True) (some (d, 1)) none (fun s u l =>
    outCode (fp32.finish rm.toNat (flushes s u.wg) (ffma (numOf fp32 s u (operA s u a m 1 l) 0) (numOf fp32 s u (operB s u b n 1 l) 0)
      (numOf fp32 s u (operC s u c k 1 l) 0)))))
  ∧ ∀ d a m b n c k rm, fpDoes (.ffmalF64 d a m b n c k rm) (fun _ _ => aligned [(d, 2), (a, 2), (b, 2), (c, 2)]) (some (d, 2)) none (fun s u l =>
    outCode (fp64.finish rm.toNat false (ffma (numOf fp64 s u (operA s u a m 2 l) 0) (numOf fp64 s u (operB s u b n 2 l) 0)
      (numOf fp64 s u (operC s u c k 2 l) 0))))

/-- Minimum and maximum, compares and the function operations (R159, R161, R162). Of two numbers the minimum is the lesser, -0 below +0, of a number and a
NaN the number, of two NaNs the canonical one, and only a signalling NaN sets a flag (R159). The function operations give the results of R155 for special
operands, in every table revision, and in revision 3 the correctly rounded reciprocal, root and reciprocal root wherever these are rational (R152). The sign
functions work on bits: a NaN gives the canonical NaN, and nothing is rounded, flushed or flagged (R160). -/
def Obligations.FloatSelection : Prop :=
  ((∀ d a m b n, fpDoes (.fminF32 d a m b n) (fun _ _ => True) (some (d, 1)) none (fun s u l =>
     outCode (minMax fp32 (flushes s u.wg) false ((operA s u a m 1 l).toNat % 2 ^ 32) ((operB s u b n 1 l).toNat % 2 ^ 32))))
   ∧ (∀ d a m b n, fpDoes (.fminF64 d a m b n) (fun _ _ => aligned [(d, 2), (a, 2), (b, 2)]) (some (d, 2)) none (fun s u l =>
     outCode (minMax fp64 false false ((operA s u a m 2 l).toNat % 2 ^ 64) ((operB s u b n 2 l).toNat % 2 ^ 64))))
   ∧ (∀ d a m b n, fpDoes (.fmaxF32 d a m b n) (fun _ _ => True) (some (d, 1)) none (fun s u l =>
     outCode (minMax fp32 (flushes s u.wg) true ((operA s u a m 1 l).toNat % 2 ^ 32) ((operB s u b n 1 l).toNat % 2 ^ 32))))
   ∧ (∀ d a m b n, fpDoes (.fmaxF64 d a m b n) (fun _ _ => aligned [(d, 2), (a, 2), (b, 2)]) (some (d, 2)) none (fun s u l =>
     outCode (minMax fp64 false true ((operA s u a m 2 l).toNat % 2 ^ 64) ((operB s u b n 2 l).toNat % 2 ^ 64))))
   ∧ (∀ p c a m b n, fpDoes (.fcmpF32 p c a m b n) (fun _ _ => True) none (some p) (fun s u l =>
     let x := numOf fp32 s u (operA s u a m 1 l) 0
     let y := numOf fp32 s u (operB s u b n 1 l) 0
     let o := orderF x y
     { pred := [o == .eq, o != .eq, o == .lt, o == .lt || o == .eq, o == .gt, o == .gt || o == .eq, o != .unordered, o == .unordered].getD c.toNat false
       flags := { inv := x.signalling || y.signalling || ((x.isNaN || y.isNaN) && decide (2 ≤ c.toNat) && decide (c.toNat ≤ 5)) } }))
   ∧ (∀ p c a m b n, fpDoes (.fcmpF64 p c a m b n) (fun _ _ => aligned [(a, 2), (b, 2)]) none (some p) (fun s u l =>
     let x := numOf fp64 s u (operA s u a m 2 l) 0
     let y := numOf fp64 s u (operB s u b n 2 l) 0
     let o := orderF x y
     { pred := [o == .eq, o != .eq, o == .lt, o == .lt || o == .eq, o == .gt, o == .gt || o == .eq, o != .unordered, o == .unordered].getD c.toNat false
       flags := { inv := x.signalling || y.signalling || ((x.isNaN || y.isNaN) && decide (2 ≤ c.toNat) && decide (c.toNat ≤ 5)) } }))
   ∧ ∀ (i : BitVec 6 → BitVec 6 → BitVec 2 → Instr) (op : FnOp), (i, op) ∈ [(Instr.frcp, FnOp.rcp), (.frsq, .rsq), (.fsqrt, .sqrt), (.fexp2, .exp2),
       (.flog2, .log2), (.fsin, .sin), (.fcos, .cos)] → ∀ d a m, fpDoes (i d a m) (fun _ _ => True) (some (d, 1)) none (fun s u l =>
     outCode (fnOp op (tableRevision s u.wg) (flushes s u.wg) ((operA s u a m 1 l).toNat % 2 ^ 32))))
  ∧ (∀ f ∈ [fp32, fp64], ∀ (flush isMax : Bool) (a b : Nat),
       let x := f.read flush a
       let y := f.read flush b
       let r := minMax f flush isMax a b
       let code := fun (v : FVal) (c : Nat) => match v with
         | .num neg 0 _ => f.signed neg 0
         | _ => c
       r.2 = { inv := x.signalling || y.signalling }
       ∧ (x.isNaN = true → y.isNaN = true → r.1 = f.nanCode) ∧ (x.isNaN = true → y.isNaN = false → r.1 = code y b)
       ∧ (x.isNaN = false → y.isNaN = true → r.1 = code x a)
       ∧ (orderF x y = .lt → r.1 = if isMax then code y b else code x a) ∧ (orderF x y = .gt → r.1 = if isMax then code x a else code y b)
       ∧ (orderF x y = .eq → x.isNeg = true → y.isNeg = false → r.1 = if isMax then code y b else code x a)
       ∧ (orderF x y = .eq → x.isNeg = false → y.isNeg = true → r.1 = if isMax then code x a else code y b)
       ∧ (orderF x y = .eq → x.isNeg = y.isNeg → r.1 = code x a ∨ r.1 = code y b))
  ∧ (∀ t flush,
       (∀ op ∈ [FnOp.rcp, .rsq, .sqrt, .log2, .exp2, .sin, .cos], ∀ a g, fp32.read flush a = .nan g → fnOp op t flush a = (fp32.nanCode, { inv := g }))
       ∧ (∀ x ∈ [(FnOp.rcp, 0, 0x7F800000, true, false), (.rcp, 0x80000000, 0xFF800000, true, false), (.rcp, 0x7F800000, 0, false, false),
           (.rcp, 0xFF800000, 0x80000000, false, false), (.rsq, 0, 0x7F800000, true, false), (.rsq, 0x80000000, 0xFF800000, true, false),
           (.rsq, 0x7F800000, 0, false, false), (.rsq, 0xFF800000, 0x7FC00000, false, true), (.sqrt, 0, 0, false, false),
           (.sqrt, 0x80000000, 0x80000000, false, false), (.sqrt, 0x7F800000, 0x7F800000, false, false), (.sqrt, 0xFF800000, 0x7FC00000, false, true),
           (.log2, 0, 0xFF800000, true, false), (.log2, 0x80000000, 0xFF800000, true, false), (.log2, 0x7F800000, 0x7F800000, false, false),
           (.log2, 0xFF800000, 0x7FC00000, false, true), (.exp2, 0, 0x3F800000, false, false), (.exp2, 0x80000000, 0x3F800000, false, false),
           (.exp2, 0x7F800000, 0x7F800000, false, false), (.exp2, 0xFF800000, 0, false, false), (.sin, 0, 0, false, false),
           (.sin, 0x80000000, 0x80000000, false, false), (.sin, 0x7F800000, 0x7FC00000, false, true), (.sin, 0xFF800000, 0x7FC00000, false, true),
           (.cos, 0, 0x3F800000, false, false), (.cos, 0x80000000, 0x3F800000, false, false), (.cos, 0x7F800000, 0x7FC00000, false, true),
           (.cos, 0xFF800000, 0x7FC00000, false, true), (.log2, 0x3F800000, 0, false, false)],
           fnOp x.1 t flush x.2.1 = (x.2.2.1, { dz := x.2.2.2.1, inv := x.2.2.2.2 }))
       ∧ ∀ op ∈ [FnOp.rsq, .sqrt, .log2], ∀ a m e, fp32.read flush a = .num true m e → m ≠ 0 → fnOp op t flush a = (fp32.nanCode, { inv := true }))
  ∧ (∀ op ∈ [FnOp.rcp, .rsq, .sqrt, .log2, .exp2, .sin, .cos], ∀ flush a neg m e v, fp32.read flush a = .num neg m e → m ≠ 0 →
       (neg = true → op ∉ [FnOp.rsq, .sqrt, .log2]) → exactFn op neg m e = some v → (fnOp op 3 flush a).1 = (fp32.deliver 0 false flush v).1)
  ∧ (∀ neg m e, m ≠ 0 → ∃ v, exactFn .rcp neg m e = some v ∧ ratOf v * ratOf (FVal.num neg m e).exact = 1)
  ∧ (∀ m e v, m ≠ 0 → exactFn .sqrt false m e = some v → ratOf v * ratOf v = ratOf (FVal.num false m e).exact ∧ 0 ≤ ratOf v)
  ∧ (∀ m e v, m ≠ 0 → exactFn .rsq false m e = some v → ratOf v * ratOf v * ratOf (FVal.num false m e).exact = 1 ∧ 0 ≤ ratOf v)
  ∧ (∀ d a m b n (ty fn : BitVec 5) (f : Fmt) (w k : Nat), (ty, f, w, k) ∈ [((2 : BitVec 5), fp32, 1, 1), (1, fp64, 2, 1), (4, fp16, 1, 2), (3, bf16, 1, 2)] →
       fn.toNat ≤ 2 → (fn ≠ 2 → b = 0) →
       writesWords (.fsgn d a m b n ty fn) (if fn = 2 then [(a, w), (b, w)] else [(a, w)]) d w (fun s u l =>
         let part := fun (r : BitVec 6) (c : BitVec 2) (j : Nat) =>
           (if w = 2 then (srcPair s u r c l).toNat else (srcWord s u r c l).toNat) / 2 ^ ((f.signBit + 1) * j) % 2 ^ (f.signBit + 1)
         let top := fun x => x / 2 ^ f.signBit
         let one := fun j => if (f.read false (part a m j)).isNaN then f.nanCode
           else part a m j % 2 ^ f.signBit + 2 ^ f.signBit * (if fn = 0 then 1 - top (part a m j) else if fn = 1 then 0 else top (part b n j))
         BitVec.ofNat 256 (((List.range k).map (fun j => one j * 2 ^ (16 * j))).sum)))

/-- `cvt` delivers the exact value of its source to its target (R163, R164); a format that the launch's version or contract lacks stops
every guard-true thread with the format fault (R140). `pack` divides each source value by the scale of its squad register, rounds once and
places code `j` in bits `w*j` on, `w` its width, and `unpack` multiplies each selected code by the scale, rounds once and gives word `j` (R141, R165, R166,
R167): the quotient and the product are exact before the rounding, what exceeds the target's largest number is counted, and so is a zero from a number that
is none; a scale that is not finite and positive gives NaN codes, or 0. That the format fault has subcode 1, and that a subnormal scale is flushed under a
flushing contract, are the model's choices (log entry 61). -/
def Obligations.Conversions : Prop :=
  ((∀ d a m (fd fs : BitVec 5) rm sat, 1 ≤ fd.toNat → fd.toNat ≤ 13 → 1 ≤ fs.toNat → fs.toNat ≤ 13 →
     fpDoes (.cvt d a m fd fs rm sat)
       (fun s u => aligned [(d, if fd = 1 then 2 else 1), (a, if fs = 1 then 2 else 1)] ∧ formatAbsent s u.wg fd.toNat = false
         ∧ formatAbsent s u.wg fs.toNat = false)
       (some (d, if fd = 1 then 2 else 1)) none (fun s u l =>
         let v := readCode fs.toNat (flushes s u.wg) ((operA s u a m (if fs = 1 then 2 else 1) l).toNat % 2 ^ codeBits fs.toNat)
         let r := writeCode fd.toNat rm.toNat (sat == 1) (flushes s u.wg) v.1
         { val := BitVec.ofNat 256 r.1, flags := r.2.or { inv := v.2 } }))
   ∧ ∀ d a m (fd fs : BitVec 5) rm sat, 1 ≤ fd.toNat → fd.toNat ≤ 13 → 1 ≤ fs.toNat → fs.toNat ≤ 13 →
     doesAlone (.cvt d a m fd fs rm sat)
       (fun s u => aligned [(d, if fd = 1 then 2 else 1), (a, if fs = 1 then 2 else 1)]
         ∧ (formatAbsent s u.wg fd.toNat || formatAbsent s u.wg fs.toNat) = true)
       (fun s _ => s) (fun s u l => activeFate (.parked u.e.place 0x09 1) s u l))
  ∧ ((∀ d a m b n (q : BitVec 6) (fd : BitVec 5) rm sat, q.toNat < 32 → fd.toNat ∈ [3, 4, 5, 6, 7, 10, 11] →
       let w := codeBits fd.toNat
       fpDoes (.pack d a m b n q fd rm sat)
         (fun s u => aligned (if w = 16 then [(a, 2)] else if w = 8 then [(a, 4)] else [(a, 4), (b, 4)]) ∧ formatAbsent s u.wg fd.toNat = false
           ∧ u.e.replay = [])
         (some (d, 1)) none (fun s u l =>
           let xs := if w = 16 then wordsOf (operA s u a m 2 l) 2 else if w = 8 then wordsOf (operA s u a m 4 l) 4
             else wordsOf (operA s u a m 4 l) 4 ++ wordsOf (operB s u b n 4 l) 4
           let cs := xs.map (packOne fd.toNat rm.toNat (sat == 1) (flushes s u.wg) (scaleOf (flushes s u.wg) (qget (squadOf s u) q.toNat)))
           { val := BitVec.ofNat 256 ((cs.zipIdx.map (fun c => c.1.val.toNat * 2 ^ (w * c.2))).sum)
             flags := (cs.map FpOut.flags).foldl Flags.or {}, satc := (cs.map FpOut.satc).sum, zerc := (cs.map FpOut.zerc).sum }))
     ∧ ∀ d a m (q : BitVec 6) (fs : BitVec 5) rm (hi : BitVec 1), q.toNat < 32 → fs.toNat ∈ [3, 4, 5, 6, 7, 10, 11] →
       (hi = 1 → codeBits fs.toNat = 4) →
       let w := codeBits fs.toNat
       let k := if w = 16 then 2 else 4
       fpDoes (.unpack d a m q fs rm hi) (fun s u => aligned [(d, k)] ∧ formatAbsent s u.wg fs.toNat = false ∧ u.e.replay = []) (some (d, k)) none
         (fun s u l =>
           let rs := (List.range k).map (fun j => unpackOne fs.toNat rm.toNat (flushes s u.wg)
             (scaleOf (flushes s u.wg) (qget (squadOf s u) q.toNat)) ((operA s u a m 1 l).toNat / 2 ^ (w * (j + 4 * hi.toNat)) % 2 ^ w))
           { val := BitVec.ofNat 256 ((rs.zipIdx.map (fun r => r.1.1 * 2 ^ (32 * r.2))).sum), flags := (rs.map (fun r => r.2)).foldl Flags.or {} }))
  ∧ (∀ c ∈ [3, 4, 5, 6, 7, 10, 11], ∀ mode sat flush x,
       let nan := ((floatFmt c).map Fmt.nanCode).getD 0
       packOne c mode sat flush none x = { val := BitVec.ofNat 256 nan, flags := { inv := true }, satc := 1 }
       ∧ ∀ n d, 0 < n → 0 < d →
           let r := packOne c mode sat flush (some (n, d)) x
           r.val.toNat < 2 ^ codeBits c
           ∧ match fp32.read flush x.toNat with
             | .num neg m e => ∃ q, ratOf q = ratOf (FVal.num neg m e).exact * d / n ∧ r.val.toNat = (writeCode c mode sat flush q).1
                 ∧ (r.satc = if ([(3, (255 * 2 ^ 120 : Rat)), (4, 65504), (5, 448), (6, 57344), (7, 6), (10, 127), (11, 7)].lookup c).getD 0 < (ratOf q).abs
                     then 1 else 0)
                 ∧ (r.zerc = if m ≠ 0 ∧ r.val.toNat % 2 ^ (if c < 10 then codeBits c - 1 else codeBits c) = 0 then 1 else 0)
             | v => r.val.toNat = (writeCode c mode sat flush v.exact).1 ∧ r.satc = 1 ∧ r.zerc = 0)
  ∧ (∀ c ∈ [3, 4, 5, 6, 7, 10, 11], ∀ mode flush x,
       unpackOne c mode flush none x = (fp32.nanCode, { inv := true })
       ∧ ∀ n d, 0 < n → 0 < d →
           let r := unpackOne c mode flush (some (n, d)) x
           r.1 < 2 ^ 32
           ∧ match (readCode c flush x).1 with
             | .num neg p k => 0 < k → ∃ q, ratOf q = ratOf (.num neg p k) * n / d ∧ r.1 = (fp32.deliver mode false flush q).1
             | .inf neg => r.1 = fp32.signed neg fp32.infCode
             | .nan => r.1 = fp32.nanCode)
  ∧ ∀ flush x, match scaleOf flush x with
      | some (n, d) => 0 < n ∧ 0 < d ∧ (n : Rat) / d = ratOf (fp32.read flush x.toNat).exact
      | none => (fp32.read flush x.toNat).isNaN = true ∨ (fp32.read flush x.toNat).isInf = true ∨ ratOf (fp32.read flush x.toNat).exact ≤ 0

/-- Trouble detection: the largest magnitude of a segment, the block scale rounded toward +∞, the squad's counters read and cleared, and a
workgroup's norm watchers (R169, R170, R171, R172). -/
def Obligations.TroubleDetection : Prop :=
  (∀ (i : BitVec 6 → BitVec 6 → Instr) k, (i, k) ∈ [(Instr.amax, 1), (.amaxQuad, 4)] → ∀ d a,
    writesWords (i d a) [(a, k)] d 1 (fun s u i =>
      let width := if h16 s u.wg then 16 else 32
      let ms := (List.range 32).filter (fun t => decide (t / width = i / width) && inMask (activeMask s u) t)
      let xs := ms.flatMap (fun t => (List.range k).map (fun j => (vget (squadOf s u) u.e.lb (a.toNat + j) t).toNat))
      BitVec.ofNat 256 (if xs.any (fun x => decide (0x7F800000 < x % 2 ^ 31)) then 0x7FC00000 else (xs.map (· % 2 ^ 31)).foldl max 0)))
  ∧ (∀ d a (p sel : BitVec 3) (m : BitVec 2), p.toNat ≤ 6 → sel.toNat ≤ 5 → fpDoes (.scaleFit d a p sel m) (fun _ _ => True) (some (d, 1)) (some p)
    (fun s u l =>
      match (fp32.read false ((operA s u a 0 1 l).toNat % 2 ^ 32)).exact with
      | .num _ n k => if n = 0 then { writes := false, pred := true }
          else outCode (fp32.round 2 false false false (n * 2 ^ m.toNat) (k * [448, 57344, 6, 127, 7, 65504].getD sel.toNat 1))
      | _ => { writes := false, flags := { inv := true } }))
  ∧ (∀ d, doesAlone (.hcnt d) (fun s u => activeMask s u ≠ 0) (fun s u => inSquad s u (fun q =>
      { vset q u.e.lb d.toNat (activeMask s u) (fun _ => BitVec.ofNat 32 (2 ^ 16 * q.zerc + q.satc)) with satc := 0, zerc := 0 })) allOn)
  ∧ (∀ p, doesAlone (.hchk p) (fun s u => activeMask s u ≠ 0) (fun s u => inSquad s u (fun q =>
      let t := (watchMode s u.wg == 1 || watchMode s u.wg == 3)
        && (decide (q.watch.toNat % 2 ^ 8 < q.satc) || decide (q.watch.toNat / 2 ^ 8 % 2 ^ 8 < q.zerc))
      { pset q u.e.lb p.toNat (activeMask s u) (if t then BitVec.allOnes 32 else 0) with satc := 0, zerc := 0 })) allOn)
  ∧ (∀ k a, doesAlone (.normAcc k a) (fun s u => activeMask s u ≠ 0) (fun s u => inWg s u (fun g => { g with
      norms := Map.put g.norms k.toNat ((lanesOf (activeMask s u)).foldl (fun (n : NormW) l =>
        match fp32.read false (ownWord s u a l).toNat with
        | .num _ x e =>
          let t := n.sum + (if 0 ≤ 2 * e + 80 then x * x * 2 ^ (2 * e + 80).toNat else x * x / 2 ^ (-(2 * e + 80)).toNat)
          if 2 ^ 256 - 1 ≤ t then { n with sum := 2 ^ 256 - 1, nf := true } else { n with sum := t }
        | _ => { n with nf := true }) (normOf g k.toNat)) })) allOn)
  ∧ ∀ p k, doesAlone (.normChk p k) (fun s u => activeMask s u ≠ 0) (fun s u =>
      let n := normOf (wgAt s u.wg) k.toNat
      let watch := (squadOf s u).watch.toNat
      let total := round64 (.num false n.sum (2 ^ 80))
      let bound := round64 ((val64 n.avg).mul (.num false (watch / 2 ^ 16 % 2 ^ 8) 16)).1
      let t := decide (2 ≤ watchMode s u.wg)
        && (n.nf || (n.cnt != 0 && orderF (fp64.read false total.toNat) (fp64.read false bound.toNat) == .gt))
      let diff := round64 (((fadd (fp64.read false total.toNat) (fp64.read false n.avg.toNat).negate).1.mul (.num false 1 (2 ^ (watch / 2 ^ 24 % 2 ^ 4)))).1)
      let avg := if t then n.avg else if n.cnt = 0 then total else round64 ((val64 n.avg).add (val64 diff)).1
      let next : NormW := { sum := 0, nf := false, avg := avg, cnt := if t then n.cnt else min (n.cnt + 1) (2 ^ 32 - 1) }
      inSquad (inWg s u (fun g => { g with norms := Map.put g.norms k.toNat next })) u
        (fun q => pset q u.e.lb p.toNat (activeMask s u) (if t then BitVec.allOnes 32 else 0))) allOn

/-- The value of a code (R139): every finite code of every floating-point format stands for the number its sign, exponent and mantissa
fields give. Exact arithmetic before rounding: of finite operands, a sum, a product and a fused product and sum are the rational ones
(R157). Rounding gives back what a format can hold: every finite code of a format, read as an exact value and delivered to the same format
in any mode, is itself, with no flag (R139, R143). Rounding to nearest (R143): a finite exact value within the format's range is delivered
as a code whose value no other code of the format comes closer to, and of two as close the one with an even code; INX says exactly that the
code's value differs. -/
def Obligations.RoundingAndValues : Prop :=
  (∀ f ∈ [fp64, fp32, fp16, bf16, e4m3, e5m2, e2m1, e3m4, fp12], ∀ x, x < 2 ^ (f.signBit + 1) →
     match f.read false x with
     | .nan _ => (f.kind = .ieee ∧ x / 2 ^ f.mb % 2 ^ f.eb = 2 ^ f.eb - 1 ∧ x % 2 ^ f.mb ≠ 0) ∨ (f.kind = .oneNaN ∧ x % 2 ^ f.signBit = 2 ^ f.signBit - 1)
     | .inf neg => f.kind = .ieee ∧ x % 2 ^ f.signBit = (2 ^ f.eb - 1) * 2 ^ f.mb ∧ neg = decide (2 ^ f.signBit ≤ x)
     | .num neg m e => neg = decide (2 ^ f.signBit ≤ x) ∧
         (if x / 2 ^ f.mb % 2 ^ f.eb = 0 then m = x % 2 ^ f.mb ∧ (m ≠ 0 → e = 1 - f.bias - f.mb)
          else m = 2 ^ f.mb + x % 2 ^ f.mb ∧ e = (x / 2 ^ f.mb % 2 ^ f.eb : Nat) - (f.bias : Int) - f.mb))
  ∧ (∀ (a b c : Bool) (m n k : Nat) (e f g : Int),
       ratOf (fadd (.num a m e) (.num b n f)).1 = ratOf (FVal.num a m e).exact + ratOf (FVal.num b n f).exact
       ∧ ratOf (fmul (.num a m e) (.num b n f)).1 = ratOf (FVal.num a m e).exact * ratOf (FVal.num b n f).exact
       ∧ ratOf (ffma (.num a m e) (.num b n f) (.num c k g)).1
           = ratOf (FVal.num a m e).exact * ratOf (FVal.num b n f).exact + ratOf (FVal.num c k g).exact)
  ∧ (∀ f ∈ [fp64, fp32, fp16, bf16, e4m3, e5m2, e2m1, e3m4, fp12], ∀ x mode, ∀ sat : Bool, x < 2 ^ (f.signBit + 1) →
       (f.read false x).isNaN = false → (f.read false x).isInf = false → f.deliver mode sat false (f.read false x).exact = (x, {}))
  ∧ (∀ f ∈ [fp64, fp32, fp16, bf16, e4m3, e5m2, e2m1, e3m4, fp12], ∀ neg n d, 0 < d →
       ratOf (.num false n d) ≤ ratOf (f.read false f.maxCode).exact →
       let r := f.deliver 0 false false (.num neg n d)
       (∀ y, y < 2 ^ (f.signBit + 1) → (f.read false y).isNaN = false → (f.read false y).isInf = false →
         let here := (ratOf (f.read false r.1).exact - ratOf (.num neg n d)).abs
         let there := (ratOf (f.read false y).exact - ratOf (.num neg n d)).abs
         here ≤ there ∧ (here = there → ratOf (f.read false y).exact ≠ ratOf (f.read false r.1).exact → r.1 % 2 = 0))
       ∧ (r.2.inx = true ↔ ratOf (f.read false r.1).exact ≠ ratOf (.num neg n d)))

/-- A signature that does not complete its signer range advances its threads and joins the open operation, whatever the operation:
guard-true threads sign in full, guard-false ones sign null (R96, R238, R252). The last signature of a core form issues the operation when
its checks pass: it joins the engine's queue behind those there, with its signers, format record and operands, and the register returns to
DECLARED and empty (R96, R232, R238, R240, R252). The last signature on one core of a cluster form waits for the other cores: the register
enters CLUSTER, and the part is kept by the cluster's register (R96, R249). -/
def Obligations.MatrixSigning : Prop :=
  ((∀ k x a y b r, (x = 1 → a.toNat % 2 = 0) → (y = 1 → b.toNat % 2 = 0) → ∀ p ∈ signedForms k x a y b r,
     doesAlone p.1 (fun s u => maySign s u k p.1 p.2 ∧ (convAt s u k).signed.length + (lanesOf u.e.mask).length < (convAt s u k).count)
       (fun s u => inSquad s u (fun q => setConv q k.toNat (signedConv s u k p.1))) allOn)
   ∧ ∀ k (t n r : BitVec 5), ∀ i ∈ [Instr.accClr k n r, .accCp k t n r],
     doesAlone i (fun s u => maySign s u k i false ∧ (convAt s u k).signed.length + (lanesOf u.e.mask).length < (convAt s u k).count)
       (fun s u => inSquad s u (fun q => setConv q k.toNat (signedConv s u k i))) allOn)
  ∧ (∀ k x a y b r t n, (x = 1 → a.toNat % 2 = 0) → (y = 1 → b.toNat % 2 = 0) →
       ∀ i ∈ [Instr.mma k x a y b r, .mmz k x a y b r, .mmp k x a y b r, .accClr k n r, .accCp k t n r], ∀ s u o,
       Issuing s u → maySign s u k i false → (convAt s u k).signed.length + (lanesOf u.e.mask).length = (convAt s u k).count →
       (wgAt s u.wg).discard = [] → (signedConv s u k i).full ≠ [] →
       (let c := signedConv s u k i
        let first := c.open_.getD (i, u.e.place)
        matCheck s (opOf s u.wg u.sq k.toNat c first.1 first.2 s.ids none) c.count = .ok o) →
       ∃ t, exec i s = .next t
         ∧ convAt t u k = { convAt s u k with st := 1, signed := [], full := [], open_ := none }
         ∧ (∃ v, (coreAt t (wgAt s u.wg).core).mat = (coreAt s (wgAt s u.wg).core).mat ++ [{ o with spoilt := v, prior := (wgAt s u.wg).runs }])
         ∧ (∀ z, Memory.read t.mem z = Memory.read s.mem z)
         ∧ ∀ l, l < 32 → inMask u.e.mask l = true → met t u l (.on u.next))
  ∧ (∀ k x a y b r, (x = 1 → a.toNat % 2 = 0) → (y = 1 → b.toNat % 2 = 0) → ∀ i ∈ [Instr.mmaCl k x a y b r, .mmzCl k x a y b r, .mmpCl k x a y b r],
       ∀ s u, Issuing s u → maySign s u k i true → (convAt s u k).signed.length + (lanesOf u.e.mask).length = (convAt s u k).count →
       ∀ ps, Map.getD s.xc ((wgAt s u.wg).core / 4 * 4 + k.toNat) [] = ps → ps.length < 3 → (∀ p ∈ ps, p.1 ≠ (wgAt s u.wg).core % 4) →
       ∃ t p, exec i s = .next t ∧ (convAt t u k).st = 3
         ∧ Map.find t.xc ((wgAt s u.wg).core / 4 * 4 + k.toNat) = some (ps ++ [((wgAt s u.wg).core % 4, p)])
         ∧ p.signers = (signedConv s u k i).signed ∧ p.mf0 = (convAt s u k).mf0 ∧ p.mf1 = (convAt s u k).mf1
         ∧ (∀ c, (coreAt t c).mat = (coreAt s c).mat)
         ∧ ∀ l, l < 32 → inMask u.e.mask l = true → met t u l (.on u.next))
  ∧ (∀ k x a y b r, (x = 1 → a.toNat % 2 = 0) → (y = 1 → b.toNat % 2 = 0) → ∀ i ∈ [Instr.mmaCl k x a y b r, .mmzCl k x a y b r, .mmpCl k x a y b r],
       ∀ s u, Issuing s u → maySign s u k i true → (convAt s u k).signed.length + (lanesOf u.e.mask).length = (convAt s u k).count →
       activeMask s u ≠ 0 →
       ∀ ps, Map.getD s.xc ((wgAt s u.wg).core / 4 * 4 + k.toNat) [] = ps → ps.length = 3 → ((wgAt s u.wg).core % 4 :: ps.map Prod.fst).Nodup →
       (∀ p ∈ ps, p.1 < 4 ∧ isSquad s p.2.wg p.2.sq ∧ (wgAt s p.2.wg).core = (wgAt s u.wg).core / 4 * 4 + p.1) →
       let c := signedConv s u k i
       let first := c.open_.getD (i, u.e.place)
       let own := opOf s u.wg u.sq k.toNat c first.1 first.2 s.ids none
       let all := own :: ps.map Prod.snd
       let closed := fun (t : State) (o : MatOp) => convOf (sqAt t o.wg o.sq) o.conv =
         { convOf (sqAt s o.wg o.sq) o.conv with st := 1, signed := [], full := [], open_ := none }
       ((∀ o ∈ all, (wgAt s o.wg).discard = [] ∧ partsAgree own o = true
           ∧ (o.null = true ∨ ∃ x, matCheck s o (convOf (sqAt s o.wg o.sq) o.conv).count = .ok x)) →
         ∃ t, exec i s = .next t ∧ Map.find t.xc ((wgAt s u.wg).core / 4 * 4 + k.toNat) = none ∧ (∀ z, Memory.read t.mem z = Memory.read s.mem z)
           ∧ (∀ o ∈ all, closed t o ∧ ∃ z, (coreAt t (wgAt s o.wg).core).mat = (coreAt s (wgAt s o.wg).core).mat ++ [z]
               ∧ z.ins = o.ins ∧ z.wg = o.wg ∧ z.signers = o.signers ∧ z.null = o.null ∧ z.aRows = o.aRows ∧ z.descA = o.descA ∧ z.descB = o.descB)
           ∧ ∀ l, l < 32 → inMask u.e.mask l = true → met t u l (.on u.next))
       ∧ ((∃ o ∈ ps.map Prod.snd, partsAgree own o = false) →
         ∃ t, exec i s = .next t ∧ Map.find t.xc ((wgAt s u.wg).core / 4 * 4 + k.toNat) = none ∧ (∀ z, Memory.read t.mem z = Memory.read s.mem z)
           ∧ (∀ o ∈ all, closed t o) ∧ (∀ d, (coreAt t d).mat = (coreAt s d).mat) ∧ hasRecord t 0x08 1))

/-- The format record of a register, the matrix fence, wait and health word (R236, R253, R254, R255). The C buffer through vector registers:
a store writes the quad's bytes, a load gives the bytes, converted where coded, to a pending load of its destination, and an address off a
multiple of 16 or beyond the allocation parks its lane (R251). -/
def Obligations.MatrixStatusAndC : Prop :=
  ((∀ (k q : BitVec 4), k.toNat < 8 → doesAlone (.mfmt k q) (fun s u => activeMask s u ≠ 0 ∧ (convOf (squadOf s u) k.toNat).st < 2)
     (fun s u => inSquad s u (fun x => setConv x k.toNat { convOf x k.toNat with mf0 := qget x (2 * q.toNat), mf1 := qget x (2 * q.toNat + 1) })) allOn)
   ∧ (∀ (k q : BitVec 4), k.toNat < 8 → doesAlone (.mfmt k q) (fun s u => activeMask s u ≠ 0 ∧ 2 ≤ (convOf (squadOf s u) k.toNat).st)
     (fun s _ => s) (fun s u l => activeFate (.parked u.e.place 0x08 3) s u l))
   ∧ (∀ k s u, Issuing s u → activeMask s u ≠ 0 → (barAt s u k).broken = none → (wgAt s u.wg).discard = [] →
       (∃ o ∈ (coreAt s (wgAt s u.wg).core).mat, o.wg = u.wg ∧ o.isFence = false) →
       (∀ o ∈ (coreAt s (wgAt s u.wg).core).mat, o.isFence = false) →
       ∃ t x, exec (.mfence k) s = .next t ∧ (coreAt t (wgAt s u.wg).core).mat = (coreAt s (wgAt s u.wg).core).mat ++ [x]
         ∧ x.ins = .mfence k ∧ x.wg = u.wg ∧ (wgAt t u.wg).bars = (wgAt s u.wg).bars ∧ (∀ z, Memory.read t.mem z = Memory.read s.mem z)
         ∧ ∀ l, l < 32 → inMask u.e.mask l = true → met t u l (.on u.next))
   ∧ (∀ k s u, Issuing s u → activeMask s u ≠ 0 → (barAt s u k).broken = none → (barAt s u k).init = true → (wgAt s u.wg).discard = [] →
       (coreAt s (wgAt s u.wg).core).mat = [] → (barAt s u k).earr + 1 < (barAt s u k).eexp →
       ∃ t, exec (.mfence k) s = .next t ∧ (coreAt t (wgAt s u.wg).core).mat = []
         ∧ barAt t u k = { barAt s u k with earr := (barAt s u k).earr + 1 }
         ∧ ∀ l, l < 32 → inMask u.e.mask l = true → met t u l (.on u.next))
   ∧ doesAlone .mwait (fun _ _ => True) (fun s _ => s)
       (fun s u l => activeFate (if (coreAt s (wgAt s u.wg).core).mat.any (fun o => o.wg == u.wg && !o.isFence) then .waits (.matrix s.ids) else .on u.next) s u l)
   ∧ ∀ d r, doesAlone (.mhealth d r) (fun s u => activeMask s u ≠ 0)
       (fun s u =>
         let run := Map.find (wgAt s u.wg).runs r.toNat
         let busy := ((coreAt s (wgAt s u.wg).core).mat.filter (fun o => o.wg == u.wg && !o.isFence)).length
         inWg (inSquad s u (fun q => vset q u.e.lb d.toNat (activeMask s u) (fun _ => BitVec.ofNat 32
           (2 ^ 10 * busy + 2 ^ 9 * bit (wgAt s u.wg).trn + (match run with
             | some x => 2 ^ 8 + x.count
             | none => 0))))) u (fun g => { g with trn := false })) allOn)
  ∧ ((∀ (c : BitVec 3) (a b : BitVec 6) (r : BitVec 5) s u l, Issuing s u → theLane s u l → c.toNat ≤ 4 → aligned [(a, accWords c)] →
       let st := stage s u { b := some (own b 1) } l
       let o := r.toNat * 8192 + (w32 st.b).toNat
       bufCheck s u.wg 3 o 16 = none → bufPoisoned (wgAt s u.wg) 3 o 16 = false → (wgAt s u.wg).runs = [] →
       let v := accValue (flushes s u.wg) c (bufRead (wgAt s u.wg) 3 o 16)
       ∃ t, exec (.accLd c a b r) s = .next t
         ∧ still t = still (inSquad (issued s u) u (fun q => { q with
             fxs := q.fxs ||| v.2.word
             loads := Map.put q.loads s.ids {
               seq := (squadOf s u).seq, lb := u.e.lb, lane := l, d := a, size := 4 * accWords c, fmt := .zext, src := .value (BitVec.ofNat 128 v.1)
               place := u.e.place, ea := BitVec.ofNat 64 o, staged := st, shown := [], acq := false } }))
         ∧ (∀ x, Memory.read t.mem x = Memory.read s.mem x) ∧ met t u l .checked)
     ∧ (∀ (a b : BitVec 6) (r : BitVec 5) s u l, Issuing s u → theLane s u l → aligned [(a, 4)] →
       let st := stage s u { a := some (own a 4), b := some (own b 1) } l
       let o := r.toNat * 8192 + (w32 st.b).toNat
       bufCheck s u.wg 3 o 16 = none → (wgAt s u.wg).runs = [] →
       ∃ t, exec (.accSt a b r) s = .next t
         ∧ still t = still (inWg (issued s u) u (fun g => bufWrite g 3 o (leBytes 16 st.a.toNat)))
         ∧ (∀ x, Memory.read t.mem x = Memory.read s.mem x) ∧ met t u l .checked)
     ∧ ∀ (c : BitVec 3) (a b : BitVec 6) (r : BitVec 5), c.toNat ≤ 4 → aligned [(a, accWords c)] → ∀ i ∈ [Instr.accLd c a b r],
         ∀ s u l, Issuing s u → inMask (activeMask s u) l = true → l < 32 → u.e.replay = [] → ∀ o, o = r.toNat * 8192 + (ownWord s u b l).toNat →
         (o % 16 ≠ 0 ∨ allocOf s u.wg 3 < o + 16) →
         ∃ t, exec i s = .next t ∧ met t u l (if o % 16 ≠ 0 then .parked u.e.place 0x12 0 else .parked u.e.place 0x13 1))

/-- Transfer operations: a copy of 4, 8 or 16 bytes and a tile copy of one guard-true thread whose checks pass (R263, R264, R273, R274).
What a copy moves (R264): its one piece reads as many bytes as its size from the place that the checks give for the source address and writes them to
the place of the destination address; an address off a multiple of the size is the memory-alignment fault, the source's first. What a tile copy moves
(R274): the positions of the source record's box, dimension 0 fastest; for each whose destination element exists one piece of an element, from the place of
the source element, or the pad value where that does not exist, to the place of the destination element; an element's address is its record's base with the
strides of its coordinates, those of the origin added (R268). An address of a typed buffer names the byte at its offset (R261). -/
def Obligations.TransferIssue : Prop :=
  let places := fun (s : State) (w lane : Nat) (src dst : Lay) (co do_ : List Nat) (m : ElemMove) =>
    ∃ y z sa da ca cd, locate s w .transfer src co = (y, .ok (sa, ca))
      ∧ locate (match sa with
          | none => y
          | some a => (touch y w .transfer a.1 (layBytes src.ws) false).1) w .transfer dst do_ = (z, .ok (da, cd))
      ∧ match da with
        | none => m.piece = none
        | some d => ∃ p, m.piece = some p ∧ p.lane = lane ∧ p.n = layBytes src.ws
            ∧ (∃ c, (touch z w .transfer d.1 (layBytes dst.ws) true).2 = .ok (p.dst, c))
            ∧ p.half = (if layBits src.ws = 4 then some ((sa.map (fun a => a.2)).getD false, d.2) else none)
            ∧ match sa with
              | none => p.src = .pad (padValue src.ws)
              | some a => p.ea = a.1 ∧ ∃ c, (touch y w .transfer a.1 (layBytes src.ws) false).2 = .ok (p.src, c)
  ((∀ d a x na kind, transfers (.cpaB32 d a x na kind) [(d, 2), (a, 2)] { d := some (own d 2), a := some (own a 2) } x na kind (cpaLane 4))
   ∧ (∀ d a x na kind, transfers (.cpaB64 d a x na kind) [(d, 2), (a, 2)] { d := some (own d 2), a := some (own a 2) } x na kind (cpaLane 8))
   ∧ (∀ d a x na kind, transfers (.cpaB128 d a x na kind) [(d, 2), (a, 2)] { d := some (own d 2), a := some (own a 2) } x na kind (cpaLane 16))
   ∧ ∀ d a b x na kind, transfers (.tcp d a b x na kind) [(d, 2), (a, 2), (b, 8)]
       { d := some (own d 2), a := some (own a 2), b := some (own b 8) } x na kind tcpLane)
  ∧ (∀ size ∈ [4, 8, 16], ∀ s u l st r,
       (∀ e, cpaLane size s u l st = (r, .error e) → (w64 st.a).toNat % size ≠ 0 → e = ((0x12, 0), w64 st.a))
       ∧ (∀ e, cpaLane size s u l st = (r, .error e) → (w64 st.a).toNat % size = 0 → (w64 st.d).toNat % size ≠ 0 → e = ((0x12, 0), w64 st.d))
       ∧ ∀ ps mix, cpaLane size s u l st = (r, .ok (ps, mix)) → (w64 st.a).toNat % size = 0 ∧ (w64 st.d).toNat % size = 0
           ∧ ∃ p c e, ps = [p] ∧ p.n = size ∧ p.ea = w64 st.a ∧ p.lane = u.e.lb * 32 + l ∧ p.half = none
             ∧ (touch s u.wg .transfer (w64 st.a) size false).2 = .ok (p.src, c)
             ∧ (touch (touch s u.wg .transfer (w64 st.a) size false).1 u.wg .transfer (w64 st.d) size true).2 = .ok (p.dst, e))
  ∧ (∀ s u l st r ps mix, tcpLane s u l st = (r, .ok (ps, mix)) →
       let org := (wordsOf st.b 8).map (fun x => x.toNat)
       ∃ a d src dst ca cd, readLay s u.wg .transfer (w64 st.a) = (a, .ok (src, ca)) ∧ readLay a u.wg .transfer (w64 st.d) = (d, .ok (dst, cd))
         ∧ layBits src.ws = layBits dst.ws
         ∧ ∃ ms : List ElemMove, ps = ms.filterMap (fun m => m.piece) ∧ ms.length = ((List.range (layRank src.ws)).map (layBox src.ws)).prod
           ∧ ∀ i m, ms[i]? = some m →
               let x := (List.range (layRank src.ws)).map (fun k => i / ((List.range k).map (layBox src.ws)).prod % layBox src.ws k)
               let at_ := fun (o : Nat) (n : Nat) => (List.range n).map (fun k => org.getD (o + k) 0 + x.getD k 0)
               ∃ z, z.wgs = s.wgs ∧ z.ctxs = s.ctxs
                 ∧ places z u.wg (u.e.lb * 32 + l) src dst (at_ 0 (layRank src.ws)) (at_ 4 (layRank dst.ws)) m)
  ∧ (∀ s w e l co, l.idx = none → layBase l.ws + (co.headD 0 * layBits l.ws) / 8 +
       ((List.range (co.length - 1)).map (fun k => co.getD (k + 1) 0 * (wordAt l.ws (8 + k)).toNat)).sum < 2 ^ 52 →
       locate s w e l co = (s, .ok (if ∀ k, k < co.length → co.getD k 0 < layDim l.ws k then
         some (BitVec.ofNat 64 (laySpc l.ws * 2 ^ 60 + (layBase l.ws + (co.headD 0 * layBits l.ws) / 8 +
           ((List.range (co.length - 1)).map (fun k => co.getD (k + 1) 0 * (wordAt l.ws (8 + k)).toNat)).sum)), co.headD 0 * layBits l.ws % 8 != 0)
         else none, [])))
  ∧ ∀ s w spc off n wr, 1 ≤ spc → spc ≤ 4 → (if wr then spc ≠ 3 else spc = 4) → off < 2 ^ 20 → off + n ≤ allocOf s w spc →
      touch s w .transfer (BitVec.ofNat 64 (spc * 2 ^ 60 + off)) n wr = (s, .ok (.buf spc off, 0))

/-- The copy engine's front end: `cpe.run` takes the lowest free context and sets its registers, or waits at the instruction; `cpe.stop`
stops a context of its workgroup that has not finished; `cpe.rd` reads one (R282, R283, R284). -/
def Obligations.CopyEngineFrontEnd : Prop :=
  (∀ d a b k, a.toNat % 2 = 0 → b.toNat % 2 = 0 → k < 4 → doesAlone (.cpeRun d a b)
    (fun s u => activeMask s u ≠ 0 ∧ ceMayTake s u k = true ∧ ∀ j, j < k → ceMayTake s u j = false)
    (fun s u =>
      let l := lowest (activeMask s u)
      inSquad (modCe s (wgAt s u.wg).core k (fun _ => { CeCtx.free with
          owner := some u.wg, sq := u.sq, pc := srcPair s u a 0 l, st := 1, drain := some (squadOf s u).seq
          e := [(1, srcPair s u b 0 l), (2, BitVec.ofNat 64 (wgAt s u.wg).id), (3, BitVec.ofNat 64 (wgAt s u.wg).core)] })) u
        (fun q => vset q u.e.lb d.toNat (activeMask s u) (fun _ => BitVec.ofNat 32 k)))
    (fun s u l => activeFate .checked s u l))
  ∧ (∀ d a b, a.toNat % 2 = 0 → b.toNat % 2 = 0 → doesAlone (.cpeRun d a b)
    (fun s u => activeMask s u ≠ 0 ∧ ∀ k, k < 4 → ceMayTake s u k = false) (fun s _ => s) (fun _ u _ => .on u.e.place))
  ∧ (∀ a, doesAlone (.cpeStop a) (fun s u => activeMask s u ≠ 0)
    (fun s u =>
      let k := (ownWord s u a (lowest (activeMask s u))).toNat % 4
      if (ceOf s u k).owner = some u.wg ∧ 1 ≤ (ceOf s u k).st ∧ (ceOf s u k).st ≤ 3 then
        modCe s (wgAt s u.wg).core k (fun c => { c with
          st := 5, comps := [], pubWait := none, halting := false, ldi := [], stuck := none, withheld := false, kept := 0, held := none, left := []
          cursor := 0
          moves := c.moves.filter (fun m => some m.1 != c.stuck) })
      else s) allOn)
  ∧ ∀ d a (sel : BitVec 6), sel.toNat ≤ 2 → writesWord (.cpeRd d a sel) d (fun s u l =>
      let c := ceOf s u ((ownWord s u a l).toNat % 4)
      if c.owner ≠ some u.wg then 0
      else if sel = 0 then BitVec.ofNat 32 (2 ^ 29 * (c.st % 8) + 2 ^ 16 * (c.fsub % 2 ^ 8) + min 64 c.moves.length)
      else if sel = 1 then BitVec.ofNat 32 c.pc.toNat else BitVec.ofNat 32 (c.pc.toNat / 2 ^ 32 % 2 ^ 20))

/-- The fabric's requests of one guard-true thread whose checks pass: a send enters the send queue with its payload, and takes the next
sequence number of its destination when its length is the payload's; a post, a cancel and a probe hand their record to the receive engine;
with a full send queue, or a payload that a remap holds at its source, the bundle stays at the instruction (R299, R302, R304, R305, R306, R312, R313). A
request to the receive engine names its thread, its destination registers, which stay marked, its context and the words of its record (R306, R312). A send takes one place of the queue (R304):
its entry names its destination, tag, length and status word, and its sequence number is the next of its destination and context, which
moves on by one modulo 65,536, when the payload has the length the descriptor names, and one of more than 256 bytes to another device is announced; else it
takes none and ends with status 8, whose length and number 0 are the model's inference (log entry 39). A collective of one issue whose records and checks
pass is opened, with the communicator's sequence number, which moves on, its members, its records and its completion, and its signature goes out, or
waits for room (R300) or the end of a remap (R299); with no room on the die the bundle stays at the instruction (R315, R316, R317, R321). -/
def Obligations.FabricIssue : Prop :=
  ((∀ a s u l r q, Issuing s u → theLane s u l → a.toNat % 2 = 0 →
     sendLane { s with cur := none } u (w64 (stage s u { a := some (own a 2) } l).a) = (r, .ok q) → s.fab.sends.length < 1024 → q.pay.held = false →
     let x := inWg (acceptSend r u.wg q) u (fun g => { g with committed := true })
     ∃ t, exec (.send a) s = .next t ∧ still t = still (mixed x u q.mix)
       ∧ (∀ b, Memory.read t.mem b = Memory.read x.mem b) ∧ met t u l .checked)
   ∧ (∀ a s u l r q, Issuing s u → theLane s u l → a.toNat % 2 = 0 →
     sendLane { s with cur := none } u (w64 (stage s u { a := some (own a 2) } l).a) = (r, .ok q) → (1024 ≤ s.fab.sends.length ∨ q.pay.held = true) →
     ∃ t, exec (.send a) s = .next t ∧ still t = still s ∧ met t u l (.on u.e.place))
   ∧ (∀ d a s u l r ws lay, Issuing s u → theLane s u l → a.toNat % 2 = 0 →
     postLane { s with cur := none } u (w64 (stage s u { a := some (own a 2) } l).a) = (r, .ok (ws, lay)) →
     ∃ t, exec (.recvPost d a) s = .next t ∧ still t = still (requestRecv r u l 0 d 1 ws lay)
       ∧ (∀ b, Memory.read t.mem b = Memory.read r.mem b) ∧ met t u l .checked)
   ∧ (∀ d a m s u l, Issuing s u → theLane s u l →
     ∃ t, exec (.recvCancel d a m) s = .next t ∧ still t = still (requestRecv s u l 1 d 1 [srcWord s u a m l] noLay)
       ∧ (∀ b, Memory.read t.mem b = Memory.read s.mem b) ∧ met t u l .checked)
   ∧ ∀ d a s u l r ws, Issuing s u → theLane s u l → a.toNat % 2 = 0 → d.toNat % 4 = 0 →
     readDesc { s with cur := none } u.wg (w64 (stage s u { a := some (own a 2) } l).a) 64 16 = (r, .ok ws) → patternReserved ws = false →
     ∃ t, exec (.recvProbe d a) s = .next t ∧ still t = still (requestRecv r u l 2 d 4 (ws.take 4) noLay)
       ∧ (∀ b, Memory.read t.mem b = Memory.read r.mem b) ∧ met t u l .checked)
  ∧ (∀ s u l kind d n ws lay, u.wg < s.wgs.length → u.sq < (wgAt s u.wg).squads.length →
       let t := requestRecv s u l kind d n ws lay
       Map.find t.fab.reqs s.ids = some { wg := u.wg, sq := u.sq, lb := u.e.lb, lane := l, d := d, ctx := (wgAt s u.wg).ctx, kind := kind, words := ws
                                          rec_ := lay.ws, idx := lay.idx }
         ∧ (∀ k, k ≠ s.ids → Map.find t.fab.reqs k = Map.find s.fab.reqs k) ∧ t.mem = s.mem ∧ (squadOf t u).v = (squadOf s u).v
         ∧ (squadOf t u).holds = (squadOf s u).holds ++ (List.range n).map (fun k => (itemV u.e.lb (d.toNat + k), s.ids)))
  ∧ (∀ s w q,
       let d := recBits q.words 0 9 0
       let key := d * 2 ^ 16 + (wgAt s w).ctx
       let old := Map.getD s.fab.sendSeq key 0
       let t := acceptSend s w q
       ∃ op, Map.find t.fab.sends s.ids = some op ∧ op.ddev = d ∧ op.tag = wordAt q.words 1 ∧ op.len = (wordAt q.words 4).toNat ∧ op.wg = w
         ∧ op.stat = ((wordAt q.words 7).toNat * 2 ^ 32 + (wordAt q.words 6).toNat) % 2 ^ 52
         ∧ (∀ k, k ≠ s.ids → Map.find t.fab.sends k = Map.find s.fab.sends k)
         ∧ (q.pay.bytes = (wordAt q.words 4).toNat → q.pay.rows.length ≤ 65536 →
             op.seq = some old ∧ Map.getD t.fab.sendSeq key 0 = (old + 1) % 65536)
         ∧ (q.pay.bytes = (wordAt q.words 4).toNat → q.pay.rows.length ≤ 65536 → q.pay.poisoned = none → d ≠ Config.ownDevice →
             256 < (wordAt q.words 4).toNat → Outgoing.announce s.ids (wordAt q.words 4).toNat ∈ outgoing t)
         ∧ (q.pay.bytes ≠ (wordAt q.words 4).toNat → op.seq = none ∧ op.fate = some (8, 0) ∧ t.fab.sendSeq = s.fab.sendSeq ∧ t.out = s.out)
         ∧ t.wgs = s.wgs
         ∧ ((q.pay.bytes ≠ (wordAt q.words 4).toNat ∨ d = Config.ownDevice ∨ 256 < (wordAt q.words 4).toNat) → t.mem = s.mem))
  ∧ ((∀ a x na kind, a.toNat % 2 = 0 → doesAlone (.tcpColl a x na kind)
       (fun s u => activeMask s u ≠ 0 ∧ 16 ≤ collsOpen s (dieOf (wgAt s u.wg).core)) (fun s _ => s) (fun _ u _ => .on u.e.place))
     ∧ ∀ a x na kind s u r r' ws src dst, Issuing s u → activeMask s u ≠ 0 → a.toNat % 2 = 0 → collsOpen s (dieOf (wgAt s u.wg).core) < 16 →
       collRecords { s with cur := none } u.wg (srcPair s u a 0 (lowest (activeMask s u))) = (r, .ok (ws, src, dst)) →
       collCheck r u.wg ws src dst kind x = (r', none) → ∀ c, Map.find r'.fab.comms (shapeComm ws) = some c →
       ∃ t, exec (.tcpColl a x na kind) s = .next t
         ∧ (∃ e, Map.find t.fab.comms (shapeComm ws) = some e ∧ e.seq = c.seq + 1)
         ∧ ((∃ m ∈ groupOf ws c.members.length (ownRank ws), m ≠ ownRank ws) → Map.find t.fab.colls r'.ids = some {
             comm := shapeComm ws, seq := c.seq, ctx := (wgAt s u.wg).ctx, wg := u.wg, die := dieOf (wgAt s u.wg).core, kindBar := kind == 1, x := x.toNat
             shape := ws, src := (src.ws, src.idx), dst := (dst.ws, dst.idx), rank := ownRank ws, group := groupOf ws c.members.length (ownRank ws)
             own := none, sigs := [(ownRank ws, signatureOf ws src.ws c.contract)], granted := [], given := [], acks := [], written := none, entries := []
             pubs := [] })
         ∧ Outgoing.signature r'.ids (signatureOf ws src.ws c.contract) ∈ outgoing t
         ∧ (wgAt t u.wg).committed = true
         ∧ ∀ l, l < 32 → inMask u.e.mask l = true → met t u l (activeFate .checked s u l))

/-- `publish` starts one operation for the entries its guard-true threads name, each once and in ascending order, and they wait for it;
`bmt.rd` gives the core's view of a word of a valid entry and zero of an invalid one (R277, R278, R279). Invalidation of translations: the
named ones go; while no transfer operation and no line request of the copy engine that passed its checks is outstanding under an entry they name the
threads go on at once, else they wait for it; an address above bit 51 parks them (R349). The model takes the work of a whole context as that under its
entries, and leaves out a move that is stuck at a fault (log entry 45). `bmt.set` writes its entry at the device's table and sends it to the cores, and its threads wait for them; an
entry that breaks a rule stops the issue and changes nothing (R350). -/
def Obligations.MapsAndTranslations : Prop :=
  ((∀ d a m s u, Issuing s u → activeMask s u ≠ 0 → u.e.replay = [] →
     ∃ t k op, exec (.publish d a m) s = .next t ∧ Map.find t.pubOps k = some op ∧ (wgAt t u.wg).committed = true
       ∧ op.wg = u.wg ∧ op.sq = u.sq ∧ op.lb = u.e.lb ∧ op.d = d ∧ op.before = (squadOf s u).seq ∧ op.pubs = []
       ∧ op.lanes = (lanesOf (activeMask s u)).map (fun l => (l, srcWord s u a m l))
       ∧ op.todo.Pairwise (· < ·) ∧ (∀ n, n ∈ op.todo ↔ ∃ l ∈ lanesOf (activeMask s u), n = (srcWord s u a m l).toNat % 4096)
       ∧ (∀ b, Memory.read t.mem b = Memory.read s.mem b)
       ∧ ∀ l, l < 32 → inMask u.e.mask l = true → met t u l (activeFate (.waits (.engine k)) s u l))
   ∧ ∀ d a m (w : BitVec 6), w.toNat ≤ 3 → writesWord (.bmtRd d a m w) d (fun s u l =>
       let ws := bmtView s (wgAt s u.wg).core (wgAt s u.wg).ctx ((srcWord s u a m l).toNat % 4096)
       if bmtValid ws then wordAt ws w.toNat else 0))
  ∧ ((∀ i any, i ∈ [Instr.tlbInvCtx, .tlbInvAll] → any = decide (i = .tlbInvAll) →
        let mine := fun (s : State) (u : Bundle) (c : Nat) => any || c == contextOf s u
        does i (fun s u => activeMask s u ≠ 0 ∧ atLevel s u 2 ∧ nothingChecked s (mine s u))
          (fun s u => { s with tlb := s.tlb.filter (fun t => !(mine s u t.ctx)) }) allOn
        ∧ ∀ s u, Issuing s u → activeMask s u ≠ 0 → atLevel s u 2 → (∀ d ∈ s.devOps, d.1 < s.ids) → somethingChecked s (mine s u) →
            ∃ t, exec i s = .next t ∧ t.tlb = s.tlb.filter (fun t => !(mine s u t.ctx))
              ∧ ∀ l, l < 32 → inMask u.e.mask l = true → met t u l (activeFate (.waits (.device s.ids)) s u l))
     ∧ (∀ a, a.toNat % 2 = 0 →
        let names := fun (s : State) (u : Bundle) (t : TlbEntry) =>
          t.ctx == contextOf s u && t.page == (lowPair s u a).toNat / 2 ^ pageBits t.level
        does (.tlbInvPage a)
          (fun s u => activeMask s u ≠ 0 ∧ atLevel s u 2 ∧ (lowPair s u a).toNat < 2 ^ 52 ∧ nothingChecked s (fun c => c == contextOf s u))
          (fun s u => { s with tlb := s.tlb.filter (fun t => !(names s u t)) }) allOn
        ∧ ∀ s u, Issuing s u → activeMask s u ≠ 0 → atLevel s u 2 → (lowPair s u a).toNat < 2 ^ 52 → (∀ d ∈ s.devOps, d.1 < s.ids) →
            somethingChecked s (fun c => c == contextOf s u) →
            ∃ t, exec (.tlbInvPage a) s = .next t ∧ t.tlb = s.tlb.filter (fun t => !(names s u t))
              ∧ ∀ l, l < 32 → inMask u.e.mask l = true → met t u l (activeFate (.waits (.device s.ids)) s u l))
     ∧ ∀ a, a.toNat % 2 = 0 → doesAlone (.tlbInvPage a) (fun s u => activeMask s u ≠ 0 ∧ atLevel s u 2 ∧ 2 ^ 52 ≤ (lowPair s u a).toNat)
         (fun s _ => s) (fun s u l => activeFate (.parked u.e.place 0x10 3) s u l))
  ∧ ((∀ a m b, b.toNat % 4 = 0 → doesAlone (.bmtSet a m b)
       (fun s u => activeMask s u ≠ 0 ∧ atLevel s u 1 ∧ bmtBad ((List.range 4).map (fun k => lowWord s u (b + BitVec.ofNat 6 k))) = true)
       (fun s _ => s) (fun s u l => activeFate (.parked u.e.place 0x1C 4) s u l))
     ∧ ∀ a m b s u, Issuing s u → b.toNat % 4 = 0 → activeMask s u ≠ 0 → atLevel s u 1 →
         bmtBad ((List.range 4).map (fun k => lowWord s u (b + BitVec.ofNat 6 k))) = false → (Map.find s.ctxs (contextOf s u)).isSome = true →
         viewCores s ≠ [] → s.devOps = [] →
         let n := (srcWord s u a m (lowest (activeMask s u))).toNat % 4096
         let ws := (List.range 4).map (fun k => lowWord s u (b + BitVec.ofNat 6 k))
         ∃ t k p, exec (.bmtSet a m b) s = .next t
           ∧ t.mem = (bmtWrite s (contextOf s u) n ws).mem
           ∧ (∃ j, Map.find t.pubs j = some p) ∧ p.ctx = contextOf s u ∧ p.entry = n ∧ p.words = ws ∧ p.waiting = viewCores s
           ∧ ∀ l, l < 32 → inMask u.e.mask l = true → met t u l (activeFate (.waits (.device k)) s u l))

/-- Reads of system registers and counters, at a level that may read them: every guard-true lane receives the register's current value, a trap kernel's that
of the launch it serves (R327, R328, R337, R348). Writes of system registers, once per issue with the lowest guard-true lane's value, at a level that may write them
(R146, R168, R297, R327, R328, R329). -/
def Obligations.SystemRegisters : Prop :=
  ((∀ d, ∀ x ∈ ([(0x00, 1, 0, fun s u => (wordAt (khwOf s u.wg) 0).zeroExtend 64), (0x01, 1, 0, fun s u => BitVec.ofNat 64 (contextOf s u)),
       (0x02, 1, 0, fun s u => (squadOf s u).fxs.zeroExtend 64), (0x03, 1, 0, fun s u => (squadOf s u).watch.zeroExtend 64),
       (0x04, 2, 0, fun _ _ => Config.ncapm), (0x05, 2, 0, fun _ _ => Config.ncapv), (0x06, 1, 0, fun _ _ => Config.fmtcap.zeroExtend 64),
       (0x07, 2, 0, fun s u => BitVec.ofNat 64 (launchAt s (wgAt s u.wg).served).energy), (0x08, 2, 0, fun s _ => s.plat.tclk),
       (0x09, 1, 0, fun s _ => (tokWord s).zeroExtend 64), (0x0A, 1, 0, fun s _ => (oppWord s).zeroExtend 64),
       (0x10, 1, 2, fun s _ => s.l2eng.zeroExtend 64), (0x11, 1, 2, fun s _ => s.fab.pmap.zeroExtend 64),
       (0x12, 1, 2, fun s u => (Map.getD s.dbgctl (contextOf s u) 0).zeroExtend 64),
       (0x13, 2, 2, fun s u => Map.getD s.faultq (dieOf (wgAt s u.wg).core) 0),
       (0x14, 2, 2, fun s u => Map.getD s.bpa (contextOf s u * 4) 0), (0x15, 2, 2, fun s u => Map.getD s.bpa (contextOf s u * 4 + 1) 0),
       (0x16, 2, 2, fun s u => Map.getD s.bpa (contextOf s u * 4 + 2) 0), (0x17, 2, 2, fun s u => Map.getD s.bpa (contextOf s u * 4 + 3) 0)] :
       List (BitVec 8 × Nat × Nat × (State → Bundle → DWord))),
     sysGives (.sysrd d x.1) x.2.2.1 d x.2.1 x.2.2.2)
   ∧ (∀ d, sysGives (.ecnt d) 0 d 2 (fun s u => BitVec.ofNat 64 (launchAt s (wgAt s u.wg).served).energy))
   ∧ (∀ d, sysGives (.clkRd d) 0 d 2 (fun s _ => s.plat.tclk))
   ∧ (∀ d, sysGives (.tokRd d) 0 d 1 (fun s _ => BitVec.ofNat 64 (2 ^ 16 * s.plat.out.toNat + s.plat.bal.toNat)))
   ∧ ∀ d (sel : BitVec 8), sel.toNat ≤ 7 → sysGives (.perfRd d sel) 0 d 2 (fun s u =>
       BitVec.ofNat 64 (if sel = 0 then (squadOf s u).cycle else Map.getD (squadOf s u).perf sel.toNat 0)))
  ∧ ((∀ a, doesAlone (.syswr a 0x02) (fun s u => activeMask s u ≠ 0)
       (fun s u => inSquad s u (fun q => { q with fxs := q.fxs &&& ~~~(lowWord s u a) })) allOn)
     ∧ (∀ a, doesAlone (.syswr a 0x03) (fun s u => activeMask s u ≠ 0)
       (fun s u => inSquad s u (fun q => { q with watch := lowWord s u a &&& 0x0FFFFFFF })) allOn)
     ∧ (∀ a, doesAlone (.syswr a 0x10) (fun s u => activeMask s u ≠ 0 ∧ atLevel s u 2) (fun s u => { s with l2eng := lowWord s u a &&& 0xFFFF }) allOn)
     ∧ (∀ a, does (.syswr a 0x11) (fun s u => activeMask s u ≠ 0 ∧ atLevel s u 2)
       (fun s u => if s.fab.quiesced.isSome then { s with fab := { s.fab with pmap := lowWord s u a &&& 0x00FFFFFF } } else s) allOn)
     ∧ (∀ a, doesAlone (.syswr a 0x12) (fun s u => activeMask s u ≠ 0 ∧ atLevel s u 2)
       (fun s u => { s with dbgctl := Map.put s.dbgctl (contextOf s u) (lowWord s u a &&& 0x8F) }) allOn)
     ∧ (∀ a, a.toNat % 2 = 0 → does (.syswr a 0x13) (fun s u => activeMask s u ≠ 0 ∧ atLevel s u 2 ∧ s.faultWait = [])
       (fun s u => { s with faultq := Map.put s.faultq (dieOf (wgAt s u.wg).core) (lowPair s u a &&& 0x000FFFFFFFFFF00F) }) allOn)
     ∧ (∀ a k, a.toNat % 2 = 0 → k < 4 → doesAlone (.syswr a (BitVec.ofNat 8 (0x14 + k))) (fun s u => activeMask s u ≠ 0 ∧ atLevel s u 2)
       (fun s u => { s with bpa := Map.put s.bpa (contextOf s u * 4 + k) (lowPair s u a &&& 0x000FFFFFFFFFFFFC) }) allOn)
     ∧ ∀ a (r : BitVec 8), a.toNat % 2 = 0 → (r = 0 ∨ r = 1 ∨ (4 ≤ r.toNat ∧ r.toNat ≤ 10)) →
         doesAlone (.syswr a r) (fun s u => atLevel s u 2) (fun s _ => s) allOn)

/-- Parked workgroups: a name that fits none, or names the trap kernel itself, gives D = 0 and does nothing, as does a resume with nobody parked; a kill ends every thread of the named workgroup and breaks its
barriers; a resume leaves none of its threads parked: each stands where it parked, or takes its wait up again, and one of an adjourned workgroup, or of one that is
placed again and not yet restored, waits for the restore; a stop leaves a record for it; each gives D = 1; a step resumes likewise and marks each thread (R338, R351, R353). That a
resume with nobody parked gives 0 whatever the copy-engine contexts do is the model's inference (log entry 44), and so are how the marks of a step are kept
(log entry 46) and that the L2 operations change nothing that can be read (log entry 22). Firmware's own
instructions: context selection, halt, and the cache operations, of which only the L1 ones change what can be read (R353). Trap queues:
`fault.rd` on an empty queue gives 0 and writes nothing, an address off a multiple of 64 parks the issue; else it takes the oldest record,
queues the write of its 64 bytes to the address, as a store of the issuing thread (R217; log entry 77), and gives one more than the records left; `eret`
waits while its queue is empty (R352). -/
def Obligations.FirmwareInstructions : Prop :=
  ((∀ d a, ∀ i ∈ [Instr.parkCtlResume d a, .parkCtlKill d a, .parkCtlStop d a], a.toNat % 2 = 0 →
     does i (fun s u => activeMask s u ≠ 0 ∧ atLevel s u 1 ∧ (parkTarget s u a = none ∨ parkTarget s u a = some u.wg))
       (fun s u => inSquad s u (fun q => vset q u.e.lb d.toNat (activeMask s u) (fun _ => 0))) allOn)
   ∧ (∀ d a, a.toNat % 2 = 0 →
     doesAlone (.parkCtlResume d a) (fun s u => activeMask s u ≠ 0 ∧ atLevel s u 1 ∧ ∃ w, parkTarget s u a = some w ∧ anyParked (wgAt s w) = false)
       (fun s u => inSquad s u (fun q => vset q u.e.lb d.toNat (activeMask s u) (fun _ => 0))) allOn)
   ∧ (∀ d a, a.toNat % 2 = 0 → does (.parkCtlResume d a) (fun s u => activeMask s u ≠ 0 ∧ atLevel s u 1
         ∧ ∃ w, parkTarget s u a = some w ∧ w ≠ u.wg ∧ ((wgAt s w).status = 1 ∨ (wgAt s w).leaving = some 2) ∧ anyParked (wgAt s w) = true)
       (fun s u => modWg (inSquad s u (fun q => vset q u.e.lb d.toNat (activeMask s u) (fun _ => 1))) ((parkTarget s u a).getD 0)
         (fun g => { g with resume := true })) allOn)
   ∧ (∀ d a s u w, Issuing s u → a.toNat % 2 = 0 → activeMask s u ≠ 0 → atLevel s u 1 → parkTarget s u a = some w → w ≠ u.wg →
       (wgAt s w).status = 0 → (wgAt s w).leaving ≠ some 2 → anyParked (wgAt s w) = true → nobodyBarred s w →
       ∃ t, exec (.parkCtlResume d a) s = .next t ∧ anyParked (wgAt t w) = false ∧ allResumed s t w
         ∧ wordsWritten u (activeMask s u) d 1 (fun _ => 1) (squadOf s u) (squadOf t u)
         ∧ ∀ l, l < 32 → inMask u.e.mask l = true → met t u l (.on u.next))
   ∧ (∀ d a s u w, Issuing s u → a.toNat % 2 = 0 → activeMask s u ≠ 0 → atLevel s u 1 → parkTarget s u a = some w → w ≠ u.wg →
       ∃ t, exec (.parkCtlKill d a) s = .next t ∧ (wgAt t w).killed = true ∧ (wgAt t w).leaving ≠ some 3
         ∧ (∀ q ∈ (wgAt t w).squads, q.frontier = [] ∧ q.overflow = [] ∧ q.waiters = [] ∧ q.parked = []
             ∧ ∀ b, b < q.nlb → exitedOf q b = BitVec.allOnes 32)
         ∧ (∀ k, k < 16 → (barOf (wgAt t w) k).broken ≠ none)
         ∧ wordsWritten u (activeMask s u) d 1 (fun _ => 1) (squadOf s u) (squadOf t u)
         ∧ ∀ l, l < 32 → inMask u.e.mask l = true → met t u l (.on u.next))
   ∧ (∀ d a s u w, Issuing s u → a.toNat % 2 = 0 → activeMask s u ≠ 0 → atLevel s u 1 → parkTarget s u a = some w → w ≠ u.wg →
       ∃ t, exec (.parkCtlStop d a) s = .next t
         ∧ (∃ r ∈ recordsOf t, recBits r 0 31 24 = 0x28 ∧ recBits r 0 23 16 = 6)
         ∧ (∀ q e l, q < (wgAt s w).squads.length → e ∈ (sqAt s w q).frontier → l < 32 → inMask e.mask l = true → (e.lb, l, none) ∈ (sqAt t w q).doomed)
         ∧ wordsWritten u (activeMask s u) d 1 (fun _ => 1) (squadOf s u) (squadOf t u)
         ∧ ∀ l, l < 32 → inMask u.e.mask l = true → met t u l (.on u.next))
   ∧ (∀ a, a.toNat % 2 = 0 → doesAlone (.dbgStep a) (fun s u => activeMask s u ≠ 0 ∧ atLevel s u 2 ∧ parkTarget s u a = none) (fun s _ => s) allOn)
   ∧ ∀ a s u w, Issuing s u → a.toNat % 2 = 0 → activeMask s u ≠ 0 → atLevel s u 2 → parkTarget s u a = some w → w ≠ u.wg →
       nobodyBarred s w →
       ∃ t, exec (.dbgStep a) s = .next t ∧ anyParked (wgAt t w) = false ∧ allResumed s t w
         ∧ (∀ q p, q < (wgAt s w).squads.length → p ∈ (sqAt s w q).parked → p.lane < 32 →
             inMask (Map.getD (sqAt t w q).stepping p.lb 0) p.lane = true)
         ∧ ∀ l, l < 32 → inMask u.e.mask l = true → met t u l (.on u.next))
  ∧ ((∀ a, doesAlone (.dbgSel a) (fun s u => activeMask s u ≠ 0 ∧ atLevel s u 2)
       (fun s u => inWg s u (fun g => { g with selected := (lowWord s u a).toNat % 2 ^ 16 })) allOn)
     ∧ doesAlone .halt (fun s u => atLevel s u 2) (fun s _ => s) (fun s u l => activeFate (.waits .halted) s u l)
     ∧ doesAlone .cacheOpIinv (fun s u => activeMask s u ≠ 0 ∧ atLevel s u 2)
       (fun s _ => { s with cores := s.cores.map (fun c => (c.1, { c.2 with l1i := [] })) }) allOn
     ∧ doesAlone .cacheOpDinv (fun s u => activeMask s u ≠ 0 ∧ atLevel s u 2)
       (fun s _ => { s with cores := s.cores.map (fun c => (c.1, { c.2 with l1d := [] })) }) allOn
     ∧ (∀ a, a.toNat % 2 = 0 → doesAlone (.cacheOpL2wb a) (fun s u => atLevel s u 2) (fun s _ => s) allOn)
     ∧ (∀ a, doesAlone (.cacheOpL2key a) (fun s u => atLevel s u 2) (fun s _ => s) allOn)
     ∧ doesAlone .cacheOpL2all (fun s u => atLevel s u 2) (fun s _ => s) allOn)
  ∧ ((∀ d a, a.toNat % 2 = 0 → does (.faultRd d a)
       (fun s u => activeMask s u ≠ 0 ∧ atLevel s u 1 ∧ (lowPair s u a).toNat % 64 = 0 ∧ queuedRecords s u.wg = [])
       (fun s u => inSquad s u (fun q => vset q u.e.lb d.toNat (activeMask s u) (fun _ => 0))) allOn)
     ∧ (∀ d a, a.toNat % 2 = 0 → doesAlone (.faultRd d a) (fun s u => activeMask s u ≠ 0 ∧ atLevel s u 1 ∧ (lowPair s u a).toNat % 64 ≠ 0)
       (fun s _ => s) (fun s u l => activeFate (.parked u.e.place 0x12 0) s u l))
     ∧ (∀ d a s u r rest x p, Issuing s u → a.toNat % 2 = 0 → activeMask s u ≠ 0 → atLevel s u 1 → (lowPair s u a).toNat % 64 = 0 →
         queuedRecords s u.wg = r :: rest → s.faultWait = [] →
         access { s with cur := none } (wgAt s u.wg).core (wgAt s u.wg).ctx ((wgAt s u.wg).level == 2) (lowPair s u a) .store = (x, .ok p) →
         ∃ t, exec (.faultRd d a) s = .next t ∧ queuedRecords t u.wg = rest
           ∧ wordsWritten u (activeMask s u) d 1 (fun _ => wide32 (BitVec.ofNat 32 (1 + rest.length))) (squadOf s u) (squadOf t u)
           ∧ (∃ e ln, (squadOf t u).stq = (squadOf s u).stq ++ [e] ∧ e.seq = (squadOf s u).seq ∧ e.lb = u.e.lb ∧ e.release = false ∧ e.atomic = false
               ∧ e.lanes = [ln] ∧ ln.lane = lowest (activeMask s u) ∧ ln.loc = p.loc ∧ ln.attr = p.attr ∧ ln.atom = none
               ∧ ln.bytes = r.flatMap bytesOfWord)
           ∧ (∀ b, Memory.read t.mem b = Memory.read x.mem b)
           ∧ ∀ l, l < 32 → inMask u.e.mask l = true → met t u l (.on u.next))
     ∧ does .eret (fun s u => atLevel s u 1) (fun s _ => s)
         (fun s u l => activeFate (if (queuedRecords s u.wg).isEmpty then .waits .eret else .on u.next) s u l))

/-- The copy engine's arithmetic: 64-bit, wrapping, with e0 reading as zero and ignoring writes; nothing but the context's register and its
PC changes (R282, R288). The copy engine's branches, jumps and loops, `yieldctx`, and `halt` with and without work outstanding (R284, R288);
a loop counter that does not exist parks the context with subcode 1. That a halting context's PC stays on the `halt` is the model's choice (log entry 37). -/
def Obligations.CopyEngineCompute : Prop :=
  ((∀ d a b, ceGives (.ceAdd d a b) d (fun c => eReg c a + eReg c b))
   ∧ (∀ d a b, ceGives (.ceSub d a b) d (fun c => eReg c a - eReg c b))
   ∧ (∀ d a b, ceGives (.ceMul d a b) d (fun c => eReg c a * eReg c b))
   ∧ (∀ d a b, ceGives (.ceMadd d a b) d (fun c => eReg c d + eReg c a * eReg c b))
   ∧ (∀ d a b, ceGives (.ceAnd d a b) d (fun c => eReg c a &&& eReg c b))
   ∧ (∀ d a b, ceGives (.ceOr d a b) d (fun c => eReg c a ||| eReg c b))
   ∧ (∀ d a b, ceGives (.ceXor d a b) d (fun c => eReg c a ^^^ eReg c b))
   ∧ (∀ d a b, ceGives (.ceShl d a b) d (fun c => if 64 ≤ (eReg c b).toNat then 0 else eReg c a <<< (eReg c b).toNat))
   ∧ (∀ d a b, ceGives (.ceShr d a b) d (fun c => if 64 ≤ (eReg c b).toNat then 0 else eReg c a >>> (eReg c b).toNat))
   ∧ (∀ d a b, ceGives (.ceMin d a b) d (fun c => if (eReg c b).toInt < (eReg c a).toInt then eReg c b else eReg c a))
   ∧ (∀ d a b, ceGives (.ceMax d a b) d (fun c => if (eReg c a).toInt < (eReg c b).toInt then eReg c b else eReg c a))
   ∧ (∀ d a i, ceGives (.ceAddi d a i) d (fun c => eReg c a + i.signExtend 64))
   ∧ (∀ d a i, ceGives (.ceLui d a i) d (fun c => eReg c a * 65536 ||| i.zeroExtend 64))
   ∧ ∀ d a i, ceGives (.ceOri d a i) d (fun c => eReg c a ||| i.zeroExtend 64))
  ∧ ((∀ a b o, ceSteps (.ceBeq a b o) (fun _ _ => True) (fun c => if eReg c a = eReg c b then eTo c o else eOn c))
     ∧ (∀ a b o, ceSteps (.ceBne a b o) (fun _ _ => True) (fun c => if eReg c a ≠ eReg c b then eTo c o else eOn c))
     ∧ (∀ a b o, ceSteps (.ceBlt a b o) (fun _ _ => True) (fun c => if (eReg c a).toInt < (eReg c b).toInt then eTo c o else eOn c))
     ∧ (∀ a b o, ceSteps (.ceBge a b o) (fun _ _ => True) (fun c => if (eReg c b).toInt ≤ (eReg c a).toInt then eTo c o else eOn c))
     ∧ (∀ a o, ceSteps (.ceJmp a o) (fun _ _ => True) (fun c => { c with pc := (if a = 0 then c.pc else eReg c a) + o.signExtend 64 * 4 }))
     ∧ (∀ (n a : BitVec 5) i, n.toNat < 4 → ceSteps (.ceLoopSet n a i) (fun _ _ => True)
         (fun c => eOn { c with l := Map.put c.l n.toNat (eReg c a + i.zeroExtend 64) }))
     ∧ (∀ (n : BitVec 5) o, n.toNat < 4 → ceSteps (.ceLoopEnd n o) (fun _ _ => True) (fun c =>
         if 1 < (Map.getD c.l n.toNat 0).toNat then eTo { c with l := Map.put c.l n.toNat (Map.getD c.l n.toNat 0 - 1) } o
         else eOn { c with l := Map.put c.l n.toNat 0 }))
     ∧ ceSteps .ceYieldctx (fun _ _ => True) eOn
     ∧ ceSteps .ceHalt (fun _ c => c.st = 1) (fun c =>
         if c.moves = [] ∧ c.comps = [] then { c with st := 4, halting := false } else { c with halting := true })
     ∧ (∀ (n a : BitVec 5) i, 4 ≤ n.toNat → ceParks (.ceLoopSet n a i) (fun _ _ => True) 1)
     ∧ ∀ (n : BitVec 5) o, 4 ≤ n.toNat → ceParks (.ceLoopEnd n o) (fun _ _ => True) 1)

/-- Loads and stores of a context whose access passes its checks: `ldi` and `ldi64` read memory at issue, for a register that they reach
later; `stw` is a completion operation; each goes on (R285, R289). Layout arithmetic with a record that can be read and that the engine
accepts: `tadr` gives the element's address, all ones where there is none, and `tnext` moves the odometer, dimension 0 first, and tells
whether every box was visited (R290). The moves, when their elements fall in one line and pass their checks; and the faults of a move that
its operands alone decide (R291). Completion operations join the context's queue behind the moves issued before them, with the operands they
have at issue, and the context goes on; the conditions that word, operands and grant decide park it (R285, R292). -/
def Obligations.CopyEngineMemory : Prop :=
  ((∀ d a i s core k r x, CeIssuing s core k →
     ceTouch { s with cur := none } core k (eReg (ceAt s core k) a + i.signExtend 64 * 4) 4 false = (r, .ok x) →
     let y := readSource r (ceOwner s core k) core x 4
     exec (.ceLdi d a i) s = .next (modCe y.1 core k (fun c => eOn { c with ldi := c.ldi ++ [(d.toNat, BitVec.ofNat 64 (leNat y.2))] })))
   ∧ (∀ d a i s core k r x, CeIssuing s core k →
     ceTouch { s with cur := none } core k (eReg (ceAt s core k) a + i.signExtend 64 * 8) 8 false = (r, .ok x) →
     let y := readSource r (ceOwner s core k) core x 8
     exec (.ceLdi64 d a i) s = .next (modCe y.1 core k (fun c => eOn { c with ldi := c.ldi ++ [(d.toNat, BitVec.ofNat 64 (leNat y.2))] })))
   ∧ (∀ d a i s core k r x, CeIssuing s core k →
     ceTouch { s with cur := none } core k (eReg (ceAt s core k) a + i.signExtend 64 * 4) 4 true = (r, .ok x) →
     exec (.ceStw d a i) s = .next (modCe r core k (fun c => eOn { c with
       comps := c.comps ++ [(c.moveNo, c.pc, .stw (eReg (ceAt s core k) a + i.signExtend 64 * 4) ((eReg (ceAt s core k) d).truncate 32))] })))
   ∧ ∀ d a i, ceParks (.ceLdi d a i) (fun _ c => (eReg c a + i.signExtend 64 * 4).toNat % 4 ≠ 0) 5
       ∧ ceParks (.ceLdi64 d a i) (fun _ c => (eReg c a + i.signExtend 64 * 8).toNat % 8 ≠ 0) 5
       ∧ ceParks (.ceStw d a i) (fun _ c => (eReg c a + i.signExtend 64 * 4).toNat % 4 ≠ 0) 5)
  ∧ ((∀ d a b s core k r l r' at_ stamps, CeIssuing s core k → ceLay { s with cur := none } core k (eReg (ceAt s core k) a) = (r, .ok l) →
       recordFault r (ceOwner s core k) l b.toNat = none →
       locate r (ceOwner s core k) .copy l (ceGets (ceAt s core k) b.toNat (layRank l.ws)) = (r', .ok (at_, stamps)) →
       (∀ z ∈ stamps, z.1 = 0 ∨ z.1 = contractOf r' (ceOwner s core k)) →
       exec (.ceTadr d a b) s = .next (modCe r' core k (fun c => eOn (eSet c d (match at_ with
         | some e => e.1
         | none => 0xFFFFFFFFFFFFFFFF)))))
     ∧ (∀ d a b s core k r l, CeIssuing s core k → ceLay { s with cur := none } core k (eReg (ceAt s core k) a) = (r, .ok l) →
       recordFault r (ceOwner s core k) l b.toNat = none → 1 ≤ layRank l.ws → 1 ≤ b.toNat →
       (eReg (ceAt s core k) b + BitVec.ofNat 64 (layBox l.ws 0)).toNat < layDim l.ws 0 →
       exec (.ceTnext d a b) s = .next (modCe r core k (fun c =>
         eOn (eSet (eSet c b (eReg c b + BitVec.ofNat 64 (layBox l.ws 0))) d 0))))
     ∧ ∀ d a b s core k r l, CeIssuing s core k → ceLay { s with cur := none } core k (eReg (ceAt s core k) a) = (r, .ok l) →
       recordFault r (ceOwner s core k) l b.toNat = none → layRank l.ws = 1 → 1 ≤ b.toNat →
       layDim l.ws 0 ≤ (eReg (ceAt s core k) b + BitVec.ofNat 64 (layBox l.ws 0)).toNat →
       exec (.ceTnext d a b) s = .next (modCe r core k (fun c => eOn (eSet (eSet (eSet c b (eReg c b + BitVec.ofNat 64 (layBox l.ws 0))) b 0) d 1))))
  ∧ ((∀ d a b n s core k, CeIssuing s core k →
       let c := ceAt s core k
       4 ≤ (eReg c b).toNat → (eReg c b).toNat ≤ 4096 → (eReg c b).toNat % 4 = 0 → (eReg c a).toNat % 4 = 0 → (eReg c d).toNat % 4 = 0 →
       moveGoesOut (.ceMv d a b n) s core k (mvElem (ceOwner s core k) (eReg c d) (eReg c a)) ((eReg c b).toNat / 4) { s with cur := none })
     ∧ (∀ d a b n, ∀ i ∈ [(Instr.ceMvt d a b n, 0, 0), (.ceGat d a b n, 1, 0), (.ceScat d a b n, 0, 1)], b.toNat ≤ 22 → ∀ s core k r1 r2 src dst,
       CeIssuing s core k → (ceAt s core k).held = none → ceLay { s with cur := none } core k (eReg (ceAt s core k) a) = (r1, .ok src) →
       ceLay r1 core k (eReg (ceAt s core k) d) = (r2, .ok dst) → layKind src.ws = i.2.1 → layKind dst.ws = i.2.2 →
       layBad ceUser (narrowLay r2 (ceOwner s core k)) src = false → layBad ceUser (narrowLay r2 (ceOwner s core k)) dst = false →
       layBits src.ws = layBits dst.ws →
       moveGoesOut i.1 s core k
         (fun s' j => tileElem (ceOwner s core k) src dst (ceGets (ceAt s core k) b.toNat 5) (ceGets (ceAt s core k) (b.toNat + 5) 5)
           (nthPos (fullBox src.ws) j) s')
         ((fullBox src.ws).foldl (fun n x => n * x) 1) r2)
     ∧ (∀ d a b n, ceParks (.ceMv d a b n) (fun _ c => (eReg c b).toNat < 4 ∨ 4096 < (eReg c b).toNat ∨ (eReg c b).toNat % 4 ≠ 0) 12)
     ∧ (∀ d a b n, ceParks (.ceMv d a b n) (fun _ c => (4 ≤ (eReg c b).toNat ∧ (eReg c b).toNat ≤ 4096 ∧ (eReg c b).toNat % 4 = 0)
         ∧ ((eReg c a).toNat % 4 ≠ 0 ∨ (eReg c d).toNat % 4 ≠ 0)) 5)
     ∧ ∀ d a b n, ∀ i ∈ [Instr.ceMvt d a b n, .ceGat d a b n, .ceScat d a b n], 22 < b.toNat → ceParks i (fun _ _ => True) 1)
  ∧ ((∀ n a, n.toNat < 16 → ceSteps (.ceArr n a) (fun _ c => (eReg c a).toNat < 2 ^ 27)
       (fun c => eOn { c with comps := c.comps ++ [(c.moveNo, c.pc, .arr n.toNat (eReg c a))] }))
     ∧ (∀ (t : BitVec 6) s core k, CeIssuing s core k → t.toNat < tagsOf s (ceOwner s core k) →
       exec (.ceTagset t) s = .next (modCe { s with cur := none } core k (fun c => eOn { c with comps := c.comps ++ [(c.moveNo, c.pc, .tagset t.toNat)] })))
     ∧ (∀ (n : BitVec 3) s core k, CeIssuing s core k → n.toNat < ringsOf s (ceOwner s core k) →
       exec (.ceRingCommit n) s = .next (modCe { s with cur := none } core k (fun c =>
         eOn { c with comps := c.comps ++ [(c.moveNo, c.pc, .commit n.toNat)] })))
     ∧ (∀ a, ceSteps (.cePublish a) (fun _ _ => True)
       (fun c => eOn { c with comps := c.comps ++ [(c.moveNo, c.pc, .publish ((eReg c a).toNat % 4096))] }))
     ∧ (∀ d (n : BitVec 3) s core k, CeIssuing s core k → n.toNat < ringsOf s (ceOwner s core k) →
       let r := ringOf (wgAt s (ceOwner s core k)) n.toNat
       r.slots ≠ 0 → exec (.ceRingWait d n) s = .next (modCe { s with cur := none } core k (fun c =>
         if r.full.getLsbD r.pcur then { c with st := 2 } else eOn (eSet c d (BitVec.ofNat 64 r.pcur)))))
     ∧ ceSteps .ceWfb (fun _ _ => True) (fun c => if c.moves = [] then eOn { c with cache := [] } else { c with st := 2 })
     ∧ (∀ n a, ceParks (.ceArr n a) (fun _ c => 16 ≤ n.toNat ∨ 2 ^ 27 ≤ (eReg c a).toNat) 11)
     ∧ (∀ (t : BitVec 6), ceParks (.ceTagset t) (fun s c => tagsOf s (c.owner.getD s.wgs.length) ≤ t.toNat) 11)
     ∧ (∀ (n : BitVec 3), ceParks (.ceRingCommit n) (fun s c => ringsOf s (c.owner.getD s.wgs.length) ≤ n.toNat) 11)
     ∧ ∀ d (n : BitVec 3), ceParks (.ceRingWait d n) (fun s c => ringsOf s (c.owner.getD s.wgs.length) ≤ n.toNat
         ∨ (ringOf (wgAt s (c.owner.getD s.wgs.length)) n.toNat).slots = 0) 11)

/-- A pair register at an odd number, a quad off a multiple of 4: every thread of the bundle parks at the instruction with the
operand-alignment fault, whatever the guards say, and no lane executes (R41, R52). A privileged instruction below its level parks every
thread of the bundle at the instruction with the privilege fault, whatever the guards say (R50, R52, R325). A ring instruction that names a
ring the workgroup was not granted: every thread of the bundle parks at the instruction with ring fault subcode 1, whatever the guards say
(R94). A completion tag outside the grant, or a broken or uninitialised completion barrier, stops the whole issue (R263, R92, R88). -/
def Obligations.IssueFaults : Prop :=
  (∀ (d a b c : BitVec 6) (m n x : BitVec 2) (p cc : BitVec 3) (o : BitVec 10),
     ∀ y ∈ [(Instr.iaddI64 d a m b n, [(d, 2), (a, 2), (b, 2)]), (.isubI64 d a m b n, [(d, 2), (a, 2), (b, 2)]), (.imulwN32 d a m b n, [(d, 2)]),
         (.icmpI64 p cc a m b n, [(a, 2), (b, 2)]), (.brx a m, [(a, 2)]), (.faddF64 d a m b n, [(d, 2), (a, 2), (b, 2)]),
         (.ffmaF64 d a m b n, [(d, 2), (a, 2), (b, 2)]), (.ffmalF64 d a m b n c x 0, [(d, 2), (a, 2), (b, 2), (c, 2)]),
         (.fcmpF64 p cc a m b n, [(a, 2), (b, 2)]), (.amaxQuad d a, [(a, 4)]), (.ldB32 d a o, [(a, 2)]), (.ldB64 d a o, [(d, 2), (a, 2)]),
         (.ldB128 d a o, [(d, 4), (a, 2)]), (.stB32 d a o, [(a, 2)]), (.stB128 d a o, [(d, 4), (a, 2)]), (.tktPass a, [(a, 2)]), (.launch d a, [(a, 2)])],
       ¬aligned y.2 → does y.1 (fun _ _ => True) (fun s _ => s) (fun _ u _ => .parked u.e.place 0x05 0))
  ∧ (∀ (d a b : BitVec 6) (m : BitVec 2) (r : BitVec 8), 0x10 ≤ r.toNat → r.toNat ≤ 0x17 →
       ∀ p ∈ [(Instr.sysrd d r, 2), (.syswr a r, 2), (.syswr a 0, 2), (.syswr a 7, 2), (.tlbInvPage a, 2), (.tlbInvCtx, 2), (.tlbInvAll, 2),
           (.bmtSet a m b, 1), (.parkCtlResume d a, 1), (.parkCtlKill d a, 1), (.parkCtlStop d a, 1), (.dbgSel a, 2), (.dbgStep a, 2), (.halt, 2),
           (.cacheOpIinv, 2), (.cacheOpDinv, 2), (.cacheOpL2wb a, 2), (.cacheOpL2key a, 2), (.cacheOpL2all, 2), (.faultRd d a, 1), (.eret, 1)],
         doesAlone p.1 (fun s u => (wgAt s u.wg).level < p.2) (fun s _ => s) (fun _ u _ => .parked u.e.place 0x04 0))
  ∧ (∀ (i : Instr) (k : BitVec 4) (a d : BitVec 6) (sel : BitVec 1),
       i ∈ [Instr.ringInit k a, .ringWaitFull d k, .ringWaitFree d k, .ringCommit k, .ringFree k, .ringRd d k sel] →
       doesAlone i (fun s u => ringsOf s u.wg ≤ k.toNat) (fun s _ => s) (fun _ u _ => .parked u.e.place 0x1A 1))
  ∧ (∀ d a x na, d.toNat % 2 = 0 → a.toNat % 2 = 0 → ∀ i ∈ [Instr.cpaB32 d a x na, .cpaB64 d a x na, .cpaB128 d a x na],
       doesAlone (i 0) (fun s u => u.e.replay = [] ∧ tagsOf s u.wg ≤ x.toNat) (fun s _ => s) (fun s u l => activeFate (.parked u.e.place 0x18 0) s u l)
       ∧ (∀ sub, doesAlone (i 1) (fun s u => u.e.replay = [] ∧ (barOf (wgAt s u.wg) x.toNat).broken = some sub) (fun s _ => s)
           (fun s u l => activeFate (.parked u.e.place 0x19 sub) s u l))
       ∧ doesAlone (i 1) (fun s u => u.e.replay = [] ∧ (barOf (wgAt s u.wg) x.toNat).broken = none ∧ (barOf (wgAt s u.wg) x.toNat).init = false)
           (fun s _ => s) (fun s u l => activeFate (.parked u.e.place 0x19 2) s u l))

/-- An address that is not a multiple of the access size parks its thread at the instruction with the memory-alignment fault, whatever the
other threads of the bundle meet (R197, R198). A declaration out of range parks its guard-true threads with subcode 2, one while the
register is in use with subcode 3 (R98). A guard-true thread outside the signer range, or on an empty register, parks at the instruction
with subcode 5, and the register is as it was; a form of the wrong kind parks the signers with subcode 6 (R98). -/
def Obligations.ThreadFaults : Prop :=
  (∀ (i : Instr) (d a : BitVec 6) (o : BitVec 10) (size : Nat), (i, size) ∈ [(Instr.ldB16 d a o, 2), (.ldI16 d a o, 2), (.ldB32 d a o, 4),
       (.ldB64 d a o, 8), (.ldB128 d a o, 16), (.stB16 d a o, 2), (.stB32 d a o, 4), (.stB64 d a o, 8), (.stB128 d a o, 16)] →
     ∀ s u l, Issuing s u → aligned [(a, 2), (d, regWords size)] → inMask (activeMask s u) l = true → u.e.replay = [] →
       (srcPair s u a 0 l + o.signExtend 64 * BitVec.ofNat 64 size).toNat % size ≠ 0 →
       ∃ t, exec i s = .next t ∧ met t u l (.parked u.e.place 0x12 0))
  ∧ ((∀ k a, doesAlone (.convDecl k a)
       (fun s u => activeMask s u ≠ 0 ∧ ((signerWord s u a).toNat / 2 ^ 16 % 2 ^ 10 = 0
         ∨ 32 * (squadOf s u).nlb < (signerWord s u a).toNat % 2 ^ 9 + (signerWord s u a).toNat / 2 ^ 16 % 2 ^ 10))
       (fun s _ => s) (fun s u l => activeFate (.parked u.e.place 0x08 2) s u l))
     ∧ ∀ k a, doesAlone (.convDecl k a)
       (fun s u => activeMask s u ≠ 0 ∧ 1 ≤ (signerWord s u a).toNat / 2 ^ 16 % 2 ^ 10
         ∧ (signerWord s u a).toNat % 2 ^ 9 + (signerWord s u a).toNat / 2 ^ 16 % 2 ^ 10 ≤ 32 * (squadOf s u).nlb
         ∧ 2 ≤ (convOf (squadOf s u) k.toNat).st)
       (fun s _ => s) (fun s u l => activeFate (.parked u.e.place 0x08 3) s u l))
  ∧ ((∀ k x a y b r, (x = 1 → a.toNat % 2 = 0) → (y = 1 → b.toNat % 2 = 0) → ∀ p ∈ signedForms k x a y b r,
       doesAlone p.1 (fun s u => (convAt s u k).st = 0 ∨ ∀ l, l < 32 → inMask u.e.mask l = true →
           ¬((convAt s u k).first ≤ u.e.lb * 32 + l ∧ u.e.lb * 32 + l < (convAt s u k).first + (convAt s u k).count))
         (fun s _ => s) (fun s u l => activeFate (.parked u.e.place 0x08 5) s u l))
     ∧ ∀ k x a y b r, (x = 1 → a.toNat % 2 = 0) → (y = 1 → b.toNat % 2 = 0) → ∀ p ∈ signedForms k x a y b r,
       doesAlone p.1 (fun s u => activeMask s u ≠ 0 ∧ ((convAt s u k).st = 1 ∨ (convAt s u k).st = 2) ∧ (convAt s u k).bound = !p.2
           ∧ (wgAt s u.wg).aligned = true
           ∧ ∀ l, l < 32 → inMask u.e.mask l = true → (convAt s u k).first ≤ u.e.lb * 32 + l ∧ u.e.lb * 32 + l < (convAt s u k).first + (convAt s u k).count)
         (fun s _ => s) (fun s u l => activeFate (.parked u.e.place 0x08 6) s u l))

/-- Regrouping, due before a cycle divisible by 4, loses no thread and moves none to another PC: it merges the entries of one lane block and
PC, replay entries apart, keeps every other entry, fills the frontier, clears the yield marks and changes nothing else; a squad that is not due is left
alone (R60). The clause waits of a squad whose condition holds end, the others go on; kind 110 apart, where each thread waits for its own loads (R34). A
last check that is due ends the wait for it, and before that nothing happens (R147, R330).
Neither changes anything but where threads stand. An instruction line that an entry stands in arrives with the bytes that memory holds
(R67); an entry that waited too long for partners, in the frontier or displaced to the overflow queue, parks with record code 0x07 (R70); a lane block whose threads have exited and whose loads
have returned gives up its registers, those apart that an exited signer still supplies to an open operation (R78, R240). -/
def Obligations.RegroupingAndWaits : Prop :=
  ((∀ w q n, happens .regroup (.ids w q n)
     (fun s => isSquad s w q ∧ (sqAt s w q).cycle % 4 = 0 ∧ (sqAt s w q).regrouped = false
       ∧ (((sqAt s w q).frontier ++ (sqAt s w q).overflow).map Entry.formed).Nodup)
     (fun s t => t = modSq s w q (fun o => { o with frontier := (sqAt t w q).frontier, overflow := (sqAt t w q).overflow, regrouped := true })
       ∧ (∀ lb l pc, standsAtPc (sqAt t w q) lb l pc ↔ standsAtPc (sqAt s w q) lb l pc)
       ∧ (∀ e ∈ (sqAt s w q).frontier ++ (sqAt s w q).overflow,
           (∀ f ∈ (sqAt s w q).frontier ++ (sqAt s w q).overflow, f ≠ e → ¬(f.lb = e.lb ∧ f.place.pc = e.place.pc)) →
           { e with yielded := false } ∈ (sqAt t w q).frontier ++ (sqAt t w q).overflow)
       ∧ ((sqAt t w q).frontier ++ (sqAt t w q).overflow).Pairwise
           (fun e f => e.lb = f.lb → e.place.pc = f.place.pc → e.replay ≠ [] ∨ f.replay ≠ [])
       ∧ ((sqAt t w q).frontier.length < 64 → (sqAt t w q).overflow = [])
       ∧ ∀ e ∈ (sqAt t w q).frontier ++ (sqAt t w q).overflow, e.yielded = false))
   ∧ ∀ w q n, idle .regroup (.ids w q n) (fun s => (sqAt s w q).cycle % 4 ≠ 0 ∨ (sqAt s w q).regrouped = true))
  ∧ ((∀ w q n, happens .clauseWaitRelease (.ids w q n) (fun s => isSquad s w q)
       (fun s t => still t = still s ∧ ∀ x ∈ (sqAt s w q).waiters, ∀ h, clauseHdr x = some h → bitsOf h.toNat 20 18 ≠ 6 →
         (if clauseReady s w q x.lb x.mask h then released t w q x else x ∈ (sqAt t w q).waiters)))
     ∧ (∀ w q k, happens .lastCheckCompletion (.ids w q k) (fun s => isSquad s w q ∧ ∃ c, Map.find (sqAt s w q).checks k = some c ∧ c.due ≤ (sqAt s w q).cycle)
       (fun s t => still t = still s ∧ Map.find (sqAt t w q).checks k = none
         ∧ ∀ x ∈ (sqAt s w q).waiters, (if x.why = .check k then released t w q x else x ∈ (sqAt t w q).waiters)))
     ∧ ∀ w q k, idle .lastCheckCompletion (.ids w q k) (fun s => ∀ c, Map.find (sqAt s w q).checks k = some c → (sqAt s w q).cycle < c.due))
  ∧ ((∀ w line n r a x, happens .ifetchLineArrival (.ids w line n)
       (fun s => wantsLine s w line = true ∧ cachedLine s (wgAt s w).core (fetchCtx (wgAt s w)) line = none
         ∧ fetchCheck s (wgAt s w).core (wgAt s w).ctx ((wgAt s w).level == 2) (BitVec.ofNat 52 (line * 128)) = (r, .ok a) ∧ a.loc = .local x)
       (fun s t => cachedLine t (wgAt s w).core (fetchCtx (wgAt s w)) line = some (Memory.readAll t.mem (lineOf x * 128) 128)
         ∧ t.mem = (keyLine r (lineOf x) a.attr.key).mem ∧ t.wgs = s.wgs))
     ∧ (∀ w q n e, happens .convergenceTimeout (.ids w q n)
       (fun s => isSquad s w q ∧ e.mask ≠ 0
         ∧ ((sqAt s w q).frontier ++ (sqAt s w q).overflow).find? (fun e => e.formed == n && decide (Config.partnerLimit ≤ e.pwait)) = some e)
       (fun s t => still t = still s ∧ (∀ f ∈ (sqAt t w q).frontier ++ (sqAt t w q).overflow, f.formed ≠ n) ∧ hasRecord t 0x07 0
         ∧ ∀ l, l < 32 → inMask e.mask l = true → parkedAt (sqAt t w q) e.lb l e.place))
     ∧ (∀ w q lb, happens .laneBlockRetirement (.ids w q lb)
       (fun s => isSquad s w q ∧ lb < (sqAt s w q).nlb ∧ exitedOf (sqAt s w q) lb = BitVec.allOnes 32 ∧ lb ∉ (sqAt s w q).retired
         ∧ ∀ p ∈ (sqAt s w q).loads, p.2.lb ≠ lb)
       (fun s t => t = modSq s w q (fun o => { o with
             retired := o.retired ++ [lb], v := (sqAt t w q).v, p := (sqAt t w q).p, x := (sqAt t w q).x, j := (sqAt t w q).j })
         ∧ (∀ b r l, r < 256 → vget (sqAt t w q) b r l =
             if b = lb ∧ (suppliedItems (sqAt s w q)).contains (itemV b r) = false then 0 else vget (sqAt s w q) b r l)
         ∧ (∀ b k, k < 7 → pget (sqAt t w q) b k = if b = lb then 0 else pget (sqAt s w q) b k)
         ∧ (∀ b k l, k < 4 → xget (sqAt t w q) b k l = if b = lb then (0, 0) else xget (sqAt s w q) b k l)
         ∧ ∀ b k, k < 16 → joinOf (sqAt t w q) b k = if b = lb then { enr := 0, arr := 0 } else joinOf (sqAt s w q) b k))
     ∧ ∀ w q lb, idle .laneBlockRetirement (.ids w q lb)
       (fun s => (sqAt s w q).nlb ≤ lb ∨ exitedOf (sqAt s w q) lb ≠ BitVec.allOnes 32 ∨ ∃ p ∈ (sqAt s w q).loads, p.2.lb = lb))

/-- Updates that count after their issue: an arrival of one thread, not the last of its phase, counts when the thread's earlier stores have
left the queue and its earlier loads have taken their values, and not before; a commit, under the same conditions, and a free move the ring; a cluster barrier
arrival sets its core's bit or completes the phase (R81, R84, R93, R100, R218). Of updates that may count at one time a free comes first, then those of a lower squad (R82). -/
def Obligations.UpdatesCount : Prop :=
  (∀ w n a k drop fin sync l, happens .barrierArrivalCount (.ids w 0 n)
    (fun s => isSquad s w a.sq ∧ (wgAt s w).arrivals = [a] ∧ a.what = .barrier k drop fin sync ∧ a.mask = 1#32 <<< l ∧ l < 32
      ∧ mayRelease (sqAt s w a.sq) a.lb l a.before = true ∧ (barOf (wgAt s w) k).broken = none ∧ (barOf (wgAt s w) k).init = true
      ∧ (barOf (wgAt s w) k).tarr + 1 < (barOf (wgAt s w) k).texp ∧ detLaunch s w = false)
    (fun s t => (wgAt t w).arrivals = []
      ∧ barOf (wgAt t w) k = (let b := barOf (wgAt s w) k
          { b with tarr := b.tarr + 1, drops := b.drops + bit drop, arrivers := b.arrivers ++ [{ sq := a.sq, lb := a.lb, lane := l, fin := fin }] })
      ∧ (∀ p ∈ fin, p ≠ 7 → inMask (pget (sqAt t w a.sq) a.lb p.toNat) l = false)
      ∧ ∀ x, Memory.read t.mem x = Memory.read s.mem x))
  ∧ (∀ w n a k drop fin sync l, idle .barrierArrivalCount (.ids w 0 n)
    (fun s => (wgAt s w).arrivals = [a] ∧ a.what = .barrier k drop fin sync ∧ a.mask = 1#32 <<< l ∧ l < 32
      ∧ (storesLeft (sqAt s w a.sq) a.lb l a.before = false ∨ loadAhead (sqAt s w a.sq) a.lb l a.before = true)))
  ∧ (∀ w n a k, happens .ringUpdateApply (.ids w 0 n)
    (fun s => w < s.wgs.length ∧ (wgAt s w).arrivals = [a] ∧ a.what = .commit k ∧ a.mask ≠ 0
      ∧ (∀ l, l < 32 → inMask a.mask l = true → mayRelease (sqAt s w a.sq) a.lb l a.before = true)
      ∧ (ringOf (wgAt s w) k).slots ≠ 0 ∧ (ringOf (wgAt s w) k).full.getLsbD (ringOf (wgAt s w) k).pcur = false)
    (fun s t => (wgAt t w).arrivals = []
      ∧ ringOf (wgAt t w) k = (let r := ringOf (wgAt s w) k
          { r with full := r.full ||| (1#16 <<< r.pcur), sph := r.sph ^^^ (1#16 <<< r.pcur), pcur := (r.pcur + 1) % r.slots })))
  ∧ (∀ w n a k, happens .ringUpdateApply (.ids w 0 n)
    (fun s => w < s.wgs.length ∧ (wgAt s w).arrivals = [a] ∧ a.what = .free k ∧ a.mask ≠ 0 ∧ (sqAt s w a.sq).loads = []
      ∧ (ringOf (wgAt s w) k).slots ≠ 0 ∧ (ringOf (wgAt s w) k).full.getLsbD (ringOf (wgAt s w) k).ccur = true)
    (fun s t => (wgAt t w).arrivals = []
      ∧ ringOf (wgAt t w) k = (let r := ringOf (wgAt s w) k
          { r with full := r.full &&& ~~~(1#16 <<< r.ccur), ccur := (r.ccur + 1) % r.slots })))
  ∧ (∀ w n a k d, happens .xbarArrivalCount (.ids w 0 n)
    (fun s => isSquad s w a.sq ∧ (wgAt s w).arrivals = [a] ∧ a.what = .xbar k d ∧ a.mask ≠ 0
      ∧ (∀ l, l < 32 → inMask a.mask l = true → loadsTakenBy (sqAt s w a.sq) a.lb l a.before = true)
      ∧ coreAcked s (wgAt s w).core a.before = true ∧ (xbOf s (wgAt s w).core k).2.getLsbD ((wgAt s w).core % 4) = false)
    (fun s t => (wgAt t w).arrivals = []
      ∧ xbOf t (wgAt s w).core k = (let x := xbOf s (wgAt s w).core k
          let m := x.2 ||| (1#4 <<< ((wgAt s w).core % 4))
          if m = 15 then (!x.1, 0) else (x.1, m))
      ∧ ∀ l, l < 32 → inMask a.mask l = true → vget (sqAt t w a.sq) a.lb d.toNat l = if (xbOf s (wgAt s w).core k).1 then 0 else 1))
  ∧ (∀ w n i j a b, idle .barrierArrivalCount (.ids w i n)
    (fun s => (wgAt s w).arrivals[i]? = some a ∧ (wgAt s w).arrivals[j]? = some b ∧ dueOf s w j b ≠ 0
      ∧ ((∃ k, b.what = .free k) ∧ (∀ k, a.what ≠ .free k) ∨ (∀ k, a.what ≠ .free k ∧ b.what ≠ .free k) ∧ b.sq < a.sq)))

/-- Load data: what a load in its thread's turn finds lands in its registers: data fixed earlier, the thread's own youngest queued store
that covers it, a typed buffer, or memory as the core's home slice or its L1 line shows it; some value lands where the spec fixes none; poisoned data is
the poison fault; before its turn, or while a store covers it in part, nothing happens, and a remote load in its turn sends its request (R176, R177,
R186, R216, R226, R276). Replies to remote loads: good data lands, or is kept until its load's turn, poison and failures park the thread with their
record, and a request without an answer fails with subcode 3 (R195, R196). Three points are the model's inferences: poison is looked for again when the data
returns (log entry 25), what the home slice has performed of the core's stores is acknowledged before it sends a line (log entry 64), and where the L1 line
and the home slice differ either may be what a load finds (log entry 21). -/
def Obligations.LoadsReturn : Prop :=
  ((∀ w q k p v, happens .loadDataReturn (.ids w q k) (fun s => loadDue s w q k p ∧ p.src = .value v)
     (fun s t => loadLanded s t w q k p v.toNat))
   ∧ (∀ w q k p o, happens .loadDataReturn (.ids w q k)
     (fun s => loadDue s w q k p ∧ p.src = .sbuf o ∧ forward (sqAt s w q) p.lb p.lane p.seq (.sbuf o) p.size = .none
       ∧ bufPoisoned (wgAt s w) 4 o p.size = false)
     (fun s t => loadLanded s t w q k p (leNat (bufRead (wgAt s w) 4 o p.size))))
   ∧ (∀ w q k p v spc o, happens .loadDataReturn (.ids w q k)
     (fun s => loadDue s w q k p ∧ bufPoisoned (wgAt s v) spc o p.size = true
       ∧ (p.src = .buf v spc o ∨ (p.src = .sbuf o ∧ v = w ∧ spc = 4 ∧ forward (sqAt s w q) p.lb p.lane p.seq (.sbuf o) p.size = .none)))
     (fun s t => hasRecord t 0x15 0 ∧ Map.find (sqAt t w q).loads k = none
       ∧ (∀ lb r l, vget (sqAt t w q) lb r l = vget (sqAt s w q) lb r l) ∧ ∀ x, Memory.read t.mem x = Memory.read s.mem x))
   ∧ (∀ w q k p a attr home bs, happens .loadDataReturn (.ids w q k)
     (fun s => loadDue s w q k p ∧ p.src = .mem a attr home ∧ forward (sqAt s w q) p.lb p.lane p.seq (.local a) p.size = .data bs)
     (fun s t => loadLanded s t w q k p (leNat bs)))
   ∧ (∀ w q k p dev a bs, happens .loadDataReturn (.ids w q k)
     (fun s => loadDue s w q k p ∧ p.src = .far dev a false ∧ forward (sqAt s w q) p.lb p.lane p.seq (.remote dev a) p.size = .data bs)
     (fun s t => loadLanded s t w q k p (leNat bs)))
   ∧ (∀ w q k p v spc o, happens .loadDataReturn (.ids w q k)
     (fun s => loadDue s w q k p ∧ p.src = .buf v spc o ∧ bufPoisoned (wgAt s v) spc o p.size = false ∧ (spc = 3 → (wgAt s v).runs = []))
     (fun s t => loadLanded s t w q k p (leNat (bufRead (wgAt s v) spc o p.size))))
   ∧ (∀ w q k p a attr home, happens .loadDataReturn (.ids w q k)
     (fun s => loadDue s w q k p ∧ p.src = .mem a attr home ∧ forward (sqAt s w q) p.lb p.lane p.seq (.local a) p.size = .none
       ∧ atomAhead s w q p a = false ∧ poisoned s (frontLoc s (wgAt s w).core a attr) p.size = false
       ∧ readsBack s (wgAt s w).core (frontLoc s (wgAt s w).core a attr) p.size attr.bmt = false
       ∧ (∀ r, attr.bmt = some r → r.dual = false → ∀ x ∈ s.unpub, x.2.1 ≠ r.ctx * 4096 + r.entry))
     (fun s t =>
       let core := (wgAt s w).core
       let b := frontLoc s core a attr
       let r := keyLine (ackLine s core (lineOf b)) (lineOf b) attr.key
       ∃ bs, loadLanded s t w q k p (leNat bs) ∧ (bs = homeView r core b p.size
         ∨ (home = false ∧ attr.l1 = true ∧ ∃ x, Map.find (coreAt r core).l1d (lineOf b) = some x ∧ bs = (x.1.drop (b % 128)).take p.size))))
   ∧ (∀ w q k p a attr home, happens .loadDataReturn (.ids w q k)
     (fun s => loadDue s w q k p ∧ p.src = .mem a attr home ∧ forward (sqAt s w q) p.lb p.lane p.seq (.local a) p.size = .none
       ∧ atomAhead s w q p a = false ∧ poisoned s (frontLoc s (wgAt s w).core a attr) p.size = false)
     (fun s t => ∃ v, loadLanded s t w q k p v))
   ∧ (∀ w q k p a attr home, happens .loadDataReturn (.ids w q k)
     (fun s => loadDue s w q k p ∧ p.src = .mem a attr home ∧ forward (sqAt s w q) p.lb p.lane p.seq (.local a) p.size = .none
       ∧ atomAhead s w q p a = false ∧ poisoned s (frontLoc s (wgAt s w).core a attr) p.size = true)
     (fun s t => hasRecord t 0x15 0 ∧ Map.find (sqAt t w q).loads k = none
       ∧ (∀ lb r l, vget (sqAt t w q) lb r l = vget (sqAt s w q) lb r l) ∧ ∀ x, Memory.read t.mem x = Memory.read s.mem x))
   ∧ (∀ w q k p dev a, happens .loadDataReturn (.ids w q k)
     (fun s => loadDue s w q k p ∧ p.src = .far dev a false ∧ forward (sqAt s w q) p.lb p.lane p.seq (.remote dev a) p.size = .none
       ∧ sendTurn s w q p dev a = true ∧ ∀ x ∈ (sqAt s w q).loads, ∀ d b, x.2.src = .far d b false → x = (k, p))
     (fun s t => Map.find (sqAt t w q).loads k = some { p with src := .far dev a true }
       ∧ Outgoing.request k dev (requestOf s w a (.load p.size)) ∈ t.out))
   ∧ ∀ w q k p a attr home, idle .loadDataReturn (.ids w q k) (fun s => Map.find (sqAt s w q).loads k = some p ∧ p.src = .mem a attr home
       ∧ (loadTurn (sqAt s w q) p = false ∨ forward (sqAt s w q) p.lb p.lane p.seq (.local a) p.size = .wait)))
  ∧ ((∀ w q k p data, happens .remoteReply (.reply k data .ok)
       (fun s => findLoad s k = some (w, q, p) ∧ replyDue s k p = true ∧ loadDue s w q k p)
       (fun s t => loadLanded s t w q k p data.toNat))
     ∧ (∀ w q k p data, happens .remoteReply (.reply k data .ok)
       (fun s => findLoad s k = some (w, q, p) ∧ replyDue s k p = true ∧ loadTurn (sqAt s w q) p = false)
       (fun s t => Map.find (sqAt t w q).loads k = some { p with src := .value data }
         ∧ ∀ lb r l, vget (sqAt t w q) lb r l = vget (sqAt s w q) lb r l))
     ∧ (∀ w q k p data st, st ≠ .ok → happens .remoteReply (.reply k data st)
       (fun s => findLoad s k = some (w, q, p) ∧ replyDue s k p = true)
       (fun s t => hasRecord t (if st = .poison then 0x15 else 0x16) (remoteSub st) ∧ Map.find (sqAt t w q).loads k = none
         ∧ (∀ lb r l, vget (sqAt t w q) lb r l = vget (sqAt s w q) lb r l) ∧ ∀ x, Memory.read t.mem x = Memory.read s.mem x))
     ∧ (∀ w q k n m p, happens .remoteTimeout (.ids k n m) (fun s => findLoad s k = some (w, q, p) ∧ replyDue s k p = true)
       (fun s t => hasRecord t 0x16 3 ∧ Map.find (sqAt t w q).loads k = none
         ∧ (∀ lb r l, vget (sqAt t w q) lb r l = vget (sqAt s w q) lb r l) ∧ ∀ x, Memory.read t.mem x = Memory.read s.mem x))
     ∧ ∀ w q k data st p, idle .remoteReply (.reply k data st) (fun s => findLoad s k = some (w, q, p) ∧ replyDue s k p = false))

/-- The oldest entry of a store queue, here of one lane, leaves: into S, where its bytes can be read from now on, or on its way to memory,
which does not change yet, or to another device, which it asks; a `st.rel.dom` that finds a remote failure of its squad faults and is not performed; one
that may not leave stays (R175, R195, R196, R217). A store is performed at its home slice in its turn: memory holds its
bytes, nothing else of memory changes but what an access under another key does to the line, and a write of a whole line clears its poison;
then it is acknowledged (R186, R193, R217). Posted remote stores and non-returning atomics: an acknowledgement ends them; the first failure,
poison included, or the want of an answer, is kept in the squad until its next wide release; the expiry of a remap's drain fails what is outstanding on the
dead plane (R196, R299). That the first failure is the one kept, poison included, and that a release which finds one faults in its lane, is the model's
inference (log entry 26); an ordinary write of a core is performed after those of the same bytes that left before it by another (log entry 21). -/
def Obligations.StoresReachMemory : Prop :=
  ((∀ w q n e rest l, happens .storeQueueDeparture (.ids w q n)
     (fun s => (sqAt s w q).stq = e :: rest ∧ e.lanes = [l] ∧ mayLeave s w q e = true ∧ (∀ o, l.loc ≠ .sbuf o)
       ∧ (e.release = true → e.scope = 5 → (sqAt s w q).remoteErr = none))
     (fun s t => (sqAt t w q).stq = rest ∧ (∀ x, Memory.read t.mem x = Memory.read s.mem x)
       ∧ (∀ dev a, l.loc = .remote dev a → Outgoing.request s.ids dev (requestOf s w a (l.asks (flushes s w))) ∈ t.out)
       ∧ t.flights = Map.put s.flights s.ids { core := (wgAt s w).core, wg := w, sq := q, lb := e.lb, seq := e.seq, ln := l, performed := false }))
   ∧ (∀ w q n e rest l o, happens .storeQueueDeparture (.ids w q n)
     (fun s => (sqAt s w q).stq = e :: rest ∧ e.lanes = [l] ∧ mayLeave s w q e = true ∧ l.loc = .sbuf o ∧ o + l.bytes.length ≤ 2 ^ 20
       ∧ (e.release = true → e.scope = 5 → (sqAt s w q).remoteErr = none))
     (fun s t => (sqAt t w q).stq = rest ∧ t.flights = s.flights ∧ (∀ x, Memory.read t.mem x = Memory.read s.mem x)
       ∧ ∀ spc off, off < 2 ^ 20 → bufByte (wgAt t w) spc off =
           if spc = 4 ∧ o ≤ off ∧ off < o + l.bytes.length then l.bytes.getD (off - o) 0 else bufByte (wgAt s w) spc off))
   ∧ (∀ w q n e rest l code sub addr, code < 256 → sub < 256 → happens .storeQueueDeparture (.ids w q n)
     (fun s => (sqAt s w q).stq = e :: rest ∧ e.lanes = [l] ∧ mayLeave s w q e = true ∧ e.release = true ∧ e.scope = 5 ∧ e.atomic = false
       ∧ (sqAt s w q).remoteErr = some (code, sub, addr))
     (fun s t => (sqAt t w q).stq = rest ∧ t.flights = s.flights ∧ (sqAt t w q).remoteErr = none ∧ hasRecord t code sub
       ∧ ∀ x, Memory.read t.mem x = Memory.read s.mem x))
   ∧ ∀ w q n, idle .storeQueueDeparture (.ids w q n) (fun s => ∀ e ∈ (sqAt s w q).stq.head?, mayLeave s w q e = false))
  ∧ ((∀ id n m f a, happens .homeSliceWrite (.ids id n m)
       (fun s => Map.find s.flights id = some f ∧ f.ln.loc = .local a ∧ flightTurn s id f = true ∧ f.ln.atom = none)
       (fun s t => bytesWritten (keyLine s (lineOf a) f.ln.attr.key).mem t.mem a f.ln.bytes
         ∧ t.flights = Map.put s.flights id { f with performed := true }
         ∧ ∀ x, x ∈ t.poison ↔ x ∈ s.poison ∧ ¬(a ≤ x * 128 ∧ x * 128 + 128 ≤ a + f.ln.bytes.length)))
     ∧ (∀ id n m f, idle .homeSliceWrite (.ids id n m) (fun s => Map.find s.flights id = some f ∧ flightTurn s id f = false))
     ∧ (∀ id n m f, happens .storeAcknowledgement (.ids id n m) (fun s => Map.find s.flights id = some f ∧ f.performed = true)
       (fun s t => t.flights = Map.del s.flights id ∧ ∀ x, Memory.read t.mem x = Memory.read s.mem x))
     ∧ ∀ id n m f, idle .storeAcknowledgement (.ids id n m) (fun s => Map.find s.flights id = some f ∧ f.performed = false))
  ∧ ((∀ k data f, happens .remoteStoreAck (.reply k data .ok) (fun s => Map.find s.flights k = some f ∧ isFar f = true ∧ f.ln.ret = none)
       (fun s t => t.flights = Map.del s.flights k ∧ ∀ x, Memory.read t.mem x = Memory.read s.mem x))
     ∧ (∀ k data st f, remoteSub st ≠ 0 → happens .remoteStoreAck (.reply k data st)
       (fun s => Map.find s.flights k = some f ∧ isFar f = true ∧ f.ln.ret = none ∧ isSquad s f.wg f.sq ∧ (sqAt s f.wg f.sq).waiters = [])
       (fun s t => t.flights = Map.del s.flights k
         ∧ (sqAt t f.wg f.sq).remoteErr = some ((sqAt s f.wg f.sq).remoteErr.getD (0x16, remoteSub st, f.ln.ea.toNat))
         ∧ ∀ x, Memory.read t.mem x = Memory.read s.mem x))
     ∧ (∀ k data f, happens .remoteStoreAck (.reply k data .poison)
       (fun s => Map.find s.flights k = some f ∧ isFar f = true ∧ f.ln.ret = none ∧ isSquad s f.wg f.sq ∧ (sqAt s f.wg f.sq).waiters = [])
       (fun s t => t.flights = Map.del s.flights k
         ∧ (sqAt t f.wg f.sq).remoteErr = some ((sqAt s f.wg f.sq).remoteErr.getD (0x15, 0, f.ln.ea.toNat))
         ∧ ∀ x, Memory.read t.mem x = Memory.read s.mem x))
     ∧ (∀ k n m f, happens .remoteTimeout (.ids k n m)
       (fun s => findLoad s k = none ∧ Map.find s.flights k = some f ∧ isFar f = true ∧ f.ln.ret = none ∧ isSquad s f.wg f.sq
         ∧ (sqAt s f.wg f.sq).waiters = [])
       (fun s t => t.flights = Map.del s.flights k
         ∧ (sqAt t f.wg f.sq).remoteErr = some ((sqAt s f.wg f.sq).remoteErr.getD (0x16, 3, f.ln.ea.toNat))))
     ∧ (∀ x plane, happens .remapDrainExpiry x (fun s => s.fab.quiesced = some plane ∧ s.fab.drained = false)
       (fun s t => t.fab = { s.fab with drained := true } ∧ (∀ b, Memory.read t.mem b = Memory.read s.mem b)
         ∧ (∀ id f dev a, Map.find s.flights id = some f → f.ln.loc = .remote dev a → planeIn s.fab.oldPmap a = plane → f.ln.ret = none →
             Map.find t.flights id = none)
         ∧ ∀ w q k p dev a, Map.find (sqAt s w q).loads k = some p → p.src = .far dev a true → planeIn s.fab.oldPmap a = plane →
             Map.find (sqAt t w q).loads k = none ∧ hasRecord t 0x16 3))
     ∧ ∀ x, idle .remapDrainExpiry x (fun s => s.fab.quiesced = none ∨ s.fab.drained = true))

/-- An atomic is performed in its turn: its word becomes what its operation makes of the old value, which a returning atomic's load
receives; other memory is as before; one that finds its line poisoned changes no memory and is the poison fault (R186, R201, R202). An ordered update
that finds no tracker is held in a new one. Held updates are applied one at a time, each in a turn of its own: of those to a line whose workgroup lies
below the launch's watermark, the one with the lowest key, to its word, and it is held no more; one above the watermark stays (R208 to R210, R231). What
an update or atomic that meets poison leaves, dropped with its record, is the model's choice (log entry 66); that a held and a logged update are taken in one
order is its inference (log entry 27), and a trap kernel's own come after those of all the launch's workgroups by its choice (log entry 86). -/
def Obligations.AtomicsPerformed : Prop :=
  (∀ id n m f a op, happens .atomicPerform (.ids id n m)
     (fun s => Map.find s.flights id = some f ∧ f.ln.loc = .local a ∧ f.ln.atom = some op ∧ f.ln.ord = none ∧ flightTurn s id f = true
       ∧ poisoned s a f.ln.size = false ∧ readsBack s f.core a f.ln.size f.ln.attr.bmt = false)
     (fun s t =>
       let r := keyLine s (lineOf a) f.ln.attr.key
       let old : DWord := BitVec.ofNat 64 (leNat (Memory.readAll r.mem a f.ln.size))
       bytesWritten r.mem t.mem a (leBytes f.ln.size (op.apply (flushes s f.wg) old).toNat)
         ∧ t.flights = Map.put s.flights id { f with performed := true }
         ∧ ∀ k p, f.ln.ret = some k → Map.find (sqAt s f.wg f.sq).loads k = some p →
             Map.find (sqAt t f.wg f.sq).loads k = some { p with src := .value (old.zeroExtend 128) }))
  ∧ (∀ id n m f a op k p, happens .atomicPerform (.ids id n m)
     (fun s => Map.find s.flights id = some f ∧ f.ln.loc = .local a ∧ f.ln.atom = some op ∧ f.ln.ord = none ∧ flightTurn s id f = true
       ∧ poisoned s a f.ln.size = true ∧ f.ln.ret = some k ∧ Map.find (sqAt s f.wg f.sq).loads k = some p)
     (fun s t => hasRecord t 0x15 0 ∧ Map.find (sqAt t f.wg f.sq).loads k = none ∧ ∀ x, Memory.read t.mem x = Memory.read s.mem x))
  ∧ (∀ id n m f a op, happens .atomicPerform (.ids id n m)
     (fun s => Map.find s.flights id = some f ∧ f.ln.loc = .local a ∧ f.ln.atom = some op ∧ f.ln.ord = none ∧ flightTurn s id f = true
       ∧ poisoned s a f.ln.size = true ∧ f.ln.ret = none)
     (fun s t => hasRecord t 0x15 0 ∧ t.flights = Map.del s.flights id ∧ ∀ x, Memory.read t.mem x = Memory.read s.mem x))
  ∧ (∀ id n m f a op seq, happens .orderedUpdateArrival (.ids id n m)
       (fun s => Map.find s.flights id = some f ∧ f.ln.loc = .local a ∧ f.ln.atom = some op ∧ f.ln.ord = some seq ∧ f.performed = false
         ∧ s.trackers = [])
       (fun s t => t.flights = Map.put s.flights id { f with performed := true } ∧ t.mem = (keyLine s (lineOf a) f.ln.attr.key).mem ∧ t.ulog = s.ulog
         ∧ t.trackers = [{ launch := (wgAt s f.wg).launch, line := lineOf a, log := false, held := [
             { wg := (wgAt s f.wg).id, tid := f.sq * 512 + f.lb * 32 + f.ln.lane, seq := seq, loc := a, op := op }] }]))
  ∧ (∀ s l line rest, (passTime s).agenda = .update l line :: rest →
       step s = .next (settle (noteProgress (turnState s rest) (applyUpdate1 (turnState s rest) l line))))
  ∧ (∀ s l line, (∀ u ∈ updatesOf s l line, updateDue (launchAt s l) u = false) → applyUpdate1 s l line = s)
  ∧ (∀ x u, updateDue x u = true ↔ u.wg < watermark x ∨ ((wordAt x.rec_ 2).toNat ≤ u.wg ∧ x.retired.length = (wordAt x.rec_ 2).toNat))
  ∧ ∀ s l line u, dueUpdate s l line = some u →
       u ∈ updatesOf s l line ∧ updateDue (launchAt s l) u = true
       ∧ (∀ v ∈ updatesOf s l line, updateDue (launchAt s l) v = true → keyLt [v.wg, v.tid, v.seq] [u.wg, u.tid, u.seq] = false)
       ∧ (∀ v, v ∈ updatesOf (applyUpdate1 s l line) l line ↔ v ∈ updatesOf s l line ∧ v ≠ u)
       ∧ (let size := match u.op with
            | .op _ ty _ => atomBytes ty
            | .cas ty _ _ => atomBytes ty
          if poisoned s u.loc size then
            hasRecord (applyUpdate1 s l line) 0x15 0 ∧ ∀ x, Memory.read (applyUpdate1 s l line).mem x = Memory.read s.mem x
          else readsBack s noCore u.loc size none = false → bytesWritten s.mem (applyUpdate1 s l line).mem u.loc
            (leBytes size (u.op.apply (launchFlushes (updateContract s l u)) (BitVec.ofNat 64 (leNat (Memory.readAll s.mem u.loc size)))).toNat))

/-- Memory errors: corrected ones are counted, a parity error drops its L1 line, the others poison a line of memory or a unit of a typed
buffer inside its allocation (R186). A request of another device is answered once: outside the memory with a range failure; else, where the
context is granted the range, a load of sound lines gives their bytes, a store writes its own, an atomic does both and poisoned data is answered as
such, and where it is not, with a refusal (R195, R196, R201). Which contexts are granted a range no rule says: the model takes a free choice for each request (log
entry 2), and it looks at the range, the grant and the poison in this order by its own choice (log entry 26). -/
def Obligations.ErrorsAndRequests : Prop :=
  (∀ s, s.arg = .ecc .corrected → exec .memoryEccError s = .next { s with plat := { s.plat with corrected := s.plat.corrected + 1 } })
  ∧ (∀ core line, happens .memoryEccError (.ecc (.l1Parity core line)) (fun _ => True)
    (fun s t => t = modCore s core (fun c => { c with l1d := (coreAt t core).l1d })
      ∧ ∀ k, Map.find (coreAt t core).l1d k = if k = line then none else Map.find (coreAt s core).l1d k))
  ∧ (∀ n, happens .memoryEccError (.ecc (.line n)) (fun _ => True)
    (fun s t => t = { s with poison := t.poison } ∧ ∀ x, x ∈ t.poison ↔ x = n ∨ x ∈ s.poison))
  ∧ (∀ w b u, happens .memoryEccError (.ecc (.unit w b u)) (fun s => w < s.wgs.length ∧ b < 4 ∧ u * 32 < allocOf s w (b + 1))
    (fun s t => t = modWg s w (fun g => { g with poison := (wgAt t w).poison })
      ∧ ∀ x, x ∈ (wgAt t w).poison ↔ x = (b + 1) * 2 ^ 15 + u ∨ x ∈ (wgAt s w).poison))
  ∧ (∀ r, happens .remoteRequestArrival (.request r) (fun _ => localLoc r.local40.toNat = none)
    (fun s t => t = { s with out := s.out ++ [.reply r.src 0 .range] }))
  ∧ (∀ src ctx addr a n, happens .remoteRequestArrival (.request { src := src, ctx := ctx, local40 := addr, access := .load n })
    (fun s => localLoc addr.toNat = some a ∧ poisoned s a (max 1 n) = false)
    (fun s t => t.mem = s.mem ∧ t.out = s.out ++ [if Config.freeChoice s.freeCtr then
      .reply src (BitVec.ofNat 128 (leNat (Memory.readAll s.mem a n))) .ok else .reply src 0 .refused]))
  ∧ (∀ src ctx addr a bs, happens .remoteRequestArrival (.request { src := src, ctx := ctx, local40 := addr, access := .store bs })
    (fun _ => localLoc addr.toNat = some a)
    (fun s t => (if Config.freeChoice s.freeCtr then bytesWritten s.mem t.mem a bs
        else t.mem = s.mem)
      ∧ t.out = s.out ++ [.reply src 0 (if Config.freeChoice s.freeCtr then .ok else .refused)]))
  ∧ (∀ src ctx addr a f ty y flush, happens .remoteRequestArrival (.request { src := src, ctx := ctx, local40 := addr, access := .atom f ty y flush })
    (fun s => localLoc addr.toNat = some a ∧ poisoned s a (max 1 (atomBytes ty)) = false)
    (fun s t =>
      let old : DWord := BitVec.ofNat 64 (leNat (Memory.readAll s.mem a (atomBytes ty)))
      if Config.freeChoice s.freeCtr then bytesWritten s.mem t.mem a (leBytes (atomBytes ty) ((AtomOp.op f ty y).apply flush old).toNat)
        ∧ t.out = s.out ++ [.reply src (old.zeroExtend 128) .ok]
      else t.mem = s.mem ∧ t.out = s.out ++ [.reply src 0 .refused]))
  ∧ (∀ src ctx addr a ty c n, happens .remoteRequestArrival (.request { src := src, ctx := ctx, local40 := addr, access := .cas ty c n })
    (fun s => localLoc addr.toNat = some a ∧ poisoned s a (max 1 (atomBytes ty)) = false)
    (fun s t =>
      let old : DWord := BitVec.ofNat 64 (leNat (Memory.readAll s.mem a (atomBytes ty)))
      if Config.freeChoice s.freeCtr then bytesWritten s.mem t.mem a (leBytes (atomBytes ty) ((AtomOp.cas ty c n).apply false old).toNat)
        ∧ t.out = s.out ++ [.reply src (old.zeroExtend 128) .ok]
      else t.mem = s.mem ∧ t.out = s.out ++ [.reply src 0 .refused]))
  ∧ ∀ r a, (∀ bs, r.access ≠ .store bs) → happens .remoteRequestArrival (.request r)
    (fun s => localLoc r.local40.toNat = some a ∧ poisoned s a (max 1 (remoteSize r.access)) = true)
    (fun s t => t.mem = s.mem ∧ t.out = s.out ++ [.reply r.src 0 (if Config.freeChoice s.freeCtr then .poison else .refused)])

/-- Launch queues: a tail that the queue can hold is taken and one that it cannot sets `PERR`; the record selected becomes a launch with the
first check that it fails, and its queue moves on, none before `RDY` or of a context switched away; of the held launches whose waits are met the one of
highest `PRI` and then lowest queue takes its context's next launch id, none before the first synchronisation of `TCLK` (R28, R106 to R108, R365, R378). Gangs: a new gang's plan names its members in order, all in one section; its members are reserved one by one unless a launch of
higher priority was admitted since, and once all are reserved they are placed together, as fresh workgroups; a D launch is placed whole,
member w on core w mod 512 (R109, R110). That a launch takes its context's number before the increment, from 0, is the model's choice (log entry 7), and that
gangs which are to be placed again come before new ones its inference (log entry 47). -/
def Obligations.LaunchesPlaced : Prop :=
  ((∀ q v, happens .qtailWrite (.value q v) (fun s => q < 64 ∧ (queueOf s q).cfg.getLsbD 29 = false)
     (fun s t => if queueSlots (queueOf s q) < ((v.truncate 16 : BitVec 16) - (queueOf s q).head).toNat then
         t = { s with plat := { s.plat with perr := true } }
       else t = { s with queues := Map.put s.queues q { queueOf s q with tail := v.truncate 16 } }))
   ∧ (∀ q v, idle .qtailWrite (.value q v) (fun s => 64 ≤ q ∨ (queueOf s q).cfg.getLsbD 29 = true))
   ∧ (∀ x q, happens .launchRecordSelection x
     (fun s => nextQueue s = some q ∧ (Map.find s.ctxs (bitsOf (queueOf s q).cfg.toNat 15 0) = none ∨ recImage (physWords s (nextSlot s q) 16).2 % 128 ≠ 0))
     (fun s t => ∃ l, t.launches = s.launches ++ [l] ∧ l.rec_ = (physWords s (nextSlot s q) 16).2 ∧ l.refused = some 1 ∧ l.stage = 3 ∧ l.queue = q
       ∧ (queueOf t q).head = (queueOf s q).head + 1))
   ∧ (∀ x q r tag u k, happens .launchRecordSelection x
     (fun s => nextQueue s = some q ∧ (Map.find s.ctxs (bitsOf (queueOf s q).cfg.toNat 15 0)).isSome = true
       ∧ physWords s (nextSlot s q) 16 = r ∧ recImage r.2 % 128 = 0 ∧ physWords r.1 (nextSlot s q + 64) 4 = tag
       ∧ contextWords r.1 (bitsOf (queueOf s q).cfg.toNat 15 0) (recImage r.2) 128 8 = (u, .ok k))
     (fun s t => ∃ l, t.launches = s.launches ++ [l] ∧ l.rec_ = r.2 ∧ l.khw = k ∧ l.stage = 3 ∧ l.queue = q
       ∧ l.ctx = bitsOf (queueOf s q).cfg.toNat 15 0 ∧ l.refused = (headerRefusal k).or (recordRefusal r.2 k (tagGood u q r.2 tag.2))
       ∧ (queueOf t q).head = (queueOf s q).head + 1))
   ∧ (∀ s q, (s.plat.rdy = false ∨ (ctxAt s (bitsOf (queueOf s q).cfg.toNat 15 0)).away = true) → nextQueue s ≠ some q)
   ∧ (∀ l n m, happens .launchAdmission (.ids l n m)
     (fun s => s.plat.tsy = true ∧ l < s.launches.length ∧ (launchAt s l).stage = 3 ∧ waitsMet s (launchAt s l) = true
       ∧ ∀ i, i < s.launches.length → i ≠ l → (launchAt s i).stage = 3 → waitsMet s (launchAt s i) = true → admittedBefore (launchAt s l) l (launchAt s i) i)
     (fun s t => launchAt t l = (let y := launchAt s l
           { y with stage := 4, lid := (ctxAt s y.ctx).lid, order := s.admitted, lastIssue := s.plat.tclk.toNat })
       ∧ (∀ c, Map.find s.ctxs (launchAt s l).ctx = some c →
           ctxAt t (launchAt s l).ctx = { c with lid := (c.lid + 1) % 65536 })
       ∧ t.admitted = s.admitted + 1 ∧ ∀ i, i ≠ l → launchAt t i = launchAt s i))
   ∧ ∀ l n m, idle .launchAdmission (.ids l n m) (fun s =>
       s.plat.tsy = false ∨ s.launches.length ≤ l ∨ (launchAt s l).stage ≠ 3 ∨ waitsMet s (launchAt s l) = false
         ∨ ∃ i, i < s.launches.length ∧ (launchAt s i).stage = 3 ∧ waitsMet s (launchAt s i) = true ∧ admittedBefore (launchAt s i) i (launchAt s l) l))
  ∧ ((∀ x l g a, happens .gangReservation x
       (fun s => placer s = none ∧ distributing s = some l ∧ s.plat.low = false ∧ hdrD (launchAt s l).khw = false ∧ nextGang s l = some g
         ∧ planGang s (fun _ => true) l g = some a)
       (fun s t => t = modLaunch s l (fun y => { y with placing := some (a, 1, s.admitted) })
         ∧ a.map Prod.fst = gangMembers s l g ∧ ∃ sec, sec < 16 ∧ ∀ m ∈ a, m.2 / 32 = sec))
     ∧ (∀ x l a n since, happens .gangReservation x
       (fun s => placer s = some l ∧ (launchAt s l).placing = some (a, n, since) ∧ n < a.length)
       (fun s t =>
         let higher := ∃ z ∈ s.launches, z.stage = 4 ∧ z.refused = none ∧ recPri (launchAt s l).rec_ < recPri z.rec_ ∧ since ≤ z.order
         t = modLaunch s l (fun y => { y with placing := if higher then none else some (a, n + 1, since) })))
     ∧ (∀ x l a n since, happens .gangCommit x
       (fun s => placer s = some l ∧ (launchAt s l).placing = some (a, n, since) ∧ a.length ≤ n ∧ s.plat.low = false ∧ freshGang s l a)
       (fun s t => gangPlaced s t l a ∧ (launchAt t l).placing = none
         ∧ (launchAt t l).nextSection = (((a.head?.map Prod.snd).getD 0) / 32 + 1) % 16))
     ∧ (∀ x l a n since, idle .gangCommit x (fun s => placer s = some l ∧ (launchAt s l).placing = some (a, n, since) ∧ n < a.length))
     ∧ (∀ x l g a, happens .dLaunchPlacement x
       (fun s => (∀ y ∈ s.launches, y.placing = none) ∧ s.plat.low = false ∧ distributing s = some l ∧ hdrD (launchAt s l).khw = true
         ∧ nextGang s l = some g ∧ planD s (fun _ => true) l g = some a ∧ freshGang s l a)
       (fun s t => gangPlaced s t l a ∧ a.map Prod.fst = gangMembers s l g ∧ ∀ m ∈ a, m.2 = m.1 % 512)))

/-- A workgroup that may retire gives back what it holds, is counted as retired and, when it has not passed its ticket, forfeits it; the
distributor passes a forfeited ticket when the word has come to it; a launch whose workgroups have all retired completes: record, signal,
stage (R102, R103, R111, R210, R346). Trap kernels start at trap level in their reserved quarter, and start again for later records or after a flush; the
watchdog parks every waiting thread of a launch that has not issued for its period; a page response installs its entry and lets the recorded
thread, or the delivery that waits for the page, go on, and an empty one hands the record on (R191, R311, R336 to R339). -/
def Obligations.LaunchesEnd : Prop :=
  ((∀ w n m, happens .workgroupRetirement (.ids w n m) (fun s => mayRetire s w = true)
     (fun s t => (wgAt t w).status = 2 ∧ (wgAt t w).quarters = [] ∧ (wgAt t w).granules = [] ∧ (wgAt t w).tags = 0 ∧ (wgAt t w).bars = []
         ∧ (wgAt t w).rings = []
       ∧ ((wgAt s w).trapOf = none → (wgAt s w).launch < s.launches.length →
           let l := launchAt s (wgAt s w).launch
           launchAt t (wgAt s w).launch = { l with
             retired := l.retired ++ [(wgAt s w).id]
             forfeits := if recAddr l.rec_ 10 ≠ 0 ∧ (wgAt s w).passed = false then l.forfeits ++ [(wgAt s w).id] else l.forfeits })))
   ∧ (∀ w n m, idle .workgroupRetirement (.ids w n m) (fun s => mayRetire s w = false))
   ∧ (∀ l n m r a i, happens .ticketForfeitPass (.ids l n m)
     (fun s => l < s.launches.length ∧ launchTicket s l = (r, some a)
       ∧ (launchAt s l).forfeits.find? (fun i => memWord r a == BitVec.ofNat 32 i) = some i)
     (fun s t => memWord t a = memWord r a + 1
       ∧ (∀ x, ¬(a ≤ x ∧ x < a + 4) → Memory.read t.mem x = Memory.read r.mem x)
       ∧ launchAt t l = (let y := launchAt s l
           { y with forfeits := y.forfeits.erase i, ffcnt := y.ffcnt + 1, ffwg := if y.ffcnt = 0 then i else min y.ffwg i })))
   ∧ (∀ l n m a, happens .launchCompletion (.ids l n m)
     (fun s => mayComplete s l = true ∧ physLoc ((queueOf s (launchAt s l).queue).comp + 32 * (launchAt s l).slot) = some (.local a)
       ∧ recAddr (ctxAt s (launchAt s l).ctx).words 7 = 0 ∧ (wordAt (launchAt s l).rec_ 9).getLsbD 28 = false ∧ nobodyEnqueues s)
     (fun s t => (launchAt t l).stage = 8 ∧ (launchAt t l).trapCore = none
       ∧ bytesWritten s.mem t.mem a ((completionRecord (launchAt s l) s.plat.tclk).flatMap bytesOfWord)))
   ∧ (∀ l n m b, happens .launchCompletion (.ids l n m)
     (fun s => mayComplete s l = true ∧ recAddr (ctxAt s (launchAt s l).ctx).words 7 = 0 ∧ (wordAt (launchAt s l).rec_ 9).getLsbD 28 = true
       ∧ nobodyEnqueues s ∧ physLoc (eventAddr s (launchAt s l).ctx (recBits (launchAt s l).rec_ 9 27 16)) = some (.local b)
       ∧ ∀ a, physLoc ((queueOf s (launchAt s l).queue).comp + 32 * (launchAt s l).slot) = some (.local a) → a + 32 ≤ b ∨ b + 4 ≤ a)
     (fun s t => (launchAt t l).stage = 8
       ∧ eventValue t (launchAt s l).ctx (recBits (launchAt s l).rec_ 9 27 16)
         = eventValue s (launchAt s l).ctx (recBits (launchAt s l).rec_ 9 27 16) + 1))
   ∧ ∀ l n m, idle .launchCompletion (.ids l n m) (fun s => mayComplete s l = false))
  ∧ ((∀ l n m rec q, happens .trapKernelStart (.ids l n m)
       (fun s => l < s.launches.length ∧ (launchAt s l).trap = some rec ∧ (launchAt s l).trapCore = some q ∧ (launchAt s l).stage = 4
         ∧ ((launchAt s l).trapQ ≠ [] ∨ trapFlushed s (launchAt s l) = true) ∧ (ctxAt s (launchAt s l).ctx).away = false ∧ ((launchAt s l).trapWg = none ∨ ∃ w, (launchAt s l).trapWg = some w ∧ (wgAt s w).status = 2))
       (fun s t => t.wgs.length = s.wgs.length + 1 ∧ (launchAt t l).trapWg = some s.wgs.length
         ∧ (wgAt t s.wgs.length).level = 1 ∧ (wgAt t s.wgs.length).core = q / 4 ∧ (wgAt t s.wgs.length).quarters = [q % 4]
         ∧ (wgAt t s.wgs.length).trapOf = some l ∧ (wgAt t s.wgs.length).status = 0))
     ∧ (∀ l n m, happens .watchdogExpiry (.ids l n m)
       (fun s => l < s.launches.length ∧ (launchAt s l).stage = 4 ∧ watchdogPeriod s (launchAt s l).ctx ≠ 0
         ∧ (launchAt s l).lastIssue + watchdogPeriod s (launchAt s l).ctx ≤ s.plat.tclk.toNat)
       (fun s t => still t = still s ∧ ∀ w q x, (wgAt s w).launch = l → (wgAt s w).status = 0 → x ∈ (sqAt s w q).waiters →
         (sqAt t w q).waiters = [] ∧ hasRecord t 0x2A 0 ∧ ∀ i, i < 32 → inMask x.mask i = true → parkedAt (sqAt t w q) x.lb i x.stand))
     ∧ (∀ l n m, idle .watchdogExpiry (.ids l n m)
       (fun s => s.plat.tclk.toNat < (launchAt s l).lastIssue + watchdogPeriod s (launchAt s l).ctx))
     ∧ (∀ k e p a b, happens .pageRequestResponse (.page k (some e))
       (fun s => Map.find s.pageReqs k = some p ∧ p.delivery = none ∧ e.level = 0 ∧ leafSlot s p.ctx p.addr.toNat = some a ∧ physLoc a = some (.local b) ∧ recBits p.rec_ 0 31 24 = 0x10)
       (fun s t => Map.find t.pageReqs k = none ∧ bytesWritten s.mem t.mem b (leBytes 8 e.leaf.toNat)
         ∧ ∀ x st nb, x ∈ (sqAt s p.wg (recBits p.rec_ 1 11 10)).parked → x.lb = recBits p.rec_ 1 20 12 / 32 → x.lane = recBits p.rec_ 1 25 21 →
             x.place.pc.toNat = (wordAt p.rec_ 4).toNat + 2 ^ 32 * recBits p.rec_ 5 19 0 → x.how = .replay st nb →
             x ∉ (sqAt t p.wg (recBits p.rec_ 1 11 10)).parked ∧ standsAt (sqAt t p.wg (recBits p.rec_ 1 11 10)) x.lb x.lane x.place))
     ∧ (∀ k e p a b d, happens .pageRequestResponse (.page k (some e))
       (fun s => Map.find s.pageReqs k = some p ∧ p.delivery = some d ∧ e.level = 0 ∧ leafSlot s p.ctx p.addr.toNat = some a ∧ physLoc a = some (.local b))
       (fun s t => Map.find t.pageReqs k = none ∧ bytesWritten s.mem t.mem b (leBytes 8 e.leaf.toNat)
         ∧ ∀ i, Map.find t.fab.deliveries i = (Map.find s.fab.deliveries i).map (fun x => if i = d then { x with asked := false } else x)))
     ∧ ∀ k p, happens .pageRequestResponse (.page k none)
       (fun s => Map.find s.pageReqs k = some p ∧ p.delivery = none ∧ ∀ l ∈ s.launches, l.trap = none)
       (fun s t => t = { s with pageReqs := Map.del s.pageReqs k, out := s.out ++ [.hostRecord p.rec_] }))

/-- Pre-emption: a launch that may pre-empt and finds no room takes a gang of the lowest priority below its own, of the launch admitted last
among those, and a context switch every gang of the context and its trap kernels: their workgroups are flushed, drain or are adjourned, and nothing of
the context is placed until it is switched back; a drain that has gone on for twice its limit is an adjournment after all, of a cluster-aligned gang as a
whole (R341 to R345). Adjournment frees the slot and keeps the threads, and with them the workgroup's copy-engine contexts and transfer operations; its
record lies in a place of its own of the save area, whose lines no page key reads any more; a restore, on a core that has every publish, brings them back,
with every thread at the PC where it stood (R66, R227, R343, R344). The record's place in the save area, the key under which its lines stand (64 or above),
and the argument of a context switch, 1 to switch back, are the model's choices (log entry 48). -/
def Obligations.PreemptionAndRestore : Prop :=
  ((∀ x l g, happens .preemption x
     (fun s => (∀ y ∈ s.launches, y.placing = none) ∧ s.plat.low = false ∧ distributing s = some l ∧ nextGang s l = some g
       ∧ (wordAt (launchAt s l).rec_ 3).getLsbD 11 = true
       ∧ (if hdrD (launchAt s l).khw then planD s Wg.stays l g else planGang s Wg.stays l g) = none
       ∧ ∃ y ∈ committedGangs s (fun _ => true), recPri (launchAt s y.1).rec_ < recPri (launchAt s l).rec_)
     (fun s t => ∃ y ∈ committedGangs s (fun _ => true), recPri (launchAt s y.1).rec_ < recPri (launchAt s l).rec_
       ∧ (∀ z ∈ committedGangs s (fun _ => true), recPri (launchAt s y.1).rec_ < recPri (launchAt s z.1).rec_
           ∨ recPri (launchAt s y.1).rec_ = recPri (launchAt s z.1).rec_
             ∧ s.admitted - (launchAt s y.1).order ≤ s.admitted - (launchAt s z.1).order)
       ∧ (y.1 < s.launches.length →
           (launchAt t y.1).again = (launchAt s y.1).again.filter (fun g => g != (y.2.1, y.2.2)) ++ [(y.2.1, y.2.2)])
       ∧ ∀ w, w < s.wgs.length → (wgAt s w).launch = y.1 → (wgAt s w).gang = y.2.1 → (wgAt s w).stays = true → (wgAt s w).level = 0 → leaves t w))
   ∧ (∀ c n m, n ≠ 1 → happens .contextSwitch (.ids c n m) (fun _ => True)
     (fun s t => (∀ x, Map.find s.ctxs c = some x → (ctxAt t c).away = true) ∧ (∀ l, (launchAt s l).ctx = c → (launchAt t l).placing = none)
       ∧ ∀ w, w < s.wgs.length → (wgAt s w).ctx = c → (wgAt s w).status = 0 →
           ((wgAt s w).level = 0 ∧ (wgAt s w).stays = true ∨ (wgAt s w).trapOf.isSome = true ∧ (wgAt s w).leaving = none) → leaves t w))
   ∧ (∀ c m s, s.arg = .ids c 1 m → exec .contextSwitch s = .next (modCtx s c (fun x => { x with away := false })))
   ∧ (∀ s l, (ctxAt s (launchAt s l).ctx).away = true → distributing s ≠ some l)
   ∧ (∀ w n m, happens .drainTimeout (.ids w n m)
     (fun s => (wgAt s w).leaving = some 0 ∧ (wgAt s w).status = 0 ∧ (wgAt s w).leaveBy ≤ s.plat.tclk.toNat ∧ (wgAt s w).aligned = false)
     (fun s t => t = modWg s w (fun g => { g with leaving := some 1 })))
   ∧ (∀ w n m, happens .drainTimeout (.ids w n m)
     (fun s => (wgAt s w).leaving = some 0 ∧ (wgAt s w).status = 0 ∧ (wgAt s w).leaveBy ≤ s.plat.tclk.toNat ∧ (wgAt s w).aligned = true)
     (fun s t => t = { s with wgs := t.wgs } ∧ ∀ v, v < s.wgs.length → wgAt t v =
       if v = w ∨ (wgAt s v).launch = (wgAt s w).launch ∧ (wgAt s v).gang = (wgAt s w).gang ∧ (wgAt s v).level = 0 ∧ (wgAt s v).leaving = some 0
           ∧ (wgAt s v).status = 0
       then { wgAt s v with leaving := some 1 } else wgAt s v))
   ∧ ∀ w n m, idle .drainTimeout (.ids w n m)
       (fun s => (wgAt s w).leaving ≠ some 0 ∨ (wgAt s w).status ≠ 0 ∨ s.plat.tclk.toNat < (wgAt s w).leaveBy))
  ∧ ((∀ w n m, happens .adjournment (.ids w n m) (fun s => mayAdjourn s w = true)
       (fun s t => wgAt t w = { wgAt s w with status := 1, quarters := [], granules := [], leaving := none, saved := (wgAt t w).saved }
         ∧ (∀ k, k ∈ (wgAt t w).saved.ces ↔ (k ∈ (coreAt s (wgAt s w).core).ces ∧ k.2.owner = some w) ∨ k ∈ (wgAt s w).saved.ces)
         ∧ (∀ k, k ∈ (wgAt t w).saved.xfers ↔ (k ∈ (coreAt s (wgAt s w).core).xfers ∧ k.2.wg = w) ∨ k ∈ (wgAt s w).saved.xfers)
         ∧ (∀ k ∈ (coreAt t (wgAt s w).core).ces, k.2.owner ≠ some w)
         ∧ (∃ i, (wgAt t w).saved.slot = some i
             ∧ (∀ v, v < s.wgs.length → v ≠ w → (wgAt s v).ctx = (wgAt s w).ctx → (wgAt s v).saved.slot ≠ some i)
             ∧ ∀ line,
                 let base := bitsOf (recAddr (ctxAt s (wgAt s w).ctx).words 9 + i * saveBytes) 40 0
                 base ≤ localOf (line * 128) (base.testBit 40) → localOf (line * 128) (base.testBit 40) < base + saveBytes →
                 ∃ k, recordedKey t line = some k ∧ 64 ≤ k)
         ∧ ∀ b, Memory.read t.mem b = Memory.read s.mem b))
     ∧ (∀ w n m, idle .adjournment (.ids w n m) (fun s => mayAdjourn s w = false))
     ∧ (∀ w n m, idle .workgroupRestore (.ids w n m)
       (fun s => (wgAt s w).trapOf = none ∧ ((wgAt s w).leaving ≠ some 2 ∨ ∃ p ∈ s.pubs, p.2.waiting.contains (wgAt s w).core = true)))
     ∧ ∀ w n m, happens .workgroupRestore (.ids w n m)
       (fun s => w < s.wgs.length ∧ (wgAt s w).status = 0 ∧ (wgAt s w).leaving = some 2 ∧ (wgAt s w).trapOf = none ∧ (wgAt s w).resume = false
         ∧ (wgAt s w).lateTags = [] ∧ (∀ c ∈ (wgAt s w).saved.ces, ceFree s w (ceAt s (wgAt s w).core c.1) = true)
         ∧ (∀ p ∈ s.pubs, p.2.waiting.contains (wgAt s w).core = false)
         ∧ ∀ q ∈ (wgAt s w).squads, ((q.frontier ++ q.overflow).map Entry.formed).Nodup)
       (fun s t => (wgAt t w).status = 0 ∧ (wgAt t w).leaving = none ∧ (wgAt t w).saved = Saved.none
         ∧ (coreAt t (wgAt s w).core).l1d = []
         ∧ (∀ q lb l pc, standsAtPc (sqAt t w q) lb l pc ↔ standsAtPc (sqAt s w q) lb l pc)
         ∧ ∀ q, (sqAt t w q).v = (sqAt s w q).v))

/-- Links and planes: a received unit counts a frame, sixteen failed retries in a row, behind a first failure, take the link down and mark its plane dead; a rekeyed link
starts its frames again; quiescing, which holds what goes by the dead plane, the plane map's write after the drain and the resumption of a remap, which sends what was held and lets the collectives whose source was held be read (R297 to
R299, R376). That link l belongs to plane l mod 8, and that a link whose frame counter stands at 2^48 - 1 receives nothing, are the model's inferences (log
entry 8), and so is that the plane map is written, and the remap resumed, only after the drain (log entry 52). -/
def Obligations.LinksAndPlanes : Prop :=
  (∀ l good k, happens .flitReceive (.flit l good) (fun s => Map.find s.fab.links l = some k ∧ k.down = false ∧ k.frames + 1 < 2 ^ 48)
    (fun s t =>
      let fails := !good && decide (16 < k.retries + 1)
      t = { s with fab := { s.fab with links := t.fab.links, dead := t.fab.dead } }
      ∧ Map.find t.fab.links l = some { k with
          retries := if good then 0 else k.retries + 1, frames := k.frames + 1, crcFails := k.crcFails + (if good then 0 else 1), down := fails }
      ∧ (∀ j, j ≠ l → Map.find t.fab.links j = Map.find s.fab.links j)
      ∧ ∀ p, p ∈ t.fab.dead ↔ p ∈ s.fab.dead ∨ (fails = true ∧ p = l % 8)))
  ∧ (∀ l good, idle .flitReceive (.flit l good)
    (fun s => ∀ k, Map.find s.fab.links l = some k → k.down = true ∨ 2 ^ 48 ≤ k.frames + 1))
  ∧ (∀ l n m, happens .linkRekey (.ids l n m) (fun _ => True)
    (fun s t => t = { s with fab := { s.fab with links := t.fab.links } } ∧ ∀ j, Map.find t.fab.links j =
      (Map.find s.fab.links j).map (fun k => if j = l ∧ k.down = false then { k with frames := 0, keys := k.keys + 1 } else k)))
  ∧ (∀ p n m, happens .planeQuiesce (.ids p n m) (fun s => s.fab.quiesced = none ∧ p < 8)
    (fun s t => t = { s with fab := { s.fab with quiesced := some p, oldPmap := s.fab.pmap, drained := false } }))
  ∧ (∀ p n m, idle .planeQuiesce (.ids p n m) (fun s => s.fab.quiesced ≠ none ∨ 8 ≤ p))
  ∧ (∀ n v, happens .pmapWrite (.value n v) (fun s => s.fab.quiesced ≠ none ∧ s.fab.drained = true)
    (fun s t => t = { s with fab := { s.fab with pmap := v.truncate 32 &&& 0x00FFFFFF } }))
  ∧ (∀ n v, idle .pmapWrite (.value n v) (fun s => s.fab.quiesced = none ∨ s.fab.drained = false))
  ∧ (∀ x, happens .remapResume x (fun s => s.fab.quiesced ≠ none ∧ s.fab.drained = true
      ∧ ∀ k c, Map.find s.fab.colls k = some c → c.own.isSome = true ∨ ∃ r ∈ c.group, Map.find c.sigs r = none)
    (fun s t => t = { s with fab := { s.fab with quiesced := none, drained := false, heldOut := [] }, out := s.out ++ s.fab.heldOut }))
  ∧ (∀ x k c s, s.arg = x → s.fab.quiesced ≠ none → s.fab.drained = true → s.fab.colls = [(k, c)] →
      exec .remapResume s = .next (compareSignatures
        { s with fab := { s.fab with quiesced := none, drained := false, heldOut := [] }, out := s.out ++ s.fab.heldOut } k))
  ∧ (∀ s a plane, s.fab.quiesced = some plane → heldAtSource s a = decide (planeIn s.fab.oldPmap a = plane))
  ∧ (∀ s x plane, s.fab.quiesced = some plane → (emitFab s x).out = s.out ∧ (emitFab s x).fab.heldOut = s.fab.heldOut ++ [x])
  ∧ ∀ x, idle .remapResume x (fun s => s.fab.quiesced = none ∨ s.fab.drained = false)

/-- Power: an interval is counted in its class, by the four ordered tests, and its energy charged to the launches on the core by their shares of the
issues, an idle one's to context 0, and that of the engines' work to the launches that started it; a decision takes the highest point whose predicted power is within the budget, by the intervals counted since the last
one, or raises the low-power state; the chosen point comes into effect; a correction lowers no count (R357 to R359, R367). Power commands: with work
pending they set `PERR`; self-refresh and power-off are entered otherwise, power-off loses what the four C-dies hold, the collective engines with it and the root processor's squad apart,
and a return repeats bring-up from the assignment of the sections (R360, R381). Power tokens: a donor's balance goes to `OUT` with a grant to a listed
device of its group, requests that come together in ascending rank, a recipient's rises, an acknowledgement ends a trade, an abandoned one is counted
until it is acknowledged or released; `TOKADJ` adds its signed value within 0 to 65,535, and only a lowering decides, a balance of 0 being lowered no more (R361 to R364). Tempo lock: a member
sends the frequency of its point; at a boundary `TCLK` stands at a multiple of 2^20 and the point taken is not faster than any value exchanged, unless it
is point 0. `TCLK` is synchronised once: it jumps forward, or is held until the domain's time, which counts on meanwhile, comes to it; the device is then ready at the boot point with
`BAL` 0 and `LOW` 1 (R365, R366, R381). These points are the model's: the counts that a decision uses, point 0's MHz offered where none is affordable and
what a correction may not lower (log entry 50), what a power-off keeps (51), the order and the reason of a bring-up that fails (57), the rounding of shares
(72), a grant held to the balance (73), and the interval's numbers and who did the work, which come with the event (76). -/
def Obligations.PowerAndTime : Prop :=
  ((∀ core mat vec mem energy work, happens .activityInterval (.activity core mat vec mem energy work) (fun _ => core < Config.cores)
     (fun s t =>
       let n := if 512 ≤ mat then 0 else if 512 ≤ vec then 1 else if 512 ≤ mem then 2 else 3
       let here := s.wgs.filter (fun g => g.status == 0 && g.core == core && g.level != 2)
       let shares := here.zip (sharesOf energy (here.map (fun g => g.issues - g.counted)))
       let started := work.filter (fun x => decide (x.1 < s.wgs.length))
       t.plat.intervals = modAt s.plat.intervals n (· + 1)
         ∧ t.plat.ctx0Energy = s.plat.ctx0Energy + (if n = 3 ∨ here = [] then energy else 0)
             + ((started.filter (fun x => (wgAt s x.1).level == 2)).map Prod.snd).sum
         ∧ (∀ i, i < s.launches.length → (launchAt t i).energy = (launchAt s i).energy
             + (if n = 3 ∨ here = [] then 0 else ((shares.filter (fun x => x.1.served == i)).map Prod.snd).sum)
             + ((started.filter (fun x => (wgAt s x.1).level != 2 && (wgAt s x.1).served == i)).map Prod.snd).sum)
         ∧ t.wgs = s.wgs.map (fun g => if g.core = core then { g with counted := g.issues } else g) ∧ t.mem = s.mem))
   ∧ (∀ e (ws : List Nat), ws ≠ [] → (sharesOf e ws).length = ws.length ∧ (sharesOf e ws).sum = e
       ∧ ∀ i w, ws[i]? = some w → ws.sum ≠ 0 → ∃ x, (sharesOf e ws)[i]? = some x ∧ e * w / ws.sum ≤ x ∧ (i ≠ 0 → x = e * w / ws.sum))
   ∧ (∀ x, happens .powerDecision x (fun s => points s ≠ [] ∧ tempoLocked s = false)
     (fun s t => t.plat.counted = s.plat.intervals ∧ t.plat.intervals = [0, 0, 0, 0]
       ∧ (∃ k, t.plat.nextIdx = some k ∧ (if t.plat.low then k = 0 ∧ (∀ j, affordable t j = false)
           else affordable t k = true ∧ ∀ j, affordable t j = true → j ≤ k))
       ∧ t.plat.need = (tradeAmounts t).1 ∧ t.plat.surplus = (if s.plat.tgrp.getLsbD 31 then (tradeAmounts t).2 else 0)
       ∧ (.tradeRequest (s.plat.tgrp.toNat % 2 ^ 16) (s.plat.tgrp.toNat / 2 ^ 16 % 2 ^ 10) t.plat.need ∈ t.out.drop s.out.length ↔ s.plat.tgrp.getLsbD 31 = true ∧ t.plat.need ≠ 0)))
   ∧ (∀ x, setsPlat .powerDecision x (fun s => points s = [])
     (fun s => { s.plat with low := true, counted := s.plat.intervals, intervals := [0, 0, 0, 0] }))
   ∧ (∀ x k p, setsPlat .operatingPointChange x (fun s => s.plat.nextIdx = some k ∧ (points s)[k]? = some p)
     (fun s => { s.plat with idx := k, mhz := p.1, nextIdx := none }))
   ∧ (∀ x, idle .operatingPointChange x (fun s => s.plat.nextIdx = none))
   ∧ ∀ n v, happens .energyCorrection (.value n v) (fun s => (s.plat.estimates.map Prod.fst).Nodup)
     (fun s t =>
       let total := (s.plat.estimates.map Prod.snd).sum
       t.plat.estimates = [] ∧ s.plat.ctx0Energy ≤ t.plat.ctx0Energy ∧ (∀ i, (launchAt s i).energy ≤ (launchAt t i).energy)
         ∧ ∀ i e, i < s.launches.length → (i + 1, e) ∈ s.plat.estimates →
           (launchAt t i).energy = max (launchAt s i).energy ((launchAt s i).energy - e + (if total = 0 then 0 else v.toNat * e / total))))
  ∧ ((∀ x, ∀ i ∈ [Instr.pwrcmdRun, .pwrcmdSelfRefresh, .pwrcmdPowerOff], setsPlat i x (fun s => workPending s = true) (fun s => { s.plat with perr := true }))
     ∧ (∀ x, setsPlat .pwrcmdSelfRefresh x (fun s => workPending s = false ∧ s.plat.pwrcmd = 0) (fun s => { s.plat with pwrcmd := 1 }))
     ∧ (∀ x, happens .pwrcmdPowerOff x (fun s => workPending s = false)
       (fun s t => t.plat = { s.plat with pwrcmd := 2, rdy := false, keySlots := [] } ∧ (∀ b, Memory.read t.mem b = 0) ∧ t.flights = []
         ∧ (∀ c ∈ t.cores, c.1 = 516) ∧ t.faults = [] ∧ t.tlb = [] ∧ (∀ g ∈ t.wgs, g.status = 2 ∨ g.core = 516) ∧ t.launches = s.launches ∧ t.ctxs = s.ctxs ∧ t.queues = s.queues
         ∧ t.fab = { s.fab with colls := [], statuses := t.fab.statuses, waitOut := t.fab.waitOut, heldOut := t.fab.heldOut }
         ∧ (∀ x, x ∈ t.fab.statuses ↔ x ∈ s.fab.statuses ∧ x.2.code ≠ 0x22)
         ∧ (∀ x, x ∈ t.fab.waitOut ↔ x ∈ s.fab.waitOut ∧ ofColl s x.2 = false) ∧ ∀ x, x ∈ t.fab.heldOut ↔ x ∈ s.fab.heldOut ∧ ofColl s x = false))
     ∧ (∀ x, setsPlat .pwrcmdRun x (fun s => workPending s = false ∧ s.plat.pwrcmd ≠ 2) (fun s => { s.plat with pwrcmd := 0 }))
     ∧ (∀ x b, happens .pwrcmdRun x
       (fun s => workPending s = false ∧ s.plat.pwrcmd = 2 ∧ s.plat.bundle = some b ∧ s.plat.berr = false ∧ b.failure = none
         ∧ (assignSites b.fuse).isSome = true)
       (fun s t => t.plat.pwrcmd = 0 ∧ t.plat.berr = !(imageGood 2 b.die && imageGood 3 b.power)
         ∧ (t.plat.berr = false → t.plat.step = 6 ∧ t.wgs.length = s.wgs.length + 4 ∧ t.fab.links.length = 16
             ∧ ∀ w, s.wgs.length ≤ w → w < t.wgs.length → (wgAt t w).level = 2 ∧ 512 ≤ (wgAt t w).core ∧ (wgAt t w).core ≤ 515)))
     ∧ ∀ x b, happens .pwrcmdRun x
       (fun s => workPending s = false ∧ s.plat.pwrcmd = 2 ∧ s.plat.bundle = some b ∧ s.plat.berr = false ∧ b.failure = none
         ∧ assignSites b.fuse = none)
       (fun _ t => t.plat.berr = true ∧ t.plat.step = 4))
  ∧ ((∀ g r d n : Word, happens .tradeRequestReceipt (.words [g, r, d, n])
       (fun s => s.plat.tgrp.getLsbD 31 = true ∧ g.toNat = s.plat.tgrp.toNat % 2 ^ 16 ∧ listedDevice s r.toNat = some d.toNat
         ∧ min (min s.plat.surplus n.toNat) s.plat.bal.toNat ≠ 0)
       (fun s t =>
         let y := min (min s.plat.surplus n.toNat) s.plat.bal.toNat
         t.plat.bal = s.plat.bal - BitVec.ofNat 16 y ∧ t.plat.out = s.plat.out + BitVec.ofNat 16 y ∧ t.plat.surplus = s.plat.surplus - y
           ∧ t.plat.trades = Map.put s.plat.trades s.ids { dev := d.toNat, amount := y, abandoned := false }
           ∧ t.out[s.out.length]? = some (.tradeGrant d.toNat y)))
     ∧ (∀ g r d n : Word, idle .tradeRequestReceipt (.words [g, r, d, n]) (fun s => s.plat.tgrp.getLsbD 31 = false ∨ s.plat.surplus = 0 ∨ n = 0
         ∨ g.toNat ≠ s.plat.tgrp.toNat % 2 ^ 16 ∨ listedDevice s r.toNat ≠ some d.toNat))
     ∧ (∀ (g r d n g' r' d' n' : Word) s, s.arg = .words [g, r, d, n, g', r', d', n'] → r'.toNat < r.toNat →
         exec .tradeRequestReceipt s = .next (grantTrade (grantTrade s g'.toNat r'.toNat d'.toNat n'.toNat) g.toNat r.toNat d.toNat n.toNat))
     ∧ (∀ dev g m, happens .tradeGrantReceipt (.ids dev g m) (fun _ => True)
       (fun s t => t = { s with plat := { s.plat with bal := s.plat.bal + BitVec.ofNat 16 g }, out := s.out ++ [.tradeAck dev] }))
     ∧ (∀ k n m x, happens .tradeAckReceipt (.ids k n m) (fun s => Map.find s.plat.trades k = some x)
       (fun s t => t.plat = { s.plat with
             out := s.plat.out - BitVec.ofNat 16 x.amount, trades := Map.del s.plat.trades k
             tokabn := if x.abandoned then s.plat.tokabn - BitVec.ofNat 16 x.amount else s.plat.tokabn }
         ∧ t.out = s.out ++ (if x.abandoned then [.tradeReport x.dev x.amount true] else [])))
     ∧ (∀ k n m, idle .tradeAckReceipt (.ids k n m) (fun s => Map.find s.plat.trades k = none))
     ∧ (∀ k n m x, happens .tradeAbandonment (.ids k n m) (fun s => Map.find s.plat.trades k = some x ∧ x.abandoned = false)
       (fun s t => t = { s with
             plat := { s.plat with
               tokabn := s.plat.tokabn + BitVec.ofNat 16 x.amount, trades := Map.put s.plat.trades k { x with abandoned := true } }
             out := s.out ++ [.tradeReport x.dev x.amount false] }))
     ∧ (∀ n v, happens .tokadjWrite (.value n v) (fun _ => True)
       (fun s t =>
         let b : Int := s.plat.bal.toNat + (v.truncate 32 : Word).toInt
         (t.plat.bal.toNat : Int) = (if b < 0 then 0 else if 65535 < b then (s.plat.bal.toNat : Int) else b)
           ∧ t.plat.perr = (s.plat.perr || decide (b < 0) || decide (65535 < b)) ∧ t.plat.out = s.plat.out))
     ∧ (∀ n v, setsPlat .tokadjWrite (.value n v)
       (fun s => 0 ≤ (v.truncate 32 : Word).toInt ∧ s.plat.bal.toNat + (v.truncate 32 : Word).toInt ≤ 65535)
       (fun s => { s.plat with bal := s.plat.bal + v.truncate 16 }))
     ∧ (∀ n v p, happens .tokadjWrite (.value n v)
       (fun s => tempoLocked s = false ∧ (points s)[pointOf s]? = some p ∧ (v.truncate 32 : Word).toInt < 0 ∧ s.plat.bal ≠ 0
         ∧ (s.plat.bal.toNat + (v.truncate 32 : Word).toInt) * (power s.plat.counted p.2).2 < (power s.plat.counted p.2).1
         ∧ 0 < (power s.plat.counted p.2).1)
       (fun _ t => ∃ k, t.plat.nextIdx = some k ∧ (if t.plat.low then k = 0 ∧ (∀ j, affordable t j = false)
           else affordable t k = true ∧ ∀ j, affordable t j = true → j ≤ k)))
     ∧ (∀ n v, setsPlat .tokadjWrite (.value n v) (fun s => s.plat.bal = 0 ∧ (v.truncate 32 : Word).toInt < 0) (fun s => { s.plat with perr := true }))
     ∧ ∀ n v, setsPlat .tokrelWrite (.value n v) (fun _ => True) (fun s =>
         if (v.truncate 16 : BitVec 16) = s.plat.tokabn then
           { s.plat with out := s.plat.out - s.plat.tokabn, tokabn := 0, trades := s.plat.trades.filter (fun t => !t.2.abandoned) }
         else { s.plat with perr := true }))
  ∧ ((∀ l, setsPlat .tempoExchange (.nats l) (fun s => tempoLocked s = true) (fun s => { s.plat with tempoSeen := s.plat.tempoSeen ++ l }))
     ∧ happens .tempoExchange .unit (fun s => tempoLocked s = true)
       (fun s t => t = { s with plat := { s.plat with tempoOwn := some (ownTempo s) }, out := s.out ++ [.tempo (ownTempo s)] })
     ∧ (∀ x, idle .tempoExchange x (fun s => tempoLocked s = false))
     ∧ (∀ x, happens .tempoBoundary x (fun s => s.plat.hold = none ∧ s.plat.tclk.toNat < 2 ^ 63)
       (fun s t => t.plat.tclk.toNat % 2 ^ 20 = 0 ∧ s.plat.tclk.toNat ≤ t.plat.tclk.toNat ∧ t.plat.tclk.toNat < s.plat.tclk.toNat + 2 ^ 20
         ∧ t.plat.lkb = false ∧ t.plat.tempoSeen = [] ∧ t.plat.tempoOwn = none
         ∧ (tempoLocked s = true → points s ≠ [] → (points s).Pairwise (fun p q => p.1 < q.1) →
             ∃ k, t.plat.nextIdx = some k ∧ (k = 0 ∨ ∀ v, v ∈ s.plat.tempoSeen ∨ s.plat.tempoOwn = some v → ∀ p, (points s)[k]? = some p → p.1 ≤ v))))
     ∧ (∀ x, idle .tempoBoundary x (fun s => s.plat.hold ≠ none))
     ∧ (∀ n (v : BitVec 64), setsPlat .tclkSynchronisation (.value n v)
       (fun s => s.plat.step = 6 ∧ s.plat.berr = false ∧ s.plat.hold = none ∧ s.plat.tsy = false)
       (fun s => if s.plat.tclk.toNat ≤ v.toNat then readyAt { s.plat with tclk := v } else { s.plat with hold := some v }))
     ∧ setsPlat .tclkSynchronisation .unit (fun s => s.plat.step = 6 ∧ s.plat.berr = false ∧ s.plat.hold = none) (fun s => readyAt s.plat)
     ∧ (∀ x, setsPlat .tclkSynchronisation x (fun s => s.plat.step = 6 ∧ s.plat.berr = false ∧ s.plat.hold = none ∧ s.plat.tsy = true)
       (fun s => readyAt s.plat))
     ∧ (∀ s h, s.plat.hold = some h → (passTime s).plat =
         (let b : BitVec 64 := h + BitVec.ofNat 64 (Config.freeNumber s.freeCtr)
          if s.plat.tclk.toNat ≤ b.toNat then readyAt { s.plat with tclk := b, hold := none } else { s.plat with hold := some b }))
     ∧ (∀ s, s.plat.hold = none → (passTime s).plat = { s.plat with tclk := s.plat.tclk + BitVec.ofNat 64 (Config.freeNumber s.freeCtr) })
     ∧ ∀ x, idle .tclkSynchronisation x (fun s => s.plat.step ≠ 6 ∨ s.plat.berr = true ∨ s.plat.hold ≠ none))

/-- Host registers: event counters are set and added to, a queue is configured while it is not enabled, the operating-point list is taken
and measured while nothing is placed, a fault queue is set up empty, and the registers without behaviour of their own keep their implemented
bits; a host read gives a register's value, of a write-only one zero (R3, R329, R355, R377 to R379). The host's window, within one line of memory: a read gives the bytes of memory under key 0 and a write
writes them; the line of a confidential context reads as zero, is not written, and the access is counted in the context (R375). That `QCFG` and `QBASE` are
closed while a queue is enabled is the model's inference (log entry 52), and so are the key of an unblocked access, that an access which crosses a line does
nothing, and what is logged of a blocked one (log entry 53); how a host read of a register comes about is its choice (log entry 74). -/
def Obligations.HostAccess : Prop :=
  ((∀ ctx e v b, happens .evcmdSet (.evcmd ctx e v)
     (fun s => (Map.find s.ctxs ctx.toNat).isSome = true ∧ physLoc (eventAddr s ctx.toNat e.toNat) = some (.local b))
     (fun s t => eventValue t ctx.toNat e.toNat = v ∧ bytesWritten s.mem t.mem b (leBytes 4 v.toNat)))
   ∧ (∀ ctx e v b, happens .evcmdAdd (.evcmd ctx e v)
     (fun s => (Map.find s.ctxs ctx.toNat).isSome = true ∧ physLoc (eventAddr s ctx.toNat e.toNat) = some (.local b))
     (fun s t => eventValue t ctx.toNat e.toNat = eventValue s ctx.toNat e.toNat + v))
   ∧ (∀ ctx e v, ∀ i ∈ [Instr.evcmdSet, .evcmdAdd], setsPlat i (.evcmd ctx e v) (fun s => Map.find s.ctxs ctx.toNat = none)
     (fun s => { s.plat with perr := true }))
   ∧ (∀ q v, happens .qcfgWrite (.value q v)
     (fun s => q < 64 ∧ (queueOf s q).cfg.getLsbD 31 = false ∧ 4 ≤ bitsOf v.toNat 19 16 ∧ bitsOf v.toNat 19 16 ≤ 12)
     (fun s t => t = { s with queues := t.queues } ∧ queueOf t q = (let x := queueOf s q
       { x with cfg := v.truncate 32 &&& 0xF00FFFFF, head := if v.getLsbD 31 then x.tail else x.head, last := none })))
   ∧ (∀ q v, setsPlat .qcfgWrite (.value q v)
     (fun s => q < 64 ∧ ((queueOf s q).cfg.getLsbD 31 = true ∨ bitsOf v.toNat 19 16 < 4 ∨ 12 < bitsOf v.toNat 19 16))
     (fun s => { s.plat with perr := true }))
   ∧ (∀ ws, happens .oppListWrite (.words ws) (fun s => anyPlaced s = false)
     (fun s t => ∃ m : Map Word,
       (∀ k, Map.getD m k 0 = if 96 ≤ k then 0 else if k % 4 = 0 then wordAt ws k &&& 0x800007FF else if k % 4 = 3 then 0 else wordAt ws k)
       ∧ t = { s with plat := t.plat } ∧ t.plat = (if oppGood m then { s.plat with
           opp := m, slots := Map.put s.plat.slots 5 (extended s 5 (sha256 ((List.range 96).flatMap (fun i => bytesOfWord (Map.getD m i 0))))) }
         else { s.plat with perr := true })))
   ∧ (∀ ws, setsPlat .oppListWrite (.words ws) (fun s => anyPlaced s = true) (fun s => { s.plat with perr := true }))
   ∧ (∀ die v, happens .faultqWrite (.value die v) (fun s => die < 5 ∧ s.faultWait = [])
     (fun s t => t = { s with
      faultq := Map.put s.faultq die (v &&& 0x000FFFFFFFFFF00F), faults := Map.put s.faults die [], faultSlot := Map.put s.faultSlot die 0 }))
   ∧ (∀ v, setsPlat .registerWrite (.host .dstat v) (fun _ => True) (fun s => { s.plat with perr := s.plat.perr && !v.getLsbD 2 }))
   ∧ (∀ v, setsPlat .registerWrite (.host .tgrp v) (fun _ => True) (fun s => { s.plat with tgrp := v.truncate 32 &&& 0x83FFFFFF }))
   ∧ (∀ v, setsPlat .registerWrite (.host .trade v) (fun _ => True) (fun s => { s.plat with trade := v.truncate 32 &&& 0x00FFFFFF }))
   ∧ (∀ v, setsPlat .registerWrite (.host .tglist v) (fun _ => True) (fun s => { s.plat with tglist := v }))
   ∧ (∀ v, setsPlat .registerWrite (.host .winbase v) (fun _ => True) (fun s => { s.plat with winbase := v &&& 0xFFFFFFF000000000 }))
   ∧ (∀ v, happens .registerWrite (.host .fwmbox v) (fun _ => True) (fun s t => t.plat.fwmbox = v ∧ t.mem = s.mem
       ∧ ∀ w q x, (wgAt s w).level = 2 → x ∈ (sqAt s w q).waiters → x.why = .eret → released t w q x))
   ∧ (∀ q v, happens .registerWrite (.host (.qbase q) v) (fun s => q < 64 ∧ (queueOf s q).cfg.getLsbD 31 = false)
     (fun s t => t = { s with queues := Map.put s.queues q { queueOf s q with base := bitsOf v.toNat 51 12 * 4096 } }))
   ∧ (∀ q v, setsPlat .registerWrite (.host (.qbase q) v) (fun s => q < 64 ∧ (queueOf s q).cfg.getLsbD 31 = true) (fun s => { s.plat with perr := true }))
   ∧ (∀ q v, happens .registerWrite (.host (.qcomp q) v) (fun _ => q < 64)
     (fun s t => t = { s with queues := Map.put s.queues q { queueOf s q with comp := bitsOf v.toNat 51 5 * 32 } }))
   ∧ (∀ n m, ∀ x ∈ ([(0x00, fun s => BitVec.ofNat 64 (2 ^ 8 * s.plat.brsn.toNat + 8 * bit s.plat.berr + 4 * bit s.plat.perr + 2 * bit s.plat.tsy
           + bit s.plat.rdy)), (0x08, fun s => s.plat.plimit.zeroExtend 64), (0x0C, fun s => BitVec.ofNat 64 s.plat.pwrcmd), (0x10, fun _ => 0),
         (0x14, fun s => BitVec.ofNat 64 (2 ^ 16 * s.plat.out.toNat + s.plat.bal.toNat)), (0x18, fun s => s.plat.tgrp.zeroExtend 64),
         (0x1C, fun s => s.plat.trade.zeroExtend 64), (0x20, fun s => s.plat.tglist), (0x28, fun s => s.plat.tclk), (0x30, fun _ => 0),
         (0x38, fun s => s.plat.winbase), (0x40, fun s => s.plat.fwmbox), (0x48, fun s => s.plat.tokabn.zeroExtend 64), (0x4C, fun _ => 0)] :
         List (Nat × (State → DWord))),
       happens .registerWrite (.ids x.1 n m) (fun _ => True) (fun s t => t = { s with out := s.out ++ [.register x.1 (x.2 s)] }))
   ∧ (∀ i n m, i < 96 → happens .registerWrite (.ids (0x100 + 4 * i) n m) (fun _ => True)
       (fun s t => t = { s with out := s.out ++ [.register (0x100 + 4 * i) ((Map.getD s.plat.opp i 0).zeroExtend 64)] }))
   ∧ ∀ q n m, q < 64 → ∀ x ∈ ([(0x00, fun s => BitVec.ofNat 64 (queueOf s q).base), (0x08, fun s => (queueOf s q).cfg.zeroExtend 64),
         (0x10, fun s => (queueOf s q).tail.zeroExtend 64), (0x14, fun s => (queueOf s q).head.zeroExtend 64),
         (0x18, fun s => BitVec.ofNat 64 (queueOf s q).comp), (0x20, fun s => (queueOf s q).qseq)] : List (Nat × (State → DWord))),
       happens .registerWrite (.ids (0x10000 + 0x40 * q + x.1) n m) (fun _ => True)
         (fun s t => t = { s with out := s.out ++ [.register (0x10000 + 0x40 * q + x.1) (x.2 s)] }))
  ∧ ((∀ off bytes a, happens .hostWindowAccess (.window off bytes false)
       (fun s => let pa := (s.plat.winbase.toNat + off) % 2 ^ 40
         off < 2 ^ 36 ∧ bytes ≠ [] ∧ pa % 128 + bytes.length ≤ 128 ∧ physLoc pa = some (.local a) ∧ confidentialOf s (lineOf a) = none)
       (fun s t => t.mem = (keyLine s (lineOf a) 0).mem ∧ t.out = s.out ++ [.window (Memory.readAll t.mem a bytes.length)]))
     ∧ (∀ off bytes a, happens .hostWindowAccess (.window off bytes true)
       (fun s => let pa := (s.plat.winbase.toNat + off) % 2 ^ 40
         off < 2 ^ 36 ∧ bytes ≠ [] ∧ pa % 128 + bytes.length ≤ 128 ∧ physLoc pa = some (.local a) ∧ confidentialOf s (lineOf a) = none)
       (fun s t => bytesWritten (keyLine s (lineOf a) 0).mem t.mem a bytes ∧ t.out = s.out))
     ∧ (∀ off bytes wr a c, happens .hostWindowAccess (.window off bytes wr)
       (fun s => let pa := (s.plat.winbase.toNat + off) % 2 ^ 40
         off < 2 ^ 36 ∧ bytes ≠ [] ∧ pa % 128 + bytes.length ≤ 128 ∧ physLoc pa = some (.local a) ∧ confidentialOf s (lineOf a) = some c)
       (fun s t => t.mem = s.mem ∧ t.out = s.out ++ (if wr then [] else [.window (List.replicate bytes.length 0)])
         ∧ (ctxAt t c).reads = ((ctxAt s c).reads + 1) % 2 ^ 32))
     ∧ ∀ off bytes wr, idle .hostWindowAccess (.window off bytes wr)
       (fun s => 2 ^ 36 ≤ off ∨ bytes = [] ∨ 128 < (s.plat.winbase.toNat + off) % 2 ^ 40 % 128 + bytes.length))

/-- Contexts and identity: a context is created from a good record and destroyed with its key; attestations use leaves until the lower tree
has none, and wait then, to be answered in order by the new tree, which advances the counter; a tenant's secret gives a context its keys, and what was
written under its slot before is read no more; slots 8 to 15 can be extended (R193, R369 to R373, R380). Bring-up: a reset and a loss of power leave the
machine as at reset but for the counter; a bundle whose images verify brings the device to step 6 with its firmware squads, each logical cluster at a
working site of its own on its die, one that does not, a section without eight working clusters, or a step that fails, stops it with `BERR` (R14, R326,
R371, R381). These points are the model's: the counter, the boot number and the leaves at a reset (log entry 10), what a bundle carries and where its squads
start (14), a mailbox's status numbers and the requests that wait for the next tree (54), which lines a key's end makes unreadable (56), the order of the steps
and what reset keeps (57), and which sites join a section (71). -/
def Obligations.IdentityAndBringUp : Prop :=
  ((∀ ws, happens .contextCreate (.words ws) (fun s => s.plat.rdy = true)
     (fun s t => if contextRefused s ws then t = { s with out := s.out ++ [.status 1] }
       else t = { s with
         ctxs := Map.put s.ctxs (recBits ws 0 15 0) { blankCtx with words := ws }, out := s.out ++ [.status 0]
         dbgctl := Map.del s.dbgctl (recBits ws 0 15 0), bpa := s.bpa.filter (fun x => x.1 / 4 != recBits ws 0 15 0) }))
   ∧ (∀ ws, idle .contextCreate (.words ws) (fun s => s.plat.rdy = false))
   ∧ (∀ c n m x, happens .contextDestroy (.ids c n m) (fun s => Map.find s.ctxs c = some x)
     (fun s t =>
       let key := recBits x.words 0 22 17
       t.ctxs = Map.del s.ctxs c ∧ t.mem = s.mem ∧ (∀ l, key ≠ 0 → Map.find t.lineKeys l ≠ some key)
         ∧ (∀ l k, k ≠ key → Map.find s.lineKeys l = some k → Map.find t.lineKeys l = some k)
         ∧ (key ≠ 0 → Map.find t.plat.keySlots key = none)))
   ∧ (∀ nonce mask ctx, happens .attestationRequest (.attest nonce mask ctx)
     (fun s => 3 ≤ s.plat.step ∧ s.plat.exhausted = false ∧ s.plat.leaves < 1024 ∧ s.plat.asked = [])
     (fun s t => t.plat = { s.plat with leaves := s.plat.leaves + 1 } ∧ ∃ sig, sig.length = 3284 ∧ t.out = s.out ++
       [.attestation nonce (((List.range 16).filter (fun k => mask.getLsbD k)).map (fun k => Map.getD s.plat.slots k 0)) s.plat.counter
         (Config.kemPublicHash s.plat.boot) ((ctx.bind (fun c => Map.find s.ctxs c.toNat)).map (fun c => (c.reads, c.readLog))) 0 sig]))
   ∧ (∀ nonce mask ctx, happens .attestationRequest (.attest nonce mask ctx) (fun s => 3 ≤ s.plat.step ∧ s.plat.exhausted = true ∧ s.plat.asked = [])
     (fun s t => t.plat = s.plat ∧ ∃ slots kem log, t.out = s.out ++ [.attestation nonce slots s.plat.counter kem log 3 []]))
   ∧ (∀ nonce mask ctx, setsPlat .attestationRequest (.attest nonce mask ctx)
     (fun s => 3 ≤ s.plat.step ∧ s.plat.exhausted = false ∧ 1024 ≤ s.plat.leaves ∧ s.plat.counter < 2 ^ 20)
     (fun s => { s.plat with asked := s.plat.asked ++ [(nonce, mask, ctx)] }))
   ∧ (∀ x, setsPlat .lowerTreeRegeneration x (fun s => 3 ≤ s.plat.step ∧ 1024 ≤ s.plat.leaves ∧ s.plat.exhausted = false ∧ s.plat.asked = [])
     (fun s => if s.plat.counter < 2 ^ 20 then { s.plat with counter := s.plat.counter + 1, leaves := 0 } else { s.plat with exhausted := true }))
   ∧ (∀ x nonce mask ctx nonce' mask' ctx', happens .lowerTreeRegeneration x
     (fun s => 3 ≤ s.plat.step ∧ 1024 ≤ s.plat.leaves ∧ s.plat.exhausted = false ∧ s.plat.counter < 2 ^ 20
       ∧ s.plat.asked = [(nonce, mask, ctx), (nonce', mask', ctx')])
     (fun s t => t.plat = { s.plat with counter := s.plat.counter + 1, leaves := 2, asked := [] }
       ∧ ∃ slots slots' kem log log' sig sig', t.out = s.out
         ++ [.attestation nonce slots (s.plat.counter + 1) kem log 0 sig, .attestation nonce' slots' (s.plat.counter + 1) kem log' 0 sig']))
   ∧ (∀ x, idle .lowerTreeRegeneration x (fun s => s.plat.step < 3 ∨ s.plat.leaves < 1024 ∨ s.plat.exhausted = true))
   ∧ (∀ ctx ct x, happens .kemEncapsulation (.kem ctx ct)
     (fun s => 3 ≤ s.plat.step ∧ s.plat.exhausted = false ∧ s.plat.leaves < 1024 ∧ Map.find s.ctxs ctx.toNat = some x)
     (fun s t =>
       let k := Config.hkdf (Config.kemDecapsulate s.plat.boot ct) ctx.toNat
       ctxAt t ctx.toNat = { x with launchKey := some k.2.1, saveKey := some k.2.2 } ∧ t.out = s.out ++ [.status 0]
         ∧ (recBits x.words 0 22 17 ≠ 0 → Map.find t.plat.keySlots (recBits x.words 0 22 17) = some k.1
             ∧ ∀ l, Map.find t.lineKeys l ≠ some (recBits x.words 0 22 17))))
   ∧ (∀ slot d, setsPlat .measurementExtend (.measure slot d) (fun s => 8 ≤ slot ∧ slot ≤ 15 ∧ 2 ≤ s.plat.step)
     (fun s => { s.plat with slots := Map.put s.plat.slots slot (extended s slot d) }))
   ∧ ∀ slot d, idle .measurementExtend (.measure slot d) (fun s => slot < 8 ∨ 15 < slot ∨ s.plat.step < 2))
  ∧ ((∀ x, happens .resetRelease x (fun _ => True) (fun s t => asReset t ∧ t.plat = { Platform.reset with
         counter := s.plat.counter, boot := s.plat.boot + 1, step := 2, slots := [(0, extended State.reset 0 Config.romDigest)] }))
     ∧ (∀ x, happens .powerLoss x (fun _ => True)
       (fun s t => asReset t ∧ t.plat = { Platform.reset with counter := s.plat.counter, boot := s.plat.boot + 1, step := 1 }))
     ∧ (∀ b, happens .firmwareBundlePlacement (.bundle b) (fun s => s.plat.step = 2 ∧ s.plat.berr = false ∧ b.failure = none
         ∧ (assignSites b.fuse).isSome = true)
       (fun s t => t.plat.berr = !(imageGood 1 b.root && imageGood 2 b.die && imageGood 3 b.power)
         ∧ (t.plat.berr = false → t.plat.step = 6 ∧ t.wgs.length = s.wgs.length + 5 ∧ t.fab.links.length = 16
             ∧ ∀ w, s.wgs.length ≤ w → w < t.wgs.length → (wgAt t w).level = 2 ∧ 512 ≤ (wgAt t w).core ∧ (wgAt t w).core ≤ 516)))
     ∧ (∀ b, happens .firmwareBundlePlacement (.bundle b) (fun s => s.plat.step = 2 ∧ s.plat.berr = false ∧ b.failure = none
         ∧ assignSites b.fuse = none)
       (fun _ t => t.plat.berr = true ∧ t.plat.step = if imageGood 1 b.root then 4 else 3))
     ∧ (∀ fuse l, assignSites fuse = some l → l.length = 128 ∧ l.Nodup
         ∧ ∀ i site, l[i]? = some site → site / 34 = i / 32 ∧ (fuse.getD (site / 34) []).getD (site % 34) 0 = 15)
     ∧ (∀ b reason, happens .firmwareBundlePlacement (.bundle b) (fun s => s.plat.step = 2 ∧ s.plat.berr = false ∧ b.failure = some (3, reason))
       (fun s t => t.plat.berr = true ∧ t.plat.brsn = reason ∧ t.plat.step = 3 ∧ t.wgs = s.wgs))
     ∧ ∀ b, idle .firmwareBundlePlacement (.bundle b) (fun s => s.plat.step ≠ 2 ∨ s.plat.berr = true))

/-- The matrix engine: the next operation in turn begins and takes its scratchpad operands, poison among them is its fault; the earliest of
an issuer completes: an integer product adds exactly, modulo 2^32, a floating-point one follows the summation model, the accumulator
instructions clear and copy, but what a copy reads of a region with an open run is not specified; firmware computes the emulated formats or reports its
failure (R149, R233, R243, R247, R248, R252, R257, R258). That operands of descriptors are read at occupancy and C at completion is the model's inference (log
entry 31); that a number other than 0 with the firmware event means a failure is its choice (log entry 33). -/
def Obligations.MatrixEngine : Prop :=
  (∀ core n m o, happens .matrixOccupancyStart (.ids core n m)
    (fun s => nextOp s core = some o ∧ o.cluster = none ∧ operandPoisoned s o = false)
    (fun s t => (coreAt t (wgAt s o.wg).core).matTurn = o.wg ∧ t.wgs = s.wgs ∧ (∀ x, Memory.read t.mem x = Memory.read s.mem x)
      ∧ (coreAt t (wgAt s o.wg).core).mat = (coreAt s (wgAt s o.wg).core).mat.map (fun x => if x.id = o.id then { fillOp s x with started := true } else x)))
  ∧ (∀ core n m o, happens .matrixOccupancyStart (.ids core n m)
    (fun s => nextOp s core = some o ∧ o.cluster = none ∧ operandPoisoned s o = true)
    (fun _ t => hasRecord t 0x15 0 ∧ ∀ c, ∀ x ∈ (coreAt t c).mat, x.id ≠ o.id))
  ∧ (∀ w n m o f what cl, happens .matrixOpCompletion (.ids w n m)
    (fun s => (matOf s w).find? (fun o => o.started) = some o ∧ opReady s o ∧ firstStarted s o = true ∧ matFields o.ins = some (f, what, cl)
      ∧ matPath (contractOf s o.wg) (shapeOf o.mf0).fa (shapeOf o.mf0).fb (shapeOf o.mf0).fc = some .integer ∧ o.run = none)
    (fun s t => opLeft s t o ∧ ∀ i j, i < (shapeOf o.mf0).m → j < (shapeOf o.mf0).n →
      (tileCode (wgAt t o.wg) o 4 (i * (shapeOf o.mf0).n + j) : Int) =
        ((if what = 1 then 0 else (tileCode (wgAt s o.wg) o 4 (i * (shapeOf o.mf0).n + j) : Int))
          + (((o.aRows.getD i []).zip (o.bRows.getD j [])).map (fun p =>
              signedCode (codeBits (shapeOf o.mf0).fa) p.1 * signedCode (codeBits (shapeOf o.mf0).fa) p.2)).sum) % 2 ^ 32))
  ∧ (∀ w n m o, happens .matrixOpCompletion (.ids w n m)
    (fun s => (matOf s w).find? (fun o => o.started) = some o ∧ opReady s o ∧ firstStarted s o = true ∧ o.run = none
      ∧ matPath (contractOf s o.wg) (shapeOf o.mf0).fa (shapeOf o.mf0).fb (shapeOf o.mf0).fc = some .model)
    (fun s t => opLeft s t o ∧ modelTile s t o))
  ∧ (∀ w n m o k c r, happens .matrixOpCompletion (.ids w n m)
    (fun s => (matOf s w).find? (fun o => o.started) = some o ∧ opReady s o ∧ firstStarted s o = true ∧ o.ins = .accClr k c r)
    (fun s t => opLeft s t o ∧ ∀ off, r.toNat * 8192 ≤ off → off < (r.toNat + c.toNat + 1) * 8192 → bufByte (wgAt t o.wg) 3 off = 0))
  ∧ (∀ w n m o k x c r, happens .matrixOpCompletion (.ids w n m)
    (fun s => (matOf s w).find? (fun o => o.started) = some o ∧ opReady s o ∧ firstStarted s o = true ∧ o.ins = .accCp k x c r)
    (fun s t => opLeft s t o ∧ ∀ i, i < (c.toNat + 1) * 8192 → inRun { wgAt s o.wg with runs := o.prior } (r.toNat * 8192 + i) 1 = false →
      bufByte (wgAt t o.wg) 3 (x.toNat * 8192 + i) = bufByte (wgAt s o.wg) 3 (r.toNat * 8192 + i)))
  ∧ (∀ w m o, happens .emulatedFormatTrap (.ids w 0 m)
    (fun s => (matOf s w).find? (fun o => !o.isFence) = some o ∧ opReady s o ∧ emulated o = true ∧ operandPoisoned s o = false ∧ o.run = none
      ∧ matPath (contractOf s o.wg) (shapeOf o.mf0).fa (shapeOf o.mf0).fb (shapeOf o.mf0).fc = some .emulated)
    (fun s t => opLeft s t o ∧ modelTile s t (fillOp s o)))
  ∧ ∀ w n m o, n ≠ 0 → happens .emulatedFormatTrap (.ids w n m)
    (fun s => (matOf s w).find? (fun o => !o.isFence) = some o ∧ o.cluster = none ∧ emulated o = true ∧ operandPoisoned s o = false)
    (fun _ t => hasRecord t 0x09 1 ∧ ∀ c, ∀ x ∈ (coreAt t c).mat, x.id ≠ o.id)

/-- The transfer unit: a line of an operation, here one piece, is read and written once the squad's earlier stores are acknowledged and every core has applied
the publishes of the entry it is written through; a replayed lane's data does not replace what a higher lane wrote; poison met in the source stops the operation and poisons what it leaves unwritten; an
operation whose lanes have all written ends and sets its tag, or arrives at its barrier with the bytes it wrote (R264 to R266, R280). The copy
engine at work: a line request that may be written is, and one that meets poison parks its context and poisons the units that its move has not
requested; a completion operation takes effect after the moves before it, and commits its workgroup; a loaded word returns to its register (R280, R285, R289, R292,
R342). That a replayed lane's data yields to a higher lane's, what a stop leaves poisoned, and that a stopped operation keeps its completion back, are the
model's inferences (log entry 36), and what a context's fault at an effect leaves is too (log entry 37). -/
def Obligations.EnginesCopy : Prop :=
  ((∀ core k x p spc off, happens .transferLineWrite (.ids core k 0)
     (fun s => Map.find (coreAt s core).xfers k = some x ∧ xferReady s x = true ∧ x.pieces = [p] ∧ p.half = none ∧ x.wg < s.wgs.length
       ∧ p.mayMove s = true ∧ p.dst = .buf spc off ∧ off + p.n ≤ 2 ^ 20 ∧ sourcePoisoned s x.wg core p = false ∧ x.landed = [])
     (fun s t => Map.find (coreAt t core).xfers k = some { x with pieces := [], landed := [p] } ∧ ∀ sp o, o < 2 ^ 20 → bufByte (wgAt t x.wg) sp o =
       if sp = spc ∧ off ≤ o ∧ o < off + p.n then (readSource s x.wg core p.src p.n).2.getD (o - off) 0 else bufByte (wgAt s x.wg) sp o))
   ∧ (∀ core k x p q spc off off', happens .transferLineWrite (.ids core k 0)
     (fun s => Map.find (coreAt s core).xfers k = some x ∧ xferReady s x = true ∧ x.pieces = [p] ∧ p.mayMove s = true ∧ q.half = none
       ∧ p.dst = .buf spc off ∧ q.dst = .buf spc off' ∧ off' ≤ off ∧ off + max 1 p.n ≤ off' + q.n ∧ q ∈ x.landed ∧ p.lane < q.lane
       ∧ sourcePoisoned s x.wg core p = false)
     (fun s t => Map.find (coreAt t core).xfers k = some { x with pieces := [], landed := x.landed ++ [p] }
       ∧ ∀ w sp o, bufByte (wgAt t w) sp o = bufByte (wgAt s w) sp o))
   ∧ (∀ core k x p spc off, happens .transferLineWrite (.ids core k 0)
     (fun s => Map.find (coreAt s core).xfers k = some x ∧ xferReady s x = true ∧ x.pieces = [p] ∧ p.mayMove s = true ∧ p.dst = .buf spc off ∧ 1 ≤ p.n
       ∧ x.wg < s.wgs.length ∧ sourcePoisoned s x.wg core p = true)
     (fun s t => Map.find (coreAt t core).xfers k = some { x with stopped := true, pieces := [] } ∧ hasRecord t 0x15 0
       ∧ bufPoisoned (wgAt t x.wg) spc off p.n = true ∧ (∀ b, Memory.read t.mem b = Memory.read s.mem b)
       ∧ ∀ w sp o, bufByte (wgAt t w) sp o = bufByte (wgAt s w) sp o))
   ∧ (∀ core k j x, idle .transferLineWrite (.ids core k j)
     (fun s => s.devOps = [] ∧ Map.find (coreAt s core).xfers k = some x ∧ (xferReady s x = false ∨ x.pieces.length ≤ j
       ∨ ∃ p, x.pieces[j]? = some p ∧ p.mayMove s = false)))
   ∧ (∀ core k n x, happens .transferOpCompletion (.ids core k n)
     (fun s => Map.find (coreAt s core).xfers k = some x ∧ xferReady s x = true ∧ x.pieces = [] ∧ x.parkedLanes = [] ∧ x.abandoned = false
       ∧ x.kindBar = false ∧ x.wg < s.wgs.length ∧ (wgAt s x.wg).status = 0)
     (fun s t => Map.find (coreAt t core).xfers k = none ∧ (wgAt t x.wg).tags = (wgAt s x.wg).tags ||| (1#64 <<< x.x)))
   ∧ (∀ core k n x, happens .transferOpCompletion (.ids core k n)
     (fun s => Map.find (coreAt s core).xfers k = some x ∧ xferReady s x = true ∧ x.pieces = [] ∧ x.parkedLanes = [] ∧ x.abandoned = false
       ∧ x.kindBar = true ∧ x.wg < s.wgs.length ∧ arriveFault (barOf (wgAt s x.wg) x.x) (x.halves / 2) = none
       ∧ (barOf (wgAt s x.wg) x.x).earr + 1 ≠ (barOf (wgAt s x.wg) x.x).eexp)
     (fun s t => Map.find (coreAt t core).xfers k = none ∧ barOf (wgAt t x.wg) x.x =
       (let b := barOf (wgAt s x.wg) x.x
        { b with earr := b.earr + 1, pend := b.pend - (x.halves / 2 : Nat) })))
   ∧ ∀ core k n x, idle .transferOpCompletion (.ids core k n)
     (fun s => Map.find (coreAt s core).xfers k = some x ∧ x.pieces ≠ []))
  ∧ ((∀ core k j m r, happens .ceLineWrite (.ids core k j)
       (fun s => (ceAt s core k).moves[j]? = some m ∧ ceLineReady (ceAt s core k) j = true ∧ (∀ p ∈ m.2.2, p.mayMove s = true)
         ∧ moveLine s (ceOwner s core k) core m.2.2 = some r)
       (fun s t => (ceAt t core k).moves = (ceAt s core k).moves.eraseIdx j ∧ (∀ x, Memory.read t.mem x = Memory.read r.mem x)
         ∧ ∀ w spc off, bufByte (wgAt t w) spc off = bufByte (wgAt r w) spc off))
     ∧ (∀ core k j m, happens .ceLineWrite (.ids core k j)
       (fun s => (ceAt s core k).moves[j]? = some m ∧ ceLineReady (ceAt s core k) j = true ∧ (∀ p ∈ m.2.2, p.mayMove s = true)
         ∧ moveLine s (ceOwner s core k) core m.2.2 = none ∧ (ceAt s core k).st < 4 ∧ (ceAt s core k).owner.isSome = true)
       (fun s t => (ceAt t core k).st = 3 ∧ (ceAt t core k).fsub = 9 ∧ hasRecord t 0x20 9 ∧ (∀ x, Memory.read t.mem x = Memory.read s.mem x)
         ∧ (ceOwner s core k < s.wgs.length → m.1 = (ceAt s core k).moveNo → ∀ u ∈ (ceAt s core k).left, u ∈ (wgAt t (ceOwner s core k)).poison)))
     ∧ (∀ core k j m, idle .ceLineWrite (.ids core k j)
       (fun s => s.devOps = [] ∧ (ceAt s core k).moves[j]? = some m ∧ (ceLineReady (ceAt s core k) j = false ∨ ∃ p ∈ m.2.2, p.mayMove s = false)))
     ∧ (∀ core k n op, idle .ceCompletionTakesEffect (.ids core k n)
       (fun s => ∃ before pc, (ceAt s core k).comps.head? = some (before, pc, op) ∧ ∃ m ∈ (ceAt s core k).moves, m.1 < before))
     ∧ (∀ core k n (x : Nat), happens .ceCompletionTakesEffect (.ids core k n)
       (fun s => compReady s core k (.tagset x) ∧ ceOwner s core k < s.wgs.length ∧ (wgAt s (ceOwner s core k)).status = 0)
       (fun s t => (ceAt t core k).comps = (ceAt s core k).comps.drop 1 ∧ (wgAt t (ceOwner s core k)).committed = true
         ∧ (wgAt t (ceOwner s core k)).tags = (wgAt s (ceOwner s core k)).tags ||| (1#64 <<< x)))
     ∧ (∀ core k n (b : Nat) (v : DWord), happens .ceCompletionTakesEffect (.ids core k n)
       (fun s => compReady s core k (.arr b v) ∧ ceOwner s core k < s.wgs.length ∧ arriveFault (barOf (wgAt s (ceOwner s core k)) b) v.toNat = none
         ∧ (barOf (wgAt s (ceOwner s core k)) b).earr + 1 ≠ (barOf (wgAt s (ceOwner s core k)) b).eexp)
       (fun s t => (ceAt t core k).comps = (ceAt s core k).comps.drop 1 ∧ barOf (wgAt t (ceOwner s core k)) b =
         (let x := barOf (wgAt s (ceOwner s core k)) b
          { x with earr := x.earr + 1, pend := x.pend - v.toNat })))
     ∧ (∀ core k n (b : Nat), happens .ceCompletionTakesEffect (.ids core k n)
       (fun s => compReady s core k (.commit b) ∧ ceOwner s core k < s.wgs.length ∧ (ringOf (wgAt s (ceOwner s core k)) b).slots ≠ 0
         ∧ (ringOf (wgAt s (ceOwner s core k)) b).full.getLsbD (ringOf (wgAt s (ceOwner s core k)) b).pcur = false)
       (fun s t => (ceAt t core k).comps = (ceAt s core k).comps.drop 1 ∧ ringOf (wgAt t (ceOwner s core k)) b =
         (let r := ringOf (wgAt s (ceOwner s core k)) b
          { r with full := r.full ||| (1#16 <<< r.pcur), sph := r.sph ^^^ (1#16 <<< r.pcur), pcur := (r.pcur + 1) % r.slots })))
     ∧ (∀ core k n (e : Nat) p r, happens .ceCompletionTakesEffect (.ids core k n)
       (fun s => compReady s core k (.publish e) ∧ (ceAt s core k).pubWait = none ∧ performPublish s (wgAt s (ceOwner s core k)).ctx e = some (p, r))
       (fun s t => (ceAt t core k).pubWait = some p ∧ (ceAt t core k).comps = (ceAt s core k).comps ∧ ∀ x, Memory.read t.mem x = Memory.read r.mem x))
     ∧ (∀ core k n (ea : DWord) (v : Word) spc off r c, happens .ceCompletionTakesEffect (.ids core k n)
       (fun s => compReady s core k (.stw ea v) ∧ ceOwner s core k < s.wgs.length
         ∧ touch s (ceOwner s core k) .copy ea 4 true = (r, .ok (.buf spc off, c)) ∧ off + 4 ≤ 2 ^ 20)
       (fun s t => (ceAt t core k).comps = (ceAt s core k).comps.drop 1 ∧ bufRead (wgAt t (ceOwner s core k)) spc off 4 = leBytes 4 v.toNat))
     ∧ ∀ core k n d v rest, happens .ceLdiReturn (.ids core k n) (fun s => (ceAt s core k).ldi = (d, v) :: rest)
       (fun s t => (ceAt t core k).ldi = rest ∧ ceGet (ceAt t core k) d = (if d = 0 then 0 else v)
         ∧ (∀ e, e ≠ d → ceGet (ceAt t core k) e = ceGet (ceAt s core k) e) ∧ t.wgs = s.wgs ∧ t.mem = s.mem))

/-- Publication, once the squad's earlier stores are acknowledged: an entry that is valid takes its next generation, and a DUAL one swaps its backings, at the device's table, and the lanes
that named it receive the generation; one that is not valid parks them; a core applies the publishes in order, and drops lines when one says
so (R277, R278). -/
def Obligations.Publication : Prop :=
  (∀ id n m op e rest, happens .publishPerform (.ids id n m)
    (fun s => Map.find s.pubOps id = some op ∧ squadDrained s op.wg op.sq op.before = true ∧ op.todo = e :: rest ∧ isSquad s op.wg op.sq
      ∧ bmtValid (bmtEntry s (wgAt s op.wg).ctx e) = true ∧ recAddr (ctxAt s (wgAt s op.wg).ctx).words 3 % 16 = 0)
    (fun s t =>
      let ctx := (wgAt s op.wg).ctx
      let old := bmtEntry s ctx e
      bmtEntry t ctx e = publishedWords old ∧ bmtGen (bmtEntry t ctx e) = (bmtGen old + 1) % 2 ^ 16
        ∧ bmtFront (bmtEntry t ctx e) = (if bmtDual old then 1 - bmtFront old else bmtFront old)
        ∧ ∀ l x, (l, x) ∈ op.lanes → l < 32 → x.toNat % 4096 = e →
            vget (sqAt t op.wg op.sq) op.lb op.d.toNat l = BitVec.ofNat 32 ((bmtGen old + 1) % 2 ^ 16)))
  ∧ (∀ id n m op e rest, happens .publishPerform (.ids id n m)
    (fun s => Map.find s.pubOps id = some op ∧ squadDrained s op.wg op.sq op.before = true ∧ op.todo = e :: rest
      ∧ bmtValid (bmtEntry s (wgAt s op.wg).ctx e) = false ∧ ∃ l ∈ op.lanes, l.2.toNat % 4096 = e)
    (fun s t => hasRecord t 0x1C 2 ∧ ∀ x, Memory.read t.mem x = Memory.read s.mem x))
  ∧ (∀ id n m op, idle .publishPerform (.ids id n m) (fun s => Map.find s.pubOps id = some op ∧ squadDrained s op.wg op.sq op.before = false))
  ∧ (∀ id core n p, happens .publishCoreApply (.ids id core n)
    (fun s => Map.find s.pubs id = some p ∧ (∀ q ∈ s.pubs, q.1 < id → core ∉ q.2.waiting) ∧ s.fab.deliveries = [] ∧ s.fab.colls = [])
    (fun s t =>
      let later := ∃ q ∈ s.pubs, id < q.1 ∧ q.2.ctx = p.ctx ∧ q.2.entry = p.entry ∧ core ∈ q.2.waiting
      bmtView t core p.ctx p.entry = (if later then p.words else bmtEntry s p.ctx p.entry)
        ∧ (∀ q, Map.find t.pubs id = some q → core ∉ q.waiting)
        ∧ (∀ l x, Map.find (coreAt t core).l1d l = some x → p.drop = true → ∀ g, x.2 ≠ some (p.ctx, p.entry, g))
        ∧ ∀ x, Memory.read t.mem x = Memory.read s.mem x))
  ∧ ∀ id core n q, idle .publishCoreApply (.ids id core n) (fun s => q ∈ s.pubs ∧ q.1 < id ∧ core ∈ q.2.waiting)

/-- Sends end: with the outcome this device decided, else with the one the destination answers, success only of one that has been sent; the
status word gets the outcome, the destination, the tag and the sequence number, a send without one changes no memory, then the tag is set
(R301, R304). Messages of one source are handled in its order: one that is due goes to the first post it matches, else to the unexpected
queue, else it waits at its source; one that comes early is held; one for a context that does not exist is refused. A payload of 257 to
65,536 bytes comes in when it has its grants. A held message is offered again, and an own send's message arrives the same way, its payload
read then; poison met ends that send (R300, R304, R307, R308, R314). Receives: a post beyond its quota gets the handle of none; else it takes a free list
slot, its handle names slot and reuse count, and it takes the first unexpected message that it matches or joins the list. A cancel of a
listed post takes it off with status 2 and answers 1, else 0; a probe answers with the first match or with zeros. Posts and cancels of a
squad are handled in order (R306, R307, R312, R313). A status word on a page of another device's memory goes there as a store, and what follows it, the tag
or the record of its failure, comes with the answer (R301). These points are the model's: the reuse count 0 of a slot's first use (log entry 8), SEQ 0 and LEN
0 of a send without a sequence number, the length of a send that ends early, and when an own send ends (39), and that posts being delivered count against the
quota (40). -/
def Obligations.MessagesAndReceives : Prop :=
  ((∀ k st len op f, happens .sendCompletion (.sendDone k st len) (fun s => Map.find s.fab.sends k = some op ∧ op.fate = some f)
     (fun s t => Map.find t.fab.sends k = none
       ∧ if op.stat = 0 then t.mem = s.mem else
         statusWritten { s with fab := { s.fab with sends := Map.del s.fab.sends k } } t op.wg op.stat
           (statusWords f.2 op.trunc f.1 op.ddev op.tag (op.seq.getD 0))))
   ∧ (∀ k st len op, happens .sendCompletion (.sendDone k st len) (fun s => Map.find s.fab.sends k = some op ∧ op.fate = none)
     (fun s t => if op.ddev = Config.ownDevice
         ∨ ¬(st = 1 ∧ (op.sent = true ∨ 65536 < op.len) ∧ keepsBack s (isPayloadOf k) = false ∨ st = 3 ∨ st = 4
             ∨ st = 5 ∧ op.poisoned.isSome = true ∨ st = 6 ∨ st = 7) then t = s else
       Map.find t.fab.sends k = none ∧ (op.stat = 0 → t.mem = s.mem)
         ∧ (op.stat ≠ 0 → statusWritten { s with fab := { s.fab with sends := Map.del s.fab.sends k } } t op.wg op.stat
           (statusWords (if st = 1 then op.len else if st = 6 ∨ st = 7 then 0 else min len.toNat (if st = 5 then op.cleanBytes else op.len)) op.trunc
             st.toNat op.ddev op.tag (op.seq.getD 0)))
         ∧ ∀ tag, op.tagOf = some tag → op.wg < s.wgs.length → (wgAt s op.wg).status = 0 → op.stat = 0 ∨ statusHere s op.wg op.stat →
             (wgAt t op.wg).tags = (wgAt s op.wg).tags ||| (1#64 <<< tag)))
   ∧ (∀ k data x tag, happens .remoteStoreAck (.reply k data .ok)
     (fun s => Map.find s.flights k = none ∧ Map.find s.fab.statuses k = some x ∧ keepsBack s (isRequest k) = false ∧ x.next = .tag tag
       ∧ x.wg < s.wgs.length ∧ (wgAt s x.wg).status = 0)
     (fun s t => Map.find t.fab.statuses k = none ∧ t.mem = s.mem ∧ (wgAt t x.wg).tags = (wgAt s x.wg).tags ||| (1#64 <<< tag)))
   ∧ (∀ k data x st, st ≠ .ok → happens .remoteStoreAck (.reply k data st)
     (fun s => Map.find s.flights k = none ∧ Map.find s.fab.statuses k = some x ∧ keepsBack s (isRequest k) = false ∧ x.code < 256 ∧ x.sub < 256)
     (fun _ t => Map.find t.fab.statuses k = none ∧ hasRecord t x.code x.sub))
   ∧ ∀ k st len, idle .sendCompletion (.sendDone k st len) (fun s => Map.find s.fab.sends k = none))
  ∧ ((∀ m p, happens .messageArrival (.message m) (fun s => comesAtOnce m ∧ messageDue s m ∧ postFor s m = some p)
       (fun s t => if m.src = Config.ownDevice then t = s else taken s t m p ∧ t.fab.held = s.fab.held ∧ t.fab.unexpected = s.fab.unexpected))
     ∧ (∀ m, happens .messageArrival (.message m) (fun s => comesAtOnce m ∧ messageDue s m ∧ postFor s m = none
         ∧ (s.fab.unexpected.filter (fun e => e.1.ctx == m.ctx)).length < 4096)
       (fun s t => if m.src = Config.ownDevice then t = s else
         expectedSeq t m.src m.ctx.toNat = (m.seq.toNat + 1) % 65536 ∧ t.fab.posts = s.fab.posts ∧ t.fab.held = s.fab.held ∧ t.mem = s.mem
           ∧ ∃ stays, t.fab.unexpected = s.fab.unexpected ++ [(m, stays)] ∧ (65536 < messageBytes m → stays = false)
             ∧ (s.fab.unexpected = [] → stays = decide (messageBytes m ≤ 65536 ∧ recBits (ctxAt s m.ctx.toNat).words 13 31 16 * 65536 < messageBytes m))))
     ∧ (∀ m, happens .messageArrival (.message m) (fun s => comesAtOnce m ∧ messageDue s m ∧ postFor s m = none
         ∧ 4096 ≤ (s.fab.unexpected.filter (fun e => e.1.ctx == m.ctx)).length)
       (fun s t => t = if m.src = Config.ownDevice then s else { s with fab := { s.fab with held := s.fab.held ++ [m] } }))
     ∧ (∀ m, happens .messageArrival (.message m)
       (fun s => comesAtOnce m ∧ (Map.find s.ctxs m.ctx.toNat).isSome = true ∧ expectedSeq s m.src m.ctx.toNat ≠ m.seq.toNat
         ∧ ∀ h ∈ s.fab.held, ¬(h.src = m.src ∧ h.ctx = m.ctx ∧ h.seq.toNat = expectedSeq s m.src m.ctx.toNat))
       (fun s t => t = if m.src = Config.ownDevice then s else { s with fab := { s.fab with held := s.fab.held ++ [m] } }))
     ∧ (∀ m, idle .messageArrival (.message m) (fun s => comesAtOnce m ∧ (Map.find s.ctxs m.ctx.toNat).isNone = true))
     ∧ (∀ m, ¬comesAtOnce m → m.src ≠ Config.ownDevice → happens .messageArrival (.message m) (fun _ => True)
       (fun s t => t = { s with ids := s.ids + 1, fab := { s.fab with inbound := Map.put s.fab.inbound s.ids (m, 0) } }))
     ∧ (∀ k rank n src m g p, happens .bulkGrant (.ids k rank n)
       (fun s => grantDue s k rank src ∧ Map.find s.fab.deliveries k = none ∧ Map.find s.fab.inbound k = some (m, g)
         ∧ messageBytes m ≤ g + 2048 ∧ messageDue s m ∧ postFor s m = some p)
       (fun s t => taken s t m p ∧ t.fab.inbound = Map.del s.fab.inbound k ∧ t.fab.lastGrant = src))
     ∧ (∀ k rank n src m g, happens .bulkGrant (.ids k rank n)
       (fun s => grantDue s k rank src ∧ s.fab.quiesced = none ∧ Map.find s.fab.deliveries k = none ∧ Map.find s.fab.inbound k = some (m, g)
         ∧ g + 2048 < messageBytes m)
       (fun s t => t = { s with
         fab := { s.fab with inbound := Map.put s.fab.inbound k (m, g + 2048), lastGrant := src }, out := s.out ++ [.grant k 1] }))
     ∧ (∀ k i j op old q r pay bad m p, happens .messageArrival (.ids k i j)
       (fun s => Map.find s.fab.sends k = some op ∧ op.payload = some old ∧ op.seq = some q ∧ op.ddev = Config.ownDevice ∧ op.sent = false
         ∧ (if op.len ≤ 65536 then readAgain s op else (s, some old, none)) = (r, some pay, bad) ∧ bad = none
         ∧ m = { src := Config.ownDevice, ctx := BitVec.ofNat 16 op.ctx, tag := op.tag, seq := BitVec.ofNat 16 q, ebits := pay.1, rows := pay.2 }
         ∧ comesAtOnce m ∧ messageDue r m ∧ postFor r m = some p)
       (fun _ t => taken r t m p ∧ Map.find t.fab.sends k = some { op with sent := true }))
     ∧ (∀ k i j op old q r pay bad, happens .messageArrival (.ids k i j)
       (fun s => Map.find s.fab.sends k = some op ∧ op.payload = some old ∧ op.seq = some q ∧ op.ddev = Config.ownDevice ∧ op.sent = false
         ∧ op.len ≤ 65536 ∧ readAgain s op = (r, pay, some bad))
       (fun s t => t = { r with fab := { r.fab with sends := Map.put s.fab.sends k { op with fate := some (5, 0), payload := none } } }))
     ∧ (∀ i j n m p, happens .heldMessageReoffer (.ids i j n)
       (fun s => s.fab.held[i]? = some m ∧ s.fab.held.filter (fun h => h.src == m.src && h.ctx == m.ctx) = [m]
         ∧ expectedSeq s m.src m.ctx.toNat = m.seq.toNat ∧ postFor s m = some p)
       (fun s t => taken s t m p ∧ t.fab.held = s.fab.held.erase m))
     ∧ ∀ i j n m, idle .heldMessageReoffer (.ids i j n) (fun s => s.fab.held[i]? = some m
         ∧ ∀ h ∈ s.fab.held, ¬(h.src = m.src ∧ h.ctx = m.ctx ∧ h.seq.toNat = expectedSeq s m.src m.ctx.toNat)))
  ∧ ((∀ k i j r, happens .recvPostTaken (.ids k i j)
       (fun s => requestDue s k 0 r ∧ recBits (ctxAt s r.ctx).words 13 15 0 ≤
         (s.fab.posts.filter (fun p => p.ctx == r.ctx)).length + (s.fab.deliveries.filter (fun d => d.2.post.ctx == r.ctx)).length)
       (fun s t => answered s t k r [0xFFFFFFFF] ∧ t.fab.posts = s.fab.posts ∧ t.mem = s.mem))
     ∧ (∀ k i j r, happens .recvPostTaken (.ids k i j)
       (fun s => requestDue s k 0 r ∧ (∃ n, n < 65536 ∧ n ∉ slotsUsed s)
         ∧ (s.fab.posts.filter (fun p => p.ctx == r.ctx)).length + (s.fab.deliveries.filter (fun d => d.2.post.ctx == r.ctx)).length
           < recBits (ctxAt s r.ctx).words 13 15 0)
       (fun s t => ∃ slot, slot < 65536 ∧ slot ∉ slotsUsed s ∧ (
         let reuse := match Map.find s.fab.reuse slot with
           | some n => (n + 1) % 2 ^ 15
           | none => 0
         let p : Post := { slot := slot, reuse := reuse, ctx := r.ctx, wg := r.wg, words := r.words, rec_ := r.rec_, idx := r.idx }
         answered s t k r [BitVec.ofNat 32 (slot + reuse * 65536)] ∧ t.mem = s.mem ∧ match messageFor s r.ctx r.words with
           | none => t.fab.posts = s.fab.posts ++ [p] ∧ t.fab.unexpected = s.fab.unexpected
           | some e => t.fab.posts = s.fab.posts ∧ t.fab.unexpected = s.fab.unexpected.erase e
               ∧ delivering t p e.1 (e.2 || decide (65536 < messageBytes e.1)))))
     ∧ (∀ k i j r, idle .recvPostTaken (.ids k i j) (fun s => Map.find s.fab.reqs k = some r ∧ r.kind = 0 ∧ recvTurn s k r = false))
     ∧ (∀ k i j r p, happens .recvCancelHandled (.ids k i j)
       (fun s => requestDue s k 1 r ∧ s.fab.posts.find? (fun p => p.ctx == r.ctx && p.slot + p.reuse * 65536 == (wordAt r.words 0).toNat) = some p
         ∧ (wordAt p.words 7).getLsbD 6 = false)
       (fun s t => answered s t k r [1] ∧ t.fab.posts = s.fab.posts.filter (fun q => q.slot != p.slot)
         ∧ statusWritten { s with fab := { s.fab with posts := s.fab.posts.filter (fun q => q.slot != p.slot) } } t p.wg (recAddr p.words 8)
             (statusWords 0 false 2 0 0 0)))
     ∧ (∀ k i j r, happens .recvCancelHandled (.ids k i j)
       (fun s => requestDue s k 1 r ∧ ∀ p ∈ s.fab.posts, ¬(p.ctx = r.ctx ∧ p.slot + p.reuse * 65536 = (wordAt r.words 0).toNat))
       (fun s t => answered s t k r [0] ∧ t.fab.posts = s.fab.posts ∧ t.mem = s.mem))
     ∧ (∀ k i j r e, happens .recvProbeResult (.ids k i j) (fun s => requestDue s k 2 r ∧ messageFor s r.ctx r.words = some e)
       (fun s t => answered s t k r (statusWords (messageBytes e.1) false 1 e.1.src e.1.tag e.1.seq.toNat)
         ∧ t.fab.unexpected = s.fab.unexpected ∧ t.mem = s.mem))
     ∧ ∀ k i j r, happens .recvProbeResult (.ids k i j) (fun s => requestDue s k 2 r ∧ messageFor s r.ctx r.words = none)
       (fun s t => answered s t k r [0, 0, 0, 0] ∧ t.fab.unexpected = s.fab.unexpected ∧ t.mem = s.mem))

/-- Deliveries land and end, with all that is left or one 4-byte unit at a time, so that of deliveries to the same bytes each unit has the value of either, and a
landing waits for an entry whose publish a core has still to apply: when every piece has landed, the entries that they were written through are published, and when every core has
applied the publishes the delivery ends with status 1 and the bytes landed; one that met poison ends with status 5 unpublished; when a piece meets a fault, or the formats differ, it ends with
record 0x21 subcode 2, but a page that is not present is asked for and waited for, and one that is not given ends it; a failure from outside
ends one too. What is announced is granted 2 KiB at a time, round-robin among the sources, no more of a pulled payload than lands; it lands when it has its grants, an own
eager one goes out when it has them, and of an own pulled one the bytes that each grant names do (R300, R309 to R311). These points are the model's inferences:
the page request of a delivery and its end without a page, and the first source of the round robin (log entry 40), and that an answer takes the places on the
way of a page (log entry 49). -/
def Obligations.Deliveries : Prop :=
  (∀ k i j d ps r q x, i ≠ 1 → happens .deliveryCompletion (.ids k i j)
    (fun s => Map.find s.fab.deliveries k = some d ∧ d.pieces = some ps ∧ ps ≠ [] ∧ layBits d.post.rec_ = d.msg.ebits ∧ d.pulled = false ∧ d.asked = false
      ∧ landPieces d.post.wg ps d.len d.entries s = (r, q) ∧ q.fault = none ∧ q.rest = [] ∧ d.bad = false ∧ publishAll r q.entries = x ∧ pubsDone x.1 x.2 = false)
    (fun _ t => t.mem = x.1.mem ∧ t.pubs = x.1.pubs
      ∧ Map.find t.fab.deliveries k = some { d with pieces := some [], len := q.len, entries := q.entries, pubs := x.2 }))
  ∧ (∀ k i j d ps now r q, happens .deliveryCompletion (.ids k i j)
    (fun s => Map.find s.fab.deliveries k = some d ∧ d.pieces = some ps ∧ ps ≠ [] ∧ layBits d.post.rec_ = d.msg.ebits ∧ d.pulled = false ∧ d.asked = false
      ∧ now = (if i = 1 then firstUnit ps else (ps, [])) ∧ landPieces d.post.wg now.1 d.len d.entries s = (r, q) ∧ q.fault = none
      ∧ (q.rest ≠ [] ∨ now.2 ≠ []))
    (fun _ t => t.mem = r.mem ∧ t.pubs = r.pubs
      ∧ Map.find t.fab.deliveries k = some { d with pieces := some (q.rest ++ now.2), len := q.len, entries := q.entries, pubs := [] }))
  ∧ (∀ ps, (∀ p ∈ ps, 1 ≤ p.n ∧ p.n ≤ 4 ∧ p.ea.toNat % p.n = 0) → (firstUnit ps).1 ++ (firstUnit ps).2 = ps
      ∧ (ps ≠ [] → (firstUnit ps).1 ≠ []) ∧ ∀ p ∈ (firstUnit ps).1, ∀ q ∈ (firstUnit ps).1, p.ea.toNat / 4 = q.ea.toNat / 4)
  ∧ (∀ k i j d ps r q, i ≠ 1 → happens .deliveryCompletion (.ids k i j)
    (fun s => Map.find s.fab.deliveries k = some d ∧ d.pieces = some ps ∧ ps ≠ [] ∧ layBits d.post.rec_ = d.msg.ebits ∧ d.pulled = false ∧ d.asked = false
      ∧ landPieces d.post.wg ps d.len d.entries s = (r, q) ∧ q.fault = none ∧ q.rest = [] ∧ d.bad = true)
    (fun _ t => Map.find t.fab.deliveries k = none ∧ t.pubs = r.pubs
      ∧ statusWritten r t d.post.wg (recAddr d.post.words 8) (statusWords q.len d.trunc 5 d.msg.src d.msg.tag d.msg.seq.toNat)))
  ∧ (∀ k i j d, happens .deliveryCompletion (.ids k i j)
    (fun s => Map.find s.fab.deliveries k = some d ∧ d.pieces = some [] ∧ pubsDone s d.pubs = true)
    (fun s t => Map.find t.fab.deliveries k = none
      ∧ statusWritten s t d.post.wg (recAddr d.post.words 8) (statusWords d.len d.trunc 1 d.msg.src d.msg.tag d.msg.seq.toNat)
      ∧ ((wordAt d.post.words 7).getLsbD 6 = true → d.post.wg < s.wgs.length → (wgAt s d.post.wg).status = 0 →
          statusHere s d.post.wg (recAddr d.post.words 8) → (wgAt t d.post.wg).tags = (wgAt s d.post.wg).tags ||| (1#64 <<< recBits d.post.words 7 5 0))))
  ∧ (∀ k i j d ps r q f, i ≠ 1 → happens .deliveryCompletion (.ids k i j)
    (fun s => Map.find s.fab.deliveries k = some d ∧ d.pieces = some ps ∧ ps ≠ [] ∧ layBits d.post.rec_ = d.msg.ebits ∧ d.pulled = false ∧ d.asked = false
      ∧ landPieces d.post.wg ps d.len d.entries s = (r, q) ∧ q.fault = some f)
    (fun _ t => if f.1 = (0x10, 1) then t.mem = r.mem ∧ Map.find t.fab.deliveries k =
          some { d with pieces := some q.rest, len := q.len, entries := q.entries, pubs := [], asked := true }
        ∧ (∃ x ∈ t.pageReqs, x.2 = { wg := d.post.wg, ctx := d.post.ctx, addr := f.2, rec_ := [], delivery := some k })
      else Map.find t.fab.deliveries k = none ∧ hasRecord t 0x21 2))
  ∧ (∀ k i j d, happens .deliveryCompletion (.ids k i j)
    (fun s => Map.find s.fab.deliveries k = some d ∧ d.pieces = none ∧ d.asked = false ∧ layBits d.post.rec_ ≠ d.msg.ebits)
    (fun _ t => Map.find t.fab.deliveries k = none ∧ hasRecord t 0x21 2))
  ∧ (∀ k i j d, idle .deliveryCompletion (.ids k i j)
    (fun s => Map.find s.fab.deliveries k = some d ∧ d.pieces = some [] ∧ pubsDone s d.pubs = false))
  ∧ (∀ k code d, happens .deliveryFailure (.failure k (.landing code)) (fun s => Map.find s.fab.deliveries k = some d ∧ d.pieces ≠ some [])
    (fun _ t => Map.find t.fab.deliveries k = none ∧ hasRecord t 0x21 2))
  ∧ (∀ k d, happens .deliveryFailure (.failure k .poison) (fun s => Map.find s.fab.deliveries k = some d ∧ d.pieces ≠ some [])
    (fun s t => if d.msg.src = Config.ownDevice then t = s else Map.find t.fab.deliveries k = none
      ∧ statusWritten s t d.post.wg (recAddr d.post.words 8) (statusWords d.len d.trunc 5 d.msg.src d.msg.tag d.msg.seq.toNat)))
  ∧ (∀ k d, happens .deliveryFailure (.failure k .sourceLost) (fun s => Map.find s.fab.deliveries k = some d ∧ d.pieces ≠ some [])
    (fun s t => if d.pulled = false ∨ d.msg.src = Config.ownDevice then t = s else Map.find t.fab.deliveries k = none
      ∧ statusWritten s t d.post.wg (recAddr d.post.words 8) (statusWords d.len d.trunc 3 d.msg.src d.msg.tag d.msg.seq.toNat)))
  ∧ (∀ k why d, idle .deliveryFailure (.failure k why) (fun s => Map.find s.fab.deliveries k = some d ∧ d.pieces = some []))
  ∧ (∀ k i j d, idle .deliveryCompletion (.ids k i j) (fun s => Map.find s.fab.deliveries k = some d ∧ d.pieces ≠ some [] ∧ d.asked = true))
  ∧ (∀ k p d x, happens .pageRequestResponse (.page k none)
    (fun s => Map.find s.pageReqs k = some p ∧ p.delivery = some d ∧ Map.find s.fab.deliveries d = some x)
    (fun s t => Map.find t.pageReqs k = none ∧ Map.find t.fab.deliveries d = none ∧ hasRecord t 0x21 2
      ∧ statusWritten { s with pageReqs := Map.del s.pageReqs k } t x.post.wg (recAddr x.post.words 8)
          (statusWords x.len x.trunc 4 x.msg.src x.msg.tag x.msg.seq.toNat)))
  ∧ (∀ k i j d ps, idle .deliveryCompletion (.ids k i j)
    (fun s => Map.find s.fab.deliveries k = some d ∧ d.pieces = some ps ∧ ps ≠ [] ∧ d.asked = false ∧ d.pulled = true
      ∧ layBits d.post.rec_ = d.msg.ebits ∧ d.granted < d.len + (ps.map (fun p => p.lane)).sum))
  ∧ (∀ k rank n src d, happens .bulkGrant (.ids k rank n)
    (fun s => grantDue s k rank src ∧ s.fab.quiesced = none ∧ Map.find s.fab.deliveries k = some d)
    (fun s t => t = { s with
      fab := { s.fab with deliveries := Map.put s.fab.deliveries k { d with granted := d.granted + 2048 }, lastGrant := src }
      out := s.out ++ [.grant k 1] }))
  ∧ (∀ k rank n src c, happens .bulkGrant (.ids k rank n)
    (fun s => grantDue s k rank src ∧ s.fab.quiesced = none ∧ Map.find s.fab.deliveries k = none ∧ Map.find s.fab.inbound k = none
      ∧ Map.find s.fab.colls k = some c)
    (fun s t => t = { s with
      fab := { s.fab with
        colls := Map.put s.fab.colls k { c with granted := Map.put c.granted rank (Map.getD c.granted rank 0 + 2048) }, lastGrant := src }
      out := s.out ++ [.grant k 1] }))
  ∧ (∀ k rank n, idle .bulkGrant (.ids k rank n) (fun s => ∀ src, ¬grantDue s k rank src))
  ∧ (∀ k units op, happens .bulkGrant (.value k units)
    (fun s => Map.find s.fab.sends k = some op ∧ op.ddev ≠ Config.ownDevice ∧ op.sent = false ∧ op.fate = none ∧ keepsBack s (isPayloadOf k) = false
      ∧ op.len ≤ 65536 ∧ op.granted + 2048 * units.toNat < op.len)
    (fun s t => t = { s with fab := { s.fab with sends := Map.put s.fab.sends k { op with granted := op.granted + 2048 * units.toNat } } }))
  ∧ (∀ k units op bits rows bad r, happens .bulkGrant (.value k units)
    (fun s => Map.find s.fab.sends k = some op ∧ op.ddev ≠ Config.ownDevice ∧ op.sent = false ∧ op.fate = none ∧ s.fab.quiesced = none
      ∧ keepsBack s (isPayloadOf k) = false ∧ 65536 < op.len ∧ readAgain s op = (r, some (bits, rows), bad))
    (fun _ t =>
      let g := op.granted + 2048 * units.toNat
      let bad := op.poisoned.or bad
      t.out = r.out ++ [.message k (sliceRows bits op.granted g (cleanRows bad rows))] ∧ t.mem = r.mem
        ∧ Map.find t.fab.sends k = some { op with granted := g, poisoned := bad, sent := decide (op.len ≤ g) }))
  ∧ ∀ k units op bits rows r, happens .bulkGrant (.value k units)
    (fun s => Map.find s.fab.sends k = some op ∧ op.ddev ≠ Config.ownDevice ∧ op.sent = false ∧ op.fate = none ∧ s.fab.quiesced = none
      ∧ keepsBack s (isPayloadOf k) = false ∧ 256 < op.len ∧ op.len ≤ 65536 ∧ op.len ≤ op.granted + 2048 * units.toNat
      ∧ readAgain (withSend s k { op with granted := op.granted + 2048 * units.toNat }) { op with granted := op.granted + 2048 * units.toNat }
          = (r, some (bits, rows), none))
    (fun _ t => t.out = r.out ++ [.message k rows] ∧ t.mem = r.mem
      ∧ Map.find t.fab.sends k = some { op with granted := op.granted + 2048 * units.toNat, sent := true })

/-- Collectives run and end: signatures are collected, and when all are there the own tile is announced, and sent as it is granted, or a
difference or poison ends the collective; the result is written from all tiles, once their bytes are granted, and acknowledged; the last
acknowledgement publishes the entries written, and the collective completes when every core has applied that; a lost member, or a timeout where
one is set, ends it, but not during a remap (R300, R315, R319, R322, R323). Each member gets the part of the tile that it grants. A communicator that this device
is a member of gets the highest contract that every member supports, this device by its `NCAPV` (R316). Which fields a signature compares, the record of one
that ends by poison (0x22 with subcode 0), what another member's grant names and how its tile comes, and what a set-up names, are the model's inferences (log
entry 41); what is small leaves when the window has room, by its reading of R300 (log entry 87). -/
def Obligations.CollectivesRun : Prop :=
  (∀ k rank sig c, happens .collectiveSignatureArrival (.signature k rank sig)
    (fun s => Map.find s.fab.colls k = some c ∧ rank ∈ c.group ∧ Map.find c.sigs rank = none ∧ ∃ r ∈ c.group, r ≠ rank ∧ Map.find c.sigs r = none)
    (fun s t => t = { s with fab := { s.fab with colls := Map.put s.fab.colls k { c with sigs := Map.put c.sigs rank sig } } }))
  ∧ (∀ k rank sig c, happens .collectiveSignatureArrival (.signature k rank sig)
    (fun s => Map.find s.fab.colls k = some c ∧ c.own = none ∧ rank ∈ c.group ∧ Map.find c.sigs rank = none
      ∧ (∀ r ∈ c.group, r ≠ rank → (Map.find c.sigs r).isSome = true) ∧ ∃ r ∈ c.group, r ≠ rank ∧ Map.find c.sigs r ≠ some sig)
    (fun _ t => collOver t k 2))
  ∧ (∀ k rank sig c c' r tile, c' = { c with sigs := Map.put c.sigs rank sig } → happens .collectiveSignatureArrival (.signature k rank sig)
    (fun s => Map.find s.fab.colls k = some c ∧ c.own = none ∧ rank ∈ c.group ∧ Map.find c.sigs rank = none
      ∧ (∀ r ∈ c.group, r ≠ rank → Map.find c.sigs r = some sig)
      ∧ collTile { s with fab := { s.fab with colls := Map.put s.fab.colls k c' } } c' = (r, some (tile, false)))
    (fun _ t => .announce k (tileBytes c) ∈ outgoing t ∧ Map.find t.fab.colls k = some { c' with own := some tile } ∧ t.mem = r.mem))
  ∧ (∀ k rank sig c c' r tile, c' = { c with sigs := Map.put c.sigs rank sig } → happens .collectiveSignatureArrival (.signature k rank sig)
    (fun s => Map.find s.fab.colls k = some c ∧ c.own = none ∧ rank ∈ c.group ∧ Map.find c.sigs rank = none
      ∧ (∀ r ∈ c.group, r ≠ rank → Map.find c.sigs r = some sig)
      ∧ collTile { s with fab := { s.fab with colls := Map.put s.fab.colls k c' } } c' = (r, some (tile, true)))
    (fun _ t => collOver t k 0))
  ∧ (∀ k tiles c tile ps r u q, happens .collectiveBackWritten (.tiles k tiles)
    (fun s =>
      let all := (c.rank, tile) :: tiles.filter (fun t => t.1 != c.rank)
      Map.find s.fab.colls k = some c ∧ c.own = some tile ∧ c.written = none
        ∧ (∀ r ∈ c.group, ∃ x ∈ all, x.1 = r ∧ x.2.length = tile.length)
        ∧ (∀ r ∈ c.group, r ≠ c.rank → tileBytes c ≤ Map.getD c.granted r 0)
        ∧ collPieces s c (collParts c (((Map.find s.fab.comms c.comm).map (fun m => m.contract)) == some 1) all) = (r, .ok ps)
        ∧ landPieces c.wg ps 0 [] r = (u, q) ∧ q.fault = none ∧ q.rest = [])
    (fun _ t => t.mem = u.mem ∧ .collAck k ∈ outgoing t
      ∧ Map.find t.fab.colls k = some { c with written := some (collBytes c.dst.1 q.len), entries := q.entries }))
  ∧ (∀ k rank n c, happens .collectiveBackWritten (.ids k rank n)
    (fun s => Map.find s.fab.colls k = some c ∧ c.own.isSome = true ∧ rank ∈ c.group ∧ rank ≠ c.rank ∧ rank ∉ c.acks) (fun _ t => collOver t k 0))
  ∧ (∀ k tiles c, idle .collectiveBackWritten (.tiles k tiles) (fun s => Map.find s.fab.colls k = some c
      ∧ (c.own = none ∨ ∃ r ∈ c.group, r ≠ c.rank ∧ Map.getD c.granted r 0 < tileBytes c)))
  ∧ (∀ k rank units c tile, happens .bulkGrant (.nats [k, rank, units])
    (fun s => Map.find s.fab.colls k = some c ∧ c.own = some tile ∧ rank ∈ c.group ∧ rank ≠ c.rank ∧ keepsBack s (isPayloadOf k) = false
      ∧ s.fab.quiesced = none)
    (fun s t =>
      let lo := Map.getD c.given rank 0
      let hi := lo + 2048 * units
      let bits := layBits c.src.1
      let part := (tile.take (hi * 8 / bits)).drop (lo * 8 / bits)
      t = { s with
        fab := { s.fab with colls := Map.put s.fab.colls k { c with given := Map.put c.given rank hi } }
        out := s.out ++ (if part = [] then [] else [.collectiveData k rank part]) }))
  ∧ (∀ k rank n c, happens .collectiveAckArrival (.ids k rank n)
    (fun s => Map.find s.fab.colls k = some c ∧ rank ∈ c.group ∧ rank ≠ c.rank ∧ ∃ r ∈ c.group, r ≠ rank ∧ r ∉ c.acks)
    (fun s t => t = { s with fab := { s.fab with colls := Map.put s.fab.colls k { c with acks := (c.acks ++ [rank]).dedup } } }))
  ∧ (∀ k rank n c len x, happens .collectiveAckArrival (.ids k rank n)
    (fun s => Map.find s.fab.colls k = some c ∧ rank ∈ c.group ∧ c.written = some len ∧ (∀ r ∈ c.group, r ≠ rank → r ∈ c.acks) ∧ c.pubs = []
      ∧ publishAll s c.entries = x ∧ pubsDone x.1 x.2 = false)
    (fun _ t => t.mem = x.1.mem ∧ t.pubs = x.1.pubs
      ∧ Map.find t.fab.colls k = some { c with acks := (c.acks ++ [rank]).dedup, pubs := x.2, entries := [] }))
  ∧ (∀ k rank n c len, happens .collectiveAckArrival (.ids k rank n)
    (fun s => Map.find s.fab.colls k = some c ∧ rank ∈ c.group ∧ c.written = some len ∧ (∀ r ∈ c.group, r ≠ rank → r ∈ c.acks)
      ∧ c.entries = [] ∧ pubsDone s c.pubs = true ∧ c.kindBar = false ∧ c.wg < s.wgs.length ∧ (wgAt s c.wg).status = 0
      ∧ statusHere s c.wg (collStat c.shape))
    (fun s t => Map.find t.fab.colls k = none ∧ (wgAt t c.wg).tags = (wgAt s c.wg).tags ||| (1#64 <<< c.x)))
  ∧ (∀ k i j c, happens .collectiveHeartbeat (.ids k i j) (fun s => Map.find s.fab.colls k = some c)
    (fun s t => t = { s with out := t.out, fab := { s.fab with waitOut := t.fab.waitOut, heldOut := t.fab.heldOut } } ∧ .heartbeat k ∈ outgoing t))
  ∧ (∀ k rank n c, happens .memberLost (.ids k rank n)
    (fun s => Map.find s.fab.colls k = some c ∧ s.fab.quiesced = none ∧ rank ∈ c.group ∧ rank ≠ c.rank ∧ rank ∉ c.acks) (fun _ t => collOver t k 1))
  ∧ (∀ k rank n c, idle .memberLost (.ids k rank n)
    (fun s => Map.find s.fab.colls k = some c ∧ (s.fab.quiesced.isSome = true ∨ rank ∉ c.group ∨ rank ∈ c.acks)))
  ∧ (∀ k i j c m, happens .collectiveTimeout (.ids k i j)
    (fun s => Map.find s.fab.colls k = some c ∧ Map.find s.fab.comms c.comm = some m ∧ m.timeout ≠ 0 ∧ s.fab.quiesced = none
      ∧ ∃ r ∈ c.group, r ∉ c.acks) (fun _ t => collOver t k 6))
  ∧ (∀ k i j c, idle .collectiveTimeout (.ids k i j)
    (fun s => Map.find s.fab.colls k = some c ∧ (s.fab.quiesced.isSome = true ∨ (∀ m, Map.find s.fab.comms c.comm = some m → m.timeout = 0)
      ∨ ∀ r ∈ c.group, r ∈ c.acks)))
  ∧ (∀ e, idle .communicatorSetup (.comm e) (fun _ => Config.ownDevice ∉ e.members ∨ e.members.length ≠ e.adverts.length))
  ∧ ∀ e n, happens .communicatorSetup (.comm e)
    (fun _ => Config.ownDevice ∈ e.members ∧ e.members.length = e.adverts.length ∧ e.members.length ≤ 1024 ∧ e.members.Nodup ∧ n < 16
      ∧ (∀ i, i < e.members.length → memberSupports e i n) ∧ ∀ j, n < j → j < 16 → ∃ i, i < e.members.length ∧ ¬memberSupports e i j)
    (fun s t =>
      let c : Comm := { ctx := e.ctx.toNat, members := e.members, contract := n, tempo := e.tempo, timeout := e.timeout.toNat, seq := 0 }
      t = { s with fab := { s.fab with comms := Map.put s.fab.comms e.id.toNat c } })
end

