-- ==== Sys2Proof/Laws/Store.lean ====
section
/-! SUPPORT. Laws of finite maps, of memory's canonical form, and of lists changed at one place. -/

namespace Sys2Proof.Machine

variable {α : Type}

/-! Maps. -/

@[simp] theorem Map.find_put_self (m : Map α) (k : Nat) (v : α) : Map.find (Map.put m k v) k = some v := by
  induction m with
  | nil => simp [Map.put, Map.find]
  | cons p m ih =>
    obtain ⟨j, x⟩ := p
    unfold Map.put
    split
    · simp [Map.find]
    · split
      · simp [Map.find]
      · simp_all [Map.find]

theorem Map.find_put_ne (m : Map α) (k j : Nat) (v : α) (h : j ≠ k) : Map.find (Map.put m k v) j = Map.find m j := by
  induction m with
  | nil => simp [Map.put, Map.find, Ne.symm h]
  | cons p m ih =>
    obtain ⟨i, x⟩ := p
    unfold Map.put
    split
    · subst_vars
      simp [Map.find, Ne.symm h]
    · split
      · simp [Map.find, Ne.symm h]
      · simp [Map.find, ih]

@[simp] theorem Map.getD_put_self (m : Map α) (k : Nat) (v d : α) : Map.getD (Map.put m k v) k d = v := by
  simp [Map.getD]

theorem Map.getD_put_ne (m : Map α) (k j : Nat) (v d : α) (h : j ≠ k) : Map.getD (Map.put m k v) j d = Map.getD m j d := by
  simp [Map.getD, Map.find_put_ne m k j v h]

theorem Map.find_del (m : Map α) (k j : Nat) : Map.find (Map.del m k) j = if j = k then none else Map.find m j := by
  induction m with
  | nil => simp [Map.del, Map.find]
  | cons p m ih =>
    obtain ⟨i, x⟩ := p
    unfold Map.del at ih ⊢
    by_cases hi : i = k
    · subst hi
      by_cases hj : j = i
      · subst hj
        simpa using ih
      · simp [Map.find, hj, Ne.symm hj, ih]
    · by_cases hj : j = k
      · subst hj
        simp [hi, Map.find, ih]
      · by_cases hij : i = j
        · subst hij
          simp [hi, Map.find]
        · simp [hi, hj, hij, Map.find, ih]

/-- What `Map.put` can put into a list. -/
theorem Map.mem_put (m : Map α) (k : Nat) (v : α) (p : Nat × α) (h : p ∈ Map.put m k v) : p = (k, v) ∨ p ∈ m := by
  induction m with
  | nil => simpa [Map.put] using h
  | cons q m ih =>
    obtain ⟨j, x⟩ := q
    unfold Map.put at h
    split at h
    · simp only [List.mem_cons] at h ⊢
      tauto
    · split at h
      · simp only [List.mem_cons] at h ⊢
        tauto
      · simp only [List.mem_cons] at h ⊢
        rcases h with h | h
        · exact .inr (.inl h)
        · rcases ih h with h | h
          · exact .inl h
          · exact .inr (.inr h)

/-- `Map.put` keeps the keys rising. -/
theorem Map.put_rising (m : Map α) (k : Nat) (v : α) (h : m.Pairwise (fun p q => p.1 < q.1)) :
    (Map.put m k v).Pairwise (fun p q => p.1 < q.1) := by
  induction m with
  | nil => simp [Map.put]
  | cons q m ih =>
    obtain ⟨j, x⟩ := q
    have hm := List.pairwise_cons.1 h
    unfold Map.put
    split
    · subst_vars
      exact List.pairwise_cons.2 ⟨hm.1, hm.2⟩
    · split
      · refine List.pairwise_cons.2 ⟨?_, h⟩
        intro p hp
        rcases List.mem_cons.1 hp with rfl | hp
        · assumption
        · have := hm.1 p hp
          simp only at this ⊢
          omega
      · refine List.pairwise_cons.2 ⟨?_, ih hm.2⟩
        intro p hp
        rcases Map.mem_put m k v p hp with rfl | hp
        · simp only
          omega
        · exact hm.1 p hp

/-! Memory. -/

/-- A write keeps the canonical form. -/
theorem Memory.write_wf (m : Memory) (a : Nat) (b : Byte) (h : Memory.wf m) : Memory.wf (Memory.write m a b) := by
  unfold Memory.write
  split
  · exact ⟨h.1.filter _, fun p hp => h.2 p (List.mem_of_mem_filter hp)⟩
  · refine ⟨Map.put_rising m a b h.1, fun p hp => ?_⟩
    rcases Map.mem_put m a b p hp with rfl | hp
    · assumption
    · exact h.2 p hp

/-- A write of several bytes keeps the canonical form. -/
theorem Memory.writeAll_wf (bs : List Byte) : ∀ (m : Memory) (a : Nat), Memory.wf m → Memory.wf (Memory.writeAll m a bs) := by
  induction bs with
  | nil => intro m a h; exact h
  | cons b bs ih => intro m a h; exact ih _ _ (Memory.write_wf m a b h)

theorem Memory.wf_nil : Memory.wf [] := ⟨List.Pairwise.nil, by simp⟩

@[simp] theorem Memory.read_write_self (m : Memory) (a : Nat) (b : Byte) : Memory.read (Memory.write m a b) a = b := by
  unfold Memory.write Memory.read
  split
  · subst_vars
    simp [Map.getD, Map.find_del]
  · simp

theorem Memory.read_write_ne (m : Memory) (a c : Nat) (b : Byte) (h : c ≠ a) :
    Memory.read (Memory.write m a b) c = Memory.read m c := by
  unfold Memory.write Memory.read
  split
  · simp [Map.getD, Map.find_del, h]
  · exact Map.getD_put_ne m a c b _ h

/-- What a byte reads as after a write of several bytes. -/
theorem Memory.read_writeAll (bs : List Byte) : ∀ (m : Memory) (a c : Nat),
    Memory.read (Memory.writeAll m a bs) c = if a ≤ c ∧ c < a + bs.length then bs.getD (c - a) 0 else Memory.read m c := by
  induction bs with
  | nil =>
    intro m a c
    have h : ¬(a ≤ c ∧ c < a + 0) := by omega
    simp only [Memory.writeAll, List.length_nil, if_neg h]
  | cons b bs ih =>
    intro m a c
    simp only [Memory.writeAll, ih, List.length_cons]
    by_cases hc : c = a
    · subst hc
      simp
    · rw [Memory.read_write_ne m a c b hc]
      by_cases h1 : a + 1 ≤ c ∧ c < a + 1 + bs.length
      · have h2 : a ≤ c ∧ c < a + (bs.length + 1) := by omega
        have h3 : c - a = (c - (a + 1)) + 1 := by omega
        rw [if_pos h1, if_pos h2, h3]
        simp
      · have h2 : ¬(a ≤ c ∧ c < a + (bs.length + 1)) := by omega
        rw [if_neg h1, if_neg h2]

theorem Memory.readAll_length (m : Memory) (a n : Nat) : (Memory.readAll m a n).length = n := by simp [Memory.readAll]

theorem Memory.readAll_getD (m : Memory) (a n i : Nat) (h : i < n) : (Memory.readAll m a n).getD i 0 = Memory.read m (a + i) := by
  simp [Memory.readAll, h]

/-! Bytes and numbers (R1). -/

theorem leBytes_length (n : Nat) : ∀ x, (leBytes n x).length = n := by
  induction n with
  | zero => intro x; rfl
  | succ n ih => intro x; simp [leBytes, ih]

theorem leNat_leBytes (n : Nat) : ∀ x, leNat (leBytes n x) = x % 256 ^ n := by
  induction n with
  | zero => intro x; simp [leBytes, leNat, Nat.mod_one]
  | succ n ih =>
    intro x
    simp only [leBytes, leNat, ih, BitVec.toNat_ofNat]
    have h : (256 : Nat) ^ (n + 1) = 256 * 256 ^ n := by rw [Nat.pow_succ, Nat.mul_comm]
    rw [h, Nat.mod_mul]

/-! Lists changed at one place. -/

@[simp] theorem modAt_length (l : List α) : ∀ (i : Nat) (f : α → α), (modAt l i f).length = l.length := by
  induction l with
  | nil => intro i f; rfl
  | cons x xs ih =>
    intro i f
    cases i with
    | zero => rfl
    | succ n => simp [modAt, ih]

theorem modAt_getD_self (l : List α) : ∀ (i : Nat) (f : α → α) (d : α), i < l.length → (modAt l i f).getD i d = f (l.getD i d) := by
  induction l with
  | nil => intro i f d h; simp at h
  | cons x xs ih =>
    intro i f d h
    cases i with
    | zero => rfl
    | succ n => simpa [modAt] using ih n f d (by simpa using h)

theorem modAt_getD_ne (l : List α) : ∀ (i j : Nat) (f : α → α) (d : α), j ≠ i → (modAt l i f).getD j d = l.getD j d := by
  induction l with
  | nil => intro i j f d h; rfl
  | cons x xs ih =>
    intro i j f d h
    cases i with
    | zero =>
      cases j with
      | zero => exact absurd rfl h
      | succ m => rfl
    | succ n =>
      cases j with
      | zero => rfl
      | succ m => simpa [modAt] using ih n m f d (by omega)

theorem modAt_of_length_le (l : List α) : ∀ (i : Nat) (f : α → α), l.length ≤ i → modAt l i f = l := by
  induction l with
  | nil => intro i f h; rfl
  | cons x xs ih =>
    intro i f h
    cases i with
    | zero => simp at h
    | succ n => simpa [modAt] using ih n f (by simpa using h)

theorem modAt_modAt (l : List α) : ∀ (i : Nat) (f g : α → α), modAt (modAt l i f) i g = modAt l i (fun x => g (f x)) := by
  induction l with
  | nil => intro i f g; rfl
  | cons x xs ih =>
    intro i f g
    cases i with
    | zero => rfl
    | succ n => simp [modAt, ih]

/-! Masks of lanes. -/

theorem maskOf_foldl (f : Nat → Bool) (k : Nat) :
    (List.range k).foldl (fun n l => n + if f l then 2 ^ l else 0) 0 < 2 ^ k
      ∧ ∀ i, i < k → ((List.range k).foldl (fun n l => n + if f l then 2 ^ l else 0) 0).testBit i = f i := by
  induction k with
  | zero => simp
  | succ k ih =>
    rw [List.range_succ, List.foldl_append]
    simp only [List.foldl_cons, List.foldl_nil]
    refine ⟨?_, fun i hi => ?_⟩
    · have := ih.1
      split <;> rw [pow_succ] <;> omega
    · by_cases hk : i = k
      · subst hk
        cases hf : f i
        · simpa using Nat.testBit_lt_two_pow ih.1
        · rw [if_pos rfl, add_comm, Nat.testBit_two_pow_add_eq, Nat.testBit_lt_two_pow ih.1]
          rfl
      · have hlt : i < k := by omega
        cases hf : f k
        · simpa using ih.2 i hlt
        · rw [if_pos rfl, add_comm, Nat.testBit_two_pow_add_gt hlt]
          exact ih.2 i hlt

/-- A lane is in a mask built from a test exactly when the test holds of it. -/
@[simp] theorem inMask_maskOf (f : Nat → Bool) (l : Nat) (h : l < 32) : inMask (maskOf f) l = f l := by
  unfold inMask maskOf
  rw [BitVec.getLsbD_ofNat]
  simp [h, (maskOf_foldl f 32).2 l h]

theorem inMask_lt (m : BitVec 32) (l : Nat) (h : inMask m l = true) : l < 32 := by
  by_contra hl
  unfold inMask at h
  rw [BitVec.getLsbD_of_ge m l (by omega)] at h
  exact Bool.noConfusion h

@[simp] theorem inMask_and (m n : BitVec 32) (l : Nat) : inMask (m &&& n) l = (inMask m l && inMask n l) := by simp [inMask]
@[simp] theorem inMask_or (m n : BitVec 32) (l : Nat) : inMask (m ||| n) l = (inMask m l || inMask n l) := by simp [inMask]
@[simp] theorem inMask_not (m : BitVec 32) (l : Nat) (h : l < 32) : inMask (~~~m) l = !inMask m l := by simp [inMask, h]
@[simp] theorem inMask_zero (l : Nat) : inMask 0#32 l = false := by simp [inMask]

theorem mem_lanesOf (m : BitVec 32) (l : Nat) : l ∈ lanesOf m ↔ l < 32 ∧ inMask m l = true := by simp [lanesOf]

/-- Two masks with the same lanes are equal. -/
theorem mask_ext (m n : BitVec 32) (h : ∀ l, l < 32 → inMask m l = inMask n l) : m = n :=
  BitVec.eq_of_getLsbD_eq (fun i hi => h i hi)

end Sys2Proof.Machine
end

