-- ==== Sys2Proof/Laws/Memory.lean ====
section
/-! SUPPORT. Every operation that changes memory keeps its canonical form, and what a byte reads as after a write. -/

namespace Sys2Proof.Machine

theorem State.reset_mem_wf : Memory.wf State.reset.mem := Memory.wf_nil

theorem physWrite_wf (s : State) (pa : Nat) (bs : List Byte) (h : Memory.wf s.mem) : Memory.wf (physWrite s pa bs).mem := by
  unfold physWrite
  split
  · exact Memory.writeAll_wf _ _ _ h
  · exact h

theorem keyLine_wf (s : State) (line key : Nat) (h : Memory.wf s.mem) : Memory.wf (keyLine s line key).mem := by
  unfold keyLine
  split
  · exact h
  · split
    · exact h
    · exact Memory.writeAll_wf _ _ _ h

theorem homeWrite_wf (s : State) (a key : Nat) (bs : List Byte) (h : Memory.wf s.mem) : Memory.wf (homeWrite s a key bs).mem :=
  Memory.writeAll_wf _ _ _ (keyLine_wf s (lineOf a) key h)

theorem loseDies_wf (s : State) : Memory.wf (loseDies s).mem := Memory.wf_nil

theorem placeWords_wf (s : State) (hdr w : Word) (h : Memory.wf s.mem) : Memory.wf (placeWords s hdr w).mem := by
  unfold placeWords
  generalize localLoc placedAt = l
  cases l with
  | none => exact h
  | some l =>
    dsimp only
    exact Memory.writeAll_wf _ s.mem l h

theorem placeWord_mem (s : State) (w : Word) :
    (placeWord s w).mem = (placeWords s (placedHeader (((tableInstr w).map (fun p => p.1)).getD .ctl)) w).mem := by
  unfold placeWord
  generalize ((tableInstr w).map (fun p => p.1)).getD .ctl = c
  dsimp only
  generalize placeWords s (placedHeader c) w = t
  split
  · simp only [modCe, modCore]
  · simp only []

theorem placeWord_wf (s : State) (w : Word) (h : Memory.wf s.mem) : Memory.wf (placeWord s w).mem := by
  rw [placeWord_mem]
  exact placeWords_wf s _ w h

theorem withFetchWord_wf (s : State) (nbits w : Nat) (h : Memory.wf s.mem) : Memory.wf (s.withFetchWord nbits w).mem := placeWord_wf s _ h

/-- A line that is under the key of the access stays as it is. -/
theorem keyLine_same (s : State) (line key : Nat) (h : Map.find s.lineKeys line = some key) : keyLine s line key = s := by
  simp [keyLine, recordedKey, h]

/-- A write at a home slice of a line under its key changes the bytes it names and no others. -/
theorem homeWrite_mem (s : State) (a key : Nat) (bs : List Byte) (h : Map.find s.lineKeys (lineOf a) = some key) :
    (homeWrite s a key bs).mem = Memory.writeAll s.mem a bs := by
  simp [homeWrite, keyLine_same s (lineOf a) key h]

end Sys2Proof.Machine
end

