-- ==== Sys2Proof/Laws/Checks.lean ====
section
/-! SUPPORT. What the checks of an address may change: the translation caches, the line keys with the memory under them, and the counter of free values. -/

namespace Sys2Proof.Machine

/-- `t` is `s` but for the translation caches, the line keys with the memory under them, and the counter of free values. -/
def OnlyChecked (s t : State) : Prop :=
  t = { s with tlb := t.tlb, freeCtr := t.freeCtr, mem := t.mem, lineKeys := t.lineKeys, keyBack := t.keyBack }

theorem OnlyChecked.refl (s : State) : OnlyChecked s s := rfl
theorem OnlyChecked.trans {s t r : State} (h : OnlyChecked s t) (k : OnlyChecked t r) : OnlyChecked s r := by
  unfold OnlyChecked at *
  rw [k, h]
theorem OnlyChecked.fab {s t : State} (h : OnlyChecked s t) : t.fab = s.fab := by rw [h]
theorem OnlyChecked.wgs {s t : State} (h : OnlyChecked s t) : t.wgs = s.wgs := by rw [h]
theorem OnlyChecked.cores {s t : State} (h : OnlyChecked s t) : t.cores = s.cores := by rw [h]
theorem OnlyChecked.ctxs {s t : State} (h : OnlyChecked s t) : t.ctxs = s.ctxs := by rw [h]
theorem OnlyChecked.launches {s t : State} (h : OnlyChecked s t) : t.launches = s.launches := by rw [h]
theorem OnlyChecked.queues {s t : State} (h : OnlyChecked s t) : t.queues = s.queues := by rw [h]
theorem OnlyChecked.plat {s t : State} (h : OnlyChecked s t) : t.plat = s.plat := by rw [h]

theorem tlbPut_checked (s : State) (u : Nat × Nat) (e : TlbEntry) : OnlyChecked s (tlbPut s u e) := by
  unfold tlbPut
  dsimp only
  split
  · rfl
  · split <;> rfl

theorem foldl_checked {α : Type} (f : State → α → State) (hf : ∀ s x, OnlyChecked s (f s x)) (l : List α) : ∀ s, OnlyChecked s (l.foldl f s) := by
  induction l with
  | nil => exact fun s => .refl s
  | cons x l ih => exact fun s => (hf s x).trans (ih _)

theorem tlbFill_checked (s : State) (core : Nat) (e : TlbEntry) : OnlyChecked s (tlbFill s core e) :=
  foldl_checked _ (fun s u => tlbPut_checked s u e) _ s

theorem translate_checked (s : State) (core ctx va : Nat) : OnlyChecked s (translate s core ctx va).1 := by
  unfold translate
  dsimp only
  split
  · rename_i e _
    have h := tlbFill_checked s core e
    split
    · split
      · exact h
      · exact h.trans rfl
    · split
      · exact h
      · exact h.trans rfl
  · split
    · exact .refl s
    · exact tlbFill_checked _ _ _

theorem access_checked (s : State) (core ctx : Nat) (phys : Bool) (va : BitVec 64) (k : Access) : OnlyChecked s (access s core ctx phys va k).1 := by
  unfold access
  dsimp only
  have h := translate_checked s core ctx va.toNat
  generalize translate s core ctx va.toNat = x at h ⊢
  obtain ⟨r, e | ⟨level, leaf⟩⟩ := x <;> dsimp only at h ⊢ <;> repeat' split
  all_goals first
    | exact .refl s
    | exact h

theorem keyLine_checked (s : State) (line key : Nat) : OnlyChecked s (keyLine s line key) := by
  unfold keyLine
  split
  · rfl
  · split <;> rfl

theorem engineGlobal_checked (s : State) (w : Nat) (va : BitVec 64) (wr : Bool) : OnlyChecked s (engineGlobal s w va wr).1 := by
  unfold engineGlobal
  have h := translate_checked s (wgAt s w).core (wgAt s w).ctx va.toNat
  dsimp only
  generalize translate s (wgAt s w).core (wgAt s w).ctx va.toNat = x at h ⊢
  obtain ⟨r, e | ⟨level, leaf⟩⟩ := x <;> dsimp only at h ⊢ <;> repeat' split
  all_goals first
    | exact .refl s
    | exact h

theorem touch_checked (s : State) (w : Nat) (e : Eng) (ea : BitVec 64) (n : Nat) (wr : Bool) : OnlyChecked s (touch s w e ea n wr).1 := by
  unfold touch
  dsimp only
  split
  · exact engineGlobal_checked s w ea wr
  · repeat' split
    all_goals exact .refl s

theorem engineBytes_checked (s : State) (core a n key : Nat) (b : Option BmtRef) : OnlyChecked s (engineBytes s core a n key b).1 := by
  unfold engineBytes
  dsimp only
  split
  · exact (keyLine_checked s _ _).trans rfl
  · exact keyLine_checked s _ _

theorem readSource_checked (s : State) (w core : Nat) (x : XAddr) (n : Nat) : OnlyChecked s (readSource s w core x n).1 := by
  unfold readSource
  split
  · rfl
  · rfl
  · exact engineBytes_checked _ _ _ _ _ _
  · split
    · exact engineBytes_checked _ _ _ _ _ _
    · rfl
  · rfl
  · unfold bufBytes
    split <;> rfl

theorem readWords_checked (s : State) (w : Nat) (e : Eng) (ea : BitVec 64) (n : Nat) : OnlyChecked s (readWords s w e ea n).1 := by
  unfold readWords
  have h := touch_checked s w e ea (4 * n) false
  generalize touch s w e ea (4 * n) false = x at h ⊢
  obtain ⟨r, f | ⟨y, c⟩⟩ := x <;> dsimp only at h ⊢
  · exact h
  · split
    · exact h
    · exact h.trans (readSource_checked _ _ _ _ _)

theorem readRec_checked (s : State) (w : Nat) (e : Eng) (ea : BitVec 64) : OnlyChecked s (readRec s w e ea).1 := by
  unfold readRec
  split
  · rfl
  · exact readWords_checked s w e ea 16

theorem readLay_checked (s : State) (w : Nat) (e : Eng) (ea : BitVec 64) : OnlyChecked s (readLay s w e ea).1 := by
  unfold readLay
  have h := readRec_checked s w e ea
  generalize readRec s w e ea = x at h ⊢
  obtain ⟨r, f | ⟨ws, c⟩⟩ := x <;> dsimp only at h ⊢
  · exact h
  · split
    · have k := readRec_checked r w e (BitVec.ofNat 64 (layLink ws))
      generalize readRec r w e (BitVec.ofNat 64 (layLink ws)) = x at k ⊢
      obtain ⟨r', f | ⟨xs, d⟩⟩ := x <;> dsimp only at k ⊢ <;> exact h.trans k
    · exact h

theorem locate_checked (s : State) (w : Nat) (e : Eng) (l : Lay) (coords : List Nat) : OnlyChecked s (locate s w e l coords).1 := by
  unfold locate
  generalize l.idx = i
  cases i with
  | none => exact .refl s
  | some xs =>
    show OnlyChecked s (if layDim xs 0 ≤ coords.getD 1 0 then _ else _ : State × _).1
    split
    · exact .refl s
    · have h := readWords_checked s w e (elemAddr xs [coords.getD 1 0]).1 1
      generalize readWords s w e (elemAddr xs [coords.getD 1 0]).1 1 = x at h ⊢
      obtain ⟨r, f | ⟨v, c⟩⟩ := x <;> exact h

theorem elemSide_checked (s : State) (w : Nat) (e : Eng) (l : Lay) (coords : List Nat) (wr : Bool) : OnlyChecked s (elemSide s w e l coords wr).1 := by
  unfold elemSide
  have h := locate_checked s w e l coords
  generalize locate s w e l coords = x at h ⊢
  obtain ⟨r, f | ⟨_ | ⟨ea, hi⟩, cs⟩⟩ := x <;> dsimp only at h ⊢
  · exact h
  · exact h
  · have k := touch_checked r w e ea (layBytes l.ws) wr
    generalize touch r w e ea (layBytes l.ws) wr = x at k ⊢
    obtain ⟨r', f | y⟩ := x <;> exact h.trans k

theorem boxSides_checked (s : State) (w : Nat) (l : Lay) (wr : Bool) : OnlyChecked s (boxSides s w l wr).1 := by
  unfold boxSides
  generalize positions _ = ps
  suffices h : ∀ (acc : State × List EngFault × List XAddr), OnlyChecked acc.1 (ps.foldl (fun (acc : State × List EngFault × List XAddr) x =>
      let r := elemSide acc.1 w .fabric l (x.take (layRank l.ws)) wr
      (r.1, acc.2.1 ++ r.2.2.1, acc.2.2 ++ (match r.2.1 with
        | some y => [y.1]
        | none => []))) acc).1 from h (s, [], [])
  induction ps with
  | nil => exact fun acc => .refl _
  | cons x ps ih => exact fun acc => (elemSide_checked acc.1 w .fabric l _ wr).trans (ih _)

theorem checkStatus_checked (s : State) (w a : Nat) : OnlyChecked s (checkStatus s w a).1 := by
  unfold checkStatus
  have h := access_checked s (wgAt s w).core (wgAt s w).ctx ((wgAt s w).level == 2) (BitVec.ofNat 64 a) .engineWrite
  dsimp only
  generalize access s (wgAt s w).core (wgAt s w).ctx ((wgAt s w).level == 2) (BitVec.ofNat 64 a) .engineWrite = x at h ⊢
  obtain ⟨r, f | y⟩ := x <;> exact h

theorem readDesc_checked (s : State) (w : Nat) (va : DWord) (al n : Nat) : OnlyChecked s (readDesc s w va al n).1 := by
  unfold readDesc
  have h := readWords_checked s w .fabric va n
  split
  · exact .refl s
  · split
    · exact .refl s
    · generalize readWords s w .fabric va n = x at h ⊢
      obtain ⟨r, f | y⟩ := x <;> exact h

theorem collRecords_checked (s : State) (w : Nat) (va : DWord) : OnlyChecked s (collRecords s w va).1 := by
  unfold collRecords
  have h := readDesc_checked s w va 64 16
  generalize readDesc s w va 64 16 = x at h ⊢
  obtain ⟨r, f | ws⟩ := x <;> dsimp only at h ⊢
  · exact h
  · split
    · exact h
    · have k := readLay_checked r w .fabric (BitVec.ofNat 64 (recAddr ws 0))
      generalize readLay r w .fabric (BitVec.ofNat 64 (recAddr ws 0)) = x at k ⊢
      obtain ⟨r2, f | ⟨src, c⟩⟩ := x <;> dsimp only at k ⊢
      · exact h.trans k
      · have j := readLay_checked r2 w .fabric (BitVec.ofNat 64 (recAddr ws 2))
        generalize readLay r2 w .fabric (BitVec.ofNat 64 (recAddr ws 2)) = x at j ⊢
        obtain ⟨r3, f | y⟩ := x <;> exact (h.trans k).trans j

theorem laneAccess_checked (s : State) (w : Nat) (va : BitVec 64) (n al : Nat) (k : Access) (ord : Acc → Option Nat) (reads mx : Bool) :
    OnlyChecked s (laneAccess s w va n al k ord reads mx).1 := by
  unfold laneAccess
  have h := access_checked s (wgAt s w).core (wgAt s w).ctx ((wgAt s w).level == 2) va k
  dsimp only
  generalize access s (wgAt s w).core (wgAt s w).ctx ((wgAt s w).level == 2) va k = x at h ⊢
  obtain ⟨r, f | y⟩ := x <;> dsimp only at h ⊢ <;> repeat' split
  all_goals first
    | exact .refl s
    | exact h

end Sys2Proof.Machine
end

