-- ==== Sys2Proof/Laws/State.lean ====
section
/-! SUPPORT. What each update of the state leaves of every field, and what the accessors read after it. -/

namespace Sys2Proof.Machine

/-! A change of a workgroup leaves the other fields. -/

@[simp] theorem modWg_agenda (s : State) (w : Nat) (f : Wg → Wg) : (modWg s w f).agenda = s.agenda := rfl
@[simp] theorem modWg_cur (s : State) (w : Nat) (f : Wg → Wg) : (modWg s w f).cur = s.cur := rfl
@[simp] theorem modWg_arg (s : State) (w : Nat) (f : Wg → Wg) : (modWg s w f).arg = s.arg := rfl
@[simp] theorem modWg_freeCtr (s : State) (w : Nat) (f : Wg → Wg) : (modWg s w f).freeCtr = s.freeCtr := rfl
@[simp] theorem modWg_ids (s : State) (w : Nat) (f : Wg → Wg) : (modWg s w f).ids = s.ids := rfl
@[simp] theorem modWg_rr (s : State) (w : Nat) (f : Wg → Wg) : (modWg s w f).rr = s.rr := rfl
@[simp] theorem modWg_launches (s : State) (w : Nat) (f : Wg → Wg) : (modWg s w f).launches = s.launches := rfl
@[simp] theorem modWg_queues (s : State) (w : Nat) (f : Wg → Wg) : (modWg s w f).queues = s.queues := rfl
@[simp] theorem modWg_ctxs (s : State) (w : Nat) (f : Wg → Wg) : (modWg s w f).ctxs = s.ctxs := rfl
@[simp] theorem modWg_dbgctl (s : State) (w : Nat) (f : Wg → Wg) : (modWg s w f).dbgctl = s.dbgctl := rfl
@[simp] theorem modWg_bpa (s : State) (w : Nat) (f : Wg → Wg) : (modWg s w f).bpa = s.bpa := rfl
@[simp] theorem modWg_cores (s : State) (w : Nat) (f : Wg → Wg) : (modWg s w f).cores = s.cores := rfl
@[simp] theorem modWg_xb (s : State) (w : Nat) (f : Wg → Wg) : (modWg s w f).xb = s.xb := rfl
@[simp] theorem modWg_xc (s : State) (w : Nat) (f : Wg → Wg) : (modWg s w f).xc = s.xc := rfl
@[simp] theorem modWg_mem (s : State) (w : Nat) (f : Wg → Wg) : (modWg s w f).mem = s.mem := rfl
@[simp] theorem modWg_poison (s : State) (w : Nat) (f : Wg → Wg) : (modWg s w f).poison = s.poison := rfl
@[simp] theorem modWg_lineKeys (s : State) (w : Nat) (f : Wg → Wg) : (modWg s w f).lineKeys = s.lineKeys := rfl
@[simp] theorem modWg_keyBack (s : State) (w : Nat) (f : Wg → Wg) : (modWg s w f).keyBack = s.keyBack := rfl
@[simp] theorem modWg_sealed (s : State) (w : Nat) (f : Wg → Wg) : (modWg s w f).sealed = s.sealed := rfl
@[simp] theorem modWg_unpub (s : State) (w : Nat) (f : Wg → Wg) : (modWg s w f).unpub = s.unpub := rfl
@[simp] theorem modWg_flights (s : State) (w : Nat) (f : Wg → Wg) : (modWg s w f).flights = s.flights := rfl
@[simp] theorem modWg_trackers (s : State) (w : Nat) (f : Wg → Wg) : (modWg s w f).trackers = s.trackers := rfl
@[simp] theorem modWg_ulog (s : State) (w : Nat) (f : Wg → Wg) : (modWg s w f).ulog = s.ulog := rfl
@[simp] theorem modWg_tlb (s : State) (w : Nat) (f : Wg → Wg) : (modWg s w f).tlb = s.tlb := rfl
@[simp] theorem modWg_l2eng (s : State) (w : Nat) (f : Wg → Wg) : (modWg s w f).l2eng = s.l2eng := rfl
@[simp] theorem modWg_pubs (s : State) (w : Nat) (f : Wg → Wg) : (modWg s w f).pubs = s.pubs := rfl
@[simp] theorem modWg_pubOps (s : State) (w : Nat) (f : Wg → Wg) : (modWg s w f).pubOps = s.pubOps := rfl
@[simp] theorem modWg_devOps (s : State) (w : Nat) (f : Wg → Wg) : (modWg s w f).devOps = s.devOps := rfl
@[simp] theorem modWg_faultq (s : State) (w : Nat) (f : Wg → Wg) : (modWg s w f).faultq = s.faultq := rfl
@[simp] theorem modWg_faults (s : State) (w : Nat) (f : Wg → Wg) : (modWg s w f).faults = s.faults := rfl
@[simp] theorem modWg_faultSlot (s : State) (w : Nat) (f : Wg → Wg) : (modWg s w f).faultSlot = s.faultSlot := rfl
@[simp] theorem modWg_queueWrites (s : State) (w : Nat) (f : Wg → Wg) : (modWg s w f).queueWrites = s.queueWrites := rfl
@[simp] theorem modWg_faultWait (s : State) (w : Nat) (f : Wg → Wg) : (modWg s w f).faultWait = s.faultWait := rfl
@[simp] theorem modWg_unsettled (s : State) (w : Nat) (f : Wg → Wg) : (modWg s w f).unsettled = s.unsettled := rfl
@[simp] theorem modWg_pageReqs (s : State) (w : Nat) (f : Wg → Wg) : (modWg s w f).pageReqs = s.pageReqs := rfl
@[simp] theorem modWg_granuleCtx (s : State) (w : Nat) (f : Wg → Wg) : (modWg s w f).granuleCtx = s.granuleCtx := rfl
@[simp] theorem modWg_placements (s : State) (w : Nat) (f : Wg → Wg) : (modWg s w f).placements = s.placements := rfl
@[simp] theorem modWg_fab (s : State) (w : Nat) (f : Wg → Wg) : (modWg s w f).fab = s.fab := rfl
@[simp] theorem modWg_plat (s : State) (w : Nat) (f : Wg → Wg) : (modWg s w f).plat = s.plat := rfl
@[simp] theorem modWg_out (s : State) (w : Nat) (f : Wg → Wg) : (modWg s w f).out = s.out := rfl
@[simp] theorem modWg_lastQueue (s : State) (w : Nat) (f : Wg → Wg) : (modWg s w f).lastQueue = s.lastQueue := rfl
@[simp] theorem modWg_admitted (s : State) (w : Nat) (f : Wg → Wg) : (modWg s w f).admitted = s.admitted := rfl

/-! A change of a squad leaves the other fields. -/

@[simp] theorem modSq_agenda (s : State) (w q : Nat) (f : Squad → Squad) : (modSq s w q f).agenda = s.agenda := rfl
@[simp] theorem modSq_cur (s : State) (w q : Nat) (f : Squad → Squad) : (modSq s w q f).cur = s.cur := rfl
@[simp] theorem modSq_arg (s : State) (w q : Nat) (f : Squad → Squad) : (modSq s w q f).arg = s.arg := rfl
@[simp] theorem modSq_freeCtr (s : State) (w q : Nat) (f : Squad → Squad) : (modSq s w q f).freeCtr = s.freeCtr := rfl
@[simp] theorem modSq_ids (s : State) (w q : Nat) (f : Squad → Squad) : (modSq s w q f).ids = s.ids := rfl
@[simp] theorem modSq_rr (s : State) (w q : Nat) (f : Squad → Squad) : (modSq s w q f).rr = s.rr := rfl
@[simp] theorem modSq_launches (s : State) (w q : Nat) (f : Squad → Squad) : (modSq s w q f).launches = s.launches := rfl
@[simp] theorem modSq_queues (s : State) (w q : Nat) (f : Squad → Squad) : (modSq s w q f).queues = s.queues := rfl
@[simp] theorem modSq_ctxs (s : State) (w q : Nat) (f : Squad → Squad) : (modSq s w q f).ctxs = s.ctxs := rfl
@[simp] theorem modSq_dbgctl (s : State) (w q : Nat) (f : Squad → Squad) : (modSq s w q f).dbgctl = s.dbgctl := rfl
@[simp] theorem modSq_bpa (s : State) (w q : Nat) (f : Squad → Squad) : (modSq s w q f).bpa = s.bpa := rfl
@[simp] theorem modSq_cores (s : State) (w q : Nat) (f : Squad → Squad) : (modSq s w q f).cores = s.cores := rfl
@[simp] theorem modSq_xb (s : State) (w q : Nat) (f : Squad → Squad) : (modSq s w q f).xb = s.xb := rfl
@[simp] theorem modSq_xc (s : State) (w q : Nat) (f : Squad → Squad) : (modSq s w q f).xc = s.xc := rfl
@[simp] theorem modSq_mem (s : State) (w q : Nat) (f : Squad → Squad) : (modSq s w q f).mem = s.mem := rfl
@[simp] theorem modSq_poison (s : State) (w q : Nat) (f : Squad → Squad) : (modSq s w q f).poison = s.poison := rfl
@[simp] theorem modSq_lineKeys (s : State) (w q : Nat) (f : Squad → Squad) : (modSq s w q f).lineKeys = s.lineKeys := rfl
@[simp] theorem modSq_keyBack (s : State) (w q : Nat) (f : Squad → Squad) : (modSq s w q f).keyBack = s.keyBack := rfl
@[simp] theorem modSq_sealed (s : State) (w q : Nat) (f : Squad → Squad) : (modSq s w q f).sealed = s.sealed := rfl
@[simp] theorem modSq_unpub (s : State) (w q : Nat) (f : Squad → Squad) : (modSq s w q f).unpub = s.unpub := rfl
@[simp] theorem modSq_flights (s : State) (w q : Nat) (f : Squad → Squad) : (modSq s w q f).flights = s.flights := rfl
@[simp] theorem modSq_trackers (s : State) (w q : Nat) (f : Squad → Squad) : (modSq s w q f).trackers = s.trackers := rfl
@[simp] theorem modSq_ulog (s : State) (w q : Nat) (f : Squad → Squad) : (modSq s w q f).ulog = s.ulog := rfl
@[simp] theorem modSq_tlb (s : State) (w q : Nat) (f : Squad → Squad) : (modSq s w q f).tlb = s.tlb := rfl
@[simp] theorem modSq_l2eng (s : State) (w q : Nat) (f : Squad → Squad) : (modSq s w q f).l2eng = s.l2eng := rfl
@[simp] theorem modSq_pubs (s : State) (w q : Nat) (f : Squad → Squad) : (modSq s w q f).pubs = s.pubs := rfl
@[simp] theorem modSq_pubOps (s : State) (w q : Nat) (f : Squad → Squad) : (modSq s w q f).pubOps = s.pubOps := rfl
@[simp] theorem modSq_devOps (s : State) (w q : Nat) (f : Squad → Squad) : (modSq s w q f).devOps = s.devOps := rfl
@[simp] theorem modSq_faultq (s : State) (w q : Nat) (f : Squad → Squad) : (modSq s w q f).faultq = s.faultq := rfl
@[simp] theorem modSq_faults (s : State) (w q : Nat) (f : Squad → Squad) : (modSq s w q f).faults = s.faults := rfl
@[simp] theorem modSq_faultSlot (s : State) (w q : Nat) (f : Squad → Squad) : (modSq s w q f).faultSlot = s.faultSlot := rfl
@[simp] theorem modSq_queueWrites (s : State) (w q : Nat) (f : Squad → Squad) : (modSq s w q f).queueWrites = s.queueWrites := rfl
@[simp] theorem modSq_faultWait (s : State) (w q : Nat) (f : Squad → Squad) : (modSq s w q f).faultWait = s.faultWait := rfl
@[simp] theorem modSq_unsettled (s : State) (w q : Nat) (f : Squad → Squad) : (modSq s w q f).unsettled = s.unsettled := rfl
@[simp] theorem modSq_pageReqs (s : State) (w q : Nat) (f : Squad → Squad) : (modSq s w q f).pageReqs = s.pageReqs := rfl
@[simp] theorem modSq_granuleCtx (s : State) (w q : Nat) (f : Squad → Squad) : (modSq s w q f).granuleCtx = s.granuleCtx := rfl
@[simp] theorem modSq_placements (s : State) (w q : Nat) (f : Squad → Squad) : (modSq s w q f).placements = s.placements := rfl
@[simp] theorem modSq_fab (s : State) (w q : Nat) (f : Squad → Squad) : (modSq s w q f).fab = s.fab := rfl
@[simp] theorem modSq_plat (s : State) (w q : Nat) (f : Squad → Squad) : (modSq s w q f).plat = s.plat := rfl
@[simp] theorem modSq_out (s : State) (w q : Nat) (f : Squad → Squad) : (modSq s w q f).out = s.out := rfl
@[simp] theorem modSq_lastQueue (s : State) (w q : Nat) (f : Squad → Squad) : (modSq s w q f).lastQueue = s.lastQueue := rfl
@[simp] theorem modSq_admitted (s : State) (w q : Nat) (f : Squad → Squad) : (modSq s w q f).admitted = s.admitted := rfl

/-! A change of a launch leaves the other fields. -/

@[simp] theorem modLaunch_agenda (s : State) (l : Nat) (f : Launch → Launch) : (modLaunch s l f).agenda = s.agenda := rfl
@[simp] theorem modLaunch_cur (s : State) (l : Nat) (f : Launch → Launch) : (modLaunch s l f).cur = s.cur := rfl
@[simp] theorem modLaunch_arg (s : State) (l : Nat) (f : Launch → Launch) : (modLaunch s l f).arg = s.arg := rfl
@[simp] theorem modLaunch_freeCtr (s : State) (l : Nat) (f : Launch → Launch) : (modLaunch s l f).freeCtr = s.freeCtr := rfl
@[simp] theorem modLaunch_ids (s : State) (l : Nat) (f : Launch → Launch) : (modLaunch s l f).ids = s.ids := rfl
@[simp] theorem modLaunch_rr (s : State) (l : Nat) (f : Launch → Launch) : (modLaunch s l f).rr = s.rr := rfl
@[simp] theorem modLaunch_wgs (s : State) (l : Nat) (f : Launch → Launch) : (modLaunch s l f).wgs = s.wgs := rfl
@[simp] theorem modLaunch_queues (s : State) (l : Nat) (f : Launch → Launch) : (modLaunch s l f).queues = s.queues := rfl
@[simp] theorem modLaunch_ctxs (s : State) (l : Nat) (f : Launch → Launch) : (modLaunch s l f).ctxs = s.ctxs := rfl
@[simp] theorem modLaunch_dbgctl (s : State) (l : Nat) (f : Launch → Launch) : (modLaunch s l f).dbgctl = s.dbgctl := rfl
@[simp] theorem modLaunch_bpa (s : State) (l : Nat) (f : Launch → Launch) : (modLaunch s l f).bpa = s.bpa := rfl
@[simp] theorem modLaunch_cores (s : State) (l : Nat) (f : Launch → Launch) : (modLaunch s l f).cores = s.cores := rfl
@[simp] theorem modLaunch_xb (s : State) (l : Nat) (f : Launch → Launch) : (modLaunch s l f).xb = s.xb := rfl
@[simp] theorem modLaunch_xc (s : State) (l : Nat) (f : Launch → Launch) : (modLaunch s l f).xc = s.xc := rfl
@[simp] theorem modLaunch_mem (s : State) (l : Nat) (f : Launch → Launch) : (modLaunch s l f).mem = s.mem := rfl
@[simp] theorem modLaunch_poison (s : State) (l : Nat) (f : Launch → Launch) : (modLaunch s l f).poison = s.poison := rfl
@[simp] theorem modLaunch_lineKeys (s : State) (l : Nat) (f : Launch → Launch) : (modLaunch s l f).lineKeys = s.lineKeys := rfl
@[simp] theorem modLaunch_keyBack (s : State) (l : Nat) (f : Launch → Launch) : (modLaunch s l f).keyBack = s.keyBack := rfl
@[simp] theorem modLaunch_sealed (s : State) (l : Nat) (f : Launch → Launch) : (modLaunch s l f).sealed = s.sealed := rfl
@[simp] theorem modLaunch_unpub (s : State) (l : Nat) (f : Launch → Launch) : (modLaunch s l f).unpub = s.unpub := rfl
@[simp] theorem modLaunch_flights (s : State) (l : Nat) (f : Launch → Launch) : (modLaunch s l f).flights = s.flights := rfl
@[simp] theorem modLaunch_trackers (s : State) (l : Nat) (f : Launch → Launch) : (modLaunch s l f).trackers = s.trackers := rfl
@[simp] theorem modLaunch_ulog (s : State) (l : Nat) (f : Launch → Launch) : (modLaunch s l f).ulog = s.ulog := rfl
@[simp] theorem modLaunch_tlb (s : State) (l : Nat) (f : Launch → Launch) : (modLaunch s l f).tlb = s.tlb := rfl
@[simp] theorem modLaunch_l2eng (s : State) (l : Nat) (f : Launch → Launch) : (modLaunch s l f).l2eng = s.l2eng := rfl
@[simp] theorem modLaunch_pubs (s : State) (l : Nat) (f : Launch → Launch) : (modLaunch s l f).pubs = s.pubs := rfl
@[simp] theorem modLaunch_pubOps (s : State) (l : Nat) (f : Launch → Launch) : (modLaunch s l f).pubOps = s.pubOps := rfl
@[simp] theorem modLaunch_devOps (s : State) (l : Nat) (f : Launch → Launch) : (modLaunch s l f).devOps = s.devOps := rfl
@[simp] theorem modLaunch_faultq (s : State) (l : Nat) (f : Launch → Launch) : (modLaunch s l f).faultq = s.faultq := rfl
@[simp] theorem modLaunch_faults (s : State) (l : Nat) (f : Launch → Launch) : (modLaunch s l f).faults = s.faults := rfl
@[simp] theorem modLaunch_faultSlot (s : State) (l : Nat) (f : Launch → Launch) : (modLaunch s l f).faultSlot = s.faultSlot := rfl
@[simp] theorem modLaunch_queueWrites (s : State) (l : Nat) (f : Launch → Launch) : (modLaunch s l f).queueWrites = s.queueWrites := rfl
@[simp] theorem modLaunch_faultWait (s : State) (l : Nat) (f : Launch → Launch) : (modLaunch s l f).faultWait = s.faultWait := rfl
@[simp] theorem modLaunch_unsettled (s : State) (l : Nat) (f : Launch → Launch) : (modLaunch s l f).unsettled = s.unsettled := rfl
@[simp] theorem modLaunch_pageReqs (s : State) (l : Nat) (f : Launch → Launch) : (modLaunch s l f).pageReqs = s.pageReqs := rfl
@[simp] theorem modLaunch_granuleCtx (s : State) (l : Nat) (f : Launch → Launch) : (modLaunch s l f).granuleCtx = s.granuleCtx := rfl
@[simp] theorem modLaunch_placements (s : State) (l : Nat) (f : Launch → Launch) : (modLaunch s l f).placements = s.placements := rfl
@[simp] theorem modLaunch_fab (s : State) (l : Nat) (f : Launch → Launch) : (modLaunch s l f).fab = s.fab := rfl
@[simp] theorem modLaunch_plat (s : State) (l : Nat) (f : Launch → Launch) : (modLaunch s l f).plat = s.plat := rfl
@[simp] theorem modLaunch_out (s : State) (l : Nat) (f : Launch → Launch) : (modLaunch s l f).out = s.out := rfl
@[simp] theorem modLaunch_lastQueue (s : State) (l : Nat) (f : Launch → Launch) : (modLaunch s l f).lastQueue = s.lastQueue := rfl
@[simp] theorem modLaunch_admitted (s : State) (l : Nat) (f : Launch → Launch) : (modLaunch s l f).admitted = s.admitted := rfl

/-! A change of a context leaves the other fields. -/

@[simp] theorem modCtx_agenda (s : State) (c : Nat) (f : Ctx → Ctx) : (modCtx s c f).agenda = s.agenda := rfl
@[simp] theorem modCtx_cur (s : State) (c : Nat) (f : Ctx → Ctx) : (modCtx s c f).cur = s.cur := rfl
@[simp] theorem modCtx_arg (s : State) (c : Nat) (f : Ctx → Ctx) : (modCtx s c f).arg = s.arg := rfl
@[simp] theorem modCtx_freeCtr (s : State) (c : Nat) (f : Ctx → Ctx) : (modCtx s c f).freeCtr = s.freeCtr := rfl
@[simp] theorem modCtx_ids (s : State) (c : Nat) (f : Ctx → Ctx) : (modCtx s c f).ids = s.ids := rfl
@[simp] theorem modCtx_rr (s : State) (c : Nat) (f : Ctx → Ctx) : (modCtx s c f).rr = s.rr := rfl
@[simp] theorem modCtx_wgs (s : State) (c : Nat) (f : Ctx → Ctx) : (modCtx s c f).wgs = s.wgs := rfl
@[simp] theorem modCtx_launches (s : State) (c : Nat) (f : Ctx → Ctx) : (modCtx s c f).launches = s.launches := rfl
@[simp] theorem modCtx_queues (s : State) (c : Nat) (f : Ctx → Ctx) : (modCtx s c f).queues = s.queues := rfl
@[simp] theorem modCtx_dbgctl (s : State) (c : Nat) (f : Ctx → Ctx) : (modCtx s c f).dbgctl = s.dbgctl := rfl
@[simp] theorem modCtx_bpa (s : State) (c : Nat) (f : Ctx → Ctx) : (modCtx s c f).bpa = s.bpa := rfl
@[simp] theorem modCtx_cores (s : State) (c : Nat) (f : Ctx → Ctx) : (modCtx s c f).cores = s.cores := rfl
@[simp] theorem modCtx_xb (s : State) (c : Nat) (f : Ctx → Ctx) : (modCtx s c f).xb = s.xb := rfl
@[simp] theorem modCtx_xc (s : State) (c : Nat) (f : Ctx → Ctx) : (modCtx s c f).xc = s.xc := rfl
@[simp] theorem modCtx_mem (s : State) (c : Nat) (f : Ctx → Ctx) : (modCtx s c f).mem = s.mem := rfl
@[simp] theorem modCtx_poison (s : State) (c : Nat) (f : Ctx → Ctx) : (modCtx s c f).poison = s.poison := rfl
@[simp] theorem modCtx_lineKeys (s : State) (c : Nat) (f : Ctx → Ctx) : (modCtx s c f).lineKeys = s.lineKeys := rfl
@[simp] theorem modCtx_keyBack (s : State) (c : Nat) (f : Ctx → Ctx) : (modCtx s c f).keyBack = s.keyBack := rfl
@[simp] theorem modCtx_sealed (s : State) (c : Nat) (f : Ctx → Ctx) : (modCtx s c f).sealed = s.sealed := rfl
@[simp] theorem modCtx_unpub (s : State) (c : Nat) (f : Ctx → Ctx) : (modCtx s c f).unpub = s.unpub := rfl
@[simp] theorem modCtx_flights (s : State) (c : Nat) (f : Ctx → Ctx) : (modCtx s c f).flights = s.flights := rfl
@[simp] theorem modCtx_trackers (s : State) (c : Nat) (f : Ctx → Ctx) : (modCtx s c f).trackers = s.trackers := rfl
@[simp] theorem modCtx_ulog (s : State) (c : Nat) (f : Ctx → Ctx) : (modCtx s c f).ulog = s.ulog := rfl
@[simp] theorem modCtx_tlb (s : State) (c : Nat) (f : Ctx → Ctx) : (modCtx s c f).tlb = s.tlb := rfl
@[simp] theorem modCtx_l2eng (s : State) (c : Nat) (f : Ctx → Ctx) : (modCtx s c f).l2eng = s.l2eng := rfl
@[simp] theorem modCtx_pubs (s : State) (c : Nat) (f : Ctx → Ctx) : (modCtx s c f).pubs = s.pubs := rfl
@[simp] theorem modCtx_pubOps (s : State) (c : Nat) (f : Ctx → Ctx) : (modCtx s c f).pubOps = s.pubOps := rfl
@[simp] theorem modCtx_devOps (s : State) (c : Nat) (f : Ctx → Ctx) : (modCtx s c f).devOps = s.devOps := rfl
@[simp] theorem modCtx_faultq (s : State) (c : Nat) (f : Ctx → Ctx) : (modCtx s c f).faultq = s.faultq := rfl
@[simp] theorem modCtx_faults (s : State) (c : Nat) (f : Ctx → Ctx) : (modCtx s c f).faults = s.faults := rfl
@[simp] theorem modCtx_faultSlot (s : State) (c : Nat) (f : Ctx → Ctx) : (modCtx s c f).faultSlot = s.faultSlot := rfl
@[simp] theorem modCtx_queueWrites (s : State) (c : Nat) (f : Ctx → Ctx) : (modCtx s c f).queueWrites = s.queueWrites := rfl
@[simp] theorem modCtx_faultWait (s : State) (c : Nat) (f : Ctx → Ctx) : (modCtx s c f).faultWait = s.faultWait := rfl
@[simp] theorem modCtx_unsettled (s : State) (c : Nat) (f : Ctx → Ctx) : (modCtx s c f).unsettled = s.unsettled := rfl
@[simp] theorem modCtx_pageReqs (s : State) (c : Nat) (f : Ctx → Ctx) : (modCtx s c f).pageReqs = s.pageReqs := rfl
@[simp] theorem modCtx_granuleCtx (s : State) (c : Nat) (f : Ctx → Ctx) : (modCtx s c f).granuleCtx = s.granuleCtx := rfl
@[simp] theorem modCtx_placements (s : State) (c : Nat) (f : Ctx → Ctx) : (modCtx s c f).placements = s.placements := rfl
@[simp] theorem modCtx_fab (s : State) (c : Nat) (f : Ctx → Ctx) : (modCtx s c f).fab = s.fab := rfl
@[simp] theorem modCtx_plat (s : State) (c : Nat) (f : Ctx → Ctx) : (modCtx s c f).plat = s.plat := rfl
@[simp] theorem modCtx_out (s : State) (c : Nat) (f : Ctx → Ctx) : (modCtx s c f).out = s.out := rfl
@[simp] theorem modCtx_lastQueue (s : State) (c : Nat) (f : Ctx → Ctx) : (modCtx s c f).lastQueue = s.lastQueue := rfl
@[simp] theorem modCtx_admitted (s : State) (c : Nat) (f : Ctx → Ctx) : (modCtx s c f).admitted = s.admitted := rfl

/-! A change of a core leaves the other fields. -/

@[simp] theorem modCore_agenda (s : State) (c : Nat) (f : CoreSt → CoreSt) : (modCore s c f).agenda = s.agenda := rfl
@[simp] theorem modCore_cur (s : State) (c : Nat) (f : CoreSt → CoreSt) : (modCore s c f).cur = s.cur := rfl
@[simp] theorem modCore_arg (s : State) (c : Nat) (f : CoreSt → CoreSt) : (modCore s c f).arg = s.arg := rfl
@[simp] theorem modCore_freeCtr (s : State) (c : Nat) (f : CoreSt → CoreSt) : (modCore s c f).freeCtr = s.freeCtr := rfl
@[simp] theorem modCore_ids (s : State) (c : Nat) (f : CoreSt → CoreSt) : (modCore s c f).ids = s.ids := rfl
@[simp] theorem modCore_rr (s : State) (c : Nat) (f : CoreSt → CoreSt) : (modCore s c f).rr = s.rr := rfl
@[simp] theorem modCore_wgs (s : State) (c : Nat) (f : CoreSt → CoreSt) : (modCore s c f).wgs = s.wgs := rfl
@[simp] theorem modCore_launches (s : State) (c : Nat) (f : CoreSt → CoreSt) : (modCore s c f).launches = s.launches := rfl
@[simp] theorem modCore_queues (s : State) (c : Nat) (f : CoreSt → CoreSt) : (modCore s c f).queues = s.queues := rfl
@[simp] theorem modCore_ctxs (s : State) (c : Nat) (f : CoreSt → CoreSt) : (modCore s c f).ctxs = s.ctxs := rfl
@[simp] theorem modCore_dbgctl (s : State) (c : Nat) (f : CoreSt → CoreSt) : (modCore s c f).dbgctl = s.dbgctl := rfl
@[simp] theorem modCore_bpa (s : State) (c : Nat) (f : CoreSt → CoreSt) : (modCore s c f).bpa = s.bpa := rfl
@[simp] theorem modCore_xb (s : State) (c : Nat) (f : CoreSt → CoreSt) : (modCore s c f).xb = s.xb := rfl
@[simp] theorem modCore_xc (s : State) (c : Nat) (f : CoreSt → CoreSt) : (modCore s c f).xc = s.xc := rfl
@[simp] theorem modCore_mem (s : State) (c : Nat) (f : CoreSt → CoreSt) : (modCore s c f).mem = s.mem := rfl
@[simp] theorem modCore_poison (s : State) (c : Nat) (f : CoreSt → CoreSt) : (modCore s c f).poison = s.poison := rfl
@[simp] theorem modCore_lineKeys (s : State) (c : Nat) (f : CoreSt → CoreSt) : (modCore s c f).lineKeys = s.lineKeys := rfl
@[simp] theorem modCore_keyBack (s : State) (c : Nat) (f : CoreSt → CoreSt) : (modCore s c f).keyBack = s.keyBack := rfl
@[simp] theorem modCore_sealed (s : State) (c : Nat) (f : CoreSt → CoreSt) : (modCore s c f).sealed = s.sealed := rfl
@[simp] theorem modCore_unpub (s : State) (c : Nat) (f : CoreSt → CoreSt) : (modCore s c f).unpub = s.unpub := rfl
@[simp] theorem modCore_flights (s : State) (c : Nat) (f : CoreSt → CoreSt) : (modCore s c f).flights = s.flights := rfl
@[simp] theorem modCore_trackers (s : State) (c : Nat) (f : CoreSt → CoreSt) : (modCore s c f).trackers = s.trackers := rfl
@[simp] theorem modCore_ulog (s : State) (c : Nat) (f : CoreSt → CoreSt) : (modCore s c f).ulog = s.ulog := rfl
@[simp] theorem modCore_tlb (s : State) (c : Nat) (f : CoreSt → CoreSt) : (modCore s c f).tlb = s.tlb := rfl
@[simp] theorem modCore_l2eng (s : State) (c : Nat) (f : CoreSt → CoreSt) : (modCore s c f).l2eng = s.l2eng := rfl
@[simp] theorem modCore_pubs (s : State) (c : Nat) (f : CoreSt → CoreSt) : (modCore s c f).pubs = s.pubs := rfl
@[simp] theorem modCore_pubOps (s : State) (c : Nat) (f : CoreSt → CoreSt) : (modCore s c f).pubOps = s.pubOps := rfl
@[simp] theorem modCore_devOps (s : State) (c : Nat) (f : CoreSt → CoreSt) : (modCore s c f).devOps = s.devOps := rfl
@[simp] theorem modCore_faultq (s : State) (c : Nat) (f : CoreSt → CoreSt) : (modCore s c f).faultq = s.faultq := rfl
@[simp] theorem modCore_faults (s : State) (c : Nat) (f : CoreSt → CoreSt) : (modCore s c f).faults = s.faults := rfl
@[simp] theorem modCore_faultSlot (s : State) (c : Nat) (f : CoreSt → CoreSt) : (modCore s c f).faultSlot = s.faultSlot := rfl
@[simp] theorem modCore_queueWrites (s : State) (c : Nat) (f : CoreSt → CoreSt) : (modCore s c f).queueWrites = s.queueWrites := rfl
@[simp] theorem modCore_faultWait (s : State) (c : Nat) (f : CoreSt → CoreSt) : (modCore s c f).faultWait = s.faultWait := rfl
@[simp] theorem modCore_unsettled (s : State) (c : Nat) (f : CoreSt → CoreSt) : (modCore s c f).unsettled = s.unsettled := rfl
@[simp] theorem modCore_pageReqs (s : State) (c : Nat) (f : CoreSt → CoreSt) : (modCore s c f).pageReqs = s.pageReqs := rfl
@[simp] theorem modCore_granuleCtx (s : State) (c : Nat) (f : CoreSt → CoreSt) : (modCore s c f).granuleCtx = s.granuleCtx := rfl
@[simp] theorem modCore_placements (s : State) (c : Nat) (f : CoreSt → CoreSt) : (modCore s c f).placements = s.placements := rfl
@[simp] theorem modCore_fab (s : State) (c : Nat) (f : CoreSt → CoreSt) : (modCore s c f).fab = s.fab := rfl
@[simp] theorem modCore_plat (s : State) (c : Nat) (f : CoreSt → CoreSt) : (modCore s c f).plat = s.plat := rfl
@[simp] theorem modCore_out (s : State) (c : Nat) (f : CoreSt → CoreSt) : (modCore s c f).out = s.out := rfl
@[simp] theorem modCore_lastQueue (s : State) (c : Nat) (f : CoreSt → CoreSt) : (modCore s c f).lastQueue = s.lastQueue := rfl
@[simp] theorem modCore_admitted (s : State) (c : Nat) (f : CoreSt → CoreSt) : (modCore s c f).admitted = s.admitted := rfl

/-! A change of a copy-engine context leaves the other fields. -/

@[simp] theorem modCe_agenda (s : State) (c k : Nat) (f : CeCtx → CeCtx) : (modCe s c k f).agenda = s.agenda := rfl
@[simp] theorem modCe_cur (s : State) (c k : Nat) (f : CeCtx → CeCtx) : (modCe s c k f).cur = s.cur := rfl
@[simp] theorem modCe_arg (s : State) (c k : Nat) (f : CeCtx → CeCtx) : (modCe s c k f).arg = s.arg := rfl
@[simp] theorem modCe_freeCtr (s : State) (c k : Nat) (f : CeCtx → CeCtx) : (modCe s c k f).freeCtr = s.freeCtr := rfl
@[simp] theorem modCe_ids (s : State) (c k : Nat) (f : CeCtx → CeCtx) : (modCe s c k f).ids = s.ids := rfl
@[simp] theorem modCe_rr (s : State) (c k : Nat) (f : CeCtx → CeCtx) : (modCe s c k f).rr = s.rr := rfl
@[simp] theorem modCe_wgs (s : State) (c k : Nat) (f : CeCtx → CeCtx) : (modCe s c k f).wgs = s.wgs := rfl
@[simp] theorem modCe_launches (s : State) (c k : Nat) (f : CeCtx → CeCtx) : (modCe s c k f).launches = s.launches := rfl
@[simp] theorem modCe_queues (s : State) (c k : Nat) (f : CeCtx → CeCtx) : (modCe s c k f).queues = s.queues := rfl
@[simp] theorem modCe_ctxs (s : State) (c k : Nat) (f : CeCtx → CeCtx) : (modCe s c k f).ctxs = s.ctxs := rfl
@[simp] theorem modCe_dbgctl (s : State) (c k : Nat) (f : CeCtx → CeCtx) : (modCe s c k f).dbgctl = s.dbgctl := rfl
@[simp] theorem modCe_bpa (s : State) (c k : Nat) (f : CeCtx → CeCtx) : (modCe s c k f).bpa = s.bpa := rfl
@[simp] theorem modCe_xb (s : State) (c k : Nat) (f : CeCtx → CeCtx) : (modCe s c k f).xb = s.xb := rfl
@[simp] theorem modCe_xc (s : State) (c k : Nat) (f : CeCtx → CeCtx) : (modCe s c k f).xc = s.xc := rfl
@[simp] theorem modCe_mem (s : State) (c k : Nat) (f : CeCtx → CeCtx) : (modCe s c k f).mem = s.mem := rfl
@[simp] theorem modCe_poison (s : State) (c k : Nat) (f : CeCtx → CeCtx) : (modCe s c k f).poison = s.poison := rfl
@[simp] theorem modCe_lineKeys (s : State) (c k : Nat) (f : CeCtx → CeCtx) : (modCe s c k f).lineKeys = s.lineKeys := rfl
@[simp] theorem modCe_keyBack (s : State) (c k : Nat) (f : CeCtx → CeCtx) : (modCe s c k f).keyBack = s.keyBack := rfl
@[simp] theorem modCe_sealed (s : State) (c k : Nat) (f : CeCtx → CeCtx) : (modCe s c k f).sealed = s.sealed := rfl
@[simp] theorem modCe_unpub (s : State) (c k : Nat) (f : CeCtx → CeCtx) : (modCe s c k f).unpub = s.unpub := rfl
@[simp] theorem modCe_flights (s : State) (c k : Nat) (f : CeCtx → CeCtx) : (modCe s c k f).flights = s.flights := rfl
@[simp] theorem modCe_trackers (s : State) (c k : Nat) (f : CeCtx → CeCtx) : (modCe s c k f).trackers = s.trackers := rfl
@[simp] theorem modCe_ulog (s : State) (c k : Nat) (f : CeCtx → CeCtx) : (modCe s c k f).ulog = s.ulog := rfl
@[simp] theorem modCe_tlb (s : State) (c k : Nat) (f : CeCtx → CeCtx) : (modCe s c k f).tlb = s.tlb := rfl
@[simp] theorem modCe_l2eng (s : State) (c k : Nat) (f : CeCtx → CeCtx) : (modCe s c k f).l2eng = s.l2eng := rfl
@[simp] theorem modCe_pubs (s : State) (c k : Nat) (f : CeCtx → CeCtx) : (modCe s c k f).pubs = s.pubs := rfl
@[simp] theorem modCe_pubOps (s : State) (c k : Nat) (f : CeCtx → CeCtx) : (modCe s c k f).pubOps = s.pubOps := rfl
@[simp] theorem modCe_devOps (s : State) (c k : Nat) (f : CeCtx → CeCtx) : (modCe s c k f).devOps = s.devOps := rfl
@[simp] theorem modCe_faultq (s : State) (c k : Nat) (f : CeCtx → CeCtx) : (modCe s c k f).faultq = s.faultq := rfl
@[simp] theorem modCe_faults (s : State) (c k : Nat) (f : CeCtx → CeCtx) : (modCe s c k f).faults = s.faults := rfl
@[simp] theorem modCe_faultSlot (s : State) (c k : Nat) (f : CeCtx → CeCtx) : (modCe s c k f).faultSlot = s.faultSlot := rfl
@[simp] theorem modCe_queueWrites (s : State) (c k : Nat) (f : CeCtx → CeCtx) : (modCe s c k f).queueWrites = s.queueWrites := rfl
@[simp] theorem modCe_faultWait (s : State) (c k : Nat) (f : CeCtx → CeCtx) : (modCe s c k f).faultWait = s.faultWait := rfl
@[simp] theorem modCe_unsettled (s : State) (c k : Nat) (f : CeCtx → CeCtx) : (modCe s c k f).unsettled = s.unsettled := rfl
@[simp] theorem modCe_pageReqs (s : State) (c k : Nat) (f : CeCtx → CeCtx) : (modCe s c k f).pageReqs = s.pageReqs := rfl
@[simp] theorem modCe_granuleCtx (s : State) (c k : Nat) (f : CeCtx → CeCtx) : (modCe s c k f).granuleCtx = s.granuleCtx := rfl
@[simp] theorem modCe_placements (s : State) (c k : Nat) (f : CeCtx → CeCtx) : (modCe s c k f).placements = s.placements := rfl
@[simp] theorem modCe_fab (s : State) (c k : Nat) (f : CeCtx → CeCtx) : (modCe s c k f).fab = s.fab := rfl
@[simp] theorem modCe_plat (s : State) (c k : Nat) (f : CeCtx → CeCtx) : (modCe s c k f).plat = s.plat := rfl
@[simp] theorem modCe_out (s : State) (c k : Nat) (f : CeCtx → CeCtx) : (modCe s c k f).out = s.out := rfl
@[simp] theorem modCe_lastQueue (s : State) (c k : Nat) (f : CeCtx → CeCtx) : (modCe s c k f).lastQueue = s.lastQueue := rfl
@[simp] theorem modCe_admitted (s : State) (c k : Nat) (f : CeCtx → CeCtx) : (modCe s c k f).admitted = s.admitted := rfl

/-! Reading back a change. -/

@[simp] theorem wgs_length_modWg (s : State) (w : Nat) (f : Wg → Wg) : (modWg s w f).wgs.length = s.wgs.length := by simp [modWg]
@[simp] theorem wgs_length_modSq (s : State) (w q : Nat) (f : Squad → Squad) : (modSq s w q f).wgs.length = s.wgs.length := by simp [modSq]

theorem wgAt_modWg_self (s : State) (w : Nat) (f : Wg → Wg) (h : w < s.wgs.length) : wgAt (modWg s w f) w = f (wgAt s w) :=
  modAt_getD_self s.wgs w f blankWg h

theorem wgAt_modWg_ne (s : State) (w v : Nat) (f : Wg → Wg) (h : v ≠ w) : wgAt (modWg s w f) v = wgAt s v :=
  modAt_getD_ne s.wgs w v f blankWg h

theorem wgAt_modSq_ne (s : State) (w q v : Nat) (f : Squad → Squad) (h : v ≠ w) : wgAt (modSq s w q f) v = wgAt s v :=
  wgAt_modWg_ne s w v _ h

/-- Of its workgroup, a change of a squad changes the squads alone. -/
theorem wgAt_modSq_self (s : State) (w q : Nat) (f : Squad → Squad) (h : w < s.wgs.length) :
    wgAt (modSq s w q f) w = { wgAt s w with squads := modAt (wgAt s w).squads q f } :=
  wgAt_modWg_self s w _ h

theorem sqAt_modSq_self (s : State) (w q : Nat) (f : Squad → Squad) (h : w < s.wgs.length) (hq : q < (wgAt s w).squads.length) :
    sqAt (modSq s w q f) w q = f (sqAt s w q) := by
  unfold sqAt
  rw [wgAt_modSq_self s w q f h]
  exact modAt_getD_self _ q f blankSquad hq

theorem sqAt_modSq_ne (s : State) (w q v r : Nat) (f : Squad → Squad) (h : v ≠ w ∨ r ≠ q) : sqAt (modSq s w q f) v r = sqAt s v r := by
  unfold sqAt
  by_cases hv : v = w
  · subst hv
    by_cases hw : v < s.wgs.length
    · rw [wgAt_modSq_self s v q f hw]
      exact modAt_getD_ne _ q r f blankSquad (by tauto)
    · have : modSq s v q f = s := by
        simp only [modSq, modWg, modAt_of_length_le s.wgs v _ (by omega)]
      rw [this]
  · rw [wgAt_modSq_ne s w q v f hv]

/-- A launch's record and header are those of the same state before a change of a squad. -/
@[simp] theorem launchAt_modSq (s : State) (w q l : Nat) (f : Squad → Squad) : launchAt (modSq s w q f) l = launchAt s l := rfl
@[simp] theorem launchAt_modWg (s : State) (w l : Nat) (f : Wg → Wg) : launchAt (modWg s w f) l = launchAt s l := rfl
@[simp] theorem coreAt_modSq (s : State) (w q c : Nat) (f : Squad → Squad) : coreAt (modSq s w q f) c = coreAt s c := rfl
@[simp] theorem coreAt_modWg (s : State) (w c : Nat) (f : Wg → Wg) : coreAt (modWg s w f) c = coreAt s c := rfl
@[simp] theorem coreAt_modCore_self (s : State) (c : Nat) (f : CoreSt → CoreSt) : coreAt (modCore s c f) c = f (coreAt s c) := by
  simp [coreAt, modCore]
theorem coreAt_modCore_ne (s : State) (c d : Nat) (f : CoreSt → CoreSt) (h : d ≠ c) : coreAt (modCore s c f) d = coreAt s d := by
  simp [coreAt, modCore, Map.getD_put_ne _ _ _ _ _ h]
@[simp] theorem ceAt_modCe_self (s : State) (c k : Nat) (f : CeCtx → CeCtx) : ceAt (modCe s c k f) c k = f (ceAt s c k) := by
  simp [ceAt, modCe]
theorem ceAt_modCe_ne (s : State) (c k d j : Nat) (f : CeCtx → CeCtx) (h : d ≠ c ∨ j ≠ k) : ceAt (modCe s c k f) d j = ceAt s d j := by
  unfold ceAt modCe
  by_cases hd : d = c
  · subst hd
    simp [Map.getD_put_ne _ _ _ _ _ (show j ≠ k by tauto)]
  · rw [coreAt_modCore_ne s c d _ hd]

/-! Registers of a squad (R112 to R120). -/

theorem mergeLanes_getD (old : List Word) (m : BitVec 32) (f : Nat → Word) (l : Nat) (h : l < 32) :
    (mergeLanes old m f).getD l 0 = if inMask m l then f l else old.getD l 0 := by
  simp [mergeLanes, h]

/-- A v register read after a write of one. -/
theorem vget_vset (sq : Squad) (lb r : Nat) (m : BitVec 32) (f : Nat → Word) (lb' r' l : Nat) (hr : r < 256) (hr' : r' < 256) (hl : l < 32) :
    vget (vset sq lb r m f) lb' r' l = if lb' = lb ∧ r' = r ∧ inMask m l = true then f l else vget sq lb' r' l := by
  unfold vget vset
  by_cases h : lb' = lb ∧ r' = r
  · obtain ⟨rfl, rfl⟩ := h
    simp only [Map.getD_put_self, mergeLanes_getD _ _ _ _ hl]
    simp
  · rw [Map.getD_put_ne _ _ _ _ _ (by omega)]
    rw [if_neg (by tauto)]

@[simp] theorem vset_p (sq : Squad) (lb r : Nat) (m : BitVec 32) (f : Nat → Word) : (vset sq lb r m f).p = sq.p := rfl
@[simp] theorem pset_v (sq : Squad) (lb k : Nat) (m x : BitVec 32) : (pset sq lb k m x).v = sq.v := rfl

/-- A write of v registers changes nothing else of a squad. -/
theorem vset_only (sq : Squad) (lb r : Nat) (m : BitVec 32) (f : Nat → Word) : vset sq lb r m f = { sq with v := (vset sq lb r m f).v } := rfl

theorem vsetWide_only (sq : Squad) (lb r : Nat) (m : BitVec 32) (f : Nat → BitVec 256) (n : Nat) :
    vsetWide sq lb r m f n = { sq with v := (vsetWide sq lb r m f n).v } := by
  induction n with
  | zero => rfl
  | succ n ih =>
    simp only [vsetWide]
    rw [vset_only, ih]

/-- A v register read after a write of several. -/
theorem vget_vsetWide (sq : Squad) (lb r : Nat) (m : BitVec 32) (f : Nat → BitVec 256) (lb' r' l : Nat) (hr' : r' < 256) (hl : l < 32) :
    ∀ n, r + n ≤ 256 → vget (vsetWide sq lb r m f n) lb' r' l
      = if lb' = lb ∧ r ≤ r' ∧ r' < r + n ∧ inMask m l = true then (f l).extractLsb' (32 * (r' - r)) 32 else vget sq lb' r' l := by
  intro n
  induction n with
  | zero =>
    intro _
    rw [if_neg (by omega)]
    rfl
  | succ n ih =>
    intro hn
    simp only [vsetWide]
    rw [vget_vset _ _ _ _ _ _ _ _ (by omega) hr' hl, ih (by omega)]
    by_cases h : lb' = lb ∧ r' = r + n ∧ inMask m l = true
    · obtain ⟨rfl, rfl, hm⟩ := h
      rw [if_pos ⟨rfl, rfl, hm⟩, if_pos ⟨rfl, by omega, by omega, hm⟩, Nat.add_sub_cancel_left]
    · rw [if_neg h]
      by_cases h2 : lb' = lb ∧ r ≤ r' ∧ r' < r + n ∧ inMask m l = true
      · rw [if_pos h2, if_pos ⟨h2.1, h2.2.1, by omega, h2.2.2.2⟩]
      · rw [if_neg h2, if_neg]
        intro h3
        exact h2 ⟨h3.1, h3.2.1, by
          have : r' ≠ r + n := fun e => h ⟨h3.1, e, h3.2.2.2⟩
          omega, h3.2.2.2⟩

/-- p7 is always true (R112). -/
@[simp] theorem pget_seven (sq : Squad) (lb : Nat) : pget sq lb 7 = BitVec.allOnes 32 := rfl

theorem pset_only (sq : Squad) (lb k : Nat) (m x : BitVec 32) : pset sq lb k m x = { sq with p := (pset sq lb k m x).p } := rfl

/-- A predicate read after a write of one. -/
theorem pget_pset (sq : Squad) (lb k : Nat) (m x : BitVec 32) (lb' k' : Nat) (hk : k < 8) (hk' : k' < 8) :
    pget (pset sq lb k m x) lb' k' = if lb' = lb ∧ k' = k ∧ k ≠ 7 then (pget sq lb k &&& ~~~m) ||| (x &&& m) else pget sq lb' k' := by
  unfold pget pset
  by_cases h7 : k' = 7
  · subst h7
    rw [if_pos rfl, if_pos rfl, if_neg (by omega)]
  · rw [if_neg h7, if_neg h7]
    by_cases h : lb' = lb ∧ k' = k
    · obtain ⟨rfl, rfl⟩ := h
      simp [h7]
    · rw [Map.getD_put_ne _ _ _ _ _ (by omega), if_neg (by tauto)]

@[simp] theorem qget_qset_self (sq : Squad) (k : Nat) (x : Word) : qget (qset sq k x) k = x := by simp [qget, qset]
theorem qget_qset_ne (sq : Squad) (k j : Nat) (x : Word) (h : j ≠ k) : qget (qset sq k x) j = qget sq j := by
  simp [qget, qset, Map.getD_put_ne _ _ _ _ _ h]

theorem xget_xset (sq : Squad) (lb k : Nat) (m : BitVec 32) (f : Nat → Nat × Nat) (lb' k' l : Nat) (hk : k < 4) (hk' : k' < 4) (hl : l < 32) :
    xget (xset sq lb k m f) lb' k' l = if lb' = lb ∧ k' = k ∧ inMask m l = true then f l else xget sq lb' k' l := by
  unfold xget xset
  by_cases h : lb' = lb ∧ k' = k
  · obtain ⟨rfl, rfl⟩ := h
    by_cases hm : inMask m l = true <;> simp [hl, hm]
  · rw [Map.getD_put_ne _ _ _ _ _ (by omega), if_neg (by tauto)]

end Sys2Proof.Machine
end

