-- ==== Sys2Proof/Laws/Ops.lean ====
section
/-! SUPPORT. What the shared operations on bundles and registers can do, said once: moving on, register instructions, their frames. -/

namespace Sys2Proof.Machine

/-- The meaning of an instruction runs for the bundle in hand. -/
theorem withBundle_issuing {s : State} {u : Bundle} (h : Issuing s u) (f : Bundle → State → State) :
    withBundle s f = .next (f u { s with cur := none }) := by
  simp [withBundle, h.1]

/-! Reading does not see who issues. -/

@[simp] theorem wgAt_cur (s : State) (c : Option Cur) (w : Nat) : wgAt { s with cur := c } w = wgAt s w := rfl
@[simp] theorem sqAt_cur (s : State) (c : Option Cur) (w q : Nat) : sqAt { s with cur := c } w q = sqAt s w q := rfl
@[simp] theorem activeMask_cur (s : State) (c : Option Cur) (u : Bundle) : activeMask { s with cur := c } u = activeMask s u := rfl
@[simp] theorem readReg_cur (s : State) (c : Option Cur) (u : Bundle) (o : Opnd) (l : Nat) : readReg { s with cur := c } u o l = readReg s u o l := rfl
@[simp] theorem stage_cur (s : State) (c : Option Cur) (u : Bundle) (o : Opnds) (l : Nat) : stage { s with cur := c } u o l = stage s u o l := rfl
@[simp] theorem h16_cur (s : State) (c : Option Cur) (w : Nat) : h16 { s with cur := c } w = h16 s w := rfl
@[simp] theorem versionOf_cur (s : State) (c : Option Cur) (w : Nat) : versionOf { s with cur := c } w = versionOf s w := rfl
@[simp] theorem trapInvalid_cur (s : State) (c : Option Cur) (w : Nat) : trapInvalid { s with cur := c } w = trapInvalid s w := rfl

/-- An operand of one word, and of two, as the spec names them. -/
theorem w32_readReg (s : State) (u : Bundle) (a : BitVec 6) (m : BitVec 2) (l : Nat) : w32 (readReg s u ⟨a, m, 1⟩ l) = srcWord s u a m l := by
  simp only [w32, readReg, readWide, srcWord, squadOf]
  apply BitVec.eq_of_toNat_eq
  simp

theorem w64_readReg (s : State) (u : Bundle) (a : BitVec 6) (m : BitVec 2) (l : Nat) : w64 (readReg s u ⟨a, m, 2⟩ l) = srcPair s u a m l := by
  simp only [w64, readReg, readWide, srcPair, squadOf, pairOf]
  apply BitVec.eq_of_getLsbD_eq
  intro i hi
  rw [BitVec.getLsbD_append]
  by_cases h : i < 32
  · simp [h, hi]
  · simp only [h, hi, decide_true, Bool.true_and, BitVec.getLsbD_setWidth, BitVec.getLsbD_or, BitVec.getLsbD_shiftLeft, if_false]
    have := BitVec.getLsbD_of_ge (vget (sqAt s u.wg u.sq) u.e.lb a.toNat (partner (sqAt s u.wg u.sq) (h16 s u.wg) m.toNat l)) i (by omega)
    simp [this, show i < 256 by omega, show i - 32 < 256 by omega]

/-- Permutation code 0 names the lane itself. -/
theorem srcWord_own (s : State) (u : Bundle) (a : BitVec 6) (l : Nat) : srcWord s u a 0 l = ownWord s u a l := rfl

/-- `n` words of a lane's registers as a value: word `k` of it. -/
@[simp] theorem wide32_word (x : Word) : (wide32 x).extractLsb' 0 32 = x := by
  apply BitVec.eq_of_toNat_eq
  simp [wide32]
  exact x.isLt

/-! The entries of a squad. -/

theorem lastBy_mem {α : Type} (key : α → List Nat) : ∀ (l : List α) (y : α), lastBy key l = some y → y ∈ l
  | [], y, h => by simp [lastBy] at h
  | x :: xs, y, h => by
    unfold lastBy at h
    split at h
    · rw [← Option.some.inj h]
      exact List.mem_cons_self
    · rename_i z hz
      split at h
      · rw [← Option.some.inj h]
        exact List.mem_cons_self
      · rw [← Option.some.inj h]
        exact List.mem_cons_of_mem _ (lastBy_mem key xs z hz)

theorem lastBy_isSome {α : Type} (key : α → List Nat) (l : List α) (h : l ≠ []) : ∃ y, lastBy key l = some y := by
  cases l with
  | nil => exact absurd rfl h
  | cons x xs =>
    unfold lastBy
    split
    · exact ⟨_, rfl⟩
    · split <;> exact ⟨_, rfl⟩

/-- THE LAW OF A SEAT (R59): the entry joins the frontier; where it is full, one of the entries goes to the overflow. Nothing else changes. -/
theorem seat_cases (ver : Nat) (peek : VAddr → Word) (sq : Squad) (e : Entry) :
    if sq.frontier.length < Config.frontierSize then seat ver peek sq e = { sq with frontier := sq.frontier ++ [e] }
    else ∃ x ∈ sq.frontier ++ [e], seat ver peek sq e = { sq with frontier := (sq.frontier ++ [e]).erase x, overflow := sq.overflow ++ [x] } := by
  split
  · rename_i h
    rw [seat, if_pos h]
  · rename_i h
    obtain ⟨y, hy⟩ := lastBy_isSome (sortKey ver peek) (sq.frontier ++ [e]) (by simp)
    exact ⟨y, lastBy_mem _ _ _ hy, by simp only [seat, h, if_false, hy]⟩

/-- Seating an entry changes nothing of a squad but its entries, and loses none. -/
theorem seat_only (ver : Nat) (peek : VAddr → Word) (sq : Squad) (e : Entry) :
    seat ver peek sq e = { sq with frontier := (seat ver peek sq e).frontier, overflow := (seat ver peek sq e).overflow } := by
  have h := seat_cases ver peek sq e
  split at h
  · rw [h]
  · obtain ⟨x, -, h⟩ := h
    rw [h]

theorem mem_seat (ver : Nat) (peek : VAddr → Word) (sq : Squad) (e f : Entry) (h : f = e ∨ f ∈ sq.frontier ++ sq.overflow) :
    f ∈ (seat ver peek sq e).frontier ++ (seat ver peek sq e).overflow := by
  have k := seat_cases ver peek sq e
  split at k
  · rw [k]
    simp only [List.mem_append, List.mem_singleton] at h ⊢
    tauto
  · obtain ⟨x, -, k⟩ := k
    rw [k]
    simp only [List.mem_append, List.mem_singleton] at h ⊢
    by_cases hx : f = x
    · exact .inr (.inr hx)
    · rw [List.mem_erase_of_ne hx]
      simp only [List.mem_append, List.mem_singleton]
      tauto

/-- Forming an entry changes nothing of a squad but its entries. -/
theorem placeEntry_only (ver : Nat) (peek : VAddr → Word) (sq : Squad) (e : Entry) :
    placeEntry ver peek sq e = { sq with
      frontier := (placeEntry ver peek sq e).frontier
      overflow := (placeEntry ver peek sq e).overflow
      forms := (placeEntry ver peek sq e).forms } := by
  unfold placeEntry
  split
  · rfl
  · rw [seat_only]

/-! Frames. -/

theorem squadFrame_modSq {s : State} {u : Bundle} (h : Issuing s u) (k : Squad → Squad → Squad) (f : Squad → Squad)
    (hk : f (squadOf s u) = k (squadOf s u) (f (squadOf s u))) :
    squadFrame k s (modSq { s with cur := none } u.wg u.sq f) u.wg u.sq := by
  have hw : u.wg < ({ s with cur := none } : State).wgs.length := h.2.1
  have hq : u.sq < (wgAt { s with cur := none } u.wg).squads.length := h.2.2
  refine ⟨rfl, fun a => rfl, by simp, fun v hv => wgAt_modSq_ne _ _ _ _ _ hv, ?_, fun r hr => sqAt_modSq_ne _ _ _ _ _ _ (.inr hr), ?_⟩
  · rw [wgAt_modSq_self _ _ _ _ hw]
    rfl
  · rw [sqAt_modSq_self _ _ _ _ hw hq]
    exact hk

/-- Two changes of one squad are one. -/
theorem modSq_modSq (s : State) (w q : Nat) (f g : Squad → Squad) : modSq (modSq s w q f) w q g = modSq s w q (fun x => g (f x)) := by
  simp [modSq, modWg, modAt_modAt]

/-- A change that is none. -/
theorem modAt_same {α : Type} (f : α → α) (hf : ∀ x, f x = x) (l : List α) : ∀ i, modAt l i f = l := by
  induction l with
  | nil => exact fun i => rfl
  | cons x xs ih => intro i; cases i <;> simp [modAt, ih, hf]

theorem modSq_id (s : State) (w q : Nat) : modSq s w q (fun x => x) = s := by
  simp only [modSq, modWg]
  rw [modAt_same _ (fun g => by rw [modAt_same _ (fun _ => rfl)])]

/-- A squad as the bundle in hand leaves it when all its threads go on at a place: the bundle's entry has a seat there. -/
def Bundle.leave (u : Bundle) (ver : Nat) (peek : VAddr → Word) (p : Place) (c : Nat) (sq : Squad) : Squad :=
  if u.e.mask = 0 then sq else seat ver peek sq (u.kept u.e.mask p c)

theorem Bundle.leave_only (u : Bundle) (ver : Nat) (peek : VAddr → Word) (p : Place) (c : Nat) (sq : Squad) :
    u.leave ver peek p c sq = { sq with frontier := (u.leave ver peek p c sq).frontier, overflow := (u.leave ver peek p c sq).overflow } := by
  unfold Bundle.leave
  split
  · rfl
  · rw [seat_only]

/-- All threads of a bundle go on: one change of the squad. -/
theorem goOn_all (s : State) (u : Bundle) (p : Place) (d : Nat) :
    goOn s u u.e.mask p d = modSq s u.wg u.sq (u.leave (versionOf s u.wg) (peekWord s u.wg) p ((sqAt s u.wg u.sq).cycle + d)) := by
  unfold goOn
  by_cases h : u.e.mask = 0
  · rw [if_pos h, show u.leave (versionOf s u.wg) (peekWord s u.wg) p ((sqAt s u.wg u.sq).cycle + d) = fun x => x from funext fun x => if_pos h, modSq_id]
  · simp only [h, if_false, if_true, seatIn]
    exact congrArg _ (funext fun x => (if_neg h).symm)

theorem advance_all (s : State) (u : Bundle) :
    advance s u u.e.mask = modSq s u.wg u.sq (u.leave (versionOf s u.wg) (peekWord s u.wg) u.next ((sqAt s u.wg u.sq).cycle + 1)) := by
  rw [← goOn_all]
  unfold advance goOn
  simp

/-- THE LAW OF A CHANGE OF THE SQUAD AFTER WHICH ALL THREADS GO ON: where it leaves cycle and entries alone, it is the change, and the entry. -/
theorem changed_completes {s : State} {u : Bundle} (h : Issuing s u) (f : Squad → Squad) (k : Squad → Squad → Squad)
    (hcy : (f (squadOf s u)).cycle = (squadOf s u).cycle)
    (hfr : (f (squadOf s u)).frontier = (squadOf s u).frontier ∧ (f (squadOf s u)).overflow = (squadOf s u).overflow)
    (hk : ∀ fr ov, { f (squadOf s u) with frontier := fr, overflow := ov } = k (squadOf s u) { f (squadOf s u) with frontier := fr, overflow := ov }) :
    ∃ fr ov, squadOf (advance (modSq { s with cur := none } u.wg u.sq f) u u.e.mask) u = { f (squadOf s u) with frontier := fr, overflow := ov }
      ∧ squadFrame k s (advance (modSq { s with cur := none } u.wg u.sq f) u u.e.mask) u.wg u.sq
      ∧ movedOn s (advance (modSq { s with cur := none } u.wg u.sq f) u u.e.mask) u := by
  have hw : u.wg < ({ s with cur := none } : State).wgs.length := h.2.1
  have hq : u.sq < (wgAt { s with cur := none } u.wg).squads.length := h.2.2
  have hc : (sqAt (modSq { s with cur := none } u.wg u.sq f) u.wg u.sq).cycle = (squadOf s u).cycle := by
    rw [sqAt_modSq_self _ _ _ _ hw hq]
    exact hcy
  rw [advance_all, modSq_modSq, hc]
  generalize hv : versionOf (modSq { s with cur := none } u.wg u.sq f) u.wg = ver
  generalize hp : peekWord (modSq { s with cur := none } u.wg u.sq f) u.wg = peek
  refine ⟨(u.leave ver peek u.next ((squadOf s u).cycle + 1) (f (squadOf s u))).frontier,
    (u.leave ver peek u.next ((squadOf s u).cycle + 1) (f (squadOf s u))).overflow, ?_, squadFrame_modSq h k _ ?_, ?_⟩
  · rw [squadOf, sqAt_modSq_self _ _ _ _ hw hq]
    exact Bundle.leave_only _ _ _ _ _ _
  · rw [Bundle.leave_only]
    exact hk _ _
  · intro hm
    have e : squadOf (modSq { s with cur := none } u.wg u.sq (fun x => u.leave ver peek u.next ((squadOf s u).cycle + 1) (f x))) u
        = seat ver peek (f (squadOf s u)) (u.kept u.e.mask u.next ((squadOf s u).cycle + 1)) := by
      rw [squadOf, sqAt_modSq_self _ _ _ _ hw hq]
      exact if_neg hm
    have k := seat_cases ver peek (f (squadOf s u)) (u.kept u.e.mask u.next ((squadOf s u).cycle + 1))
    unfold seated
    rw [e]
    rw [hfr.1, hfr.2] at k
    split at k
    · rename_i hl
      rw [if_pos hl, k]
      exact ⟨rfl, rfl⟩
    · rename_i hl
      rw [if_neg hl]
      obtain ⟨x, hx, k⟩ := k
      exact ⟨x, hx, by rw [k]; exact ⟨rfl, rfl⟩⟩

/-- Aligned operands pass the check of a register instruction. -/
theorem aligned_passes {al : List (BitVec 6 × Nat)} (h : aligned al) : al.any (fun p => misaligned p.1 p.2) = false := by
  rw [List.any_eq_false]
  intro p hp
  simp [misaligned, h p hp]

/-- THE LAW OF REGISTER INSTRUCTIONS: with aligned operands one completes; its squad is `f` of the old one, but for the entries. -/
theorem regOp_completes (i : Instr) (al : List (BitVec 6 × Nat)) (f : State → Bundle → BitVec 32 → Squad → Squad) (k : Squad → Squad → Squad)
    (post : State → Bundle → Squad → Squad → Prop) (hi : ∀ s, exec i s = withBundle s (regOp al f))
    (hc : ∀ s u g sq, f { s with cur := none } u g sq = f s u g sq)
    (hcy : ∀ s u g sq, (f s u g sq).cycle = sq.cycle ∧ (f s u g sq).frontier = sq.frontier ∧ (f s u g sq).overflow = sq.overflow)
    (hk : ∀ s u g sq fr ov, { f s u g sq with frontier := fr, overflow := ov } = k sq { f s u g sq with frontier := fr, overflow := ov })
    (hp : ∀ s u fr ov, aligned al → post s u (squadOf s u) { f s u (activeMask s u) (squadOf s u) with frontier := fr, overflow := ov }) :
    completes i k (fun _ _ => aligned al) post := by
  intro s u h hal
  have e : regOp al f u { s with cur := none } = advance (modSq { s with cur := none } u.wg u.sq (f s u (activeMask s u))) u u.e.mask := by
    simp only [regOp, aligned_passes hal, Bool.false_eq_true, if_false]
    rw [show f { s with cur := none } u (activeMask { s with cur := none } u) = f s u (activeMask s u) from funext (hc s u _)]
  obtain ⟨fr, ov, h1, h2, h3⟩ := changed_completes h (f s u (activeMask s u)) k (hcy _ _ _ _).1 (hcy _ _ _ _).2 (hk _ _ _ _)
  refine ⟨_, by rw [hi, withBundle_issuing h, e], h2, h3, ?_⟩
  rw [h1]
  exact hp s u fr ov hal

/-- Registers and predicates are their maps. -/
theorem vget_of_v {x y : Squad} (h : x.v = y.v) (lb r l : Nat) : vget x lb r l = vget y lb r l := by simp only [vget, h]
theorem pget_of_p {x y : Squad} (h : x.p = y.p) (lb k : Nat) : pget x lb k = pget y lb k := by simp only [pget, h]

theorem wordsWritten_of_v {u : Bundle} {m : BitVec 32} {d : BitVec 6} {n : Nat} {f : Nat → Wide} {o x y : Squad} (h : x.v = y.v)
    (hw : wordsWritten u m d n f o y) : wordsWritten u m d n f o x := by
  intro lb r l hr hl
  rw [vget_of_v h]
  exact hw lb r l hr hl

theorem predWritten_of_p {u : Bundle} {m : BitVec 32} {p : BitVec 3} {f : Nat → Bool} {o x y : Squad} (h : x.p = y.p)
    (hw : predWritten u m p f o y) : predWritten u m p f o x := by
  intro lb k l hk hl
  rw [pget_of_p h]
  exact hw lb k l hk hl

/-- A write of `n` words from a register on, and a write of a predicate, are what they say. -/
theorem wordsWritten_vsetWide (u : Bundle) (d : BitVec 6) (n : Nat) (hn : n ≤ 8) (sq : Squad) (m : BitVec 32) (f : Nat → Wide) :
    wordsWritten u m d n f sq (vsetWide sq u.e.lb d.toNat m f n) :=
  fun _ _ _ hr hl => vget_vsetWide _ _ _ _ _ _ _ _ hr hl n (by omega)

theorem predWritten_pset (u : Bundle) (p : BitVec 3) (sq : Squad) (x : BitVec 32) (m : BitVec 32) (f : Nat → Bool) (hx : x = maskOf f) :
    predWritten u m p f sq (pset sq u.e.lb p.toNat m x) := by
  subst hx
  intro lb k l hk hl
  rw [pget_pset _ _ _ _ _ _ _ (by omega) hk]
  by_cases h : lb = u.e.lb ∧ k = p.toNat ∧ p.toNat ≠ 7
  · obtain ⟨rfl, rfl, h7⟩ := h
    rw [if_pos ⟨rfl, rfl, h7⟩]
    by_cases hm : inMask m l = true <;> simp [h7, hm, hl]
  · rw [if_neg h, if_neg]
    intro h2
    exact h ⟨h2.1, h2.2.1, h2.2.1 ▸ h2.2.2.1⟩

/-- THE LAW OF LANE INSTRUCTIONS: one writes its words in the guard-true lanes and nothing else. -/
theorem laneOp_writes (i : Instr) (al : List (BitVec 6 × Nat)) (d : BitVec 6) (n : Nat) (f : State → Bundle → Nat → Wide)
    (hi : ∀ s, exec i s = withBundle s (laneOp al d n f)) (hc : ∀ s u l, f { s with cur := none } u l = f s u l) (hn : n ≤ 8) :
    writesWords i al d n f := by
  refine regOp_completes i _ (fun s u g sq => vsetWide sq u.e.lb d.toNat g (f s u) n) keepV _ hi ?_ ?_ ?_ ?_
  · intro s u g sq
    rw [show f { s with cur := none } u = f s u from funext (hc s u)]
  · intro s u g sq
    rw [vsetWide_only]
    exact ⟨rfl, rfl, rfl⟩
  · intro s u g sq fr ov
    rw [vsetWide_only]
    rfl
  · exact fun s u fr ov _ => wordsWritten_of_v (by rfl) (wordsWritten_vsetWide u d n hn _ (activeMask s u) (f s u))

/-- Binary and unary word instructions, and binary pair instructions. -/
theorem bin32_writes (i : Instr) (d a : BitVec 6) (m : BitVec 2) (b : BitVec 6) (n : BitVec 2) (f : Word → Word → Word)
    (hi : ∀ s, exec i s = withBundle s (bin32 d a m b n f)) : writesWord i d (fun s u l => f (srcWord s u a m l) (srcWord s u b n l)) := by
  have h := laneOp_writes i [] d 1 _ hi (fun _ _ _ => rfl) (by decide)
  simp only [w32_readReg] at h
  exact h

theorem un32_writes (i : Instr) (d a : BitVec 6) (m : BitVec 2) (f : Word → Word) (hi : ∀ s, exec i s = withBundle s (un32 d a m f)) :
    writesWord i d (fun s u l => f (srcWord s u a m l)) := by
  have h := laneOp_writes i [] d 1 _ hi (fun _ _ _ => rfl) (by decide)
  simp only [w32_readReg] at h
  exact h

theorem bin64_writes (i : Instr) (d a : BitVec 6) (m : BitVec 2) (b : BitVec 6) (n : BitVec 2) (f : DWord → DWord → DWord)
    (hi : ∀ s, exec i s = withBundle s (bin64 d a m b n f)) :
    writesPair i [(a, 2), (b, 2)] d (fun s u l => f (srcPair s u a m l) (srcPair s u b n l)) := by
  have h := laneOp_writes i _ d 2 _ hi (fun _ _ _ => rfl) (by decide)
  simp only [w64_readReg] at h
  exact h

/-- THE LAW OF PREDICATE INSTRUCTIONS. -/
theorem predOp_writes (i : Instr) (al : List (BitVec 6 × Nat)) (p : BitVec 3) (f : State → Bundle → Nat → Bool)
    (hi : ∀ s, exec i s = withBundle s (predOp al p f)) (hc : ∀ s u l, f { s with cur := none } u l = f s u l) :
    writesPred i al p f := by
  refine regOp_completes i _ (fun s u g sq => pset sq u.e.lb p.toNat g (maskOf (f s u))) keepP _ hi ?_ ?_ ?_ ?_
  · intro s u g sq
    rw [show f { s with cur := none } u = f s u from funext (hc s u)]
  · exact fun _ _ _ _ => ⟨rfl, rfl, rfl⟩
  · exact fun _ _ _ _ _ _ => rfl
  · exact fun s u fr ov _ => predWritten_of_p (by rfl) (predWritten_pset u p _ _ (activeMask s u) (f s u) rfl)

end Sys2Proof.Machine
end

