-- ==== Sys2Proof/Laws/Threads.lean ====
section
/-! SUPPORT. What the operations that move threads do: they change nothing but where threads stand, and keep the fates that others met. -/

namespace Sys2Proof.Machine

/-! The machine apart from where threads stand. -/

theorem map_modAt {α β : Type} (h : α → β) (f : α → α) (g : β → β) (hfg : ∀ x, h (f x) = g (h x)) (l : List α) :
    ∀ i, (modAt l i f).map h = modAt (l.map h) i g := by
  induction l with
  | nil => exact fun i => rfl
  | cons x xs ih => intro i; cases i <;> simp [modAt, ih, hfg]

/-- A workgroup without what says where its threads stand. -/
def Wg.still (g : Wg) : Wg := { g with squads := g.squads.map Squad.still }

theorem still_def (s : State) :
    still s = { s with
      cur := none, ids := 0, faults := [], faultWait := [], unsettled := [], faultSlot := [], queueWrites := [], wgs := s.wgs.map Wg.still } := rfl

/-- A change of a workgroup, seen apart from where threads stand. -/
theorem still_modWg (s : State) (w : Nat) (f g : Wg → Wg) (h : ∀ x, (f x).still = g x.still) : still (modWg s w f) = modWg (still s) w g := by
  simp only [still_def, modWg, map_modAt Wg.still f g h]

theorem still_modSq (s : State) (w q : Nat) (f g : Squad → Squad) (h : ∀ x, (f x).still = g x.still) :
    still (modSq s w q f) = modSq (still s) w q g := by
  refine still_modWg s w _ _ (fun x => ?_)
  simp only [Wg.still, map_modAt Squad.still f g h]

/-- A change of a squad that only moves threads. -/
theorem still_modSq_same (s : State) (w q : Nat) (f : Squad → Squad) (h : ∀ x, (f x).still = x.still) : still (modSq s w q f) = still s := by
  rw [still_modSq s w q f (fun x => x) h, modSq_id]

/-- Two equal machines stay equal under a change that does not look at where threads stand. -/
theorem still_modSq_congr {s t : State} (e : still s = still t) (w q : Nat) (f : Squad → Squad) (h : ∀ x, (f x).still = (f x.still).still) :
    still (modSq s w q f) = still (modSq t w q f) := by
  rw [still_modSq s w q f (fun x => (f x).still) h, still_modSq t w q f (fun x => (f x).still) h, e]

theorem still_modWg_congr {s t : State} (e : still s = still t) (w : Nat) (f : Wg → Wg) (h : ∀ x, (f x).still = (f x.still).still) :
    still (modWg s w f) = still (modWg t w f) := by
  rw [still_modWg s w f (fun x => (f x).still) h, still_modWg t w f (fun x => (f x).still) h, e]

theorem Squad.still_still (q : Squad) : q.still.still = q.still := rfl

/-- Machines that agree apart from where threads stand agree in memory. -/
theorem mem_of_still {s t : State} (e : still s = still t) : s.mem = t.mem := by
  have h := congrArg State.mem e
  exact h

@[simp] theorem still_cur (s : State) (c : Option Cur) : still { s with cur := c } = still s := rfl
@[simp] theorem still_ids (s : State) (n : Nat) : still { s with ids := n } = still s := rfl

theorem still_placeEntry (ver : Nat) (peek : VAddr → Word) (sq : Squad) (e : Entry) : (placeEntry ver peek sq e).still = sq.still := by
  rw [placeEntry_only]
  rfl

@[simp] theorem still_enter (s : State) (w q : Nat) (e : Entry) : still (enter s w q e) = still s :=
  still_modSq_same s w q _ (fun _ => still_placeEntry _ _ _ _)

theorem still_seat (ver : Nat) (peek : VAddr → Word) (sq : Squad) (e : Entry) : (seat ver peek sq e).still = sq.still := by
  rw [seat_only]
  rfl

@[simp] theorem still_seatIn (s : State) (w q : Nat) (e : Entry) : still (seatIn s w q e) = still s :=
  still_modSq_same s w q _ (fun _ => still_seat _ _ _ _)

@[simp] theorem still_goOn (s : State) (u : Bundle) (m : BitVec 32) (p : Place) (d : Nat) : still (goOn s u m p d) = still s := by
  unfold goOn
  dsimp only
  split
  · rfl
  · split
    · exact still_seatIn _ _ _ _
    · exact still_enter _ _ _ _

@[simp] theorem still_advance (s : State) (u : Bundle) (m : BitVec 32) : still (advance s u m) = still s := by
  unfold advance
  dsimp only
  split
  · rfl
  · split
    · exact still_modSq_same _ _ _ _ (fun _ => rfl)
    · exact still_seatIn _ _ _ _

@[simp] theorem still_wait (s : State) (u : Bundle) (m : BitVec 32) (why : Wait) (p : Place) : still (wait s u m why p) = still s := by
  unfold wait
  split
  · rfl
  · exact still_modSq_same _ _ _ _ (fun _ => rfl)

/-- A fold of operations that each keep something keeps it. -/
theorem foldl_keeps {α β γ : Type} (g : β → γ) (f : β → α → β) (h : ∀ s x, g (f s x) = g s) (l : List α) : ∀ s, g (l.foldl f s) = g s := by
  induction l with
  | nil => exact fun s => rfl
  | cons x xs ih => intro s; rw [List.foldl_cons, ih, h]

@[simp] theorem still_reenter (s : State) (w q : Nat) (xs : List (Nat × BitVec 32 × Place)) (d : Nat) : still (reenter s w q xs d) = still s := by
  unfold reenter
  refine foldl_keeps still _ (fun _ _ => ?_) _ _
  dsimp only
  split
  · exact still_modSq_same _ _ _ _ (fun _ => rfl)
  · exact still_enter _ _ _ _

@[simp] theorem still_releaseWhere (s : State) (w q : Nat) (ends : Waiter → Bool) : still (releaseWhere s w q ends) = still s := by
  unfold releaseWhere
  dsimp only
  split
  · rfl
  · rw [still_reenter]
    exact still_modSq_same _ _ _ _ (fun _ => rfl)

@[simp] theorem still_endWaits (s : State) (w q : Nat) (ends : Waiter → Bool) : still (endWaits s w q ends) = still s := by
  unfold endWaits
  rw [still_releaseWhere]
  exact still_modSq_same _ _ _ _ (fun _ => rfl)

@[simp] theorem still_endWaitsWg (s : State) (w : Nat) (ends : Waiter → Bool) : still (endWaitsWg s w ends) = still s := by
  unfold endWaitsWg
  exact foldl_keeps still _ (fun _ _ => still_endWaits _ _ _ _) _ _

@[simp] theorem still_postRecord (s : State) (die : Nat) (r : List Word) : still (postRecord s die r) = still s := by
  unfold postRecord
  split <;> rfl

@[simp] theorem still_settleRecords (s : State) : still (settleRecords s) = still s := by
  unfold settleRecords
  refine (foldl_keeps still _ (fun s u => ?_) _ _).trans rfl
  split
  · exact still_postRecord _ _ _
  · rfl

@[simp] theorem still_reportThread (s : State) (w q lb lane : Nat) (r : List Word) : still (reportThread s w q lb lane r) = still s := by
  unfold reportThread
  rw [still_settleRecords]
  rfl

@[simp] theorem still_parkThreads (s : State) (w q lb : Nat) (lanes : List Nat) (p : Place) (how : Nat → Resume) :
    still (parkThreads s w q lb lanes p how) = still s := still_modSq_same _ _ _ _ (fun _ => rfl)

@[simp] theorem still_faultLanes (s : State) (u : Bundle) (fs : List (Nat × FaultInfo × Staged)) : still (faultLanes s u fs) = still s := by
  unfold faultLanes
  exact foldl_keeps still _ (fun s f => by simp) _ _

@[simp] theorem still_faultIssue (s : State) (u : Bundle) (m : BitVec 32) (i : FaultInfo) : still (faultIssue s u m i) = still s := by
  unfold faultIssue
  split
  · rfl
  · simp

@[simp] theorem still_ownFault (s : State) (u : Bundle) (i : FaultInfo) : still (ownFault s u i) = still s := by simp [ownFault]
@[simp] theorem still_encodingFault (s : State) (u : Bundle) (i : FaultInfo) : still (encodingFault s u i) = still s := by simp [encodingFault]
@[simp] theorem still_debugPark (s : State) (w q lb : Nat) (m : BitVec 32) (a r : Place) (sub imm : Nat) (nb : Bool) :
    still (debugPark s w q lb m a r sub imm nb) = still s := by
  unfold debugPark
  split
  · rfl
  · simp

@[simp] theorem still_holdPlaces (s : State) (u : Bundle) (m : BitVec 32) : still (holdPlaces s u m).2 = still s := by
  unfold holdPlaces newId
  dsimp only
  split
  · rfl
  · refine (still_modSq_same _ _ _ _ ?_).trans rfl
    exact fun _ => rfl

@[simp] theorem still_awaitCheckAt (s : State) (u : Bundle) (m : BitVec 32) (p : Place) : still (awaitCheckAt s u m p) = still s := by
  simp [awaitCheckAt]
@[simp] theorem still_awaitCheck (s : State) (u : Bundle) (m : BitVec 32) : still (awaitCheck s u m) = still s := by simp [awaitCheck]
@[simp] theorem still_parkFailed (s : State) (u : Bundle) (g : BitVec 32) (st : Nat → Staged) (bad : List (Nat × FaultInfo)) :
    still (parkFailed s u g st bad) = still s := by simp [parkFailed]

/-! The fates that threads met. -/

/-- Every thread of the bundle keeps the fate it met. -/
def keepsFates (s t : State) (u : Bundle) : Prop := ∀ l F, met s u l F → met t u l F

theorem keepsFates.refl (s : State) (u : Bundle) : keepsFates s s u := fun _ _ h => h
theorem keepsFates.trans {s t r : State} {u : Bundle} (h : keepsFates s t u) (k : keepsFates t r u) : keepsFates s r u :=
  fun l F m => k l F (h l F m)

/-- What a squad may lose is nothing: entries, waiters, parked and exited threads stay. -/
structure Squad.grows (a b : Squad) : Prop where
  entries : ∀ e ∈ a.frontier ++ a.overflow, ∃ f ∈ b.frontier ++ b.overflow, f.lb = e.lb ∧ (∀ l, inMask e.mask l = true → inMask f.mask l = true) ∧ f.place = e.place
  waiters : ∀ x ∈ a.waiters, x ∈ b.waiters
  parked : ∀ x ∈ a.parked, x ∈ b.parked
  exited : ∀ lb l, inMask (exitedOf a lb) l = true → inMask (exitedOf b lb) l = true

theorem Squad.grows_of_same {a b : Squad} (h1 : b.frontier = a.frontier) (h2 : b.overflow = a.overflow) (h3 : b.waiters = a.waiters)
    (h4 : b.parked = a.parked) (h5 : b.exited = a.exited) : a.grows b :=
  ⟨fun e h => ⟨e, by rw [h1, h2]; exact h, rfl, fun _ hl => hl, rfl⟩, fun x h => h3 ▸ h, fun x h => h4 ▸ h, fun lb l h => by
    unfold exitedOf at h ⊢
    rw [h5]
    exact h⟩

theorem keepsFates_of {s t : State} {u : Bundle} (h : (squadOf s u).grows (squadOf t u)) (hr : ∀ r ∈ recordsOf s, r ∈ recordsOf t) :
    keepsFates s t u := by
  intro l F hm
  cases F with
  | on p =>
    obtain ⟨e, he, h1, h2, h3⟩ := hm
    obtain ⟨f, hf, k1, k2, k3⟩ := h.entries e he
    exact ⟨f, hf, k1.trans h1, k2 l h2, k3.trans h3⟩
  | waits why =>
    obtain ⟨x, hx, k⟩ := hm
    exact ⟨x, h.waiters x hx, k⟩
  | checked =>
    obtain ⟨x, hx, k⟩ := hm
    exact ⟨x, h.waiters x hx, k⟩
  | parked p c sub =>
    obtain ⟨⟨x, hx, k⟩, r, hr', k2⟩ := hm
    exact ⟨⟨x, h.parked x hx, k⟩, r, hr r hr', k2⟩
  | exited => exact h.exited _ _ hm

/-- A change of a squad in which nothing of it is lost. -/
theorem keepsFates_modSq (s : State) (w q : Nat) (f : Squad → Squad) (u : Bundle) (h : ∀ x : Squad, x.grows (f x)) : keepsFates s (modSq s w q f) u := by
  refine keepsFates_of ?_ (fun r hr => hr)
  unfold squadOf
  by_cases hwq : u.wg = w ∧ u.sq = q
  · obtain ⟨rfl, rfl⟩ := hwq
    by_cases hw : u.wg < s.wgs.length
    · by_cases hq : u.sq < (wgAt s u.wg).squads.length
      · rw [sqAt_modSq_self _ _ _ _ hw hq]
        exact h _
      · have e : sqAt (modSq s u.wg u.sq f) u.wg u.sq = sqAt s u.wg u.sq := by
          unfold sqAt
          rw [wgAt_modSq_self _ _ _ _ hw, modAt_of_length_le _ _ _ (by omega)]
        rw [e]
        exact Squad.grows_of_same rfl rfl rfl rfl rfl
    · have e : modSq s u.wg u.sq f = s := by simp only [modSq, modWg, modAt_of_length_le s.wgs u.wg _ (by omega)]
      rw [e]
      exact Squad.grows_of_same rfl rfl rfl rfl rfl
  · rw [sqAt_modSq_ne _ _ _ _ _ _ (by tauto)]
    exact Squad.grows_of_same rfl rfl rfl rfl rfl

theorem keepsFates_modWg (s : State) (w : Nat) (f : Wg → Wg) (u : Bundle) (h : ∀ x, (f x).squads = x.squads) : keepsFates s (modWg s w f) u := by
  refine keepsFates_of ?_ (fun r hr => hr)
  have e : sqAt (modWg s w f) u.wg u.sq = sqAt s u.wg u.sq := by
    unfold sqAt
    by_cases hw : u.wg = w
    · subst hw
      by_cases hl : u.wg < s.wgs.length
      · rw [wgAt_modWg_self _ _ _ hl, h]
      · simp only [modWg, modAt_of_length_le s.wgs u.wg _ (by omega)]
    · rw [wgAt_modWg_ne _ _ _ _ hw]
  unfold squadOf
  rw [e]
  exact Squad.grows_of_same rfl rfl rfl rfl rfl

/-- The entries that were there stay when one is seated, or formed. -/
theorem seat_grows (ver : Nat) (peek : VAddr → Word) (sq : Squad) (e : Entry) : sq.grows (seat ver peek sq e) := by
  refine ⟨fun f hf => ⟨f, mem_seat _ _ _ _ _ (.inr hf), rfl, fun _ hl => hl, rfl⟩, ?_, ?_, ?_⟩
  all_goals rw [seat_only]
  · exact fun _ h => h
  · exact fun _ h => h
  · exact fun _ _ h => h

theorem placeEntry_grows (ver : Nat) (peek : VAddr → Word) (sq : Squad) (e : Entry) : sq.grows (placeEntry ver peek sq e) := by
  unfold placeEntry
  split
  · exact Squad.grows_of_same rfl rfl rfl rfl rfl
  · obtain ⟨h1, h2, h3, h4⟩ := seat_grows ver peek { sq with forms := sq.forms + 1 } { e with formed := sq.forms }
    exact ⟨h1, h2, h3, h4⟩

theorem placeEntry_has (ver : Nat) (peek : VAddr → Word) (sq : Squad) (e : Entry) (h : e.mask ≠ 0) :
    ∃ f ∈ (placeEntry ver peek sq e).frontier ++ (placeEntry ver peek sq e).overflow, f.lb = e.lb ∧ f.mask = e.mask ∧ f.place = e.place := by
  unfold placeEntry
  rw [if_neg h]
  exact ⟨{ e with formed := sq.forms }, mem_seat _ _ _ _ _ (.inl rfl), rfl, rfl, rfl⟩

theorem keepsFates_enter (s : State) (w q : Nat) (e : Entry) (u : Bundle) : keepsFates s (enter s w q e) u :=
  keepsFates_modSq s w q _ u (fun _ => placeEntry_grows _ _ _ _)

theorem keepsFates_seatIn (s : State) (w q : Nat) (e : Entry) (u : Bundle) : keepsFates s (seatIn s w q e) u :=
  keepsFates_modSq s w q _ u (fun _ => seat_grows _ _ _ _)

theorem keepsFates_goOn (s : State) (b : Bundle) (m : BitVec 32) (p : Place) (d : Nat) (u : Bundle) : keepsFates s (goOn s b m p d) u := by
  unfold goOn
  dsimp only
  split
  · exact keepsFates.refl s u
  · split
    · exact keepsFates_seatIn s _ _ _ u
    · exact keepsFates_enter s _ _ _ u

/-- Threads that join an entry leave the threads it had there. -/
theorem join_grows (same : Entry → Bool) (m : BitVec 32) (x : Squad) :
    x.grows { x with
      frontier := x.frontier.map (fun f => if same f then { f with mask := f.mask ||| m } else f)
      overflow := x.overflow.map (fun f => if same f then { f with mask := f.mask ||| m } else f) } := by
  refine ⟨fun e he => ⟨if same e then { e with mask := e.mask ||| m } else e, ?_, ?_, fun l hl => ?_, ?_⟩, fun _ h => h, fun _ h => h, fun _ _ h => h⟩
  · rw [← List.map_append]
    exact List.mem_map_of_mem (f := fun f : Entry => if same f then { f with mask := f.mask ||| m } else f) he
  · split <;> rfl
  · split
    · simp only [inMask, BitVec.getLsbD_or] at hl ⊢
      rw [hl]
      rfl
    · exact hl
  · split <;> rfl

theorem keepsFates_advance (s : State) (b : Bundle) (m : BitVec 32) (u : Bundle) : keepsFates s (advance s b m) u := by
  unfold advance
  dsimp only
  split
  · exact keepsFates.refl s u
  · split
    · exact keepsFates_modSq s _ _ _ u (fun x => join_grows _ m x)
    · exact keepsFates_seatIn s _ _ _ u

theorem keepsFates_wait (s : State) (b : Bundle) (m : BitVec 32) (why : Wait) (p : Place) (u : Bundle) : keepsFates s (wait s b m why p) u := by
  unfold wait
  split
  · exact keepsFates.refl s u
  · refine keepsFates_modSq s _ _ _ u (fun x => ⟨fun e he => ⟨e, he, rfl, fun _ hl => hl, rfl⟩, fun y h => ?_, fun _ h => h, fun _ _ h => h⟩)
    exact List.mem_append_left _ h

/-- A seated entry's threads stand at its place. -/
theorem seatIn_met (s : State) (u : Bundle) (e : Entry) (l : Nat) (hw : u.wg < s.wgs.length) (hq : u.sq < (wgAt s u.wg).squads.length)
    (hb : e.lb = u.e.lb) (hl : inMask e.mask l = true) : met (seatIn s u.wg u.sq e) u l (.on e.place) := by
  refine ⟨e, ?_, hb, hl, rfl⟩
  unfold squadOf seatIn
  rw [sqAt_modSq_self _ _ _ _ hw hq]
  exact mem_seat _ _ _ _ _ (.inl rfl)

/-- The threads that go on stand where they were sent. -/
theorem goOn_met (s : State) (u : Bundle) (m : BitVec 32) (p : Place) (d l : Nat) (hw : u.wg < s.wgs.length)
    (hq : u.sq < (wgAt s u.wg).squads.length) (hl : inMask m l = true) : met (goOn s u m p d) u l (.on p) := by
  have hm : m ≠ 0 := by
    rintro rfl
    simp at hl
  unfold goOn
  dsimp only
  rw [if_neg hm]
  split
  · exact seatIn_met s u (u.kept m p _) l hw hq rfl hl
  · unfold enter met squadOf
    dsimp only
    rw [sqAt_modSq_self _ _ _ _ hw hq]
    obtain ⟨f, hf, h1, h2, h3⟩ := placeEntry_has (versionOf s u.wg) (peekWord s u.wg) (sqAt s u.wg u.sq)
      { freshEntry u.e.lb p m 0 ((sqAt s u.wg u.sq).cycle + d) with yielded := u.e.yielded } hm
    exact ⟨f, hf, h1, by rw [h2]; exact hl, h3⟩

/-- The threads that advance stand behind the instruction. -/
theorem advance_met (s : State) (u : Bundle) (m : BitVec 32) (l : Nat) (hw : u.wg < s.wgs.length)
    (hq : u.sq < (wgAt s u.wg).squads.length) (hl : inMask m l = true) : met (advance s u m) u l (.on u.next) := by
  have hm : m ≠ 0 := by
    rintro rfl
    simp at hl
  unfold advance
  dsimp only
  rw [if_neg hm]
  split
  · rename_i h
    obtain ⟨f, hf, hs⟩ := List.any_eq_true.1 h.2
    simp only [Bool.and_eq_true, beq_iff_eq] at hs
    refine ⟨{ f with mask := f.mask ||| m }, ?_, hs.1.2, ?_, hs.2⟩
    · unfold squadOf
      rw [sqAt_modSq_self _ _ _ _ hw hq]
      dsimp only
      rw [← List.map_append]
      refine List.mem_map.2 ⟨f, hf, ?_⟩
      simp [hs.1.1, hs.1.2, hs.2]
    · simp only [inMask, BitVec.getLsbD_or] at hl ⊢
      rw [hl, Bool.or_true]
  · exact seatIn_met s u (u.kept m u.next _) l hw hq rfl hl

theorem wait_met (s : State) (u : Bundle) (m : BitVec 32) (why : Wait) (l : Nat) (hw : u.wg < s.wgs.length)
    (hq : u.sq < (wgAt s u.wg).squads.length) (hl : inMask m l = true) : met (wait s u m why u.next) u l (.waits why) := by
  have hm : m ≠ 0 := by
    rintro rfl
    simp at hl
  unfold wait
  rw [if_neg hm]
  refine ⟨{ lb := u.e.lb, mask := m, why := why, stand := u.e.place, next := u.next }, ?_, rfl, hl, rfl, rfl⟩
  unfold squadOf
  rw [sqAt_modSq_self _ _ _ _ hw hq]
  simp

/-! Fault records. -/

theorem Map.put_keeps {α : Type} (m : Map α) (k : Nat) (v : α) (p : Nat × α) (h : p ∈ m) :
    p ∈ Map.put m k v ∨ (p.1 = k ∧ Map.find m k = some p.2) := by
  induction m with
  | nil => simp at h
  | cons q m ih =>
    obtain ⟨j, x⟩ := q
    unfold Map.put
    split
    · rename_i hj
      rcases List.mem_cons.1 h with rfl | h
      · exact .inr ⟨hj, by simp [Map.find, hj]⟩
      · exact .inl (List.mem_cons_of_mem _ h)
    · rename_i hj
      split
      · exact .inl (List.mem_cons_of_mem _ h)
      · rcases List.mem_cons.1 h with rfl | h
        · exact .inl List.mem_cons_self
        · rcases ih h with h | h
          · exact .inl (List.mem_cons_of_mem _ h)
          · exact .inr ⟨h.1, by simp [Map.find, hj, h.2]⟩

theorem Map.put_has {α : Type} (m : Map α) (k : Nat) (v : α) : (k, v) ∈ Map.put m k v := by
  induction m with
  | nil => simp [Map.put]
  | cons q m ih =>
    obtain ⟨j, x⟩ := q
    unfold Map.put
    split
    · exact List.mem_cons_self
    · split
      · exact List.mem_cons_self
      · exact List.mem_cons_of_mem _ ih

theorem mem_recordsOf {s : State} {r : List Word} : r ∈ recordsOf s ↔
    (∃ p ∈ s.faults, r ∈ p.2) ∨ (∃ p ∈ s.faultWait, p.2 = r) ∨ ∃ u ∈ s.unsettled, u.words = r := by
  simp only [recordsOf, List.mem_append, List.mem_flatMap, List.mem_map, or_assoc]

theorem recordsOf_postRecord (s : State) (die : Nat) (r : List Word) :
    r ∈ recordsOf (postRecord s die r) ∧ ∀ x ∈ recordsOf s, x ∈ recordsOf (postRecord s die r) := by
  unfold postRecord
  split
  · refine ⟨mem_recordsOf.2 (.inl ⟨_, Map.put_has _ _ _, by simp⟩), fun x hx => ?_⟩
    rcases mem_recordsOf.1 hx with ⟨p, hp, hr⟩ | h | h
    · rcases Map.put_keeps s.faults die (Map.getD s.faults die [] ++ [r]) p hp with k | ⟨k1, k2⟩
      · exact mem_recordsOf.2 (.inl ⟨p, k, hr⟩)
      · exact mem_recordsOf.2 (.inl ⟨_, Map.put_has _ _ _, by simp [Map.getD, k2, hr]⟩)
    · exact mem_recordsOf.2 (.inr (.inl h))
    · exact mem_recordsOf.2 (.inr (.inr h))
  · refine ⟨mem_recordsOf.2 (.inr (.inl ⟨(die, r), by simp, rfl⟩)), fun x hx => ?_⟩
    rcases mem_recordsOf.1 hx with h | ⟨p, hp, hr⟩ | h
    · exact mem_recordsOf.2 (.inl h)
    · exact mem_recordsOf.2 (.inr (.inl ⟨p, List.mem_append_left _ hp, hr⟩))
    · exact mem_recordsOf.2 (.inr (.inr h))

/-- Settling loses no record. -/
theorem recordsOf_settleRecords (s : State) : ∀ x ∈ recordsOf s, x ∈ recordsOf (settleRecords s) := by
  have step : ∀ (s : State) (u : Unsettled),
      let t := if settled s u.wg u.sq u.lb u.lane u.before then postRecord s u.die u.words else { s with unsettled := s.unsettled ++ [u] }
      u.words ∈ recordsOf t ∧ ∀ x ∈ recordsOf s, x ∈ recordsOf t := by
    intro s u
    dsimp only
    split
    · exact recordsOf_postRecord s u.die u.words
    · refine ⟨mem_recordsOf.2 (.inr (.inr ⟨u, by simp, rfl⟩)), fun x hx => ?_⟩
      rcases mem_recordsOf.1 hx with h | h | ⟨v, hv, hr⟩
      · exact mem_recordsOf.2 (.inl h)
      · exact mem_recordsOf.2 (.inr (.inl h))
      · exact mem_recordsOf.2 (.inr (.inr ⟨v, List.mem_append_left _ hv, hr⟩))
  have fold : ∀ (l : List Unsettled) (s : State),
      let t := l.foldl (fun s u => if settled s u.wg u.sq u.lb u.lane u.before then postRecord s u.die u.words
        else { s with unsettled := s.unsettled ++ [u] }) s
      (∀ x ∈ recordsOf s, x ∈ recordsOf t) ∧ ∀ u ∈ l, u.words ∈ recordsOf t := by
    intro l
    induction l with
    | nil => exact fun s => ⟨fun x h => h, fun u h => by simp at h⟩
    | cons u us ih =>
      intro s
      have k := step s u
      have h := ih (if settled s u.wg u.sq u.lb u.lane u.before then postRecord s u.die u.words else { s with unsettled := s.unsettled ++ [u] })
      refine ⟨fun x hx => h.1 x (k.2 x hx), fun v hv => ?_⟩
      rcases List.mem_cons.1 hv with rfl | hv
      · exact h.1 _ k.1
      · exact h.2 v hv
  intro x hx
  have h := fold s.unsettled { s with unsettled := [] }
  rcases mem_recordsOf.1 hx with k | k | ⟨u, hu, rfl⟩
  · exact h.1 x (mem_recordsOf.2 (.inl k))
  · exact h.1 x (mem_recordsOf.2 (.inr (.inl k)))
  · exact h.2 u hu

theorem recordsOf_reportThread (s : State) (w q lb lane : Nat) (r : List Word) :
    r ∈ recordsOf (reportThread s w q lb lane r) ∧ ∀ x ∈ recordsOf s, x ∈ recordsOf (reportThread s w q lb lane r) := by
  unfold reportThread
  refine ⟨recordsOf_settleRecords _ _ (mem_recordsOf.2 (.inr (.inr ⟨_, List.mem_append_right _ (List.mem_singleton.2 rfl), rfl⟩))), fun x hx => ?_⟩
  refine recordsOf_settleRecords _ _ (mem_recordsOf.2 ?_)
  rcases mem_recordsOf.1 hx with h | h | ⟨u, hu, hr⟩
  · exact .inl h
  · exact .inr (.inl h)
  · exact .inr (.inr ⟨u, List.mem_append_left _ hu, hr⟩)

@[simp] theorem wgs_postRecord (s : State) (die : Nat) (r : List Word) : (postRecord s die r).wgs = s.wgs := by
  unfold postRecord
  split <;> rfl

@[simp] theorem wgs_settleRecords (s : State) : (settleRecords s).wgs = s.wgs := by
  unfold settleRecords
  refine (foldl_keeps State.wgs _ (fun s u => ?_) _ _).trans rfl
  split
  · exact wgs_postRecord _ _ _
  · rfl

@[simp] theorem wgs_reportThread (s : State) (w q lb lane : Nat) (r : List Word) : (reportThread s w q lb lane r).wgs = s.wgs := by
  simp [reportThread]

theorem sqAt_of_wgs {s t : State} (h : s.wgs = t.wgs) (w q : Nat) : sqAt s w q = sqAt t w q := by simp only [sqAt, wgAt, h]

theorem keepsFates_of_wgs {s t : State} (h : t.wgs = s.wgs) (u : Bundle) (hr : ∀ r ∈ recordsOf s, r ∈ recordsOf t) : keepsFates s t u := by
  refine keepsFates_of ?_ hr
  unfold squadOf
  rw [sqAt_of_wgs h]
  exact Squad.grows_of_same rfl rfl rfl rfl rfl

theorem keepsFates_reportThread (s : State) (w q lb lane : Nat) (r : List Word) (u : Bundle) : keepsFates s (reportThread s w q lb lane r) u :=
  keepsFates_of_wgs (by simp) u (recordsOf_reportThread s w q lb lane r).2

theorem keepsFates_parkThreads (s : State) (w q lb : Nat) (lanes : List Nat) (p : Place) (how : Nat → Resume) (u : Bundle) :
    keepsFates s (parkThreads s w q lb lanes p how) u :=
  keepsFates_modSq s w q _ u (fun _ => ⟨fun e he => ⟨e, he, rfl, fun _ hl => hl, rfl⟩, fun _ h => h, fun _ h => List.mem_append_left _ h, fun _ _ h => h⟩)

/-- The code and the subcode of a record. -/
theorem recordOf_code (i : FaultInfo) (cls lane tid sq ectx wgid lid ctx : Nat) (pc : VAddr) (cwi : Nat) (tclk : BitVec 64)
    (h1 : i.code < 256) (h2 : i.sub < 256) (h3 : i.ucode < 256) (h4 : i.imm < 256) :
    recBits (recordOf i cls lane tid sq ectx wgid lid ctx pc cwi tclk) 0 31 24 = i.code
      ∧ recBits (recordOf i cls lane tid sq ectx wgid lid ctx pc cwi tclk) 0 23 16 = i.sub := by
  simp [recordOf, recBits, wordAt, packWord, bitsOf]
  omega

/-- A whole-issue fault: the threads park at the instruction, with one record that has the code. -/
theorem faultIssue_met (s : State) (u : Bundle) (m : BitVec 32) (i : FaultInfo) (l : Nat) (hw : u.wg < s.wgs.length)
    (hq : u.sq < (wgAt s u.wg).squads.length) (hl : inMask m l = true)
    (h : i.code < 256 ∧ i.sub < 256 ∧ i.ucode < 256 ∧ i.imm < 256) : met (faultIssue s u m i) u l (.parked u.e.place i.code i.sub) := by
  have hm : m ≠ 0 := by
    rintro rfl
    simp at hl
  unfold faultIssue
  rw [if_neg hm]
  refine ⟨⟨{ lb := u.e.lb, lane := l, place := u.e.place, how := .go false }, ?_, rfl, rfl, rfl⟩, _, (recordsOf_reportThread _ _ _ _ _ _).1, ?_⟩
  · unfold squadOf
    rw [sqAt_of_wgs (wgs_reportThread _ _ _ _ _ _)]
    unfold parkThreads
    rw [sqAt_modSq_self _ _ _ _ hw hq]
    simp only [List.mem_append, List.mem_map]
    exact .inr ⟨l, (mem_lanesOf m l).2 ⟨inMask_lt m l hl, hl⟩, rfl⟩
  · exact recordOf_code _ _ _ _ _ _ _ _ _ _ _ _ h.1 h.2.1 h.2.2.1 h.2.2.2

/-! What `still` determines. -/

theorem wgs_of_still {s t : State} (e : still s = still t) : s.wgs.map Wg.still = t.wgs.map Wg.still := by
  have h := congrArg State.wgs e
  exact h

theorem wgAt_of_still {s t : State} (e : still s = still t) (w : Nat) : (wgAt s w).still = (wgAt t w).still := by
  have h : ∀ s : State, (wgAt s w).still = (s.wgs.map Wg.still).getD w blankWg.still := by
    intro s
    simp only [wgAt, List.getD_eq_getElem?_getD, List.getElem?_map]
    cases s.wgs[w]? <;> rfl
  rw [h, h, wgs_of_still e]

theorem squad_of_still {s t : State} (e : still s = still t) (w q : Nat) : (sqAt s w q).still = (sqAt t w q).still := by
  have h : ∀ s : State, (sqAt s w q).still = ((wgAt s w).still.squads).getD q blankSquad.still := by
    intro s
    simp only [sqAt, Wg.still, List.getD_eq_getElem?_getD, List.getElem?_map]
    cases (wgAt s w).squads[q]? <;> rfl
  rw [h, h, wgAt_of_still e]

/-- The squad of a bundle is there. -/
def Bundle.present (u : Bundle) (s : State) : Prop := u.wg < s.wgs.length ∧ u.sq < (wgAt s u.wg).squads.length

theorem present_of_still {s t : State} (e : still s = still t) (u : Bundle) (h : u.present s) : u.present t := by
  have h1 : s.wgs.length = t.wgs.length := by simpa using congrArg List.length (wgs_of_still e)
  have h2 : (wgAt s u.wg).squads.length = (wgAt t u.wg).squads.length := by
    simpa [Wg.still] using congrArg (fun g : Wg => g.squads.length) (wgAt_of_still e u.wg)
  exact ⟨h1 ▸ h.1, h2 ▸ h.2⟩

theorem Issuing.present {s : State} {u : Bundle} (h : Issuing s u) : u.present { s with cur := none } := h.2

/-- Registers, predicates and masks are the same for machines that agree apart from where threads stand. -/
theorem activeMask_of_still {s t : State} (e : still s = still t) (u : Bundle) : activeMask s u = activeMask t u := by
  have h := congrArg Squad.p (squad_of_still e u.wg u.sq)
  have h' : (sqAt s u.wg u.sq).p = (sqAt t u.wg u.sq).p := h
  unfold activeMask
  rw [pget_of_p h']

/-! Completing by the shared shapes. -/

/-- An instruction that only moves every thread on. -/
theorem does_allOn (i : Instr) (pre : State → Bundle → Prop) (f : State → Bundle → State) (g : State → Bundle → State)
    (hi : ∀ s u, Issuing s u → pre s u → exec i s = .next (advance (g { s with cur := none } u) u u.e.mask))
    (hg : ∀ s u, Issuing s u → pre s u → still (g { s with cur := none } u) = still (f s u))
    (hp : ∀ s u, Issuing s u → pre s u → u.present (g { s with cur := none } u)) : does i pre f allOn := by
  intro s u h hpre
  refine ⟨_, hi s u h hpre, ?_, fun a => ?_, fun l _ hl => ?_⟩
  · rw [still_advance, hg s u h hpre]
  · rw [mem_of_still ((still_advance _ _ _).trans (hg s u h hpre))]
  · exact advance_met _ u _ l (hp s u h hpre).1 (hp s u h hpre).2 hl

end Sys2Proof.Machine
end

