-- ==== Sys2Proof/Tests/Slice0.lean ====
section
/-! SUPPORT. Tests: ill-formed terms, words decoded, instructions and events on small states with results worked out by hand from the spec, and for every
statement with hypotheses a state and operands that meet them. -/

namespace Sys2Proof.Tests

open Sys2Proof.Machine

set_option Elab.async false

/-! Well-formedness: for each check a term that it refuses, and one beside it that it accepts. -/

theorem test_wf_control : ([.barArriveFinisher 7 0 0, .barSyncFinisher 7 0, .barRd 1 0 3, .ringInit 8 1, .ringWaitFull 1 8, .ringWaitFree 1 8, .ringCommit 8,
    .ringFree 15, .ringRd 1 8 0, .convDecl 8 1, .convXdecl 4 1, .convRd 1 8 0, .xbarArrive 1 8, .xbarWaitImm 8 0, .xbarWaitReg 8 1] : List Instr).all
    (fun i => !i.wf) = true := by decide
theorem test_wf_control_accepts : ([.barArriveFinisher 6 0 0, .barSyncFinisher 6 0, .barRd 1 0 2, .ringInit 7 1, .ringWaitFull 1 7, .ringWaitFree 1 7,
    .ringCommit 7, .ringFree 7, .ringRd 1 7 0, .convDecl 7 1, .convXdecl 3 1, .convRd 1 7 0, .xbarArrive 1 7, .xbarWaitImm 7 0, .xbarWaitReg 7 1] :
    List Instr).all (fun i => i.wf) = true := by decide
theorem test_wf_predicates : ([.icmpI32 7 0 1 0 2 0, .icmpI32 1 6 1 0 2 0, .icmpN32 7 0 1 0 2 0, .icmpN32 1 7 1 0 2 0, .icmpI64 7 0 2 0 4 0,
    .icmpI64 1 6 2 0 4 0, .fcmpF32 7 0 1 0 2 0, .fcmpF64 7 0 2 0 4 0, .plog 7 0 1 1, .voteAny 7 1, .voteAll 7 1, .scaleFit 1 2 7 0 0, .scaleFit 1 2 1 6 0,
    .normChk 7 0, .hchk 7] : List Instr).all (fun i => !i.wf) = true := by decide
theorem test_wf_moves : ([.qset 32 1 0, .qget 1 32, .permSet 0 1 0, .permSet 4 1 0, .idr 1 15, .bfx 1 2 0 0 0 0, .bfx 1 2 0 1 32 0, .bfi 1 2 0 0 0,
    .bfi 1 2 0 31 2] : List Instr).all (fun i => !i.wf) = true := by decide
theorem test_wf_floats : ([.ffmalF32 1 2 0 3 0 4 0 4, .ffmalF64 2 4 0 6 0 8 0 7, .fsgn 1 2 0 0 0 2 3, .fsgn 1 2 0 0 0 0 0, .fsgn 1 2 0 3 0 2 0, .cvt 1 2 0 0 2 0 0,
    .cvt 1 2 0 2 14 0 0, .cvt 1 2 0 2 3 4 0, .pack 1 4 0 0 0 32 5 0 0, .pack 1 4 0 0 0 1 2 0 0, .pack 1 4 0 8 0 1 5 0 0, .pack 1 4 0 0 0 1 5 4 0,
    .unpack 4 1 0 32 5 0 0, .unpack 4 1 0 1 2 0 0, .unpack 4 1 0 1 5 0 1, .normAcc 4 1, .normChk 1 4] : List Instr).all (fun i => !i.wf) = true := by decide
theorem test_wf_memory : ([.ldAcq 1 2 0 6 0 0, .ldAcq 1 2 0 0 0 5, .ldAcq 1 2 0 0 1 2, .stRel 1 2 0 6 0, .stRel 1 2 0 0 5, .atom 0 2 4 0 16 6 0 0,
    .atom 1 2 4 0 16 0 0 0, .atom 0 2 4 0 0 0 0 0, .atomCas 1 2 4 0 5 0 18 0, .atomCas 1 2 4 0 5 0 16 7, .lbw 1 2 3 0, .lba 1 2 3 0, .lbc 1 2 3 0,
    .lbs 1 2 3 0, .sba 1 2 3 0, .sbc 1 2 3 0, .sbs 1 2 3 0, .lbx 1 2 0 0 0 3, .fence 6] : List Instr).all (fun i => !i.wf) = true := by decide
theorem test_wf_engines : ([.mfmt 8 0, .mma 0 1 32 0 0 0, .mmz 0 0 0 1 63 0, .mmp 0 1 32 0 0 0, .mmaCl 0 1 32 0 0 0, .mmzCl 0 1 40 0 0 0, .mmpCl 0 0 0 1 32 0,
    .accLd 5 0 1 0, .cpaB32 2 4 16 0 1, .cpaB64 2 4 16 0 1, .cpaB128 2 4 63 0 1, .tcp 2 4 8 16 0 1, .tcpColl 2 16 0 1, .cpeRd 1 2 3, .bmtRd 1 2 0 4, .sysrd 1 0x0B,
    .sysrd 1 0x18, .syswr 1 0x0F, .perfRd 1 8, .ceLoopSet 4 0 0, .ceLoopEnd 4 0] : List Instr).all (fun i => !i.wf) = true := by decide
/-- Versions (R30, R31): `send` came with version 6, `bmt.rd` with version 7, and only version 5 has the short shuffle. -/
theorem test_wf_versions : (Instr.send 4).inVersion 5 = false ∧ (Instr.send 4).inVersion 6 = true ∧ (Instr.bmtRd 1 2 0 0).inVersion 6 = false
    ∧ (Instr.shfl16 1 2 0 0).inVersion 6 = false ∧ (Instr.shfl16 1 2 0 0).inVersion 5 = true := by decide

/-! Words written out in the spec, one theorem per family (R75 to R140, R197 to R206, R236 to R254, R263 to R284, R304 to R321, R347). -/

theorem test_decode_control : decodeWord .ctl 7 0x30008027 none = .ok (.barInit 1 4) ∧ decodeWord .ctl 7 0x82004067 none = .ok (.evtWait 2 0 3 0)
    ∧ decodeWord .ctl 7 0x02000031 none = .ok (.bra 6) ∧ guardOf 0x02000031 = 1 := by decide
theorem test_decode_vector : decodeWord .vec 7 0x6E08000F none = .ok (.idr 1 1) ∧ decodeWord .vec 7 0x505840C7 none = .ok (.icmpI32 1 3 2 0 6 0)
    ∧ decodeWord .vec 7 0x5A420307 none = .ok (.plog 1 0 2 3) ∧ decodeWord .vec 7 0x5C084067 (some 0x80) = .ok (.sel 1 2 0 3 0 4) := by decide
theorem test_decode_float : decodeWord .vec 7 0x80182047 none = .ok (.faddF32 3 1 0 2 0)
    ∧ decodeWord .vec 7 0xC0288007 (some 0x00288001) = .ok (.cvt 5 4 0 5 2 0 1)
    ∧ decodeWord .vec 7 0x9C202047 (some 0x0C000100) = .ok (.ffmalF32 4 1 0 2 0 3 0 1) := by decide
theorem test_decode_memory : decodeWord .mem 7 0x08304017 none = .ok (.ldB32 6 2 2) ∧ decodeWord .mem 7 0x0C409FFF none = .ok (.ldB128 8 4 0x3FF)
    ∧ decodeWord .mem 7 0x14304007 none = .ok (.stB32 6 2 0) ∧ decodeWord .mem 7 0x20388007 (some 0x00002002) = .ok (.ldAcq 7 4 0 4 0 2)
    ∧ decodeWord .mem 7 0x50000027 none = .ok (.fence 4) ∧ decodeWord .mem 7 0x62000007 none = .ok .l1Inv := by decide
theorem test_decode_matrix : decodeWord .mat 7 0x00000017 none = .ok (.mfmt 0 2) ∧ decodeWord .mat 7 0x10040617 none = .ok (.accLd 0 8 6 2)
    ∧ decodeWord .mat 7 0x20008007 none = .ok (.mfence 1) ∧ decodeWord .mat 7 0x22000007 none = .ok .mwait
    ∧ decodeWord .mat 7 0x14000707 none = .ok (.accClr 0 7 0) := by decide
theorem test_decode_transfer : decodeWord .xfr 7 0x00408007 (some 0x0C000000) = .ok (.cpaB32 8 4 3 0 0)
    ∧ decodeWord .xfr 7 0x04408007 (some 0x08000003) = .ok (.cpaB128 8 4 2 1 1) ∧ decodeWord .xfr 7 0x10518207 (some 0x04000001) = .ok (.tcp 10 12 16 1 0 1)
    ∧ decodeWord .xfr 7 0x40008007 none = .ok (.send 4) ∧ decodeWord .xfr 7 0x42308007 none = .ok (.recvPost 6 4) := by decide
theorem test_decode_system : decodeWord .sys 7 0x00200027 none = .ok (.sysrd 4 4) := by decide
/-- Reserved encodings are refused by name: a reserved field, an unassigned code, an absent instruction, a long one without its second word. -/
theorem test_decode_refusals : decodeWord .mem 7 0x50000037 none = .error .reserved ∧ decodeWord .ctl 7 0x0000000F none = .error .unassigned
    ∧ decodeWord .xfr 5 0x40008007 none = .error .absent ∧ decodeWord .vec 7 0x5C084067 none = .error .split := by decide


/-! Small states. -/

/-- A launch of version 7, D = 0, NC 0, with seven rings, 64 tags and one granule of each buffer (R20, R107). -/
def tLaunch : Launch := { blankLaunch with khw := [0x70000000, 0, 0x3C010841], stage := 4 }
/-- A squad of one lane block whose registers hold, in every lane, the values listed; nothing stands in it. -/
def tSq (v : List (Nat × Nat)) : Squad :=
  { Squad.start 0 0 1 0 (fun _ => 0) with frontier := [], cycle := 10, v := v.map (fun p => (p.1, List.replicate 32 (BitVec.ofNat 32 p.2))) }
/-- A placed workgroup at firmware level, so that addresses are physical. -/
def tWg (sq : Squad) : Wg := { blankWg with launch := 0, level := 2, status := 0, quarters := [0], squads := [sq], aligned := true }
/-- A place in a clause of fifteen words of class CTL, its base at 0x1000. -/
def tPlace : Place := { pc := 0x1004, base := 0x1000, hdr := 0xCF000000, atHdr := false }
/-- The bundle of lanes `m` of squad 0, unguarded. -/
def tU (m : BitVec 32) : Bundle := { wg := 0, sq := 0, e := freshEntry 0 tPlace m 1 0, guard := 7, words := 1 }
def tS (m : BitVec 32) (g : Wg) : State := { State.reset with launches := [tLaunch], wgs := [g], cur := some (.bundle (tU m)) }
/-- One thread of a squad with registers, at an instruction. -/
def tOne (v : List (Nat × Nat)) (f : Wg → Wg) (q : Squad → Squad) : State := tS 1 (f (tWg (q (tSq v))))

/-- A waiting thread of lane 1. -/
def tWait (why : Wait) : Waiter := { lb := 0, mask := 2, why := why, stand := tPlace, next := tPlace.after 1 }

/-- A check that passed, or failed. -/
def isOk {σ ε α : Type} (x : σ × Except ε α) : Bool :=
  match x.2 with
  | .ok _ => true
  | .error _ => false
theorem exists_of_isOk {σ ε α : Type} (x : σ × Except ε α) (h : isOk x = true) : ∃ r p, x = (r, .ok p) := by
  match x with
  | (r, .ok p) => exact ⟨r, p, rfl⟩
  | (r, .error e) => simp [isOk] at h

/-! Witnesses of the statements' premises: instructions on registers. -/

theorem test_witness_NopOnlyAdvances : ∃ s u, Issuing s u ∧ u.e.mask ≠ 0 := ⟨tS 1 (tWg (tSq [])), tU 1, by decide⟩
theorem test_witness_IntegerResults : ∃ s u, Issuing s u ∧ aligned [(62, 2), (2, 2), (4, 2)] ∧ activeMask s u ≠ 0 :=
  ⟨tOne [(2, 5)] id id, tU 1, by decide⟩
theorem test_witness_PredicateResults : ∃ s u, Issuing s u ∧ aligned [(2, 2), (4, 2)] ∧ ((5 : BitVec 3).toNat ≤ 5) := ⟨tOne [] id id, tU 1, by decide⟩
theorem test_witness_MoveShuffleResults : ∃ s u, Issuing s u ∧ 1 ≤ (3 : BitVec 6).toNat ∧ (3 : BitVec 6).toNat ≤ 3 ∧ (14 : BitVec 8).toNat ≤ 14 :=
  ⟨tOne [] id id, tU 1, by decide⟩
/-- An index register with LIM 1 and BASE 62: word 0 is the last word of an allocation of 64 that a lane reaches with it, and offset 1 is past LIM;
with LIM 511, offset 2 passes the allocation. -/
theorem test_witness_IndexedAccess : (∃ s u, Issuing s u ∧ u.e.lb < 16 ∧ u.sq < 4 ∧ inMask (activeMask s u) 0 = true
      ∧ (0 < indexReg s u 3 0 / 2 ^ 16 ∧ indexReg s u 3 0 % 2 ^ 16 + 0 < 64 * ((squadOf s u).alloc + 1))
      ∧ ¬(1 < indexReg s u 3 0 / 2 ^ 16 ∧ indexReg s u 3 0 % 2 ^ 16 + 1 < 64 * ((squadOf s u).alloc + 1)))
    ∧ ∃ s u, Issuing s u ∧ u.e.lb < 16 ∧ u.sq < 4 ∧ inMask (activeMask s u) 0 = true ∧ 2 < indexReg s u 3 0 / 2 ^ 16
      ∧ ¬(indexReg s u 3 0 % 2 ^ 16 + 2 < 64 * ((squadOf s u).alloc + 1)) :=
  ⟨⟨tOne [] id (fun q => { q with x := [(3, [(1, 63)])] }), tU 1, by decide⟩, tOne [] id (fun q => { q with x := [(3, [(511, 62)])] }), tU 1, by decide⟩
theorem test_witness_ControlFlow : ∃ s u, Issuing s u ∧ (62 : BitVec 6).toNat % 2 = 0 ∧ u.e.mask ≠ 0
    ∧ (∀ k, k < 16 → (joinOf (squadOf s u) u.e.lb k).arr = 0) ∧ (∀ k, k < 8 → (convOf (squadOf s u) k).st ≠ 2) :=
  ⟨tOne [] id id, tU 1, by decide⟩
/-- An exit that completes a rejoin mask another thread waits in; an exit of a signer that has not signed, where another thread has. -/
theorem test_witness_ControlFlow_exits : (∃ s u, Issuing s u ∧ activeMask s u ≠ 0 ∧ (joinOf (squadOf s u) u.e.lb 15).arr ≠ 0
      ∧ (joinOf (squadOf s u) u.e.lb 15).enr &&& ~~~(joinOf (squadOf s u) u.e.lb 15).arr &&& ~~~(exitedOf (squadOf s u) u.e.lb ||| activeMask s u) = 0
      ∧ ∃ x ∈ (squadOf s u).waiters, x.lb = u.e.lb ∧ x.why = .join 15)
    ∧ ∃ s u, Issuing s u ∧ activeMask s u ≠ 0 ∧ (convOf (squadOf s u) 7).st = 2 ∧ inMask (activeMask s u) 0 = true
      ∧ (convOf (squadOf s u) 7).first ≤ u.e.lb * 32 + 0 ∧ u.e.lb * 32 + 0 < (convOf (squadOf s u) 7).first + (convOf (squadOf s u) 7).count
      ∧ u.e.lb * 32 + 0 ∉ (convOf (squadOf s u) 7).signed ∧ (convOf (squadOf s u) 7).signed ≠ [] ∧ (convOf (squadOf s u) 7).open_ ≠ none :=
  ⟨⟨tOne [] id (fun q => { q with j := [(15, { enr := 3, arr := 2 })], waiters := [tWait (.join 15)] }), tU 1, by decide⟩,
    tOne [] id (fun q => { q with conv := [(7, { first := 0, count := 2, st := 2, bound := false, mf0 := 0, mf1 := 0, signed := [1], full := [1], open_ := some (.mmz 7 0 1 0 2 0, tPlace) })] }),
    tU 1, by decide⟩
theorem test_witness_RejoinMasks : (∃ s u, Issuing s u ∧ activeMask s u ≠ 0 ∧ joinSatisfied (squadOf s u) u.e.lb (joinOf (squadOf s u) u.e.lb 15) = true
      ∧ ∃ x ∈ (squadOf s u).waiters, x.lb = u.e.lb ∧ x.why = .join 15)
    ∧ (∃ s u, Issuing s u ∧ joinSatisfied (squadOf s u) u.e.lb
        { joinOf (squadOf s u) u.e.lb 15 with enr := (joinOf (squadOf s u) u.e.lb 15).enr ||| activeMask s u } = true)
    ∧ (∃ s u, Issuing s u ∧ joinSatisfied (squadOf s u) u.e.lb (joinOf (squadOf s u) u.e.lb 15) = false ∧ joinSatisfied (squadOf s u) u.e.lb
        { joinOf (squadOf s u) u.e.lb 15 with enr := (joinOf (squadOf s u) u.e.lb 15).enr &&& ~~~(activeMask s u) } = true)
    ∧ (∃ s u, Issuing s u ∧ activeMask s u ≠ 0 ∧ joinSatisfied (squadOf s u) u.e.lb { joinOf (squadOf s u) u.e.lb 15 with enr := 0 } = true)
    ∧ ∃ s u, Issuing s u ∧ joinSatisfied (squadOf s u) u.e.lb
        { joinOf (squadOf s u) u.e.lb 15 with arr := (joinOf (squadOf s u) u.e.lb 15).arr ||| activeMask s u } = true :=
  let q := fun (enr arr : BitVec 32) (q : Squad) => { q with j := [(15, { enr := enr, arr := arr })], waiters := [tWait (.join 15)] }
  ⟨⟨tOne [] id (q 2 2), tU 1, by decide⟩, ⟨tOne [] id (q 2 3), tU 1, by decide⟩, ⟨tOne [] id (q 3 2), tU 1, by decide⟩,
    ⟨tOne [] id (q 3 2), tU 1, by decide⟩, tOne [] id (q 3 2), tU 1, by decide⟩

/-! Barriers, waits, tags, rings, convergence registers. -/

/-- A barrier in use, of two threads and `e` engine arrivals. -/
def tBar (tarr eexp : Nat) : Bar :=
  { ph := false, init := true, tarr := tarr, texp := 2, earr := 0, eexp := eexp, pend := 0, drops := 0, broken := none, arrivers := [] }
theorem test_witness_BarrierUse_set_up : ∃ s u, Issuing s u ∧ activeMask s u ≠ 0 ∧ (barAt s u 15).broken = none ∧ (barAt s u 15).tarr = 0 ∧ (barAt s u 15).earr = 0
    ∧ (barAt s u 15).pend = 0 ∧ ∀ q ∈ (wgAt s u.wg).squads, ∀ x ∈ q.waiters, onBarrier (15 : BitVec 4).toNat x = false :=
  ⟨tOne [] id id, tU 1, by decide⟩
theorem test_witness_BarrierUse_expect : ∃ s u, Issuing s u ∧ activeMask s u ≠ 0 ∧ (barAt s u 0).broken = none ∧ (barAt s u 0).init = true
    ∧ -(2 ^ 27) ≤ (barAt s u 0).pend + laneSum s u 3 ∧ (barAt s u 0).pend + laneSum s u 3 < 2 ^ 27
    ∧ ¬((barAt s u 0).tarr = (barAt s u 0).texp ∧ (barAt s u 0).earr = (barAt s u 0).eexp ∧ (barAt s u 0).pend + laneSum s u 3 = 0) :=
  ⟨tOne [(3, 2 ^ 27 - 1)] (fun g => { g with bars := [(0, tBar 0 0)] }) id, tU 1, by decide⟩
theorem test_witness_BarrierUse_arrivals : ∃ s u, Issuing s u ∧ arrivesFreely s u 0 ∧ detLaunch s u.wg = false ∧ (squadOf s u).holds = [] :=
  ⟨tOne [] (fun g => { g with bars := [(0, tBar 0 0)] }) id, tU 1, by decide⟩
theorem test_witness_BarrierCompletion_arrivals : (∃ s u, Issuing s u ∧ arrivesLast s u 15 ∧ (squadOf s u).holds = [] ∧ detLaunch s u.wg = false
      ∧ (∃ x ∈ (sqAt s u.wg 0).waiters, awaitsPhase 15 (barAt s u 15).ph x ∧ x.why = .sync 15 true)
      ∧ (∃ x ∈ (sqAt s u.wg 0).waiters, awaitsPhase 15 (barAt s u 15).ph x ∧ x.why = .barrier 15 true))
    ∧ ∃ s u, Issuing s u ∧ arrivesLast s u 15 ∧ (squadOf s u).holds = [] ∧ (barAt s u 15).arrivers = [] :=
  let q := fun (q : Squad) => { q with waiters := [tWait (.sync 15 true), { tWait (.barrier 15 true) with mask := 4 }] }
  ⟨⟨tOne [] (fun g => { g with bars := [(15, tBar 1 0)] }) q, tU 1, by unfold awaitsPhase; decide⟩,
    tS 3 ((fun g => { g with bars := [(15, tBar 0 0)] }) (tWg (q (tSq [])))), tU 3, by decide⟩
theorem test_witness_BarrierCompletion_cluster : (∃ s u, Issuing s u ∧ activeMask s u ≠ 0 ∧ (wgAt s u.wg).aligned = true
      ∧ (∀ f ∈ s.flights, f.2.core ≠ (wgAt s u.wg).core) ∧ s.flights ≠ [] ∧ (wgAt s u.wg).arrivals = []
      ∧ (∀ l, l < 32 → inMask (activeMask s u) l = true → loadsTakenBy (squadOf s u) u.e.lb l s.ids = true)
      ∧ (xbOf s (wgAt s u.wg).core 7).2.getLsbD ((wgAt s u.wg).core % 4) = false
      ∧ (xbOf s (wgAt s u.wg).core 7).2 ||| (1#4 <<< ((wgAt s u.wg).core % 4)) = 15
      ∧ ∃ v ∈ clusterMembers s (wgAt s u.wg).core, ∃ y ∈ (sqAt s v 0).waiters, y.why = .xbar 7 (!(xbOf s (wgAt s u.wg).core 7).1))
    ∧ (∃ s u, Issuing s u ∧ activeMask s u ≠ 0 ∧ (wgAt s u.wg).aligned = true ∧ (wgAt s u.wg).arrivals = []
      ∧ (xbOf s (wgAt s u.wg).core 7).2.getLsbD ((wgAt s u.wg).core % 4) = false
      ∧ (xbOf s (wgAt s u.wg).core 7).2 ||| (1#4 <<< ((wgAt s u.wg).core % 4)) ≠ 15 ∧ s.flights = [] ∧ (squadOf s u).loads = [])
    ∧ ∃ s u, Issuing s u ∧ activeMask s u ≠ 0 ∧ (wgAt s u.wg).aligned = true
      ∧ ∃ f ∈ s.flights, f.1 < s.ids ∧ f.2.core = (wgAt s u.wg).core ∧ f.2.ln.loc = .local 0x2000 :=
  let ln : StLane := { lane := 3, ea := 0x2000, loc := .local 0x2000, attr := physAttr, bytes := [1], atom := none, ret := none, ord := none, place := tPlace
                       staged := { d := 0, a := 0, b := 0, c := 0 }, shown := [] }
  let fly := fun c : Nat => [(7, ({ core := c, wg := 0, sq := 0, lb := 0, seq := 0, ln := ln, performed := false } : Flight))]
  ⟨⟨{ tOne [] id (fun q => { q with waiters := [tWait (.xbar 7 true)] }) with xb := [(7, (false, 14))], flights := fly 1, ids := 8 }, tU 1, by decide⟩,
    ⟨tOne [] id id, tU 1, by decide⟩, { tOne [] id id with flights := fly 0, ids := 8 }, tU 1, by decide⟩
/-- A ring of two slots, the first full. -/
def tRing : Ring := { slots := 2, pcur := 1, ccur := 0, full := 1, sph := 1 }
theorem test_witness_Waits : (∃ s u, Issuing s u ∧ activeMask s u ≠ 0 ∧ (barAt s u 0).broken = none ∧ (barAt s u 0).init = true)
    ∧ (∃ s u, Issuing s u ∧ activeMask s u ≠ 0 ∧ tagsInGrant s u 15 ∧ qpair (squadOf s u) 15 ≠ 0)
    ∧ (∃ s u, Issuing s u ∧ activeMask s u ≠ 0 ∧ (6 : BitVec 4).toNat < ringsOf s u.wg ∧ (ringAt s u 6).slots ≠ 0)
    ∧ ∃ s u, Issuing s u ∧ activeMask s u ≠ 0 ∧ (wgAt s u.wg).aligned = true :=
  ⟨⟨tOne [] (fun g => { g with bars := [(0, tBar 0 0)] }) id, tU 1, by decide⟩,
    ⟨tOne [] id (fun q => { q with q := [(30, 1), (31, 0x80000000)] }), tU 1, by decide⟩,
    ⟨tOne [] (fun g => { g with rings := [(6, tRing)] }) id, tU 1, by decide⟩, tOne [] id id, tU 1, by decide⟩
theorem test_witness_TagsAndRings : (∃ s u, Issuing s u ∧ activeMask s u ≠ 0 ∧ tagsInGrant s u 0)
    ∧ (∃ s u, Issuing s u ∧ activeMask s u ≠ 0 ∧ (0 : BitVec 4).toNat < ringsOf s u.wg ∧ (ringAt s u 0).full = 0
      ∧ 2 ≤ (ownWord s u 3 (lowest (activeMask s u))).toNat % 32 ∧ (ownWord s u 3 (lowest (activeMask s u))).toNat % 32 ≤ 16)
    ∧ (∃ s u, Issuing s u ∧ activeMask s u ≠ 0 ∧ (6 : BitVec 4).toNat < ringsOf s u.wg ∧ (ringAt s u 6).slots ≠ 0
      ∧ (ringAt s u 6).full.getLsbD (ringAt s u 6).pcur = false ∧ countsNow s u
      ∧ ∀ q ∈ (wgAt s u.wg).squads, q.waiters = [])
    ∧ ∃ s u, Issuing s u ∧ activeMask s u ≠ 0 ∧ (6 : BitVec 4).toNat < ringsOf s u.wg ∧ (ringAt s u 6).slots ≠ 0
      ∧ (ringAt s u 6).full.getLsbD (ringAt s u 6).ccur = true ∧ (squadOf s u).loads = [] ∧ (wgAt s u.wg).arrivals = []
      ∧ ∀ q ∈ (wgAt s u.wg).squads, q.waiters = [] :=
  ⟨⟨tOne [] id id, tU 1, by decide⟩, ⟨tOne [(3, 16)] id id, tU 1, by decide⟩,
    ⟨tOne [] (fun g => { g with rings := [(6, tRing)] }) id, tU 1, by decide⟩,
    tOne [] (fun g => { g with rings := [(6, tRing)] }) id, tU 1, by decide⟩
theorem test_witness_ConvergenceRegisters : ∃ s u, Issuing s u ∧ declares s u 7 3 ∧ (wgAt s u.wg).aligned = true :=
  ⟨tOne [(3, 0x00200000)] id id, tU 1, by decide⟩

/-! Memory: one thread whose address pair v4:v5 holds 0x2000, physical, and the same thread at user level with an offset in v4. -/

def tMem (f : Wg → Wg) : State := tOne [(4, 0x2000), (6, 0x12345678), (8, 7), (12, 0)] f id
/-- At user level, where the workgroup has its typed buffers. -/
def tBuf (off : Nat) : State := tOne [(4, off), (8, 0xAABBCCDD)] (fun g => { g with level := 0 }) id

/-- A check that passed and gave something with a property. -/
def okAnd {ε α : Type} (x : State × Except ε α) (p : State → α → Bool) : Bool :=
  match x with
  | (r, .ok a) => p r a
  | _ => false
theorem exists_of_okAnd {ε α : Type} {x : State × Except ε α} {p : State → α → Bool} (h : okAnd x p = true) :
    ∃ r a, x = (r, .ok a) ∧ p r a = true := by
  match x with
  | (r, .ok a) => exact ⟨r, a, rfl, h⟩
  | (r, .error e) => simp [okAnd] at h
theorem exists_of_okPair {ε α β : Type} {x : State × Except ε (α × β)} {p : State → α × β → Bool} (h : okAnd x p = true) :
    ∃ r a b, x = (r, .ok (a, b)) ∧ p r (a, b) = true :=
  let ⟨r, (a, b), k⟩ := exists_of_okAnd h
  ⟨r, a, b, k⟩

theorem test_witness_TicketsLaunchesEvents : (∃ s u l, Issuing s u ∧ (4 : BitVec 6).toNat % 2 = 0 ∧ theLane s u l
      ∧ ∃ r loc, ticketAccess { s with cur := none } u.wg (w64 (stage s u { a := some (own 4 2), b := some ⟨8, 0, 1⟩ } l).a) .load = (r, .ok loc))
    ∧ (∃ s u l, Issuing s u ∧ theLane s u l ∧ ∃ r loc,
      ticketAccess { s with cur := none } u.wg (w64 (stage s u { a := some (own 4 2) } l).a) .atomic = (r, .ok loc)
        ∧ ticketLoc r u.wg ≠ some loc ∧ ∃ x ∈ (sqAt s 0 0).waiters, x.why = .ticket loc 1)
    ∧ (∃ s u l, Issuing s u ∧ theLane s u l
      ∧ ∃ r ws mix, readRecord { s with cur := none } u.wg (w64 (stage s u { a := some (own 4 2) } l).a) false = (r, .ok (ws, mix))
        ∧ (queueGranted (queueOf r (recBits ws 3 21 16)) (contextOf s u) && (queueFull r (recBits ws 3 21 16) == false)) = true)
    ∧ (∃ s u l, Issuing s u ∧ theLane s u l
      ∧ ∃ r ws mix, readRecord { s with cur := none } u.wg (w64 (stage s u { a := some (own 4 2) } l).a) false = (r, .ok (ws, mix))
        ∧ (queueGranted (queueOf r (recBits ws 3 21 16)) (contextOf s u) && (queueFull r (recBits ws 3 21 16) == true)) = true)
    ∧ ∃ s u, Issuing s u ∧ u.e.replay = [] :=
  let q := fun tail : BitVec 16 => { tMem id with queues := [(0, { queueOf State.reset 0 with cfg := 0xA0040000, tail := tail })] }
  ⟨⟨tMem id, tU 1, 0, by decide, by decide, by decide, exists_of_isOk _ (by decide)⟩,
    ⟨tOne [(4, 0x2000)] id (fun q => { q with waiters := [tWait (.ticket 0x4000000200 1)] }), tU 1, 0, by decide, by decide, _, _, rfl, by decide⟩,
    ⟨q 1, tU 1, 0, by decide, by decide, exists_of_okPair (p := fun r y => queueGranted (queueOf r (recBits y.1 3 21 16)) 0 && (queueFull r (recBits y.1 3 21 16) == false)) (by decide)⟩, ⟨q 16, tU 1, 0, by decide, by decide, exists_of_okPair (p := fun r y => queueGranted (queueOf r (recBits y.1 3 21 16)) 0 && (queueFull r (recBits y.1 3 21 16) == true)) (by decide)⟩, tMem id, tU 1, by decide⟩
theorem test_witness_GlobalAccess : (∃ s u l, Issuing s u ∧ theLane s u l ∧ aligned [(4, 2), (8, regWords 16)] ∧ (4 : BitVec 3).toNat ≤ 4 ∧ ∃ r p,
      laneAccess (issued s u) u.wg (w64 (stage s u { a := some (own 4 2) } l).a + (1 : BitVec 10).signExtend 64 * 16) 16 16 .load detRemote true true
        = (r, .ok p))
    ∧ ∃ s u l, Issuing s u ∧ theLane s u l ∧ aligned [(4, 2), (8, regWords 16)] ∧ (squadOf s u).remoteErr = none ∧ ∃ r p,
      laneAccess (issued s u) u.wg (w64 (stage s u { d := some (own 8 4), a := some (own 4 2) } l).a + (0x3FF : BitVec 10).signExtend 64 * 16) 16 16 .store
        detRemote false true = (r, .ok p) :=
  ⟨⟨tMem id, tU 1, 0, by decide, by decide, by decide, by decide, exists_of_isOk _ (by decide)⟩,
    tMem id, tU 1, 0, by decide, by decide, by decide, by decide, exists_of_isOk _ (by decide)⟩
theorem test_witness_AtomicsQueue : (∃ s u l, Issuing s u ∧ theLane s u l ∧ aligned [(4, 2), (8, atomBytes 17 / 4), (12, atomBytes 17 / 4), (6, atomBytes 17 / 4)] ∧ ∃ r p,
      laneAccess (issued s u) u.wg (w64 (stage s u { a := some (own 4 2), b := some ⟨8, 0, 2⟩, c := some ⟨12, 0, 2⟩ } l).a) (atomBytes 17) (atomBytes 17)
        .atomic (atomOrder true 0) true true = (r, .ok p))
    ∧ ∃ s u l, Issuing s u ∧ theLane s u l ∧ aligned [(4, 2), (8, atomBytes 16 / 4)] ∧ ∃ r p,
      laneAccess (issued s u) u.wg (w64 (stage s u { a := some (own 4 2), b := some ⟨8, 0, 1⟩ } l).a) (atomBytes 16) (atomBytes 16) .atomic
        (atomOrder false 0) true true = (r, .ok p) ∧ p.acc.attr.det = false :=
  ⟨⟨tMem id, tU 1, 0, by decide, by decide, by decide, exists_of_isOk _ (by decide)⟩,
    { tMem id with lineKeys := [(0x80000004, 0)] }, tU 1, 0, by decide, by decide, by decide, _, _, rfl, by decide⟩
theorem test_witness_TypedBuffers : (∃ s u l, Issuing s u ∧ theLane s u l ∧ aligned [(8, regWords 16)] ∧ (2 : BitVec 2).toNat ≤ 2 ∧ (∀ spc, spc < 5 → 1 ≤ spc →
      inAllocation s u.wg spc ((w32 (stage s u { a := some (own 4 1) } l).a).toNat + (-1 : Int) * 16) 16
      ∧ bufPoisoned (wgAt s u.wg) spc 16368 16 = false) ∧ (wgAt s u.wg).runs = [] ∧ (squadOf s u).stq = [])
    ∧ (∃ s u l, Issuing s u ∧ theLane s u l ∧ (wgAt s u.wg).aligned = true ∧ aligned [(8, regWords 4)]
      ∧ inAllocation s (clusterMember s u.wg 0) 2 ((w32 (stage s u { a := some (own 4 1) } l).a).toNat + 0 * 4) 4
      ∧ bufPoisoned (wgAt s (clusterMember s u.wg 0)) 2 0 4 = false)
    ∧ (∃ s u l, Issuing s u ∧ theLane s u l ∧ aligned [(8, regWords 16)] ∧ (wgAt s u.wg).runs = [] ∧ ∀ spc, spc < 5 → 2 ≤ spc →
      inAllocation s u.wg spc ((w32 (stage s u { d := some (own 8 (regWords 16)), a := some (own 4 1) } l).a).toNat + (-1 : Int) * 16) 16)
    ∧ ∃ off n o : Nat, off + n ≤ 2 ^ 20 ∧ o < 2 ^ 20 ∧ off ≤ o ∧ o < off + n :=
  ⟨⟨tBuf 16384, tU 1, 0, by decide⟩, ⟨tBuf 0, tU 1, 0, by decide⟩, ⟨tBuf 16384, tU 1, 0, by decide⟩, 2 ^ 20 - 4, 4, 2 ^ 20 - 1, by decide⟩
theorem test_witness_FencesAndInvalidation : (∃ s u, Issuing s u ∧ (squadOf s u).remoteErr = none)
    ∧ (∃ s u, Issuing s u ∧ activeMask s u ≠ 0 ∧ 0x18 < 256 ∧ 255 < 256 ∧ (squadOf s u).remoteErr = some (0x18, 255, 0x40) ∧ (squadOf s u).stq.isEmpty = true
      ∧ (squadOf s u).loads.all (fun p => !(p.2.lb == u.e.lb && inMask (activeMask s u) p.2.lane)) = true
      ∧ s.flights.all (fun f => !(f.2.wg == u.wg && f.2.sq == u.sq)) = true)
    ∧ ∃ s u l, Issuing s u ∧ theLane s u l ∧ (4 : BitVec 6).toNat % 2 = 0 ∧ ∃ r p,
      access (issued s u) (wgAt s u.wg).core (wgAt s u.wg).ctx ((wgAt s u.wg).level == 2) (w64 (stage s u { a := some (own 4 2) } l).a) .load = (r, .ok p)
        ∧ p.loc = .local 0x4000000200 ∧ recordedKey s (lineOf 0x4000000200) = some p.attr.key :=
  ⟨⟨tMem id, tU 1, by decide⟩, ⟨tOne [] id (fun q => { q with remoteErr := some (0x18, 255, 0x40) }), tU 1, by decide⟩,
    { tMem id with lineKeys := [(0x80000004, 0)] }, tU 1, 0, by decide, by decide, by decide, _, _, rfl, by decide⟩

/-! Floating point, conversions, trouble detection, rounding. -/

theorem test_witness_FloatArithmetic : ∃ s u, Issuing s u ∧ aligned [(62, 2), (2, 2), (4, 2), (6, 2)] ∧ activeMask s u ≠ 0 := ⟨tOne [] id id, tU 1, by decide⟩
theorem test_witness_FloatSelection : ∃ s u, Issuing s u ∧ aligned [(2, 2), (4, 2), (6, 2)] ∧ ((1 : BitVec 5), fp64, 2, 1) ∈
    [((2 : BitVec 5), fp32, 1, 1), (1, fp64, 2, 1), (4, fp16, 1, 2), (3, bf16, 1, 2)] ∧ (Instr.fcos, FnOp.cos).2 = FnOp.cos :=
  ⟨tOne [] id id, tU 1, by decide, by decide, by simp, rfl⟩
/-- Operands that the rules of minimum, maximum and the functions speak of: NaNs, 1 and 2, the two zeros; 4 and 1, whose root and reciprocal root are rational. -/
theorem test_witness_FloatSelection_operands : (∃ a b, (fp32.read false a).isNaN = true ∧ (fp32.read false b).isNaN = true)
    ∧ (∃ a b, (fp64.read false a).isNaN = true ∧ (fp64.read false b).isNaN = false)
    ∧ (∃ a b, orderF (fp32.read false a) (fp32.read false b) = .lt) ∧ (∃ a b, orderF (fp32.read false a) (fp32.read false b) = .gt)
    ∧ (∃ a b, orderF (fp32.read false a) (fp32.read false b) = .eq ∧ (fp32.read false a).isNeg = true ∧ (fp32.read false b).isNeg = false)
    ∧ (∃ a b, orderF (fp32.read false a) (fp32.read false b) = .eq ∧ (fp32.read false a).isNeg = (fp32.read false b).isNeg)
    ∧ (∃ a g, fp32.read true a = .nan g) ∧ (∃ a m e, fp32.read true a = .num true m e ∧ m ≠ 0)
    ∧ (∃ a m e v, fp32.read true a = .num false m e ∧ m ≠ 0 ∧ exactFn .sqrt false m e = some v)
    ∧ (∃ m e v, m ≠ 0 ∧ exactFn .rsq false m e = some v)
    ∧ ∃ a m e v, fp32.read true a = .num true m e ∧ m ≠ 0 ∧ FnOp.exp2 ∉ [FnOp.rsq, .sqrt, .log2] ∧ exactFn .exp2 true m e = some v :=
  ⟨⟨0x7FC00000, 0xFF800001, by decide⟩, ⟨0x7FF8000000000000, 0, by decide⟩, ⟨0x3F800000, 0x40000000, by decide⟩, ⟨0x40000000, 0x3F800000, by decide⟩,
    ⟨0x80000000, 0, by decide⟩, ⟨0, 0, by decide⟩, ⟨0x7F800001, _, rfl⟩, ⟨0xC0800000, _, _, rfl, by decide⟩, ⟨0x40800000, _, _, _, rfl, by decide, rfl⟩,
    ⟨1, 2, _, by decide, rfl⟩, 0xBF800000, _, _, _, rfl, by decide, by decide, rfl⟩
/-- A launch of version 5, under NC 1, where the narrow formats are absent (R140). -/
def tOld : State := { tOne [] id id with launches := [{ tLaunch with khw := [0x50800000, 0, 0] }] }
theorem test_witness_Conversions : (∃ s u, Issuing s u ∧ aligned [(2, 2), (4, 1)] ∧ formatAbsent s u.wg 1 = false ∧ formatAbsent s u.wg 13 = false)
    ∧ (∃ s u, Issuing s u ∧ aligned [(2, 1), (4, 1)] ∧ (formatAbsent s u.wg 5 || formatAbsent s u.wg 2) = true)
    ∧ (∃ s u, Issuing s u ∧ aligned [(4, 4), (8, 4)] ∧ formatAbsent s u.wg 11 = false ∧ u.e.replay = [] ∧ 11 ∈ [3, 4, 5, 6, 7, 10, 11] ∧ codeBits 11 = 4)
    ∧ ∃ s u, Issuing s u ∧ aligned [(60, 4)] ∧ formatAbsent s u.wg 7 = false ∧ u.e.replay = [] ∧ codeBits 7 = 4 :=
  ⟨⟨tOne [] id id, tU 1, by decide⟩, ⟨tOld, tU 1, by decide⟩, ⟨tOne [] id id, tU 1, by decide⟩, tOne [] id id, tU 1, by decide⟩
/-- A scale of one, and operands of every kind. -/
theorem test_witness_Conversions_values : (∃ n d, 0 < n ∧ 0 < d ∧ scaleOf true 0x3F800000 = some (n, d)) ∧ scaleOf true 0 = none
    ∧ (∃ x : Word, ∃ m e, fp32.read true x.toNat = .num true m e) ∧ (∃ x : Word, ∃ neg, fp32.read true x.toNat = .inf neg)
    ∧ (∃ c ∈ [3, 4, 5, 6, 7, 10, 11], ∃ x neg p k, (readCode c true x).1 = .num neg p k ∧ 0 < k)
    ∧ (∃ c ∈ [3, 4, 5, 6, 7, 10, 11], ∃ x neg, (readCode c true x).1 = .inf neg) ∧ ∃ c ∈ [3, 4, 5, 6, 7, 10, 11], ∃ x, (readCode c true x).1 = .nan :=
  ⟨⟨_, _, by decide, by decide, rfl⟩, by decide, ⟨0xBF800000, _, _, rfl⟩, ⟨0x7F800000, _, rfl⟩, ⟨11, by decide, 7, _, _, _, rfl, by decide⟩,
    ⟨3, by decide, 0x7F80, _, rfl⟩, 5, by decide, 0x7F, by decide⟩
theorem test_witness_TroubleDetection : ∃ s u, Issuing s u ∧ aligned [(4, 4)] ∧ activeMask s u ≠ 0 ∧ (6 : BitVec 3).toNat ≤ 6 ∧ (5 : BitVec 3).toNat ≤ 5 :=
  ⟨tOne [] id id, tU 1, by decide⟩
/-- The largest finite code of E4M3 (R139) is 0x7E, 448. -/
theorem test_witness_RoundingAndValues : e4m3 ∈ [fp64, fp32, fp16, bf16, e4m3, e5m2, e2m1, e3m4, fp12] ∧ 0x7E < 2 ^ (e4m3.signBit + 1)
    ∧ (e4m3.read false 0x7E).isNaN = false ∧ (e4m3.read false 0x7E).isInf = false ∧ 0 < 1
    ∧ ratOf (.num false 448 1) ≤ ratOf (e4m3.read false e4m3.maxCode).exact := by
  refine ⟨by simp, by decide, by decide, by decide, by decide, ?_⟩
  have h : (e4m3.read false e4m3.maxCode).exact = .num false 448 1 := by decide
  rw [h]

theorem exists_of_good {ε α : Type} (x : Except ε α) (h : x.toOption.isSome = true) : ∃ o, x = .ok o := by
  cases x with
  | ok o => exact ⟨o, rfl⟩
  | error e => simp [Except.toOption] at h

/-! Matrix: a convergence register of one signer, and one whose range is two threads. -/

def tConv (n : Nat) (bound : Bool) : Conv :=
  { first := 0, count := n, st := 1, bound := bound, mf0 := 0, mf1 := 0, signed := [], full := [], open_ := none }
def tSign (n : Nat) (bound : Bool) : State := tOne [] (fun g => { g with level := 0 }) (fun q => { q with conv := [(7, tConv n bound)] })
theorem test_witness_MatrixSigning : (∃ s u, Issuing s u ∧ maySign s u 7 (.mma 7 1 30 1 28 0) false
      ∧ (convAt s u 7).signed.length + (lanesOf u.e.mask).length < (convAt s u 7).count)
    ∧ (∃ s u, Issuing s u ∧ maySign s u 7 (.mmzCl 7 1 30 1 28 0) true
      ∧ (convAt s u 7).signed.length + (lanesOf u.e.mask).length < (convAt s u 7).count)
    ∧ (∃ s u, Issuing s u ∧ maySign s u 7 (.accClr 7 0 1) false ∧ (convAt s u 7).signed.length + (lanesOf u.e.mask).length = (convAt s u 7).count
      ∧ (wgAt s u.wg).discard = [] ∧ (signedConv s u 7 (.accClr 7 0 1)).full ≠ []
      ∧ ∃ o, matCheck s (opOf s u.wg u.sq 7 (signedConv s u 7 (.accClr 7 0 1)) (.accClr 7 0 1) u.e.place s.ids none)
          (signedConv s u 7 (.accClr 7 0 1)).count = .ok o)
    ∧ ∃ s u, Issuing s u ∧ maySign s u 7 (.mmaCl 7 1 30 1 28 0) true ∧ (convAt s u 7).signed.length + (lanesOf u.e.mask).length = (convAt s u 7).count
      ∧ Map.getD s.xc ((wgAt s u.wg).core / 4 * 4 + 7) [] = [] :=
  ⟨⟨tSign 2 false, tU 1, by decide⟩, ⟨tSign 2 true, tU 1, by decide⟩, ⟨tSign 1 false, tU 1, by decide, by decide, by decide, by decide, by decide, exists_of_good _ (by decide)⟩,
    tSign 1 true, tU 1, by decide⟩
/-- An operation of workgroup 0 in its core's engine. -/
def tMat (i : Instr) : MatOp :=
  { id := 0, wg := 0, sq := 0, ins := i, place := tPlace, conv := 0, signers := [0], null := false, mf0 := 0, mf1 := 0, aRows := [], bRows := [], descA := 0
    descB := 0, started := true, run := none, spoilt := false, prior := [], cluster := none }
/-- The issuing workgroup of core 0 and one on each other core of its cluster, whose parts of a cluster operation wait; `b` is the `B` descriptor of theirs. -/
def tCluster (b : DWord) : State :=
  let g := fun c => { tWg { tSq [] with conv := [(7, { tConv 1 true with mf0 := 0x0863 })] } with level := 0, core := c, status := 0 }
  let part := fun w => { tMat (.mmzCl 7 1 30 1 28 0) with wg := w, mf0 := 0x0863, conv := 7, null := true, descB := b }
  { tS 1 (g 0) with wgs := [g 0, g 1, g 2, g 3], xc := [(7, [(1, part 1), (2, part 2), (3, part 3)])] }
theorem test_witness_MatrixSigning_cluster (b : DWord) (hb : b = 0 ∨ b = 1) : ∃ s u, Issuing s u ∧ maySign s u 7 (.mmzCl 7 1 30 1 28 0) true
    ∧ (convAt s u 7).signed.length + (lanesOf u.e.mask).length = (convAt s u 7).count ∧ activeMask s u ≠ 0
    ∧ ∃ ps, Map.getD s.xc ((wgAt s u.wg).core / 4 * 4 + 7) [] = ps ∧ ps.length = 3 ∧ ((wgAt s u.wg).core % 4 :: ps.map Prod.fst).Nodup
    ∧ (∀ p ∈ ps, p.1 < 4 ∧ isSquad s p.2.wg p.2.sq ∧ (wgAt s p.2.wg).core = (wgAt s u.wg).core / 4 * 4 + p.1)
    ∧ let own := opOf s u.wg u.sq 7 (signedConv s u 7 (.mmzCl 7 1 30 1 28 0)) (.mmzCl 7 1 30 1 28 0) u.e.place s.ids none
      (∀ o ∈ own :: ps.map Prod.snd, (wgAt s o.wg).discard = []) ∧ (∀ o ∈ ps.map Prod.snd, o.null = true ∧ partsAgree own o = decide (b = 0))
      ∧ ∃ x, matCheck s own (convOf (sqAt s own.wg own.sq) own.conv).count = .ok x := by
  obtain rfl | rfl := hb
  · exact ⟨tCluster 0, tU 1, by decide, by decide, by decide, by decide, _, rfl, by decide, by decide, by decide, by decide, by decide +kernel, exists_of_good _ (by decide +kernel)⟩
  · exact ⟨tCluster 1, tU 1, by decide, by decide, by decide, by decide, _, rfl, by decide, by decide, by decide, by decide, by decide +kernel, exists_of_good _ (by decide +kernel)⟩
def tEngine (l : List MatOp) : State := { tOne [] (fun g => { g with level := 0 }) id with cores := [(0, { CoreSt.reset with mat := l })], ids := 1 }
theorem test_witness_MatrixStatusAndC : (∃ s u, Issuing s u ∧ activeMask s u ≠ 0 ∧ (convOf (squadOf s u) 7).st < 2)
    ∧ (∃ s u, Issuing s u ∧ activeMask s u ≠ 0 ∧ 2 ≤ (convOf (squadOf s u) 7).st)
    ∧ (∃ s u, Issuing s u ∧ activeMask s u ≠ 0 ∧ (barAt s u 0).broken = none ∧ (wgAt s u.wg).discard = []
      ∧ (∃ o ∈ (coreAt s (wgAt s u.wg).core).mat, o.wg = u.wg ∧ o.isFence = false) ∧ ∀ o ∈ (coreAt s (wgAt s u.wg).core).mat, o.isFence = false)
    ∧ (∃ s u, Issuing s u ∧ activeMask s u ≠ 0 ∧ (barAt s u 0).broken = none ∧ (barAt s u 0).init = true ∧ (wgAt s u.wg).discard = []
      ∧ (coreAt s (wgAt s u.wg).core).mat = [] ∧ (barAt s u 0).earr + 1 < (barAt s u 0).eexp)
    ∧ (∃ s u l, Issuing s u ∧ theLane s u l ∧ aligned [(8, accWords 4)] ∧ bufCheck s u.wg 3 ((1 * 8192 + (ownWord s u 4 l).toNat : Nat) : Int) 16 = none
      ∧ bufPoisoned (wgAt s u.wg) 3 (1 * 8192 + (ownWord s u 4 l).toNat) 16 = false ∧ (wgAt s u.wg).runs = [])
    ∧ (∃ s u, Issuing s u ∧ inMask (activeMask s u) 0 = true ∧ u.e.replay = [] ∧ (1 * 8192 + (ownWord s u 4 0).toNat) % 16 ≠ 0)
    ∧ ∃ s u, Issuing s u ∧ inMask (activeMask s u) 0 = true ∧ (1 * 8192 + (ownWord s u 4 0).toNat) % 16 = 0
      ∧ allocOf s u.wg 3 < 1 * 8192 + (ownWord s u 4 0).toNat + 16 :=
  ⟨⟨tSign 1 false, tU 1, by decide⟩, ⟨tOne [] id (fun q => { q with conv := [(7, { tConv 1 false with st := 3 })] }), tU 1, by decide⟩,
    ⟨tEngine [tMat (.accClr 0 0 0)], tU 1, by decide⟩, ⟨tOne [] (fun g => { g with bars := [(0, tBar 0 2)] }) id, tU 1, by decide⟩,
    ⟨tBuf 8176, tU 1, 0, by decide⟩, ⟨tBuf 8, tU 1, by decide⟩, tBuf 8192, tU 1, by decide⟩

/-! Engines: context 1 with a page table. Addresses below 2^25 are themselves, readable and writable; the 32 MiB above them name buffer map entry 0,
whose backings of 64 KiB stand at 0x300000 and 0x310000 (R187, R275). -/

/-- Writes words at a physical address. -/
def tWords (s : State) (a : Nat) (ws : List Word) : State := physWrite s a (ws.flatMap bytesOfWord)
/-- Writes a page-table entry: its flags, bits 63 and down, and the rest. -/
def tPte (s : State) (a : Nat) (hi lo : Word) : State := tWords s a [lo, hi]
def tSpace (s : State) : State :=
  let s := { s with ctxs := [(1, { blankCtx with words := [0, 0x10000, 0, 0x20000, 0, 0x40000, 0] })] }
  let s := tPte (tPte s 0x10000 0xC0000000 0x11) 0x11000 0xC0000000 0x12
  let s := tPte (tPte s 0x12000 0xB8000000 0) 0x12008 0xB0004000 0
  tWords s 0x20000 [0xC0000000, 0x30, 0x31, 1]
/-- A machine in which a thread of context 1 runs at user level. -/
def tUser (v : List (Nat × Nat)) : State := tSpace (tOne v (fun g => { g with level := 0, ctx := 1 }) id)
/-- A DENSE record of rank 1 of I32 elements: base, dimension and box of four, in space `spc` (R267). -/
def tLay (spc : Word) (base : Word) : List Word := [0x0810 ||| spc <<< 13, base, 0, 4, 0, 0, 0, 0, 0, 0, 0, 0, 4, 0, 0, 0]
/-- Records at 0x4000 and 0x4040 beside a thread whose v4:v5 and v6:v7 point at them. -/
def tRecs : State := tWords (tWords (tUser [(4, 0x4000), (6, 0x4040)]) 0x4000 (tLay 0 0x5000)) 0x4040 (tLay 4 0)

theorem test_witness_TransferIssue :
    (∃ s u l, Issuing s u ∧ theLane s u l ∧ aligned [(6, 2), (4, 2)] ∧ u.e.replay = [] ∧ completionFault s u.wg 0 63 = none
      ∧ ∃ r p, cpaLane 16 { s with cur := none } u l (stage s u { d := some (own 6 2), a := some (own 4 2) } l) = (r, .ok p))
    ∧ (∃ s u l, Issuing s u ∧ theLane s u l ∧ aligned [(6, 2), (4, 2), (8, 8)] ∧ u.e.replay = [] ∧ completionFault s u.wg 0 0 = none
      ∧ ∃ r p, tcpLane { s with cur := none } u l (stage s u { d := some (own 6 2), a := some (own 4 2), b := some (own 8 8) } l) = (r, .ok p)) :=
  ⟨⟨tUser [(4, 0x5000), (6, 0x2000000)], tU 1, 0, by decide +kernel, by decide +kernel, by decide +kernel, by decide +kernel, by decide +kernel, exists_of_isOk _ (by decide +kernel)⟩,
    tRecs, tU 1, 0, by decide +kernel, by decide +kernel, by decide +kernel, by decide +kernel, by decide +kernel, exists_of_isOk _ (by decide +kernel)⟩

/-- Addresses off a multiple of 16, a record without an index record, and the end of a buffer. -/
theorem test_witness_TransferIssue_places :
    (∃ s u l st r e, cpaLane 16 s u l st = (r, .error e) ∧ (w64 st.a).toNat % 16 ≠ 0)
    ∧ (∃ s u l st r e, cpaLane 16 s u l st = (r, .error e) ∧ (w64 st.a).toNat % 16 = 0 ∧ (w64 st.d).toNat % 16 ≠ 0)
    ∧ (∃ (l : Lay) (co : List Nat), l.idx = none ∧ co.length = 1 ∧ layBase l.ws + (co.headD 0 * layBits l.ws) / 8 +
       ((List.range (co.length - 1)).map (fun k => co.getD (k + 1) 0 * (wordAt l.ws (8 + k)).toNat)).sum < 2 ^ 52)
    ∧ ∃ s w, ∃ off, off < 2 ^ 20 ∧ ∀ spc, 1 ≤ spc → spc ≤ 4 → off + 16 ≤ allocOf s w spc :=
  ⟨⟨tUser [(4, 0x5008), (6, 0x2000000)], tU 1, 0, stage (tUser [(4, 0x5008), (6, 0x2000000)]) (tU 1) { d := some (own 6 2), a := some (own 4 2) } 0, _, _, rfl,
      by decide +kernel⟩,
    ⟨tUser [(4, 0x5000), (6, 0x2000008)], tU 1, 0, stage (tUser [(4, 0x5000), (6, 0x2000008)]) (tU 1) { d := some (own 6 2), a := some (own 4 2) } 0, _, _, rfl,
      by decide +kernel⟩, ⟨⟨tLay 0 0x5000, none⟩, [3], by decide +kernel⟩, tBuf 0, 0, 16368, by decide +kernel⟩

/-- Contexts of the copy engine of core 0. -/
def tCes (l : List (Nat × CeCtx)) (s : State) : State := { s with cores := [(0, { CoreSt.reset with ces := l })] }
def tBusy : CeCtx := { CeCtx.free with owner := some 0, st := 1 }
theorem test_witness_CopyEngineFrontEnd : (∃ s u, Issuing s u ∧ activeMask s u ≠ 0 ∧ ceMayTake s u 3 = true ∧ ∀ j, j < 3 → ceMayTake s u j = false)
    ∧ (∃ s u, Issuing s u ∧ activeMask s u ≠ 0 ∧ ∀ k, k < 4 → ceMayTake s u k = false) ∧ (2 : BitVec 6).toNat ≤ 2 :=
  ⟨⟨tCes [(0, tBusy), (1, tBusy), (2, tBusy)] (tOne [] id id), tU 1, by decide +kernel⟩,
    ⟨tCes [(0, tBusy), (1, tBusy), (2, tBusy), (3, tBusy)] (tOne [] id id), tU 1, by decide +kernel⟩, by decide +kernel⟩

/-! Fabric. -/

/-- A send to device 5 (R304). -/
def tSendOp : SendOp :=
  { ctx := 1, wg := 0, tagOf := none, ddev := 5, tag := 7, rec_ := [], len := 16, stat := 0, na := false, seq := some 0, trunc := false, idx := none, payload := none
    sent := true, granted := 0, poisoned := none, fate := none }
/-- A send descriptor to device 5, a posted receive and a layout record of the payload (R302, R305); `n` sends are queued. -/
def tSend (n : Nat) : State :=
  let s := tWords (tWords (tUser [(4, 0x6000)]) 0x4000 (tLay 0 0x5000)) 0x6000 [5, 7, 0x4000, 0, 16, 0, 0, 0]
  { s with fab := { s.fab with sends := List.replicate n (0, tSendOp) } }
def tPost : State :=
  tWords (tWords (tUser [(4, 0x6000)]) 0x4000 (tLay 0 0x2000000)) 0x6000 [5, 0x3FF, 7, 0xFFFFFFFF, 0x4000, 0, 16, 0, 0x7000, 0, 0, 0, 0, 0, 0, 0]
/-- A collective of two members that reduces: source, destination, a grid of two, communicator 3, a status word (R317). -/
def tShape : List Word := [0x4000, 0, 0x4040, 0, 1, 0, 0x00030808, 0, 0x7000, 0, 0, 0, 0, 0, 0, 0]
def tColl : State :=
  let s := tWords (tWords (tWords (tUser [(4, 0x6000)]) 0x4000 (tLay 0 0x5000)) 0x4040 (tLay 0 0x2000000)) 0x6000 tShape
  { s with fab := { s.fab with comms := [(3, { ctx := 1, members := [Config.ownDevice, 9], contract := 4, tempo := false, timeout := 0, seq := 0 })] } }
/-- The checks of a collective, put together: the shape record's part holds for a communicator whose member is this device. -/
theorem collCheck_none (s : State) (w : Nat) (ws : List Word) (src dst : Lay) (kind : BitVec 1) (x : BitVec 6) (a b : State × List EngFault × List XAddr)
    (st : State × Option EngFault) (zs : laySpc src.ws = 0) (zd : laySpc dst.ws = 0) (bad : (layBad collUser (narrowLay s w) src || layBad collUser (narrowLay s w) dst) = false)
    (ha : boxSides s w src false = a) (hb : boxSides a.1 w dst true = b) (hz : collStat ws ≠ 0) (hst : checkStatus b.1 w (collStat ws) = st)
    (he : firstFault (a.2.1 ++ b.2.1.filter (fun f => !noEntry f) ++ st.2.toList) = none) (hok : shapeOk st.1 ws src.ws dst.ws = true)
    (c : Comm) (hc : Map.find st.1.fab.comms (shapeComm ws) = some c) (hx : (c.ctx == (wgAt st.1 w).ctx) = true) (hn : b.2.1.find? noEntry = none)
    (hm : b.2.2.any (fun p => match p with
      | .bmt m _ _ => !bmtDual (bmtView st.1 (wgAt st.1 w).core (m / 4096) (m % 4096))
      | _ => true) = false)
    (hf : completionFault st.1 w kind x = none) : collCheck s w ws src dst kind x = (st.1, none) := by
  subst ha; subst hb; subst hst
  unfold collCheck
  simp only [bad, hz, zs, zd, if_true, if_false, Bool.false_eq_true]
  rw [he]
  simp only [hok, hc, hx, hn, hf, Bool.not_true, Bool.false_eq_true, if_false, Option.map_none]
  exact if_neg (fun h => Bool.noConfusion (hm.symm.trans h))
theorem shapeOk_own (s : State) (ws src dst : List Word) (c : Comm) (hc : Map.find s.fab.comms (shapeComm ws) = some c)
    (hl : gridExt ws 0 * gridExt ws 1 * gridExt ws 2 = c.members.length) (hm : c.members.getD (ownRank ws) 1024 = Config.ownDevice)
    (h : shapeOk { s with fab := { s.fab with comms := [] } } ws src dst = true) : shapeOk s ws src dst = true := by
  unfold shapeOk at h ⊢
  rw [hc]
  simp only [hl, hm, beq_self_eq_true, Bool.and_true]
  simpa only [Map.find, Bool.and_true] using h

/-- What a check that passed gave. -/
def okOr {ε α : Type} (d : α) (x : Except ε α) : α :=
  match x with
  | .ok a => a
  | .error _ => d
theorem eq_okOr {σ ε α : Type} (d : α) (x : σ × Except ε α) (h : isOk x = true) : x = (x.1, .ok (okOr d x.2)) := by
  match x with
  | (r, .ok p) => rfl
  | (r, .error e) => simp [isOk] at h

def tLay0 : Lay := { ws := [], idx := none }
/-- A collective that is open (R321). -/
def tOpen : Coll :=
  { comm := 3, seq := 0, ctx := 1, wg := 0, die := 0, kindBar := false, x := 0, shape := tShape, src := (tLay 0 0x5000, none)
    dst := (tLay 0 0x2000000, none), rank := 0, group := [0], own := none, sigs := [], granted := [], given := [], acks := [], written := none, entries := [], pubs := [] }
def tColl1 := collRecords { tColl with cur := none } 0 (srcPair tColl (tU 1) 4 0 (lowest (activeMask tColl (tU 1))))
def tCollP : List Word × Lay × Lay := okOr ([], tLay0, tLay0) tColl1.2
theorem collRead : collRecords { tColl with cur := none } 0 (srcPair tColl (tU 1) 4 0 (lowest (activeMask tColl (tU 1)))) =
    (tColl1.1, .ok (tCollP.1, tCollP.2.1, tCollP.2.2)) := by
  simp only [Prod.mk.eta]
  exact eq_okOr ([], tLay0, tLay0) tColl1 (by decide +kernel)
def tCollA := boxSides tColl1.1 0 tCollP.2.1 false
def tCollB := boxSides tCollA.1 0 tCollP.2.2 true
def tCollS := checkStatus tCollB.1 0 (collStat tCollP.1)
def tComm : Comm := { ctx := 1, members := [Config.ownDevice, 9], contract := 4, tempo := false, timeout := 0, seq := 0 }
theorem collComm : tCollS.1.fab.comms = [(3, tComm)] := by
  have h := (collRecords_checked { tColl with cur := none } 0 (srcPair tColl (tU 1) 4 0 (lowest (activeMask tColl (tU 1))))).fab
  rw [tCollS, (checkStatus_checked _ _ _).fab, tCollB, (boxSides_checked _ _ _ _).fab, tCollA, (boxSides_checked _ _ _ _).fab, tColl1, h]
  rfl
theorem collShape : Map.find tCollS.1.fab.comms (shapeComm tCollP.1) = some tComm := by
  have k : shapeComm tCollP.1 = 3 := by decide +kernel
  rw [collComm, k]; rfl
theorem collChecked : collCheck tColl1.1 0 tCollP.1 tCollP.2.1 tCollP.2.2 0 0 = (tCollS.1, none) := by
  have k : ownRank tCollP.1 = 0 := by decide +kernel
  refine collCheck_none _ _ _ _ _ _ _ tCollA tCollB tCollS (by decide +kernel) (by decide +kernel) (by decide +kernel) rfl rfl (by decide +kernel) rfl (by decide +kernel) ?_ tComm collShape
    (by decide +kernel) (by decide +kernel) (by decide +kernel) (by decide +kernel)
  exact shapeOk_own _ _ _ _ tComm collShape (by decide +kernel) (by rw [k]; rfl) (by decide +kernel)
def tReq0 : SendReq := { words := [], lay := tLay0, pay := { rows := [], bytes := 0, poisoned := none, cut := false, held := false, stamps := [] }, mix := false }
theorem test_witness_FabricIssue :
    (∃ s u l r q, Issuing s u ∧ theLane s u l ∧ sendLane { s with cur := none } u (w64 (stage s u { a := some (own 4 2) } l).a) = (r, .ok q)
      ∧ s.fab.sends.length < 1024 ∧ q.pay.held = false)
    ∧ (∃ s u l r q, Issuing s u ∧ theLane s u l ∧ sendLane { s with cur := none } u (w64 (stage s u { a := some (own 4 2) } l).a) = (r, .ok q)
      ∧ s.fab.sends.length = 1024)
    ∧ (∃ s u l r p, Issuing s u ∧ theLane s u l ∧ postLane { s with cur := none } u (w64 (stage s u { a := some (own 4 2) } l).a) = (r, .ok p))
    ∧ (∃ s u l r ws, Issuing s u ∧ theLane s u l ∧ readDesc { s with cur := none } u.wg (w64 (stage s u { a := some (own 4 2) } l).a) 64 16 = (r, .ok ws)
      ∧ patternReserved ws = false)
    ∧ (∃ s u, Issuing s u ∧ activeMask s u ≠ 0 ∧ 16 ≤ collsOpen s (dieOf (wgAt s u.wg).core))
    ∧ ∃ s u r r' ws src dst c, Issuing s u ∧ activeMask s u ≠ 0 ∧ collsOpen s (dieOf (wgAt s u.wg).core) < 16
      ∧ collRecords { s with cur := none } u.wg (srcPair s u 4 0 (lowest (activeMask s u))) = (r, .ok (ws, src, dst))
      ∧ collCheck r u.wg ws src dst 0 0 = (r', none) ∧ Map.find r'.fab.comms (shapeComm ws) = some c
      ∧ ∃ m ∈ groupOf ws c.members.length (ownRank ws), m ≠ ownRank ws := by
  have z : ∀ n, n = 0 ∨ n = 1024 → isOk (sendLane { tSend n with cur := none } (tU 1) (w64 (stage (tSend n) (tU 1) { a := some (own 4 2) } 0).a)) = true := by
    rintro n (rfl | rfl) <;> decide +kernel
  refine ⟨?_, ?_, ?_, ?_, ?_, ?_⟩
  · exact ⟨tSend 0, tU 1, 0, _, _, by decide +kernel, by decide +kernel, eq_okOr tReq0 _ (z 0 (.inl rfl)), by decide +kernel, by decide +kernel⟩
  · obtain ⟨r, q, h⟩ := exists_of_isOk _ (z 1024 (.inr rfl))
    exact ⟨tSend 1024, tU 1, 0, r, q, by decide +kernel, by decide +kernel, h, by decide +kernel⟩
  · obtain ⟨r, q, h⟩ := exists_of_isOk (postLane { tPost with cur := none } (tU 1) (w64 (stage tPost (tU 1) { a := some (own 4 2) } 0).a)) (by decide +kernel)
    exact ⟨tPost, tU 1, 0, r, q, by decide +kernel, by decide +kernel, h⟩
  · exact ⟨tPost, tU 1, 0, _, _, by decide +kernel, by decide +kernel, eq_okOr [] _ (by decide +kernel), by decide +kernel⟩
  · exact ⟨{ tColl with fab := { tColl.fab with colls := List.replicate 16 (0, tOpen) } }, tU 1, by decide +kernel⟩
  · exact ⟨tColl, tU 1, _, _, tCollP.1, tCollP.2.1, tCollP.2.2, tComm, by decide +kernel, by decide +kernel, by decide +kernel,
      collRead, collChecked, collShape, 1, by decide +kernel, by decide +kernel⟩

/-- A workgroup of context 1 that holds its launch's ticket at 0x2000: the word there is its number (R101). -/
def tTicket : State := { tUser [(4, 0x2000)] with launches := [{ tLaunch with rec_ := [0, 0, 0, 0, 0, 0, 0, 0, 0, 0, 0x2000, 0, 0, 0, 0, 0] }] }
theorem test_witness_TicketsLaunchesEvents_pass : ∃ s u l, Issuing s u ∧ theLane s u l ∧ (wgAt s u.wg).passed = false ∧ ∃ r loc,
    ticketAccess { s with cur := none } u.wg (w64 (stage s u { a := some (own 4 2) } l).a) .atomic = (r, .ok loc)
      ∧ (ticketLoc r u.wg == some loc && memWord r loc == BitVec.ofNat 32 (wgAt s u.wg).id) = true :=
  ⟨tTicket, tU 1, 0, by decide +kernel, by decide +kernel, by decide +kernel,
    exists_of_okAnd (p := fun r loc => ticketLoc r 0 == some loc && memWord r loc == BitVec.ofNat 32 (wgAt tTicket 0).id) (by decide +kernel)⟩

/-! Maps and translations, system registers, firmware's instructions. -/

/-- An empty transfer of core 0 that still has a piece to copy. -/
def tXfer (k : Nat) : Xfer :=
  { wg := 0, sq := 0, place := tPlace, ins := .cpaB32 6 4 0 0 0, kindBar := false, x := 0, na := false
    pieces := [{ lane := 0, ea := 0x5000, src := .buf 4 0, dst := .buf 1 k, n := 4, half := none }], halves := 8, parkedLanes := [], abandoned := false
    before := 0, stopped := false, landed := [] }
/-- A context of the copy engine with a line request outstanding. -/
def tMoving : CeCtx := { tBusy with moveNo := 4, moves := [(4, 0x1000, (tXfer 0).pieces)] }
theorem test_witness_MapsAndTranslations :
    (∃ s u, Issuing s u ∧ activeMask s u ≠ 0 ∧ u.e.replay = []) ∧ (3 : BitVec 6).toNat ≤ 3
    ∧ (∃ s u, Issuing s u ∧ activeMask s u ≠ 0 ∧ atLevel s u 2 ∧ (lowPair s u 4).toNat < 2 ^ 52 ∧ nothingChecked s (fun _ => true))
    ∧ (∃ s u, Issuing s u ∧ activeMask s u ≠ 0 ∧ atLevel s u 2 ∧ (lowPair s u 4).toNat < 2 ^ 52 ∧ nothingChecked s (fun c => c == contextOf s u)
      ∧ ¬nothingChecked s (fun _ => true))
    ∧ (∃ s u, Issuing s u ∧ activeMask s u ≠ 0 ∧ atLevel s u 2 ∧ 2 ^ 52 ≤ (lowPair s u 4).toNat)
    ∧ (∃ s u, Issuing s u ∧ activeMask s u ≠ 0 ∧ atLevel s u 2 ∧ (lowPair s u 4).toNat < 2 ^ 52 ∧ (∀ d ∈ s.devOps, d.1 < s.ids)
      ∧ somethingChecked s (fun c => c == contextOf s u))
    ∧ (∃ s u, Issuing s u ∧ activeMask s u ≠ 0 ∧ atLevel s u 2 ∧ (lowPair s u 4).toNat < 2 ^ 52 ∧ (∀ d ∈ s.devOps, d.1 < s.ids)
      ∧ somethingChecked s (fun _ => true))
    ∧ (∃ s u, Issuing s u ∧ activeMask s u ≠ 0 ∧ atLevel s u 1
      ∧ bmtBad ((List.range 4).map (fun k => lowWord s u (8 + BitVec.ofNat 6 k))) = true)
    ∧ ∃ s u, Issuing s u ∧ activeMask s u ≠ 0 ∧ atLevel s u 1 ∧ bmtBad ((List.range 4).map (fun k => lowWord s u (8 + BitVec.ofNat 6 k))) = false
      ∧ (Map.find s.ctxs (contextOf s u)).isSome = true ∧ viewCores s ≠ [] ∧ s.devOps = [] :=
  ⟨⟨tRecs, tU 1, by decide +kernel⟩, by decide +kernel, ⟨tOne [(4, 0xFFFFFFFF), (5, 0xFFFFF)] id id, tU 1, by decide +kernel⟩,
    ⟨{ tOne [] (fun g => { g with selected := 1 }) id with cores := [(0, { CoreSt.reset with xfers := [(0, tXfer 0)], ces := [(3, tMoving)] })] }, tU 1,
      by decide +kernel⟩, ⟨tOne [(5, 0x100000)] id id, tU 1, by decide +kernel⟩,
    ⟨{ tOne [] id id with cores := [(0, { CoreSt.reset with xfers := [(0, tXfer 0)] })] }, tU 1, by decide +kernel, by decide +kernel, by decide +kernel,
      by decide +kernel, by decide +kernel, .inl ⟨0, 0, tXfer 0, by decide +kernel⟩⟩,
    ⟨tCes [(3, tMoving)] (tOne [] id id), tU 1, by decide +kernel, by decide +kernel, by decide +kernel, by decide +kernel, by decide +kernel,
      .inr ⟨0, 3, 0, by decide +kernel, by decide +kernel, by decide +kernel, (4, 0x1000, (tXfer 0).pieces), by decide +kernel⟩⟩, ⟨tOne [] id id, tU 1, by decide +kernel⟩,
    tSpace (tOne [(8, 0xC0000000), (9, 0x30), (10, 0x31), (11, 1)] (fun g => { g with level := 1, ctx := 1 }) id), tU 1, by decide +kernel⟩
theorem test_witness_SystemRegisters : (∃ s u, Issuing s u ∧ atLevel s u 2 ∧ aligned [(62, 2)] ∧ activeMask s u ≠ 0 ∧ s.faultWait = [] ∧ s.fab.quiesced = none)
    ∧ (∃ s u, Issuing s u ∧ atLevel s u 2 ∧ activeMask s u ≠ 0 ∧ s.fab.quiesced = some 3)
    ∧ (7 : BitVec 8).toNat ≤ 7 ∧ (4 ≤ (10 : BitVec 8).toNat ∧ (10 : BitVec 8).toNat ≤ 10) :=
  ⟨⟨tOne [] id id, tU 1, by decide +kernel⟩,
    ⟨{ tOne [] id id with fab := { (tOne [] id id).fab with quiesced := some 3 } }, tU 1, by decide +kernel⟩, by decide +kernel, by decide +kernel⟩

/-- Beside the issuing firmware squad a user workgroup, number 5 of context 1, with one thread standing and one parked. -/
def tOther (v : List (Nat × Nat)) : State :=
  let sq := { tSq [] with frontier := [freshEntry 0 tPlace 2 1 0], parked := [{ lb := 0, lane := 0, place := tPlace, how := .go false }] }
  { tOne v (fun g => { g with selected := 1 }) id with
    wgs := [{ tWg (tSq v) with selected := 1 }, { tWg sq with level := 0, ctx := 1, id := 5, core := 1 }] }
theorem test_witness_FirmwareInstructions :
    (∃ s u, Issuing s u ∧ activeMask s u ≠ 0 ∧ atLevel s u 1 ∧ parkTarget s u 4 = none)
    ∧ (∃ s u, Issuing s u ∧ activeMask s u ≠ 0 ∧ atLevel s u 1 ∧ parkTarget s u 4 = some u.wg ∧ anyParked (wgAt s u.wg) = false)
    ∧ (∃ s u w, Issuing s u ∧ activeMask s u ≠ 0 ∧ atLevel s u 2 ∧ parkTarget s u 4 = some w ∧ w ≠ u.wg ∧ (wgAt s w).status = 0
      ∧ (wgAt s w).leaving ≠ some 2 ∧ anyParked (wgAt s w) = true ∧ ∀ p ∈ (sqAt s w 0).parked, p.lane < 32 ∧ stillBarred (wgAt s w) p = none)
    ∧ (∃ s u w, Issuing s u ∧ activeMask s u ≠ 0 ∧ atLevel s u 1 ∧ parkTarget s u 4 = some w ∧ w ≠ u.wg ∧ (wgAt s w).status = 1
      ∧ anyParked (wgAt s w) = true)
    ∧ (∃ s u w, Issuing s u ∧ activeMask s u ≠ 0 ∧ atLevel s u 1 ∧ parkTarget s u 4 = some w ∧ w ≠ u.wg ∧ (wgAt s w).status = 0
      ∧ (wgAt s w).leaving = some 2 ∧ anyParked (wgAt s w) = true)
    ∧ (∃ s w q e l, q < (wgAt s w).squads.length ∧ e ∈ (sqAt s w q).frontier ∧ l < 32 ∧ inMask e.mask l = true)
    ∧ (∃ s u, Issuing s u ∧ activeMask s u ≠ 0 ∧ atLevel s u 1 ∧ (lowPair s u 4).toNat % 64 = 0 ∧ queuedRecords s u.wg = [])
    ∧ (∃ s u, Issuing s u ∧ activeMask s u ≠ 0 ∧ atLevel s u 1 ∧ (lowPair s u 4).toNat % 64 ≠ 0)
    ∧ ∃ s u r rest x p loc, Issuing s u ∧ activeMask s u ≠ 0 ∧ atLevel s u 1 ∧ (lowPair s u 4).toNat % 64 = 0 ∧ queuedRecords s u.wg = r :: rest
      ∧ s.faultWait = []
      ∧ access { s with cur := none } (wgAt s u.wg).core (wgAt s u.wg).ctx ((wgAt s u.wg).level == 2) (lowPair s u 4) .store = (x, .ok p)
      ∧ p.loc = .local loc :=
  ⟨⟨tOne [(4, 77)] id id, tU 1, by decide +kernel⟩, ⟨tOne [] (fun g => { g with level := 1 }) id, tU 1, by decide +kernel⟩, ⟨tOther [(4, 5)], tU 1, 1, by decide +kernel⟩,
    ⟨modWg (tOther [(4, 5)]) 1 (fun g => { g with status := 1 }), tU 1, 1, by decide +kernel⟩,
    ⟨modWg (tOther [(4, 5)]) 1 (fun g => { g with leaving := some 2 }), tU 1, 1, by decide +kernel⟩, ⟨tOther [(4, 5)], 1, 0, freshEntry 0 tPlace 2 1 0, 1, by decide +kernel⟩,
    ⟨tMem id, tU 1, by decide +kernel⟩, ⟨tOne [(4, 0x2020)] id id, tU 1, by decide +kernel⟩,
    { tMem id with faults := [(0, [List.replicate 16 3, List.replicate 16 4])] }, tU 1, List.replicate 16 3, [List.replicate 16 4], _, _, _, by decide +kernel,
    by decide +kernel, by decide +kernel, by decide +kernel, by decide +kernel, by decide +kernel, rfl, rfl⟩
/-- A physical address with bit 51 set that names a device other than this one lies in that device's memory (R183). -/
theorem access_other (s : State) (core ctx d : Nat) (va : BitVec 64) (k : Access) (z : bitsOf va.toNat 63 52 = 0) (h : bitsOf va.toNat 51 51 = 1)
    (hd : bitsOf va.toNat 50 41 = d) (ho : d ≠ Config.ownDevice) :
    access s core ctx true va k = (s, .ok { loc := .remote d (bitsOf va.toNat 40 0), attr := physAttr, cst := 0, far := va.getLsbD 51 }) := by
  simp [access, physLoc, z, h, hd, ho]
theorem test_witness_FirmwareInstructions_remote : ∃ s u r rest x p dev loc, Issuing s u ∧ activeMask s u ≠ 0 ∧ atLevel s u 1
    ∧ (lowPair s u 4).toNat % 64 = 0 ∧ queuedRecords s u.wg = r :: rest ∧ s.faultWait = []
    ∧ access { s with cur := none } (wgAt s u.wg).core (wgAt s u.wg).ctx ((wgAt s u.wg).level == 2) (lowPair s u 4) .store = (x, .ok p)
    ∧ p.loc = .remote dev loc := by
  let s := fun hi : Nat => { tOne [(4, 0x2000), (5, hi)] id id with faults := [(0, [List.replicate 16 3, List.replicate 16 4])] }
  by_cases h : Config.ownDevice = 5
  · exact ⟨s 0x80C00, tU 1, List.replicate 16 3, [List.replicate 16 4], _, _, _, _, by decide +kernel, by decide +kernel, by decide +kernel,
      by decide +kernel, by decide +kernel, by decide +kernel,
      access_other _ _ _ 6 _ _ (by decide +kernel) (by decide +kernel) (by decide +kernel) (by omega), rfl⟩
  · exact ⟨s 0x80A00, tU 1, List.replicate 16 3, [List.replicate 16 4], _, _, _, _, by decide +kernel, by decide +kernel, by decide +kernel,
      by decide +kernel, by decide +kernel, by decide +kernel,
      access_other _ _ _ 5 _ _ (by decide +kernel) (by decide +kernel) (by decide +kernel) (by omega), rfl⟩

/-! The copy engine: context 2 of core 0, of a user workgroup. -/

/-- The context with registers; its instruction is in hand. -/
def tCe (e : List (Nat × Nat)) : State :=
  { tCes [(2, { tBusy with e := e.map (fun p => (p.1, BitVec.ofNat 64 p.2)) })]
      (tWords (tWords (tUser []) 0x4000 (tLay 0 0x5000)) 0x4040 (tLay 0 0x2000000)) with cur := some (.engine 0 2) }
/-- The same with a COMPOSED record of rank 2 at 0x4080: its index record, of I32 at 0x40C0, names the elements at 0x5040 (R269). -/
def tCeIdx (spc base : Word) (e : List (Nat × Nat)) : State :=
  tWords (tWords (tWords (tCe e) 0x4080 [0x0821 ||| spc <<< 13, base, 0, 4, 4, 0, 0, 0, 16, 0, 0, 0, 0x00010004, 0, 0x40C0, 0]) 0x40C0
    [0x0810, 0x5040, 0, 4, 0, 0, 0, 0, 0, 0, 0, 0, 0, 0, 0, 0])
    0x4000 [0x0820, (if base = 0x2000000 then 0x5000 else 0x2000000), 0, 4, 4, 0, 0, 0, 16, 0, 0, 0, 0x00010004, 0, 0, 0]
theorem test_witness_CopyEngineCompute : ∃ s core k, CeIssuing s core k ∧ (ceAt s core k).st = 1 ∧ (ceAt s core k).st < 4
    ∧ (ceAt s core k).owner.isSome = true ∧ (3 : BitVec 5).toNat < 4 ∧ 4 ≤ (4 : BitVec 5).toNat := ⟨tCe [], 0, 2, by decide +kernel⟩
theorem test_witness_CopyEngineMemory_loads :
    (∃ s core k r x, CeIssuing s core k ∧ ceTouch { s with cur := none } core k (eReg (ceAt s core k) 3 + (0xFFFF : BitVec 16).signExtend 64 * 8) 8 false
      = (r, .ok x))
    ∧ (∃ s core k r x, CeIssuing s core k ∧ ceTouch { s with cur := none } core k (eReg (ceAt s core k) 3 + (1 : BitVec 16).signExtend 64 * 4) 4 true
      = (r, .ok x))
    ∧ ∃ s core k, CeIssuing s core k ∧ (eReg (ceAt s core k) 3 + (1 : BitVec 16).signExtend 64 * 8).toNat % 4 ≠ 0 ∧ (ceAt s core k).st < 4
      ∧ (ceAt s core k).owner.isSome = true :=
  ⟨⟨tCe [(3, 0x5000)], 0, 2, _, _, by decide +kernel, eq_okOr (.pad 0) _ (by decide +kernel)⟩,
    ⟨tCe [(3, 0x2000000)], 0, 2, _, _, by decide +kernel, eq_okOr (.pad 0) _ (by decide +kernel)⟩, tCe [(3, 1)], 0, 2, by decide +kernel⟩
/-- A check that passed, with what is asked of its outcome. -/
theorem passes {σ ε α : Type} (d : α) (x : σ × Except ε α) (P : σ → α → Prop) (h : isOk x = true) (k : P x.1 (okOr d x.2)) :
    ∃ r p, x = (r, .ok p) ∧ P r p := ⟨_, _, eq_okOr d x h, k⟩
/-- `tadr` of coordinate 3 and `tnext` before and at the end of the box's walk. -/
theorem test_witness_CopyEngineMemory_layouts :
    (∃ s, CeIssuing s 0 2 ∧ ∃ r l, ceLay { s with cur := none } 0 2 (eReg (ceAt s 0 2) 3) = (r, .ok l)
      ∧ recordFault r (ceOwner s 0 2) l 31 = none
      ∧ ∃ r' x, locate r (ceOwner s 0 2) .copy l (ceGets (ceAt s 0 2) 31 (layRank l.ws)) = (r', .ok x)
        ∧ ∀ z ∈ x.2, z.1 = 0 ∨ z.1 = contractOf r' (ceOwner s 0 2))
    ∧ (∃ s, CeIssuing s 0 2 ∧ ∃ r l, ceLay { s with cur := none } 0 2 (eReg (ceAt s 0 2) 3) = (r, .ok l) ∧ recordFault r (ceOwner s 0 2) l 1 = none
      ∧ 1 ≤ layRank l.ws ∧ (eReg (ceAt s 0 2) 1 + BitVec.ofNat 64 (layBox l.ws 0)).toNat < layDim l.ws 0)
    ∧ ∃ s, CeIssuing s 0 2 ∧ ∃ r l, ceLay { s with cur := none } 0 2 (eReg (ceAt s 0 2) 3) = (r, .ok l) ∧ recordFault r (ceOwner s 0 2) l 1 = none
      ∧ layRank l.ws = 1 ∧ layDim l.ws 0 ≤ (eReg (ceAt s 0 2) 1 + BitVec.ofNat 64 (layBox l.ws 0)).toNat :=
  ⟨⟨tCe [(3, 0x4000), (31, 3)], by decide +kernel, passes tLay0 _ _ (by decide +kernel) ⟨by decide +kernel, passes (none, []) _ _ (by decide +kernel)
      (by decide +kernel)⟩⟩,
    ⟨tCe [(3, 0x4000), (1, 0xFFFFFFFFFFFFFFFF)], by decide +kernel, passes tLay0 _ _ (by decide +kernel) (by decide +kernel)⟩,
    tCe [(3, 0x4000), (1, 0)], by decide +kernel, passes tLay0 _ _ (by decide +kernel) (by decide +kernel)⟩

/-- The conditions under which a move goes out at once, of a way to form its elements. -/
abbrev goesOut (core k : Nat) (elem : State → Nat → State × CeElem) (n : Nat) (s s1 : State) : Prop :=
  let x := takeLine elem n 0 none s1
  x.2.length = n ∧ 0 < n ∧ (ceAt s1 core k).cursor = 0 ∧ (ceAt s1 core k).moves.length < 64
    ∧ (∀ e ∈ x.2, e.faults = [] ∧ ∀ z ∈ e.stamps, z.1 = 0 ∨ z.1 = contractOf x.1 (ceOwner s core k))
    ∧ (∀ e ∈ x.2, ∀ p ∈ e.piece, sourcePoisoned x.1 (ceOwner s core k) core p = false)
    ∧ ceAt x.1 core k = ceAt s1 core k ∧ x.2.filterMap (fun e => e.piece) ≠ []
/-- A tile move of context 2 of core 0 from the record at e3 to that at e1, origins from e4 on. -/
abbrev tileGoesOut (ks kd : Nat) (s : State) : Prop :=
  CeIssuing s 0 2 ∧ (ceAt s 0 2).held = none ∧ ∃ r1 src, ceLay { s with cur := none } 0 2 (eReg (ceAt s 0 2) 3) = (r1, .ok src) ∧ ∃ r2 dst,
    ceLay r1 0 2 (eReg (ceAt s 0 2) 1) = (r2, .ok dst) ∧ layKind src.ws = ks ∧ layKind dst.ws = kd
      ∧ layBad ceUser (narrowLay r2 (ceOwner s 0 2)) src = false ∧ layBad ceUser (narrowLay r2 (ceOwner s 0 2)) dst = false
      ∧ layBits src.ws = layBits dst.ws
      ∧ goesOut 0 2 (fun s' j => tileElem (ceOwner s 0 2) src dst (ceGets (ceAt s 0 2) 22 5) (ceGets (ceAt s 0 2) 27 5) (nthPos (fullBox src.ws) j) s')
        ((fullBox src.ws).foldl (fun n x => n * x) 1) s r2
theorem test_witness_CopyEngineMemory_moves :
    (∃ s, CeIssuing s 0 2 ∧ 4 ≤ (eReg (ceAt s 0 2) 2).toNat ∧ (eReg (ceAt s 0 2) 2).toNat ≤ 4096 ∧ (eReg (ceAt s 0 2) 2).toNat % 4 = 0
      ∧ (eReg (ceAt s 0 2) 3).toNat % 4 = 0 ∧ (eReg (ceAt s 0 2) 1).toNat % 4 = 0
      ∧ goesOut 0 2 (mvElem (ceOwner s 0 2) (eReg (ceAt s 0 2) 1) (eReg (ceAt s 0 2) 3)) ((eReg (ceAt s 0 2) 2).toNat / 4) s { s with cur := none })
    ∧ (∃ s, tileGoesOut 0 0 s) ∧ (∃ s, tileGoesOut 1 0 s) ∧ (∃ s, tileGoesOut 0 1 s)
    ∧ (∃ s, CeIssuing s 0 2 ∧ 4096 < (eReg (ceAt s 0 2) 2).toNat ∧ (ceAt s 0 2).st < 4 ∧ (ceAt s 0 2).owner.isSome = true)
    ∧ (∃ s, CeIssuing s 0 2 ∧ (ceAt s 0 2).st < 4 ∧ (ceAt s 0 2).owner.isSome = true ∧ (4 ≤ (eReg (ceAt s 0 2) 2).toNat
      ∧ (eReg (ceAt s 0 2) 2).toNat ≤ 4096 ∧ (eReg (ceAt s 0 2) 2).toNat % 4 = 0) ∧ (eReg (ceAt s 0 2) 3).toNat % 4 ≠ 0) :=
  ⟨⟨tCe [(3, 0x5000), (1, 0x2000010), (2, 16)], by decide +kernel⟩,
    ⟨tCe [(3, 0x4000), (1, 0x4040)], by decide +kernel, by decide +kernel, passes tLay0 _ _ (by decide +kernel) (passes tLay0 _ _ (by decide +kernel) (by decide +kernel))⟩,
    ⟨tCeIdx 0 0x5000 [(3, 0x4080), (1, 0x4000)], by decide +kernel, by decide +kernel, passes tLay0 _ _ (by decide +kernel) (passes tLay0 _ _ (by decide +kernel) (by decide +kernel))⟩,
    ⟨tCeIdx 0 0x2000000 [(3, 0x4000), (1, 0x4080)], by decide +kernel, by decide +kernel,
      passes tLay0 _ _ (by decide +kernel) (passes tLay0 _ _ (by decide +kernel) (by decide +kernel))⟩,
    ⟨tCe [(2, 4097)], by decide +kernel⟩, tCe [(2, 4096), (3, 2)], by decide +kernel⟩
theorem test_witness_CopyEngineMemory_completions :
    (∃ s, CeIssuing s 0 2 ∧ (15 : BitVec 5).toNat < 16 ∧ (eReg (ceAt s 0 2) 3).toNat < 2 ^ 27 ∧ (63 : BitVec 6).toNat < tagsOf s (ceOwner s 0 2)
      ∧ (6 : BitVec 3).toNat < ringsOf s (ceOwner s 0 2) ∧ (ringOf (wgAt s (ceOwner s 0 2)) (6 : BitVec 3).toNat).slots ≠ 0)
    ∧ ∃ s, CeIssuing s 0 2 ∧ (ceAt s 0 2).st < 4 ∧ (ceAt s 0 2).owner.isSome = true ∧ 2 ^ 27 ≤ (eReg (ceAt s 0 2) 3).toNat
      ∧ (ringsOf s ((ceAt s 0 2).owner.getD s.wgs.length) ≤ (7 : BitVec 3).toNat
        ∧ (ringOf (wgAt s ((ceAt s 0 2).owner.getD s.wgs.length)) 6).slots = 0)
      ∧ tagsOf { s with launches := [{ tLaunch with khw := [0x70000000, 0, 0] }] } 0 ≤ (0 : BitVec 6).toNat :=
  ⟨⟨inWg (tCe [(3, 2 ^ 27 - 1)]) (tU 1) (fun g => { g with rings := [(6, tRing)] }), by decide +kernel⟩, tCe [(3, 2 ^ 27)], by decide +kernel⟩

/-! Faults found at issue, and those of single threads. -/

theorem test_witness_IssueFaults : (∃ s u, Issuing s u ∧ (wgAt s u.wg).level < 1) ∧ (∃ s u, Issuing s u ∧ (wgAt s u.wg).level < 2)
    ∧ (∃ s u, Issuing s u ∧ ringsOf s u.wg ≤ (7 : BitVec 4).toNat)
    ∧ (∃ s u, Issuing s u ∧ u.e.replay = [] ∧ tagsOf s u.wg ≤ (0 : BitVec 6).toNat)
    ∧ (∃ s u, Issuing s u ∧ u.e.replay = [] ∧ (barOf (wgAt s u.wg) 3).broken = some 1)
    ∧ (∃ s u, Issuing s u ∧ u.e.replay = [] ∧ (barOf (wgAt s u.wg) 3).broken = none ∧ (barOf (wgAt s u.wg) 3).init = false)
    ∧ ¬aligned [(62, 2), (1, 2), (0, 2)] :=
  ⟨⟨tBuf 0, tU 1, by decide +kernel⟩, ⟨tOne [] (fun g => { g with level := 1 }) id, tU 1, by decide +kernel⟩, ⟨tOne [] id id, tU 1, by decide +kernel⟩,
    ⟨{ tOne [] id id with launches := [{ tLaunch with khw := [0x70000000, 0, 0] }] }, tU 1, by decide +kernel⟩,
    ⟨tOne [] (fun g => { g with bars := [(3, { tBar 0 0 with broken := some 1 })] }) id, tU 1, by decide +kernel⟩, ⟨tOne [] id id, tU 1, by decide +kernel⟩, by decide +kernel⟩
theorem test_witness_ThreadFaults :
    (∃ s u l, Issuing s u ∧ aligned [(4, 2), (8, regWords 16)] ∧ inMask (activeMask s u) l = true ∧ u.e.replay = []
      ∧ (srcPair s u 4 0 l + (0x3FF : BitVec 10).signExtend 64 * BitVec.ofNat 64 16).toNat % 16 ≠ 0)
    ∧ (∃ s u, Issuing s u ∧ activeMask s u ≠ 0 ∧ (signerWord s u 3).toNat / 2 ^ 16 % 2 ^ 10 = 0)
    ∧ (∃ s u, Issuing s u ∧ (convAt s u 7).st = 0)
    ∧ (∃ s u, Issuing s u ∧ activeMask s u ≠ 0 ∧ 32 * (squadOf s u).nlb < (signerWord s u 3).toNat % 2 ^ 9 + (signerWord s u 3).toNat / 2 ^ 16 % 2 ^ 10)
    ∧ (∃ s u, Issuing s u ∧ activeMask s u ≠ 0 ∧ 1 ≤ (signerWord s u 3).toNat / 2 ^ 16 % 2 ^ 10
      ∧ (signerWord s u 3).toNat % 2 ^ 9 + (signerWord s u 3).toNat / 2 ^ 16 % 2 ^ 10 ≤ 32 * (squadOf s u).nlb ∧ 2 ≤ (convOf (squadOf s u) 7).st)
    ∧ (∃ s u, Issuing s u ∧ (convAt s u 7).st = 1 ∧ ∀ l, l < 32 → inMask u.e.mask l = true →
      ¬((convAt s u 7).first ≤ u.e.lb * 32 + l ∧ u.e.lb * 32 + l < (convAt s u 7).first + (convAt s u 7).count))
    ∧ ∃ s u, Issuing s u ∧ activeMask s u ≠ 0 ∧ ((convAt s u 7).st = 1 ∨ (convAt s u 7).st = 2) ∧ (convAt s u 7).bound = true
      ∧ (wgAt s u.wg).aligned = true
      ∧ ∀ l, l < 32 → inMask u.e.mask l = true → (convAt s u 7).first ≤ u.e.lb * 32 + l ∧ u.e.lb * 32 + l < (convAt s u 7).first + (convAt s u 7).count :=
  ⟨⟨tOne [(4, 0x2008)] id id, tU 1, 0, by decide +kernel⟩, ⟨tOne [] id id, tU 1, by decide +kernel⟩, ⟨tOne [] id id, tU 1, by decide +kernel⟩, ⟨tOne [(3, 0x00200001)] id id, tU 1, by decide +kernel⟩,
    ⟨tOne [(3, 0x00200000)] id (fun q => { q with conv := [(7, { tConv 1 false with st := 2 })] }), tU 1, by decide +kernel⟩,
    ⟨tOne [] id (fun q => { q with conv := [(7, { tConv 1 false with first := 1 })] }), tU 1, by decide +kernel⟩, tSign 1 true, tU 1, by decide +kernel⟩

/-! Events: a state with its argument for each premise. -/

/-- An event's turn: its argument. -/
def tEv (a : EventArg) (s : State) : State := { s with arg := a, cur := none }
/-- A firmware workgroup with one squad, changed. -/
def tW (f : Wg → Wg) (q : Squad → Squad) : State := { tOne [] f q with cur := none }
def tEntry (m : BitVec 32) (formed pwait : Nat) : Entry := { freshEntry 0 tPlace m formed 0 with pwait := pwait }

theorem test_witness_RegroupingAndWaits :
    (∃ s : State, s.arg = .ids 0 0 0 ∧ isSquad s 0 0 ∧ (sqAt s 0 0).cycle % 4 = 0 ∧ (sqAt s 0 0).regrouped = false
      ∧ (((sqAt s 0 0).frontier ++ (sqAt s 0 0).overflow).map Entry.formed).Nodup ∧ (sqAt s 0 0).frontier ≠ [])
    ∧ (∃ s : State, s.arg = .ids 0 0 0 ∧ (sqAt s 0 0).cycle % 4 ≠ 0)
    ∧ (∃ s : State, s.arg = .ids 0 0 0 ∧ isSquad s 0 0 ∧ ∃ x ∈ (sqAt s 0 0).waiters, (clauseHdr x).any (fun h => bitsOf h.toNat 20 18 != 6 && clauseReady s 0 0 x.lb x.mask h) = true)
    ∧ (∃ s : State, s.arg = .ids 0 0 9 ∧ isSquad s 0 0 ∧ (∃ c, Map.find (sqAt s 0 0).checks 9 = some c ∧ c.due ≤ (sqAt s 0 0).cycle)
      ∧ ∃ x ∈ (sqAt s 0 0).waiters, x.why = .check 9)
    ∧ (∃ s : State, ∃ c, s.arg = .ids 0 0 9 ∧ Map.find (sqAt s 0 0).checks 9 = some c ∧ (sqAt s 0 0).cycle < c.due)
    ∧ (∃ s : State, s.arg = .ids 0 32 0 ∧ wantsLine s 0 32 = true ∧ cachedLine s (wgAt s 0).core (fetchCtx (wgAt s 0)) 32 = none
      ∧ ∃ r a, fetchCheck s (wgAt s 0).core (wgAt s 0).ctx ((wgAt s 0).level == 2) (BitVec.ofNat 52 (32 * 128)) = (r, .ok a) ∧ (∃ x, a.loc = .local x))
    ∧ (∃ s : State, ∃ e, s.arg = .ids 0 0 3 ∧ isSquad s 0 0
      ∧ ((sqAt s 0 0).frontier ++ (sqAt s 0 0).overflow).find? (fun e => e.formed == 3 && decide (Config.partnerLimit ≤ e.pwait)) = some e ∧ e.mask ≠ 0)
    ∧ (∃ s : State, ∃ e, s.arg = .ids 0 0 3 ∧ isSquad s 0 0 ∧ e.mask ≠ 0 ∧ e ∈ (sqAt s 0 0).overflow
      ∧ ((sqAt s 0 0).frontier ++ (sqAt s 0 0).overflow).find? (fun e => e.formed == 3 && decide (Config.partnerLimit ≤ e.pwait)) = some e)
    ∧ (∃ s : State, s.arg = .ids 0 0 0 ∧ isSquad s 0 0 ∧ 0 < (sqAt s 0 0).nlb ∧ exitedOf (sqAt s 0 0) 0 = BitVec.allOnes 32 ∧ 0 ∉ (sqAt s 0 0).retired
      ∧ ∀ p ∈ (sqAt s 0 0).loads, p.2.lb ≠ 0)
    ∧ ∃ s : State, s.arg = .ids 0 0 1 ∧ (sqAt s 0 0).nlb ≤ 1 :=
  ⟨⟨tEv (.ids 0 0 0) (tW id (fun q => { q with cycle := 8, frontier := [tEntry 1 0 0, tEntry 2 1 0], regrouped := false })), by decide⟩,
    ⟨tEv (.ids 0 0 0) (tW id (fun q => { q with cycle := 9 })), by decide⟩,
    ⟨tEv (.ids 0 0 0) (tW id (fun q => { q with waiters := [{ tWait .clause with stand := { tPlace with pc := 0x1000, hdr := 0xCF000000 } }] })), by decide⟩,
    ⟨tEv (.ids 0 0 9) (tW id (fun q => { q with checks := [(9, { lb := 0, mask := 2, due := 10 })], waiters := [tWait (.check 9)] })), by decide,
      by decide, ⟨_, rfl, by decide⟩, by decide⟩,
    ⟨tEv (.ids 0 0 9) (tW id (fun q => { q with checks := [(9, { lb := 0, mask := 2, due := 11 })] })), { lb := 0, mask := 2, due := 11 }, by decide⟩,
    ⟨tEv (.ids 0 32 0) (tW id (fun q => { q with frontier := [tEntry 1 0 0] })), by decide, by decide, by decide, _, _, rfl, _, rfl⟩,
    ⟨tEv (.ids 0 0 3) (tW id (fun q => { q with frontier := [tEntry 1 2 0, tEntry 2 3 65536] })), tEntry 2 3 65536, by decide⟩,
    ⟨tEv (.ids 0 0 3) (tW id (fun q => { q with frontier := [tEntry 1 2 0], overflow := [tEntry 2 3 65536] })), tEntry 2 3 65536, by decide⟩,
    ⟨tEv (.ids 0 0 0) (tW id (fun q => { q with exited := [(0, 0xFFFFFFFF)] })), by decide⟩, tEv (.ids 0 0 1) (tW id id), by decide⟩

/-- An update of the thread in lane 31 that waits to count. -/
def tUpdate (what : Update) : Arrival := { sq := 0, lb := 0, mask := 0x80000000, place := tPlace, before := 5, what := what }
/-- A queued store of that thread, numbered 4; and one on its way. -/
def tStLane (loc : Loc) : StLane :=
  { lane := 31, ea := 0x2000, loc := loc, attr := physAttr, bytes := [1, 2, 3, 4], atom := none, ret := none, ord := none, place := tPlace
    staged := { d := 0, a := 0, b := 0, c := 0 }, shown := [] }
def tSt (l : StLane) : StEntry := { seq := 4, lb := 0, lanes := [l], scope := 0, release := false, atomic := false }
def tFlight (l : StLane) : Flight := { core := 0, wg := 0, sq := 0, lb := 0, seq := 4, ln := l, performed := false }
/-- A load of that thread, numbered 4. -/
def tOlder : Pend :=
  { seq := 4, lb := 0, lane := 31, d := 60, size := 16, fmt := .zext, place := tPlace, ea := 0x2000, src := .await, staged := { d := 0, a := 0, b := 0, c := 0 }
    shown := [], acq := false }
theorem test_witness_UpdatesCount :
    (∃ s : State, ∃ a, s.arg = .ids 0 0 0 ∧ isSquad s 0 a.sq ∧ (wgAt s 0).arrivals = [a] ∧ a.what = .barrier 15 true (some 6) false ∧ a.mask = 1#32 <<< 31
      ∧ mayRelease (sqAt s 0 a.sq) a.lb 31 a.before = true ∧ (barOf (wgAt s 0) 15).broken = none ∧ (barOf (wgAt s 0) 15).init = true
      ∧ (barOf (wgAt s 0) 15).tarr + 1 < (barOf (wgAt s 0) 15).texp ∧ detLaunch s 0 = false)
    ∧ (∃ s : State, ∃ a, s.arg = .ids 0 0 0 ∧ (wgAt s 0).arrivals = [a] ∧ a.what = .barrier 15 true (some 6) false ∧ a.mask = 1#32 <<< 31
      ∧ storesLeft (sqAt s 0 a.sq) a.lb 31 a.before = false)
    ∧ (∃ s : State, ∃ a, s.arg = .ids 0 0 0 ∧ (wgAt s 0).arrivals = [a] ∧ a.what = .barrier 15 true (some 6) false ∧ a.mask = 1#32 <<< 31
      ∧ storesLeft (sqAt s 0 a.sq) a.lb 31 a.before = true ∧ loadAhead (sqAt s 0 a.sq) a.lb 31 a.before = true)
    ∧ (∃ s : State, ∃ a, s.arg = .ids 0 0 0 ∧ 0 < s.wgs.length ∧ (wgAt s 0).arrivals = [a] ∧ a.what = .commit 6 ∧ a.mask ≠ 0
      ∧ (∀ l, l < 32 → inMask a.mask l = true → mayRelease (sqAt s 0 a.sq) a.lb l a.before = true)
      ∧ (ringOf (wgAt s 0) 6).slots ≠ 0 ∧ (ringOf (wgAt s 0) 6).full.getLsbD (ringOf (wgAt s 0) 6).pcur = false)
    ∧ (∃ s : State, ∃ a, s.arg = .ids 0 0 0 ∧ 0 < s.wgs.length ∧ (wgAt s 0).arrivals = [a] ∧ a.what = .free 6 ∧ a.mask ≠ 0 ∧ (sqAt s 0 a.sq).loads = []
      ∧ (ringOf (wgAt s 0) 6).slots ≠ 0 ∧ (ringOf (wgAt s 0) 6).full.getLsbD (ringOf (wgAt s 0) 6).ccur = true)
    ∧ (∃ s : State, ∃ a, s.arg = .ids 0 0 0 ∧ isSquad s 0 a.sq ∧ (wgAt s 0).arrivals = [a] ∧ a.what = .xbar 7 62 ∧ a.mask ≠ 0
      ∧ (∀ l, l < 32 → inMask a.mask l = true → loadsTakenBy (sqAt s 0 a.sq) a.lb l a.before = true) ∧ coreAcked s (wgAt s 0).core a.before = true ∧ (xbOf s (wgAt s 0).core 7).2.getLsbD ((wgAt s 0).core % 4) = false)
    ∧ (∃ s : State, ∃ a b, s.arg = .ids 0 0 0 ∧ (wgAt s 0).arrivals[0]? = some a ∧ (wgAt s 0).arrivals[1]? = some b ∧ dueOf s 0 1 b ≠ 0
      ∧ b.what = .free 6 ∧ ∀ k, a.what ≠ .free k)
    ∧ ∃ s : State, ∃ a b, s.arg = .ids 0 0 0 ∧ (wgAt s 0).arrivals[0]? = some a ∧ (wgAt s 0).arrivals[1]? = some b ∧ dueOf s 0 1 b ≠ 0
      ∧ (∀ k, a.what ≠ .free k ∧ b.what ≠ .free k) ∧ b.sq < a.sq :=
  ⟨⟨tEv (.ids 0 0 0) (tW (fun g => { g with bars := [(15, tBar 0 0)], arrivals := [tUpdate (.barrier 15 true (some 6) false)] }) id),
      tUpdate (.barrier 15 true (some 6) false), by decide⟩,
    ⟨tEv (.ids 0 0 0) (tW (fun g => { g with bars := [(15, tBar 0 0)], arrivals := [tUpdate (.barrier 15 true (some 6) false)] })
      (fun q => { q with stq := [tSt (tStLane (.sbuf 0))] })), tUpdate (.barrier 15 true (some 6) false), by decide⟩,
    ⟨tEv (.ids 0 0 0) (tW (fun g => { g with bars := [(15, tBar 0 0)], arrivals := [tUpdate (.barrier 15 true (some 6) false)] })
      (fun q => { q with loads := [(3, { tOlder with src := .mem 0x2000 physAttr false })] })), tUpdate (.barrier 15 true (some 6) false), by decide⟩,
    ⟨tEv (.ids 0 0 0) (tW (fun g => { g with rings := [(6, tRing)], arrivals := [tUpdate (.commit 6)] }) id), tUpdate (.commit 6), by decide⟩,
    ⟨tEv (.ids 0 0 0) (tW (fun g => { g with rings := [(6, tRing)], arrivals := [tUpdate (.free 6)] }) id), tUpdate (.free 6), by decide⟩,
    ⟨tEv (.ids 0 0 0) (tW (fun g => { g with arrivals := [tUpdate (.xbar 7 62)] }) id), tUpdate (.xbar 7 62), by decide⟩,
    ⟨tEv (.ids 0 0 0) (tW (fun g => { g with rings := [(6, tRing)], arrivals := [tUpdate (.commit 6), { tUpdate (.free 6) with mask := 1 }] }) id),
      tUpdate (.commit 6), { tUpdate (.free 6) with mask := 1 }, by decide, by decide, by decide, by decide, by decide, by simp [tUpdate]⟩,
    tEv (.ids 0 0 0) (tW (fun g => { g with rings := [(6, tRing)], arrivals := [{ tUpdate (.commit 6) with sq := 1 }, tUpdate (.commit 6)], squads := g.squads ++ g.squads }) id),
    { tUpdate (.commit 6) with sq := 1 }, tUpdate (.commit 6), by decide, by decide, by decide, by decide, by simp [tUpdate], by decide⟩

/-- A load of the thread in lane 31, issued after that store. -/
def tLoad (src : LoadSrc) : Pend :=
  { seq := 5, lb := 0, lane := 31, d := 60, size := 16, fmt := .zext, place := tPlace, ea := 0x2000, src := src, staged := { d := 0, a := 0, b := 0, c := 0 }, shown := [], acq := true }
def tLoads (src : LoadSrc) (stq : List StEntry) : State := tW id (fun q => { q with loads := [(3, tLoad src)], stq := stq })
/-- A queued store of sixteen bytes. -/
def tSt16 (loc : Loc) : StEntry := tSt { tStLane loc with bytes := leBytes 16 0x0102030405060708090A0B0C0D0E0F10 }
theorem test_witness_LoadsReturn_data :
    (∃ s : State, ∃ p v, s.arg = .ids 0 0 3 ∧ loadDue s 0 0 3 p ∧ p.src = .value v)
    ∧ (∃ s : State, ∃ p o, s.arg = .ids 0 0 3 ∧ loadDue s 0 0 3 p ∧ p.src = .sbuf o ∧ forward (sqAt s 0 0) p.lb p.lane p.seq (.sbuf o) p.size = .none
      ∧ bufPoisoned (wgAt s 0) 4 o p.size = false)
    ∧ (∃ s : State, ∃ p o, s.arg = .ids 0 0 3 ∧ loadDue s 0 0 3 p ∧ bufPoisoned (wgAt s 0) 4 o p.size = true ∧ p.src = .sbuf o
      ∧ forward (sqAt s 0 0) p.lb p.lane p.seq (.sbuf o) p.size = .none)
    ∧ (∃ s : State, ∃ p spc o, s.arg = .ids 0 0 3 ∧ loadDue s 0 0 3 p ∧ bufPoisoned (wgAt s 0) spc o p.size = true ∧ p.src = .buf 0 spc o)
    ∧ (∃ s : State, ∃ p a attr bs, s.arg = .ids 0 0 3 ∧ loadDue s 0 0 3 p ∧ p.src = .mem a attr false
      ∧ forward (sqAt s 0 0) p.lb p.lane p.seq (.local a) p.size = .data bs)
    ∧ (∃ s : State, ∃ p bs, s.arg = .ids 0 0 3 ∧ loadDue s 0 0 3 p ∧ p.src = .far 5 0x40 false
      ∧ forward (sqAt s 0 0) p.lb p.lane p.seq (.remote 5 0x40) p.size = .data bs)
    ∧ (∃ s : State, ∃ p, s.arg = .ids 0 0 3 ∧ loadDue s 0 0 3 p ∧ p.src = .buf 0 3 16 ∧ bufPoisoned (wgAt s 0) 3 16 p.size = false ∧ (wgAt s 0).runs = [])
    ∧ (∃ s : State, ∃ p a attr, s.arg = .ids 0 0 3 ∧ loadDue s 0 0 3 p ∧ p.src = .mem a attr true ∧ forward (sqAt s 0 0) p.lb p.lane p.seq (.local a) p.size = .none
      ∧ atomAhead s 0 0 p a = false ∧ poisoned s (frontLoc s (wgAt s 0).core a attr) p.size = false
      ∧ readsBack s (wgAt s 0).core (frontLoc s (wgAt s 0).core a attr) p.size attr.bmt = false ∧ attr.bmt = none)
    ∧ (∃ s : State, ∃ p a attr, s.arg = .ids 0 0 3 ∧ loadDue s 0 0 3 p ∧ p.src = .mem a attr true ∧ forward (sqAt s 0 0) p.lb p.lane p.seq (.local a) p.size = .none
      ∧ atomAhead s 0 0 p a = false ∧ poisoned s (frontLoc s (wgAt s 0).core a attr) p.size = true)
    ∧ (∃ s : State, ∃ p, s.arg = .ids 0 0 3 ∧ loadDue s 0 0 3 p ∧ p.src = .far 5 0x40 false
      ∧ forward (sqAt s 0 0) p.lb p.lane p.seq (.remote 5 0x40) p.size = .none ∧ sendTurn s 0 0 p 5 0x40 = true ∧ (sqAt s 0 0).loads = [(3, p)])
    ∧ ∃ s : State, ∃ p a attr, s.arg = .ids 0 0 3 ∧ Map.find (sqAt s 0 0).loads 3 = some p ∧ p.src = .mem a attr false
      ∧ forward (sqAt s 0 0) p.lb p.lane p.seq (.local a) p.size = .wait :=
  ⟨⟨tEv (.ids 0 0 3) (tLoads (.value 5) []), tLoad (.value 5), 5, by decide⟩, ⟨tEv (.ids 0 0 3) (tLoads (.sbuf 16) []), tLoad (.sbuf 16), 16, by decide⟩,
    ⟨tEv (.ids 0 0 3) (modWg (tLoads (.sbuf 16) []) 0 (fun g => { g with poison := [4 * 2 ^ 15] })), tLoad (.sbuf 16), 16, by decide⟩,
    ⟨tEv (.ids 0 0 3) (modWg (tLoads (.buf 0 3 16) []) 0 (fun g => { g with poison := [3 * 2 ^ 15] })), tLoad (.buf 0 3 16), 3, 16, by decide⟩,
    ⟨tEv (.ids 0 0 3) (tLoads (.mem 0x2000 physAttr false) [tSt16 (.local 0x2000)]), tLoad (.mem 0x2000 physAttr false), 0x2000, physAttr,
      leBytes 16 0x0102030405060708090A0B0C0D0E0F10, by decide⟩,
    ⟨tEv (.ids 0 0 3) (tLoads (.far 5 0x40 false) [tSt16 (.remote 5 0x40)]), tLoad (.far 5 0x40 false),
      leBytes 16 0x0102030405060708090A0B0C0D0E0F10, by decide⟩,
    ⟨tEv (.ids 0 0 3) (tLoads (.buf 0 3 16) []), tLoad (.buf 0 3 16), by decide⟩,
    ⟨tEv (.ids 0 0 3) (tLoads (.mem 0x2010 physAttr true) [tSt16 (.local 0x2000)]), tLoad (.mem 0x2010 physAttr true), 0x2010, physAttr, by decide⟩,
    ⟨tEv (.ids 0 0 3) { tLoads (.mem 0x2010 physAttr true) [] with poison := [64] }, tLoad (.mem 0x2010 physAttr true), 0x2010, physAttr, by decide⟩,
    ⟨tEv (.ids 0 0 3) (tLoads (.far 5 0x40 false) []), tLoad (.far 5 0x40 false), by decide⟩,
    tEv (.ids 0 0 3) (tLoads (.mem 0x2000 physAttr false) [tSt (tStLane (.local 0x200C))]), tLoad (.mem 0x2000 physAttr false), 0x2000, physAttr, by decide⟩
theorem test_witness_LoadsReturn_replies :
    (∃ s : State, ∃ p, s.arg = .reply 3 7 .ok ∧ findLoad s 3 = some (0, 0, p) ∧ replyDue s 3 p = true ∧ loadDue s 0 0 3 p)
    ∧ (∃ s : State, ∃ p, s.arg = .reply 3 7 .ok ∧ findLoad s 3 = some (0, 0, p) ∧ replyDue s 3 p = true ∧ loadTurn (sqAt s 0 0) p = false)
    ∧ (∃ s : State, ∃ p, s.arg = .reply 3 7 .refused ∧ findLoad s 3 = some (0, 0, p) ∧ replyDue s 3 p = true)
    ∧ (∃ s : State, ∃ p, s.arg = .ids 3 0 0 ∧ findLoad s 3 = some (0, 0, p) ∧ replyDue s 3 p = true)
    ∧ ∃ s : State, ∃ p, s.arg = .reply 3 7 .ok ∧ findLoad s 3 = some (0, 0, p) ∧ replyDue s 3 p = false :=
  ⟨⟨tEv (.reply 3 7 .ok) (tLoads (.far 5 0x40 true) []), tLoad (.far 5 0x40 true), by decide⟩,
    ⟨tEv (.reply 3 7 .ok) (tW id (fun q => { q with loads := [(2, { tLoad (.value 5) with seq := 4 }), (3, tLoad (.far 5 0x40 true))] })),
      tLoad (.far 5 0x40 true), by decide⟩,
    ⟨tEv (.reply 3 7 .refused) (tLoads (.far 5 0x40 true) []), tLoad (.far 5 0x40 true), by decide⟩,
    ⟨tEv (.ids 3 0 0) (tLoads (.far 5 0x40 true) []), tLoad (.far 5 0x40 true), by decide⟩,
    tEv (.reply 3 7 .ok) (tLoads (.value 5) []), tLoad (.value 5), by decide⟩

def tFly (l : StLane) (perf : Bool) : State := { tW id id with flights := [(7, { tFlight l with performed := perf })] }
/-- A releasing store at domain scope (R219). -/
def tRelDom : StEntry := { tSt (tStLane (.local 0x2000)) with release := true, scope := 5 }
theorem test_witness_StoresReachMemory :
    (∃ s : State, ∃ e l, s.arg = .ids 0 0 0 ∧ (sqAt s 0 0).stq = [e] ∧ e.lanes = [l] ∧ mayLeave s 0 0 e = true ∧ l.loc = .local 0x2000 ∧ e.release = false)
    ∧ (∃ s : State, ∃ e l o, s.arg = .ids 0 0 0 ∧ (sqAt s 0 0).stq = [e] ∧ e.lanes = [l] ∧ mayLeave s 0 0 e = true ∧ l.loc = .sbuf o
      ∧ o + l.bytes.length ≤ 2 ^ 20 ∧ e.release = false)
    ∧ (∃ s : State, ∃ e l, s.arg = .ids 0 0 0 ∧ (sqAt s 0 0).stq = [e] ∧ e.lanes = [l] ∧ mayLeave s 0 0 e = true ∧ e.release = true ∧ e.scope = 5
      ∧ e.atomic = false ∧ (sqAt s 0 0).remoteErr = some (0x16, 255, 0x40))
    ∧ (∃ s : State, s.arg = .ids 0 0 0 ∧ (sqAt s 0 0).stq ≠ [] ∧ ∀ e ∈ (sqAt s 0 0).stq.head?, mayLeave s 0 0 e = false)
    ∧ (∃ s : State, ∃ f a, s.arg = .ids 7 0 0 ∧ Map.find s.flights 7 = some f ∧ f.ln.loc = .local a ∧ flightTurn s 7 f = true ∧ f.ln.atom = none)
    ∧ (∃ s : State, ∃ f, s.arg = .ids 7 0 0 ∧ Map.find s.flights 7 = some f ∧ f.performed = true ∧ flightTurn s 7 f = false)
    ∧ (∃ s : State, ∃ f, s.arg = .ids 7 0 0 ∧ Map.find s.flights 7 = some f ∧ f.performed = false)
    ∧ (∃ s : State, ∃ f, s.arg = .reply 7 0 .range ∧ Map.find s.flights 7 = some f ∧ isFar f = true ∧ f.ln.ret = none ∧ isSquad s f.wg f.sq
      ∧ (sqAt s f.wg f.sq).waiters = [] ∧ remoteSub .range ≠ 0 ∧ findLoad s 7 = none)
    ∧ (∃ s : State, ∃ f, s.arg = .unit ∧ s.fab.quiesced = some (planeIn s.fab.oldPmap 0x40) ∧ s.fab.drained = false ∧ Map.find s.flights 7 = some f
      ∧ f.ln.loc = .remote 5 0x40 ∧ f.ln.ret = none)
    ∧ ∃ s : State, s.arg = .unit ∧ s.fab.quiesced = none :=
  ⟨⟨tEv (.ids 0 0 0) (tW id (fun q => { q with stq := [tSt (tStLane (.local 0x2000))] })), tSt (tStLane (.local 0x2000)), tStLane (.local 0x2000), by decide⟩,
    ⟨tEv (.ids 0 0 0) (tW id (fun q => { q with stq := [tSt (tStLane (.sbuf 0xFFFFC))] })), tSt (tStLane (.sbuf 0xFFFFC)), tStLane (.sbuf 0xFFFFC), 0xFFFFC, by decide⟩,
    ⟨tEv (.ids 0 0 0) (tW id (fun q => { q with stq := [tRelDom], remoteErr := some (0x16, 255, 0x40) })), tRelDom, tStLane (.local 0x2000), by decide⟩,
    ⟨tEv (.ids 0 0 0) { tFly (tStLane (.local 0x2000)) false with
      wgs := [tWg { tSq [] with stq := [{ tSt (tStLane (.local 0x3000)) with release := true, scope := 2 }] }] }, by decide⟩,
    ⟨tEv (.ids 7 0 0) (tFly (tStLane (.local 0x2000)) false), tFlight (tStLane (.local 0x2000)), 0x2000, by decide⟩,
    ⟨tEv (.ids 7 0 0) (tFly (tStLane (.local 0x2000)) true), { tFlight (tStLane (.local 0x2000)) with performed := true }, by decide⟩,
    ⟨tEv (.ids 7 0 0) (tFly (tStLane (.local 0x2000)) false), tFlight (tStLane (.local 0x2000)), by decide⟩,
    ⟨tEv (.reply 7 0 .range) (tFly (tStLane (.remote 5 0x40)) false), tFlight (tStLane (.remote 5 0x40)), by decide⟩,
    ⟨tEv .unit { tFly (tStLane (.remote 5 0x40)) false with fab := { State.reset.fab with quiesced := some (planeIn State.reset.fab.oldPmap 0x40) } },
      tFlight (tStLane (.remote 5 0x40)), by decide⟩, tEv .unit (tW id id), by decide⟩
def tAtom : StLane := { tStLane (.local 0x2000) with atom := some (.op 0 8 1), ret := some 3 }
/-- Workgroup 0 has retired; an ordered update of it to the line of 0x2000 is held, and one of workgroup 1. -/
def tHeld : State :=
  let u : Upd := { wg := 0, tid := 31, seq := 0, loc := 0x2000, op := .op 0 16 1 }
  { tW id id with launches := [{ tLaunch with retired := [0] }], trackers := [{ launch := 0, line := 64, log := false, held := [{ u with wg := 1 }, u] }] }
theorem test_witness_AtomicsPerformed :
    (∃ s : State, ∃ f a op p, s.arg = .ids 7 0 0 ∧ Map.find s.flights 7 = some f ∧ f.ln.loc = .local a ∧ f.ln.atom = some op ∧ f.ln.ord = none
      ∧ flightTurn s 7 f = true ∧ f.ln.ret = some 3 ∧ poisoned s a f.ln.size = false ∧ Map.find (sqAt s f.wg f.sq).loads 3 = some p
      ∧ readsBack s f.core a f.ln.size f.ln.attr.bmt = false)
    ∧ (∃ s : State, ∃ f a op p, s.arg = .ids 7 0 0 ∧ Map.find s.flights 7 = some f ∧ f.ln.loc = .local a ∧ f.ln.atom = some op ∧ f.ln.ord = none
      ∧ flightTurn s 7 f = true ∧ f.ln.ret = some 3 ∧ poisoned s a f.ln.size = true ∧ Map.find (sqAt s f.wg f.sq).loads 3 = some p)
    ∧ (∃ s : State, ∃ f a op, s.arg = .ids 7 0 0 ∧ Map.find s.flights 7 = some f ∧ f.ln.loc = .local a ∧ f.ln.atom = some op ∧ f.ln.ord = none
      ∧ flightTurn s 7 f = true ∧ f.ln.ret = none ∧ poisoned s a f.ln.size = true)
    ∧ (∃ s : State, ∃ f a op, s.arg = .ids 7 0 0 ∧ Map.find s.flights 7 = some f ∧ f.ln.loc = .local a ∧ f.ln.atom = some op ∧ f.ln.ord = some 0 ∧ f.performed = false
      ∧ s.trackers = [])
    ∧ (∃ s : State, ∃ rest, (passTime s).agenda = .update 0 64 :: rest)
    ∧ (∃ s : State, updatesOf s 0 64 ≠ [] ∧ ∀ u ∈ updatesOf s 0 64, updateDue (launchAt s 0) u = false)
    ∧ ∃ s : State, ∃ u, dueUpdate s 0 64 = some u ∧ poisoned s u.loc 4 = false ∧ readsBack s noCore u.loc 4 none = false :=
  let load := fun q : Squad => { q with loads := [(3, { tLoad .await with size := 8 })] }
  let s := fun (l : StLane) (p : List Nat) => tEv (.ids 7 0 0) { tW id load with flights := [(7, tFlight l)], poison := p }
  ⟨⟨s tAtom [], tFlight tAtom, 0x2000, .op 0 8 1, _, by decide, by decide, by decide, by decide, by decide, by decide, by decide, by decide, rfl, by decide⟩,
    ⟨s tAtom [64], tFlight tAtom, 0x2000, .op 0 8 1, _, by decide, by decide, by decide, by decide, by decide, by decide, by decide, by decide, rfl⟩,
    ⟨s { tAtom with ret := none } [64], tFlight { tAtom with ret := none }, 0x2000, .op 0 8 1, by decide⟩,
    ⟨s { tAtom with ret := none, ord := some 0 } [], tFlight { tAtom with ret := none, ord := some 0 }, 0x2000, .op 0 8 1, by decide⟩,
    ⟨{ tHeld with agenda := [.update 0 64] }, [], by decide⟩, ⟨{ tHeld with launches := [{ tLaunch with rec_ := [0, 0, 4] }] }, by decide⟩, tHeld, _, rfl, by decide⟩
theorem test_witness_ErrorsAndRequests :
    (∃ s : State, s.arg = .ecc (.unit 0 3 0) ∧ 0 < s.wgs.length ∧ 0 * 32 < allocOf s 0 4)
    ∧ (∃ r : RemoteRequest, localLoc r.local40.toNat = none)
    ∧ (∃ s : State, ∃ a, s.arg = .request { src := 9, ctx := 1, local40 := 0x2000, access := .load 4 } ∧ localLoc 0x2000 = some a ∧ poisoned s a (max 1 4) = false)
    ∧ (∃ s : State, ∃ a, s.arg = .request { src := 9, ctx := 1, local40 := 0x2000, access := .atom 0 16 1 false } ∧ localLoc 0x2000 = some a
      ∧ poisoned s a (max 1 (atomBytes 16)) = false)
    ∧ ∃ s : State, ∃ a, s.arg = .request { src := 9, ctx := 1, local40 := 0x2000, access := .cas 16 1 2 } ∧ localLoc 0x2000 = some a
      ∧ poisoned s a (max 1 (remoteSize (.cas 16 1 2))) = true :=
  ⟨⟨tEv (.ecc (.unit 0 3 0)) (tBuf 0), by decide⟩, ⟨{ src := 9, ctx := 1, local40 := 0x9000000000, access := .load 4 }, by decide⟩,
    ⟨tEv (.request { src := 9, ctx := 1, local40 := 0x2000, access := .load 4 }) (tW id id), _, by decide, rfl, by decide⟩,
    ⟨tEv (.request { src := 9, ctx := 1, local40 := 0x2000, access := .atom 0 16 1 false }) (tW id id), _, by decide, rfl, by decide⟩,
    { tEv (.request { src := 9, ctx := 1, local40 := 0x2000, access := .cas 16 1 2 }) (tW id id) with poison := [0x80000004] }, _, by decide, rfl, by decide⟩

/-! Launches: queue 2 of context 1 with a record at 0x8000, of four workgroups in gangs of two, whose header at 0x5000 has one squad (R24, R106). -/

def tRec (w3 w6 w9 w10 : Word) : List Word := [0x5000, 0, 4, w3, 0, 0, w6, 0, 0, w9, w10, 0, 0, 0, 0, 0]
def tHeader : List Word := [0x70000000, 0, 0, 0x20, 0, 0, 0, 0]
def tQueue (head : BitVec 16) : State :=
  let s := tSpace { tW id id with wgs := [], launches := [] }
  let s := tWords (tWords s 0x5000 tHeader) 0x8000 (tRec 2 0 0 0)
  { s with plat := { s.plat with rdy := true, tsy := true }, queues := [(2, { base := 0x8000, cfg := 0x80040001, tail := head + 1, head := head, comp := 0x9000, qseq := 0, last := none, irq := false })] }
/-- A launch of that record, and the machine with it. -/
def tRun (r : List Word) (stage : Nat) : Launch := { blankLaunch with ctx := 1, queue := 2, slot := 0, rec_ := r, khw := tHeader, stage := stage }
def tLaunched (ls : List Launch) : State := { tQueue 0 with launches := ls, plat := { State.reset.plat with low := false, tclk := 2000000, rdy := true, tsy := true } }
theorem test_witness_LaunchesPlaced_queues :
    (∃ s : State, s.arg = .value 2 16 ∧ 2 < 64 ∧ (queueOf s 2).cfg.getLsbD 29 = false)
    ∧ (∃ s : State, s.arg = .value 64 16 ∧ 64 ≤ 64)
    ∧ (∃ s : State, s.arg = .unit ∧ nextQueue s = some 2 ∧ Map.find s.ctxs (bitsOf (queueOf s 2).cfg.toNat 15 0) = none)
    ∧ (∃ s : State, s.arg = .unit ∧ nextQueue s = some 2 ∧ (Map.find s.ctxs (bitsOf (queueOf s 2).cfg.toNat 15 0)).isSome = true
      ∧ recImage (physWords s (nextSlot s 2) 16).2 % 128 = 0
      ∧ (∃ tag, physWords (physWords s (nextSlot s 2) 16).1 (nextSlot s 2 + 64) 4 = tag)
      ∧ ∃ u k, contextWords (physWords s (nextSlot s 2) 16).1 (bitsOf (queueOf s 2).cfg.toNat 15 0) (recImage (physWords s (nextSlot s 2) 16).2) 128 8
        = (u, .ok k) ∧ headerRefusal k = none) :=
  ⟨⟨tEv (.value 2 16) (tQueue 0), by decide⟩, ⟨tEv (.value 64 16) (tQueue 0), by decide⟩, ⟨tEv .unit { tQueue 0 with ctxs := [] }, by decide +kernel⟩,
    tEv .unit (tQueue 0), by decide +kernel, by decide +kernel, by decide +kernel, by decide +kernel, ⟨_, rfl⟩,
    passes [] _ _ (by decide +kernel) (by decide +kernel)⟩
theorem test_witness_LaunchesPlaced_rdy : (∃ s : State, s.plat.rdy = false) ∧ ∃ s, (ctxAt s (bitsOf (queueOf s 2).cfg.toNat 15 0)).away = true :=
  ⟨⟨State.reset, rfl⟩, modCtx (tQueue 0) 1 (fun x => { x with away := true }), by decide⟩
/-- Launch 0 of queue 2, and launch 1 of queue 3 with the same priority: launch 0 goes first. -/
def tAdmit (tsy : Bool) : State :=
  let s := tLaunched [tRun (tRec 2 0 0 0) 3, { tRun (tRec 2 0 0 0) 3 with queue := 3 }]
  { s with plat := { s.plat with tsy := tsy } }
theorem test_witness_LaunchesPlaced_admission :
    (∃ s : State, s.arg = .ids 0 0 0 ∧ s.plat.tsy = true ∧ 0 < s.launches.length ∧ (launchAt s 0).stage = 3 ∧ waitsMet s (launchAt s 0) = true
      ∧ (∀ i, i < s.launches.length → i ≠ 0 → (launchAt s i).stage = 3 → waitsMet s (launchAt s i) = true → admittedBefore (launchAt s 0) 0 (launchAt s i) i)
      ∧ (Map.find s.ctxs (launchAt s 0).ctx).isSome = true)
    ∧ (∃ s : State, s.arg = .ids 0 0 0 ∧ s.plat.tsy = false) ∧ (∃ s : State, s.arg = .ids 2 0 0 ∧ s.launches.length ≤ 2)
    ∧ (∃ s : State, s.arg = .ids 0 0 0 ∧ waitsMet s (launchAt s 0) = false)
    ∧ ∃ s : State, s.arg = .ids 1 0 0 ∧ ∃ i, i < s.launches.length ∧ (launchAt s i).stage = 3 ∧ waitsMet s (launchAt s i) = true
      ∧ admittedBefore (launchAt s i) i (launchAt s 1) 1 := by
  refine ⟨⟨tEv (.ids 0 0 0) (tAdmit true), by decide +kernel, by decide +kernel, by decide +kernel, by decide +kernel, by decide +kernel,
      fun i hi hne _ _ => ?_, by decide +kernel⟩, ⟨tEv (.ids 0 0 0) (tAdmit false), by decide +kernel⟩, ⟨tEv (.ids 2 0 0) (tAdmit true), by decide +kernel⟩,
    ⟨tEv (.ids 0 0 0) (tLaunched [{ tRun (tRec 2 0x1000 0 0) 3 with rec_ := [0x5000, 0, 4, 2, 0, 0, 0x1000, 1, 0, 0, 0, 0, 0, 0, 0, 0] }]), by decide +kernel⟩,
    tEv (.ids 1 0 0) (tAdmit true), by decide +kernel, 0, by decide +kernel, by decide +kernel, by decide +kernel, .inr ⟨by decide +kernel, .inl (by decide +kernel)⟩⟩
  match i, hi, hne with
  | 1, _, _ => exact .inr ⟨by decide +kernel, .inl (by decide +kernel)⟩
/-- A gang of two under placement, `n` of them reserved. -/
def tPlacing (n : Nat) : Launch := { tRun (tRec 2 0 0 0) 4 with placing := some ([(0, 32), (1, 33)], n, 0) }
/-- A D launch (R110); of four workgroups, to keep the test short: the premise does not ask for the 512 that R107 does. -/
def tDRun : Launch :=
  { tRun [0x5000, 0, 4, 0x102, 0, 0, 0, 0, 0, 0, 0, 0, 0, 0, 0, 0] 4 with khw := [0x70400000, 0, 0, 0x20, 0, 0, 0, 0] }
theorem test_witness_LaunchesPlaced_gangs :
    (∃ s : State, s.arg = .unit ∧ placer s = none ∧ distributing s = some 0 ∧ s.plat.low = false ∧ hdrD (launchAt s 0).khw = false ∧ nextGang s 0 = some (0, 2)
      ∧ (planGang s (fun _ => true) 0 (0, 2)).isSome = true)
    ∧ (∃ s : State, s.arg = .unit ∧ placer s = some 0 ∧ (launchAt s 0).placing = some ([(0, 32), (1, 33)], 1, 0) ∧ 1 < [(0, 32), (1, 33)].length)
    ∧ (∃ s : State, s.arg = .unit ∧ placer s = some 0 ∧ (launchAt s 0).placing = some ([(0, 32), (1, 33)], 2, 0) ∧ [(0, 32), (1, 33)].length ≤ 2
      ∧ s.plat.low = false ∧ freshGang s 0 [(0, 32), (1, 33)])
    ∧ ∃ s : State, s.arg = .unit ∧ (∀ y ∈ s.launches, y.placing = none) ∧ s.plat.low = false ∧ distributing s = some 0 ∧ hdrD (launchAt s 0).khw = true
      ∧ nextGang s 0 = some (0, 4) ∧ (planD s (fun _ => true) 0 (0, 4)).any (fun a => decide (freshGang s 0 a)) = true :=
  ⟨⟨tEv .unit (tLaunched [tRun (tRec 2 0 0 0) 4]), by decide +kernel⟩, ⟨tEv .unit (tLaunched [tPlacing 1]), by decide +kernel⟩,
    ⟨tEv .unit (tLaunched [tPlacing 2]), by decide +kernel⟩, tEv .unit (tLaunched [tDRun]), by decide +kernel⟩

/-- A placed user workgroup 3 of launch 0 whose lane block is retired (R78). -/
def tDone : Wg := { tWg { tSq [] with retired := [0], exited := [(0, 0xFFFFFFFF)] } with level := 0, ctx := 1, id := 3 }
/-- A launch of one workgroup. -/
def tOneRun (w9 w10 : Word) : Launch :=
  { tRun (tRec 1 0 w9 w10) 4 with rec_ := [0x5000, 0, 1, 1, 0, 0, 0, 0, 0, w9, w10, 0, 0, 0, 0, 0], next := 1 }
/-- With no workgroups nothing waits. -/
theorem nobodyWaits (s : State) (h : s.wgs = []) : nobodyEnqueues s := by
  intro w q x hx
  have e : (sqAt s w q).waiters = [] := by simp [sqAt, wgAt, h, blankWg]; rfl
  rw [e] at hx
  simp at hx
theorem test_witness_LaunchesEnd_completion :
    (∃ s : State, s.arg = .ids 0 0 0 ∧ mayRetire s 0 = true ∧ (wgAt s 0).trapOf = none ∧ (wgAt s 0).launch < s.launches.length)
    ∧ (∃ s : State, s.arg = .ids 0 0 0 ∧ mayRetire s 0 = false)
    ∧ (∃ s : State, s.arg = .ids 0 0 0 ∧ 0 < s.launches.length ∧ (launchTicket s 0).2.any (fun a =>
      (launchAt s 0).forfeits.find? (fun i => memWord (launchTicket s 0).1 a == BitVec.ofNat 32 i) == some 0) = true)
    ∧ (∃ s : State, ∃ a : Nat, s.arg = .ids 0 0 0 ∧ mayComplete s 0 = true ∧ physLoc ((queueOf s (launchAt s 0).queue).comp + 32 * (launchAt s 0).slot)
      = some (.local a) ∧ recAddr (ctxAt s (launchAt s 0).ctx).words 7 = 0 ∧ (wordAt (launchAt s 0).rec_ 9).getLsbD 28 = false ∧ nobodyEnqueues s)
    ∧ (∃ s : State, ∃ b : Nat, s.arg = .ids 0 0 0 ∧ mayComplete s 0 = true ∧ recAddr (ctxAt s (launchAt s 0).ctx).words 7 = 0
      ∧ (wordAt (launchAt s 0).rec_ 9).getLsbD 28 = true ∧ nobodyEnqueues s
      ∧ physLoc (eventAddr s (launchAt s 0).ctx (recBits (launchAt s 0).rec_ 9 27 16)) = some (.local b)
      ∧ ∀ a, physLoc ((queueOf s (launchAt s 0).queue).comp + 32 * (launchAt s 0).slot) = some (.local a) → a + 32 ≤ b ∨ b + 4 ≤ a)
    ∧ ∃ s : State, s.arg = .ids 0 0 0 ∧ mayComplete s 0 = false := by
  refine ⟨⟨tEv (.ids 0 0 0) { tLaunched [tRun (tRec 2 0 0 0) 4] with wgs := [tDone] }, by decide +kernel⟩,
    ⟨tEv (.ids 0 0 0) { tLaunched [tRun (tRec 2 0 0 0) 4] with wgs := [{ tDone with status := 1 }] }, by decide +kernel⟩,
    ⟨tEv (.ids 0 0 0) (tLaunched [{ tRun (tRec 2 0 0 0x6000) 4 with forfeits := [0] }]), by decide +kernel⟩,
    ⟨tEv (.ids 0 0 0) (tLaunched [{ tOneRun 0 0 with retired := [0] }]), 206158432512, by decide +kernel, by decide +kernel, by decide +kernel, by decide +kernel,
      by decide +kernel, nobodyWaits _ rfl⟩,
    ⟨tEv (.ids 0 0 0) (tLaunched [{ tOneRun 0x10000000 0 with retired := [0] }]), 549755830272, by decide +kernel, by decide +kernel, by decide +kernel,
      by decide +kernel, nobodyWaits _ rfl, by decide +kernel, fun a h => ?_⟩, tEv (.ids 0 0 0) (tLaunched [tOneRun 0 0]), by decide +kernel⟩
  have e : physLoc ((queueOf (tEv (.ids 0 0 0) (tLaunched [{ tOneRun 0x10000000 0 with retired := [0] }])) 2).comp + 32 * 0) = some (.local 206158432512) := by
    decide +kernel
  cases Loc.local.inj (Option.some.inj (h.symm.trans e))
  decide
/-- The context with a level-0 table for the third 32 MiB, and a watchdog period of one million ticks (R187, R339). -/
def tPaged (s : State) : State :=
  let s := tPte s 0x12010 0xC0000000 0x13
  modCtx s 1 (fun c => { c with words := c.words ++ [0, 0, 0, 0, 0, 0, 0, 1, 0] })
/-- What the host answers: a page with no tables to add. -/
def tGrant : PageGrant := { leaf := 0xB000000000000400, level := 0, tables := [] }
/-- A page request for 0x4005000 by the thread in lane 1. -/
def tReq : PageReq := { wg := 0, ctx := 1, addr := 0x4005000, delivery := none, rec_ := [0x10010000, 0x00200000, 0, 0, 0x1004, 0, 0, 0, 0, 0, 0, 0, 0, 0, 0, 0] }
theorem test_witness_LaunchesEnd_units :
    (∃ s : State, ∃ r q, s.arg = .ids 0 0 0 ∧ 0 < s.launches.length ∧ (launchAt s 0).trap = some r ∧ (launchAt s 0).trapCore = some q
      ∧ (launchAt s 0).stage = 4 ∧ (launchAt s 0).trapQ ≠ [] ∧ (ctxAt s (launchAt s 0).ctx).away = false
      ∧ ((launchAt s 0).trapWg = none ∨ ∃ w, (launchAt s 0).trapWg = some w ∧ (wgAt s w).status = 2))
    ∧ (∃ s : State, s.arg = .ids 0 0 0 ∧ (launchAt s 0).trap.isSome = true ∧ (launchAt s 0).trapCore.isSome = true ∧ (launchAt s 0).stage = 4
      ∧ (launchAt s 0).trapQ = [] ∧ trapFlushed s (launchAt s 0) = true ∧ (launchAt s 0).trapWg = some 0 ∧ (wgAt s 0).status = 2)
    ∧ (∃ s : State, s.arg = .ids 0 0 0 ∧ 0 < s.launches.length ∧ (launchAt s 0).stage = 4 ∧ watchdogPeriod s (launchAt s 0).ctx ≠ 0
      ∧ (launchAt s 0).lastIssue + watchdogPeriod s (launchAt s 0).ctx ≤ s.plat.tclk.toNat ∧ (wgAt s 0).launch = 0 ∧ (wgAt s 0).status = 0
      ∧ (sqAt s 0 0).waiters ≠ [])
    ∧ (∃ s : State, s.arg = .ids 0 0 0 ∧ s.plat.tclk.toNat < (launchAt s 0).lastIssue + watchdogPeriod s (launchAt s 0).ctx)
    ∧ (∃ s : State, ∃ p, s.arg = .page 4 (some tGrant) ∧ Map.find s.pageReqs 4 = some p ∧ p.delivery = none ∧ tGrant.level = 0
      ∧ ((leafSlot s p.ctx p.addr.toNat).bind physLoc).any (fun l => !l.isRemote && l != .sbuf 0) = true ∧ recBits p.rec_ 0 31 24 = 0x10)
    ∧ (∃ s : State, ∃ p, s.arg = .page 4 (some tGrant) ∧ Map.find s.pageReqs 4 = some p ∧ p.delivery = some 9 ∧ tGrant.level = 0
      ∧ ((leafSlot s p.ctx p.addr.toNat).bind physLoc).any (fun l => !l.isRemote && l != .sbuf 0) = true)
    ∧ ∃ s : State, ∃ p, s.arg = .page 4 none ∧ Map.find s.pageReqs 4 = some p ∧ p.delivery = none ∧ ∀ l ∈ s.launches, l.trap = none :=
  ⟨⟨tEv (.ids 0 0 0) (tLaunched [{ tRun (tRec 2 0 0 0) 4 with trap := some (tRec 0 0 0 0), trapCore := some 7, trapQ := [tReq.rec_] }]), tRec 0 0 0 0, 7,
      by decide +kernel, by decide +kernel, by decide +kernel, by decide +kernel, by decide +kernel, by decide +kernel, by decide +kernel,
      .inl (by decide +kernel)⟩,
    ⟨tEv (.ids 0 0 0) { tLaunched [{ tRun (tRec 2 0 0 0) 4 with trap := some (tRec 0 0 0 0), trapCore := some 7, trapWg := some 0 }] with
      wgs := [{ tWg (tSq []) with level := 1, status := 2, leaving := some 3, trapOf := some 0 }] }, by decide +kernel⟩,
    ⟨tEv (.ids 0 0 0) (tPaged { tLaunched [tRun (tRec 2 0 0 0) 4] with wgs := [tWg { tSq [] with waiters := [tWait (.barrier 0 true)] }] }),
      by decide +kernel⟩,
    ⟨tEv (.ids 0 0 0) (tPaged (tLaunched [{ tRun (tRec 2 0 0 0) 4 with lastIssue := 1000001 }])), by decide +kernel⟩,
    ⟨tEv (.page 4 (some tGrant)) (tPaged { tLaunched [] with pageReqs := [(4, tReq)] }), tReq, by decide +kernel⟩,
    ⟨tEv (.page 4 (some tGrant)) (tPaged { tLaunched [] with pageReqs := [(4, { tReq with delivery := some 9 })] }), { tReq with delivery := some 9 },
      by decide +kernel⟩,
    tEv (.page 4 none) { tLaunched [] with pageReqs := [(4, tReq)] }, tReq, by decide +kernel⟩
/-- A launch of priority 7 that may pre-empt, of a kernel that needs more of the W buffer than a core has: it finds no room. -/
def tEager : Launch := { tRun (tRec 0xF802 0 0 0) 4 with khw := [0x70000000, 0, 63, 0x20, 0, 0, 0, 0] }
/-- A workgroup to be adjourned, whose squad has two entries. -/
def tLeaver (leaving : Option Nat) : Wg :=
  { tWg { tSq [] with frontier := [tEntry 1 0 0, tEntry 2 1 0] } with level := 0, ctx := 1, leaving := leaving }
theorem test_witness_PreemptionAndRestore_leave :
    (∃ s : State, s.arg = .unit ∧ (∀ y ∈ s.launches, y.placing = none) ∧ s.plat.low = false ∧ distributing s = some 1 ∧ nextGang s 1 = some (0, 2)
      ∧ (wordAt (launchAt s 1).rec_ 3).getLsbD 11 = true
      ∧ (if hdrD (launchAt s 1).khw then planD s Wg.stays 1 (0, 2) else planGang s Wg.stays 1 (0, 2)) = none
      ∧ ∃ y ∈ committedGangs s (fun _ => true), recPri (launchAt s y.1).rec_ < recPri (launchAt s 1).rec_)
    ∧ (∃ s : State, s.arg = .ids 1 0 0 ∧ (Map.find s.ctxs 1).isSome = true ∧ 0 < s.wgs.length ∧ (wgAt s 0).ctx = 1 ∧ (wgAt s 0).status = 0
      ∧ (wgAt s 0).level = 0 ∧ (wgAt s 0).stays = true)
    ∧ (∃ s : State, s.arg = .ids 1 0 0 ∧ 0 < s.wgs.length ∧ (wgAt s 0).ctx = 1 ∧ (wgAt s 0).status = 0 ∧ (wgAt s 0).trapOf.isSome = true
      ∧ (wgAt s 0).leaving = none)
    ∧ (∃ s : State, s.arg = .ids 1 1 0) ∧ (∃ s : State, (ctxAt s (launchAt s 0).ctx).away = true)
    ∧ (∃ s : State, s.arg = .ids 0 0 0 ∧ (wgAt s 0).leaving = some 0 ∧ (wgAt s 0).status = 0 ∧ (wgAt s 0).leaveBy ≤ s.plat.tclk.toNat
      ∧ (wgAt s 0).aligned = false)
    ∧ (∃ s : State, s.arg = .ids 0 0 0 ∧ (wgAt s 0).leaving = some 0 ∧ (wgAt s 0).status = 0 ∧ (wgAt s 0).leaveBy ≤ s.plat.tclk.toNat
      ∧ (wgAt s 0).aligned = true)
    ∧ (∃ s : State, s.arg = .ids 0 0 0 ∧ (wgAt s 0).leaving ≠ some 0)
    ∧ (∃ s : State, s.arg = .ids 0 0 0 ∧ (wgAt s 0).leaving = some 0 ∧ (wgAt s 0).status ≠ 0)
    ∧ ∃ s : State, s.arg = .ids 0 0 0 ∧ (wgAt s 0).leaving = some 0 ∧ s.plat.tclk.toNat < (wgAt s 0).leaveBy :=
  ⟨⟨tEv .unit { tLaunched [{ tRun (tRec 2 0 0 0) 4 with next := 4 }, tEager] with wgs := [tLeaver none] }, by decide +kernel⟩,
    ⟨tEv (.ids 1 0 0) { tLaunched [] with wgs := [tLeaver none] }, by decide⟩, 
    ⟨tEv (.ids 1 0 0) { tLaunched [] with wgs := [{ tLeaver none with level := 1, trapOf := some 0 }] }, by decide⟩, ⟨tEv (.ids 1 1 0) State.reset, rfl⟩,
    ⟨modCtx (tLaunched [tRun (tRec 2 0 0 0) 4]) 1 (fun x => { x with away := true }), by decide +kernel⟩,
    ⟨tEv (.ids 0 0 0) { tLaunched [] with wgs := [{ tLeaver (some 0) with aligned := false }] }, by decide +kernel⟩,
    ⟨tEv (.ids 0 0 0) { tLaunched [] with wgs := [{ tLeaver (some 0) with aligned := true }] }, by decide +kernel⟩,
    ⟨tEv (.ids 0 0 0) { tLaunched [] with wgs := [tLeaver (some 1)] }, by decide⟩,
    ⟨tEv (.ids 0 0 0) { tLaunched [] with wgs := [{ tLeaver (some 0) with status := 2 }] }, by decide⟩,
    tEv (.ids 0 0 0) { tLaunched [] with wgs := [{ tLeaver (some 0) with leaveBy := 2000001 }] }, by decide +kernel⟩
/-- A publish that a core has not applied. -/
def tPub : Publish := { ctx := 1, entry := 0, words := [], drop := false, waiting := [0] }
theorem test_witness_PreemptionAndRestore_save :
    (∃ s : State, s.arg = .ids 0 0 0 ∧ mayAdjourn s 0 = true) ∧ (∃ s : State, s.arg = .ids 0 0 0 ∧ mayAdjourn s 0 = false)
    ∧ (∃ s : State, s.arg = .ids 0 0 0 ∧ (wgAt s 0).trapOf = none ∧ (wgAt s 0).leaving ≠ some 2)
    ∧ (∃ s : State, s.arg = .ids 0 0 0 ∧ (wgAt s 0).trapOf = none ∧ (wgAt s 0).leaving = some 2 ∧ ∃ p ∈ s.pubs, p.2.waiting.contains (wgAt s 0).core = true)
    ∧ ∃ s : State, s.arg = .ids 0 0 0 ∧ 0 < s.wgs.length ∧ (wgAt s 0).status = 0 ∧ (wgAt s 0).leaving = some 2 ∧ (wgAt s 0).trapOf = none
      ∧ (wgAt s 0).resume = false ∧ (wgAt s 0).lateTags = [] ∧ (∀ c ∈ (wgAt s 0).saved.ces, ceFree s 0 (ceAt s (wgAt s 0).core c.1) = true)
      ∧ (∀ p ∈ s.pubs, p.2.waiting.contains (wgAt s 0).core = false)
      ∧ ∀ q ∈ (wgAt s 0).squads, ((q.frontier ++ q.overflow).map Entry.formed).Nodup :=
  ⟨⟨tEv (.ids 0 0 0) { tLaunched [] with wgs := [tLeaver (some 1)] }, by decide⟩,
    ⟨tEv (.ids 0 0 0) { tLaunched [] with wgs := [tLeaver none] }, by decide⟩,
    ⟨tEv (.ids 0 0 0) { tLaunched [] with wgs := [tLeaver none] }, by decide⟩,
    ⟨tEv (.ids 0 0 0) { tLaunched [] with wgs := [tLeaver (some 2)], pubs := [(1, { tPub with waiting := [0] })] }, by decide⟩,
    tEv (.ids 0 0 0) { tLaunched [] with wgs := [{ tLeaver (some 2) with saved := { Saved.none with ces := [(3, tBusy)] } }], pubs := [(1, { tPub with waiting := [5] })] }, by decide⟩

/-- Link 9, on plane 1, with sixteen failures in a row: fifteen failed retries behind the first. -/
def tLinks (down : Bool) (frames : Nat) : State :=
  { tW id id with fab := { State.reset.fab with links := [(9, { retries := 16, frames := frames, crcFails := 0, down := down, keys := 0 })] } }
theorem test_witness_LinksAndPlanes :
    (∃ s : State, ∃ k, s.arg = .flit 9 false ∧ Map.find s.fab.links 9 = some k ∧ k.down = false ∧ k.frames + 1 < 2 ^ 48 ∧ k.retries = 16)
    ∧ (∃ s : State, s.arg = .flit 9 true ∧ ((Map.find s.fab.links 9).any (fun k => decide (2 ^ 48 ≤ k.frames + 1))) = true)
    ∧ (∃ s : State, s.arg = .flit 9 true ∧ ((Map.find s.fab.links 9).any (fun k => k.down)) = true)
    ∧ (∃ s : State, s.arg = .ids 9 0 0)
    ∧ (∃ s : State, s.arg = .ids 7 0 0 ∧ s.fab.quiesced = none ∧ 7 < 8) ∧ (∃ s : State, s.arg = .ids 8 0 0 ∧ 8 ≤ 8)
    ∧ (∃ s : State, s.arg = .ids 7 0 0 ∧ s.fab.quiesced ≠ none)
    ∧ (∃ s : State, s.arg = .value 0 5 ∧ s.fab.quiesced ≠ none ∧ s.fab.drained = true)
    ∧ (∃ s : State, s.arg = .value 0 5 ∧ s.fab.quiesced = none) ∧ (∃ s : State, s.arg = .value 0 5 ∧ s.fab.drained = false)
    ∧ (∃ s : State, s.arg = .unit ∧ s.fab.quiesced ≠ none ∧ s.fab.drained = true
      ∧ (∀ c ∈ s.fab.colls, c.2.own.isSome = true ∨ ∃ r ∈ c.2.group, Map.find c.2.sigs r = none) ∧ s.fab.colls ≠ [])
    ∧ (∃ s : State, ∃ c, s.arg = .unit ∧ s.fab.quiesced ≠ none ∧ s.fab.drained = true ∧ s.fab.colls = [(8, c)]) ∧ (∃ s : State, s.arg = .unit ∧ s.fab.quiesced = none)
    ∧ (∃ s : State, s.arg = .unit ∧ s.fab.drained = false) ∧ ∃ s : State, s.fab.quiesced = some 3 :=
  let quiet (d : Bool) : State := { tW id id with fab := { State.reset.fab with quiesced := some 3, drained := d } }
  ⟨⟨tEv (.flit 9 false) (tLinks false (2 ^ 48 - 2)), { retries := 16, frames := 2 ^ 48 - 2, crcFails := 0, down := false, keys := 0 }, by decide⟩,
    ⟨tEv (.flit 9 true) (tLinks false (2 ^ 48 - 1)), by decide⟩, ⟨tEv (.flit 9 true) (tLinks true 4), by decide⟩, ⟨tEv (.ids 9 0 0) State.reset, rfl⟩,
    ⟨tEv (.ids 7 0 0) (tW id id), by decide⟩, ⟨tEv (.ids 8 0 0) (tW id id), by decide⟩, ⟨tEv (.ids 7 0 0) (quiet true), by decide⟩,
    ⟨tEv (.value 0 5) (quiet true), by decide⟩, ⟨tEv (.value 0 5) (tW id id), by decide⟩, ⟨tEv (.value 0 5) (quiet false), by decide⟩,
    ⟨tEv .unit { quiet true with fab := { (quiet true).fab with colls := [(8, tOpen)] } }, by decide⟩,
    ⟨tEv .unit { quiet true with fab := { (quiet true).fab with colls := [(8, tOpen)] } }, tOpen, by decide⟩,
    ⟨tEv .unit (tW id id), by decide⟩, ⟨tEv .unit (quiet false), by decide⟩, quiet false, rfl⟩

/-! The platform. -/

/-- Nothing placed, and the platform changed. -/
def tPlat (f : Platform → Platform) : State := { tSpace { tW id id with wgs := [], launches := [] } with plat := f State.reset.plat }
/-- One operating point, of 800 MHz (R355). -/
def tPoint : Map Word := [(0, 0x80000320), (1, 0x00640064), (2, 0x00640064)]
/-- A machine with an open collective of a communicator that locks tempo (R316, R365). -/
def tTempo (s : State) : State :=
  { s with fab := { s.fab with
    comms := [(3, { ctx := 1, members := [9], contract := 4, tempo := true, timeout := 5, seq := 0 })], colls := [(8, tOpen)] } }
def tImage : FirmwareImage := { digest := 1, signature := [2], version := 3, base := 0x1000, code := [0xC1000000, 0] }
def tBundle (fail : Option (Nat × BitVec 8)) : FirmwareBundle :=
  { root := tImage, die := tImage, power := tImage, fuse := List.replicate 4 (List.replicate 34 15), hbm := 0, fabric := 0, alone := true, failure := fail }
/-- The same with site 5 of die 2 and its section's spare site 32 faulty: section 0 has seven clusters (R14). -/
def tBadFuse : FirmwareBundle := { tBundle none with fuse := (tBundle none).fuse.set 2 (((List.replicate 34 15).set 5 7).set 32 14) }
/-- One with only the site faulty: the spare one stands in. -/
theorem test_spare_site : ((assignSites ((tBundle none).fuse.set 2 ((List.replicate 34 15).set 5 7))).map (fun l => l.drop 64 |>.take 9))
    = some [68, 69, 70, 71, 72, 74, 75, 100, 76] := by decide +kernel
theorem test_witness_PowerAndTime_power :
    511 < Config.cores ∧ ([1, 2] : List Nat) ≠ [] ∧ ([1, 2] : List Nat).sum ≠ 0
    ∧ (∃ s : State, s.arg = .unit ∧ points s ≠ [] ∧ tempoLocked s = false) ∧ (∃ s : State, s.arg = .unit ∧ points s = [])
    ∧ (∃ s : State, ∃ k, s.arg = .unit ∧ s.plat.nextIdx = some k ∧ ((points s)[k]?).isSome = true) ∧ (∃ s : State, s.arg = .unit ∧ s.plat.nextIdx = none)
    ∧ (∃ s : State, s.arg = .value 0 9 ∧ (s.plat.estimates.map Prod.fst).Nodup ∧ 0 < s.launches.length ∧ (0 + 1, 5) ∈ s.plat.estimates)
    ∧ (∃ s : State, s.arg = .unit ∧ workPending s = true) ∧ (∃ s : State, s.arg = .unit ∧ workPending s = false ∧ s.plat.pwrcmd = 0)
    ∧ (∃ s : State, s.arg = .unit ∧ workPending s = false ∧ s.plat.pwrcmd = 2 ∧ s.plat.bundle = some (tBundle none) ∧ s.plat.berr = false
      ∧ (tBundle none).failure = none ∧ (assignSites (tBundle none).fuse).isSome = true)
    ∧ ∃ s : State, s.arg = .unit ∧ workPending s = false ∧ s.plat.pwrcmd = 2 ∧ s.plat.bundle = some tBadFuse ∧ s.plat.berr = false
      ∧ tBadFuse.failure = none ∧ assignSites tBadFuse.fuse = none :=
  ⟨by decide, by decide, by decide, ⟨tEv .unit (tPlat (fun p => { p with opp := tPoint })), by decide⟩,
    ⟨tEv .unit (tPlat (fun p => { p with opp := [] })), by decide⟩,
    ⟨tEv .unit (tPlat (fun p => { p with opp := tPoint, nextIdx := some 0 })), 0, by decide⟩, ⟨tEv .unit (tPlat id), by decide⟩,
    ⟨tEv (.value 0 9) { tPlat (fun p => { p with estimates := [(1, 5), (0, 4)] }) with launches := [tLaunch] }, by decide⟩,
    ⟨tEv .unit (tBuf 0), by decide⟩, ⟨tEv .unit (tPlat id), by decide +kernel⟩,
    ⟨tEv .unit (tPlat (fun p => { p with pwrcmd := 2, bundle := some (tBundle none), berr := false })), by decide +kernel⟩,
    tEv .unit (tPlat (fun p => { p with pwrcmd := 2, bundle := some tBadFuse, berr := false })), by decide +kernel⟩
/-- A device in group 7, whose list at 0x8000 names device 9 at rank 1 (R362). -/
def tGroup (bal : BitVec 16) (surplus : Nat) : State :=
  let s := tPlat (fun p => { p with tgrp := 0x80000007, tglist := 0x8000, surplus := surplus, bal := bal })
  physWrite s 0x8000 [8, 0, 9, 0]
theorem test_witness_PowerAndTime_trades :
    (∃ s : State, s.arg = .words [7, 1, 9, 50] ∧ s.plat.tgrp.getLsbD 31 = true ∧ (7 : Word).toNat = s.plat.tgrp.toNat % 2 ^ 16
      ∧ listedDevice s (1 : Word).toNat = some (9 : Word).toNat ∧ min (min s.plat.surplus (50 : Word).toNat) s.plat.bal.toNat = 20)
    ∧ (∃ s : State, s.arg = .words [7, 1, 9, 50] ∧ s.plat.tgrp.getLsbD 31 = false)
    ∧ (∃ s : State, s.arg = .words [7, 1, 9, 50] ∧ s.plat.surplus = 0)
    ∧ (∃ s : State, s.arg = .words [7, 1, 9, 0] ∧ (0 : Word) = 0)
    ∧ (∃ s : State, s.arg = .words [8, 1, 9, 50] ∧ (8 : Word).toNat ≠ s.plat.tgrp.toNat % 2 ^ 16)
    ∧ (∃ s : State, s.arg = .words [7, 0, 9, 50] ∧ listedDevice s (0 : Word).toNat ≠ some (9 : Word).toNat)
    ∧ (∃ s : State, s.arg = .words [7, 1, 9, 50, 7, 0, 8, 5] ∧ (0 : Word).toNat < (1 : Word).toNat)
    ∧ (∃ s : State, s.arg = .ids 9 5 0)
    ∧ (∃ s : State, ∃ x, s.arg = .ids 4 0 0 ∧ Map.find s.plat.trades 4 = some x ∧ x.abandoned = false)
    ∧ (∃ s : State, s.arg = .ids 4 0 0 ∧ Map.find s.plat.trades 4 = none)
    ∧ (∃ s : State, s.arg = .value 0 5 ∧ 0 ≤ ((5 : DWord).truncate 32 : Word).toInt ∧ s.plat.bal.toNat + ((5 : DWord).truncate 32 : Word).toInt ≤ 65535)
    ∧ (∃ s : State, s.arg = .value 0 0xFFFFFFFB ∧ s.plat.bal = 0 ∧ ((0xFFFFFFFB : DWord).truncate 32 : Word).toInt < 0)
    ∧ ∃ s : State, ∃ p, s.arg = .value 0 0xFFFFFFFB ∧ tempoLocked s = false ∧ (points s)[pointOf s]? = some p
      ∧ ((0xFFFFFFFB : DWord).truncate 32 : Word).toInt < 0 ∧ s.plat.bal ≠ 0
      ∧ (s.plat.bal.toNat + ((0xFFFFFFFB : DWord).truncate 32 : Word).toInt) * (power s.plat.counted p.2).2 < (power s.plat.counted p.2).1
      ∧ 0 < (power s.plat.counted p.2).1 :=
  ⟨⟨tEv (.words [7, 1, 9, 50]) (tGroup 20 30), by decide +kernel⟩, ⟨tEv (.words [7, 1, 9, 50]) (tPlat id), by decide⟩,
    ⟨tEv (.words [7, 1, 9, 50]) (tGroup 20 0), by decide⟩, ⟨tEv (.words [7, 1, 9, 0]) (tGroup 20 30), by decide⟩,
    ⟨tEv (.words [8, 1, 9, 50]) (tGroup 20 30), by decide⟩, ⟨tEv (.words [7, 0, 9, 50]) (tGroup 20 30), by decide +kernel⟩,
    ⟨tEv (.words [7, 1, 9, 50, 7, 0, 8, 5]) (tGroup 20 30), by decide⟩, ⟨tEv (.ids 9 5 0) (tPlat id), rfl⟩,
    ⟨tEv (.ids 4 0 0) (tPlat (fun p => { p with trades := [(4, { dev := 9, amount := 20, abandoned := false })] })),
      { dev := 9, amount := 20, abandoned := false }, by decide⟩,
    ⟨tEv (.ids 4 0 0) (tPlat id), by decide⟩, ⟨tEv (.value 0 5) (tPlat id), by decide⟩,
    ⟨tEv (.value 0 0xFFFFFFFB) (tPlat id), by decide⟩,
    tEv (.value 0 0xFFFFFFFB) (tPlat (fun p => { p with opp := tPoint, bal := 100, counted := [10, 0, 0, 0] })), (800, [100, 100, 100, 100]), by decide +kernel⟩
theorem test_witness_PowerAndTime_time :
    (∃ s : State, s.arg = .nats [900] ∧ tempoLocked s = true) ∧ (∃ s : State, s.arg = .unit ∧ tempoLocked s = true)
    ∧ (∃ s : State, s.arg = .unit ∧ tempoLocked s = false)
    ∧ (∃ s : State, s.arg = .unit ∧ s.plat.hold = none ∧ s.plat.tclk.toNat < 2 ^ 63 ∧ tempoLocked s = true ∧ points s ≠ []
      ∧ (points s).Pairwise (fun p q => p.1 < q.1))
    ∧ (∃ s : State, s.arg = .unit ∧ s.plat.hold ≠ none)
    ∧ (∃ s : State, s.arg = .value 0 7 ∧ s.plat.step = 6 ∧ s.plat.berr = false ∧ s.plat.hold = none ∧ s.plat.tsy = false)
    ∧ (∃ s : State, s.arg = .unit ∧ s.plat.step = 6 ∧ s.plat.berr = false ∧ s.plat.hold = none)
    ∧ (∃ s : State, s.arg = .value 0 7 ∧ s.plat.step = 6 ∧ s.plat.berr = false ∧ s.plat.hold = none ∧ s.plat.tsy = true)
    ∧ (∃ s : State, ∃ h, s.plat.hold = some h) ∧ (∃ s : State, s.plat.hold = none)
    ∧ (∃ s : State, s.arg = .unit ∧ s.plat.step ≠ 6) ∧ ∃ s : State, s.arg = .unit ∧ s.plat.berr = true :=
  let six (b t : Bool) : Platform → Platform := fun p => { p with step := 6, berr := b, tsy := t }
  ⟨⟨tEv (.nats [900]) (tTempo (tPlat id)), by decide⟩, ⟨tEv .unit (tTempo (tPlat id)), by decide⟩, ⟨tEv .unit (tPlat id), by decide⟩,
    ⟨tEv .unit (tTempo (tPlat (fun p => { p with opp := tPoint, tclk := 2 ^ 63 - 1 }))), by decide +kernel⟩,
    ⟨tEv .unit (tPlat (fun p => { p with hold := some 9 })), by decide⟩, ⟨tEv (.value 0 7) (tPlat (six false false)), by decide +kernel⟩,
    ⟨tEv .unit (tPlat (six false false)), by decide +kernel⟩, ⟨tEv (.value 0 7) (tPlat (six false true)), by decide +kernel⟩,
    ⟨tPlat (fun p => { p with hold := some 9 }), 9, by decide⟩, ⟨tPlat id, by decide⟩,
    ⟨tEv .unit (tPlat (fun p => { p with step := 5 })), by decide⟩, tEv .unit (tPlat (six true false)), by decide⟩

/-- A confidential context 1, whose key is 4 (R375). -/
def tSecret : State :=
  { tPlat id with ctxs := [(1, { blankCtx with words := [0x00090001, 0, 0, 0] })], lineKeys := [(lineOf 0x2000, 4)] }
theorem test_witness_HostAccess_registers :
    (∃ s : State, s.arg = .evcmd 1 0xFFF 5 ∧ (Map.find s.ctxs (1 : BitVec 16).toNat).isSome = true
      ∧ (physLoc (eventAddr s (1 : BitVec 16).toNat (0xFFF : BitVec 12).toNat)).any (fun l => !l.isRemote && l != .sbuf 0) = true)
    ∧ (∃ s : State, s.arg = .evcmd 2 0xFFF 5 ∧ Map.find s.ctxs (2 : BitVec 16).toNat = none)
    ∧ (∃ s : State, s.arg = .value 63 0x800C0001 ∧ 63 < 64 ∧ (queueOf s 63).cfg.getLsbD 31 = false ∧ 4 ≤ bitsOf 0x800C0001 19 16
      ∧ bitsOf 0x800C0001 19 16 ≤ 12)
    ∧ (∃ s : State, s.arg = .value 63 0x800D0001 ∧ 63 < 64 ∧ 12 < bitsOf 0x800D0001 19 16)
    ∧ (∃ s : State, s.arg = .value 63 0x80030001 ∧ 63 < 64 ∧ bitsOf 0x80030001 19 16 < 4)
    ∧ (∃ s : State, s.arg = .value 2 0x800C0001 ∧ 2 < 64 ∧ (queueOf s 2).cfg.getLsbD 31 = true)
    ∧ (∃ s : State, s.arg = .words [0x80000320] ∧ anyPlaced s = false) ∧ (∃ s : State, s.arg = .words [0x80000320] ∧ anyPlaced s = true)
    ∧ (∃ s : State, s.arg = .value 4 0x3000 ∧ 4 < 5 ∧ s.faultWait = [])
    ∧ (∃ s : State, ∃ x, (wgAt s 0).level = 2 ∧ x ∈ (sqAt s 0 0).waiters ∧ x.why = .eret)
    ∧ (∃ s : State, s.arg = .host (.qbase 63) 0x3000 ∧ 63 < 64 ∧ (queueOf s 63).cfg.getLsbD 31 = false)
    ∧ (∃ s : State, s.arg = .host (.qbase 2) 0x3000 ∧ 2 < 64 ∧ (queueOf s 2).cfg.getLsbD 31 = true)
    ∧ (∃ s : State, s.arg = .host (.qcomp 2) 0x3000 ∧ 2 < 64) ∧ ∃ s : State, s.arg = .ids 0x48 0 0 :=
  ⟨⟨tEv (.evcmd 1 0xFFF 5) (tPlat id), by decide⟩, ⟨tEv (.evcmd 2 0xFFF 5) (tPlat id), by decide⟩, ⟨tEv (.value 63 0x800C0001) (tPlat id), by decide⟩,
    ⟨tEv (.value 63 0x800D0001) (tPlat id), by decide⟩, ⟨tEv (.value 63 0x80030001) (tPlat id), by decide⟩,
    ⟨tEv (.value 2 0x800C0001) (tQueue 0), by decide⟩,
    ⟨tEv (.words [0x80000320]) (tPlat id), by decide⟩, ⟨tEv (.words [0x80000320]) (tBuf 0), by decide⟩, ⟨tEv (.value 4 0x3000) (tPlat id), by decide⟩,
    ⟨tW id (fun q => { q with waiters := [tWait .eret] }), tWait .eret, by decide⟩,
    ⟨tEv (.host (.qbase 63) 0x3000) (tPlat id), by decide⟩, ⟨tEv (.host (.qbase 2) 0x3000) (tQueue 0), by decide⟩,
    ⟨tEv (.host (.qcomp 2) 0x3000) (tPlat id), by decide⟩, tEv (.ids 0x48 0 0) State.reset, rfl⟩
theorem test_witness_HostAccess_window :
    (∃ s : State, ∃ a, s.arg = .window 0x60 [1, 2] true ∧ 0x60 < 2 ^ 36 ∧ (s.plat.winbase.toNat + 0x60) % 2 ^ 40 % 128 + [1, 2].length ≤ 128
      ∧ physLoc ((s.plat.winbase.toNat + 0x60) % 2 ^ 40) = some (.local a) ∧ confidentialOf s (lineOf a) = none)
    ∧ (∃ s : State, ∃ a, s.arg = .window 0x60 [1, 2] true ∧ 0x60 < 2 ^ 36 ∧ (s.plat.winbase.toNat + 0x60) % 2 ^ 40 % 128 + [1, 2].length ≤ 128
      ∧ physLoc ((s.plat.winbase.toNat + 0x60) % 2 ^ 40) = some (.local a) ∧ confidentialOf s (lineOf a) = some 1)
    ∧ (∃ s : State, s.arg = .window 0x7F [1, 2] false ∧ 128 < (s.plat.winbase.toNat + 0x7F) % 2 ^ 40 % 128 + [1, 2].length)
    ∧ (∃ s : State, s.arg = .window (2 ^ 36) [1, 2] false ∧ 2 ^ 36 ≤ 2 ^ 36) ∧ ∃ s : State, s.arg = .window 0 [] false ∧ ([] : List Byte) = [] :=
  ⟨⟨tEv (.window 0x60 [1, 2] true) (tPlat id), 0x60, by decide +kernel⟩,
    ⟨tEv (.window 0x60 [1, 2] true) { tSecret with lineKeys := [(lineOf 0x60, 4)] }, 0x60, by decide +kernel⟩,
    ⟨tEv (.window 0x7F [1, 2] false) (tPlat id), by decide⟩, ⟨tEv (.window (2 ^ 36) [1, 2] false) (tPlat id), by decide⟩,
    tEv (.window 0 [] false) (tPlat id), rfl, rfl⟩

/-- A context's record (R329): context 2, key 5. -/
def tCtxRec : List Word := [0x000A0002, 0x10000, 0, 0x20000, 0, 0x40000, 0, 0, 0, 0, 0, 0, 0, 0, 0, 0]
theorem test_witness_IdentityAndBringUp :
    (∃ s : State, s.arg = .words tCtxRec ∧ s.plat.rdy = true ∧ contextRefused s tCtxRec = false) ∧ (∃ s : State, s.arg = .words tCtxRec ∧ s.plat.rdy = false)
    ∧ (∃ s : State, ∃ x, s.arg = .ids 1 0 0 ∧ Map.find s.ctxs 1 = some x)
    ∧ (∃ s : State, s.arg = .attest 5 0xFFFF (some 1) ∧ 3 ≤ s.plat.step ∧ s.plat.exhausted = false ∧ s.plat.leaves < 1024 ∧ s.plat.asked = [])
    ∧ (∃ s : State, s.arg = .attest 5 0xFFFF none ∧ 3 ≤ s.plat.step ∧ s.plat.exhausted = true ∧ s.plat.asked = [])
    ∧ (∃ s : State, s.arg = .attest 5 0xFFFF none ∧ 3 ≤ s.plat.step ∧ s.plat.exhausted = false ∧ 1024 ≤ s.plat.leaves ∧ s.plat.counter < 2 ^ 20)
    ∧ (∃ s : State, s.arg = .unit ∧ 3 ≤ s.plat.step ∧ 1024 ≤ s.plat.leaves ∧ s.plat.exhausted = false ∧ s.plat.asked = [])
    ∧ (∃ s : State, s.arg = .unit ∧ 3 ≤ s.plat.step ∧ 1024 ≤ s.plat.leaves ∧ s.plat.exhausted = false ∧ s.plat.counter < 2 ^ 20
      ∧ s.plat.asked = [(5, 0xFFFF, none), (6, 1, some 1)])
    ∧ (∃ s : State, s.arg = .unit ∧ s.plat.leaves < 1024)
    ∧ (∃ s : State, ∃ x, s.arg = .kem 1 [1] ∧ 3 ≤ s.plat.step ∧ s.plat.exhausted = false ∧ s.plat.leaves < 1024
      ∧ Map.find s.ctxs (1 : BitVec 16).toNat = some x)
    ∧ (∃ s : State, s.arg = .measure 15 7 ∧ 8 ≤ 15 ∧ 15 ≤ 15 ∧ 2 ≤ s.plat.step) ∧ (∃ s : State, s.arg = .measure 16 7 ∧ 15 < 16)
    ∧ (∃ s : State, s.arg = .bundle (tBundle none) ∧ s.plat.step = 2 ∧ s.plat.berr = false ∧ (tBundle none).failure = none
      ∧ (assignSites (tBundle none).fuse).isSome = true)
    ∧ (∃ s : State, s.arg = .bundle tBadFuse ∧ s.plat.step = 2 ∧ s.plat.berr = false ∧ tBadFuse.failure = none ∧ assignSites tBadFuse.fuse = none)
    ∧ (∃ s : State, s.arg = .bundle (tBundle (some (3, 0x21))) ∧ s.plat.step = 2 ∧ s.plat.berr = false ∧ (tBundle (some (3, 0x21))).failure = some (3, 0x21))
    ∧ ∃ s : State, s.arg = .bundle (tBundle none) ∧ s.plat.step ≠ 2 :=
  ⟨⟨tEv (.words tCtxRec) (tPlat (fun p => { p with rdy := true })), by decide⟩, ⟨tEv (.words tCtxRec) (tPlat (fun p => { p with rdy := false })), by decide⟩,
    ⟨tEv (.ids 1 0 0) tSecret, { blankCtx with words := [0x00090001, 0, 0, 0] }, by decide⟩,
    ⟨tEv (.attest 5 0xFFFF (some 1)) (tPlat (fun p => { p with step := 7, leaves := 1023 })), by decide⟩,
    ⟨tEv (.attest 5 0xFFFF none) (tPlat (fun p => { p with step := 7, exhausted := true })), by decide⟩,
    ⟨tEv (.attest 5 0xFFFF none) (tPlat (fun p => { p with step := 7, leaves := 1024 })), by decide⟩,
    ⟨tEv .unit (tPlat (fun p => { p with step := 7, leaves := 1024 })), by decide⟩,
    ⟨tEv .unit (tPlat (fun p => { p with step := 7, leaves := 1024, asked := [(5, 0xFFFF, none), (6, 1, some 1)] })), by decide⟩,
    ⟨tEv .unit (tPlat (fun p => { p with step := 7 })), by decide⟩,
    ⟨tEv (.kem 1 [1]) { tSecret with plat := { State.reset.plat with step := 7 } }, { blankCtx with words := [0x00090001, 0, 0, 0] }, by decide⟩,
    ⟨tEv (.measure 15 7) (tPlat (fun p => { p with step := 2 })), by decide⟩, ⟨tEv (.measure 16 7) (tPlat id), by decide⟩,
    ⟨tEv (.bundle (tBundle none)) (tPlat (fun p => { p with step := 2 })), by decide +kernel⟩,
    ⟨tEv (.bundle tBadFuse) (tPlat (fun p => { p with step := 2 })), by decide +kernel⟩,
    ⟨tEv (.bundle (tBundle (some (3, 0x21)))) (tPlat (fun p => { p with step := 2 })), by decide +kernel⟩,
    tEv (.bundle (tBundle none)) (tPlat (fun p => { p with step := 7 })), by decide⟩

/-! Engines at work. -/

/-- An operation of the formats of `mf0` (R235), begun or not. -/
def tOp (i : Instr) (mf0 : Word) (started : Bool) : MatOp := { tMat i with mf0 := mf0, started := started }
/-- I8 by I8 into I32, FP32, and the emulated E2M3 into FP32, each 32 x 32 with K = 16. -/
def tI8 : Word := 0x214A
def tF32 : Word := 0x0842
def tE2m3 : Word := 0x0A52
def tMats (l : List MatOp) : State := tEv (.ids 0 0 0) (tEngine l)
/-- The whole of the 32-byte unit at offset 0 of W is poisoned. -/
def tBadW (s : State) : State := modWg s 0 (fun g => { g with poison := [2 ^ 20 / 32] })
theorem test_witness_MatrixEngine :
    (∃ s : State, ∃ o, nextOp s 0 = some o ∧ o.cluster = none ∧ operandPoisoned s o = false)
    ∧ (∃ s : State, ∃ o, nextOp s 0 = some o ∧ o.cluster = none ∧ operandPoisoned s o = true)
    ∧ (∃ s : State, ∃ o, (matOf s 0).find? (fun o => o.started) = some o ∧ opReady s o ∧ firstStarted s o = true ∧ (matFields o.ins).isSome = true
      ∧ matPath (contractOf s o.wg) (shapeOf o.mf0).fa (shapeOf o.mf0).fb (shapeOf o.mf0).fc = some .integer ∧ o.run = none)
    ∧ (∃ s : State, ∃ o, (matOf s 0).find? (fun o => o.started) = some o ∧ opReady s o ∧ firstStarted s o = true ∧ o.run = none
      ∧ matPath (contractOf s o.wg) (shapeOf o.mf0).fa (shapeOf o.mf0).fb (shapeOf o.mf0).fc = some .model)
    ∧ (∃ s : State, ∃ o, (matOf s 0).find? (fun o => o.started) = some o ∧ opReady s o ∧ firstStarted s o = true ∧ o.ins = .accClr 7 3 28)
    ∧ (∃ s : State, ∃ o, (matOf s 0).find? (fun o => o.started) = some o ∧ opReady s o ∧ firstStarted s o = true ∧ o.ins = .accCp 7 0 3 28
      ∧ inRun { wgAt s o.wg with runs := o.prior } (28 * 8192) 1 = false)
    ∧ ∃ s : State, ∃ o, (matOf s 0).find? (fun o => !o.isFence) = some o ∧ opReady s o ∧ emulated o = true ∧ operandPoisoned s o = false ∧ o.run = none
      ∧ matPath (contractOf s o.wg) (shapeOf o.mf0).fa (shapeOf o.mf0).fb (shapeOf o.mf0).fc = some .emulated :=
  ⟨⟨tMats [tOp (.mma 7 1 30 1 28 0) tF32 false], tOp (.mma 7 1 30 1 28 0) tF32 false, by decide +kernel⟩,
    ⟨tBadW (tMats [tOp (.mma 7 1 30 1 28 0) tF32 false]), tOp (.mma 7 1 30 1 28 0) tF32 false, by decide +kernel⟩,
    ⟨tMats [tOp (.mma 7 1 30 1 28 0) tI8 true], tOp (.mma 7 1 30 1 28 0) tI8 true, by decide +kernel⟩,
    ⟨tMats [tOp (.mmz 7 1 30 1 28 0) tF32 true], tOp (.mmz 7 1 30 1 28 0) tF32 true, by decide +kernel⟩,
    ⟨tMats [tOp (.accClr 7 3 28) 0 true], tOp (.accClr 7 3 28) 0 true, by decide +kernel⟩,
    ⟨tMats [tOp (.accCp 7 0 3 28) 0 true], tOp (.accCp 7 0 3 28) 0 true, by decide +kernel⟩,
    tMats [tOp (.mma 7 1 30 1 28 0) tE2m3 false], tOp (.mma 7 1 30 1 28 0) tE2m3 false, by decide +kernel⟩

/-- A transfer with tag 63 or barrier 15, and a state that holds it. -/
def tX (bar : Bool) (ps : List Piece) : Xfer := { tXfer 0 with kindBar := bar, x := if bar then 15 else 63, pieces := ps }
def tLastPiece : Piece := { lane := 0, ea := 0x5000, src := .buf 4 0, dst := .buf 1 (2 ^ 20 - 4), n := 4, half := none }
/-- The last sixteen bytes, as another lane wrote them; and a piece that reads memory of device 5. -/
def tWidePiece : Piece := { tLastPiece with lane := 1, n := 16, dst := .buf 1 (2 ^ 20 - 16) }
def tFarPiece : Piece := { tLastPiece with src := .remote 5 0x40 }
def tXs (x : Xfer) : State :=
  { tBuf 0 with cur := none, cores := [(0, { CoreSt.reset with xfers := [(2, x)] })], wgs := [{ tWg (tSq []) with level := 0, bars := [(15, tBar 0 2)] }] }
/-- A remap of the plane by which address 0x40 of another device is reached. -/
def tHeldPlane (s : State) : State := { s with fab := { s.fab with quiesced := some (planeIn s.fab.oldPmap 0x40) } }
theorem test_witness_EnginesCopy_transfers :
    (∃ s : State, ∃ x p, Map.find (coreAt s 0).xfers 2 = some x ∧ xferReady s x = true ∧ x.pieces = [p] ∧ p.half = none ∧ x.wg < s.wgs.length
      ∧ p.mayMove s = true ∧ p.dst = .buf 1 (2 ^ 20 - 4) ∧ 2 ^ 20 - 4 + p.n ≤ 2 ^ 20 ∧ sourcePoisoned s x.wg 0 p = false ∧ x.landed = [])
    ∧ (∃ s : State, ∃ x p q, Map.find (coreAt s 0).xfers 2 = some x ∧ xferReady s x = true ∧ x.pieces = [p] ∧ p.mayMove s = true ∧ q.half = none
      ∧ p.dst = .buf 1 (2 ^ 20 - 4) ∧ q.dst = .buf 1 (2 ^ 20 - 16) ∧ 2 ^ 20 - 4 + max 1 p.n ≤ 2 ^ 20 - 16 + q.n ∧ q ∈ x.landed ∧ p.lane < q.lane ∧ sourcePoisoned s x.wg 0 p = false)
    ∧ (∃ s : State, ∃ x p, Map.find (coreAt s 0).xfers 2 = some x ∧ xferReady s x = true ∧ x.pieces = [p] ∧ p.mayMove s = true ∧ p.dst = .buf 1 (2 ^ 20 - 4) ∧ 1 ≤ p.n
      ∧ x.wg < s.wgs.length ∧ sourcePoisoned s x.wg 0 p = true)
    ∧ (∃ s : State, ∃ x, s.devOps = [] ∧ Map.find (coreAt s 0).xfers 2 = some x ∧ x.pieces.length ≤ 1)
    ∧ (∃ s : State, ∃ x, s.devOps = [] ∧ Map.find (coreAt s 0).xfers 2 = some x ∧ xferReady s x = false)
    ∧ (∃ s : State, ∃ x p, s.devOps = [] ∧ Map.find (coreAt s 0).xfers 2 = some x ∧ x.pieces[0]? = some p ∧ p.mayMove s = false)
    ∧ (∃ s : State, ∃ x, Map.find (coreAt s 0).xfers 2 = some x ∧ xferReady s x = true ∧ x.pieces = [] ∧ x.parkedLanes = [] ∧ x.abandoned = false
      ∧ x.kindBar = false ∧ x.wg < s.wgs.length ∧ (wgAt s x.wg).status = 0)
    ∧ (∃ s : State, ∃ x, Map.find (coreAt s 0).xfers 2 = some x ∧ xferReady s x = true ∧ x.pieces = [] ∧ x.parkedLanes = [] ∧ x.abandoned = false
      ∧ x.kindBar = true ∧ x.wg < s.wgs.length ∧ arriveFault (barOf (wgAt s x.wg) x.x) (x.halves / 2) = none
      ∧ (barOf (wgAt s x.wg) x.x).earr + 1 ≠ (barOf (wgAt s x.wg) x.x).eexp)
    ∧ ∃ s : State, ∃ x, Map.find (coreAt s 0).xfers 2 = some x ∧ x.pieces ≠ [] :=
  ⟨⟨tXs (tX false [tLastPiece]), tX false [tLastPiece], tLastPiece, by decide⟩,
    ⟨tXs { tX false [tLastPiece] with landed := [tWidePiece] }, { tX false [tLastPiece] with landed := [tWidePiece] }, tLastPiece, tWidePiece, by decide⟩,
    ⟨modWg (tXs (tX false [tLastPiece])) 0 (fun g => { g with poison := [4 * 2 ^ 15] }), tX false [tLastPiece], tLastPiece, by decide⟩,
    ⟨tXs (tX false [tLastPiece]), tX false [tLastPiece], by decide⟩,
    ⟨tXs { tX false (tXfer 0).pieces with stopped := true }, { tX false (tXfer 0).pieces with stopped := true }, by decide⟩,
    ⟨tHeldPlane (tXs (tX false [tFarPiece])), tX false [tFarPiece], tFarPiece, by decide⟩,
    ⟨tXs (tX false []), tX false [], by decide⟩, ⟨tXs (tX true []), tX true [], by decide⟩, tXs (tX false (tXfer 0).pieces), tX false (tXfer 0).pieces, by decide⟩
/-- Context 2 of core 0 with its first completion operation, lines outstanding or not; poisoned source or not. -/
def tComp (ms : List (Nat × DWord × List Piece)) (before : Nat) (op : CeComp) : State :=
  modWg { tCes [(2, { tBusy with moves := ms, comps := [(before, 0x1000, op)], ldi := [(31, 9)] })] (tUser []) with cur := none } 0
    (fun g => { g with bars := [(15, tBar 0 2)], rings := [(6, tRing)] })
theorem readyComp (ms : List (Nat × DWord × List Piece)) (op : CeComp) : compReady (tComp ms 0 op) 0 2 op :=
  ⟨⟨0, 0x1000, rfl, fun _ _ => Nat.zero_le _⟩, rfl, (by decide : 1 < 4)⟩
theorem test_witness_EnginesCopy_contexts :
    (∃ s : State, ∃ m, (ceAt s 0 2).moves[0]? = some m ∧ ceLineReady (ceAt s 0 2) 0 = true ∧ (∀ p ∈ m.2.2, p.mayMove s = true)
      ∧ (moveLine s (ceOwner s 0 2) 0 m.2.2).isSome = true)
    ∧ (∃ s : State, ∃ m, s.devOps = [] ∧ (ceAt s 0 2).moves[0]? = some m ∧ ceLineReady (ceAt s 0 2) 0 = false)
    ∧ (∃ s : State, ∃ m, s.devOps = [] ∧ (ceAt s 0 2).moves[0]? = some m ∧ ∃ p ∈ m.2.2, p.mayMove s = false)
    ∧ (∃ s : State, ∃ m, (ceAt s 0 2).moves[0]? = some m ∧ ceLineReady (ceAt s 0 2) 0 = true ∧ (∀ p ∈ m.2.2, p.mayMove s = true)
      ∧ moveLine s (ceOwner s 0 2) 0 m.2.2 = none
      ∧ (ceAt s 0 2).st < 4 ∧ (ceAt s 0 2).owner.isSome = true ∧ ceOwner s 0 2 < s.wgs.length ∧ m.1 = (ceAt s 0 2).moveNo ∧ 77 ∈ (ceAt s 0 2).left)
    ∧ (∃ s : State, (ceAt s 0 2).comps.head? = some (1, 0x1000, .tagset 63) ∧ ∃ m ∈ (ceAt s 0 2).moves, m.1 < 1)
    ∧ (∃ s : State, compReady s 0 2 (.tagset 63) ∧ ceOwner s 0 2 < s.wgs.length ∧ (wgAt s (ceOwner s 0 2)).status = 0)
    ∧ (∃ s : State, compReady s 0 2 (.arr 15 (2 ^ 27)) ∧ ceOwner s 0 2 < s.wgs.length
      ∧ arriveFault (barOf (wgAt s (ceOwner s 0 2)) 15) (2 ^ 27) = none
      ∧ (barOf (wgAt s (ceOwner s 0 2)) 15).earr + 1 ≠ (barOf (wgAt s (ceOwner s 0 2)) 15).eexp)
    ∧ (∃ s : State, compReady s 0 2 (.commit 6) ∧ ceOwner s 0 2 < s.wgs.length ∧ (ringOf (wgAt s (ceOwner s 0 2)) 6).slots ≠ 0
      ∧ (ringOf (wgAt s (ceOwner s 0 2)) 6).full.getLsbD (ringOf (wgAt s (ceOwner s 0 2)) 6).pcur = false)
    ∧ (∃ s : State, compReady s 0 2 (.publish 0) ∧ (ceAt s 0 2).pubWait = none ∧ (performPublish s (wgAt s (ceOwner s 0 2)).ctx 0).isSome = true)
    ∧ (∃ s : State, compReady s 0 2 (.stw 0x1000000000000004 5) ∧ ceOwner s 0 2 < s.wgs.length
      ∧ ∃ r p, touch s (ceOwner s 0 2) .copy 0x1000000000000004 4 true = (r, .ok p) ∧ p.1 = .buf 1 4)
    ∧ ∃ s : State, (ceAt s 0 2).ldi = (31, 9) :: [] :=
  ⟨⟨tComp [(0, 0x1000, (tXfer 0).pieces)] 0 (.tagset 63), (0, 0x1000, (tXfer 0).pieces), by decide +kernel⟩,
    ⟨modCe (tComp [(0, 0x1000, (tXfer 0).pieces)] 0 (.tagset 63)) 0 2 (fun c => { c with stuck := some 0 }), (0, 0x1000, (tXfer 0).pieces), by decide +kernel⟩,
    ⟨tHeldPlane (tComp [(0, 0x1000, [tFarPiece])] 0 (.tagset 63)), (0, 0x1000, [tFarPiece]), by decide +kernel⟩,
    ⟨modCe (modWg (tComp [(0, 0x1000, (tXfer 0).pieces)] 0 (.tagset 63)) 0 (fun g => { g with poison := [4 * 2 ^ 15] })) 0 2 (fun c => { c with left := [77] }),
      (0, 0x1000, (tXfer 0).pieces), by decide +kernel⟩,
    ⟨tComp [(0, 0x1000, (tXfer 0).pieces)] 1 (.tagset 63), by decide⟩, ⟨tComp [(0, 0x1000, (tXfer 0).pieces)] 0 (.tagset 63), readyComp _ _, by decide⟩,
    ⟨tComp [] 0 (.arr 15 (2 ^ 27)), readyComp _ _, by decide⟩, ⟨tComp [] 0 (.commit 6), readyComp _ _, by decide⟩,
    ⟨tComp [] 0 (.publish 0), readyComp _ _, by decide +kernel⟩,
    ⟨tComp [] 0 (.stw 0x1000000000000004 5), readyComp _ _, by decide, passes (.pad 0, 0) _ _ (by decide +kernel) (by decide +kernel)⟩,
    tComp [] 0 (.commit 6), by decide⟩

/-- A publish of entry 0, or of entry 5, which is not valid, by the thread in lane 31. -/
def tPubOp (e before : Nat) : PubOp :=
  { wg := 0, sq := 0, lb := 0, d := 60, place := tPlace, lanes := [(31, BitVec.ofNat 32 (e + 4096))], todo := [e], pubs := [], before := before }
def tPubOf (op : PubOp) : State := { tUser [] with pubOps := [(6, op)] }
theorem test_witness_Publication :
    (∃ s : State, ∃ op, Map.find s.pubOps 6 = some op ∧ squadDrained s op.wg op.sq op.before = true ∧ op.todo = 0 :: [] ∧ isSquad s op.wg op.sq
      ∧ bmtValid (bmtEntry s (wgAt s op.wg).ctx 0) = true ∧ recAddr (ctxAt s (wgAt s op.wg).ctx).words 3 % 16 = 0
      ∧ ∃ l ∈ op.lanes, l.2.toNat % 4096 = 0)
    ∧ (∃ s : State, ∃ op, Map.find s.pubOps 6 = some op ∧ squadDrained s op.wg op.sq op.before = true ∧ op.todo = 5 :: []
      ∧ bmtValid (bmtEntry s (wgAt s op.wg).ctx 5) = false ∧ ∃ l ∈ op.lanes, l.2.toNat % 4096 = 5)
    ∧ (∃ s : State, ∃ op, Map.find s.pubOps 6 = some op ∧ squadDrained s op.wg op.sq op.before = false)
    ∧ (∃ s : State, ∃ p, Map.find s.pubs 7 = some p ∧ (∀ q ∈ s.pubs, q.1 < 7 → 0 ∉ q.2.waiting) ∧ s.fab.deliveries = [] ∧ s.fab.colls = [])
    ∧ ∃ s : State, ∃ q ∈ s.pubs, q.1 < 8 ∧ 0 ∈ q.2.waiting :=
  ⟨⟨tPubOf (tPubOp 0 0), tPubOp 0 0, by decide +kernel⟩, ⟨tPubOf (tPubOp 5 0), tPubOp 5 0, by decide +kernel⟩,
    ⟨modSq (tPubOf (tPubOp 0 5)) 0 0 (fun q => { q with stq := [tSt (tStLane (.local 0x2000))] }), tPubOp 0 5, by decide +kernel⟩,
    ⟨{ tUser [] with pubs := [(7, { ctx := 1, entry := 0, words := [], drop := true, waiting := [0] })] },
      { ctx := 1, entry := 0, words := [], drop := true, waiting := [0] }, by decide +kernel⟩,
    { tUser [] with pubs := [(7, { ctx := 1, entry := 0, words := [], drop := true, waiting := [0] })] }, _, List.mem_singleton.mpr rfl, by decide⟩

/-! Messages, deliveries, collectives. -/

/-- A message of device 9 for context 1, and a post that takes it (R305, R307). -/
def tMsg (seq : BitVec 16) : Message := { src := 9, ctx := 1, tag := 7, seq := seq, ebits := 32, rows := [[1, 2, 3, 4]] }
def tPosted : Post :=
  { slot := 4, reuse := 1, ctx := 1, wg := 0, words := [9, 0x3FF, 7, 0xFFFFFFFF, 0x4000, 0, 16, 0, 0x7000, 0, 0, 0, 0, 0, 0, 0], rec_ := tLay 0 0x2000000, idx := none }
/-- Context 1 with room for one post (R329), and the receive engine changed. -/
def tFab (f : Fabric → Fabric) : State :=
  let s := modCtx (tUser []) 1 (fun c => { c with words := c.words ++ [0, 0, 0, 0, 0, 0, 1, 0, 0] })
  { s with fab := f s.fab, cur := none }
theorem here_of (s : State) (w a : Nat) (h : (match (statusPage s w a).2 with
    | .ok x => !x.loc.isRemote
    | .error _ => true) = true) : statusHere s w a := by
  intro x d l e r
  rw [e] at h
  simp [r, Loc.isRemote] at h
theorem test_witness_MessagesAndReceives_sends :
    (∃ s : State, ∃ op, Map.find s.fab.sends 6 = some op ∧ op.fate = some (8, 0))
    ∧ (∃ s : State, ∃ op, Map.find s.fab.sends 6 = some op ∧ op.fate = none ∧ op.sent = true ∧ keepsBack s (isPayloadOf 6) = false ∧ op.tagOf = some 63
      ∧ op.wg < s.wgs.length ∧ (wgAt s op.wg).status = 0 ∧ op.stat ≠ 0 ∧ statusHere s op.wg op.stat)
    ∧ (∃ s : State, ∃ op, Map.find s.fab.sends 6 = some op ∧ op.fate = none ∧ op.sent = false ∧ 65536 < op.len ∧ keepsBack s (isPayloadOf 6) = false)
    ∧ (∃ s : State, ∃ op, Map.find s.fab.sends 6 = some op ∧ op.fate = none ∧ op.poisoned.isSome = true)
    ∧ (∃ s : State, ∃ x, Map.find s.flights 7 = none ∧ Map.find s.fab.statuses 7 = some x ∧ keepsBack s (isRequest 7) = false ∧ x.next = .tag 63
      ∧ x.wg < s.wgs.length ∧ (wgAt s x.wg).status = 0 ∧ x.code < 256 ∧ x.sub < 256)
    ∧ ∃ s : State, Map.find s.fab.sends 6 = none :=
  let far (op : SendOp) : State := tFab (fun f => { f with sends := [(6, op)] })
  let word : StatusOut := { wg := 0, dev := 9, ea := 0x7000, code := 0x22, sub := 7, die := 0, next := .tag 63 }
  ⟨⟨tFab (fun f => { f with sends := [(6, { tSendOp with fate := some (8, 0) })] }), { tSendOp with fate := some (8, 0) }, by decide +kernel⟩,
    ⟨far { tSendOp with tagOf := some 63, stat := 0x7000 }, { tSendOp with tagOf := some 63, stat := 0x7000 }, by decide +kernel, by decide +kernel, by decide +kernel,
      by decide +kernel, by decide +kernel, by decide +kernel, by decide +kernel, by decide +kernel, here_of _ _ _ (by decide +kernel)⟩,
    ⟨far { tSendOp with sent := false, len := 65537 }, { tSendOp with sent := false, len := 65537 }, by decide +kernel⟩,
    ⟨far { tSendOp with poisoned := some 2 }, { tSendOp with poisoned := some 2 }, by decide +kernel⟩,
    ⟨tFab (fun f => { f with statuses := [(7, word)] }), word, by decide +kernel⟩, tFab id, by decide +kernel⟩
theorem test_witness_MessagesAndReceives_messages :
    (∃ s : State, comesAtOnce (tMsg 0) ∧ messageDue s (tMsg 0) ∧ postFor s (tMsg 0) = some tPosted)
    ∧ (∃ s : State, messageDue s (tMsg 0) ∧ postFor s (tMsg 0) = none ∧ (s.fab.unexpected.filter (fun e => e.1.ctx == (tMsg 0).ctx)).length < 4096)
    ∧ (∃ s : State, messageDue s (tMsg 0) ∧ postFor s (tMsg 0) = none ∧ 4096 ≤ (s.fab.unexpected.filter (fun e => e.1.ctx == (tMsg 0).ctx)).length)
    ∧ (∃ s : State, comesAtOnce (tMsg 1) ∧ (Map.find s.ctxs (tMsg 1).ctx.toNat).isSome = true ∧ expectedSeq s (tMsg 1).src (tMsg 1).ctx.toNat ≠ (tMsg 1).seq.toNat
      ∧ ∀ h ∈ s.fab.held, ¬(h.src = (tMsg 1).src ∧ h.ctx = (tMsg 1).ctx ∧ h.seq.toNat = expectedSeq s (tMsg 1).src (tMsg 1).ctx.toNat))
    ∧ (∃ s : State, (Map.find s.ctxs (tMsg 0).ctx.toNat).isNone = true)
    ∧ (∃ s : State, s.fab.held[0]? = some (tMsg 0) ∧ s.fab.held.filter (fun h => h.src == (tMsg 0).src && h.ctx == (tMsg 0).ctx) = [tMsg 0]
      ∧ expectedSeq s (tMsg 0).src (tMsg 0).ctx.toNat = (tMsg 0).seq.toNat ∧ postFor s (tMsg 0) = some tPosted)
    ∧ ∃ s : State, s.fab.held[0]? = some (tMsg 1)
      ∧ ∀ h ∈ s.fab.held, ¬(h.src = (tMsg 1).src ∧ h.ctx = (tMsg 1).ctx ∧ h.seq.toNat = expectedSeq s (tMsg 1).src (tMsg 1).ctx.toNat) :=
  ⟨⟨tFab (fun f => { f with posts := [tPosted] }), by decide +kernel⟩, ⟨tFab id, by decide +kernel⟩,
    ⟨tFab (fun f => { f with unexpected := List.replicate 4096 (tMsg 9, false) }), by decide +kernel⟩, ⟨tFab id, by decide +kernel⟩,
    ⟨{ tFab id with ctxs := [] }, by decide +kernel⟩, ⟨tFab (fun f => { f with posts := [tPosted], held := [tMsg 0] }), by decide +kernel⟩,
    tFab (fun f => { f with held := [tMsg 1] }), by decide +kernel⟩
/-- A post for any source and tag takes a message whoever sent it. -/
def tAny : Post := { tPosted with words := [0, 0, 0, 0, 0x4000, 0, 16, 0, 0x7000, 0, 0, 0, 0, 0, 0, 0] }
/-- A send of this device to itself, of four words, with what the post above takes. -/
def tOwnOp (len : Nat) : SendOp :=
  { tSendOp with ddev := Config.ownDevice, rec_ := tLay 0 0x5000, len := len, payload := some (32, [[1, 2, 3, 4]]), sent := false }
def tOwn (op : SendOp) : State := tFab (fun f => { f with sends := [(6, op)], posts := [tAny] })
/-- The message that it becomes. -/
def tOwnMsg (pay : Nat × List (List DWord)) : Message :=
  { src := Config.ownDevice, ctx := 1, tag := 7, seq := 0, ebits := pay.1, rows := pay.2 }
theorem postForAny (s : State) (m : Message) (h : s.fab.posts = [tAny]) (c : m.ctx = 1) : postFor s m = some tAny := by
  have e : matchesPost m tAny.words = true := by simp [matchesPost, tAny, wordAt]
  have d : tAny.ctx = 1 := rfl
  simp [postFor, h, e, c, d]
theorem test_witness_MessagesAndReceives_own : ∀ len ∈ [16, 70000], ∃ s op old q r pay bad,
    Map.find s.fab.sends 6 = some op ∧ op.payload = some old ∧ op.seq = some q ∧ op.ddev = Config.ownDevice ∧ op.sent = false ∧ op.len = len
      ∧ (if op.len ≤ 65536 then readAgain s op else (s, some old, none)) = (r, some pay, bad) ∧ bad = none
      ∧ comesAtOnce (tOwnMsg pay) ∧ messageDue r (tOwnMsg pay) ∧ postFor r (tOwnMsg pay) = some tAny := by
  intro len h
  rcases List.mem_cons.mp h with rfl | h
  · exact ⟨tOwn (tOwnOp 16), tOwnOp 16, (32, [[1, 2, 3, 4]]), 0, (readAgain (tOwn (tOwnOp 16)) (tOwnOp 16)).1,
      ((readAgain (tOwn (tOwnOp 16)) (tOwnOp 16)).2.1.getD (0, [])), none, rfl, rfl, rfl, rfl, rfl, rfl, rfl, rfl, by decide +kernel, by decide +kernel,
      postForAny _ _ rfl rfl⟩
  · rcases List.mem_singleton.mp h with rfl
    exact ⟨tOwn (tOwnOp 70000), tOwnOp 70000, (32, [[1, 2, 3, 4]]), 0, tOwn (tOwnOp 70000), (32, [[1, 2, 3, 4]]), none, rfl, rfl, rfl, rfl, rfl, rfl, rfl,
      rfl, by decide +kernel, by decide +kernel, postForAny _ _ rfl rfl⟩
/-- A read that gives a payload, and where poison lies in it or none. -/
theorem readIs (x : State × Option (Nat × List (List DWord)) × Option Nat) (h : x.2.2 = none ∧ x.2.1.isSome = true) :
    x = (x.1, some ((x.2.1.getD (0, [])).1, (x.2.1.getD (0, [])).2), none) := by
  obtain ⟨s, p, b⟩ := x
  obtain ⟨rfl, h⟩ := h
  cases p with
  | none => simp at h
  | some p => rfl
theorem test_witness_MessagesAndReceives_poison : ∃ s op old q r pay bad,
    Map.find s.fab.sends 6 = some op ∧ op.payload = some old ∧ op.seq = some q ∧ op.ddev = Config.ownDevice ∧ op.sent = false ∧ op.len ≤ 65536
      ∧ readAgain s op = (r, pay, some bad) :=
  let s := { tOwn (tOwnOp 16) with poison := [5368709130] }
  have h : (readAgain s (tOwnOp 16)).2.2 = some 0 := by decide +kernel
  ⟨s, tOwnOp 16, (32, [[1, 2, 3, 4]]), 0, (readAgain s (tOwnOp 16)).1, (readAgain s (tOwnOp 16)).2.1, 0, rfl, rfl, rfl,
    rfl, rfl, by decide, h ▸ rfl⟩
/-- A message of `n` words from device 9, announced as 6. -/
def tBig (n : Nat) : Message := { tMsg 0 with rows := [List.replicate n 0] }
def tInbound (n g : Nat) : State := tFab (fun f => { f with inbound := [(6, tBig n, g)], posts := [tPosted] })
/-- One announced payload is the next to be granted. -/
theorem grantsOnly (s : State) (src k rank : Nat) (h : announced s = [(src, k, rank)]) : grantDue s k rank src := by
  simp [grantDue, h]
theorem test_witness_MessagesAndReceives_grants :
    (∃ m, ¬comesAtOnce m ∧ m.src ≠ Config.ownDevice)
    ∧ (∃ s : State, grantDue s 6 0 9 ∧ Map.find s.fab.deliveries 6 = none ∧ Map.find s.fab.inbound 6 = some (tBig 512, 0)
      ∧ messageBytes (tBig 512) ≤ 0 + 2048 ∧ messageDue s (tBig 512) ∧ postFor s (tBig 512) = some tPosted)
    ∧ ∃ s : State, grantDue s 6 0 9 ∧ s.fab.quiesced = none ∧ Map.find s.fab.deliveries 6 = none ∧ Map.find s.fab.inbound 6 = some (tBig 513, 0)
      ∧ 0 + 2048 < messageBytes (tBig 513) := by
  refine ⟨?_, ⟨tInbound 512 0, grantsOnly _ _ _ _ (by decide +kernel), rfl, rfl, by decide +kernel, by decide +kernel, by decide +kernel⟩,
    tInbound 513 0, grantsOnly _ _ _ _ (by decide +kernel), rfl, rfl, rfl, by decide +kernel⟩
  by_cases h : Config.ownDevice = 9
  · exact ⟨{ tBig 100 with src := 8 }, by decide +kernel, fun e => absurd (h.symm.trans e.symm) (by decide)⟩
  · exact ⟨tBig 100, by decide +kernel, fun e => h e.symm⟩
/-- A request of the thread in lane 31. -/
def tAsk (kind : Nat) (ws : List Word) : RecvReq :=
  { wg := 0, sq := 0, lb := 0, lane := 31, d := 60, ctx := 1, kind := kind, words := ws, rec_ := tLay 0 0x2000000, idx := none }
theorem test_witness_MessagesAndReceives_requests :
    (∃ s : State, ∃ r, requestDue s 6 0 r ∧ recBits (ctxAt s r.ctx).words 13 15 0 ≤
      (s.fab.posts.filter (fun p => p.ctx == r.ctx)).length + (s.fab.deliveries.filter (fun d => d.2.post.ctx == r.ctx)).length)
    ∧ (∃ s : State, ∃ r, requestDue s 6 0 r ∧ (0 < 65536 ∧ 0 ∉ slotsUsed s)
      ∧ (s.fab.posts.filter (fun p => p.ctx == r.ctx)).length + (s.fab.deliveries.filter (fun d => d.2.post.ctx == r.ctx)).length
        < recBits (ctxAt s r.ctx).words 13 15 0 ∧ (messageFor s r.ctx r.words).isSome = true)
    ∧ (∃ s : State, ∃ r, Map.find s.fab.reqs 6 = some r ∧ r.kind = 0 ∧ recvTurn s 6 r = false)
    ∧ (∃ s : State, ∃ r p, requestDue s 6 1 r
      ∧ s.fab.posts.find? (fun p => p.ctx == r.ctx && p.slot + p.reuse * 65536 == (wordAt r.words 0).toNat) = some p ∧ (wordAt p.words 7).getLsbD 6 = false)
    ∧ (∃ s : State, ∃ r, requestDue s 6 1 r ∧ ∀ p ∈ s.fab.posts, ¬(p.ctx = r.ctx ∧ p.slot + p.reuse * 65536 = (wordAt r.words 0).toNat))
    ∧ (∃ s : State, ∃ r e, requestDue s 6 2 r ∧ messageFor s r.ctx r.words = some e)
    ∧ ∃ s : State, ∃ r, requestDue s 6 2 r ∧ messageFor s r.ctx r.words = none :=
  ⟨⟨tFab (fun f => { f with reqs := [(6, tAsk 0 tPosted.words)], posts := [tPosted] }), tAsk 0 tPosted.words, by decide +kernel⟩,
    ⟨tFab (fun f => { f with reqs := [(6, tAsk 0 tPosted.words)], unexpected := [(tMsg 0, false)] }), tAsk 0 tPosted.words, by decide +kernel⟩,
    ⟨tFab (fun f => { f with reqs := [(5, tAsk 1 [4]), (6, tAsk 0 tPosted.words)] }), tAsk 0 tPosted.words, by decide +kernel⟩,
    ⟨tFab (fun f => { f with reqs := [(6, tAsk 1 [0x10004])], posts := [tPosted] }), tAsk 1 [0x10004], tPosted, by decide +kernel⟩,
    ⟨tFab (fun f => { f with reqs := [(6, tAsk 1 [4])], posts := [tPosted] }), tAsk 1 [4], by decide +kernel⟩,
    ⟨tFab (fun f => { f with reqs := [(6, tAsk 2 [9, 0x3FF, 0, 0])], unexpected := [(tMsg 0, true)] }), tAsk 2 [9, 0x3FF, 0, 0], (tMsg 0, true), by decide +kernel⟩,
    tFab (fun f => { f with reqs := [(6, tAsk 2 [8, 0x3FF, 0, 0])], unexpected := [(tMsg 0, true)] }), tAsk 2 [8, 0x3FF, 0, 0], by decide +kernel⟩

/-- A delivery with one piece left to land at an address, of four bytes. -/
def tPieceAt (ea : BitVec 64) : Piece := { lane := 4, ea := ea, src := .data 0x01020304, dst := .pad 0, n := 4, half := none }
def tDel (ps : Option (List Piece)) (pulled : Bool) : Delivery :=
  { post := tPosted, msg := tMsg 0, pulled := pulled, pieces := ps, len := 12, trunc := false, entries := [], pubs := [], granted := 0, asked := false, bad := false }
def tDels (d : Delivery) : State := tFab (fun f => { f with deliveries := [(6, d)] })
/-- A post that sets tag 63. -/
def tTagged : Post := { tPosted with words := tPosted.words.set 7 0x7F }
theorem test_witness_Deliveries :
    (∃ s : State, ∃ d, Map.find s.fab.deliveries 6 = some d ∧ d.pieces = some [tPieceAt 0x2000004] ∧ layBits d.post.rec_ = d.msg.ebits ∧ d.pulled = false ∧ d.asked = false
      ∧ (landPieces d.post.wg [tPieceAt 0x2000004] d.len d.entries s).2.fault = none
      ∧ (landPieces d.post.wg [tPieceAt 0x2000004] d.len d.entries s).2.rest = [] ∧ d.bad = false
      ∧ (let x := publishAll (landPieces d.post.wg [tPieceAt 0x2000004] d.len d.entries s).1 (landPieces d.post.wg [tPieceAt 0x2000004] d.len d.entries s).2.entries
         pubsDone x.1 x.2 = false))
    ∧ (∃ s : State, ∃ d ps, Map.find s.fab.deliveries 6 = some d ∧ d.pieces = some ps ∧ ps ≠ [] ∧ layBits d.post.rec_ = d.msg.ebits ∧ d.pulled = false ∧ d.asked = false
      ∧ (landPieces d.post.wg (firstUnit ps).1 d.len d.entries s).2.fault = none ∧ (firstUnit ps).2 ≠ [] ∧ ∀ p ∈ ps, 1 ≤ p.n ∧ p.n ≤ 4 ∧ p.ea.toNat % p.n = 0)
    ∧ (∃ s : State, ∃ d ps, Map.find s.fab.deliveries 6 = some d ∧ d.pieces = some ps ∧ ps ≠ [] ∧ layBits d.post.rec_ = d.msg.ebits ∧ d.pulled = false ∧ d.asked = false
      ∧ (landPieces d.post.wg ps d.len d.entries s).2.fault = none ∧ (landPieces d.post.wg ps d.len d.entries s).2.rest ≠ [])
    ∧ (∃ s : State, ∃ d ps, Map.find s.fab.deliveries 6 = some d ∧ d.pieces = some ps ∧ ps ≠ [] ∧ layBits d.post.rec_ = d.msg.ebits ∧ d.pulled = false ∧ d.asked = false
      ∧ (landPieces d.post.wg ps d.len d.entries s).2.fault = none ∧ (landPieces d.post.wg ps d.len d.entries s).2.rest = [] ∧ d.bad = true)
    ∧ (∃ s : State, ∃ d, Map.find s.fab.deliveries 6 = some d ∧ d.pieces = some [] ∧ pubsDone s d.pubs = true)
    ∧ (∃ s : State, ∃ d, Map.find s.fab.deliveries 6 = some d ∧ d.pieces = some [] ∧ pubsDone s d.pubs = true ∧ (wordAt d.post.words 7).getLsbD 6 = true
      ∧ d.post.wg < s.wgs.length ∧ (wgAt s d.post.wg).status = 0 ∧ statusHere s d.post.wg (recAddr d.post.words 8))
    ∧ (∃ s : State, ∃ d, Map.find s.fab.deliveries 6 = some d ∧ d.pieces = some [tPieceAt 0x6000000] ∧ layBits d.post.rec_ = d.msg.ebits ∧ d.pulled = false ∧ d.asked = false
      ∧ (landPieces d.post.wg [tPieceAt 0x6000000] d.len d.entries s).2.fault = some ((0x10, 1), 0x6000000))
    ∧ (∃ s : State, ∃ d, Map.find s.fab.deliveries 6 = some d ∧ d.pieces = some [tPieceAt 0x1000000000000004] ∧ layBits d.post.rec_ = d.msg.ebits ∧ d.pulled = false ∧ d.asked = false
      ∧ (landPieces d.post.wg [tPieceAt 0x1000000000000004] d.len d.entries s).2.fault.any (fun f => f.1 != (0x10, 1)) = true)
    ∧ (∃ s : State, ∃ d, Map.find s.fab.deliveries 6 = some d ∧ d.pieces = none ∧ d.asked = false ∧ layBits d.post.rec_ ≠ d.msg.ebits)
    ∧ (∃ s : State, ∃ d, Map.find s.fab.deliveries 6 = some d ∧ d.pieces = some [] ∧ pubsDone s d.pubs = false)
    ∧ (∃ s : State, ∃ d, Map.find s.fab.deliveries 6 = some d ∧ d.pieces ≠ some [])
    ∧ (∃ s : State, ∃ d, Map.find s.fab.deliveries 6 = some d ∧ d.pieces ≠ some [] ∧ d.asked = true)
    ∧ ∃ s : State, ∃ p d x, s.arg = .page 4 none ∧ Map.find s.pageReqs 4 = some p ∧ p.delivery = some d ∧ Map.find s.fab.deliveries d = some x :=
  ⟨⟨tDels (tDel (some [tPieceAt 0x2000004]) false), tDel (some [tPieceAt 0x2000004]) false, by decide +kernel⟩,
    ⟨tDels (tDel (some [tPieceAt 0x2000004, tPieceAt 0x2000008]) false), tDel (some [tPieceAt 0x2000004, tPieceAt 0x2000008]) false,
      [tPieceAt 0x2000004, tPieceAt 0x2000008], by decide +kernel⟩,
    ⟨{ tDels (tDel (some [tPieceAt 0x2000004]) false) with pubs := [(7, { ctx := 1, entry := 0, words := [], drop := true, waiting := [0] })] },
      tDel (some [tPieceAt 0x2000004]) false, [tPieceAt 0x2000004], by decide +kernel⟩,
    ⟨tDels { tDel (some [tPieceAt 0x2000004]) false with bad := true }, { tDel (some [tPieceAt 0x2000004]) false with bad := true }, [tPieceAt 0x2000004],
      by decide +kernel⟩,
    ⟨tDels (tDel (some []) false), tDel (some []) false, by decide +kernel⟩,
    ⟨tDels { tDel (some []) false with post := tTagged }, { tDel (some []) false with post := tTagged }, by decide +kernel, by decide +kernel, by decide +kernel,
      by decide +kernel, by decide +kernel, by decide +kernel, here_of _ _ _ (by decide +kernel)⟩,
    ⟨tDels (tDel (some [tPieceAt 0x6000000]) false), tDel (some [tPieceAt 0x6000000]) false, by decide +kernel⟩,
    ⟨tDels (tDel (some [tPieceAt 0x1000000000000004]) false), tDel (some [tPieceAt 0x1000000000000004]) false, by decide +kernel⟩,
    ⟨tDels { tDel none false with msg := { tMsg 0 with ebits := 16 } }, { tDel none false with msg := { tMsg 0 with ebits := 16 } }, by decide +kernel⟩,
    ⟨{ tDels { tDel (some []) false with pubs := [7] } with pubs := [(7, { ctx := 1, entry := 0, words := [], drop := true, waiting := [0] })] },
      { tDel (some []) false with pubs := [7] }, by decide +kernel⟩,
    ⟨tDels (tDel none true), tDel none true, by decide +kernel⟩,
    ⟨tDels { tDel none true with asked := true }, { tDel none true with asked := true }, by decide +kernel⟩,
    tEv (.page 4 none) { tDels { tDel none true with asked := true } with pageReqs := [(4, { tReq with delivery := some 6 })] }, { tReq with delivery := some 6 }, 6,
      { tDel none true with asked := true }, by decide +kernel⟩

/-- A pulled delivery that waits for its grants, and a send to another device that gets them. -/
def tPulled : Delivery := { tDel (some [tPieceAt 0x2000004]) true with msg := tBig 20000 }
def tFarOp (dev : Nat) : SendOp := { tOwnOp 6000 with ddev := dev }
def tLongOp (dev : Nat) : SendOp := { tOwnOp 70000 with ddev := dev }
def tReadFar (dev : Nat) : State × Option (Nat × List (List DWord)) × Option Nat :=
  let op : SendOp := { tFarOp dev with granted := (tFarOp dev).granted + 2048 * (3 : BitVec 64).toNat }
  readAgain (withSend (tOwn (tFarOp dev)) 6 op) op
theorem test_witness_Deliveries_grants :
    (∃ s : State, ∃ d, Map.find s.fab.deliveries 6 = some d ∧ d.pieces = some [tPieceAt 0x2000004] ∧ d.asked = false ∧ d.pulled = true
      ∧ layBits d.post.rec_ = d.msg.ebits
      ∧ d.granted < d.len + ([tPieceAt 0x2000004].map (fun p => p.lane)).sum)
    ∧ (∃ s : State, grantDue s 6 0 9 ∧ s.fab.quiesced = none ∧ (Map.find s.fab.deliveries 6).isSome = true)
    ∧ (∃ s : State, grantDue s 6 1 8 ∧ s.fab.quiesced = none ∧ Map.find s.fab.deliveries 6 = none ∧ Map.find s.fab.inbound 6 = none
      ∧ (Map.find s.fab.colls 6).isSome = true)
    ∧ (∃ s : State, ∀ src, ¬grantDue s 6 0 src)
    ∧ (∃ (s : State) (op : SendOp), Map.find s.fab.sends 6 = some op ∧ op.ddev ≠ Config.ownDevice ∧ op.sent = false ∧ op.fate = none
      ∧ keepsBack s (isPayloadOf 6) = false ∧ op.len ≤ 65536 ∧ op.granted + 2048 * (2 : BitVec 64).toNat < op.len)
    ∧ (∃ (s : State) (op : SendOp) (bits : Nat) (rows : List (List DWord)) (bad : Option Nat) (r : State), Map.find s.fab.sends 6 = some op
      ∧ op.ddev ≠ Config.ownDevice ∧ op.sent = false ∧ op.fate = none ∧ s.fab.quiesced = none ∧ keepsBack s (isPayloadOf 6) = false ∧ 65536 < op.len
      ∧ readAgain s op = (r, some (bits, rows), bad))
    ∧ ∃ (s : State) (op : SendOp) (bits : Nat) (rows : List (List DWord)) (r : State), Map.find s.fab.sends 6 = some op ∧ op.ddev ≠ Config.ownDevice ∧ op.sent = false ∧ op.fate = none ∧ s.fab.quiesced = none
      ∧ keepsBack s (isPayloadOf 6) = false ∧ 256 < op.len ∧ op.len ≤ 65536
      ∧ op.len ≤ op.granted + 2048 * (3 : BitVec 64).toNat
      ∧ readAgain (withSend s 6 { op with granted := op.granted + 2048 * (3 : BitVec 64).toNat })
          { op with granted := op.granted + 2048 * (3 : BitVec 64).toNat } = (r, some (bits, rows), none) := by
  have far : ∃ d, d ≠ Config.ownDevice ∧ ((tReadFar d).2.2 = none ∧ (tReadFar d).2.1.isSome = true)
      ∧ ((readAgain (tOwn (tLongOp d)) (tLongOp d)).2.2 = none ∧ (readAgain (tOwn (tLongOp d)) (tLongOp d)).2.1.isSome = true) := by
    by_cases h : Config.ownDevice = 9
    · exact ⟨8, fun e => absurd (h.symm.trans e.symm) (by decide), by decide +kernel, by decide +kernel⟩
    · exact ⟨9, fun e => h e.symm, by decide +kernel, by decide +kernel⟩
  obtain ⟨dev, hd, hr, hl⟩ := far
  let p : Delivery := { tPulled with msg := { tBig 20000 with src := dev } }
  let c : Coll := { tOpen with group := [0, 1], own := some [1, 2, 3, 4] }
  let r := tReadFar dev
  refine ⟨⟨tDels p, p, rfl, rfl, rfl, rfl, (by decide +kernel : layBits tPosted.rec_ = 32),
      (by decide : 0 < 12 + ([tPieceAt 0x2000004].map (fun p => p.lane)).sum)⟩, ⟨tDels tPulled, grantsOnly _ _ _ _ (by decide +kernel), rfl, rfl⟩,
    ⟨tFab (fun f => { f with
        comms := [(3, { ctx := 1, members := [9, 8], contract := 4, tempo := true, timeout := 5, seq := 0 })], colls := [(6, c)] }),
      grantsOnly _ _ _ _ (by decide +kernel), rfl, rfl, rfl, rfl⟩,
    ⟨tFab id, fun src h => by simp [grantDue, show announced (tFab id) = [] from rfl] at h⟩,
    ⟨tOwn (tFarOp dev), tFarOp dev, rfl, hd, rfl, rfl, rfl, (by decide : 6000 ≤ 65536), (by decide : 0 + 2048 * (2 : BitVec 64).toNat < 6000)⟩,
    ⟨tOwn (tLongOp dev), tLongOp dev, _, _, _, _, rfl, hd, rfl, rfl, rfl, rfl, (by decide : 65536 < 70000), readIs (readAgain (tOwn (tLongOp dev)) (tLongOp dev)) hl⟩,
    tOwn (tFarOp dev), tFarOp dev, (r.2.1.getD (0, [])).1, (r.2.1.getD (0, [])).2, r.1, rfl, hd, rfl, rfl, rfl, rfl, (by decide : 256 < 6000), (by decide : 6000 ≤ 65536),
      (by decide : 6000 ≤ 0 + 2048 * (3 : BitVec 64).toNat), readIs r hr⟩

/-- A signature, and a collective of ranks 0, this device's, and 1, changed (R321, R322). -/
def tSig : Signature := { count := 4, fmt := 8, opr := 0, contract := 4, hash := 0 }
def tC (f : Coll → Coll) : Coll := f { tOpen with group := [0, 1], sigs := [(0, tSig)] }
def tColls (c : Coll) : State :=
  let s := tWords (tUser []) 0x4000 (tLay 0 0x5000)
  { s with fab := { s.fab with
    comms := [(3, { ctx := 1, members := [9, 8], contract := 4, tempo := true, timeout := 5, seq := 0 })], colls := [(6, c)] } }
theorem test_witness_CollectivesRun_signatures :
    (∃ s : State, ∃ c, Map.find s.fab.colls 6 = some c ∧ 1 ∈ c.group ∧ Map.find c.sigs 1 = none ∧ ∃ r ∈ c.group, r ≠ 1 ∧ Map.find c.sigs r = none)
    ∧ (∃ s : State, ∃ c, Map.find s.fab.colls 6 = some c ∧ c.own = none ∧ 1 ∈ c.group ∧ Map.find c.sigs 1 = none
      ∧ (∀ r ∈ c.group, r ≠ 1 → (Map.find c.sigs r).isSome = true) ∧ ∃ r ∈ c.group, r ≠ 1 ∧ Map.find c.sigs r ≠ some { tSig with hash := 1 })
    ∧ (∃ s : State, ∃ c, Map.find s.fab.colls 6 = some c ∧ c.own = none ∧ 1 ∈ c.group ∧ Map.find c.sigs 1 = none
      ∧ (∀ r ∈ c.group, r ≠ 1 → Map.find c.sigs r = some tSig)
      ∧ (collTile { s with fab := { s.fab with colls := Map.put s.fab.colls 6 { c with sigs := Map.put c.sigs 1 tSig } } } { c with sigs := Map.put c.sigs 1 tSig }).2.any
        (fun x => !x.2) = true)
    ∧ ∃ s : State, ∃ c, Map.find s.fab.colls 6 = some c ∧ c.own = none ∧ 1 ∈ c.group ∧ Map.find c.sigs 1 = none
      ∧ (∀ r ∈ c.group, r ≠ 1 → Map.find c.sigs r = some tSig)
      ∧ (collTile { s with fab := { s.fab with colls := Map.put s.fab.colls 6 { c with sigs := Map.put c.sigs 1 tSig } } } { c with sigs := Map.put c.sigs 1 tSig }).2.any
        (fun x => x.2) = true :=
  ⟨⟨tColls (tC (fun c => { c with group := [0, 1, 2] })), tC (fun c => { c with group := [0, 1, 2] }), by decide +kernel⟩,
    ⟨tColls (tC id), tC id, by decide +kernel⟩, ⟨tColls (tC id), tC id, by decide +kernel⟩,
    { tColls (tC id) with poison := [5368709130] }, tC id, by decide +kernel⟩
theorem test_witness_CollectivesRun_results :
    (∃ s : State, ∃ c, let tile : List DWord := [1, 2, 3, 4]
      let all := (c.rank, tile) :: [(1, tile)].filter (fun t => t.1 != c.rank)
      Map.find s.fab.colls 6 = some c ∧ c.own = some tile ∧ c.written = none ∧ (∀ r ∈ c.group, ∃ x ∈ all, x.1 = r ∧ x.2.length = tile.length)
        ∧ (∀ r ∈ c.group, r ≠ c.rank → tileBytes c ≤ Map.getD c.granted r 0) ∧ s.fab.quiesced = none
        ∧ ∃ r ps, collPieces s c (collParts c (((Map.find s.fab.comms c.comm).map (fun m => m.contract)) == some 1) all) = (r, .ok ps)
          ∧ (landPieces c.wg ps 0 [] r).2.fault = none ∧ (landPieces c.wg ps 0 [] r).2.rest = [])
    ∧ (∃ s : State, ∃ c, Map.find s.fab.colls 6 = some c ∧ c.own.isSome = true ∧ 1 ∈ c.group ∧ 1 ≠ c.rank ∧ 1 ∉ c.acks)
    ∧ (∃ s : State, ∃ c, Map.find s.fab.colls 6 = some c ∧ c.own = none)
    ∧ (∃ s : State, ∃ c, Map.find s.fab.colls 6 = some c ∧ ∃ r ∈ c.group, r ≠ c.rank ∧ Map.getD c.granted r 0 < tileBytes c)
    ∧ (∃ s : State, ∃ c, Map.find s.fab.colls 6 = some c ∧ c.own = some [1, 2, 3, 4] ∧ 1 ∈ c.group ∧ 1 ≠ c.rank
      ∧ keepsBack s (isPayloadOf 6) = false ∧ s.fab.quiesced = none)
    ∧ (∃ s : State, ∃ c, Map.find s.fab.colls 6 = some c ∧ 1 ∈ c.group ∧ 1 ≠ c.rank ∧ ∃ r ∈ c.group, r ≠ 1 ∧ r ∉ c.acks)
    ∧ (∃ s : State, ∃ c, Map.find s.fab.colls 6 = some c ∧ 1 ∈ c.group ∧ c.written = some 16 ∧ (∀ r ∈ c.group, r ≠ 1 → r ∈ c.acks) ∧ c.pubs = []
      ∧ pubsDone (publishAll s c.entries).1 (publishAll s c.entries).2 = false)
    ∧ ∃ s : State, ∃ c, Map.find s.fab.colls 6 = some c ∧ 1 ∈ c.group ∧ c.written = some 16 ∧ (∀ r ∈ c.group, r ≠ 1 → r ∈ c.acks) ∧ c.entries = []
      ∧ pubsDone s c.pubs = true ∧ c.kindBar = false ∧ c.wg < s.wgs.length ∧ (wgAt s c.wg).status = 0 ∧ statusHere s c.wg (collStat c.shape) :=
  ⟨⟨tColls (tC (fun c => { c with own := some [1, 2, 3, 4], granted := [(1, 2048)] })), tC (fun c => { c with own := some [1, 2, 3, 4], granted := [(1, 2048)] }),
      by decide +kernel, by decide +kernel, by decide +kernel, by decide +kernel, by decide +kernel, by decide +kernel, passes [] _ _ (by decide +kernel) (by decide +kernel)⟩,
    ⟨tColls (tC (fun c => { c with own := some [] })), tC (fun c => { c with own := some [] }), by decide +kernel⟩, ⟨tColls (tC id), tC id, by decide +kernel⟩,
    ⟨tColls (tC id), tC id, by decide +kernel⟩,
    ⟨tColls (tC (fun c => { c with own := some [1, 2, 3, 4] })), tC (fun c => { c with own := some [1, 2, 3, 4] }), by decide +kernel⟩,
    ⟨tColls (tC id), tC id, by decide +kernel⟩,
    ⟨tColls (tC (fun c => { c with written := some 16, acks := [0], entries := [4096] })),
      tC (fun c => { c with written := some 16, acks := [0], entries := [4096] }), by decide +kernel⟩,
    tColls (tC (fun c => { c with written := some 16, acks := [0, 1], pubs := [7] })), tC (fun c => { c with written := some 16, acks := [0, 1], pubs := [7] }),
      by decide +kernel, by decide +kernel, by decide +kernel, by decide +kernel, by decide +kernel, by decide +kernel, by decide +kernel, by decide +kernel,
      by decide +kernel, here_of _ _ _ (by decide +kernel)⟩
/-- A remap is in progress. -/
def tQuiet (c : Coll) : State := { tColls c with fab := { (tColls c).fab with quiesced := some 3 } }
theorem test_witness_CollectivesRun_ends :
    (∃ s : State, ∃ c, Map.find s.fab.colls 6 = some c ∧ s.fab.quiesced = none)
    ∧ (∃ s : State, ∃ c, Map.find s.fab.colls 6 = some c ∧ s.fab.quiesced = none ∧ 1 ∈ c.group ∧ 1 ≠ c.rank ∧ 1 ∉ c.acks)
    ∧ (∃ s : State, ∃ c, Map.find s.fab.colls 6 = some c ∧ s.fab.quiesced.isSome = true)
    ∧ (∃ s : State, ∃ c, Map.find s.fab.colls 6 = some c ∧ 2 ∉ c.group)
    ∧ (∃ s : State, ∃ c, Map.find s.fab.colls 6 = some c ∧ 1 ∈ c.acks)
    ∧ (∃ s : State, ∃ c m, Map.find s.fab.colls 6 = some c ∧ Map.find s.fab.comms c.comm = some m ∧ m.timeout ≠ 0 ∧ s.fab.quiesced = none
      ∧ ∃ r ∈ c.group, r ∉ c.acks)
    ∧ (∃ s : State, ∃ c, Map.find s.fab.colls 6 = some c ∧ ∀ m, Map.find s.fab.comms c.comm = some m → m.timeout = 0)
    ∧ ∃ s : State, ∃ c, Map.find s.fab.colls 6 = some c ∧ ∀ r ∈ c.group, r ∈ c.acks :=
  ⟨⟨tColls (tC id), tC id, by decide +kernel⟩, ⟨tColls (tC id), tC id, by decide +kernel⟩, ⟨tQuiet (tC id), tC id, by decide +kernel⟩,
    ⟨tColls (tC id), tC id, by decide +kernel⟩,
    ⟨tColls (tC (fun c => { c with acks := [0, 1] })), tC (fun c => { c with acks := [0, 1] }), by decide +kernel⟩,
    ⟨tColls (tC id), tC id, { ctx := 1, members := [9, 8], contract := 4, tempo := true, timeout := 5, seq := 0 }, by decide +kernel⟩,
    ⟨tColls (tC (fun c => { c with comm := 4 })), tC (fun c => { c with comm := 4 }), rfl, fun m h => by simp [tColls, tC, Map.find] at h⟩,
    tColls (tC (fun c => { c with acks := [0, 1] })), tC (fun c => { c with acks := [0, 1] }), by decide +kernel⟩
/-- Two members, this device and another that supports contracts 1 to 3: 3 is the highest that both do (R150, R316). -/
theorem test_witness_CollectivesRun_setup :
    (∃ e : CommEntry, Config.ownDevice ∉ e.members) ∧ (∃ e : CommEntry, e.members.length ≠ e.adverts.length)
    ∧ ∃ e : CommEntry, Config.ownDevice ∈ e.members ∧ e.members.length = e.adverts.length ∧ e.members.length ≤ 1024 ∧ e.members.Nodup ∧ 3 < 16
      ∧ (∀ i, i < e.members.length → memberSupports e i 3) ∧ ∀ j, 3 < j → j < 16 → ∃ i, i < e.members.length ∧ ¬memberSupports e i j := by
  let e : List Nat → CommEntry := fun l => { id := 3, ctx := 1, members := l, adverts := [0, 0x000E], tempo := false, timeout := 0 }
  have go : ∀ d, d ≠ Config.ownDevice → ∃ e : CommEntry, Config.ownDevice ∈ e.members ∧ e.members.length = e.adverts.length ∧ e.members.length ≤ 1024
      ∧ e.members.Nodup ∧ 3 < 16
      ∧ (∀ i, i < e.members.length → memberSupports e i 3) ∧ ∀ j, 3 < j → j < 16 → ∃ i, i < e.members.length ∧ ¬memberSupports e i j := by
    intro d hd
    have sup : ∀ j, memberSupports (e [Config.ownDevice, d]) 1 j ↔ (0x000E : BitVec 16).getLsbD j = true := by
      intro j
      show (if d = Config.ownDevice then _ else _) ↔ _
      rw [if_neg hd]
      rfl
    refine ⟨e [Config.ownDevice, d], by simp [e], rfl, by simp [e], by simp [e, hd.symm], by decide, fun i hi => ?_, fun j h1 h2 => ⟨1, by simp [e], fun h => ?_⟩⟩
    · match i, hi with
      | 0, _ => simp [memberSupports, e]; decide
      | 1, _ => exact (sup 3).mpr (by decide)
    · have := (sup j).mp h
      revert this
      have : ∀ j : Fin 16, 3 < j.val → (0x000E : BitVec 16).getLsbD j.val = false := by decide
      simpa using this ⟨j, h2⟩ h1
  refine ⟨⟨e [], by simp [e]⟩, ⟨e [0], by simp [e]⟩, ?_⟩
  by_cases h : Config.ownDevice = 9
  · exact go 8 (fun x => absurd (h.symm.trans x.symm) (by decide))
  · exact go 9 (fun x => h x.symm)

/-! A step, encodings, memory, the package limit. -/

/-- A device that will next execute a word (log entry 5). -/
def tNext (w : Nat) : State := State.reset.withFetchWord 32 w
/-- The entry that stands on the placed word. -/
def tHere (w : Nat) : Entry := (sqAt (tNext w) 0 0).frontier.headD (freshEntry 0 tPlace 0 0 0)
/-- What a fetch gave, with its state. -/
theorem fetched {σ ε α : Type} (x : σ × Except ε α) (a : α) (h : x.2.toOption = some a) : x = (x.1, .ok a) := by
  match x, h with
  | (_, .ok _), h => simp [Except.toOption] at h; simp [h]

theorem test_witness_StepRunsInstruction_one_word : ∃ s w q rest e t x i, (passTime s).agenda = .issue w q :: rest ∧ comesToIssue (turnState s rest) w q e
    ∧ fetchWord (turnState s rest) w e.place.pc = (t, .ok x) ∧ isLong (clauseClass e.place.hdr) (versionOf t w) x = false
    ∧ decodeWord (clauseClass e.place.hdr) (versionOf t w) x none = .ok i :=
  ⟨tNext 0x6E08000F, 0, 0, [], tHere 0x6E08000F, _, 0x6E08000F, .idr 1 1, by decide +kernel, by decide +kernel, fetched _ _ (by decide +kernel), by decide +kernel,
    by decide +kernel⟩
/-- `ceLook` on the placed word. -/
theorem test_witness_StepRunsInstruction_engine : ∃ s core k rest t i, (passTime s).agenda = .engine core k :: rest
    ∧ nextCe (turnState s rest) core = some k ∧ ceLook (turnState s rest) core k = (t, .ok i) :=
  ⟨tNext 0xAC200003, 0, 0, [], _, .ceRingWait 1 3, by decide +kernel, by decide +kernel, fetched _ _ (by decide +kernel)⟩
theorem test_witness_StepRunsInstruction_event : ∃ s i x rest, (passTime s).agenda = .event i x :: rest ∧ i.cls = none :=
  ⟨{ State.reset with agenda := [.event .powerDecision .unit] }, .powerDecision, .unit, [], by decide⟩
/-- Memory that holds bytes stays canonical in a step that ends. -/
theorem test_witness_MemoryStaysCanonical : ∃ s t, Memory.wf s.mem ∧ s.mem ≠ [] ∧ step s = .next t :=
  ⟨{ tNext 0x6E08000F with agenda := [.issue 9 0] }, _, by decide +kernel, by decide +kernel, rfl⟩
theorem test_witness_EncodeDecode : ∃ (i : Instr) (c : Cls), i.cls = some c ∧ i.inVersion 7 = true ∧ i.wf = true ∧ isLong c 7 ((encode 7 i).headD 0) = true :=
  ⟨.sel 1 2 0 3 0 4, .vec, by decide⟩
theorem test_witness_DecodeEncode : ∃ c w x i, decodeWord c 7 w x = .ok i ∧ isLong c 7 w = true := ⟨.mem, 0x20388007, some 0x00002002, .ldAcq 7 4 0 4 0 2, by decide⟩
theorem test_witness_PackageLimit : (∃ v : DWord, 800 ≤ bitsOf v.toNat 11 0 ∧ bitsOf v.toNat 11 0 ≤ 2800 ∧ bitsOf v.toNat 11 0 = 2800)
    ∧ ∃ v : DWord, 2800 < bitsOf v.toNat 11 0 := ⟨⟨2800, by decide⟩, 2801, by decide⟩
theorem test_witness_StepRunsInstruction_two_words : ∃ s w q rest e t t' x y i, (passTime s).agenda = .issue w q :: rest
    ∧ comesToIssue (turnState s rest) w q e ∧ fetchWord (turnState s rest) w e.place.pc = (t, .ok x) ∧ isLong (clauseClass e.place.hdr) (versionOf t w) x = true
    ∧ e.place.wordIndex < clauseWords e.place.hdr ∧ fetchWord t w (e.place.pc + 4) = (t', .ok y)
    ∧ decodeWord (clauseClass e.place.hdr) (versionOf t' w) x (some y) = .ok i :=
  ⟨tNext 0x5C084067, 0, 0, [], tHere 0x5C084067, _, _, 0x5C084067, 0, .sel 1 2 0 3 0 0, by decide +kernel, by decide +kernel,
    fetched _ _ (by decide +kernel), by decide +kernel, by decide +kernel, fetched _ _ (by decide +kernel), by decide +kernel⟩

/-! Every constructor's decoding, by words written out from the encodings of spec/opcode_table.json and, for the long instructions, of their rules
(R127, R132, R158 to R167, R199 to R205, R263, R268, R321). -/

/-- Each word, with its second word, decodes in the class and version to the instruction beside it. -/
def reads (c : Cls) (ver : Nat) (l : List (Word × Option Word × Instr)) : Bool := l.all (fun p => decide (decodeWord c ver p.1 p.2.1 = .ok p.2.2))
theorem test_words_control_1 : reads .ctl 7 [
    (0x00000000, none, .nop), (0x02CA2657, none, .bra 0x1944ca), (0x0400B807, none, .brx 5 3), (0x06BB3B9F, none, .call 0x176773),
    (0x08000007, none, .ret), (0x0A000007, none, .exit), (0x0C000007, none, .yld), (0x0E000387, none, .brk 0x70), (0x10000095, none, .trap 0x12),
    (0x20010007, none, .joinEnrol 2), (0x22008005, none, .joinWait 1), (0x24020007, none, .joinStrike 4), (0x26050007, none, .joinClr 0xa),
    (0x2822000D, none, .joinRd 4 4 1), (0x300280DF, none, .barInit 5 0x1b), (0x32048017, none, .barArrive 9 1),
    (0x33470018, none, .barArriveFinisher 5 0xe 1), (0x3405000F, none, .barWaitImm 0xa 1), (0x34010320, none, .barWaitReg 2 0x24),
    (0x36050007, none, .barSync 0xa), (0x3742000F, none, .barSyncFinisher 5 4), (0x3805811D, none, .barExpect 0xb 0x23),
    (0x3B930015, none, .barRd 0x32 6 2), (0x40030005, none, .tagWaitAll 6)] = true := by decide +kernel
theorem test_words_control_2 : reads .ctl 7 [
    (0x42020000, none, .tagWaitAny 4), (0x456E8007, none, .tagFfr 0x2d 0xd), (0x46010007, none, .tagClr 2), (0x49100008, none, .tagRd 0x22 1),
    (0x500280E8, none, .ringInit 5 0x1d), (0x53398000, none, .ringWaitFull 0x27 3), (0x550B8007, none, .ringWaitFree 0x21 7),
    (0x56030007, none, .ringCommit 6), (0x58020000, none, .ringFree 4), (0x5AD9000D, none, .ringRd 0x1b 2 1), (0x60028168, none, .convDecl 5 0x2d),
    (0x62018100, none, .convXdecl 3 0x20), (0x642B000D, none, .convRd 5 6 1), (0x7003E5B8, none, .tktWait 0x1f 0x2d 3),
    (0x72008007, none, .tktPass 4), (0x79530000, none, .xbarArrive 0x2a 6), (0x7A02800D, none, .xbarWaitImm 5 1),
    (0x7A0083E8, none, .xbarWaitReg 1 0x3d), (0x80B96005, none, .launch 0x17 0xb), (0x820409D7, none, .evtWait 0x20 1 0xe 2)] = true := by decide +kernel
theorem test_words_vector_1 : reads .vec 7 [
    (0x01821357, none, .iaddI32 0x30 0x10 2 0x1a 2), (0x025BB497, none, .iaddI64 0xb 0x1d 2 0x24 2), (0x05AB9A5F, none, .isubI32 0x35 0x1c 3 0x12 3),
    (0x06BD97CD, none, .isubI64 0x17 0x2c 2 0x3e 1), (0x083189FF, none, .imulI32 6 0xc 1 0xf 3), (0x0A0C1997, none, .imulhI32 1 0x20 3 0xc 2),
    (0x0C095470, none, .imulhN32 1 0xa 2 0x23 2), (0x0FE93EF8, none, .imadI32 0x3d 9 3 0x37 3), (0x10F75E9F, none, .iaddc 0x1e 0x3a 3 0x34 3),
    (0x12D350F5, none, .iminI32 0x1a 0x1a 2 7 2), (0x1421A9D5, none, .iminN32 4 0xd 1 0xe 2), (0x1642D88F, none, .imaxI32 8 0x16 3 4 1),
    (0x192958F7, none, .imaxN32 0x25 0xa 3 7 2), (0x1A2F0807, none, .iabsI32 5 0x38 1), (0x1C5537D5, none, .imulwN32 0xa 0x29 2 0x3e 2),
    (0x20F90EF0, none, .land 0x1f 8 1 0x37 2), (0x22FBF0CD, none, .lor 0x1f 0x1f 2 6 1), (0x2582DA37, none, .lxor 0x30 0x16 3 0x11 2),
    (0x27104FBF, none, .andn 0x22 2 1 0x3d 3), (0x2855BF68, none, .shl 0xa 0x2d 3 0x3b 1), (0x2BFD4DB0, none, .shr 0x3f 0x2a 1 0x2d 2),
    (0x2DD97648, none, .sar 0x3b 0xb 2 0x32 1), (0x2F49FE88, none, .rotl 0x29 0xf 3 0x34 1), (0x31AB5807, none, .popc 0x35 0x1a 3)] = true := by decide +kernel
theorem test_words_vector_2 : reads .vec 7 [
    (0x326C5007, none, .clz 0xd 0x22 2), (0x35784800, none, .brev 0x2f 2 1), (0x40FA2D90, none, .iaddi 0x1f 0x11 1 0xb2),
    (0x42EE9FE8, none, .andi 0x1d 0x34 3 0xfd), (0x45F7F0A8, none, .ori 0x3e 0x3f 2 0x15), (0x4639F19F, none, .xori 7 0xf 2 0x33),
    (0x4873F8E8, none, .shli 0xe 0x1f 3 0x1d), (0x4AFF7867, none, .shri 0x1f 0x3b 3 0xc), (0x4DB568F7, none, .sari 0x36 0x2b 1 0x1e),
    (0x4F9805BD, none, .movi 0x33 0xb7), (0x51139ACF, none, .icmpI32 4 2 0x1c 3 0x16 1), (0x53260DED, none, .icmpN32 4 4 0x30 1 0x2f 1),
    (0x54895F57, none, .icmpI64 2 1 0xa 3 0x3a 2), (0x577CF577, none, .fcmpF32 5 7 0x27 2 0x2b 2), (0x5969283F, none, .fcmpF64 5 5 9 1 1 3),
    (0x5B720407, none, .plog 5 6 2 4), (0x5E06A807, none, .pmovVp 0x35 1), (0x5E880027, none, .pmovPv 0x11), (0x609C2807, none, .mov 0x13 0x21 1),
    (0x64F47000, none, .qset 0x1e 0x23 2), (0x6623A007, none, .qget 4 0x1d), (0x681BD800, none, .permSet 3 0x1e 3),
    (0x6BAF673D, none, .shfl 0x35 0x3b 0x39 3), (0x6C850007, none, .voteAny 2 5)] = true := by decide +kernel
theorem test_words_vector_3 : reads .vec 7 [
    (0x6D890007, none, .voteAll 6 1), (0x6C120147, none, .voteBallot 2 0xa), (0x6F40004D, none, .idr 0x28 9),
    (0x8120959F, none, .faddF32 0x24 4 2 0x2c 3), (0x839E4F3D, none, .faddF64 0x33 0x32 1 0x39 3), (0x8481B06F, none, .faddH2 0x10 0xd 2 3 1),
    (0x87204BB5, none, .faddB2 0x24 2 1 0x1d 2), (0x896A543F, none, .fsubF32 0x2d 0x12 2 0x21 3), (0x8B0FADBD, none, .fsubF64 0x21 0x3d 1 0x2d 3),
    (0x8DE48ED0, none, .fmulF32 0x3c 0x24 1 0x36 2), (0x8ED913B7, none, .fmulF64 0x1b 8 2 0x1d 2), (0x915A10AF, none, .fmulH2 0x2b 0x10 2 5 1),
    (0x93990FB8, none, .fmulB2 0x33 8 1 0x3d 3), (0x94522FD0, none, .ffmaF32 0xa 0x11 1 0x3e 2), (0x9787AB57, none, .ffmaF64 0x30 0x3d 1 0x1a 2),
    (0x995EC97F, none, .ffmaH2 0x2b 0x36 1 0xb 3), (0x9B0B536D, none, .ffmaB2 0x21 0x1a 2 0x1b 1), (0xA0A8DB08, none, .fminF32 0x15 6 3 0x18 1),
    (0xA323D5C8, none, .fminF64 0x24 0x1e 2 0x2e 1), (0xA4B45A7D, none, .fmaxF32 0x16 0x22 3 0x13 3), (0xA6476FEF, none, .fmaxF64 8 0x3b 1 0x3f 1),
    (0xB08A4807, none, .frcp 0x11 0x12 1), (0xB2962807, none, .frsq 0x12 0x31 1), (0xB5BF7805, none, .fsqrt 0x37 0x3b 3)] = true := by decide +kernel
theorem test_words_vector_4 : reads .vec 7 [
    (0xB6D15800, none, .fexp2 0x1a 0xa 3), (0xB96AA805, none, .flog2 0x2d 0x15 1), (0xBA269800, none, .fsin 4 0x34 3),
    (0xBCE74807, none, .fcos 0x1c 0x3a 1), (0xD1E84000, none, .amax 0x3d 2), (0xD1A22027, none, .amaxQuad 0x34 0x11),
    (0xD33EE237, none, .scaleFit 0x27 0x37 2 1 2), (0xD401000F, none, .normAcc 2 1), (0xD7418000, none, .normChk 5 3), (0xD9400000, none, .hcnt 0x28),
    (0xDA400007, none, .hchk 1), (0xE00FE807, none, .ixSet 1 0x3f 1), (0xE22021A0, none, .ixLd 4 1 0x34), (0xE5484440, none, .ixSt 0x29 2 0x88),
    (0xE6984007, none, .ixRd 0x13 2), (0x36084007, some 0x00000888, .bfx 1 2 0 8 4 1), (0x381D1007, some 0x000000E5, .bfi 3 40 2 5 7),
    (0x5D084A3F, some 0x000000C0, .sel 33 2 1 17 3 6), (0x62A80007, some 0xDEADBEEF, .movl 21 0xDEADBEEF),
    (0x9C202047, some 0x0C000100, .ffmalF32 4 1 0 2 0 3 0 1), (0x9F1048D7, some 0xFB000200, .ffmalF64 34 2 1 6 2 62 3 2),
    (0xA8485D8F, some 0x00010002, .fsgn 9 2 3 44 1 4 2), (0xC0288007, some 0x00288001, .cvt 5 4 0 5 2 0 1),
    (0xC2488007, some 0x18288001, .pack 9 4 0 0 0 6 5 0 1)] = true := by decide +kernel
theorem test_words_vector_5 : reads .vec 7 [
    (0xC4612007, some 0x18114000, .unpack 12 9 0 6 5 0 0)] = true := by decide +kernel
theorem test_words_memory_1 : reads .mem 7 [
    (0x0092F9BF, none, .ldB8 0x12 0x17 0x337), (0x02886087, none, .ldI8 0x11 3 0x10), (0x057C31AF, none, .ldB16 0x2f 0x21 0x235),
    (0x070BE7E7, none, .ldI16 0x21 0x1f 0xfc), (0x083D7A3D, none, .ldB32 7 0x2b 0x347), (0x0B5C1185, none, .ldB64 0x2b 0x20 0x230),
    (0x0DFC29E5, none, .ldB128 0x3f 0x21 0x13c), (0x11F9EAFF, none, .stB8 0x3f 0xf 0x15f), (0x13B736A7, none, .stB16 0x36 0x39 0x2d4),
    (0x14D2FF77, none, .stB32 0x1a 0x17 0x3ee), (0x17B1207F, none, .stB64 0x36 9 0xf), (0x194E1C2F, none, .stB128 0x29 0x30 0x385),
    (0x40E16430, none, .lbw 0x1c 0xb 2 6), (0x43C423FD, none, .lba 0x38 0x21 1 0x3f), (0x453A0298, none, .lbc 0x27 0x10 1 0x13),
    (0x46F18097, none, .lbs 0x1e 0xc 0 0x12), (0x480A25F5, none, .sba 1 0x11 2 0x3e), (0x4BFC8280, none, .sbc 0x3f 0x24 1 0x10),
    (0x4DF72077, none, .sbs 0x3e 0x39 0 0xe), (0x50000010, none, .fence 2), (0x6002C00F, none, .pref 0x16 1), (0x62000007, none, .l1Inv),
    (0x20388007, some 0x00002002, .ldAcq 7 4 0 4 0 2), (0x2298C7EF, some 0x00002804, .stRel 19 6 0xFD 5 4)] = true := by decide +kernel
theorem test_words_memory_2 : reads .mem 7 [
    (0x304880C7, some 0x00022008, .atom 9 4 6 0 8 4 1 0), (0x325080CF, some 0x22045800, .atomCas 10 4 6 1 8 2 17 3),
    (0x4E58C007, some 0x00000010, .lbx 11 6 0 2 0 0)] = true := by decide +kernel
theorem test_words_matrix : reads .mat 7 [
    (0x0002804D, none, .mfmt 5 9), (0x0204CD1F, none, .mma 0 0 9 1 0xd 3), (0x04693B57, none, .mmz 1 1 0x12 0 0x3b 0xa),
    (0x06994F5F, none, .mmp 2 0 0x32 1 0xf 0xb), (0x08EA39DD, none, .mmaCl 3 1 0x14 0 0x39 0x1b), (0x0B16D1B5, none, .mmzCl 4 0 0x2d 1 0x11 0x16),
    (0x0C2B3767, none, .mmpCl 0 1 0x16 0 0x37 0xc), (0x111B1D97, none, .accLd 4 0x36 0x1d 0x12), (0x121482AF, none, .accSt 0x29 2 0x15),
    (0x1500090F, none, .accClr 4 9 1), (0x17C198F5, none, .accCp 7 3 0x18 0x1e), (0x20058007, none, .mfence 0xb), (0x22000007, none, .mwait),
    (0x308B4005, none, .mhealth 0x11 0x1a)] = true := by decide +kernel
theorem test_words_transfer : reads .xfr 7 [
    (0x21BA2207, none, .cpeRun 0x37 0x11 0x10), (0x2201E007, none, .cpeStop 0xf), (0x2506E045, none, .cpeRd 0x20 0x37 2),
    (0x30FF7807, none, .publish 0x1f 0x3b 3), (0x33907860, none, .bmtRd 0x32 3 3 3), (0x4000A007, none, .send 5),
    (0x42B22007, none, .recvPost 0x16 0x11), (0x4544A800, none, .recvCancel 0x28 0x25 1), (0x46F88007, none, .recvProbe 0x1f 4),
    (0x00408007, some 0x0C000000, .cpaB32 8 4 3 0 0), (0x0250C007, some 0x24000002, .cpaB64 10 6 9 1 0),
    (0x04408007, some 0x08000003, .cpaB128 8 4 2 1 1), (0x10518207, some 0x04000001, .tcp 10 12 16 1 0 1),
    (0x1201C007, some 0xA4000002, .tcpColl 14 41 1 0)] = true := by decide +kernel
theorem test_words_system : reads .sys 7 [
    (0x0090009D, none, .sysrd 0x12 0x13), (0x0205A02F, none, .syswr 0x2d 5), (0x04000005, none, .eret), (0x07700000, none, .ecnt 0x2e),
    (0x08F00000, none, .clkRd 0x1e), (0x0A03C005, none, .tlbInvPage 0x1e), (0x0A080007, none, .tlbInvCtx), (0x0A100007, none, .tlbInvAll),
    (0x0C07EF80, none, .bmtSet 0x3f 1 0x3c), (0x0E126005, none, .parkCtlResume 2 0x13), (0x0E2EA025, none, .parkCtlKill 5 0x35),
    (0x0E932045, none, .parkCtlStop 0x12 0x19), (0x10076007, none, .dbgSel 0x3b), (0x1000A00F, none, .dbgStep 5), (0x12000007, none, .halt),
    (0x15800037, none, .perfRd 0x30 6), (0x16000000, none, .cacheOpIinv), (0x16000008, none, .cacheOpDinv), (0x1604E017, none, .cacheOpL2wb 0x27),
    (0x16072018, none, .cacheOpL2key 0x39), (0x16000027, none, .cacheOpL2all), (0x18780000, none, .tokRd 0xf), (0x1BD72005, none, .faultRd 0x3a 0x39)] = true := by decide +kernel
theorem test_words_copy_engine_1 : reads .ce 7 [
    (0x00000000, none, .ceHalt), (0x060D0800, none, .ceAdd 0x10 0xd 1), (0x08C1F800, none, .ceSub 6 1 0x1f), (0x0E167800, none, .ceMul 0x10 0x16 0xf),
    (0x11AAC000, none, .ceMadd 0xd 0xa 0x18), (0x14AE6000, none, .ceAnd 5 0xe 0xc), (0x19AB2000, none, .ceOr 0xd 0xb 4),
    (0x1F6B0800, none, .ceXor 0x1b 0xb 1), (0x21795800, none, .ceShl 0xb 0x19 0xb), (0x276D2000, none, .ceShr 0x1b 0xd 4),
    (0x2BFE321D, none, .ceAddi 0x1f 0x1e 0x321d), (0x2EE1E6CE, none, .ceLui 0x17 1 0xe6ce), (0x330A40D3, none, .ceOri 0x18 0xa 0x40d3),
    (0x35836800, none, .ceMin 0xc 3 0xd), (0x39BC9800, none, .ceMax 0xd 0x1c 0x13), (0x406CECE9, none, .ceBeq 3 0xc 0xece9),
    (0x45D94671, none, .ceBne 0xe 0x19 0x4671), (0x4B8247D8, none, .ceBlt 0x1c 2 0x47d8), (0x4C82D5AE, none, .ceBge 4 2 0xd5ae),
    (0x52C0491F, none, .ceJmp 0x16 0x491f), (0x547E2620, none, .ceLoopSet 3 0x1e 0x2620), (0x5840F896, none, .ceLoopEnd 2 0xf896),
    (0x612E82CF, none, .ceLdi 9 0xe 0x82cf), (0x6567C5F0, none, .ceLdi64 0xb 7 0xc5f0)] = true := by decide +kernel
theorem test_words_copy_engine_2 : reads .ce 7 [
    (0x699AF4C8, none, .ceStw 0xc 0x1a 0xf4c8), (0x81DD0800, none, .ceTadr 0xe 0x1d 1), (0x8759A800, none, .ceTnext 0x1a 0x19 0x15),
    (0x89BEE801, none, .ceMv 0xd 0x1e 0x1d 1), (0x8F031001, none, .ceMvt 0x18 3 2 1), (0x91F4C801, none, .ceGat 0xf 0x14 0x19 1),
    (0x96BC5001, none, .ceScat 0x15 0x1c 0xa 1), (0xA05E0000, none, .ceArr 2 0x1e), (0xA400003C, none, .ceTagset 0x3c),
    (0xA8000005, none, .ceRingCommit 5), (0xACA00002, none, .ceRingWait 5 2), (0xB0100000, none, .cePublish 0x10), (0xB4000000, none, .ceWfb),
    (0xB8000000, none, .ceYieldctx)] = true := by decide +kernel
theorem test_words_version_5 : reads .vec 5 [(0x6B19470F, none, .shfl16 0x23 0xa 3 0x21)] = true := by decide +kernel

/-! Results that the spec gives, or that follow from its rules by hand; one instruction each. -/

/-- Register `d` of lane 0 after an instruction of one thread whose registers hold `v`, on a launch with contract 4. -/
def after (v : List (Nat × Nat)) (i : Instr) (d : Nat) : Option Word :=
  match exec i (tOne v id id) with
  | .next s => some (vget (sqAt s 0 0) 0 d 0)
  | _ => none
/-- Predicate `p`, and the flags of `FXS`, after it. -/
def afterP (v : List (Nat × Nat)) (i : Instr) (p : Nat) : Option (Bool × Word) :=
  match exec i (tOne v id id) with
  | .next s => some (inMask (pget (sqAt s 0 0) 0 p) 0, (sqAt s 0 0).fxs)
  | _ => none
/-- Register `d` of copy-engine context 2 after one of its instructions. -/
def afterCe (e : List (Nat × Nat)) (i : Instr) (d : Nat) : Option DWord :=
  match exec i (tCe e) with
  | .next s => some (eReg (ceAt s 0 2) (BitVec.ofNat 5 d))
  | _ => none

/-- R127's own example, and a field that reaches the top of the word. -/
theorem test_bfx : after [(2, 0xA00)] (.bfx 1 2 0 8 4 1) 1 = some 0xFFFFFFFA := by decide +kernel
/-- R126: the one negative number without a positive one. -/
theorem test_iabs : after [(2, 0x80000000)] (.iabsI32 1 2 0) 1 = some 0x80000000 := by decide +kernel
/-- R128: −1 is added, the sum wraps. -/
theorem test_iaddi : after [(2, 0)] (.iaddi 2 2 0 0xFF) 2 = some 0xFFFFFFFF := by decide +kernel
/-- R126: the high words of (−1) × (−1), signed and unsigned. -/
theorem test_imulh : after [(2, 0xFFFFFFFF)] (.imulhI32 1 2 0 2 0) 1 = some 0 ∧ after [(2, 0xFFFFFFFF)] (.imulhN32 1 2 0 2 0) 1 = some 0xFFFFFFFE := by
  decide +kernel
/-- R126: a carry crosses the pair. -/
theorem test_iadd_pair : after [(2, 0xFFFFFFFF), (4, 1)] (.iaddI64 6 2 0 4 0) 7 = some 1 := by decide +kernel
/-- R163's own example: 500.0 saturates to 448, or is the NaN code; 464.0 is a tie that rounds to 448, 470.0 rounds to 480 (R145). -/
theorem test_cvt : after [(4, 0x43FA0000)] (.cvt 5 4 0 5 2 0 1) 5 = some 0x7E ∧ after [(4, 0x43FA0000)] (.cvt 5 4 0 5 2 0 0) 5 = some 0x7F
    ∧ after [(4, 0x43E80000)] (.cvt 5 4 0 5 2 0 0) 5 = some 0x7E ∧ after [(4, 0x43EB0000)] (.cvt 5 4 0 5 2 0 0) 5 = some 0x7F := by decide +kernel
/-- R146: the overflow sets OFL and INX. -/
theorem test_cvt_flags : afterP [(4, 0x43FA0000)] (.cvt 5 4 0 5 2 0 1) 0 = some (false, 0x14) := by decide +kernel
/-- R170's own example: 1,000.0 ÷ 448 rounded up. -/
theorem test_scale_fit : after [(20, 0x447A0000)] (.scaleFit 21 20 3 0 0) 21 = some 0x400EDB6E ∧ afterP [(20, 0x447A0000)] (.scaleFit 21 20 3 0 0) 3 = some (false, 0x10) := by
  decide +kernel
/-- R156: 1.0 + 2.0, and ∞ − ∞, which is invalid. -/
theorem test_fadd : after [(1, 0x3F800000), (2, 0x40000000)] (.faddF32 3 1 0 2 0) 3 = some 0x40400000
    ∧ after [(1, 0x7F800000), (2, 0xFF800000)] (.faddF32 3 1 0 2 0) 3 = some 0x7FC00000
    ∧ afterP [(1, 0x7F800000), (2, 0xFF800000)] (.faddF32 3 1 0 2 0) 0 = some (false, 1) := by decide +kernel
/-- R158: 1 + 2^−24 toward +∞ and toward zero. -/
theorem test_ffmal : after [(1, 0x3F800000), (3, 0x33800000)] (.ffmalF32 4 1 0 1 0 3 0 2) 4 = some 0x3F800001
    ∧ after [(1, 0x3F800000), (3, 0x33800000)] (.ffmalF32 4 1 0 1 0 3 0 1) 4 = some 0x3F800000 := by decide +kernel
/-- R161: an ordered compare of a NaN is false and invalid. -/
theorem test_fcmp : afterP [(1, 0x7FC00000)] (.fcmpF32 2 2 1 0 1 0) 2 = some (false, 1) := by decide +kernel
/-- R288: shifts of 64 and more give 0; a signed minimum; four `lui` build a constant 16 bits at a time. -/
theorem test_copy_engine : afterCe [(3, 5), (4, 64)] (.ceShl 5 3 4) 5 = some 0 ∧ afterCe [(3, 2 ^ 64 - 1), (4, 1)] (.ceMin 5 3 4) 5 = some (BitVec.allOnes 64)
    ∧ afterCe [(3, 0x12)] (.ceLui 5 3 0x3456) 5 = some 0x123456 := by decide +kernel
/-- R30, R51: pack's first word, the last of its clause, is split in version 6 and of an opcode that version 5 lacks. -/
theorem test_pack_in_version_5 : decodeWord .vec 6 0xC4288007 none = .error .split ∧ decodeWord .vec 5 0xC4288007 none ≠ .error .split := by decide
/-- R371 names SHA-256 of FIPS 180-4, whose own example digests the three bytes "abc". -/
theorem test_sha256 : sha256 [0x61, 0x62, 0x63] = 0xba7816bf8f01cfea414140de5dae2223b00361a396177a9cb410ff61f20015ad := by decide +kernel

end Sys2Proof.Tests
end

section
/-! PROOF. The tests that a write makes, and event counters: what they change of the machine, and what reads back (R81, R101, R103, R379). -/

namespace Sys2Proof.Machine

/-! Maps and bytes. -/

/-- A key that stands in a map has a value. -/
theorem Map.find_isSome_of_mem {α : Type} (m : Map α) (p : Nat × α) (h : p ∈ m) : ∃ x, Map.find m p.1 = some x := by
  induction m with
  | nil => simp at h
  | cons q m ih =>
    obtain ⟨j, y⟩ := q
    by_cases hj : j = p.1
    · exact ⟨y, by simp [Map.find, hj]⟩
    · rcases List.mem_cons.1 h with rfl | h
      · exact absurd rfl hj
      · simpa [Map.find, hj] using ih h

/-- The map of the words of a list of keys that are not zero, read with zero for the rest. -/
theorem Map.getD_filterMap_nonzero (w : Nat → Word) (l : List Nat) (k : Nat) :
    Map.getD (l.filterMap (fun i => if w i = 0 then none else some (i, w i))) k 0 = if k ∈ l then w k else 0 := by
  have hfind : Map.find (l.filterMap (fun i => if w i = 0 then none else some (i, w i))) k
      = if k ∈ l ∧ w k ≠ 0 then some (w k) else none := by
    induction l with
    | nil => simp [Map.find]
    | cons i l ih =>
      by_cases hk : i = k
      · subst hk
        by_cases hw : w i = 0#32
        · simpa [List.filterMap_cons, hw] using ih
        · simp [hw, Map.find]
      · by_cases hw : w i = 0#32
        · simpa [List.filterMap_cons, hw, Ne.symm hk] using ih
        · simpa [List.filterMap_cons, hw, Map.find, hk, Ne.symm hk] using ih
  rw [Map.getD, hfind]
  by_cases hk : k ∈ l
  · by_cases hw : w k = 0#32 <;> simp [hk, hw]
  · simp [hk]

/-- What was written is read back. -/
theorem Memory.readAll_writeAll (m : Memory) (a : Nat) (bs : List Byte) :
    Memory.readAll (Memory.writeAll m a bs) a bs.length = bs := by
  refine List.ext_getElem (by simp [Memory.readAll]) (fun i hi _ => ?_)
  have hlt : i < bs.length := by simpa [Memory.readAll] using hi
  simp [Memory.readAll, Memory.read_writeAll, hlt]

/-- The four bytes of a word, as a word again (R1). -/
theorem ofNat_leNat_leBytes (v : Word) : (BitVec.ofNat 32 (leNat (leBytes 4 v.toNat)) : Word) = v := by
  rw [leNat_leBytes, Nat.mod_eq_of_lt (show v.toNat < 256 ^ 4 from v.isLt), BitVec.ofNat_toNat, BitVec.setWidth_eq]

/-! The tests that a write makes (R81, R101, R103) change, beside where threads stand, the L1 lines of cores alone. -/

/-- The machine apart from where threads stand and from its cores. -/
def stillApartCores (s : State) : State := { still s with cores := [] }

theorem stillApartCores_endAcquiring (s : State) (w q : Nat) (ends : Waiter → Bool) :
    stillApartCores (endAcquiring s w q ends) = stillApartCores s := by
  unfold stillApartCores endAcquiring
  rw [still_endWaits]
  split <;> rfl

theorem stillApartCores_testTickets (s : State) : stillApartCores (testTickets s) = stillApartCores s :=
  foldl_keeps _ _ (fun _ _ => foldl_keeps _ _ (fun _ _ => stillApartCores_endAcquiring _ _ _ _) _ _) _ s

theorem stillApartCores_testEvents (s : State) (ctx : Nat) : stillApartCores (testEvents s ctx) = stillApartCores s := by
  refine foldl_keeps _ _ (fun t w => ?_) _ s
  split
  · exact foldl_keeps _ _ (fun _ _ => stillApartCores_endAcquiring _ _ _ _) _ t
  · rfl

theorem mem_of_stillApartCores {s t : State} (e : stillApartCores s = stillApartCores t) : s.mem = t.mem := by
  have h := congrArg State.mem e
  exact h
theorem out_of_stillApartCores {s t : State} (e : stillApartCores s = stillApartCores t) : s.out = t.out := by
  have h := congrArg State.out e
  exact h
theorem ctxs_of_stillApartCores {s t : State} (e : stillApartCores s = stillApartCores t) : s.ctxs = t.ctxs := by
  have h := congrArg State.ctxs e
  exact h

@[simp] theorem testTickets_mem (s : State) : (testTickets s).mem = s.mem :=
  mem_of_stillApartCores (stillApartCores_testTickets s)
@[simp] theorem testTickets_out (s : State) : (testTickets s).out = s.out :=
  out_of_stillApartCores (stillApartCores_testTickets s)
@[simp] theorem testTickets_ctxs (s : State) : (testTickets s).ctxs = s.ctxs :=
  ctxs_of_stillApartCores (stillApartCores_testTickets s)
@[simp] theorem recordedKey_testTickets (s : State) (line : Nat) : recordedKey (testTickets s) line = recordedKey s line := by
  have h := congrArg (recordedKey · line) (stillApartCores_testTickets s)
  exact h
@[simp] theorem testEvents_mem (s : State) (ctx : Nat) : (testEvents s ctx).mem = s.mem :=
  mem_of_stillApartCores (stillApartCores_testEvents s ctx)
@[simp] theorem testEvents_ctxs (s : State) (ctx : Nat) : (testEvents s ctx).ctxs = s.ctxs :=
  ctxs_of_stillApartCores (stillApartCores_testEvents s ctx)

/-! Event counters (R103, R379). -/

/-- Setting an event counter writes its four bytes. -/
theorem setEvent_mem (s : State) (ctx e b : Nat) (v : Word) (h : physLoc (eventAddr s ctx e) = some (.local b)) :
    (setEvent s ctx e v).mem = Memory.writeAll s.mem b (leBytes 4 v.toNat) := by
  simp [setEvent, physWrite, h]

@[simp] theorem setEvent_ctxs (s : State) (ctx e : Nat) (v : Word) : (setEvent s ctx e v).ctxs = s.ctxs := by
  simp only [setEvent, testEvents_ctxs, testTickets_ctxs, physWrite]
  split <;> rfl

theorem eventAddr_setEvent (s : State) (ctx e : Nat) (v : Word) : eventAddr (setEvent s ctx e v) ctx e = eventAddr s ctx e := by
  simp [eventAddr, ctxAt]

/-- An event counter reads as what it was set to. -/
theorem eventValue_setEvent (s : State) (ctx e b : Nat) (v : Word) (h : physLoc (eventAddr s ctx e) = some (.local b)) :
    eventValue (setEvent s ctx e v) ctx e = v := by
  have hread := Memory.readAll_writeAll s.mem b (leBytes 4 v.toNat)
  rw [leBytes_length] at hread
  simp [eventValue, physRead, eventAddr_setEvent, h, setEvent_mem s ctx e b v h, hread, ofNat_leNat_leBytes]

theorem evcmd_present (s : State) (ctx : BitVec 16) (e : BitVec 12) (v : Word) (f : Word → Word → Word) (ha : s.arg = .evcmd ctx e v)
    (h : (Map.find s.ctxs ctx.toNat).isSome = true) :
    evcmd s f = setEvent s ctx.toNat e.toNat (f (eventValue s ctx.toNat e.toNat) v) := by
  simp [evcmd, ha, Option.isSome_iff_ne_none.1 h]

theorem evcmd_absent (s : State) (ctx : BitVec 16) (e : BitVec 12) (v : Word) (f : Word → Word → Word) (ha : s.arg = .evcmd ctx e v)
    (h : Map.find s.ctxs ctx.toNat = none) : evcmd s f = setPerr s := by
  simp [evcmd, ha, h]

end Sys2Proof.Machine
end

section
/-! PROOF. The host's window: the bytes of one line under key 0, and the accesses that are blocked (R183, R193, R375). -/

namespace Sys2Proof.Machine

/-! A line of local memory (R183, R184). -/

/-- Where an address below 2^40 lies: the lines are spread over the stacks, the bytes of one stay together. -/
theorem physLoc_of_lt (pa : Nat) (h : pa < 2 ^ 40) : physLoc pa
    = if pa < 0x9000000000 then some (.local (xorGroups 4 (pa / 128) 9 * 2 ^ 36 + (pa / 2048 * 128 + pa % 128))) else none := by
  have h51 : bitsOf pa 51 51 = 0 := by unfold bitsOf; omega
  have h41 : bitsOf pa 50 41 = 0 := by unfold bitsOf; omega
  have h40 : bitsOf pa 40 40 = 0 := by unfold bitsOf; omega
  have h0 : bitsOf pa 40 0 = pa := by unfold bitsOf; omega
  simp only [physLoc, h51, h41, h0, localLoc, h40, Nat.zero_ne_one, if_false, if_true]
  split <;> rfl

/-- The bytes of one line lie together. -/
theorem physLoc_add_in_line (pa i a : Nat) (h : pa < 2 ^ 40) (hi : pa % 128 + i < 128) (ha : physLoc pa = some (.local a)) :
    physLoc (pa + i) = some (.local (a + i)) ∧ lineOf (a + i) = lineOf a := by
  have hline : (pa + i) / 128 = pa / 128 := by omega
  have hrow : (pa + i) / 2048 = pa / 2048 := by omega
  have hbyte : (pa + i) % 128 = pa % 128 + i := by omega
  rw [physLoc_of_lt pa h] at ha
  split at ha
  · rename_i hv
    rw [physLoc_of_lt (pa + i) (by omega), if_pos (by omega), hline, hrow, hbyte]
    simp only [Option.some.injEq, Loc.local.injEq] at ha
    subst ha
    refine ⟨by rw [Nat.add_assoc, Nat.add_assoc], ?_⟩
    unfold lineOf
    omega
  · simp at ha

/-! Lines under a key (R193). -/

/-- After an access under a key, a line is recorded under it. -/
@[simp] theorem recordedKey_keyLine (s : State) (line key : Nat) : recordedKey (keyLine s line key) line = some key := by
  unfold keyLine
  split
  · simp [recordedKey]
  · rename_i k hk
    split
    · rename_i e
      rw [hk, e]
    · simp [recordedKey]

/-- A line recorded under the key of the access stays as it is. -/
theorem keyLine_of_recordedKey (s : State) (line key : Nat) (h : recordedKey s line = some key) : keyLine s line key = s := by
  simp [keyLine, h]

/-- The next access to a line under the same key finds it ready. -/
@[simp] theorem keyLine_keyLine (s : State) (line key : Nat) : keyLine (keyLine s line key) line key = keyLine s line key :=
  keyLine_of_recordedKey _ _ _ (recordedKey_keyLine s line key)

@[simp] theorem keyLine_out (s : State) (line key : Nat) : (keyLine s line key).out = s.out := by
  rw [keyLine_checked s line key]

/-- Key 0 is no context's. -/
theorem confidentialOf_of_key_zero (s : State) (line : Nat) (h : recordedKey s line = some 0) : confidentialOf s line = none := by
  simp [confidentialOf, h]

theorem performWrite_keyLine (s : State) (a key : Nat) (bs : List Byte) :
    performWrite (keyLine s (lineOf a) key) a key bs = performWrite s a key bs := by
  simp [performWrite, homeWrite]

/-- A write to a line that is under the key of the access. -/
theorem performWrite_keyed (s : State) (a key : Nat) (bs : List Byte) (h : recordedKey s (lineOf a) = some key) :
    (performWrite s a key bs).mem = Memory.writeAll s.mem a bs ∧ (performWrite s a key bs).out = s.out
      ∧ recordedKey (performWrite s a key bs) (lineOf a) = some key := by
  refine ⟨?_, ?_, ?_⟩
  · simp [performWrite, homeWrite, keyLine_of_recordedKey s _ _ h]
  · simp [performWrite, homeWrite, keyLine_of_recordedKey s _ _ h]
  · rw [performWrite, recordedKey_testTickets, homeWrite, keyLine_of_recordedKey s _ _ h]
    exact h

/-! The host's window (R375). -/

/-- The bytes of a host access, in order: the fold of `execHostWindowAccess`. -/
def windowBytes (s : State) (pa : Nat) (wr : Bool) (bytes : List Byte) (k : Nat) (acc : List Byte) : State × List Byte :=
  (bytes.zipIdx k).foldl (fun (x : State × List Byte) b =>
    let y := windowByte x.1 (pa + b.2) b.1 wr
    (y.1, x.2 ++ [y.2])) (s, acc)

@[simp] theorem windowBytes_nil (s : State) (pa : Nat) (wr : Bool) (k : Nat) (acc : List Byte) : windowBytes s pa wr [] k acc = (s, acc) := rfl

theorem windowBytes_cons (s : State) (pa : Nat) (wr : Bool) (b : Byte) (bs : List Byte) (k : Nat) (acc : List Byte) :
    windowBytes s pa wr (b :: bs) k acc
      = windowBytes (windowByte s (pa + k) b wr).1 pa wr bs (k + 1) (acc ++ [(windowByte s (pa + k) b wr).2]) := rfl

/-- The offsets that `HOST_WINDOW_ACCESS` takes: in the window, and within one line. -/
def inWindow (s : State) (off : Nat) (bytes : List Byte) : Prop :=
  off < 2 ^ 36 ∧ bytes ≠ [] ∧ (s.plat.winbase.toNat + off) % 2 ^ 40 % 128 + bytes.length ≤ 128

/-- What an access does: it is counted if its line is a confidential context's, and goes byte by byte. -/
theorem exec_hostWindowAccess (s : State) (off : Nat) (bytes : List Byte) (wr : Bool) (a : Nat) (harg : s.arg = .window off bytes wr)
    (hin : inWindow s off bytes) (ha : physLoc ((s.plat.winbase.toNat + off) % 2 ^ 40) = some (.local a)) :
    exec .hostWindowAccess s = .next (
      let pa := (s.plat.winbase.toNat + off) % 2 ^ 40
      let r := windowBytes ((confidentialOf s (lineOf a)).elim s (fun c => logRead s c pa)) pa wr bytes 0 []
      if wr then r.1 else emit r.1 (.window r.2)) := by
  obtain ⟨hoff, hne, hlen⟩ := hin
  have hgo : ¬(2 ^ 36 ≤ off ∨ bytes.isEmpty = true ∨ 128 < (s.plat.winbase.toNat + off) % 2 ^ 40 % 128 + bytes.length) := by
    rintro (h | h | h)
    · omega
    · exact hne (List.isEmpty_iff.1 h)
    · omega
  simp only [exec, execHostWindowAccess, harg, if_neg hgo, ha]
  cases confidentialOf s (lineOf a) <;> rfl

theorem exec_hostWindowAccess_outside (s : State) (off : Nat) (bytes : List Byte) (wr : Bool) (harg : s.arg = .window off bytes wr)
    (h : 2 ^ 36 ≤ off ∨ bytes = [] ∨ 128 < (s.plat.winbase.toNat + off) % 2 ^ 40 % 128 + bytes.length) :
    exec .hostWindowAccess s = .next s := by
  simp only [exec, execHostWindowAccess, harg, List.isEmpty_iff, if_pos h]

/-- The first access to a line of no confidential context brings it under key 0. -/
theorem windowByte_keyLine {pa a : Nat} (ha : physLoc pa = some (.local a)) (s : State) (b : Byte) (wr : Bool) (hc : confidentialOf s (lineOf a) = none) :
    windowByte s pa b wr = windowByte (keyLine s (lineOf a) 0) pa b wr := by
  have hk := confidentialOf_of_key_zero _ _ (recordedKey_keyLine s (lineOf a) 0)
  simp only [windowByte, ha, hc, hk, Option.isSome_none, Bool.false_eq_true, if_false, performWrite_keyLine, keyLine_keyLine]

theorem windowBytes_keyLine {pa a : Nat} (ha : physLoc pa = some (.local a)) (s : State) (bytes : List Byte) (wr : Bool) (acc : List Byte) (hne : bytes ≠ [])
    (hc : confidentialOf s (lineOf a) = none) :
    windowBytes s pa wr bytes 0 acc = windowBytes (keyLine s (lineOf a) 0) pa wr bytes 0 acc := by
  obtain ⟨b, bs, rfl⟩ := List.exists_cons_of_ne_nil hne
  rw [windowBytes_cons, windowBytes_cons, Nat.add_zero, windowByte_keyLine ha s b wr hc]

section Line

/-! One line of the window: the address `pa` lies at location `a`. -/

variable {pa a : Nat} (hpa : pa < 2 ^ 40) (ha : physLoc pa = some (.local a))
include hpa ha

/-- A read of bytes of a line under key 0. -/
theorem windowBytes_read (s : State) (hk : recordedKey s (lineOf a) = some 0) (bytes : List Byte) :
    ∀ k acc, pa % 128 + k + bytes.length ≤ 128 →
      windowBytes s pa false bytes k acc = (s, acc ++ Memory.readAll s.mem (a + k) bytes.length) := by
  induction bytes with
  | nil => intro k acc _; simp [Memory.readAll]
  | cons b bs ih =>
    intro k acc hlen
    rw [List.length_cons] at hlen
    obtain ⟨hloc, hline⟩ := physLoc_add_in_line pa k a hpa (by omega) ha
    have hbyte : windowByte s (pa + k) b false = (s, Memory.read s.mem (a + k)) := by
      simp [windowByte, hloc, hline, confidentialOf_of_key_zero s _ hk, keyLine_of_recordedKey s _ _ hk]
    rw [windowBytes_cons, hbyte, ih (k + 1) _ (by omega)]
    simp [Memory.readAll, List.range_succ_eq_map, Nat.add_assoc, Nat.add_comm 1, Function.comp_def]

/-- A write of bytes of a line under key 0. -/
theorem windowBytes_write (bytes : List Byte) :
    ∀ (s : State) k acc, recordedKey s (lineOf a) = some 0 → pa % 128 + k + bytes.length ≤ 128 →
      (windowBytes s pa true bytes k acc).1.mem = Memory.writeAll s.mem (a + k) bytes
        ∧ (windowBytes s pa true bytes k acc).1.out = s.out := by
  induction bytes with
  | nil => intro s k acc _ _; exact ⟨rfl, rfl⟩
  | cons b bs ih =>
    intro s k acc hk hlen
    rw [List.length_cons] at hlen
    obtain ⟨hloc, hline⟩ := physLoc_add_in_line pa k a hpa (by omega) ha
    have hbyte : windowByte s (pa + k) b true = (performWrite s (a + k) 0 [b], 0) := by
      simp [windowByte, hloc, hline, confidentialOf_of_key_zero s _ hk]
    obtain ⟨hmem, hout, hkey⟩ := performWrite_keyed s (a + k) 0 [b] (by rwa [hline])
    rw [hline] at hkey
    obtain ⟨ihmem, ihout⟩ := ih _ (k + 1) (acc ++ [0]) hkey (by omega)
    rw [windowBytes_cons, hbyte]
    exact ⟨by rw [ihmem, hmem]; rfl, by rw [ihout, hout]⟩

/-- A line of a confidential context reads as zero and is not written. -/
theorem windowBytes_blocked (s : State) (wr : Bool) (hc : (confidentialOf s (lineOf a)).isSome = true) (bytes : List Byte) :
    ∀ k acc, pa % 128 + k + bytes.length ≤ 128 → windowBytes s pa wr bytes k acc = (s, acc ++ List.replicate bytes.length 0) := by
  induction bytes with
  | nil => intro k acc _; simp
  | cons b bs ih =>
    intro k acc hlen
    rw [List.length_cons] at hlen
    obtain ⟨hloc, hline⟩ := physLoc_add_in_line pa k a hpa (by omega) ha
    have hbyte : windowByte s (pa + k) b wr = (s, 0) := by simp [windowByte, hloc, hline, hc]
    rw [windowBytes_cons, hbyte, ih (k + 1) _ (by omega), List.length_cons, List.replicate_succ, List.append_assoc, List.singleton_append]

end Line

/-! Counting a blocked access. -/

/-- A context whose key a confidential line is under is there. -/
theorem confidentialOf_present (s : State) (line c : Nat) (h : confidentialOf s line = some c) : ∃ x, Map.find s.ctxs c = some x := by
  unfold confidentialOf at h
  split at h
  · simp at h
  · split at h
    · simp at h
    · obtain ⟨p, hp, rfl⟩ := Option.map_eq_some_iff.1 h
      exact Map.find_isSome_of_mem _ p (List.mem_of_find?_eq_some hp)

/-- A change of a context that keeps its record leaves a confidential line one. -/
theorem confidentialOf_modCtx_isSome (s : State) (line c : Nat) (f : Ctx → Ctx) (hf : ∀ x, (f x).words = x.words)
    (h : (confidentialOf s line).isSome = true) : (confidentialOf (modCtx s c f) line).isSome = true := by
  have hkey : recordedKey (modCtx s c f) line = recordedKey s line := rfl
  unfold confidentialOf at h ⊢
  rw [hkey]
  split at h
  · simp at h
  · split at h
    · simp at h
    · rename_i k hk
      rw [if_neg hk]
      rw [Option.isSome_map, List.find?_isSome] at h ⊢
      obtain ⟨p, hp, hpk⟩ := h
      unfold modCtx Map.modify
      dsimp only
      split
      · rename_i x hx
        rcases Map.put_keeps s.ctxs c (f x) p hp with hmem | ⟨-, hfind⟩
        · exact ⟨p, hmem, hpk⟩
        · have hxp : x = p.2 := Option.some.inj (hx.symm.trans hfind)
          exact ⟨(c, f x), Map.put_has _ _ _, by rw [hf, hxp]; exact hpk⟩
      · exact ⟨p, hp, hpk⟩

/-- A context that is there reads as it was changed. -/
theorem ctxAt_modCtx_self (s : State) (c : Nat) (f : Ctx → Ctx) (x : Ctx) (h : Map.find s.ctxs c = some x) :
    ctxAt (modCtx s c f) c = f (ctxAt s c) := by
  simp [ctxAt, modCtx, Map.modify, h, Map.getD]

theorem logRead_confidential (s : State) (line c pa : Nat) (h : (confidentialOf s line).isSome = true) :
    (confidentialOf (logRead s c pa) line).isSome = true :=
  confidentialOf_modCtx_isSome s line c _ (fun _ => rfl) h

theorem logRead_reads (s : State) (line c pa : Nat) (h : confidentialOf s line = some c) :
    (ctxAt (logRead s c pa) c).reads = ((ctxAt s c).reads + 1) % 2 ^ 32 := by
  obtain ⟨x, hx⟩ := confidentialOf_present s line c h
  unfold logRead
  rw [ctxAt_modCtx_self s c _ x hx]

end Sys2Proof.Machine
end

section
/-! PROOF. The end of a wait: its threads stand at the place after it; the host's doorbell (R63 to R65, R352, R377). -/

namespace Sys2Proof.Machine

/-! Threads released from a wait stand at the place after it (R63 to R65). -/

theorem standsAt_of_grows {a b : Squad} (h : a.grows b) {lb l : Nat} {p : Place} (k : standsAt a lb l p) : standsAt b lb l p := by
  obtain ⟨e, he, hlb, hl, hp⟩ := k
  obtain ⟨f, hf, hflb, hfl, hfp⟩ := h.entries e he
  exact ⟨f, hf, hflb.trans hlb, hfl l hl, hfp.trans hp⟩

theorem isSquad_of_still {s t : State} (e : still s = still t) {w q : Nat} (h : isSquad s w q) : isSquad t w q := by
  have hw : s.wgs.length = t.wgs.length := by simpa using congrArg List.length (wgs_of_still e)
  have hq : (wgAt s w).squads.length = (wgAt t w).squads.length := by
    simpa [Wg.still] using congrArg (fun g : Wg => g.squads.length) (wgAt_of_still e w)
  exact ⟨hw ▸ h.1, hq ▸ h.2⟩

/-- A squad in which a thread waits is there. -/
theorem isSquad_of_waiter {s : State} {w q : Nat} {x : Waiter} (h : x ∈ (sqAt s w q).waiters) : isSquad s w q := by
  have hq : q < (wgAt s w).squads.length := by
    by_contra hq
    rw [sqAt, List.getD_eq_default _ _ (by omega)] at h
    simp [blankSquad, Squad.start] at h
  refine ⟨?_, hq⟩
  by_contra hw
  rw [wgAt, List.getD_eq_default _ _ (by omega)] at hq
  simp [blankWg] at hq

/-- Released threads: their lane block, their lanes, and the place where they go on. -/
abbrev Released := Nat × BitVec 32 × Place

/-- Threads of a release, each at the place where it goes on. -/
def standAt (sq : Squad) (x : Released) : Prop := ∀ l, inMask x.2.1 l = true → standsAt sq x.1 l x.2.2

/-- How `reenter` joins the threads of one lane block that go on at one place. -/
def gather (acc : List Released) (x : Released) : List Released :=
  if acc.any (fun y => y.1 == x.1 && y.2.2 == x.2.2)
  then acc.map (fun y => if y.1 == x.1 && y.2.2 == x.2.2 then (y.1, y.2.1 ||| x.2.1, y.2.2) else y)
  else acc ++ [x]

/-- How `reenter` gives one group of threads an entry. -/
def reenterGroup (w q delay : Nat) (s : State) (x : Released) : State :=
  let n := (sqAt s w q).cycle + delay
  if ((sqAt s w q).frontier ++ (sqAt s w q).overflow).any (fun e => e.takes x.1 x.2.2 n) then modSq s w q (fun sq => joinReleased sq x.1 x.2.1 x.2.2 n)
  else enter s w q (freshEntry x.1 x.2.2 x.2.1 0 n)

theorem reenter_eq (s : State) (w q : Nat) (xs : List Released) (delay : Nat) :
    reenter s w q xs delay = (xs.foldl gather []).foldl (reenterGroup w q delay) s := rfl

/-- A group holds the threads of a release. -/
def gathered (acc : List Released) (x : Released) : Prop :=
  ∃ y ∈ acc, y.1 = x.1 ∧ y.2.2 = x.2.2 ∧ ∀ l, inMask x.2.1 l = true → inMask y.2.1 l = true

theorem gathered_gather_self (acc : List Released) (x : Released) : gathered (gather acc x) x := by
  unfold gather
  split
  · rename_i h
    obtain ⟨y, hy, hk⟩ := List.any_eq_true.1 h
    have hsame : y.1 = x.1 ∧ y.2.2 = x.2.2 := by simpa using hk
    exact ⟨(y.1, y.2.1 ||| x.2.1, y.2.2), List.mem_map.2 ⟨y, hy, if_pos hk⟩, hsame.1, hsame.2, fun l hl => by simp [hl]⟩
  · exact ⟨x, by simp, rfl, rfl, fun _ hl => hl⟩

theorem gathered_gather (acc : List Released) (x z : Released) (h : gathered acc z) : gathered (gather acc x) z := by
  obtain ⟨y, hy, hlb, hp, hm⟩ := h
  unfold gather
  split
  · refine ⟨_, List.mem_map_of_mem hy, ?_⟩
    split
    · exact ⟨hlb, hp, fun l hl => by simp [hm l hl]⟩
    · exact ⟨hlb, hp, hm⟩
  · exact ⟨y, List.mem_append_left _ hy, hlb, hp, hm⟩

theorem gathered_foldl (xs : List Released) : ∀ acc z, z ∈ xs ∨ gathered acc z → gathered (xs.foldl gather acc) z := by
  induction xs with
  | nil => intro acc z h; simpa using h
  | cons x xs ih =>
    intro acc z h
    refine ih _ z ?_
    rcases h with h | h
    · rcases List.mem_cons.1 h with rfl | h
      · exact .inr (gathered_gather_self acc z)
      · exact .inl h
    · exact .inr (gathered_gather acc x z h)

theorem joinReleased_grows (sq : Squad) (lb : Nat) (m : BitVec 32) (p : Place) (n : Nat) : sq.grows (joinReleased sq lb m p n) :=
  join_grows (fun e => e.takes lb p n) m sq

theorem standAt_joinReleased (sq : Squad) (x : Released) (n : Nat)
    (h : (sq.frontier ++ sq.overflow).any (fun e => e.takes x.1 x.2.2 n) = true) : standAt (joinReleased sq x.1 x.2.1 x.2.2 n) x := by
  obtain ⟨e, he, ht⟩ := List.any_eq_true.1 h
  have hsame : e.lb = x.1 ∧ e.place = x.2.2 := by
    simp only [Entry.takes, Bool.and_eq_true, beq_iff_eq] at ht
    exact ht.1.1.1
  intro l hl
  refine ⟨{ e with mask := e.mask ||| x.2.1 }, ?_, hsame.1, by simp [hl], hsame.2⟩
  simp only [joinReleased, ← List.map_append]
  exact List.mem_map.2 ⟨e, he, if_pos ht⟩

theorem standAt_placeEntry (ver : Nat) (peek : VAddr → Word) (sq : Squad) (x : Released) (n : Nat) :
    standAt (placeEntry ver peek sq (freshEntry x.1 x.2.2 x.2.1 0 n)) x := by
  intro l hl
  have hm : x.2.1 ≠ 0 := by
    intro h0
    simp [h0] at hl
  obtain ⟨f, hf, hlb, hmask, hp⟩ := placeEntry_has ver peek sq (freshEntry x.1 x.2.2 x.2.1 0 n) hm
  exact ⟨f, hf, hlb, by rw [hmask]; exact hl, hp⟩

/-- Giving a group its entry is a change of the squad that loses no entry, ends no other wait, and leaves the group's threads at their place. -/
theorem reenterGroup_cases (w q delay : Nat) (s : State) (x : Released) : ∃ f, reenterGroup w q delay s x = modSq s w q f
    ∧ (∀ sq : Squad, sq.grows (f sq) ∧ (f sq).waiters = sq.waiters ∧ (f sq).still = sq.still) ∧ standAt (f (sqAt s w q)) x := by
  unfold reenterGroup
  dsimp only
  split
  · rename_i h
    exact ⟨_, rfl, fun sq => ⟨joinReleased_grows sq _ _ _ _, rfl, rfl⟩, standAt_joinReleased _ x _ h⟩
  · refine ⟨_, rfl, fun sq => ⟨placeEntry_grows _ _ sq _, ?_, still_placeEntry _ _ sq _⟩, standAt_placeEntry _ _ _ x _⟩
    rw [placeEntry_only]

theorem sqAt_reenterGroups (w q delay : Nat) (gs : List Released) : ∀ s, isSquad s w q →
    let t := gs.foldl (reenterGroup w q delay) s
    (sqAt t w q).waiters = (sqAt s w q).waiters ∧ (∀ lb l p, standsAt (sqAt s w q) lb l p → standsAt (sqAt t w q) lb l p)
      ∧ ∀ y ∈ gs, standAt (sqAt t w q) y := by
  induction gs with
  | nil => exact fun s _ => ⟨rfl, fun _ _ _ h => h, fun y hy => by simp at hy⟩
  | cons x gs ih =>
    intro s h
    obtain ⟨f, hf, hkeep, hx⟩ := reenterGroup_cases w q delay s x
    have hat : sqAt (reenterGroup w q delay s x) w q = f (sqAt s w q) := by rw [hf, sqAt_modSq_self s w q f h.1 h.2]
    have hthere : isSquad (reenterGroup w q delay s x) w q :=
      isSquad_of_still (by rw [hf, still_modSq_same s w q f (fun sq => (hkeep sq).2.2)]) h
    obtain ⟨hwait, hold, hnew⟩ := ih _ hthere
    rw [hat] at hwait hold
    refine ⟨hwait.trans (hkeep _).2.1, fun lb l p k => hold lb l p (standsAt_of_grows (hkeep _).1 k), fun y hy => ?_⟩
    rcases List.mem_cons.1 hy with rfl | hy
    · exact fun l hl => hold _ l _ (hx l hl)
    · exact hnew y hy

/-- Re-entering ends no wait, and the threads stand where they go on. -/
theorem sqAt_reenter (s : State) (w q : Nat) (xs : List Released) (delay : Nat) (h : isSquad s w q) :
    (sqAt (reenter s w q xs delay) w q).waiters = (sqAt s w q).waiters ∧ ∀ x ∈ xs, standAt (sqAt (reenter s w q xs delay) w q) x := by
  obtain ⟨hwait, -, hnew⟩ := sqAt_reenterGroups w q delay (xs.foldl gather []) s h
  refine ⟨hwait, fun x hx l hl => ?_⟩
  obtain ⟨y, hy, hlb, hp, hm⟩ := gathered_foldl xs [] x (.inl hx)
  rw [← hlb, ← hp]
  exact hnew y hy l (hm l hl)

theorem sqAt_reenter_ne (s : State) (w q v r : Nat) (xs : List Released) (delay : Nat) (h : v ≠ w ∨ r ≠ q) :
    sqAt (reenter s w q xs delay) v r = sqAt s v r := by
  rw [reenter_eq]
  refine foldl_keeps (sqAt · v r) _ (fun t x => ?_) _ s
  obtain ⟨f, hf, -⟩ := reenterGroup_cases w q delay t x
  rw [hf, sqAt_modSq_ne t w q v r f h]

theorem sqAt_releaseWhere_ne (s : State) (w q v r : Nat) (ends : Waiter → Bool) (h : v ≠ w ∨ r ≠ q) :
    sqAt (releaseWhere s w q ends) v r = sqAt s v r := by
  unfold releaseWhere
  dsimp only
  split
  · rfl
  · rw [sqAt_reenter_ne _ _ _ _ _ _ _ h, sqAt_modSq_ne _ _ _ _ _ _ h]

theorem sqAt_endWaits_ne (s : State) (w q v r : Nat) (ends : Waiter → Bool) (h : v ≠ w ∨ r ≠ q) :
    sqAt (endWaits s w q ends) v r = sqAt s v r := by
  unfold endWaits
  rw [sqAt_releaseWhere_ne _ _ _ _ _ _ h, sqAt_modSq_ne _ _ _ _ _ _ h]

theorem sqAt_endWaitsWg_ne (s : State) (w v r : Nat) (ends : Waiter → Bool) (h : v ≠ w) : sqAt (endWaitsWg s w ends) v r = sqAt s v r :=
  foldl_keeps (sqAt · v r) _ (fun t q => sqAt_endWaits_ne t w q v r ends (.inl h)) _ s

theorem released_of_sqAt {s t : State} {w q : Nat} {x : Waiter} (e : sqAt t w q = sqAt s w q) (h : released s w q x) : released t w q x := by
  unfold released at h ⊢
  rwa [e]

/-- A wait that is picked ends. -/
theorem released_releaseWhere (s : State) (w q : Nat) (ends : Waiter → Bool) (x : Waiter) (hx : x ∈ (sqAt s w q).waiters)
    (he : ends x = true) : released (releaseWhere s w q ends) w q x := by
  have hout : x ∈ (sqAt s w q).waiters.filter ends := List.mem_filter.2 ⟨hx, he⟩
  have hsq := isSquad_of_waiter hx
  have hsq' : isSquad (modSq s w q (fun sq => { sq with waiters := sq.waiters.filter (fun x => !ends x) })) w q :=
    isSquad_of_still (by rw [still_modSq_same]; exact fun _ => rfl) hsq
  obtain ⟨hwait, hstand⟩ := sqAt_reenter _ w q (((sqAt s w q).waiters.filter ends).map (fun x => (x.lb, x.mask, x.next))) 2 hsq'
  rw [sqAt_modSq_self s w q _ hsq.1 hsq.2] at hwait
  unfold releaseWhere released
  dsimp only
  rw [if_neg (by rw [List.isEmpty_iff]; exact List.ne_nil_of_mem hout)]
  refine ⟨?_, fun l _ hl => hstand (x.lb, x.mask, x.next) (List.mem_map.2 ⟨x, hout, rfl⟩) l hl⟩
  rw [hwait, List.mem_filter]
  simp [he]

theorem released_endWaits (s : State) (w q : Nat) (ends : Waiter → Bool) (x : Waiter) (hx : x ∈ (sqAt s w q).waiters)
    (he : ends x = true) : released (endWaits s w q ends) w q x := by
  obtain ⟨hw, hq⟩ := isSquad_of_waiter hx
  refine released_releaseWhere _ w q ends x ?_ he
  rw [sqAt_modSq_self s w q _ hw hq]
  exact hx

/-- What no step of a fold touches is as before. -/
theorem foldl_untouched {α β γ : Type} (view : β → γ) (f : β → α → β) (l : List α) :
    ∀ s, (∀ s, ∀ j ∈ l, view (f s j) = view s) → view (l.foldl f s) = view s := by
  induction l with
  | nil => exact fun _ _ => rfl
  | cons j l ih =>
    intro s h
    rw [List.foldl_cons, ih _ (fun t i hi => h t i (List.mem_cons_of_mem _ hi)), h s j List.mem_cons_self]

/-- Of a fold over different things, what only one of them touches is as that one leaves it. -/
theorem foldl_touches_once {α β γ : Type} (view : β → γ) (f : β → α → β) (k : α) (h : ∀ s j, j ≠ k → view (f s j) = view s) (l : List α) :
    l.Nodup → k ∈ l → ∀ s, ∃ t, view t = view s ∧ view (l.foldl f s) = view (f t k) := by
  induction l with
  | nil => intro _ hk; simp at hk
  | cons j l ih =>
    intro hn hk s
    obtain ⟨hj, hl⟩ := List.nodup_cons.1 hn
    by_cases hjk : j = k
    · subst hjk
      exact ⟨s, rfl, foldl_untouched view f l _ (fun t i hi => h t i (ne_of_mem_of_not_mem hi hj))⟩
    · obtain ⟨t, ht, hv⟩ := ih hl (List.mem_of_ne_of_mem (Ne.symm hjk) hk) (f s j)
      exact ⟨t, ht.trans (h s j hjk), hv⟩

/-- What a release in one squad does not see of the others: the squad, and the machine apart from where threads stand. -/
def seenFrom (w q : Nat) (s : State) : Squad × State := (sqAt s w q, still s)

theorem seenFrom_eq {w q : Nat} {s t : State} (h : seenFrom w q t = seenFrom w q s) : sqAt t w q = sqAt s w q ∧ still t = still s :=
  Prod.mk.inj h

theorem released_endWaitsWg (s : State) (w q : Nat) (ends : Waiter → Bool) (x : Waiter) (hx : x ∈ (sqAt s w q).waiters)
    (he : ends x = true) : released (endWaitsWg s w ends) w q x := by
  obtain ⟨t, ht, hv⟩ := foldl_touches_once (seenFrom w q) (fun s q => endWaits s w q ends) q
    (fun s r hr => by simp [seenFrom, sqAt_endWaits_ne s w r w q ends (.inr hr.symm)])
    (List.range (wgAt s w).squads.length) List.nodup_range (List.mem_range.2 (isSquad_of_waiter hx).2) s
  refine released_of_sqAt (seenFrom_eq hv).1 (released_endWaits t w q ends x ?_ he)
  rw [(seenFrom_eq ht).1]
  exact hx

/-! The host's doorbell (R352, R377). -/

/-- What the test of one workgroup's `eret` waits does, with the doorbell rung or not: the fold of `testErets`. -/
def testEretsOf (bell : Bool) (s : State) (w : Nat) : State :=
  if !(queuedRecords s w).isEmpty || (bell && (wgAt s w).level == 2) then endWaitsWg s w (fun x => x.why == .eret) else s

theorem testErets_eq (s : State) : testErets s =
    { (List.range s.wgs.length).foldl (testEretsOf s.plat.doorbell) s with
      plat := { ((List.range s.wgs.length).foldl (testEretsOf s.plat.doorbell) s).plat with doorbell := false } } := rfl

@[simp] theorem still_testEretsOf (bell : Bool) (s : State) (w : Nat) : still (testEretsOf bell s w) = still s := by
  unfold testEretsOf
  split
  · exact still_endWaitsWg _ _ _
  · rfl

/-- The test of `eret` waits moves threads and answers the doorbell. -/
theorem still_testErets (s : State) : still (testErets s) = { still s with plat := { s.plat with doorbell := false } } := by
  have h : still ((List.range s.wgs.length).foldl (testEretsOf s.plat.doorbell) s) = still s :=
    foldl_keeps still _ (fun t w => still_testEretsOf _ t w) _ s
  have hplat : ((List.range s.wgs.length).foldl (testEretsOf s.plat.doorbell) s).plat = s.plat := by
    have hp := congrArg State.plat h
    exact hp
  rw [testErets_eq, hplat, ← h]
  rfl

/-- A doorbell ends the `eret` waits of firmware. -/
theorem released_testErets (s : State) (w q : Nat) (x : Waiter) (hbell : s.plat.doorbell = true) (hlevel : (wgAt s w).level = 2)
    (hx : x ∈ (sqAt s w q).waiters) (hwhy : x.why = .eret) : released (testErets s) w q x := by
  obtain ⟨t, ht, hv⟩ := foldl_touches_once (seenFrom w q) (testEretsOf s.plat.doorbell) w
    (fun s v hv => by
      have hsq : sqAt (testEretsOf true s v) w q = sqAt s w q := by
        unfold testEretsOf
        split
        · exact sqAt_endWaitsWg_ne s v w q _ hv.symm
        · rfl
      simp [seenFrom, hbell, hsq])
    (List.range s.wgs.length) List.nodup_range (List.mem_range.2 (isSquad_of_waiter hx).1) s
  obtain ⟨hsq, hstill⟩ := seenFrom_eq ht
  have hlevel' : (wgAt t w).level = 2 := by
    have h := congrArg Wg.level (wgAt_of_still hstill w)
    exact Eq.trans h hlevel
  have htest : testEretsOf s.plat.doorbell t w = endWaitsWg t w (fun x => x.why == .eret) := by
    simp [testEretsOf, hbell, hlevel']
  rw [htest] at hv
  rw [testErets_eq]
  exact released_of_sqAt (seenFrom_eq hv).1 (released_endWaitsWg t w q _ x (by rw [hsq]; exact hx) (by simp [hwhy]))

end Sys2Proof.Machine
end

section
/-! PROOF. Host registers and the host's window: the obligation (R3, R329, R355, R375, R377 to R379). -/

namespace Sys2Proof.Machine

/-! Queues, fault queues and the operating-point list (R329, R355, R378). -/

theorem exec_qcfgWrite (s : State) (q : Nat) (v : BitVec 64) (ha : s.arg = .value q v) (hq : q < 64) :
    exec .qcfgWrite s = .next (if (queueOf s q).cfg.getLsbD 31 = true ∨ bitsOf v.toNat 19 16 < 4 ∨ 12 < bitsOf v.toNat 19 16 then setPerr s
      else setQueue s q { queueOf s q with
        cfg := v.truncate 32 &&& 0xF00FFFFF, head := if v.getLsbD 31 then (queueOf s q).tail else (queueOf s q).head, last := none }) := by
  have hen : (v.truncate 32 &&& (0xF00FFFFF : Word)).getLsbD 31 = v.getLsbD 31 := by
    have hmask : (0xF00FFFFF : Word).getLsbD 31 = true := by decide
    rw [BitVec.getLsbD_and, hmask, Bool.and_true, BitVec.truncate_eq_setWidth, BitVec.getLsbD_setWidth]
    simp
  simp only [exec, execQcfgWrite, ha, if_neg (show ¬64 ≤ q by omega), hen]

theorem queueOf_setQueue (s : State) (q : Nat) (x : Queue) : queueOf (setQueue s q x) q = x := by simp [queueOf, setQueue]

theorem writeFaultq_of_none_waiting (s : State) (die : Nat) (v : DWord) (h : s.faultWait = []) : writeFaultq s die v = { s with
    faultq := Map.put s.faultq die (v &&& 0x000FFFFFFFFFF00F), faults := Map.put s.faults die [], faultSlot := Map.put s.faultSlot die 0 } := by
  simp [writeFaultq, refillFaults, h]

/-- The words of an operating-point list, with the bits of R355 that are implemented. -/
def oppWordAt (ws : List Word) (k : Nat) : Word :=
  if k % 4 = 0 then wordAt ws k &&& 0x800007FF else if k % 4 = 3 then 0 else wordAt ws k

/-- The operating-point list that the words stand for. -/
def oppMap (ws : List Word) : Map Word := (List.range 96).filterMap (fun i => if oppWordAt ws i = 0 then none else some (i, oppWordAt ws i))

theorem getD_oppMap (ws : List Word) (k : Nat) : Map.getD (oppMap ws) k 0 = if 96 ≤ k then 0 else oppWordAt ws k := by
  rw [oppMap, Map.getD_filterMap_nonzero]
  by_cases hk : k < 96
  · rw [if_pos (List.mem_range.2 hk), if_neg (by omega)]
  · rw [if_neg (by rwa [List.mem_range]), if_pos (by omega)]

theorem exec_oppListWrite (s : State) (ws : List Word) (ha : s.arg = .words ws) :
    exec .oppListWrite s = .next (if anyPlaced s = true ∨ (!oppGood (oppMap ws)) = true then setPerr s
      else measure (modPlat s (fun p => { p with opp := oppMap ws })) 5
        (sha256 ((List.range 96).flatMap (fun i => bytesOfWord (Map.getD (oppMap ws) i 0))))) := by
  simp only [exec, execOppListWrite, ha]
  rfl

/-! The registers without behaviour of their own, and the host's reads (R3, R377 to R379). -/

/-- A host read of a register sends its value out. -/
theorem happens_registerRead (off n m : Nat) (f : State → DWord) (h : ∀ s, hostRegister s off = some (f s)) :
    happens .registerWrite (.ids off n m) (fun _ => True) (fun s t => t = { s with out := s.out ++ [.register off (f s)] }) := by
  intro s ha _
  exact ⟨emit s (.register off (f s)), by simp only [exec, execRegisterWrite, ha, h], rfl⟩

/-- What a host write of a register without behaviour of its own does to the platform: it keeps the implemented bits (R355, R375, R377). -/
def plainWrite (r : HostReg) (v : DWord) : Option (Platform → Platform) :=
  match r with
  | .dstat => some (fun p => { p with perr := p.perr && !v.getLsbD 2 })
  | .tgrp => some (fun p => { p with tgrp := v.truncate 32 &&& 0x83FFFFFF })
  | .trade => some (fun p => { p with trade := v.truncate 32 &&& 0x00FFFFFF })
  | .tglist => some (fun p => { p with tglist := v })
  | .winbase => some (fun p => { p with winbase := v &&& 0xFFFFFFF000000000 })
  | _ => none

theorem exec_registerWrite_plain (s : State) (r : HostReg) (v : DWord) (f : Platform → Platform) (ha : s.arg = .host r v)
    (h : plainWrite r v = some f) : exec .registerWrite s = .next (modPlat s f) := by
  simp only [exec, execRegisterWrite, ha]
  cases r <;> simp only [plainWrite, Option.some.injEq, reduceCtorEq] at h <;> subst h <;> rfl

/-- Fields that do not overlap, put together in a word. -/
theorem packWord_zeroExtend (fs : List (Nat × Nat)) (n : Nat) (h : fs.foldl (fun n f => n + f.1 * 2 ^ f.2) 0 = n) (hn : n < 2 ^ 32) :
    ((packWord fs).zeroExtend 64 : DWord) = BitVec.ofNat 64 n := by
  apply BitVec.eq_of_toNat_eq
  simp only [packWord, h, BitVec.truncate_eq_setWidth, BitVec.toNat_setWidth, BitVec.toNat_ofNat]
  omega

theorem bit_le_one (b : Bool) : bit b ≤ 1 := by cases b <;> decide

theorem dstatWord_zeroExtend (s : State) : ((dstatWord s).zeroExtend 64 : DWord)
    = BitVec.ofNat 64 (2 ^ 8 * s.plat.brsn.toNat + 8 * bit s.plat.berr + 4 * bit s.plat.perr + 2 * bit s.plat.tsy + bit s.plat.rdy) := by
  refine packWord_zeroExtend _ _ ?_ ?_
  · simp only [List.foldl_cons, List.foldl_nil]
    omega
  · have := bit_le_one s.plat.berr
    have := bit_le_one s.plat.perr
    have := bit_le_one s.plat.tsy
    have := bit_le_one s.plat.rdy
    omega

theorem tokWord_zeroExtend (s : State) :
    ((tokWord s).zeroExtend 64 : DWord) = BitVec.ofNat 64 (2 ^ 16 * s.plat.out.toNat + s.plat.bal.toNat) := by
  refine packWord_zeroExtend _ _ ?_ (by omega)
  simp only [List.foldl_cons, List.foldl_nil]
  omega

/-- The words of the operating-point list stand from 0x100 on. -/
theorem hostRegister_opp (s : State) (i : Nat) (h : i < 96) :
    hostRegister s (0x100 + 4 * i) = some ((Map.getD s.plat.opp i 0).zeroExtend 64) := by
  have hi : (0x100 + 4 * i - 0x100) / 4 = i := by omega
  simp only [hostRegister, if_pos (show 0x100 ≤ 0x100 + 4 * i ∧ 0x100 + 4 * i < 0x280 by omega), if_pos (show (0x100 + 4 * i) % 4 = 0 by omega), hi]

/-- The registers of a queue, by their offsets (R378). -/
def queueRegister (x : Queue) : Nat → Option DWord
  | 0x00 => some (BitVec.ofNat 64 x.base)
  | 0x08 => some (x.cfg.zeroExtend 64)
  | 0x10 => some (x.tail.zeroExtend 64)
  | 0x14 => some (x.head.zeroExtend 64)
  | 0x18 => some (BitVec.ofNat 64 x.comp)
  | 0x20 => some x.qseq
  | _ => none

/-- The registers of the queues stand from 0x10000 on, 64 bytes for each. -/
theorem hostRegister_queue (s : State) (q x : Nat) (hq : q < 64) (hx : x < 0x40) :
    hostRegister s (0x10000 + 0x40 * q + x) = queueRegister (queueOf s q) x := by
  have hqi : (0x10000 + 0x40 * q + x - 0x10000) / 0x40 = q := by omega
  have hxi : (0x10000 + 0x40 * q + x) % 0x40 = x := by omega
  simp only [hostRegister, if_neg (show ¬(0x100 ≤ 0x10000 + 0x40 * q + x ∧ 0x10000 + 0x40 * q + x < 0x280) by omega),
    if_pos (show 0x10000 ≤ 0x10000 + 0x40 * q + x ∧ 0x10000 + 0x40 * q + x < 0x11000 by omega), hqi, hxi]
  rfl

/-- A write of the mailbox rings the doorbell of firmware. -/
theorem exec_registerWrite_fwmbox (s : State) (v : DWord) (ha : s.arg = .host .fwmbox v) :
    exec .registerWrite s = .next (testErets (modPlat s (fun p => { p with fwmbox := v, doorbell := true }))) := by
  simp only [exec, execRegisterWrite, ha]

theorem exec_registerWrite_qbase (s : State) (q : Nat) (v : DWord) (ha : s.arg = .host (.qbase q) v) (hq : q < 64) :
    exec .registerWrite s = .next (if (queueOf s q).cfg.getLsbD 31 = true then setPerr s
      else setQueue s q { queueOf s q with base := bitsOf v.toNat 51 12 * 4096 }) := by
  simp only [exec, execRegisterWrite, ha, if_neg (show ¬64 ≤ q by omega)]

theorem exec_registerWrite_qcomp (s : State) (q : Nat) (v : DWord) (ha : s.arg = .host (.qcomp q) v) (hq : q < 64) :
    exec .registerWrite s = .next (setQueue s q { queueOf s q with comp := bitsOf v.toNat 51 5 * 32 }) := by
  simp only [exec, execRegisterWrite, ha, if_neg (show ¬64 ≤ q by omega)]

/-! The obligation, by its clauses. -/

theorem hostWindow_read (off : Nat) (bytes : List Byte) (a : Nat) : happens .hostWindowAccess (.window off bytes false)
    (fun s => let pa := (s.plat.winbase.toNat + off) % 2 ^ 40
      off < 2 ^ 36 ∧ bytes ≠ [] ∧ pa % 128 + bytes.length ≤ 128 ∧ physLoc pa = some (.local a) ∧ confidentialOf s (lineOf a) = none)
    (fun s t => t.mem = (keyLine s (lineOf a) 0).mem ∧ t.out = s.out ++ [.window (Memory.readAll t.mem a bytes.length)]) := by
  rintro s harg ⟨hoff, hne, hlen, hloc, hopen⟩
  have hpa : (s.plat.winbase.toNat + off) % 2 ^ 40 < 2 ^ 40 := Nat.mod_lt _ (by decide)
  refine ⟨_, exec_hostWindowAccess s off bytes false a harg ⟨hoff, hne, hlen⟩ hloc, ?_⟩
  simp only [hopen, Option.elim_none, windowBytes_keyLine hloc s bytes false [] hne hopen,
    windowBytes_read hpa hloc _ (recordedKey_keyLine s _ 0) bytes 0 [] hlen]
  simp [emit]

theorem hostWindow_write (off : Nat) (bytes : List Byte) (a : Nat) : happens .hostWindowAccess (.window off bytes true)
    (fun s => let pa := (s.plat.winbase.toNat + off) % 2 ^ 40
      off < 2 ^ 36 ∧ bytes ≠ [] ∧ pa % 128 + bytes.length ≤ 128 ∧ physLoc pa = some (.local a) ∧ confidentialOf s (lineOf a) = none)
    (fun s t => bytesWritten (keyLine s (lineOf a) 0).mem t.mem a bytes ∧ t.out = s.out) := by
  rintro s harg ⟨hoff, hne, hlen, hloc, hopen⟩
  have hpa : (s.plat.winbase.toNat + off) % 2 ^ 40 < 2 ^ 40 := Nat.mod_lt _ (by decide)
  obtain ⟨hmem, hout⟩ := windowBytes_write hpa hloc bytes _ 0 [] (recordedKey_keyLine s _ 0) hlen
  refine ⟨_, exec_hostWindowAccess s off bytes true a harg ⟨hoff, hne, hlen⟩ hloc, ?_⟩
  simp only [hopen, Option.elim_none, windowBytes_keyLine hloc s bytes true [] hne hopen, if_true, hmem, hout, keyLine_out]
  exact ⟨fun x => Memory.read_writeAll bytes _ a x, trivial⟩

theorem hostWindow_blocked (off : Nat) (bytes : List Byte) (wr : Bool) (a c : Nat) : happens .hostWindowAccess (.window off bytes wr)
    (fun s => let pa := (s.plat.winbase.toNat + off) % 2 ^ 40
      off < 2 ^ 36 ∧ bytes ≠ [] ∧ pa % 128 + bytes.length ≤ 128 ∧ physLoc pa = some (.local a) ∧ confidentialOf s (lineOf a) = some c)
    (fun s t => t.mem = s.mem ∧ t.out = s.out ++ (if wr then [] else [.window (List.replicate bytes.length 0)])
      ∧ (ctxAt t c).reads = ((ctxAt s c).reads + 1) % 2 ^ 32) := by
  rintro s harg ⟨hoff, hne, hlen, hloc, hconf⟩
  have hpa : (s.plat.winbase.toNat + off) % 2 ^ 40 < 2 ^ 40 := Nat.mod_lt _ (by decide)
  have hblocked := logRead_confidential s (lineOf a) c ((s.plat.winbase.toNat + off) % 2 ^ 40) (by rw [hconf]; rfl)
  have hreads := logRead_reads s (lineOf a) c ((s.plat.winbase.toNat + off) % 2 ^ 40) hconf
  refine ⟨_, exec_hostWindowAccess s off bytes wr a harg ⟨hoff, hne, hlen⟩ hloc, ?_⟩
  simp only [hconf, Option.elim_some, windowBytes_blocked hpa hloc _ wr hblocked bytes 0 [] hlen]
  cases wr
  · exact ⟨rfl, rfl, hreads⟩
  · exact ⟨rfl, (List.append_nil _).symm, hreads⟩

theorem fwmbox_write (v : DWord) : happens .registerWrite (.host .fwmbox v) (fun _ => True) (fun s t => t.plat.fwmbox = v ∧ t.mem = s.mem
    ∧ ∀ w q x, (wgAt s w).level = 2 → x ∈ (sqAt s w q).waiters → x.why = .eret → released t w q x) := by
  intro s ha _
  have hstill := still_testErets (modPlat s (fun p => { p with fwmbox := v, doorbell := true }))
  refine ⟨_, exec_registerWrite_fwmbox s v ha, ?_, ?_, fun w q x hlevel hx hwhy => released_testErets _ w q x rfl hlevel hx hwhy⟩
  · have h := congrArg (fun t : State => t.plat.fwmbox) hstill
    exact h
  · have h := congrArg State.mem hstill
    exact h

/-- Settles O53: each event's own equation gives its clause; the window goes through the fold of an access over the bytes of one line. -/
theorem hostAccess : Obligations.HostAccess := by
  unfold Obligations.HostAccess
  refine ⟨⟨?_, ?_, ?_, ?_, ?_, ?_, ?_, ?_, ?_, ?_, ?_, ?_, ?_, fwmbox_write, ?_, ?_, ?_, ?_, ?_, ?_⟩,
    hostWindow_read, hostWindow_write, hostWindow_blocked, ?_⟩
  · rintro ctx e v b s ha ⟨hctx, hloc⟩
    refine ⟨_, congrArg Host.Outcome.next (evcmd_present s ctx e v _ ha hctx), eventValue_setEvent s _ _ b v hloc, ?_⟩
    rw [setEvent_mem s _ _ b v hloc]
    exact fun x => Memory.read_writeAll _ _ b x
  · rintro ctx e v b s ha ⟨hctx, hloc⟩
    exact ⟨_, congrArg Host.Outcome.next (evcmd_present s ctx e v _ ha hctx), eventValue_setEvent s _ _ b _ hloc⟩
  · intro ctx e v i hi s ha habsent
    simp only [List.mem_cons, List.not_mem_nil, or_false] at hi
    rcases hi with rfl | rfl <;> exact ⟨_, congrArg Host.Outcome.next (evcmd_absent s ctx e v _ ha habsent), rfl⟩
  · rintro q v s ha ⟨hq, hen, hlo, hhi⟩
    refine ⟨_, exec_qcfgWrite s q v ha hq, ?_⟩
    rw [if_neg (by rw [hen]; simp; omega)]
    exact ⟨rfl, queueOf_setQueue s q _⟩
  · rintro q v s ha ⟨hq, hbad⟩
    exact ⟨_, exec_qcfgWrite s q v ha hq, if_pos hbad⟩
  · intro ws s ha hfree
    refine ⟨_, exec_oppListWrite s ws ha, oppMap ws, getD_oppMap ws, ?_⟩
    by_cases hgood : oppGood (oppMap ws) = true
    · rw [if_neg (by simp [hfree, hgood]), if_pos hgood]
      exact ⟨rfl, rfl⟩
    · rw [if_pos (by simp [hgood]), if_neg hgood]
      exact ⟨rfl, rfl⟩
  · exact fun ws s ha hplaced => ⟨_, exec_oppListWrite s ws ha, if_pos (.inl hplaced)⟩
  · rintro die v s ha ⟨hdie, hwait⟩
    refine ⟨_, ?_, rfl⟩
    simp only [exec, execFaultqWrite, ha, if_pos hdie, writeFaultq_of_none_waiting s die v hwait]
  · exact fun v s ha _ => ⟨_, exec_registerWrite_plain s _ v _ ha rfl, rfl⟩
  · exact fun v s ha _ => ⟨_, exec_registerWrite_plain s _ v _ ha rfl, rfl⟩
  · exact fun v s ha _ => ⟨_, exec_registerWrite_plain s _ v _ ha rfl, rfl⟩
  · exact fun v s ha _ => ⟨_, exec_registerWrite_plain s _ v _ ha rfl, rfl⟩
  · exact fun v s ha _ => ⟨_, exec_registerWrite_plain s _ v _ ha rfl, rfl⟩
  · rintro q v s ha ⟨hq, hen⟩
    exact ⟨_, exec_registerWrite_qbase s q v ha hq, by rw [hen]; rfl⟩
  · exact fun q v s ha h => ⟨_, exec_registerWrite_qbase s q v ha h.1, if_pos h.2⟩
  · exact fun q v s ha hq => ⟨_, exec_registerWrite_qcomp s q v ha hq, rfl⟩
  · intro n m x hx
    refine happens_registerRead _ n m _ (fun s => ?_)
    simp only [List.mem_cons, List.not_mem_nil, or_false] at hx
    rcases hx with rfl | rfl | rfl | rfl | rfl | rfl | rfl | rfl | rfl | rfl | rfl | rfl | rfl | rfl
    case inl => exact congrArg some (dstatWord_zeroExtend s)
    case inr.inr.inr.inr.inl => exact congrArg some (tokWord_zeroExtend s)
    all_goals rfl
  · exact fun i n m hi => happens_registerRead _ n m _ (fun s => hostRegister_opp s i hi)
  · intro q n m hq x hx
    refine happens_registerRead _ n m _ (fun s => ?_)
    simp only [List.mem_cons, List.not_mem_nil, or_false] at hx
    rcases hx with rfl | rfl | rfl | rfl | rfl | rfl <;> exact hostRegister_queue s q _ hq (by norm_num)
  · exact fun off bytes wr s ha h => exec_hostWindowAccess_outside s off bytes wr ha h

end Sys2Proof.Machine
end

section
/-! PROOF. Contexts, their keys, and the device's identity: key slots that are loaded anew, attestations and the leaves they use (R193, R369 to R373, R380). -/

namespace Sys2Proof.Machine

/-! Key slots (R193, R373). -/

/-- A context record names one of 64 key slots. -/
theorem recBits_key_lt (ws : List Word) : recBits ws 0 22 17 < 64 := Nat.mod_lt _ (by decide)

/-- Values of a map that are one of them replaced by another. -/
theorem Map.find_map_replace (m : Map Nat) (key new j : Nat) :
    Map.find (m.map (fun l => if l.2 = key then (l.1, new) else l)) j = (Map.find m j).map (fun k => if k = key then new else k) := by
  induction m with
  | nil => rfl
  | cons p m ih =>
    obtain ⟨i, k⟩ := p
    by_cases hk : k = key <;> by_cases hi : i = j <;> simp [Map.find, hk, hi, ih]

@[simp] theorem retireKey_ctxs (s : State) (key : Nat) : (retireKey s key).ctxs = s.ctxs := rfl
@[simp] theorem retireKey_mem (s : State) (key : Nat) : (retireKey s key).mem = s.mem := rfl
@[simp] theorem retireKey_out (s : State) (key : Nat) : (retireKey s key).out = s.out := rfl
@[simp] theorem retireKey_plat (s : State) (key : Nat) : (retireKey s key).plat = s.plat := rfl

theorem find_lineKeys_retireKey (s : State) (key line : Nat) :
    Map.find (retireKey s key).lineKeys line = (Map.find s.lineKeys line).map (fun k => if k = key then 64 + s.ids else k) :=
  Map.find_map_replace s.lineKeys key (64 + s.ids) line

/-- The number that lines go to is no key slot's, so none of them is under the slot any more. -/
theorem retireKey_unreadable (s : State) (key line : Nat) (h : key < 64) : Map.find (retireKey s key).lineKeys line ≠ some key := by
  rw [find_lineKeys_retireKey]
  cases Map.find s.lineKeys line with
  | none => simp
  | some k =>
    by_cases hk : k = key
    · simp only [Option.map_some, if_pos hk, ne_eq, Option.some.injEq]
      omega
    · simpa only [Option.map_some, if_neg hk, ne_eq, Option.some.injEq] using hk

theorem retireKey_keeps (s : State) (key line k : Nat) (hk : k ≠ key) (h : Map.find s.lineKeys line = some k) :
    Map.find (retireKey s key).lineKeys line = some k := by
  rw [find_lineKeys_retireKey, h, Option.map_some, if_neg hk]

/-- Another key, or none, comes into a context's slot; slot 0 is no context's own (R193). -/
def changeSlot (s : State) (key : Nat) (f : Map (BitVec 512) → Map (BitVec 512)) : State :=
  if key = 0 then s else modPlat (retireKey s key) (fun p => { p with keySlots := f p.keySlots })

section ChangeSlot

variable (s : State) (key : Nat) (f : Map (BitVec 512) → Map (BitVec 512))

theorem changeSlot_of_ne (h : key ≠ 0) : changeSlot s key f = modPlat (retireKey s key) (fun p => { p with keySlots := f p.keySlots }) := if_neg h

@[simp] theorem changeSlot_ctxs : (changeSlot s key f).ctxs = s.ctxs := by unfold changeSlot; split <;> rfl
@[simp] theorem changeSlot_mem : (changeSlot s key f).mem = s.mem := by unfold changeSlot; split <;> rfl
@[simp] theorem changeSlot_out : (changeSlot s key f).out = s.out := by unfold changeSlot; split <;> rfl

theorem changeSlot_keySlots (h : key ≠ 0) : (changeSlot s key f).plat.keySlots = f s.plat.keySlots := by
  rw [changeSlot_of_ne s key f h]
  rfl

theorem changeSlot_unreadable (line : Nat) (h : key ≠ 0) (hlt : key < 64) : Map.find (changeSlot s key f).lineKeys line ≠ some key := by
  rw [changeSlot_of_ne s key f h]
  exact retireKey_unreadable s key line hlt

theorem changeSlot_keeps (line k : Nat) (hk : k ≠ key) (h : Map.find s.lineKeys line = some k) :
    Map.find (changeSlot s key f).lineKeys line = some k := by
  by_cases hz : key = 0
  · subst hz
    exact h
  · rw [changeSlot_of_ne s key f hz]
    exact retireKey_keeps s key line k hk h

end ChangeSlot

/-! Contexts (R380). -/

theorem ctxAt_of_find (s : State) (c : Nat) (x : Ctx) (h : Map.find s.ctxs c = some x) : ctxAt s c = x := by simp [ctxAt, Map.getD, h]

theorem exec_contextCreate (s : State) (ws : List Word) (ha : s.arg = .words ws) (hr : s.plat.rdy = true) :
    exec .contextCreate s = .next (if contextRefused s ws then emit s (.status 1)
      else emit { forgetDebug s (recBits ws 0 15 0) with ctxs := Map.put s.ctxs (recBits ws 0 15 0) { blankCtx with words := ws } } (.status 0)) := by
  simp only [exec, execContextCreate, ha, hr, Bool.not_true, Bool.false_eq_true, if_false]

theorem exec_contextDestroy (s : State) (c n m : Nat) (x : Ctx) (ha : s.arg = .ids c n m) (hx : Map.find s.ctxs c = some x) :
    exec .contextDestroy s = .next { forgetDebug (changeSlot s (recBits x.words 0 22 17) (fun k => Map.del k (recBits x.words 0 22 17))) c with
      ctxs := Map.del s.ctxs c } := by
  simp only [exec, execContextDestroy, ha, hx, Option.isNone_some, Bool.false_eq_true, if_false, ctxAt_of_find s c x hx]
  rw [← changeSlot_ctxs s (recBits x.words 0 22 17) (fun k => Map.del k (recBits x.words 0 22 17))]
  rfl

/-! The leaves of the lower tree (R369, R372). -/

/-- A signature is of 4 + 1,772 + 56 + 1,452 bytes. -/
theorem hssSign_length (n leaf : Nat) (m : List Byte) : (hssSign n leaf m).length = 3284 := by
  simp only [hssSign, bytesBe, List.length_append, List.length_map, List.length_range]

theorem identity_of_exhausted (s : State) (h : s.plat.exhausted = true) : identity s = .exhausted := if_pos h

theorem identity_of_leaf (s : State) (h : s.plat.exhausted = false) (hl : s.plat.leaves < 1024) : identity s = .ready := by
  simp [identity, h, hl]

theorem identity_of_no_leaf (s : State) (h : s.plat.exhausted = false) (hl : 1024 ≤ s.plat.leaves) (hc : s.plat.counter < 2 ^ 20) :
    identity s = .waiting := by
  rw [identity, if_neg (by rw [h]; exact Bool.false_ne_true), if_neg (Nat.not_lt.2 hl), if_pos hc]

section Attest

variable (s : State) (nonce : BitVec 256) (mask : BitVec 16) (ctx : Option (BitVec 16))

/-- With a leaf left, the answer is signed with it. -/
theorem attest_of_leaf (h : identity s = .ready) : ∃ sig, sig.length = 3284 ∧ attest s nonce mask ctx =
    { s with
      plat := { s.plat with leaves := s.plat.leaves + 1 }
      out := s.out ++ [.attestation nonce (((List.range 16).filter (fun k => mask.getLsbD k)).map (fun k => Map.getD s.plat.slots k 0)) s.plat.counter
        (Config.kemPublicHash s.plat.boot) ((ctx.bind (fun c => Map.find s.ctxs c.toNat)).map (fun c => (c.reads, c.readLog))) 0 sig] } := by
  unfold attest
  simp only [h]
  exact ⟨_, hssSign_length _ _ _, rfl⟩

/-- An exhausted identity answers without a signature. -/
theorem attest_of_exhausted (h : identity s = .exhausted) :
    ∃ slots kem log, attest s nonce mask ctx = emit s (.attestation nonce slots s.plat.counter kem log 3 []) := by
  unfold attest
  simp only [h]
  exact ⟨_, _, _, rfl⟩

end Attest

/-- While the next tree is awaited, so are the answers. -/
theorem answerRequests_of_waiting (n : Nat) (s : State) (h : identity s = .waiting) : answerRequests n s = s := by
  cases n with
  | zero => rfl
  | succ n =>
    unfold answerRequests
    split
    · rfl
    · exact if_pos h

/-- The first request is answered first. -/
theorem answerRequests_cons (n : Nat) (s : State) (nonce : BitVec 256) (mask : BitVec 16) (ctx : Option (BitVec 16))
    (rest : List (BitVec 256 × BitVec 16 × Option (BitVec 16))) (ha : s.plat.asked = (nonce, mask, ctx) :: rest) (h : identity s ≠ .waiting) :
    answerRequests (n + 1) s = answerRequests n (attest (modPlat s (fun p => { p with asked := rest })) nonce mask ctx) := by
  rw [answerRequests]
  simp only [ha, if_neg h]

/-- A request comes after those that wait. -/
def ask (s : State) (r : BitVec 256 × BitVec 16 × Option (BitVec 16)) : State := modPlat s (fun p => { p with asked := p.asked ++ [r] })

theorem exec_attestationRequest (s : State) (nonce : BitVec 256) (mask : BitVec 16) (ctx : Option (BitVec 16)) (ha : s.arg = .attest nonce mask ctx)
    (hs : 3 ≤ s.plat.step) : exec .attestationRequest s = .next (answerRequests (s.plat.asked.length + 1) (ask s (nonce, mask, ctx))) := by
  simp only [exec, execAttestationRequest, ha, if_neg (Nat.not_lt.2 hs)]
  simp only [ask, modPlat, List.length_append, List.length_singleton]

/-- A request that no other one waits before is answered at once, unless the next tree is awaited. -/
theorem exec_attestationRequest_alone (s : State) (nonce : BitVec 256) (mask : BitVec 16) (ctx : Option (BitVec 16)) (ha : s.arg = .attest nonce mask ctx)
    (hs : 3 ≤ s.plat.step) (hq : s.plat.asked = []) (h : identity s ≠ .waiting) : exec .attestationRequest s = .next (attest s nonce mask ctx) := by
  have hasked : (ask s (nonce, mask, ctx)).plat.asked = [(nonce, mask, ctx)] := by simp only [ask, modPlat, hq, List.nil_append]
  have hback : modPlat (ask s (nonce, mask, ctx)) (fun p => { p with asked := [] }) = s := by simp only [ask, modPlat, ← hq]
  rw [exec_attestationRequest s nonce mask ctx ha hs, answerRequests_cons _ (ask s (nonce, mask, ctx)) nonce mask ctx [] hasked h, hback, hq]
  rfl

/-- With a leaf left, the first request takes it. -/
theorem answerRequests_of_leaf (n : Nat) (s : State) (nonce : BitVec 256) (mask : BitVec 16) (ctx : Option (BitVec 16))
    (rest : List (BitVec 256 × BitVec 16 × Option (BitVec 16))) (hq : s.plat.asked = (nonce, mask, ctx) :: rest) (h : s.plat.exhausted = false)
    (hl : s.plat.leaves < 1024) : ∃ t slots log sig, answerRequests (n + 1) s = answerRequests n t
      ∧ t.plat = { s.plat with leaves := s.plat.leaves + 1, asked := rest }
      ∧ t.out = s.out ++ [.attestation nonce slots s.plat.counter (Config.kemPublicHash s.plat.boot) log 0 sig] := by
  have hready : identity s = .ready := identity_of_leaf s h hl
  obtain ⟨sig, -, hsig⟩ := attest_of_leaf (modPlat s (fun p => { p with asked := rest })) nonce mask ctx hready
  rw [answerRequests_cons n s nonce mask ctx rest hq (by rw [hready]; decide), hsig]
  exact ⟨_, _, _, sig, rfl, rfl, rfl⟩

theorem exec_lowerTreeRegeneration (s : State) (hs : 3 ≤ s.plat.step) (hl : 1024 ≤ s.plat.leaves) (h : s.plat.exhausted = false) :
    exec .lowerTreeRegeneration s = .next (answerRequests s.plat.asked.length (newTree s)) := by
  simp only [exec, execLowerTreeRegeneration]
  rw [if_pos ⟨hs, hl, by rw [h]; rfl⟩]

theorem newTree_of_counter (s : State) (h : s.plat.exhausted = false) (hc : s.plat.counter < 2 ^ 20) :
    newTree s = modPlat s (fun p => { p with counter := p.counter + 1, leaves := 0 }) := by
  rw [newTree, if_pos hc]
  simp only [modPlat, ← h]

theorem newTree_of_last (s : State) (hc : ¬s.plat.counter < 2 ^ 20) : newTree s = modPlat s (fun p => { p with exhausted := true }) := if_neg hc

/-- The two requests that waited for a tree take its first two leaves. -/
theorem answerRequests_two (s : State) (nonce nonce' : BitVec 256) (mask mask' : BitVec 16) (ctx ctx' : Option (BitVec 16))
    (h : s.plat.exhausted = false) (hl : s.plat.leaves = 0) (hq : s.plat.asked = [(nonce, mask, ctx), (nonce', mask', ctx')]) :
    (answerRequests 2 s).plat = { s.plat with leaves := 2, asked := [] }
      ∧ ∃ slots slots' kem log log' sig sig', (answerRequests 2 s).out = s.out
        ++ [.attestation nonce slots s.plat.counter kem log 0 sig, .attestation nonce' slots' s.plat.counter kem log' 0 sig'] := by
  obtain ⟨t, slots, log, sig, hst, htp, hto⟩ := answerRequests_of_leaf 1 s nonce mask ctx _ hq h (by omega)
  obtain ⟨u, slots', log', sig', htu, hup, huo⟩ :=
    answerRequests_of_leaf 0 t nonce' mask' ctx' [] (by rw [htp]) (by rw [htp]; exact h) (by simp only [htp]; omega)
  rw [hst, htu, answerRequests]
  exact ⟨by simp only [hup, htp, hl], slots, slots', _, log, log', sig, sig', by rw [huo, hto, htp, List.append_assoc]; rfl⟩

/-! A tenant's secret (R373). -/

theorem exec_kemEncapsulation (s : State) (ctx : BitVec 16) (ct : List Byte) (x : Ctx) (ha : s.arg = .kem ctx ct) (hs : 3 ≤ s.plat.step)
    (hi : identity s ≠ .exhausted) (hx : Map.find s.ctxs ctx.toNat = some x) :
    let k := Config.hkdf (Config.kemDecapsulate s.plat.boot ct) ctx.toNat
    exec .kemEncapsulation s = .next (emit (modCtx (changeSlot s (recBits x.words 0 22 17) (fun m => Map.put m (recBits x.words 0 22 17) k.1)) ctx.toNat
      (fun c => { c with launchKey := some k.2.1, saveKey := some k.2.2 })) (.status 0)) := by
  simp only [exec, execKemEncapsulation, ha, if_neg (Nat.not_lt.2 hs), if_neg hi, hx, Option.isNone_some, Bool.false_eq_true, if_false,
    ctxAt_of_find s ctx.toNat x hx]
  rfl

/-! Measurement (R371). -/

theorem measure_eq (s : State) (slot : Nat) (d : BitVec 256) :
    measure s slot d = { s with plat := { s.plat with slots := Map.put s.plat.slots slot (extended s slot d) } } := rfl

@[simp] theorem measure_berr (s : State) (slot : Nat) (d : BitVec 256) : (measure s slot d).plat.berr = s.plat.berr := rfl

end Sys2Proof.Machine
end

section
/-! PROOF. The sites of the logical clusters: each section's eight are working ones of its own die, and no site stands twice (R14). -/

namespace Sys2Proof.Machine

/-- A fold over 0, 1, 2 … whose every step may fail: what holds at the start and passes on holds of its result. -/
theorem foldl_bind_range {α : Type} (P : Nat → α → Prop) (g : α → Nat → Option α) (a₀ : α) (h0 : P 0 a₀) (n : Nat)
    (hstep : ∀ k, k < n → ∀ a b, P k a → g a k = some b → P (k + 1) b) :
    ∀ b, (List.range n).foldl (fun acc k => acc.bind (fun a => g a k)) (some a₀) = some b → P n b := by
  induction n with
  | zero =>
    intro b hb
    cases hb
    exact h0
  | succ n ih =>
    intro b hb
    rw [List.range_succ, List.foldl_append] at hb
    obtain ⟨a, ha, hab⟩ := Option.bind_eq_some_iff.1 hb
    exact hstep n (Nat.lt_succ_self n) a b (ih (fun k hk => hstep k (by omega)) a ha) hab

/-- The working sites of a section's own eight. -/
def ownSites (ok : Nat → Bool) (sec : Nat) : List Nat := ((List.range 8).map (fun i => sec * 8 + i)).filter ok

theorem mem_ownSites (ok : Nat → Bool) (sec site : Nat) (h : site ∈ ownSites ok sec) : ok site = true ∧ sec * 8 ≤ site ∧ site < sec * 8 + 8 := by
  simp only [ownSites, List.mem_filter, List.mem_map, List.mem_range] at h
  obtain ⟨⟨i, hi, rfl⟩, hok⟩ := h
  exact ⟨hok, by omega, by omega⟩

theorem ownSites_nodup (ok : Nat → Bool) (sec : Nat) : (ownSites ok sec).Nodup :=
  (List.nodup_range.map (fun i j (h : sec * 8 + i = sec * 8 + j) => by omega)).filter _

/-- A section's eight clusters: working sites of its own, and perhaps its spare one, which no section before it took. -/
theorem assignSection_sites (ok : Nat → Bool) (used : List Nat) (sec : Nat) (l : List Nat) (hsec : sec < 4) (h : assignSection ok used sec = some l) :
    l.length = 8 ∧ l.Nodup ∧ ∀ site ∈ l, ok site = true ∧ (sec * 8 ≤ site ∧ site < sec * 8 + 8 ∨ 32 ≤ site ∧ site < 34 ∧ site ∉ used) := by
  change (if (ownSites ok sec).length = 8 then some (ownSites ok sec)
    else if (ownSites ok sec).length = 7 ∧ ok (32 + sec / 2) = true ∧ (!used.contains (32 + sec / 2)) = true then
      some (ownSites ok sec ++ [32 + sec / 2]) else none) = some l at h
  have hown : ∀ site ∈ ownSites ok sec, ok site = true ∧ sec * 8 ≤ site ∧ site < sec * 8 + 8 := mem_ownSites ok sec
  split at h
  · rename_i hlen
    cases h
    exact ⟨hlen, ownSites_nodup ok sec, fun site hs => ⟨(hown site hs).1, .inl (hown site hs).2⟩⟩
  · split at h
    · rename_i hspare
      cases h
      obtain ⟨hlen, hok, hfree⟩ := hspare
      have hnew : 32 + sec / 2 ∉ ownSites ok sec := fun hs => by
        have := (hown _ hs).2
        omega
      refine ⟨by simp [hlen], (ownSites_nodup ok sec).append (List.nodup_singleton _) (List.disjoint_singleton.2 hnew), fun site hs => ?_⟩
      rcases List.mem_append.1 hs with hs | hs
      · exact ⟨(hown site hs).1, .inl (hown site hs).2⟩
      · rw [List.mem_singleton.1 hs]
        exact ⟨hok, .inr ⟨by omega, by omega, by simpa using hfree⟩⟩
    · cases h

/-- The sites of the clusters of a C-die, by section. -/
def dieSites (ok : Nat → Bool) : Option (List Nat) :=
  (List.range 4).foldl (fun a sec => a.bind (fun m => (assignSection ok m sec).map (fun x => m ++ x))) (some [])

theorem dieSites_sites (ok : Nat → Bool) (l : List Nat) (h : dieSites ok = some l) :
    l.length = 32 ∧ l.Nodup ∧ ∀ site ∈ l, ok site = true ∧ site < 34 := by
  have hsections : l.length = 8 * 4 ∧ l.Nodup ∧ ∀ site ∈ l, ok site = true ∧ (site < 8 * 4 ∨ 32 ≤ site ∧ site < 34) := by
    refine foldl_bind_range
      (fun sec m => m.length = 8 * sec ∧ m.Nodup ∧ ∀ site ∈ m, ok site = true ∧ (site < 8 * sec ∨ 32 ≤ site ∧ site < 34))
      (fun m sec => (assignSection ok m sec).map (fun x => m ++ x)) [] (by simp) 4 ?_ l h
    rintro sec hsec m l' ⟨hlen, hnodup, hm⟩ hl'
    obtain ⟨x, hx, rfl⟩ := Option.map_eq_some_iff.1 hl'
    obtain ⟨hxlen, hxnodup, hxs⟩ := assignSection_sites ok m sec x hsec hx
    refine ⟨by rw [List.length_append, hlen, hxlen]; omega, hnodup.append hxnodup (fun site hsm hsx => ?_), fun site hs => ?_⟩
    · rcases (hxs site hsx).2 with hown | hspare
      · have := (hm site hsm).2
        omega
      · exact hspare.2.2 hsm
    · rcases List.mem_append.1 hs with hs | hs
      · have := (hm site hs).2
        exact ⟨(hm site hs).1, by omega⟩
      · have := (hxs site hs).2
        exact ⟨(hxs site hs).1, by omega⟩
  obtain ⟨hlen, hnodup, hs⟩ := hsections
  refine ⟨hlen, hnodup, fun site hsite => ⟨(hs site hsite).1, ?_⟩⟩
  have := (hs site hsite).2
  omega

/-- Whether all four cores of a site work, by the fuse record. -/
def siteWorks (fuse : List (List (BitVec 4))) (die site : Nat) : Bool := (fuse.getD die []).getD site 0 == 15

theorem assignSites_eq (fuse : List (List (BitVec 4))) : assignSites fuse = (List.range 4).foldl (fun acc die =>
    acc.bind (fun l => (dieSites (siteWorks fuse die)).map (fun m => l ++ m.map (fun site => die * 34 + site)))) (some []) := rfl

/-- The clusters of the dies before `die` stand at working sites of their dies, 32 of each. -/
structure SitesAssigned (fuse : List (List (BitVec 4))) (die : Nat) (l : List Nat) : Prop where
  length : l.length = 32 * die
  nodup : l.Nodup
  works : ∀ i site, l[i]? = some site → site / 34 = i / 32 ∧ siteWorks fuse (site / 34) (site % 34) = true

/-- One die more. -/
theorem SitesAssigned.append {fuse : List (List (BitVec 4))} {die : Nat} {l m : List Nat} (h : SitesAssigned fuse die l)
    (hm : dieSites (siteWorks fuse die) = some m) : SitesAssigned fuse (die + 1) (l ++ m.map (fun site => die * 34 + site)) := by
  obtain ⟨hlen, hnodup, hs⟩ := dieSites_sites _ m hm
  refine ⟨by rw [List.length_append, List.length_map, h.length, hlen]; omega,
    h.nodup.append (hnodup.map (fun i j (e : die * 34 + i = die * 34 + j) => by omega)) (fun x hxl hxm => ?_), fun i site hi => ?_⟩
  · obtain ⟨i, hi⟩ := List.mem_iff_getElem?.1 hxl
    obtain ⟨site, -, rfl⟩ := List.mem_map.1 hxm
    have hlt : i < l.length := (List.getElem?_eq_some_iff.1 hi).1
    have hdie := (h.works i _ hi).1
    rw [h.length] at hlt
    omega
  · by_cases hlt : i < l.length
    · rw [List.getElem?_append_left hlt] at hi
      exact h.works i site hi
    · rw [List.getElem?_append_right (Nat.le_of_not_lt hlt), List.getElem?_map, Option.map_eq_some_iff] at hi
      obtain ⟨x, hx, rfl⟩ := hi
      have hxlt : i - l.length < m.length := (List.getElem?_eq_some_iff.1 hx).1
      obtain ⟨hok, hsmall⟩ := hs x (List.mem_of_getElem? hx)
      have hdiv : (die * 34 + x) / 34 = die := by omega
      have hmod : (die * 34 + x) % 34 = x := by omega
      rw [hdiv, hmod]
      rw [h.length] at hlt hxlt
      exact ⟨by omega, hok⟩

theorem assignSites_assigned (fuse : List (List (BitVec 4))) (l : List Nat) (h : assignSites fuse = some l) : SitesAssigned fuse 4 l := by
  rw [assignSites_eq] at h
  refine foldl_bind_range (SitesAssigned fuse)
    (fun l die => (dieSites (siteWorks fuse die)).map (fun m => l ++ m.map (fun site => die * 34 + site))) [] ⟨rfl, List.nodup_nil, by simp⟩ 4 ?_ l h
  intro die _ l₁ l₂ h₁ h₂
  obtain ⟨m, hm, rfl⟩ := Option.map_eq_some_iff.1 h₂
  exact h₁.append hm

end Sys2Proof.Machine
end

section
/-! PROOF. Bring-up: what each step that the bundle starts does to the platform, the workgroups and the links, and how it stops (R326, R371, R381). -/

namespace Sys2Proof.Machine

/-! Failures and images (R371). -/

@[simp] theorem bringUpStops_berr (s : State) (step : Nat) : (bringUpStops s step).plat.berr = true := rfl
@[simp] theorem bringUpStops_step (s : State) (step : Nat) : (bringUpStops s step).plat.step = step := rfl

theorem loadImage_eq (s : State) (step slot : Nat) (i : FirmwareImage) :
    loadImage s step slot i = if imageGood slot i = true then measure s slot i.digest else bringUpStops (measure s slot i.digest) step := by
  simp only [loadImage, imageGood, Bool.and_eq_true, decide_eq_true_eq]

theorem loadImage_of_good (s : State) (step slot : Nat) (i : FirmwareImage) (h : imageGood slot i = true) :
    loadImage s step slot i = measure s slot i.digest := by
  rw [loadImage_eq, if_pos h]

theorem loadImage_of_bad (s : State) (step slot : Nat) (i : FirmwareImage) (h : imageGood slot i = false) :
    loadImage s step slot i = bringUpStops (measure s slot i.digest) step := by
  rw [loadImage_eq, h, if_neg Bool.false_ne_true]

/-- The words of an image change memory alone, as far as bring-up goes on with the state. -/
theorem physWrite_frame (s : State) (pa : Nat) (bs : List Byte) :
    ((physWrite s pa bs).plat, (physWrite s pa bs).wgs, (physWrite s pa bs).fab) = (s.plat, s.wgs, s.fab) := by
  unfold physWrite
  split <;> rfl

theorem placeImage_frame (s : State) (i : FirmwareImage) :
    ((placeImage s i).plat, (placeImage s i).wgs, (placeImage s i).fab) = (s.plat, s.wgs, s.fab) :=
  foldl_keeps (fun s : State => (s.plat, s.wgs, s.fab)) _ (fun s _ => physWrite_frame s _ _) _ s

@[simp] theorem placeImage_plat (s : State) (i : FirmwareImage) : (placeImage s i).plat = s.plat := congrArg (fun x => x.1) (placeImage_frame s i)
@[simp] theorem placeImage_wgs (s : State) (i : FirmwareImage) : (placeImage s i).wgs = s.wgs := congrArg (fun x => x.2.1) (placeImage_frame s i)
@[simp] theorem placeImage_fab (s : State) (i : FirmwareImage) : (placeImage s i).fab = s.fab := congrArg (fun x => x.2.2) (placeImage_frame s i)

/-! Firmware's squads (R326). -/

/-- `n` workgroups of firmware, each on a controller, have come to those there were. -/
def addsFirmware (old new : List Wg) (n : Nat) : Prop :=
  ∃ gs, new = old ++ gs ∧ gs.length = n ∧ ∀ g ∈ gs, g.level = 2 ∧ 512 ≤ g.core ∧ g.core ≤ 516

theorem addsFirmware_none (l : List Wg) : addsFirmware l l 0 := ⟨[], (List.append_nil l).symm, rfl, by simp⟩

theorem addsFirmware.trans {a b c : List Wg} {m n : Nat} (h : addsFirmware a b m) (k : addsFirmware b c n) : addsFirmware a c (m + n) := by
  obtain ⟨gs, rfl, rfl, hg⟩ := h
  obtain ⟨hs, rfl, rfl, hh⟩ := k
  refine ⟨gs ++ hs, List.append_assoc _ _ _, List.length_append, fun g hmem => ?_⟩
  rcases List.mem_append.1 hmem with hmem | hmem
  · exact hg g hmem
  · exact hh g hmem

theorem addsFirmware.length {a b : List Wg} {n : Nat} (h : addsFirmware a b n) : b.length = a.length + n := by
  obtain ⟨gs, rfl, rfl, -⟩ := h
  exact List.length_append

/-- The workgroups beyond those there were are firmware's. -/
theorem addsFirmware.getD {a b : List Wg} {n : Nat} (h : addsFirmware a b n) (w : Nat) (hw : a.length ≤ w) (hlt : w < b.length) :
    (b.getD w blankWg).level = 2 ∧ 512 ≤ (b.getD w blankWg).core ∧ (b.getD w blankWg).core ≤ 516 := by
  obtain ⟨gs, rfl, -, hg⟩ := h
  have hmem : (a ++ gs).getD w blankWg ∈ gs := by
    rw [List.getD_append_right _ _ _ _ hw, List.getD_eq_getElem _ _ (by rw [List.length_append] at hlt; omega)]
    exact List.getElem_mem _
  exact hg _ hmem

theorem startFirmware_adds (s : State) (core : Nat) (base : BitVec 52) (h : 512 ≤ core ∧ core ≤ 516) :
    addsFirmware s.wgs (startFirmware s core base).wgs 1 :=
  ⟨_, rfl, rfl, fun g hg => by rw [List.mem_singleton.1 hg]; exact ⟨rfl, h⟩⟩

theorem startFirmware_foldl_adds (base : BitVec 52) (cores : List Nat) (h : ∀ c ∈ cores, 512 ≤ c ∧ c ≤ 516) :
    ∀ s : State, addsFirmware s.wgs (cores.foldl (fun s c => startFirmware s c base) s).wgs cores.length := by
  induction cores with
  | nil => exact fun s => addsFirmware_none s.wgs
  | cons c cs ih =>
    intro s
    rw [List.length_cons, Nat.add_comm]
    exact (startFirmware_adds s c base (h c List.mem_cons_self)).trans (ih (fun d hd => h d (List.mem_cons_of_mem _ hd)) _)

theorem startFirmware_foldl_plat (base : BitVec 52) (cores : List Nat) (s : State) :
    (cores.foldl (fun s c => startFirmware s c base) s).plat = s.plat :=
  foldl_keeps State.plat (fun s c => startFirmware s c base) (fun _ _ => rfl) cores s

/-- The die controllers' squads start, of a launch that is firmware's. -/
def startDieControllers (base : BitVec 52) (s : State) : State :=
  [512, 513, 514, 515].foldl (fun s c => startFirmware s c base) { s with launches := s.launches ++ [{ blankLaunch with stage := 9 }] }

@[simp] theorem startDieControllers_plat (base : BitVec 52) (s : State) : (startDieControllers base s).plat = s.plat :=
  startFirmware_foldl_plat base _ _

theorem startDieControllers_adds (base : BitVec 52) (s : State) (old : List Wg) (h : s.wgs = old) :
    addsFirmware old (startDieControllers base s).wgs 4 := by
  subst h
  exact startFirmware_foldl_adds base [512, 513, 514, 515] (by decide) { s with launches := s.launches ++ [{ blankLaunch with stage := 9 }] }

/-! The steps (R381). -/

theorem bringUpStep_of_stopped (b : FirmwareBundle) (n : Nat) (f : State → State) (s : State) (h : s.plat.berr = true) : bringUpStep b n f s = s := if_pos h

theorem bringUpStep_of_running (b : FirmwareBundle) (n : Nat) (f : State → State) (s : State) (h : s.plat.berr = false) (hf : b.failure = none) :
    bringUpStep b n f s = f s := by
  rw [bringUpStep, if_neg (by rw [h]; exact Bool.false_ne_true), hf]

theorem bringUpStep_of_failing (b : FirmwareBundle) (n : Nat) (f : State → State) (s : State) (reason : BitVec 8) (h : s.plat.berr = false)
    (hf : b.failure = some (n, reason)) : bringUpStep b n f s = bringUpFails s n reason := by
  rw [bringUpStep, if_neg (by rw [h]; exact Bool.false_ne_true), hf]
  exact if_pos rfl

/-- Step 3: the root processor's image, and the identity of this boot. -/
def startRoot (b : FirmwareBundle) (s : State) : State :=
  let s := loadImage s 3 1 b.root
  if s.plat.berr then s else modPlat (newTree s) (fun p => { p with leaves := p.leaves + bit (!p.exhausted), step := 3 })

/-- Step 4: the sections, the die controllers and the power controller. -/
def startControllers (b : FirmwareBundle) (s : State) : State :=
  match assignSites b.fuse with
  | none => bringUpStops s 4
  | some sites =>
    let s := loadImage (modPlat s (fun p => { p with sites := sites })) 4 2 b.die
    let s := if s.plat.berr then s else loadImage s 4 3 b.power
    if s.plat.berr then s else startDieControllers b.die.base s

/-- Step 5: memory is cleared and holds the image of the die controllers. -/
def clearMemory (b : FirmwareBundle) (s : State) : State :=
  placeImage (measure { s with mem := [], poison := [], lineKeys := [], keyBack := [], sealed := [] } 4 b.hbm) b.die

/-- Step 6: the links. -/
def trainLinks (b : FirmwareBundle) (s : State) : State :=
  let s := measure s 6 b.fabric
  let link : Link := { retries := 0, frames := 0, crcFails := 0, down := false, keys := 1 }
  modPlat (modFab s (fun f => { f with links := (List.range 16).map (fun l => (l, link)) })) (fun p => { p with step := 6 })

theorem startDies_eq (b : FirmwareBundle) (s : State) :
    startDies b s = bringUpStep b 6 (trainLinks b) (bringUpStep b 5 (clearMemory b) (bringUpStep b 4 (startControllers b) s)) := rfl

@[simp] theorem clearMemory_berr (b : FirmwareBundle) (s : State) : (clearMemory b s).plat.berr = s.plat.berr := by
  rw [clearMemory, placeImage_plat]
  rfl

@[simp] theorem clearMemory_wgs (b : FirmwareBundle) (s : State) : (clearMemory b s).wgs = s.wgs := by
  rw [clearMemory, placeImage_wgs]
  rfl

@[simp] theorem trainLinks_berr (b : FirmwareBundle) (s : State) : (trainLinks b s).plat.berr = s.plat.berr := rfl
@[simp] theorem trainLinks_step (b : FirmwareBundle) (s : State) : (trainLinks b s).plat.step = 6 := rfl
@[simp] theorem trainLinks_wgs (b : FirmwareBundle) (s : State) : (trainLinks b s).wgs = s.wgs := rfl
theorem trainLinks_links (b : FirmwareBundle) (s : State) : (trainLinks b s).fab.links.length = 16 := by
  simp only [trainLinks, modPlat, modFab, List.length_map, List.length_range]

/-- The state that step 3 begins with: the bundle is kept for the return from power-off (R360). -/
def holdBundle (b : FirmwareBundle) (s : State) : State := modPlat s (fun p => { p with bundle := some b })

theorem exec_firmwareBundlePlacement (s : State) (b : FirmwareBundle) (ha : s.arg = .bundle b) (hs : s.plat.step = 2) (hb : s.plat.berr = false) :
    exec .firmwareBundlePlacement s = .next (let t := startDies b (bringUpStep b 3 (startRoot b) (holdBundle b s))
      if t.plat.berr then t else startFirmware (placeImage t b.root) 516 b.root.base) := by
  simp only [exec, execFirmwareBundlePlacement, ha, hs, hb, ne_eq, not_true_eq_false, Bool.false_eq_true, or_false, if_false]
  rfl

/-- Once bring-up has stopped, no later step does anything. -/
theorem startDies_of_stopped (b : FirmwareBundle) (s : State) (h : s.plat.berr = true) : startDies b s = s := by
  rw [startDies_eq, bringUpStep_of_stopped b 4 _ s h, bringUpStep_of_stopped b 5 _ s h, bringUpStep_of_stopped b 6 _ s h]

theorem startDies_of_controllers_stopped (b : FirmwareBundle) (s : State) (hb : s.plat.berr = false) (hf : b.failure = none)
    (h : (startControllers b s).plat.berr = true) : startDies b s = startControllers b s := by
  rw [startDies_eq, bringUpStep_of_running b 4 _ s hb hf, bringUpStep_of_stopped b 5 _ _ h, bringUpStep_of_stopped b 6 _ _ h]

theorem newTree_berr (s : State) : (newTree s).plat.berr = s.plat.berr := by unfold newTree; split <;> rfl
theorem newTree_wgs (s : State) : (newTree s).wgs = s.wgs := by unfold newTree; split <;> rfl

section Steps

variable (b : FirmwareBundle) (s : State) (hb : s.plat.berr = false)

theorem startRoot_of_bad (h : imageGood 1 b.root = false) : (startRoot b s).plat.berr = true ∧ (startRoot b s).plat.step = 3 := by
  simp only [startRoot, loadImage_of_bad s 3 1 b.root h, bringUpStops_berr, bringUpStops_step, if_true, and_self]

theorem startControllers_of_no_sites (h : assignSites b.fuse = none) :
    (startControllers b s).plat.berr = true ∧ (startControllers b s).plat.step = 4 := by
  simp only [startControllers, h]
  exact ⟨bringUpStops_berr s 4, bringUpStops_step s 4⟩

include hb

theorem startRoot_of_good (h : imageGood 1 b.root = true) :
    (startRoot b s).plat.berr = false ∧ (startRoot b s).plat.step = 3 ∧ (startRoot b s).wgs = s.wgs := by
  simp only [startRoot, loadImage_of_good s 3 1 b.root h, measure_berr, hb, Bool.false_eq_true, if_false]
  exact ⟨(newTree_berr _).trans hb, rfl, newTree_wgs _⟩

/-- The die controllers start when the section sites are there and both images are good. -/
theorem startControllers_of_good (hsites : (assignSites b.fuse).isSome = true) (hdie : imageGood 2 b.die = true) (hpower : imageGood 3 b.power = true) :
    (startControllers b s).plat.berr = false ∧ addsFirmware s.wgs (startControllers b s).wgs 4 := by
  obtain ⟨sites, hsites⟩ := Option.isSome_iff_exists.1 hsites
  simp only [startControllers, hsites, loadImage_of_good _ 4 2 b.die hdie, loadImage_of_good _ 4 3 b.power hpower, measure_berr, modPlat, hb,
    Bool.false_eq_true, if_false, startDieControllers_plat, true_and]
  exact startDieControllers_adds b.die.base _ s.wgs rfl

theorem startControllers_of_bad (h : (imageGood 2 b.die && imageGood 3 b.power) = false) : (startControllers b s).plat.berr = true := by
  cases hsites : assignSites b.fuse with
  | none => simp only [startControllers, hsites, bringUpStops_berr]
  | some sites =>
    cases hdie : imageGood 2 b.die with
    | false => simp only [startControllers, hsites, loadImage_of_bad _ 4 2 b.die hdie, bringUpStops_berr, if_true]
    | true =>
      have hpower : imageGood 3 b.power = false := by simpa [hdie] using h
      simp only [startControllers, hsites, loadImage_of_good _ 4 2 b.die hdie, measure_berr, modPlat, hb, loadImage_of_bad _ 4 3 b.power hpower,
        bringUpStops_berr, Bool.false_eq_true, if_false, if_true]

/-- Steps 4 to 6 of a bundle that is good throughout. -/
theorem startDies_of_good (hf : b.failure = none) (hsites : (assignSites b.fuse).isSome = true) (hdie : imageGood 2 b.die = true)
    (hpower : imageGood 3 b.power = true) :
    (startDies b s).plat.berr = false ∧ (startDies b s).plat.step = 6 ∧ (startDies b s).fab.links.length = 16
      ∧ addsFirmware s.wgs (startDies b s).wgs 4 := by
  obtain ⟨hberr, hadds⟩ := startControllers_of_good b s hb hsites hdie hpower
  have hclear : (clearMemory b (startControllers b s)).plat.berr = false := (clearMemory_berr b _).trans hberr
  rw [startDies_eq, bringUpStep_of_running b 4 _ s hb hf, bringUpStep_of_running b 5 _ _ hberr hf, bringUpStep_of_running b 6 _ _ hclear hf]
  refine ⟨(trainLinks_berr b _).trans hclear, trainLinks_step b _, trainLinks_links b _, ?_⟩
  rw [trainLinks_wgs, clearMemory_wgs]
  exact hadds

end Steps

end Sys2Proof.Machine
end

section
/-! PROOF. Contexts, identity and bring-up: the obligation (R14, R193, R326, R369 to R373, R380, R381). -/

namespace Sys2Proof.Machine

/-! Contexts and identity, by their clauses. -/

theorem contextDestroy_ends_key (c n m : Nat) (x : Ctx) : happens .contextDestroy (.ids c n m) (fun s => Map.find s.ctxs c = some x)
    (fun s t =>
      let key := recBits x.words 0 22 17
      t.ctxs = Map.del s.ctxs c ∧ t.mem = s.mem ∧ (∀ l, key ≠ 0 → Map.find t.lineKeys l ≠ some key)
        ∧ (∀ l k, k ≠ key → Map.find s.lineKeys l = some k → Map.find t.lineKeys l = some k)
        ∧ (key ≠ 0 → Map.find t.plat.keySlots key = none)) := by
  intro s ha hx
  refine ⟨_, exec_contextDestroy s c n m x ha hx, rfl, changeSlot_mem s _ _, fun l hkey => ?_, fun l k hk hl => ?_, fun hkey => ?_⟩
  · exact changeSlot_unreadable s _ _ l hkey (recBits_key_lt _)
  · exact changeSlot_keeps s _ _ l k hk hl
  · change Map.find (changeSlot s _ _).plat.keySlots _ = none
    rw [changeSlot_keySlots s _ _ hkey, Map.find_del, if_pos rfl]

theorem kemEncapsulation_keys (ctx : BitVec 16) (ct : List Byte) (x : Ctx) : happens .kemEncapsulation (.kem ctx ct)
    (fun s => 3 ≤ s.plat.step ∧ s.plat.exhausted = false ∧ s.plat.leaves < 1024 ∧ Map.find s.ctxs ctx.toNat = some x)
    (fun s t =>
      let k := Config.hkdf (Config.kemDecapsulate s.plat.boot ct) ctx.toNat
      ctxAt t ctx.toNat = { x with launchKey := some k.2.1, saveKey := some k.2.2 } ∧ t.out = s.out ++ [.status 0]
        ∧ (recBits x.words 0 22 17 ≠ 0 → Map.find t.plat.keySlots (recBits x.words 0 22 17) = some k.1
            ∧ ∀ l, Map.find t.lineKeys l ≠ some (recBits x.words 0 22 17))) := by
  rintro s ha ⟨hs, hex, hl, hx⟩
  refine ⟨_, exec_kemEncapsulation s ctx ct x ha hs (by rw [identity_of_leaf s hex hl]; decide) hx, ?_, ?_, fun hkey => ⟨?_, fun l => ?_⟩⟩
  · have hx' : Map.find (changeSlot s (recBits x.words 0 22 17) (fun m => Map.put m (recBits x.words 0 22 17)
        (Config.hkdf (Config.kemDecapsulate s.plat.boot ct) ctx.toNat).1)).ctxs ctx.toNat = some x := by
      rw [changeSlot_ctxs]
      exact hx
    refine (ctxAt_modCtx_self _ ctx.toNat _ x hx').trans ?_
    rw [ctxAt_of_find _ _ x hx']
  · exact congrArg (· ++ [Outgoing.status 0]) (changeSlot_out s _ _)
  · change Map.find (changeSlot s _ _).plat.keySlots _ = _
    rw [changeSlot_keySlots s _ _ hkey, Map.find_put_self]
  · exact changeSlot_unreadable s _ _ l hkey (recBits_key_lt _)

/-- A new tree with no request waiting: its leaves are all to use, or the counter has no value left. -/
theorem lowerTreeRegeneration_unasked (x : EventArg) : setsPlat .lowerTreeRegeneration x
    (fun s => 3 ≤ s.plat.step ∧ 1024 ≤ s.plat.leaves ∧ s.plat.exhausted = false ∧ s.plat.asked = [])
    (fun s => if s.plat.counter < 2 ^ 20 then { s.plat with counter := s.plat.counter + 1, leaves := 0 } else { s.plat with exhausted := true }) := by
  rintro s - ⟨hs, hl, hex, hq⟩
  refine ⟨_, exec_lowerTreeRegeneration s hs hl hex, ?_⟩
  rw [hq]
  change newTree s = _
  by_cases hc : s.plat.counter < 2 ^ 20
  · simp only [newTree_of_counter s hex hc, if_pos hc, modPlat]
  · simp only [newTree_of_last s hc, if_neg hc, modPlat]

theorem lowerTreeRegeneration_two (x : EventArg) (nonce : BitVec 256) (mask : BitVec 16) (ctx : Option (BitVec 16)) (nonce' : BitVec 256)
    (mask' : BitVec 16) (ctx' : Option (BitVec 16)) : happens .lowerTreeRegeneration x
    (fun s => 3 ≤ s.plat.step ∧ 1024 ≤ s.plat.leaves ∧ s.plat.exhausted = false ∧ s.plat.counter < 2 ^ 20
      ∧ s.plat.asked = [(nonce, mask, ctx), (nonce', mask', ctx')])
    (fun s t => t.plat = { s.plat with counter := s.plat.counter + 1, leaves := 2, asked := [] }
      ∧ ∃ slots slots' kem log log' sig sig', t.out = s.out
        ++ [.attestation nonce slots (s.plat.counter + 1) kem log 0 sig, .attestation nonce' slots' (s.plat.counter + 1) kem log' 0 sig']) := by
  rintro s - ⟨hs, hl, hex, hc, hq⟩
  refine ⟨_, exec_lowerTreeRegeneration s hs hl hex, ?_⟩
  rw [hq, newTree_of_counter s hex hc]
  exact answerRequests_two (modPlat s (fun p => { p with counter := p.counter + 1, leaves := 0 })) nonce nonce' mask mask' ctx ctx' hex rfl hq

/-! Bring-up, by its clauses. -/

theorem firmwareBundlePlacement_completes (b : FirmwareBundle) : happens .firmwareBundlePlacement (.bundle b)
    (fun s => s.plat.step = 2 ∧ s.plat.berr = false ∧ b.failure = none ∧ (assignSites b.fuse).isSome = true)
    (fun s t => t.plat.berr = !(imageGood 1 b.root && imageGood 2 b.die && imageGood 3 b.power)
      ∧ (t.plat.berr = false → t.plat.step = 6 ∧ t.wgs.length = s.wgs.length + 5 ∧ t.fab.links.length = 16
          ∧ ∀ w, s.wgs.length ≤ w → w < t.wgs.length → (wgAt t w).level = 2 ∧ 512 ≤ (wgAt t w).core ∧ (wgAt t w).core ≤ 516)) := by
  rintro s ha ⟨hstep, hb, hf, hsites⟩
  refine ⟨_, exec_firmwareBundlePlacement s b ha hstep hb, ?_⟩
  rw [bringUpStep_of_running b 3 _ (holdBundle b s) hb hf]
  cases hroot : imageGood 1 b.root with
  | false =>
    have hstop := (startRoot_of_bad b (holdBundle b s) hroot).1
    simp only [startDies_of_stopped b _ hstop, hstop, if_true, Bool.false_and, Bool.not_false, Bool.true_eq_false, false_implies, and_self]
  | true =>
    obtain ⟨hgo, -, hwgs⟩ := startRoot_of_good b (holdBundle b s) hb hroot
    cases hrest : imageGood 2 b.die && imageGood 3 b.power with
    | false =>
      have hstop := startControllers_of_bad b (startRoot b (holdBundle b s)) hgo hrest
      simp only [startDies_of_controllers_stopped b _ hgo hf hstop, hstop, if_true, Bool.true_and, hrest, Bool.not_false, Bool.true_eq_false,
        false_implies, and_self]
    | true =>
      obtain ⟨hdie, hpower⟩ := (Bool.and_eq_true_iff).1 hrest
      obtain ⟨hberr, hsix, hlinks, hadds⟩ := startDies_of_good b (startRoot b (holdBundle b s)) hgo hf hsites hdie hpower
      generalize startDies b (startRoot b (holdBundle b s)) = t at hberr hsix hlinks hadds
      simp only [hberr, Bool.false_eq_true, if_false, Bool.true_and, hrest, Bool.not_true]
      have hfive : addsFirmware s.wgs (startFirmware (placeImage t b.root) 516 b.root.base).wgs 5 := by
        have hlast := startFirmware_adds (placeImage t b.root) 516 b.root.base (by decide)
        rw [placeImage_wgs] at hlast
        rw [hwgs] at hadds
        exact hadds.trans hlast
      have hplat : (startFirmware (placeImage t b.root) 516 b.root.base).plat = t.plat := placeImage_plat t b.root
      have hfab : (startFirmware (placeImage t b.root) 516 b.root.base).fab = t.fab := placeImage_fab t b.root
      rw [hplat, hfab]
      exact ⟨hberr, fun _ => ⟨hsix, hfive.length, hlinks, hfive.getD⟩⟩

theorem firmwareBundlePlacement_no_sites (b : FirmwareBundle) : happens .firmwareBundlePlacement (.bundle b)
    (fun s => s.plat.step = 2 ∧ s.plat.berr = false ∧ b.failure = none ∧ assignSites b.fuse = none)
    (fun _ t => t.plat.berr = true ∧ t.plat.step = if imageGood 1 b.root then 4 else 3) := by
  rintro s ha ⟨hstep, hb, hf, hsites⟩
  refine ⟨_, exec_firmwareBundlePlacement s b ha hstep hb, ?_⟩
  rw [bringUpStep_of_running b 3 _ (holdBundle b s) hb hf]
  cases hroot : imageGood 1 b.root with
  | false =>
    obtain ⟨hstop, hthree⟩ := startRoot_of_bad b (holdBundle b s) hroot
    simp only [startDies_of_stopped b _ hstop, hstop, hthree, if_true, Bool.false_eq_true, if_false, and_self]
  | true =>
    have hgo := (startRoot_of_good b (holdBundle b s) hb hroot).1
    obtain ⟨hstop, hfour⟩ := startControllers_of_no_sites b (startRoot b (holdBundle b s)) hsites
    simp only [startDies_of_controllers_stopped b _ hgo hf hstop, hstop, hfour, if_true, and_self]

theorem firmwareBundlePlacement_fails (b : FirmwareBundle) (reason : BitVec 8) : happens .firmwareBundlePlacement (.bundle b)
    (fun s => s.plat.step = 2 ∧ s.plat.berr = false ∧ b.failure = some (3, reason))
    (fun s t => t.plat.berr = true ∧ t.plat.brsn = reason ∧ t.plat.step = 3 ∧ t.wgs = s.wgs) := by
  rintro s ha ⟨hstep, hb, hf⟩
  refine ⟨_, exec_firmwareBundlePlacement s b ha hstep hb, ?_⟩
  have hstop : (bringUpFails (holdBundle b s) 3 reason).plat.berr = true := rfl
  rw [bringUpStep_of_failing b 3 _ (holdBundle b s) reason hb hf, startDies_of_stopped b _ hstop]
  exact ⟨rfl, rfl, rfl, rfl⟩

/-- Settles O54: key slots, leaves and bring-up steps each have their own equations, and each clause reads off one of them; the sites come from an
invariant of the assignment by dies and sections. -/
theorem identityAndBringUp : Obligations.IdentityAndBringUp := by
  unfold Obligations.IdentityAndBringUp
  refine ⟨⟨?_, ?_, contextDestroy_ends_key, ?_, ?_, ?_, lowerTreeRegeneration_unasked, lowerTreeRegeneration_two, ?_, kemEncapsulation_keys, ?_, ?_⟩,
    ?_, ?_, firmwareBundlePlacement_completes, firmwareBundlePlacement_no_sites, ?_, firmwareBundlePlacement_fails, ?_⟩
  · intro ws s ha hr
    refine ⟨_, exec_contextCreate s ws ha hr, ?_⟩
    split <;> rfl
  · intro ws s ha hr
    simp only [exec, execContextCreate, ha, hr, Bool.not_false, if_true]
  · rintro nonce mask ctx s ha ⟨hs, hex, hl, hq⟩
    have hready := identity_of_leaf s hex hl
    obtain ⟨sig, hlen, hsig⟩ := attest_of_leaf s nonce mask ctx hready
    exact ⟨_, exec_attestationRequest_alone s nonce mask ctx ha hs hq (by rw [hready]; decide), by rw [hsig], sig, hlen, by rw [hsig]⟩
  · rintro nonce mask ctx s ha ⟨hs, hex, hq⟩
    have hnone := identity_of_exhausted s hex
    obtain ⟨slots, kem, log, hanswer⟩ := attest_of_exhausted s nonce mask ctx hnone
    refine ⟨_, exec_attestationRequest_alone s nonce mask ctx ha hs hq (by rw [hnone]; decide), ?_, slots, kem, log, ?_⟩ <;> rw [hanswer] <;> rfl
  · rintro nonce mask ctx s ha ⟨hs, hex, hl, hc⟩
    refine ⟨_, exec_attestationRequest s nonce mask ctx ha hs, ?_⟩
    exact answerRequests_of_waiting _ _ (identity_of_no_leaf _ hex hl hc)
  · intro x s _ h
    simp only [exec, execLowerTreeRegeneration]
    rw [if_neg]
    rintro ⟨hs, hl, hex⟩
    rcases h with h | h | h
    · omega
    · omega
    · simp [h] at hex
  · rintro slot d s ha h
    refine ⟨_, ?_, measure_eq s slot d⟩
    simp only [exec, execMeasurementExtend, ha, if_pos h]
  · intro slot d s ha h
    simp only [exec, execMeasurementExtend, ha]
    rw [if_neg (by omega)]
  · exact fun x s _ _ => ⟨_, rfl, rfl, rfl⟩
  · exact fun x s _ _ => ⟨_, rfl, rfl, rfl⟩
  · intro fuse l h
    obtain ⟨hlen, hnodup, hworks⟩ := assignSites_assigned fuse l h
    exact ⟨hlen, hnodup, fun i site hi => ⟨(hworks i site hi).1, eq_of_beq (hworks i site hi).2⟩⟩
  · intro b s ha h
    simp only [exec, execFirmwareBundlePlacement, ha]
    rw [if_pos h]

end Sys2Proof.Machine
end

section
/-! PROOF. Words and the instructions they stand for: decoder and encoder undo each other (R30, R31, R37, R40 to R51, R286, R287). Both directions rest on
one fact: a word that is an encoder's concatenation has each of its parts as a field, and a word with these fields is that concatenation. -/

namespace Sys2Proof

/-! Fields of a word (R40, R42). -/

/-- The bits of a word from `lo` on are `a`. -/
def HasField (w : Word) (lo : Nat) {n : Nat} (a : BitVec n) : Prop := fld w lo n = a

theorem hasField_append (w : Word) (lo : Nat) {m n : Nat} (a : BitVec m) (b : BitVec n) :
    HasField w lo (a ++ b) ↔ HasField w (lo + n) a ∧ HasField w lo b := by
  have parts : fld w lo (m + n) = fld w (lo + n) m ++ fld w lo n :=
    (BitVec.extractLsb'_append_extractLsb'_eq_extractLsb' rfl).symm
  unfold HasField
  rw [parts]
  constructor
  · intro h
    exact ⟨by simpa only [BitVec.extractLsb'_append_eq_left] using congrArg (BitVec.extractLsb' n m) h,
      by simpa only [BitVec.extractLsb'_append_eq_right] using congrArg (BitVec.extractLsb' 0 n) h⟩
  · rintro ⟨rfl, rfl⟩
    rfl

theorem hasField_whole (w a : Word) : HasField w 0 a ↔ w = a := by
  unfold HasField fld
  rw [BitVec.extractLsb'_eq_self]

/-- Bits inside a field. -/
theorem fld_narrow (w : Word) (lo len k n : Nat) (h : k + n ≤ len) : fld w (lo + k) n = (fld w lo len).extractLsb' k n := by
  unfold fld
  refine BitVec.eq_of_getLsbD_eq fun i hi => ?_
  have hk : k + i < len := by omega
  simp [hi, hk, Nat.add_assoc]

theorem eq_ofNat_of_toNat {k n : Nat} {x : BitVec k} (h : x.toNat = n) : x = BitVec.ofNat k n := by
  rw [← h, BitVec.ofNat_toNat, BitVec.setWidth_eq]

/-! Long instructions (R42). -/

/-- The opcode of a word begins a long instruction in some version. -/
def takesTwo (c : Cls) (w : Word) : Bool := (longOps c).any (fun p => p.1 == (fld w 25 7).toNat)

/-- The words of an instruction of the class whose first word is `w` and whose extension word, if it has one, is `x`. -/
def wordsOf (c : Cls) (w x : Word) : List Word := w :: if takesTwo c w then [x] else []

/-- What is encoded behind the first word: nothing, or an extension word whose fields `x` has. -/
def ExtFields (x : Word) : List Word → Prop
  | [] => True
  | [b] => HasField x 0 b
  | _ => False

/-- `w`, and `x` behind it where the opcode takes two words, have the fields of the encoded words `a :: as`. -/
def Carries (c : Cls) (w x a : Word) (as : List Word) : Prop :=
  HasField w 0 a ∧ ExtFields x as ∧ takesTwo c w = decide (as.length = 1)

theorem eq_wordsOf_of_carries {c : Cls} {w x a : Word} {as ws : List Word} (h : ws = a :: as) (hc : Carries c w x a as) :
    ws = wordsOf c w x := by
  obtain ⟨hw, hx, htwo⟩ := hc
  rw [hasField_whole] at hw
  subst hw h
  unfold wordsOf
  match as, hx with
  | [], _ => simp [htwo]
  | [b], hx => simp [htwo, (hasField_whole x b).1 hx]

/-- What holds of all words that carry the fields of the encoded words holds of the encoded words themselves. -/
theorem of_carried {c : Cls} {a : Word} {as ws : List Word} {P : Word → Word → Prop} (h : ws = a :: as) (has : as.length.ble 1 = true)
    (hp : ∀ w x, HasField w 0 a → ExtFields x as → takesTwo c w = decide (as.length = 1) ∧ P w x) :
    ∃ w rest, ws = w :: rest ∧ rest.length = (if takesTwo c w then 1 else 0) ∧ P w (rest.headD 0) := by
  have hx : ExtFields (as.headD 0) as := by
    match as, has with
    | [], _ => trivial
    | [b], _ => exact (hasField_whole b b).2 rfl
  obtain ⟨htwo, hP⟩ := hp a _ ((hasField_whole a a).2 rfl) hx
  have hlen := Nat.le_of_ble_eq_true has
  refine ⟨a, as, h, ?_, hP⟩
  simp only [htwo, decide_eq_true_eq]
  split <;> omega

/-! The two directions, class by class and opcode by opcode (R45 to R50, R287). -/

/-- What is true of an instruction that words decode to: its class and its encoding; and the version knows a long opcode that it has (R31). -/
def Encodes (c : Cls) (ver : Nat) (w x : Word) (i : Instr) : Prop :=
  i.cls = some c ∧ encode (guardOf w) i = wordsOf c w x ∧ (i.inVersion ver = true → isLong c ver w = takesTwo c w)

/-- At each opcode the fields that the decoder reads and the zeros that it asks for are all fields of the encoding. -/
theorem encodes_of_rawDecode (c : Cls) (ver : Nat) (w x : Word) (i : Instr) (h : rawDecode c ver w x = some i) : Encodes c ver w x i := by
  cases c <;> dsimp only [rawDecode] at h
  all_goals
    delta rawCtl rawVec rawMem rawMat rawXfr rawSys rawCe at h
    split at h
  all_goals repeat' split at h
  all_goals cases h
  all_goals
    have hop := eq_ofNat_of_toNat ‹BitVec.toNat _ = _›
    refine ⟨rfl, eq_wordsOf_of_carries rfl ?_, fun hv => ?_⟩
    · simp only [Carries, ExtFields, hasField_append]
      simp only [HasField, guardOf, takesTwo, longOps, *, zero_add, Nat.reduceAdd, and_self, true_and, BitVec.ofNat_eq_ofNat]
      rfl
    simp only [takesTwo, isLong, longOps, ‹BitVec.toNat _ = _›, List.any_cons, List.any_nil, Nat.reduceBEq, Bool.false_and, Bool.false_or,
      Bool.or_false, Bool.true_and, decide_eq_true_eq]
  -- what is left: a long opcode's instruction has the opcode's version
  all_goals exact of_decide_eq_true hv

/-- The words decode to the instruction, under its guard (the copy engine's words have none, R286). -/
def Reads (c : Cls) (ver : Nat) (g : BitVec 3) (i : Instr) (w x : Word) : Prop :=
  rawDecode c ver w x = some i ∧ (c ≠ .ce → guardOf w = g)

/-- A conditional, in the form in which the reduction of a decoder at a known opcode leaves it. -/
theorem rec_eq_ite {α : Type} (c : Prop) [inst : Decidable c] (a b : α) :
    Decidable.rec (fun _ => b) (fun _ => a) inst = if c then a else b := by
  cases inst <;> rfl

/-- With an instruction's fields known, the decoder comes to the instruction: the opcode picks its line, and the fields meet the line's conditions. Where
the line tells two instructions apart, their fields overlap, and the part in which they differ decides. -/
theorem reads_of_cls (c : Cls) (ver : Nat) (g : BitVec 3) (i : Instr) (hc : i.cls = some c) (hv : i.inVersion ver = true) :
    ∃ w rest, encode g i = w :: rest ∧ rest.length = (if takesTwo c w then 1 else 0) ∧ Reads c ver g i w (rest.headD 0) := by
  cases i <;> cases hc
  all_goals
    refine of_carried rfl rfl fun w x hw hx => ?_
    simp only [ExtFields, hasField_append, and_assoc] at hw hx
    obtain ⟨hop, hf⟩ := hw
    simp only [HasField, Nat.reduceAdd] at hop hf hx
    dsimp only [Reads, rawDecode]
    delta rawCtl rawVec rawMem rawMat rawXfr rawSys rawCe
    rw [hop]
    conv in _ = some _ => lhs; whnf
    simp [rec_eq_ite, takesTwo, longOps, guardOf, hop, hf, hx]
  case barWaitReg.refl | xbarWaitReg.refl =>
    intro h
    simpa [h, hf] using fld_narrow w 4 11 5 6 (by decide)
  case pmovPv.refl =>
    intro _ h
    simpa [h, hf] using fld_narrow w 3 16 0 8 (by decide)
  case shfl.refl =>
    have since : 6 ≤ ver := of_decide_eq_true hv
    omega
  case shfl16.refl =>
    have only : ver = 5 := eq_of_beq hv
    simp [only]
  case voteBallot.refl =>
    have low : fld w 19 3 = 2#3 := by simpa [hf] using fld_narrow w 19 6 0 3 (by decide)
    simp [low]
  case cacheOpL2wb.refl | cacheOpL2key.refl | cacheOpL2all.refl =>
    have low := fld_narrow w 3 22 0 10 (by decide)
    split_ifs <;> simp_all
  case tlbInvCtx.refl | tlbInvAll.refl =>
    intro h
    simpa [h, hf] using fld_narrow w 3 22 16 6 (by decide)

/-! The decoder with its checks (R30, R31, R37, R51). -/

theorem decodeWord_eq_ok (c : Cls) (ver : Nat) (w : Word) (x : Option Word) (i : Instr) : decodeWord c ver w x = .ok i ↔
    (isLong c ver w = true → x.isSome = true) ∧ rawDecode c ver w (x.getD 0) = some i ∧ i.inVersion ver = true ∧ i.wf = true := by
  have split_iff : (isLong c ver w && x.isNone) = false ↔ (isLong c ver w = true → x.isSome = true) := by
    cases x <;> simp
  unfold decodeWord
  rw [← split_iff]
  cases isLong c ver w && x.isNone
  · cases rawDecode c ver w (x.getD 0) with
    | none => simp
    | some j =>
      by_cases hj : j = i
      · subst hj
        cases hv : j.inVersion ver <;> cases hwf : j.wf <;> simp [hv, hwf]
      · simp only [Bool.false_eq_true, if_false, Option.some.injEq, hj, false_and, and_false, iff_false]
        split_ifs <;> simp [hj]
  · simp

/-- Settles O6: the encoded words have the instruction's fields, the decoder reads them back, and as many words stand there as the version takes. -/
theorem encodeDecode : Obligations.EncodeDecode := by
  unfold Obligations.EncodeDecode
  intro i c ver g hc hv hwf
  obtain ⟨w, rest, henc, hlen, hraw, hg⟩ := reads_of_cls c ver g i hc hv
  obtain ⟨-, -, hlong⟩ := encodes_of_rawDecode c ver w _ i hraw
  rw [← hlong hv] at hlen
  refine ⟨w, rest, henc, hlen, (decodeWord_eq_ok c ver w _ i).2 ⟨fun hl => ?_, ?_, hv, hwf⟩, hg⟩
  · rw [if_pos hl] at hlen
    simp [List.isSome_head?, List.ne_nil_of_length_eq_add_one hlen]
  · rw [← List.headD_eq_head?_getD]
    exact hraw

/-- Settles O7: at every opcode the decoder's fields and conditions make up the whole word, so encoding puts it together again. -/
theorem decodeEncode : Obligations.DecodeEncode := by
  unfold Obligations.DecodeEncode
  intro c ver w x i h
  obtain ⟨hx, hraw, hv, hwf⟩ := (decodeWord_eq_ok c ver w x i).1 h
  obtain ⟨hc, henc, hlong⟩ := encodes_of_rawDecode c ver w _ i hraw
  refine ⟨hc, hv, hwf, ?_⟩
  rw [henc, wordsOf, ← hlong hv]
  congr 1
  split
  · next hl =>
    obtain ⟨y, rfl⟩ := Option.isSome_iff_exists.1 (hx hl)
    rfl
  · rfl

end Sys2Proof
end

section
/-! PROOF. A step runs the instruction that stands where its turn looks. -/

namespace Sys2Proof.Machine

theorem andThen_andThen (o : Host.Outcome State Fault Refusal) (f g : State → State) :
    andThen (andThen o f) g = andThen o (fun r => g (f r)) := by
  cases o <;> rfl

/-- A step with a turn on the agenda takes the first. -/
theorem step_of_agenda {s : State} {x : Turn} {rest : List Turn} (h : (passTime s).agenda = x :: rest) :
    step s = andThen (runTurn (turnState s rest) x) (fun r => settle (noteProgress (turnState s rest) r)) := by
  have hn : nextTurn (passTime s) = (turnState s rest, some x) := by
    unfold nextTurn
    rw [h]
    rfl
  unfold step
  rw [hn]

theorem seenOf_ok {c : Cls} {ver : Nat} {w : Word} {x : Option Word} {i : Instr} (h : decodeWord c ver w x = .ok i) :
    seenOf c ver w x = .instr i (if isLong c ver w then 2 else 1) (guardOf w) := by
  unfold seenOf
  rw [h]

/-- Looking at a place whose instruction has one word. -/
theorem look_short {s t : State} {w : Nat} {p : Place} {x : Word} {i : Instr} (hp : p.atHdr = false)
    (hx : fetchWord s w p.pc = (t, .ok x)) (hl : isLong (clauseClass p.hdr) (versionOf t w) x = false)
    (hd : decodeWord (clauseClass p.hdr) (versionOf t w) x none = .ok i) :
    look s w p = (t, .instr i 1 (guardOf x)) := by
  unfold look
  simp [hp, hx, hl, seenOf_ok hd]

/-- Looking at a place whose instruction has two words, both in its clause. -/
theorem look_long {s t t' : State} {w : Nat} {p : Place} {x y : Word} {i : Instr} (hp : p.atHdr = false)
    (hx : fetchWord s w p.pc = (t, .ok x)) (hl : isLong (clauseClass p.hdr) (versionOf t w) x = true)
    (hi : p.wordIndex < clauseWords p.hdr) (hy : fetchWord t w (p.pc + 4) = (t', .ok y))
    (hl' : isLong (clauseClass p.hdr) (versionOf t' w) x = true)
    (hd : decodeWord (clauseClass p.hdr) (versionOf t' w) x (some y) = .ok i) :
    look s w p = (t', .instr i 2 (guardOf x)) := by
  unfold look
  have hc : (isLong (clauseClass p.hdr) (versionOf t w) x && decide (p.wordIndex < clauseWords p.hdr)) = true := by simp [hl, hi]
  simp only [hp, hx, hc, hy, seenOf_ok hd, hl', Bool.false_eq_true, if_false, if_true]

/-- A squad's turn that comes to the issue executes what its entry looks at. -/
theorem issueTurn_of_look {s t : State} {w q n : Nat} {e : Entry} {i : Instr} {g : BitVec 3} (h : comesToIssue s w q e)
    (hlook : look s w e.place = (t, .instr i n g)) :
    let u : Bundle := { wg := w, sq := q, e := e, guard := g, words := n }
    issueTurn s w q = andThen (exec i (issuedFrom s t w q u)) (endIssue w q u i (steppers s u)) := by
  obtain ⟨hissuing, hq, htimed, hregrouped, htend, hchoose, hhdr⟩ := h
  have hskip : (!issuing s w || decide ((wgAt s w).squads.length ≤ q)) = false := by simp [hissuing, hq]
  have hgrouped : ¬ ((sqAt s w q).cycle % 4 = 0 ∧ (!(sqAt s w q).regrouped) = true) := by
    rintro ⟨hc, hr⟩
    simp [hregrouped hc] at hr
  have hstand : (choose s w q).bind (standing s w q) = some (t, { wg := w, sq := q, e := e, guard := g, words := n }, i) := by
    simp [hchoose, standing, hhdr, hlook]
  unfold issueTurn
  simp only [hskip, htimed, hgrouped, htend, hstand]
  rfl

/-- A step whose turn is a squad's issue. -/
theorem step_of_issue {s t : State} {w q n : Nat} {rest : List Turn} {e : Entry} {i : Instr} {g : BitVec 3}
    (ha : (passTime s).agenda = .issue w q :: rest) (h : comesToIssue (turnState s rest) w q e)
    (hlook : look (turnState s rest) w e.place = (t, .instr i n g)) :
    let u : Bundle := { wg := w, sq := q, e := e, guard := g, words := n }
    step s = andThen (exec i (issuedFrom (turnState s rest) t w q u))
      (fun r => settle (noteProgress (turnState s rest) (endIssue w q u i (steppers (turnState s rest) u) r))) := by
  rw [step_of_agenda ha, runTurn, issueTurn_of_look h hlook, andThen_andThen]

theorem fetchCheck_checked (s : State) (core ctx : Nat) (phys : Bool) (pc : VAddr) : OnlyChecked s (fetchCheck s core ctx phys pc).1 := by
  unfold fetchCheck
  have h := access_checked s core ctx phys (pc.zeroExtend 64) .fetch
  generalize access s core ctx phys (pc.zeroExtend 64) .fetch = x at h ⊢
  obtain ⟨r, e | a⟩ := x
  · exact h
  · dsimp only
    split
    · split <;> exact h
    · exact h

theorem fetchWord_checked (s : State) (w : Nat) (pc : VAddr) : OnlyChecked s (fetchWord s w pc).1 := by
  unfold fetchWord
  have h := fetchCheck_checked s (wgAt s w).core (wgAt s w).ctx ((wgAt s w).level == 2) pc
  dsimp only
  generalize fetchCheck s (wgAt s w).core (wgAt s w).ctx ((wgAt s w).level == 2) pc = x at h ⊢
  obtain ⟨r, e | a⟩ := x
  · exact h
  · dsimp only
    split <;> exact h

/-- The encoding version of a workgroup outlives the checks of an address. -/
theorem OnlyChecked.versionOf {s t : State} (h : OnlyChecked s t) (w : Nat) : versionOf t w = versionOf s w := by
  rw [h]
  rfl

theorem engineTurn_of_look {s t : State} {core k : Nat} {i : Instr} (hk : nextCe s core = some k) (hlook : ceLook s core k = (t, .ok i)) :
    engineTurn s core k = exec i { modCore t core (fun c => { c with ceTurn := k }) with cur := some (.engine core k) } := by
  unfold engineTurn
  simp [hk, hlook]

/-- Settles O2: the first turn of the agenda is taken, and each kind of turn executes the instruction that it looks at. -/
theorem stepRunsInstruction : Obligations.StepRunsInstruction := by
  refine ⟨?_, ?_, ?_, ?_⟩
  · intro s w q rest e t x i ha h hx hl hd
    obtain ⟨-, -, -, -, -, -, hhdr⟩ := id h
    exact step_of_issue ha h (look_short hhdr hx hl hd)
  · intro s w q rest e t t' x y i ha h hx hl hi hy hd
    obtain ⟨-, -, -, -, -, -, hhdr⟩ := id h
    have hv := (fetchWord_checked t w (e.place.pc + 4)).versionOf w
    rw [hy] at hv
    exact step_of_issue ha h (look_long hhdr hx hl hi hy (hv.symm ▸ hl) hd)
  · intro s core k rest t i ha hk hlook
    rw [step_of_agenda ha, runTurn, engineTurn_of_look hk hlook]
  · intro s i x rest ha
    rw [step_of_agenda ha, runTurn, eventTurn]
    split <;> rfl

end Sys2Proof.Machine
end

section
/-! PROOF. Regrouping: what merging, filling the frontier and promotion leave of a squad's entries (R60). -/

namespace Sys2Proof.Machine

/-! A change of one squad. -/

theorem modAt_congr {α : Type} {f g : α → α} {d : α} : ∀ (l : List α) (i : Nat), f (l.getD i d) = g (l.getD i d) → modAt l i f = modAt l i g
  | [], _, _ => rfl
  | x :: xs, 0, h => by simpa [modAt] using h
  | x :: xs, i + 1, h => congrArg (x :: ·) (modAt_congr xs i h)

theorem modWg_congr {s : State} {w : Nat} {f g : Wg → Wg} (h : f (wgAt s w) = g (wgAt s w)) : modWg s w f = modWg s w g :=
  congrArg (fun l => { s with wgs := l }) (modAt_congr (d := blankWg) s.wgs w h)

/-- A change of a squad depends only on what it makes of that squad. -/
theorem modSq_congr {s : State} {w q : Nat} {f g : Squad → Squad} (h : f (sqAt s w q) = g (sqAt s w q)) : modSq s w q f = modSq s w q g :=
  modWg_congr (congrArg (fun l => { wgAt s w with squads := l }) (modAt_congr (d := blankSquad) (wgAt s w).squads q h))

/-! Sorting. -/

theorem insertBy_perm {α : Type} (key : α → List Nat) (x : α) : ∀ l, (insertBy key x l).Perm (x :: l)
  | [] => .refl _
  | y :: ys => by
    unfold insertBy
    split
    · exact .refl _
    · exact ((insertBy_perm key x ys).cons y).trans (.swap x y ys)

theorem sortBy_perm {α : Type} (key : α → List Nat) (l : List α) : (sortBy key l).Perm l := by
  have h : ∀ (l acc : List α), (l.foldl (fun a x => insertBy key x a) acc).Perm (l ++ acc) := by
    intro l
    induction l with
    | nil => exact fun acc => .refl _
    | cons x l ih => exact fun acc => (ih _).trans (((insertBy_perm key x acc).append_left l).trans List.perm_middle)
  simpa [sortBy] using h l []

/-! Entries that merge. -/

/-- Entries of one lane block at one PC. -/
def sameSpot (a b : Entry) : Prop := a.lb = b.lb ∧ a.place.pc = b.place.pc

theorem sameSpot.symm {a b : Entry} (h : sameSpot a b) : sameSpot b a := ⟨h.1.symm, h.2.symm⟩
theorem sameSpot.trans {a b c : Entry} (h : sameSpot a b) (k : sameSpot b c) : sameSpot a c := ⟨h.1.trans k.1, h.2.trans k.2⟩

theorem merges_iff (a b : Entry) : merges a b = true ↔ sameSpot a b ∧ a.replay = [] ∧ b.replay = [] := by
  simp [merges, sameSpot, and_assoc]

/-- Entries that stay apart: of two of one lane block and PC, one is a replay entry. -/
def apart (a b : Entry) : Prop := a.lb = b.lb → a.place.pc = b.place.pc → a.replay ≠ [] ∨ b.replay ≠ []

theorem apart.symm {a b : Entry} (h : apart a b) : apart b a := fun h1 h2 => (h h1.symm h2.symm).symm

theorem apart_of_not_merges {a b : Entry} (h : merges a b = false) : apart a b := by
  intro h1 h2
  by_contra hr
  obtain ⟨ha, hb⟩ := not_or.1 hr
  rw [(merges_iff a b).2 ⟨⟨h1, h2⟩, not_not.1 ha, not_not.1 hb⟩] at h
  simp at h

theorem sameSpot_mergeTwo {a b : Entry} (h : sameSpot a b) : sameSpot a (mergeTwo a b) := by
  refine ⟨rfl, ?_⟩
  unfold mergeTwo
  dsimp only
  split
  · rfl
  · exact h.2

theorem apart_mergeTwo {a b c : Entry} (h : sameSpot a b) (k : apart a c) : apart (mergeTwo a b) c := by
  obtain ⟨h1, h2⟩ := sameSpot_mergeTwo h
  intro k1 k2
  exact k (h1.trans k1) (h2.trans k2)

/-! One entry joins merged ones. -/

/-- An entry joins the first that it merges with, or is added. -/
theorem addMerged_cases (x : Bool × Entry) (l : List (Bool × Entry)) :
    ((∀ y ∈ l, merges y.2 x.2 = false) ∧ addMerged x l = l ++ [x])
      ∨ ∃ l1 y l2, l = l1 ++ y :: l2 ∧ merges y.2 x.2 = true ∧ addMerged x l = l1 ++ (y.1 || x.1, mergeTwo y.2 x.2) :: l2 := by
  induction l with
  | nil => exact .inl ⟨by simp, rfl⟩
  | cons y ys ih =>
    unfold addMerged
    split
    · rename_i h
      exact .inr ⟨[], y, ys, rfl, h, rfl⟩
    · rename_i h
      rcases ih with ⟨hall, he⟩ | ⟨l1, z, l2, rfl, hz, he⟩
      · exact .inl ⟨List.forall_mem_cons.2 ⟨by simpa using h, hall⟩, by rw [he]; rfl⟩
      · exact .inr ⟨y :: l1, z, l2, rfl, hz, by rw [he]; rfl⟩

/-- A thread of a lane block stands at a PC, in one of some entries. -/
def standsIn (es : List Entry) (lb l : Nat) (pc : VAddr) : Prop := ∃ e ∈ es, e.lb = lb ∧ inMask e.mask l = true ∧ e.place.pc = pc

/-- The numbers under which entries were formed differ. -/
abbrev formedApart (es : List Entry) : Prop := (es.map Entry.formed).Nodup

/-- What merging makes of some entries: no thread is lost or moved, those left are apart, an entry alone at its PC is left as it is. -/
structure Merged (old new : List Entry) : Prop where
  stand : ∀ lb l pc, standsIn new lb l pc ↔ standsIn old lb l pc
  apart : new.Pairwise Machine.apart
  numbers : formedApart new
  origin : ∀ e ∈ new, e.formed ∈ old.map Entry.formed ∧ ∃ f ∈ old, sameSpot f e
  alone : ∀ e ∈ old, (∀ f ∈ old, f ≠ e → ¬ sameSpot f e) → e ∈ new

theorem Merged.nil : Merged [] [] := by
  constructor <;> simp [standsIn, formedApart]

theorem standsIn_append (a b : List Entry) (lb l : Nat) (pc : VAddr) : standsIn (a ++ b) lb l pc ↔ standsIn a lb l pc ∨ standsIn b lb l pc := by
  simp only [standsIn, List.mem_append, or_and_right, exists_or]

theorem standsIn_cons (e : Entry) (b : List Entry) (lb l : Nat) (pc : VAddr) :
    standsIn (e :: b) lb l pc ↔ standsIn [e] lb l pc ∨ standsIn b lb l pc := standsIn_append [e] b lb l pc

theorem standsIn_mergeTwo {a b : Entry} (h : sameSpot a b) (lb l : Nat) (pc : VAddr) :
    standsIn [mergeTwo a b] lb l pc ↔ standsIn [a] lb l pc ∨ standsIn [b] lb l pc := by
  obtain ⟨h1, h2⟩ := sameSpot_mergeTwo h
  have hmask : (mergeTwo a b).mask = a.mask ||| b.mask := rfl
  simp only [standsIn, List.mem_singleton, exists_eq_left, ← h1, ← h2, hmask, inMask_or, Bool.or_eq_true, ← h.1, ← h.2]
  tauto

/-- Merging goes on with an entry of a new number that merges with none. -/
theorem Merged.add {old new : List Entry} {x : Entry} (h : Merged old new) (hx : x.formed ∉ old.map Entry.formed)
    (hnone : ∀ y ∈ new, merges y x = false) : Merged (old ++ [x]) (new ++ [x]) where
  stand lb l pc := by rw [standsIn_append, standsIn_append, h.stand]
  apart := List.pairwise_append.2 ⟨h.apart, List.pairwise_singleton _ _, fun y hy z hz => by
    rw [List.mem_singleton.1 hz]
    exact apart_of_not_merges (hnone y hy)⟩
  numbers := by
    rw [formedApart, List.map_append, List.nodup_append]
    refine ⟨h.numbers, List.nodup_singleton _, fun n hn m hm hnm => hx ?_⟩
    obtain ⟨y, hy, rfl⟩ := List.mem_map.1 hn
    have hm' : m = x.formed := by simpa using hm
    rw [← hm', ← hnm]
    exact (h.origin y hy).1
  origin e he := by
    rcases List.mem_append.1 he with he | he
    · obtain ⟨h1, f, hf, h2⟩ := h.origin e he
      exact ⟨by simp only [List.map_append, List.mem_append]; exact .inl h1, f, List.mem_append_left _ hf, h2⟩
    · rw [List.mem_singleton.1 he]
      exact ⟨by simp, x, by simp, rfl, rfl⟩
  alone e he hal := by
    rcases List.mem_append.1 he with he | he
    · exact List.mem_append_left _ (h.alone e he (fun f hf => hal f (List.mem_append_left _ hf)))
    · exact List.mem_append_right _ he

/-- Merging goes on with an entry of a new number that joins one. -/
theorem Merged.join {old l1 l2 : List Entry} {x y : Entry} (h : Merged old (l1 ++ y :: l2)) (hx : x.formed ∉ old.map Entry.formed)
    (hm : merges y x = true) : Merged (old ++ [x]) (l1 ++ mergeTwo y x :: l2) := by
  obtain ⟨hspot, -, -⟩ := (merges_iff y x).1 hm
  obtain ⟨hyn, f, hf, hfy⟩ := h.origin y (by simp)
  constructor
  case stand =>
    intro lb l pc
    rw [standsIn_append, standsIn_cons, standsIn_mergeTwo hspot, standsIn_append old, ← h.stand, standsIn_append l1 (y :: l2), standsIn_cons y l2]
    tauto
  case apart =>
    obtain ⟨h1, h2, h3⟩ := List.pairwise_append.1 h.apart
    obtain ⟨h4, h5⟩ := List.pairwise_cons.1 h2
    refine List.pairwise_append.2 ⟨h1, List.pairwise_cons.2 ⟨fun z hz => apart_mergeTwo hspot (h4 z hz), h5⟩, fun z hz e he => ?_⟩
    rcases List.mem_cons.1 he with rfl | he
    · exact (apart_mergeTwo hspot (h3 z hz y (by simp)).symm).symm
    · exact h3 z hz e (List.mem_cons_of_mem _ he)
  case numbers =>
    have hperm : ∀ z : Entry, formedApart (l1 ++ z :: l2) ↔ z.formed ∉ (l1 ++ l2).map Entry.formed ∧ formedApart (l1 ++ l2) := by
      intro z
      rw [formedApart, (List.perm_middle.map Entry.formed).nodup_iff, List.map_cons, List.nodup_cons]
    obtain ⟨hy, hrest⟩ := (hperm y).1 h.numbers
    refine (hperm _).2 ⟨?_, hrest⟩
    have hmin : (mergeTwo y x).formed = y.formed ∨ (mergeTwo y x).formed = x.formed := min_choice y.formed x.formed
    rcases hmin with he | he <;> rw [he]
    · exact hy
    · intro hin
      obtain ⟨z, hz, hzx⟩ := List.mem_map.1 hin
      have hz' : z ∈ l1 ++ y :: l2 := by
        rw [List.mem_append] at hz ⊢
        exact hz.imp id (List.mem_cons_of_mem _)
      exact hx (hzx ▸ (h.origin z hz').1)
  case origin =>
    intro e he
    have hold : ∀ e ∈ l1 ++ y :: l2, e.formed ∈ (old ++ [x]).map Entry.formed ∧ ∃ f ∈ old ++ [x], sameSpot f e := by
      intro e he
      obtain ⟨h1, f, hf, h2⟩ := h.origin e he
      exact ⟨by simp only [List.map_append, List.mem_append]; exact .inl h1, f, List.mem_append_left _ hf, h2⟩
    rcases List.mem_append.1 he with he | he
    · exact hold e (List.mem_append_left _ he)
    rcases List.mem_cons.1 he with rfl | he
    · refine ⟨?_, f, List.mem_append_left _ hf, hfy.trans (sameSpot_mergeTwo hspot)⟩
      have hmin : (mergeTwo y x).formed = y.formed ∨ (mergeTwo y x).formed = x.formed := min_choice y.formed x.formed
      rw [List.map_append, List.mem_append]
      rcases hmin with he | he <;> rw [he]
      · exact .inl hyn
      · exact .inr (by simp)
    · exact hold e (List.mem_append_right _ (List.mem_cons_of_mem _ he))
  case alone =>
    intro e he hal
    have hxold : x ∉ old := fun hxo => hx (List.mem_map_of_mem hxo)
    rcases List.mem_append.1 he with he | he
    · have hne : e ≠ y := by
        rintro rfl
        exact hal x (by simp) (fun hxe => hxold (hxe ▸ he)) hspot.symm
      have hin := h.alone e he (fun f hf => hal f (List.mem_append_left _ hf))
      rw [List.mem_append, List.mem_cons] at hin ⊢
      exact hin.imp id (fun k => .inr (k.resolve_left hne))
    · rw [List.mem_singleton.1 he] at hal ⊢
      exact absurd (hfy.trans hspot) (hal f (List.mem_append_left _ hf) (fun hfx => hxold (hfx ▸ hf)))

theorem Merged.addMerged {old : List Entry} {acc : List (Bool × Entry)} {x : Bool × Entry} (h : Merged old (acc.map Prod.snd))
    (hx : x.2.formed ∉ old.map Entry.formed) : Merged (old ++ [x.2]) ((addMerged x acc).map Prod.snd) := by
  rcases addMerged_cases x acc with ⟨hnone, he⟩ | ⟨l1, y, l2, rfl, hm, he⟩
  · rw [he, List.map_append]
    exact h.add hx (List.forall_mem_map.2 hnone)
  · rw [he]
    simp only [List.map_append, List.map_cons] at h ⊢
    exact h.join hx hm

theorem Merged.foldl (xs : List (Bool × Entry)) : ∀ old acc, Merged old (acc.map Prod.snd) → formedApart (old ++ xs.map Prod.snd) →
    Merged (old ++ xs.map Prod.snd) ((xs.foldl (fun acc x => Machine.addMerged x acc) acc).map Prod.snd) := by
  induction xs with
  | nil => intro old acc h _; simpa using h
  | cons x xs ih =>
    intro old acc h hn
    have hx : x.2.formed ∉ old.map Entry.formed := by
      rw [formedApart, List.map_append, List.nodup_append] at hn
      exact fun hin => hn.2.2 _ hin _ (by simp) rfl
    have := ih (old ++ [x.2]) _ (h.addMerged hx) (by simpa using hn)
    simpa using this

/-! A squad's entries. -/

/-- An entry without its yield mark. -/
def Entry.fresh (e : Entry) : Entry := { e with yielded := false }

/-- What regrouping makes of a squad's entries (R60). -/
structure Regrouped (old new : List Entry) : Prop where
  stand : ∀ lb l pc, standsIn new lb l pc ↔ standsIn old lb l pc
  apart : new.Pairwise Machine.apart
  numbers : formedApart new
  alone : ∀ e ∈ old, (∀ f ∈ old, f ≠ e → ¬ sameSpot f e) → e.fresh ∈ new
  cleared : ∀ e ∈ new, e.yielded = false

theorem Merged.fresh {old new : List Entry} (h : Merged old new) : Regrouped old (new.map Entry.fresh) where
  stand lb l pc := by
    rw [← h.stand]
    simp only [standsIn, List.mem_map, exists_exists_and_eq_and]
    rfl
  apart := List.pairwise_map.2 h.apart
  numbers := by
    rw [formedApart, List.map_map]
    exact h.numbers
  alone e he hal := List.mem_map_of_mem (h.alone e he hal)
  cleared := List.forall_mem_map.2 (fun _ _ => rfl)

/-- The entries may stand in any order. -/
theorem Regrouped.perm {old new new' : List Entry} (h : Regrouped old new) (p : new'.Perm new) : Regrouped old new' where
  stand lb l pc := by
    rw [← h.stand]
    simp only [standsIn, p.mem_iff]
  apart := (p.pairwise_iff apart.symm).2 h.apart
  numbers := (p.map Entry.formed).nodup_iff.2 h.numbers
  alone e he hal := p.mem_iff.2 (h.alone e he hal)
  cleared e he := h.cleared e (p.mem_iff.1 he)

/-- The entries of a squad, in the frontier and displaced. -/
def Squad.entries (sq : Squad) : List Entry := sq.frontier ++ sq.overflow

theorem regrouped_mergeAll (sq : Squad) (hn : formedApart sq.entries) : Regrouped sq.entries (mergeAll sq).entries := by
  let xs := sq.frontier.map (fun e => (true, e)) ++ sq.overflow.map (fun e => (false, e))
  let all := xs.foldl (fun acc x => addMerged x acc) []
  have hxs : xs.map Prod.snd = sq.entries := by simp [xs, Squad.entries, Function.comp_def]
  have hmerged : Merged sq.entries (all.map Prod.snd) := by
    have := Merged.foldl xs [] [] .nil (by simpa [hxs] using hn)
    simpa [hxs] using this
  have hperm : (mergeAll sq).entries.Perm ((all.map (fun x => (x.1, x.2.fresh))).map Prod.snd) := by
    unfold Squad.entries mergeAll
    dsimp only
    rw [← List.map_append]
    exact (List.filter_append_perm _ _).map Prod.snd
  have hfresh : (all.map (fun x => (x.1, x.2.fresh))).map Prod.snd = (all.map Prod.snd).map Entry.fresh := by simp [Function.comp_def]
  exact hmerged.fresh.perm (hfresh ▸ hperm)

/-! Promotion. -/

/-- An entry of a list, and those of other numbers. -/
theorem perm_cons_filter_formed {l : List Entry} {e : Entry} (hn : formedApart l) (he : e ∈ l) :
    l.Perm (e :: l.filter (fun f => f.formed != e.formed)) := by
  induction l with
  | nil => simp at he
  | cons x l ih =>
    obtain ⟨hx, hl⟩ := List.nodup_cons.1 (by simpa [formedApart] using hn : (x.formed :: l.map Entry.formed).Nodup)
    rcases List.mem_cons.1 he with rfl | he
    · have hkeep : l.filter (fun f => f.formed != e.formed) = l := List.filter_eq_self.2 (fun f hf => by
        simpa using fun h : f.formed = e.formed => hx (h ▸ List.mem_map_of_mem hf))
      simp [hkeep]
    · have hne : (x.formed != e.formed) = true := by
        simpa using fun h : x.formed = e.formed => hx (h ▸ List.mem_map_of_mem he)
      rw [List.filter_cons_of_pos (p := fun f : Entry => f.formed != e.formed) hne]
      exact ((ih hl he).cons x).trans (.swap _ _ _)

/-- Promotion trades places of entries: it loses none, a full frontier stays full, and other displaced entries stay displaced but for the promoted one. -/
structure Promoted (e : Entry) (old new : Squad) : Prop where
  perm : new.entries.Perm old.entries
  full : 64 ≤ old.frontier.length → 64 ≤ new.frontier.length
  others : ∀ f ∈ old.overflow, f.formed ≠ e.formed → f ∈ new.overflow
  only : new = { old with frontier := new.frontier, overflow := new.overflow }

theorem promoted_promote (key : Entry → List Nat) (sq : Squad) (e : Entry) (hn : formedApart sq.entries) (he : e ∈ sq.overflow) :
    Promoted e sq (promote key sq e) := by
  obtain ⟨hnf, hno, -⟩ := List.nodup_append.1 (by simpa [formedApart, Squad.entries] using hn :
    (sq.frontier.map Entry.formed ++ sq.overflow.map Entry.formed).Nodup)
  have hover := perm_cons_filter_formed hno he
  have hrest : ∀ f ∈ sq.overflow, f.formed ≠ e.formed → f ∈ sq.overflow.filter (fun f => f.formed != e.formed) :=
    fun f hf hne => List.mem_filter.2 ⟨hf, by simpa using hne⟩
  unfold promote
  dsimp only
  split
  · refine ⟨?_, fun h => by simp only [List.length_append]; omega, hrest, rfl⟩
    unfold Squad.entries
    rw [List.append_assoc]
    exact (hover.symm).append_left _
  · split
    · exact ⟨.refl _, id, fun f hf _ => hf, rfl⟩
    · rename_i out hout
      have hmem : out ∈ sq.frontier :=
        (List.mem_filter.1 ((sortBy_perm key _).mem_iff.1 (List.mem_of_getLast? hout))).1
      have hfront := perm_cons_filter_formed hnf hmem
      refine ⟨?_, fun h => ?_, fun f hf hne => List.mem_append_left _ (hrest f hf hne), rfl⟩
      · unfold Squad.entries
        dsimp only
        generalize sq.frontier.filter (fun f => f.formed != out.formed) = fr at hfront ⊢
        generalize sq.overflow.filter (fun f => f.formed != e.formed) = ov at hover ⊢
        refine List.Perm.trans ?_ (hfront.append hover).symm
        rw [List.perm_iff_count]
        intro a
        simp only [List.count_append, List.count_cons, List.count_nil]
        omega
      · have := hfront.length_eq
        simp only [List.length_cons, List.length_append, List.length_nil] at this ⊢
        omega

theorem promoted_foldl (key : Entry → List Nat) (es : List Entry) : ∀ sq : Squad, formedApart sq.entries → formedApart es → (∀ e ∈ es, e ∈ sq.overflow) →
    let r := es.foldl (promote key) sq
    r.entries.Perm sq.entries ∧ (64 ≤ sq.frontier.length → 64 ≤ r.frontier.length)
      ∧ r = { sq with frontier := r.frontier, overflow := r.overflow } := by
  induction es with
  | nil => exact fun sq _ _ _ => ⟨.refl _, id, rfl⟩
  | cons e es ih =>
    intro sq hn hes hin
    have hp := promoted_promote key sq e hn (hin e List.mem_cons_self)
    obtain ⟨he, hes⟩ := List.nodup_cons.1 (by simpa [formedApart] using hes : (e.formed :: es.map Entry.formed).Nodup)
    obtain ⟨hperm, hfull, honly⟩ := ih (promote key sq e) ((hp.perm.map Entry.formed).nodup_iff.2 hn) hes (fun f hf =>
      hp.others f (hin f (List.mem_cons_of_mem _ hf)) (fun h => he (h ▸ List.mem_map_of_mem hf)))
    refine ⟨hperm.trans hp.perm, fun h => hfull (hp.full h), ?_⟩
    rw [List.foldl_cons, honly, hp.only]

/-- The squad after the filling of its frontier. -/
def filled (key : Entry → List Nat) (sq : Squad) : Squad :=
  { sq with
    frontier := sq.frontier ++ (sortBy key sq.overflow).take (Config.frontierSize - sq.frontier.length)
    overflow := (sortBy key sq.overflow).drop (Config.frontierSize - sq.frontier.length) }

theorem entries_filled (key : Entry → List Nat) (sq : Squad) : (filled key sq).entries.Perm sq.entries := by
  unfold Squad.entries filled
  dsimp only
  rw [List.append_assoc, List.take_append_drop]
  exact (sortBy_perm key _).append_left _

/-- A frontier that is not full has taken every displaced entry. -/
theorem filled_full (key : Entry → List Nat) (sq : Squad) : (filled key sq).overflow = [] ∨ 64 ≤ (filled key sq).frontier.length := by
  unfold filled Config.frontierSize
  simp only [List.drop_eq_nil_iff, List.length_append, List.length_take]
  omega

theorem regroupSquad_eq (ver : Nat) (peek : VAddr → Word) (sq : Squad) :
    let f := filled (sortKey ver peek) (mergeAll sq)
    regroupSquad ver peek sq =
      { (f.overflow.filter (fun e => decide (Config.starvation ≤ e.age))).foldl (promote (sortKey ver peek)) f with regrouped := true } := rfl

/-- What regrouping a squad does (R60). -/
theorem regrouped_regroupSquad (ver : Nat) (peek : VAddr → Word) (sq : Squad) (hn : formedApart sq.entries) :
    let r := regroupSquad ver peek sq
    Regrouped sq.entries r.entries ∧ (r.frontier.length < 64 → r.overflow = [])
      ∧ r = { sq with frontier := r.frontier, overflow := r.overflow, regrouped := true } := by
  let f := filled (sortKey ver peek) (mergeAll sq)
  let aged := f.overflow.filter (fun e => decide (Config.starvation ≤ e.age))
  have hfilled : Regrouped sq.entries f.entries := (regrouped_mergeAll sq hn).perm (entries_filled _ _)
  have hover : formedApart f.overflow := (List.Nodup.of_append_right (by simpa [formedApart, Squad.entries] using hfilled.numbers))
  have haged : formedApart aged := hover.sublist (List.filter_sublist.map _)
  obtain ⟨hperm, hfull, honly⟩ := promoted_foldl (sortKey ver peek) aged f hfilled.numbers haged (fun e he => (List.mem_filter.1 he).1)
  rw [regroupSquad_eq]
  refine ⟨hfilled.perm hperm, fun hlt => ?_, ?_⟩
  · rcases filled_full (sortKey ver peek) (mergeAll sq) with h0 | h64
    · have hnone : aged = [] := by simp [aged, f, h0]
      show (aged.foldl (promote (sortKey ver peek)) f).overflow = []
      rw [hnone]
      exact h0
    · exact absurd (hfull h64) (by simpa using hlt)
  · dsimp only
    rw [honly]
    rfl

end Sys2Proof.Machine
end

section
/-! PROOF. Regrouping, ended waits, fetched lines and timeouts: the obligation (R34, R60, R67, R70, R78, R147, R240, R330). -/

namespace Sys2Proof.Machine

/-! Waits that do not end. -/

theorem isSquad_modSq {s : State} {w q : Nat} (f : Squad → Squad) (h : isSquad s w q) : isSquad (modSq s w q f) w q := by
  refine ⟨by simpa using h.1, ?_⟩
  rw [wgAt_modSq_self s w q f h.1]
  simpa using h.2

theorem waiters_releaseWhere (s : State) (w q : Nat) (ends : Waiter → Bool) (h : isSquad s w q) :
    (sqAt (releaseWhere s w q ends) w q).waiters = (sqAt s w q).waiters.filter (fun x => !ends x) := by
  unfold releaseWhere
  dsimp only
  split
  · rename_i hnone
    refine (List.filter_eq_self.2 (fun x hx => ?_)).symm
    simpa using List.filter_eq_nil_iff.1 (List.isEmpty_iff.1 hnone) x hx
  · rw [(sqAt_reenter _ w q _ 2 (isSquad_modSq _ h)).1, sqAt_modSq_self s w q _ h.1 h.2]

theorem waiters_endWaits (s : State) (w q : Nat) (ends : Waiter → Bool) (h : isSquad s w q) :
    (sqAt (endWaits s w q ends) w q).waiters = (sqAt s w q).waiters.filter (fun x => !ends x) := by
  unfold endWaits
  dsimp only
  rw [waiters_releaseWhere _ w q ends (isSquad_modSq _ h), sqAt_modSq_self s w q _ h.1 h.2]

/-- The end of waits, for one of them: it ends, or goes on. -/
theorem endWaits_waiter (s : State) (w q : Nat) (ends : Waiter → Bool) (x : Waiter) (hx : x ∈ (sqAt s w q).waiters) :
    if ends x = true then released (endWaits s w q ends) w q x else x ∈ (sqAt (endWaits s w q ends) w q).waiters := by
  split
  · rename_i h
    exact released_endWaits s w q ends x hx h
  · rename_i h
    rw [waiters_endWaits s w q ends (isSquad_of_waiter hx)]
    exact List.mem_filter.2 ⟨hx, by simpa using h⟩

/-! Last checks (R330). -/

/-- What a change of a squad keeps is as before in the state. -/
theorem sqAt_modSq_keeps {α : Type} (view : Squad → α) (s : State) (w q : Nat) (f : Squad → Squad) (hf : ∀ x, view (f x) = view x) :
    view (sqAt (modSq s w q f) w q) = view (sqAt s w q) := by
  by_cases h : isSquad s w q
  · rw [sqAt_modSq_self s w q f h.1 h.2, hf]
  · have hid : modSq s w q f = s := by
      by_cases hw : w < s.wgs.length
      · have hq : (wgAt s w).squads.length ≤ q := Nat.le_of_not_lt (fun hq => h ⟨hw, hq⟩)
        refine (modWg_congr (g := id) ?_).trans (congrArg (fun l => { s with wgs := l }) (modAt_same id (fun _ => rfl) s.wgs w))
        rw [modAt_of_length_le _ q f hq]
        rfl
      · exact congrArg (fun l => { s with wgs := l }) (modAt_of_length_le s.wgs w _ (Nat.le_of_not_lt hw))
    rw [hid]

theorem checks_reenterGroup (w q delay : Nat) (s : State) (x : Released) :
    (sqAt (reenterGroup w q delay s x) w q).checks = (sqAt s w q).checks := by
  unfold reenterGroup
  dsimp only
  split
  · exact sqAt_modSq_keeps Squad.checks _ _ _ _ (fun _ => rfl)
  · exact sqAt_modSq_keeps Squad.checks _ _ _ _ (fun sq => by rw [placeEntry_only])

theorem checks_endWaits (s : State) (w q : Nat) (ends : Waiter → Bool) : (sqAt (endWaits s w q ends) w q).checks = (sqAt s w q).checks := by
  have hrelease : ∀ s, (sqAt (releaseWhere s w q ends) w q).checks = (sqAt s w q).checks := by
    intro s
    unfold releaseWhere
    dsimp only
    split
    · rfl
    · rw [reenter_eq, foldl_keeps (fun s => (sqAt s w q).checks) _ (fun t x => checks_reenterGroup w q 2 t x),
        sqAt_modSq_keeps Squad.checks]
      exact fun _ => rfl
  unfold endWaits
  dsimp only
  rw [hrelease, sqAt_modSq_keeps Squad.checks]
  exact fun _ => rfl

/-! Clause waits (R34). -/

theorem splitClauseLoads_keeps {s : State} {w q : Nat} {x : Waiter} {h : Word} (hx : x ∈ (sqAt s w q).waiters) (hk : clauseHdr x = some h)
    (h6 : bitsOf h.toNat 20 18 ≠ 6) : x ∈ (sqAt (splitClauseLoads s w q) w q).waiters := by
  obtain ⟨hw, hq⟩ := isSquad_of_waiter hx
  have hhdr : x.next.hdr = h := by
    unfold clauseHdr at hk
    split at hk <;> simp_all
  unfold splitClauseLoads
  rw [sqAt_modSq_self s w q _ hw hq]
  refine List.mem_flatMap.2 ⟨x, hx, ?_⟩
  simp [hhdr, h6]

theorem clauseReady_splitClauseLoads (s : State) (w q lb : Nat) (m : BitVec 32) (hdr : Word) (h : isSquad s w q) :
    clauseReady (splitClauseLoads s w q) w q lb m hdr = clauseReady s w q lb m hdr := by
  unfold clauseReady splitClauseLoads
  rw [sqAt_modSq_self s w q _ h.1 h.2, wgAt_modSq_self s w q _ h.1]
  rfl

@[simp] theorem still_splitClauseLoads (s : State) (w q : Nat) : still (splitClauseLoads s w q) = still s :=
  still_modSq_same _ _ _ _ (fun _ => rfl)

/-- The clause waits that a test ends. -/
def clauseEnds (s : State) (w q : Nat) (x : Waiter) : Bool :=
  match clauseHdr x with
  | some h => clauseReady s w q x.lb x.mask h
  | none => false

theorem testClauses_eq (s : State) (w q : Nat) :
    testClauses s w q = endWaits (splitClauseLoads s w q) w q (clauseEnds (splitClauseLoads s w q) w q) := rfl

@[simp] theorem still_testClauses (s : State) (w q : Nat) : still (testClauses s w q) = still s := by
  rw [testClauses_eq, still_endWaits, still_splitClauseLoads]

/-- A clause wait, one for loads apart, ends if its condition holds. -/
theorem testClauses_waiter {s : State} {w q : Nat} {x : Waiter} {h : Word} (hx : x ∈ (sqAt s w q).waiters) (hk : clauseHdr x = some h)
    (h6 : bitsOf h.toNat 20 18 ≠ 6) :
    if clauseReady s w q x.lb x.mask h then released (testClauses s w q) w q x else x ∈ (sqAt (testClauses s w q) w q).waiters := by
  have hends : clauseEnds (splitClauseLoads s w q) w q x = clauseReady s w q x.lb x.mask h := by
    simp only [clauseEnds, hk, clauseReady_splitClauseLoads s w q _ _ _ (isSquad_of_waiter hx)]
  rw [testClauses_eq, ← hends]
  exact endWaits_waiter _ w q _ x (splitClauseLoads_keeps hx hk h6)

/-! Instruction lines (R67). -/

theorem cachedLine_of_appended {s : State} {core ctx line : Nat} {bs : List Byte} {l : List ((Nat × Nat) × List Byte)}
    (h : (coreAt s core).l1i = l ++ [((ctx, line), bs)]) (hl : ∀ p ∈ l, p.1 ≠ (ctx, line)) : cachedLine s core ctx line = some bs := by
  have hnone : l.find? (fun p => p.1 == (ctx, line)) = none := List.find?_eq_none.2 (fun p hp => by simpa using hl p hp)
  simp [cachedLine, h, hnone]

/-- A line that is filled is there. -/
theorem cachedLine_l1iFill {s : State} {core ctx line : Nat} (bs : List Byte) (h : cachedLine s core ctx line = none) :
    cachedLine (l1iFill s core ctx line bs) core ctx line = some bs := by
  have hnone : ∀ p ∈ (coreAt s core).l1i, p.1 ≠ (ctx, line) := by
    intro p hp
    have := List.find?_eq_none.1 (Option.map_eq_none_iff.1 h) p hp
    simpa using this
  unfold l1iFill
  dsimp only
  split
  · exact cachedLine_of_appended (by rw [coreAt_modCore_self]) hnone
  · exact cachedLine_of_appended (by rw [coreAt_modCore_self]; rfl) (fun p hp => hnone p (List.mem_filter.1 hp).1)

theorem l1iFill_frame (s : State) (core ctx line : Nat) (bs : List Byte) :
    (l1iFill s core ctx line bs).mem = s.mem ∧ (l1iFill s core ctx line bs).wgs = s.wgs := by
  unfold l1iFill
  dsimp only
  split <;> exact ⟨rfl, rfl⟩

/-! Registers of a retired lane block (R78, R240). -/

theorem Map.find_filter {α : Type} (keep : Nat → Bool) (m : Map α) (k : Nat) :
    Map.find (m.filter (fun x => keep x.1)) k = if keep k then Map.find m k else none := by
  induction m with
  | nil => simp [Map.find]
  | cons x m ih =>
    obtain ⟨j, v⟩ := x
    by_cases hj : j = k
    · subst hj
      by_cases hk : keep j = true
      · simp [Map.find, hk]
      · rw [List.filter_cons_of_neg (by simpa using hk), ih, if_neg hk, if_neg hk]
    · by_cases hk : keep j = true
      · rw [List.filter_cons_of_pos (by simpa using hk)]
        simp only [Map.find, hj, if_false, ih]
      · rw [List.filter_cons_of_neg (by simpa using hk), ih]
        simp only [Map.find, hj, if_false]

theorem Map.getD_filter {α : Type} (keep : Nat → Bool) (m : Map α) (k : Nat) (d : α) :
    Map.getD (m.filter (fun x => keep x.1)) k d = if keep k then Map.getD m k d else d := by
  unfold Map.getD
  rw [Map.find_filter]
  split <;> rfl

theorem mayRetireBlock_iff (sq : Squad) (lb : Nat) : mayRetireBlock sq lb = true ↔
    lb < sq.nlb ∧ exitedOf sq lb = BitVec.allOnes 32 ∧ lb ∉ sq.retired ∧ ∀ p ∈ sq.loads, p.2.lb ≠ lb := by
  simp only [mayRetireBlock, Bool.and_eq_true, Bool.not_eq_true', decide_eq_true_eq, beq_iff_eq, List.any_eq_false, List.contains_eq_mem,
    decide_eq_false_iff_not, and_assoc, ne_eq]

/-- A squad whose lane block `lb` has given up its registers. -/
def blockRetired (lb : Nat) (sq : Squad) : Squad :=
  { sq with
    retired := sq.retired ++ [lb]
    v := sq.v.filter (fun x => x.1 / 256 != lb || (suppliedItems sq).contains (itemV lb (x.1 % 256)))
    p := sq.p.filter (fun x => x.1 / 8 != lb), x := sq.x.filter (fun x => x.1 / 4 != lb), j := sq.j.filter (fun x => x.1 / 16 != lb) }

theorem vget_blockRetired (sq : Squad) (lb b r l : Nat) (hr : r < 256) :
    vget (blockRetired lb sq) b r l = if b = lb ∧ (suppliedItems sq).contains (itemV b r) = false then 0 else vget sq b r l := by
  have hdiv : (b * 256 + r) / 256 = b := by omega
  have hmod : (b * 256 + r) % 256 = r := by omega
  unfold vget blockRetired
  dsimp only
  rw [Map.getD_filter (fun k => k / 256 != lb || (suppliedItems sq).contains (itemV lb (k % 256))), hdiv, hmod]
  by_cases hb : b = lb
  · subst hb
    cases (suppliedItems sq).contains (itemV b r) <;> simp
  · simp [hb]

theorem pget_blockRetired (sq : Squad) (lb b k : Nat) (hk : k < 7) :
    pget (blockRetired lb sq) b k = if b = lb then 0 else pget sq b k := by
  have hdiv : (b * 8 + k) / 8 = b := by omega
  have h7 : k ≠ 7 := by omega
  unfold pget blockRetired
  simp only [if_neg h7]
  rw [Map.getD_filter (fun k => k / 8 != lb), hdiv]
  by_cases hb : b = lb <;> simp [hb]

theorem xget_blockRetired (sq : Squad) (lb b k l : Nat) (hk : k < 4) :
    xget (blockRetired lb sq) b k l = if b = lb then (0, 0) else xget sq b k l := by
  have hdiv : (b * 4 + k) / 4 = b := by omega
  unfold xget blockRetired
  dsimp only
  rw [Map.getD_filter (fun k => k / 4 != lb), hdiv]
  by_cases hb : b = lb <;> simp [hb]

theorem joinOf_blockRetired (sq : Squad) (lb b k : Nat) (hk : k < 16) :
    joinOf (blockRetired lb sq) b k = if b = lb then { enr := 0, arr := 0 } else joinOf sq b k := by
  have hdiv : (b * 16 + k) / 16 = b := by omega
  unfold joinOf blockRetired
  dsimp only
  rw [Map.getD_filter (fun k => k / 16 != lb), hdiv]
  by_cases hb : b = lb <;> simp [hb]

/-! The events. -/

theorem exec_regroup {s : State} {w q n : Nat} (harg : s.arg = .ids w q n) (hc : (sqAt s w q).cycle % 4 = 0)
    (hr : (sqAt s w q).regrouped = false) : exec .regroup s = .next (modSq s w q (regroupSquad (versionOf s w) (peekWord s w))) := by
  show execRegroup s = _
  simp [execRegroup, harg, hc, hr]

theorem exec_regroup_idle {s : State} {w q n : Nat} (harg : s.arg = .ids w q n)
    (h : (sqAt s w q).cycle % 4 ≠ 0 ∨ (sqAt s w q).regrouped = true) : exec .regroup s = .next s := by
  have hnot : ¬((sqAt s w q).cycle % 4 = 0 ∧ (!(sqAt s w q).regrouped) = true) := by
    rcases h with h | h <;> simp [h]
  show execRegroup s = _
  simp only [execRegroup, harg, if_neg hnot]

theorem exec_clauseWaitRelease {s : State} {w q n : Nat} (harg : s.arg = .ids w q n) :
    exec .clauseWaitRelease s = .next (testClauses s w q) := by
  show execClauseWaitRelease s = _
  simp only [execClauseWaitRelease, harg]

/-- The machine without a last check. -/
def withoutCheck (s : State) (w q k : Nat) : State := modSq s w q (fun sq => { sq with checks := Map.del sq.checks k })

theorem exec_lastCheckCompletion {s : State} {w q k : Nat} {c : Check} (harg : s.arg = .ids w q k)
    (hk : Map.find (sqAt s w q).checks k = some c) (hdue : c.due ≤ (sqAt s w q).cycle) :
    exec .lastCheckCompletion s = .next (endWaits (withoutCheck s w q k) w q (fun x => x.why == .check k)) := by
  show execLastCheckCompletion s = _
  simp [execLastCheckCompletion, harg, hk, hdue, withoutCheck]

theorem exec_lastCheckCompletion_idle {s : State} {w q k : Nat} (harg : s.arg = .ids w q k)
    (h : ∀ c, Map.find (sqAt s w q).checks k = some c → (sqAt s w q).cycle < c.due) : exec .lastCheckCompletion s = .next s := by
  have hnone : ((Map.find (sqAt s w q).checks k).any (fun c => decide (c.due ≤ (sqAt s w q).cycle))) = false := by
    cases hk : Map.find (sqAt s w q).checks k with
    | none => rfl
    | some c => simpa using h c hk
  show execLastCheckCompletion s = _
  simp only [execLastCheckCompletion, harg, hnone, Bool.false_eq_true, if_false]

theorem exec_ifetchLineArrival {s r : State} {w line n x : Nat} {a : Acc} (harg : s.arg = .ids w line n) (hwants : wantsLine s w line = true)
    (hline : cachedLine s (wgAt s w).core (fetchCtx (wgAt s w)) line = none)
    (hcheck : fetchCheck s (wgAt s w).core (wgAt s w).ctx ((wgAt s w).level == 2) (BitVec.ofNat 52 (line * 128)) = (r, .ok a))
    (hloc : a.loc = .local x) :
    let t := keyLine r (lineOf x) a.attr.key
    exec .ifetchLineArrival s =
      .next (l1iFill t (wgAt s w).core (fetchCtx (wgAt s w)) line (Memory.readAll t.mem (lineOf x * 128) 128)) := by
  show execIfetchLineArrival s = _
  simp [execIfetchLineArrival, harg, hwants, hline, hcheck, fetchLine, hloc]

/-- The machine without the entries formed under a number. -/
def withoutFormed (s : State) (w q n : Nat) : State :=
  modSq s w q (fun sq => { sq with
    frontier := sq.frontier.filter (fun f => f.formed != n), overflow := sq.overflow.filter (fun f => f.formed != n) })

theorem exec_convergenceTimeout {s : State} {w q n : Nat} {e : Entry} (harg : s.arg = .ids w q n)
    (hfind : ((sqAt s w q).frontier ++ (sqAt s w q).overflow).find? (fun e => e.formed == n && decide (Config.partnerLimit ≤ e.pwait)) = some e) :
    exec .convergenceTimeout s =
      .next (faultIssue (withoutFormed s w q n) { wg := w, sq := q, e := e, guard := 7, words := 0 } e.mask (faultInfo 0x07 0)) := by
  show execConvergenceTimeout s = _
  simp only [execConvergenceTimeout, harg, hfind]
  rfl

theorem exec_laneBlockRetirement {s : State} {w q lb : Nat} (harg : s.arg = .ids w q lb) :
    exec .laneBlockRetirement s = .next (if mayRetireBlock (sqAt s w q) lb then modSq s w q (blockRetired lb) else s) := by
  show execLaneBlockRetirement s = _
  simp only [execLaneBlockRetirement, harg]
  rfl

/-- A whole-issue fault changes no entry. -/
theorem entries_faultIssue (s : State) (u : Bundle) (m : BitVec 32) (i : FaultInfo) :
    (squadOf (faultIssue s u m i) u).entries = (squadOf s u).entries := by
  unfold faultIssue
  split
  · rfl
  · unfold squadOf
    rw [sqAt_of_wgs (wgs_reportThread _ _ _ _ _ _)]
    exact sqAt_modSq_keeps Squad.entries _ _ _ _ (fun _ => rfl)

theorem exists_inMask_of_ne_zero {m : BitVec 32} (h : m ≠ 0) : ∃ l, l < 32 ∧ inMask m l = true := by
  by_contra hnone
  refine h (mask_ext m 0 (fun l hl => ?_))
  have hl' : ¬ inMask m l = true := fun k => hnone ⟨l, hl, k⟩
  simpa using hl'

/-- Settles O42: regrouping permutes and merges entries, ended waits stand at their next place, and each event of a squad does what its rule says. -/
theorem regroupingAndWaits : Obligations.RegroupingAndWaits := by
  refine ⟨⟨?_, ?_⟩, ⟨?_, ?_, ?_⟩, ?_, ?_, ?_, ?_⟩
  · rintro w q n s harg ⟨hsq, hc, hr, hn⟩
    obtain ⟨hregrouped, hfull, honly⟩ := regrouped_regroupSquad (versionOf s w) (peekWord s w) (sqAt s w q) hn
    refine ⟨_, exec_regroup harg hc hr, ?_⟩
    dsimp only
    rw [sqAt_modSq_self s w q _ hsq.1 hsq.2]
    exact ⟨modSq_congr honly, hregrouped.stand, hregrouped.alone, hregrouped.apart, hfull, hregrouped.cleared⟩
  · exact fun w q n s harg h => exec_regroup_idle harg h
  · rintro w q n s harg -
    exact ⟨_, exec_clauseWaitRelease harg, still_testClauses s w q, fun x hx h hk h6 => testClauses_waiter hx hk h6⟩
  · rintro w q k s harg ⟨hsq, c, hk, hdue⟩
    refine ⟨_, exec_lastCheckCompletion harg hk hdue, ?_, ?_, fun x hx => ?_⟩
    · rw [still_endWaits]
      exact still_modSq_same _ _ _ _ (fun _ => rfl)
    · rw [checks_endWaits, withoutCheck, sqAt_modSq_self s w q _ hsq.1 hsq.2]
      simp [Map.find_del]
    · have hx' : x ∈ (sqAt (withoutCheck s w q k) w q).waiters := by
        rw [withoutCheck, sqAt_modSq_self s w q _ hsq.1 hsq.2]
        exact hx
      simpa only [beq_iff_eq] using endWaits_waiter _ w q (fun x => x.why == .check k) x hx'
  · exact fun w q k s harg h => exec_lastCheckCompletion_idle harg h
  · rintro w line n r a x s harg ⟨hwants, hline, hcheck, hloc⟩
    refine ⟨_, exec_ifetchLineArrival harg hwants hline hcheck hloc, ?_⟩
    have hchecked : OnlyChecked s (keyLine r (lineOf x) a.attr.key) := by
      have h := fetchCheck_checked s (wgAt s w).core (wgAt s w).ctx ((wgAt s w).level == 2) (BitVec.ofNat 52 (line * 128))
      rw [hcheck] at h
      exact h.trans (keyLine_checked r _ _)
    have hline' : cachedLine (keyLine r (lineOf x) a.attr.key) (wgAt s w).core (fetchCtx (wgAt s w)) line = none := by
      unfold cachedLine coreAt at hline ⊢
      rw [hchecked.cores]
      exact hline
    obtain ⟨hmem, hwgs⟩ := l1iFill_frame (keyLine r (lineOf x) a.attr.key) (wgAt s w).core (fetchCtx (wgAt s w)) line
      (Memory.readAll (keyLine r (lineOf x) a.attr.key).mem (lineOf x * 128) 128)
    exact ⟨by rw [hmem]; exact cachedLine_l1iFill _ hline', hmem, hwgs.trans hchecked.wgs⟩
  · rintro w q n e s harg ⟨hsq, hmask, hfind⟩
    let u : Bundle := { wg := w, sq := q, e := e, guard := 7, words := 0 }
    have hsq' : isSquad (withoutFormed s w q n) w q := isSquad_modSq _ hsq
    have hmet : ∀ l, inMask e.mask l = true → met (faultIssue (withoutFormed s w q n) u e.mask (faultInfo 0x07 0)) u l (.parked e.place 0x07 0) :=
      fun l hl => faultIssue_met _ u e.mask (faultInfo 0x07 0) l hsq'.1 hsq'.2 hl ⟨by decide, by decide, by decide, by decide⟩
    refine ⟨_, exec_convergenceTimeout harg hfind, ?_, ?_, ?_, fun l _ hl => (hmet l hl).1⟩
    · rw [still_faultIssue]
      exact still_modSq_same _ _ _ _ (fun _ => rfl)
    · intro f hf
      have hentries : f ∈ (sqAt (withoutFormed s w q n) w q).entries := entries_faultIssue (withoutFormed s w q n) u e.mask (faultInfo 0x07 0) ▸ hf
      rw [withoutFormed, sqAt_modSq_self s w q _ hsq.1 hsq.2, Squad.entries, ← List.filter_append] at hentries
      simpa using (List.mem_filter.1 hentries).2
    · obtain ⟨l, -, hl⟩ := exists_inMask_of_ne_zero hmask
      exact (hmet l hl).2
  · rintro w q lb s harg ⟨hsq, hlb, hexited, hretired, hloads⟩
    have hmay := (mayRetireBlock_iff (sqAt s w q) lb).2 ⟨hlb, hexited, hretired, hloads⟩
    refine ⟨_, (exec_laneBlockRetirement harg).trans (by rw [if_pos hmay]), ?_⟩
    dsimp only
    rw [sqAt_modSq_self s w q _ hsq.1 hsq.2]
    exact ⟨modSq_congr rfl, fun b r l hr => vget_blockRetired _ lb b r l hr, fun b k hk => pget_blockRetired _ lb b k hk,
      fun b k l hk => xget_blockRetired _ lb b k l hk, fun b k hk => joinOf_blockRetired _ lb b k hk⟩
  · intro w q lb s harg h
    have hmay : ¬ mayRetireBlock (sqAt s w q) lb = true := by
      rw [mayRetireBlock_iff]
      rintro ⟨hlb, hexited, -, hloads⟩
      rcases h with h | h | ⟨p, hp, hplb⟩
      · omega
      · exact h hexited
      · exact hloads p hp hplb
    rw [exec_laneBlockRetirement harg, if_neg hmay]

end Sys2Proof.Machine
end

section
/-! PROOF. Launch queues and admission: what the launch unit's events leave of queues and launches (R28, R106 to R108, R365, R378). -/

namespace Sys2Proof.Machine

/-! The first in the order of a key. -/

theorem keyLt_asymm : ∀ a b : List Nat, keyLt a b = true → keyLt b a = false
  | [], _, h => by simp [keyLt] at h
  | _ :: _, [], h => by simp [keyLt] at h
  | a :: as, b :: bs, h => by
    rcases Nat.lt_trichotomy a b with hab | rfl | hab
    · simp [keyLt, hab, Nat.not_lt_of_gt hab]
    · simp only [keyLt, Nat.lt_irrefl, if_false] at h ⊢
      exact keyLt_asymm as bs h
    · simp [keyLt, hab, Nat.not_lt_of_gt hab] at h

/-- Keys of one length that are not below one another compare as numbers do. -/
theorem keyLt_false_trans : ∀ a b c : List Nat, a.length = b.length → b.length = c.length → keyLt a b = false → keyLt b c = false →
    keyLt a c = false
  | [], _, _, _, _, _, _ => by simp [keyLt]
  | a :: as, b :: bs, c :: cs, h1, h2, hab, hbc => by
    have ih := keyLt_false_trans as bs cs (by simpa using h1) (by simpa using h2)
    simp only [keyLt] at hab hbc ⊢
    split at hab
    · simp at hab
    split at hbc
    · simp at hbc
    split at hab <;> split at hbc
    · rw [if_neg (by omega), if_pos (by omega)]
    · rw [if_neg (by omega), if_pos (by omega)]
    · rw [if_neg (by omega), if_pos (by omega)]
    · rw [if_neg (by omega), if_neg (by omega)]
      exact ih hab hbc

theorem firstBy_isSome {α : Type} (key : α → List Nat) {l : List α} (h : l ≠ []) : ∃ y, firstBy key l = some y := by
  cases l with
  | nil => exact absurd rfl h
  | cons x xs =>
    unfold firstBy
    split
    · exact ⟨x, rfl⟩
    · split <;> exact ⟨_, rfl⟩

/-- The first of a list is in it, and nothing in it comes before. -/
theorem firstBy_least {α : Type} (key : α → List Nat) (n : Nat) (hn : ∀ x, (key x).length = n) : ∀ (l : List α) (y : α), firstBy key l = some y →
    y ∈ l ∧ ∀ z ∈ l, keyLt (key z) (key y) = false
  | [], _, h => by simp [firstBy] at h
  | x :: xs, y, h => by
    have hself : keyLt (key x) (key x) = false := by
      by_contra hx
      have hx' : keyLt (key x) (key x) = true := by simpa using hx
      exact hx (keyLt_asymm _ _ hx')
    unfold firstBy at h
    split at h
    · rename_i hnone
      have hxs : xs = [] := by
        by_contra hne
        obtain ⟨z, hz⟩ := firstBy_isSome key hne
        simp [hz] at hnone
      obtain rfl := Option.some.inj h
      subst hxs
      exact ⟨by simp, by simpa using hself⟩
    · rename_i z hz
      obtain ⟨hmem, hleast⟩ := firstBy_least key n hn xs z hz
      split at h
      · rename_i hlt
        obtain rfl := Option.some.inj h
        exact ⟨List.mem_cons_of_mem _ hmem, List.forall_mem_cons.2 ⟨keyLt_asymm _ _ hlt, hleast⟩⟩
      · rename_i hlt
        obtain rfl := Option.some.inj h
        refine ⟨by simp, List.forall_mem_cons.2 ⟨hself, fun w hw => ?_⟩⟩
        exact keyLt_false_trans _ _ _ ((hn w).trans (hn z).symm) ((hn z).trans (hn x).symm) (hleast w hw) (by simpa using hlt)

/-- What comes before everything else of a list is its first. -/
theorem firstBy_eq_of_lt {α : Type} (key : α → List Nat) (n : Nat) (hn : ∀ x, (key x).length = n) {l : List α} {y : α} (hy : y ∈ l)
    (h : ∀ z ∈ l, z ≠ y → keyLt (key y) (key z) = true) : firstBy key l = some y := by
  obtain ⟨z, hz⟩ := firstBy_isSome key (List.ne_nil_of_mem hy)
  obtain ⟨hmem, hleast⟩ := firstBy_least key n hn l z hz
  by_cases hzy : z = y
  · rw [hz, hzy]
  · have hlt := h z hmem hzy
    rw [hleast y hy] at hlt
    simp at hlt

/-! A queue's tail (R378). -/

theorem exec_qtailWrite {s : State} {q : Nat} {v : BitVec 64} (harg : s.arg = .value q v) (hq : q < 64)
    (hcfg : (queueOf s q).cfg.getLsbD 29 = false) :
    exec .qtailWrite s = .next (if queueSlots (queueOf s q) < ((v.truncate 16 : BitVec 16) - (queueOf s q).head).toNat then setPerr s
      else setQueue s q { queueOf s q with tail := v.truncate 16 }) := by
  have htaken : ¬(64 ≤ q ∨ (queueOf s q).cfg.getLsbD 29 = true) := by
    rintro (h | h)
    · omega
    · exact Bool.false_ne_true (hcfg.symm.trans h)
  show execQtailWrite s = _
  simp only [execQtailWrite, harg, if_neg htaken]

theorem exec_qtailWrite_idle {s : State} {q : Nat} {v : BitVec 64} (harg : s.arg = .value q v)
    (h : 64 ≤ q ∨ (queueOf s q).cfg.getLsbD 29 = true) : exec .qtailWrite s = .next s := by
  show execQtailWrite s = _
  simp only [execQtailWrite, harg, if_pos h]

/-! What the launch unit reads changes nothing that it keeps. -/

theorem physWords_checked (s : State) (pa n : Nat) : OnlyChecked s (physWords s pa n).1 := rfl

theorem contextWords_checked (s : State) (ctx va al n : Nat) : OnlyChecked s (contextWords s ctx va al n).1 := by
  unfold contextWords
  split
  · exact .refl s
  · have h := access_checked s unitView ctx false (BitVec.ofNat 64 va) .load
    generalize access s unitView ctx false (BitVec.ofNat 64 va) .load = x at h ⊢
    obtain ⟨r, e | a⟩ := x
    · exact h
    · dsimp only
      split
      · split
        · exact h
        · exact h.trans (keyLine_checked _ _ _)
      · exact h.trans rfl

theorem OnlyChecked.queueOf {s t : State} (h : OnlyChecked s t) (q : Nat) : queueOf t q = queueOf s q := by
  rw [h]
  rfl

/-! Taking a record (R105 to R108). -/

/-- What enqueueing into a queue keeps: the launches, and the queue's head. -/
def launchesAndHead (q : Nat) (s : State) : List Launch × BitVec 16 := (s.launches, (queueOf s q).head)

theorem launchesAndHead_of_still {s t : State} (e : still s = still t) (q : Nat) : launchesAndHead q s = launchesAndHead q t := by
  have h := congrArg (launchesAndHead q) e
  exact h

theorem launchesAndHead_enqueue (s : State) (q : Nat) (ws : List Word) : launchesAndHead q (enqueue s q ws) = launchesAndHead q s := by
  have hlaunches : ∀ pa bs, (physWrite s pa bs).launches = s.launches := by
    intro pa bs
    unfold physWrite
    split <;> rfl
  simp [launchesAndHead, enqueue, queueOf, hlaunches]

theorem launchesAndHead_settleSlots (s : State) (q : Nat) : launchesAndHead q (settleSlots s q) = launchesAndHead q s := by
  refine foldl_keeps _ _ (fun s w => foldl_keeps _ _ (fun s i => foldl_keeps _ _ (fun s x => ?_) _ s) _ s) _ s
  split
  · split
    · rw [launchesAndHead_of_still (still_endWaits _ _ _ _)]
      exact launchesAndHead_enqueue s q _
    · rfl
  · rfl

/-- The launch that a queue's record becomes. -/
def launchOf (s : State) (q : Nat) (r k : List Word) (refused : Option Nat) : Launch :=
  let x := queueOf s q
  { blankLaunch with
    ctx := bitsOf x.cfg.toNat 15 0, queue := q, slot := x.head.toNat % queueSlots x, rec_ := r, khw := k, refused := refused, stage := 3 }

theorem takeRecordOf_takes (s : State) (q : Nat) (r k : List Word) (refused : Option Nat) :
    (takeRecordOf s q r k refused).launches = s.launches ++ [launchOf s q r k refused]
      ∧ (queueOf (takeRecordOf s q r k refused) q).head = (queueOf s q).head + 1 := by
  have h : launchesAndHead q (takeRecordOf s q r k refused) = (s.launches ++ [launchOf s q r k refused], (queueOf s q).head + 1) := by
    unfold takeRecordOf
    rw [launchesAndHead_settleSlots]
    simp [launchesAndHead, queueOf, launchOf]
  exact Prod.mk.inj h

/-- A record whose header cannot be read, for its context or its alignment. -/
theorem exec_launchRecordSelection_unreadable {s : State} {q : Nat} (hq : nextQueue s = some q)
    (h : Map.find s.ctxs (bitsOf (queueOf s q).cfg.toNat 15 0) = none ∨ recImage (physWords s (nextSlot s q) 16).2 % 128 ≠ 0) :
    exec .launchRecordSelection s =
      .next (takeRecordOf (physWords s (nextSlot s q) 16).1 q (physWords s (nextSlot s q) 16).2 [] (some 1)) := by
  show execLaunchRecordSelection s = _
  have hbad : (Map.find s.ctxs (bitsOf (queueOf s q).cfg.toNat 15 0)).isNone = true ∨ recImage (physWords s (nextSlot s q) 16).2 % 128 ≠ 0 :=
    h.imp (fun h => by rw [h]; rfl) id
  simp only [execLaunchRecordSelection, hq, if_pos hbad]

/-- A record whose header is read. -/
theorem exec_launchRecordSelection_read {s u : State} {q : Nat} {k : List Word} (hq : nextQueue s = some q)
    (hctx : (Map.find s.ctxs (bitsOf (queueOf s q).cfg.toNat 15 0)).isSome = true)
    (hal : recImage (physWords s (nextSlot s q) 16).2 % 128 = 0)
    (hread : contextWords (physWords s (nextSlot s q) 16).1 (bitsOf (queueOf s q).cfg.toNat 15 0) (recImage (physWords s (nextSlot s q) 16).2) 128 8
      = (u, .ok k)) :
    let r := physWords s (nextSlot s q) 16
    exec .launchRecordSelection s = .next (takeRecordOf u q r.2 k
      ((headerRefusal k).or (recordRefusal r.2 k (tagGood u q r.2 (physWords r.1 (nextSlot s q + 64) 4).2)))) := by
  have hgood : ¬((Map.find s.ctxs (bitsOf (queueOf s q).cfg.toNat 15 0)).isNone = true ∨ recImage (physWords s (nextSlot s q) 16).2 % 128 ≠ 0) := by
    rw [Option.isSome_iff_ne_none] at hctx
    simp [hctx, hal]
  show execLaunchRecordSelection s = _
  simp only [execLaunchRecordSelection, hq, if_neg hgood, hread]
  cases headerRefusal k <;> rfl

theorem nextQueue_eligible {s : State} {q : Nat} (h : nextQueue s = some q) : queueEligible s q = true :=
  (List.mem_filter.1 (firstBy_least _ 2 (fun _ => rfl) _ q h).1).2

/-! Admission (R108). -/

theorem recPri_le (r : List Word) : recPri r ≤ 7 := by
  unfold recPri recBits bitsOf
  omega

/-- The order of admission is that of the keys. -/
theorem keyLt_admissionKey (s : State) (i l : Nat) :
    keyLt (admissionKey s i) (admissionKey s l) = true ↔ admittedBefore (launchAt s i) i (launchAt s l) l := by
  have hi := recPri_le (launchAt s i).rec_
  have hl := recPri_le (launchAt s l).rec_
  simp only [admissionKey, admittedBefore, keyLt]
  split_ifs <;> simp <;> omega

theorem admissible_iff (s : State) (l : Nat) : admissible s l = true ↔
    s.plat.tsy = true ∧ l < s.launches.length ∧ (launchAt s l).stage = 3 ∧ waitsMet s (launchAt s l) = true := by
  simp [admissible, and_assoc]

/-- The launches that may be admitted. -/
def admissibles (s : State) : List Nat := (List.range s.launches.length).filter (admissible s)

theorem mem_admissibles (s : State) (l : Nat) : l ∈ admissibles s ↔ admissible s l = true := by
  rw [admissibles, List.mem_filter, List.mem_range]
  exact and_iff_right_of_imp (fun h => ((admissible_iff s l).1 h).2.1)

/-- The machine with a launch admitted. -/
def afterAdmission (s : State) (l : Nat) : State :=
  let x := launchAt s l
  let id := (ctxAt s x.ctx).lid
  let t := modLaunch s l (fun y => { y with stage := 4, lid := id, order := s.admitted, lastIssue := s.plat.tclk.toNat })
  modCtx { t with admitted := s.admitted + 1 } x.ctx (fun c => { c with lid := (id + 1) % 65536 })

theorem exec_launchAdmission {s : State} {l n m : Nat} (harg : s.arg = .ids l n m) :
    exec .launchAdmission s = .next (if firstBy (admissionKey s) (admissibles s) = some l then afterAdmission s l else s) := by
  show execLaunchAdmission s = _
  simp only [execLaunchAdmission, harg]
  rfl

/-- The context of an admitted launch counts its launch ids. -/
theorem ctxAt_afterAdmission {s : State} {l : Nat} {c : Ctx} (h : Map.find s.ctxs (launchAt s l).ctx = some c) :
    ctxAt (afterAdmission s l) (launchAt s l).ctx = { c with lid := (c.lid + 1) % 65536 } := by
  have hc := ctxAt_of_find s _ c h
  refine (ctxAt_modCtx_self _ _ _ c h).trans ?_
  show { ctxAt s (launchAt s l).ctx with lid := ((ctxAt s (launchAt s l).ctx).lid + 1) % 65536 } = _
  rw [hc]

theorem launchAt_modLaunch_self (s : State) (l : Nat) (f : Launch → Launch) (h : l < s.launches.length) :
    launchAt (modLaunch s l f) l = f (launchAt s l) := modAt_getD_self _ _ _ _ h

theorem launchAt_modLaunch_ne (s : State) (l i : Nat) (f : Launch → Launch) (h : i ≠ l) : launchAt (modLaunch s l f) i = launchAt s i :=
  modAt_getD_ne _ _ _ _ _ h

end Sys2Proof.Machine
end

section
/-! PROOF. Gangs: how their members are planned, reserved and placed, and the obligation (R99, R109, R110, R112, R228). -/

namespace Sys2Proof.Machine

/-! Plans (R109, R110). -/

/-- A plan for members: it names them in order, each on a core of the section. -/
def plansFor (members : List Nat) (sec : Nat) (a : List (Nat × Nat)) : Prop := a.map Prod.fst = members ∧ ∀ m ∈ a, m.2 / 32 = sec

theorem assignEach_names (s : State) (keep : Wg → Bool) (k : List Word) (cores : List Nat) : ∀ (ws : List Nat) (acc a : List (Nat × Nat)),
    assignEach s keep k cores ws acc = some a → a.map Prod.fst = acc.map Prod.fst ++ ws ∧ ∀ m ∈ a, m ∈ acc ∨ m.2 ∈ cores
  | [], acc, a, h => by
    obtain rfl := Option.some.inj h
    exact ⟨by simp, fun m hm => .inl hm⟩
  | w :: ws, acc, a, h => by
    unfold assignEach at h
    split at h
    · rename_i c hc
      obtain ⟨hnames, hcores⟩ := assignEach_names s keep k cores ws _ a h
      refine ⟨by simpa using hnames, fun m hm => ?_⟩
      rcases hcores m hm with hm | hm
      · rcases List.mem_append.1 hm with hm | hm
        · exact .inl hm
        · rw [List.mem_singleton.1 hm]
          exact .inr (List.mem_of_find?_eq_some hc)
      · exact .inr hm
    · simp at h

/-- The members of an aligned gang, four by four on the clusters of a section. -/
theorem plansFor_aligned {members : List Nat} {g : Nat × Nat} {sec : Nat} {clusters : List Nat} (hm : ∀ w ∈ members, g.1 ≤ w ∧ w < g.1 + g.2)
    (hroom : g.2 ≤ 4 * clusters.length) (hsec : ∀ c ∈ clusters, c / 8 = sec) :
    plansFor members sec (members.map (fun w => (w, clusters.getD ((w - g.1) / 4) 0 * 4 + (w - g.1) % 4))) := by
  refine ⟨by simp [Function.comp_def], List.forall_mem_map.2 (fun w hw => ?_)⟩
  have hbound := hm w hw
  have hlt : (w - g.1) / 4 < clusters.length := by omega
  have hc := hsec (clusters.getD ((w - g.1) / 4) 0) (by
    rw [List.getD_eq_getElem _ _ hlt]
    exact List.getElem_mem hlt)
  dsimp only
  omega

theorem mem_gangMembers {s : State} {l : Nat} {g : Nat × Nat} {w : Nat} (h : w ∈ gangMembers s l g) : g.1 ≤ w ∧ w < g.1 + g.2 := by
  obtain ⟨i, hi, rfl⟩ := List.mem_map.1 (List.mem_filter.1 h).1
  have := List.mem_range.1 hi
  omega

theorem plansFor_assignGang {s : State} {keep : Wg → Bool} {k : List Word} {aligned : Bool} {g : Nat × Nat} {members : List Nat} {sec : Nat}
    {a : List (Nat × Nat)} (hm : ∀ w ∈ members, g.1 ≤ w ∧ w < g.1 + g.2) (h : assignGang s keep k aligned g members sec = some a) :
    plansFor members sec a := by
  unfold assignGang at h
  split at h
  · dsimp only at h
    split at h
    · rename_i hroom
      obtain rfl := Option.some.inj h
      refine plansFor_aligned hm hroom (fun c hc => ?_)
      obtain ⟨i, hi, rfl⟩ := List.mem_map.1 (List.mem_filter.1 hc).1
      have := List.mem_range.1 hi
      omega
    · simp at h
  · obtain ⟨hnames, hcores⟩ := assignEach_names s keep k _ members [] a h
    refine ⟨by simpa using hnames, fun m hma => ?_⟩
    obtain ⟨i, hi, hmi⟩ := List.mem_map.1 ((hcores m hma).resolve_left (by simp))
    have := List.mem_range.1 hi
    omega

/-- A gang's plan lies in one section. -/
theorem planGang_plans {s : State} {keep : Wg → Bool} {l : Nat} {g : Nat × Nat} {a : List (Nat × Nat)} (h : planGang s keep l g = some a) :
    ∃ sec, sec < 16 ∧ plansFor (gangMembers s l g) sec a := by
  obtain ⟨i, -, hi⟩ := List.exists_of_findSome?_eq_some h
  dsimp only at hi
  refine ⟨((launchAt s l).nextSection + i) % 16, Nat.mod_lt _ (by decide), ?_⟩
  split at hi
  · rename_i b hb
    split at hi
    · simp at hi
    · obtain rfl := Option.some.inj hi
      exact plansFor_assignGang (fun w hw => mem_gangMembers hw) hb
  · simp at hi

theorem planD_eq {s : State} {keep : Wg → Bool} {l : Nat} {g : Nat × Nat} {a : List (Nat × Nat)} (h : planD s keep l g = some a) :
    a = (gangMembers s l g).map (fun w => (w, w % 512)) := by
  unfold planD at h
  dsimp only at h
  split at h
  · exact (Option.some.inj h).symm
  · simp at h

/-! Members enter (R112, R228). -/

/-- A workgroup of a launch that has just entered, with its number, on its core. -/
structure Entered (x : Launch) (l : Nat) (m : Nat × Nat) (g : Wg) : Prop where
  id : g.id = m.1
  core : g.core = m.2
  launch : g.launch = l
  status : g.status = 0
  level : g.level = 0
  squads : g.squads = (List.range (hdrSquads x.khw)).map (startSquad (recImage x.rec_) x.khw)
  fresh : g.bars = [] ∧ g.tags = 0 ∧ g.rings = [] ∧ g.bufs = []

/-- What does not change while a gang is placed: what its launch says of its kernel. -/
def kernelOf (s : State) (l : Nat) : List Word × List Word := ((launchAt s l).khw, (launchAt s l).rec_)

theorem Entered.of_kernel {s t : State} {l : Nat} {m : Nat × Nat} {g : Wg} (h : Entered (launchAt s l) l m g) (e : kernelOf s l = kernelOf t l) :
    Entered (launchAt t l) l m g := by
  obtain ⟨hk, hr⟩ := Prod.mk.inj e
  exact { h with squads := by rw [← hk, ← hr]; exact h.squads }

theorem startWg_enters (s : State) (l gang size persist : Nat) (aligned : Bool) (m : Nat × Nat) :
    ∃ g, (startWg s l m.2 m.1 persist gang size aligned 0 none none).wgs = s.wgs ++ [g] ∧ Entered (launchAt s l) l m g :=
  ⟨_, rfl, rfl, rfl, rfl, rfl, rfl, rfl, rfl, rfl, rfl, rfl⟩

theorem wgOf_eq_none_iff (s : State) (l id : Nat) : wgOf s l id = none ↔
    ∀ g ∈ s.wgs, ¬(g.launch = l ∧ g.id = id ∧ g.status < 2 ∧ g.trapOf = none) := by
  simp only [wgOf, List.find?_eq_none, List.mem_range, Bool.and_eq_true, beq_iff_eq, decide_eq_true_eq, Option.isNone_iff_eq_none, and_assoc]
  rw [List.forall_mem_iff_getElem]
  refine forall_congr' (fun w => forall_congr' (fun hw => ?_))
  rw [wgAt, List.getD_eq_getElem _ _ hw]

/-- A workgroup of another number leaves a number free. -/
theorem wgOf_append {s t : State} {l id : Nat} {g : Wg} (ht : t.wgs = s.wgs ++ [g]) (hid : g.id ≠ id) (h : wgOf s l id = none) :
    wgOf t l id = none := by
  rw [wgOf_eq_none_iff] at h ⊢
  rw [ht]
  intro x hx
  rcases List.mem_append.1 hx with hx | hx
  · exact h x hx
  · rw [List.mem_singleton.1 hx]
    exact fun hg => hid hg.2.1

/-- New members enter one after another. -/
theorem commitWgAts_enter (l gang size : Nat) (aligned : Bool) (persist : Nat → Nat) : ∀ (a : List (Nat × Nat)) (s : State), freshGang s l a →
    let t := a.foldl (fun s m => commitWgAt s l gang size aligned persist m) s
    t.launches = s.launches ∧ ∃ gs, t.wgs = s.wgs ++ gs ∧ List.Forall₂ (Entered (launchAt s l) l) a gs
  | [], s, _ => ⟨rfl, [], by simp, .nil⟩
  | m :: a, s, ⟨hnodup, hfresh⟩ => by
    obtain ⟨g, hg, hin⟩ := startWg_enters s l gang size (persist m.1) aligned m
    have hstart : commitWgAt s l gang size aligned persist m = startWg s l m.2 m.1 (persist m.1) gang size aligned 0 none none := by
      unfold commitWgAt
      rw [hfresh m List.mem_cons_self]
    obtain ⟨hm, hrest⟩ := List.nodup_cons.1 hnodup
    have hfresh' : freshGang (startWg s l m.2 m.1 (persist m.1) gang size aligned 0 none none) l a := by
      refine ⟨hrest, fun x hx => wgOf_append hg ?_ (hfresh x (List.mem_cons_of_mem _ hx))⟩
      rw [hin.id]
      exact fun hmx => hm (List.mem_map.2 ⟨x, hx, hmx.symm⟩)
    obtain ⟨hlaunches, gs, hgs, hall⟩ := commitWgAts_enter l gang size aligned persist a _ hfresh'
    rw [List.foldl_cons, hstart]
    exact ⟨hlaunches, g :: gs, by rw [hgs, hg, List.append_assoc]; rfl, .cons hin hall⟩

/-! A gang is committed (R99, R109). -/

/-- What the clusters' state and a trap kernel's quarter leave as it is: the workgroups, the launch's kernel, its plan and its place in the rotation. -/
def placingOf (l : Nat) (s : State) : List Wg × (List Word × List Word) × Option (List (Nat × Nat) × Nat × Nat) × Nat :=
  (s.wgs, kernelOf s l, (launchAt s l).placing, (launchAt s l).nextSection)

/-- A change of a launch keeps what it keeps of every launch. -/
theorem launchAt_modLaunch_keeps {α : Type} (view : Launch → α) (s : State) (l i : Nat) (f : Launch → Launch) (h : ∀ x, view (f x) = view x) :
    view (launchAt (modLaunch s l f) i) = view (launchAt s i) := by
  by_cases hi : i = l
  · subst hi
    by_cases hl : i < s.launches.length
    · rw [launchAt_modLaunch_self s i f hl, h]
    · exact congrArg (fun ls => view (ls.getD i blankLaunch)) (modAt_of_length_le s.launches i f (Nat.le_of_not_lt hl))
  · rw [launchAt_modLaunch_ne s l i f hi]

theorem placingOf_commitCluster (s : State) (l i : Nat) (x : Nat × Nat) : placingOf i (commitCluster s l x) = placingOf i s := by
  unfold commitCluster
  split
  · exact congrArg (fun v => (s.wgs, v)) (launchAt_modLaunch_keeps (fun y => ((y.khw, y.rec_), y.placing, y.nextSection)) _ _ _ _ (fun _ => rfl))
  · rfl

theorem trapRecord_checked (s : State) (l : Nat) : OnlyChecked s (trapRecord s l).1 := by
  unfold trapRecord
  have h := contextWords_checked s (launchAt s l).ctx (recTrap (launchAt s l).rec_) 64 16
  dsimp only
  generalize contextWords s (launchAt s l).ctx (recTrap (launchAt s l).rec_) 64 16 = x at h ⊢
  obtain ⟨r, e | t⟩ := x
  · exact h
  · dsimp only
    split
    · exact h
    · have k := contextWords_checked r (launchAt s l).ctx (recAddr t 0) 128 8
      generalize contextWords r (launchAt s l).ctx (recAddr t 0) 128 8 = y at k ⊢
      obtain ⟨r', e | ws⟩ := y <;> exact h.trans k

theorem placingOf_reserveTrap (s : State) (l i : Nat) : placingOf i (reserveTrap s l) = placingOf i s := by
  unfold reserveTrap
  dsimp only
  split
  · have hchecked := trapRecord_checked s l
    have hsame : placingOf i (trapRecord s l).1 = placingOf i s := by
      rw [hchecked]
      rfl
    rw [← hsame]
    exact congrArg (fun v => ((trapRecord s l).1.wgs, v))
      (launchAt_modLaunch_keeps (fun y => ((y.khw, y.rec_), y.placing, y.nextSection)) _ _ _ _ (fun _ => rfl))
  · rfl

/-- The machine with the clusters of a gang committed. -/
def clustersCommitted (s : State) (l gang : Nat) (aligned : Bool) (a : List (Nat × Nat)) : State :=
  if aligned then ((a.map (fun m => (clusterKey gang m.1, m.2 / 4))).dedup).foldl (fun s x => commitCluster s l x) s else s

theorem commitMembers_eq (s : State) (l gang size : Nat) (aligned : Bool) (persist : Nat → Nat) (a : List (Nat × Nat)) :
    commitMembers s l gang size aligned persist a =
      a.foldl (fun s m => commitWgAt s l gang size aligned persist m) (clustersCommitted s l gang aligned a) := rfl

theorem placingOf_clustersCommitted (s : State) (l gang : Nat) (aligned : Bool) (a : List (Nat × Nat)) :
    placingOf l (clustersCommitted s l gang aligned a) = placingOf l s := by
  unfold clustersCommitted
  split
  · exact foldl_keeps _ _ (fun t x => placingOf_commitCluster t l l x) _ s
  · rfl

theorem freshGang_of_wgs {s t : State} (h : t.wgs = s.wgs) {l : Nat} {a : List (Nat × Nat)} (k : freshGang s l a) : freshGang t l a := by
  refine ⟨k.1, fun m hm => ?_⟩
  rw [wgOf_eq_none_iff, h, ← wgOf_eq_none_iff]
  exact k.2 m hm

/-- Committed members stand behind the workgroups there were. -/
theorem commitMembers_enter (s : State) (l gang size : Nat) (aligned : Bool) (persist : Nat → Nat) (a : List (Nat × Nat)) (h : freshGang s l a) :
    ∃ gs, placingOf l (commitMembers s l gang size aligned persist a) =
        (s.wgs ++ gs, kernelOf s l, (launchAt s l).placing, (launchAt s l).nextSection)
      ∧ List.Forall₂ (Entered (launchAt s l) l) a gs := by
  have hview := placingOf_clustersCommitted s l gang aligned a
  rw [commitMembers_eq]
  generalize clustersCommitted s l gang aligned a = s' at hview ⊢
  obtain ⟨hwgs, hkernel, hplan⟩ : s'.wgs = s.wgs ∧ kernelOf s' l = kernelOf s l
      ∧ ((launchAt s' l).placing, (launchAt s' l).nextSection) = ((launchAt s l).placing, (launchAt s l).nextSection) := by
    simpa only [placingOf, Prod.mk.injEq] using hview
  obtain ⟨hlaunches, gs, hgs, hall⟩ := commitWgAts_enter l gang size aligned persist a s' (freshGang_of_wgs hwgs h)
  refine ⟨gs, ?_, hall.imp (fun m g hg => hg.of_kernel hkernel)⟩
  rw [placingOf, kernelOf, launchAt, hlaunches, hgs, ← hplan, ← hkernel, hwgs]
  rfl

/-- Members that entered behind the workgroups there were are a placed gang. -/
theorem gangPlaced_of_entered {s t : State} {l : Nat} {a : List (Nat × Nat)} {gs : List Wg} (ht : t.wgs = s.wgs ++ gs)
    (h : List.Forall₂ (Entered (launchAt s l) l) a gs) : gangPlaced s t l a := by
  refine ⟨by rw [ht, List.length_append, h.length_eq], fun w hw => ?_, fun i m hi => ?_⟩
  · rw [wgAt, ht, List.getD_append _ _ _ _ hw, wgAt]
  · have hat : wgAt t (s.wgs.length + i) = gs.getD i blankWg := by
      rw [wgAt, ht, List.getD_append_right _ _ _ _ (by omega), Nat.add_sub_cancel_left]
    obtain ⟨hia, hm⟩ := List.getElem?_eq_some_iff.1 hi
    have hig : i < gs.length := h.length_eq ▸ hia
    have hin := h.get hia hig
    rw [List.getD_eq_getElem _ _ hig] at hat
    simp only [List.get_eq_getElem, hm] at hin
    rw [hat]
    exact ⟨hin.id, hin.core, hin.launch, hin.status, hin.level, hin.squads, hin.fresh⟩

/-- The pre-empted gang of a launch that a plan places again, the range of workgroups that a plan places, and the launch with its plan done with. -/
def gangAgain (x : Launch) (a : List (Nat × Nat)) : Option (Nat × Nat) :=
  x.again.find? (fun g => a.any (fun y => decide (g.1 ≤ y.1) && decide (y.1 < g.1 + g.2)))
def gangRange (x : Launch) (a : List (Nat × Nat)) : Nat × Nat := (gangAgain x a).getD (x.next, a.length)
def planDone (s : State) (l : Nat) (a : List (Nat × Nat)) : State :=
  modLaunch s l (fun y => { y with
    placing := none
    again := y.again.filter (fun h => some h != gangAgain (launchAt s l) a)
    next := if (gangAgain (launchAt s l) a).isSome then y.next else y.next + a.length })

theorem commitGang_eq (s : State) (l : Nat) (a : List (Nat × Nat)) :
    let x := launchAt s l
    let g := gangRange x a
    commitGang s l a =
      reserveTrap (commitMembers (planDone s l a) l g.1 g.2 (isAligned x g.2) (fun w => if hdrD x.khw then w / 512 else 0) a) l := rfl

/-- A committed gang of fresh workgroups is placed, and its plan is done with. -/
theorem commitGang_places (s : State) (l : Nat) (a : List (Nat × Nat)) (h : freshGang s l a) : gangPlaced s (commitGang s l a) l a
    ∧ (l < s.launches.length → (launchAt (commitGang s l a) l).placing = none)
    ∧ (launchAt (commitGang s l a) l).nextSection = (launchAt s l).nextSection := by
  obtain ⟨gs, hview, hall⟩ := commitMembers_enter (planDone s l a) l (gangRange (launchAt s l) a).1 (gangRange (launchAt s l) a).2
    (isAligned (launchAt s l) (gangRange (launchAt s l) a).2) (fun w => if hdrD (launchAt s l).khw then w / 512 else 0) a h
  have hcommit := (placingOf_reserveTrap _ l l).trans hview
  rw [← commitGang_eq] at hcommit
  simp only [placingOf, Prod.mk.injEq] at hcommit
  obtain ⟨hwgs, -, hplacing, hsection⟩ := hcommit
  have hkernel : kernelOf (planDone s l a) l = kernelOf s l :=
    launchAt_modLaunch_keeps (fun y => (y.khw, y.rec_)) s l l _ (fun _ => rfl)
  refine ⟨gangPlaced_of_entered hwgs (hall.imp (fun m g hg => hg.of_kernel hkernel)), fun hl => ?_, hsection.trans ?_⟩
  · rw [hplacing, planDone, launchAt_modLaunch_self s l _ hl]
  · exact launchAt_modLaunch_keeps Launch.nextSection s l l _ (fun _ => rfl)

/-! The distributor's events. -/

theorem exec_gangReservation_begins {s : State} {l : Nat} {g : Nat × Nat} {a : List (Nat × Nat)} (hplacer : placer s = none)
    (hl : distributing s = some l) (hlow : s.plat.low = false) (hd : hdrD (launchAt s l).khw = false) (hg : nextGang s l = some g)
    (ha : planGang s (fun _ => true) l g = some a) :
    exec .gangReservation s = .next (modLaunch s l (fun y => { y with placing := some (a, 1, s.admitted) })) := by
  unfold placer at hplacer
  show execGangReservation s = _
  simp [execGangReservation, hplacer, hl, hlow, hd, hg, ha]

/-- A launch of higher priority than `l` was admitted since a number of admissions. -/
abbrev higherSince (s : State) (l since : Nat) : Prop :=
  ∃ z ∈ s.launches, z.stage = 4 ∧ z.refused = none ∧ recPri (launchAt s l).rec_ < recPri z.rec_ ∧ since ≤ z.order

theorem exec_gangReservation_reserves {s : State} {l n since : Nat} {a : List (Nat × Nat)} (hplacer : placer s = some l)
    (hplacing : (launchAt s l).placing = some (a, n, since)) (hn : n < a.length) [Decidable (higherSince s l since)] :
    exec .gangReservation s =
      .next (modLaunch s l (fun y => { y with placing := if higherSince s l since then none else some (a, n + 1, since) })) := by
  have hhigher : (s.launches.any (fun y => y.stage == 4 && y.refused.isNone && decide (recPri (launchAt s l).rec_ < recPri y.rec_)
      && decide (since ≤ y.order)) = true) ↔ higherSince s l since := by
    simp [higherSince, and_assoc]
  unfold placer at hplacer
  show execGangReservation s = _
  simp only [execGangReservation, hplacer, hplacing, if_neg (Nat.not_le.2 hn), hhigher]

/-- The machine in which the next gang of a launch looks for room from the section after its plan's (R109). -/
def sectionMoved (s : State) (l : Nat) (a : List (Nat × Nat)) : State :=
  modLaunch s l (fun y => { y with nextSection := (((a.head?.map Prod.snd).getD 0) / 32 + 1) % 16 })

theorem exec_gangCommit {s : State} {l n since : Nat} {a : List (Nat × Nat)} (hplacer : placer s = some l)
    (hplacing : (launchAt s l).placing = some (a, n, since)) (hn : a.length ≤ n) (hlow : s.plat.low = false) :
    exec .gangCommit s = .next (commitGang (sectionMoved s l a) l a) := by
  unfold placer at hplacer
  show execGangCommit s = _
  simp [execGangCommit, hplacer, hplacing, hn, hlow, sectionMoved]

theorem exec_gangCommit_idle {s : State} {l n since : Nat} {a : List (Nat × Nat)} (hplacer : placer s = some l)
    (hplacing : (launchAt s l).placing = some (a, n, since)) (hn : n < a.length) : exec .gangCommit s = .next s := by
  unfold placer at hplacer
  show execGangCommit s = _
  simp [execGangCommit, hplacer, hplacing, Nat.not_le.2 hn]

theorem exec_dLaunchPlacement {s : State} {l : Nat} {g : Nat × Nat} {a : List (Nat × Nat)} (hnone : ∀ y ∈ s.launches, y.placing = none)
    (hlow : s.plat.low = false) (hl : distributing s = some l) (hd : hdrD (launchAt s l).khw = true) (hg : nextGang s l = some g)
    (ha : planD s (fun _ => true) l g = some a) : exec .dLaunchPlacement s = .next (commitGang s l a) := by
  have hany : s.launches.any (fun x => x.placing.isSome) = false := List.any_eq_false.2 (fun y hy => by simp [hnone y hy])
  show execDLaunchPlacement s = _
  simp [execDLaunchPlacement, hany, hlow, hl, hd, hg, ha]

theorem placer_lt {s : State} {l : Nat} (h : placer s = some l) : l < s.launches.length :=
  List.mem_range.1 (List.mem_of_find?_eq_some h)

/-- A gang placed behind the workgroups of a state is so behind those of one with the same workgroups and kernel. -/
theorem gangPlaced_of_kernel {s s' t : State} {l : Nat} {a : List (Nat × Nat)} (hwgs : s'.wgs = s.wgs) (hkernel : kernelOf s' l = kernelOf s l)
    (h : gangPlaced s' t l a) : gangPlaced s t l a := by
  obtain ⟨hk, hr⟩ := Prod.mk.inj hkernel
  unfold gangPlaced wgAt at h ⊢
  rwa [hwgs, hk, hr] at h

/-! The obligation. -/

/-- Settles O48: an event's outcome is an update of queues or of a launch, and a committed gang's members are the workgroups behind those there were. -/
theorem launchesPlaced : Obligations.LaunchesPlaced := by
  refine ⟨⟨?_, ?_, ?_, ?_, ?_, ?_, ?_⟩, ?_, ?_, ?_, ?_, ?_⟩
  · rintro q v s harg ⟨hq, hcfg⟩
    refine ⟨_, exec_qtailWrite harg hq hcfg, ?_⟩
    dsimp only
    split <;> rfl
  · exact fun q v s harg h => exec_qtailWrite_idle harg h
  · rintro x q s - ⟨hq, hbad⟩
    obtain ⟨hlaunches, hhead⟩ := takeRecordOf_takes (physWords s (nextSlot s q) 16).1 q (physWords s (nextSlot s q) 16).2 [] (some 1)
    exact ⟨_, exec_launchRecordSelection_unreadable hq hbad, _, hlaunches, rfl, rfl, rfl, rfl, hhead⟩
  · rintro x q r tag u k s - ⟨hq, hctx, rfl, hal, rfl, hread⟩
    obtain ⟨hlaunches, hhead⟩ := takeRecordOf_takes u q (physWords s (nextSlot s q) 16).2 k
      ((headerRefusal k).or (recordRefusal (physWords s (nextSlot s q) 16).2 k
        (tagGood u q (physWords s (nextSlot s q) 16).2 (physWords (physWords s (nextSlot s q) 16).1 (nextSlot s q + 64) 4).2)))
    have hchecked : OnlyChecked s u := by
      have h := contextWords_checked (physWords s (nextSlot s q) 16).1 (bitsOf (queueOf s q).cfg.toNat 15 0)
        (recImage (physWords s (nextSlot s q) 16).2) 128 8
      rw [hread] at h
      exact (physWords_checked s _ _).trans h
    rw [hchecked.launches] at hlaunches
    rw [hchecked.queueOf] at hhead
    refine ⟨_, exec_launchRecordSelection_read hq hctx hal hread, _, hlaunches, rfl, rfl, rfl, rfl, ?_, rfl, hhead⟩
    rw [launchOf, hchecked.queueOf]
  · intro s q h hq
    have heligible := nextQueue_eligible hq
    rcases h with h | h <;> simp [queueEligible, h] at heligible
  · rintro l n m s harg ⟨htsy, hl, hstage, hwaits, hfirst⟩
    have hmem : l ∈ admissibles s := (mem_admissibles s l).2 ((admissible_iff s l).2 ⟨htsy, hl, hstage, hwaits⟩)
    have hkey : firstBy (admissionKey s) (admissibles s) = some l := by
      refine firstBy_eq_of_lt _ 3 (fun _ => rfl) hmem (fun i hi hne => (keyLt_admissionKey s l i).2 ?_)
      obtain ⟨-, hi, histage, hiwaits⟩ := (admissible_iff s i).1 ((mem_admissibles s i).1 hi)
      exact hfirst i hi hne histage hiwaits
    have hexec := exec_launchAdmission harg
    rw [if_pos hkey] at hexec
    refine ⟨_, hexec, launchAt_modLaunch_self s l _ hl, fun c hc => ctxAt_afterAdmission hc, rfl,
      fun i hi => launchAt_modLaunch_ne s l i _ hi⟩
  · intro l n m s harg h
    have hnot : firstBy (admissionKey s) (admissibles s) ≠ some l := by
      intro hkey
      obtain ⟨hmem, hleast⟩ := firstBy_least _ 3 (fun _ => rfl) _ _ hkey
      obtain ⟨htsy, hl, hstage, hwaits⟩ := (admissible_iff s l).1 ((mem_admissibles s l).1 hmem)
      rcases h with h | h | h | h | ⟨i, hi, histage, hiwaits, hbefore⟩
      · simp [htsy] at h
      · omega
      · exact h hstage
      · simp [hwaits] at h
      · have hlt := hleast i ((mem_admissibles s i).2 ((admissible_iff s i).2 ⟨htsy, hi, histage, hiwaits⟩))
        simp [(keyLt_admissionKey s i l).2 hbefore] at hlt
    rw [exec_launchAdmission harg, if_neg hnot]
  · rintro x l g a s - ⟨hplacer, hl, hlow, hd, hg, ha⟩
    obtain ⟨sec, hsec, hnames, hcores⟩ := planGang_plans ha
    exact ⟨_, exec_gangReservation_begins hplacer hl hlow hd hg ha, rfl, hnames, sec, hsec, hcores⟩
  · rintro x l a n since s - ⟨hplacer, hplacing, hn⟩
    exact ⟨_, exec_gangReservation_reserves hplacer hplacing hn, rfl⟩
  · rintro x l a n since s - ⟨hplacer, hplacing, hn, hlow, hfresh⟩
    have hl := placer_lt hplacer
    obtain ⟨hplaced, hdone, hsection⟩ := commitGang_places (sectionMoved s l a) l a hfresh
    have hkernel : kernelOf (sectionMoved s l a) l = kernelOf s l :=
      launchAt_modLaunch_keeps (fun y => (y.khw, y.rec_)) s l l _ (fun _ => rfl)
    refine ⟨_, exec_gangCommit hplacer hplacing hn hlow, gangPlaced_of_kernel (s' := sectionMoved s l a) rfl hkernel hplaced, hdone ?_, ?_⟩
    · simpa [sectionMoved, modLaunch] using hl
    · rw [hsection, sectionMoved, launchAt_modLaunch_self s l _ hl]
  · rintro x l a n since s - ⟨hplacer, hplacing, hn⟩
    exact exec_gangCommit_idle hplacer hplacing hn
  · rintro x l g a s - ⟨hnone, hlow, hl, hd, hg, ha, hfresh⟩
    refine ⟨_, exec_dLaunchPlacement hnone hlow hl hd hg ha, (commitGang_places s l a hfresh).1, ?_⟩
    rw [planD_eq ha]
    exact ⟨by simp [Function.comp_def], List.forall_mem_map.2 (fun _ _ => rfl)⟩

end Sys2Proof.Machine
end

section
/-! PROOF. The issuing bundle's threads move on, or park, while every other thread stays (R57, R62 to R65). -/

namespace Sys2Proof.Machine

/-! One squad, apart from the lanes of a bundle. -/

/-- The threads of a squad that are not lanes `m` of lane block `lb` stand, wait and are parked as they were. -/
structure Squad.OthersStay (lb : Nat) (m : BitVec 32) (a b : Squad) : Prop where
  stand : ∀ lb' l p, ¬(lb' = lb ∧ inMask m l = true) → (standsAt b lb' l p ↔ standsAt a lb' l p)
  waiters : b.waiters = a.waiters
  parked : ∀ x : Parked, ¬(x.lb = lb ∧ inMask m x.lane = true) → (x ∈ b.parked ↔ x ∈ a.parked)

theorem Squad.OthersStay.refl (lb : Nat) (m : BitVec 32) (a : Squad) : Squad.OthersStay lb m a a :=
  ⟨fun _ _ _ _ => .rfl, rfl, fun _ _ => .rfl⟩

/-- A squad with an entry more, of the bundle's lanes. -/
theorem Squad.othersStay_of_entry {lb : Nat} {m : BitVec 32} {a b : Squad} (e : Entry)
    (hmem : ∀ f, f ∈ b.frontier ++ b.overflow ↔ f = e ∨ f ∈ a.frontier ++ a.overflow) (hlb : e.lb = lb)
    (hm : ∀ l, inMask e.mask l = true → inMask m l = true) (hw : b.waiters = a.waiters) (hp : b.parked = a.parked) :
    Squad.OthersStay lb m a b := by
  refine ⟨fun lb' l p hother => ⟨?_, ?_⟩, hw, fun x _ => by rw [hp]⟩
  · rintro ⟨f, hf, hflb, hfl, hfp⟩
    rcases (hmem f).1 hf with rfl | hf
    · exact absurd ⟨hflb.symm.trans hlb, hm l hfl⟩ hother
    · exact ⟨f, hf, hflb, hfl, hfp⟩
  · rintro ⟨f, hf, hstand⟩
    exact ⟨f, (hmem f).2 (.inr hf), hstand⟩

theorem mem_seat_iff (ver : Nat) (peek : VAddr → Word) (sq : Squad) (e f : Entry) :
    f ∈ (seat ver peek sq e).frontier ++ (seat ver peek sq e).overflow ↔ f = e ∨ f ∈ sq.frontier ++ sq.overflow := by
  refine ⟨fun h => ?_, mem_seat ver peek sq e f⟩
  have k := seat_cases ver peek sq e
  split at k
  · rw [k] at h
    simp only [List.mem_append, List.mem_singleton] at h ⊢
    tauto
  · obtain ⟨x, hx, k⟩ := k
    have herase : f ∈ (sq.frontier ++ [e]).erase x → f ∈ sq.frontier ++ [e] := List.mem_of_mem_erase
    rw [k] at h
    simp only [List.mem_append, List.mem_singleton] at h hx herase ⊢
    rcases h with h | h | rfl <;> tauto

theorem Squad.othersStay_seat {lb : Nat} {m : BitVec 32} (ver : Nat) (peek : VAddr → Word) (sq : Squad) (e : Entry) (hlb : e.lb = lb)
    (hm : ∀ l, inMask e.mask l = true → inMask m l = true) : Squad.OthersStay lb m sq (seat ver peek sq e) :=
  Squad.othersStay_of_entry e (mem_seat_iff ver peek sq e) hlb hm (by rw [seat_only]) (by rw [seat_only])

theorem Squad.othersStay_placeEntry {lb : Nat} {m : BitVec 32} (ver : Nat) (peek : VAddr → Word) (sq : Squad) (e : Entry) (hlb : e.lb = lb)
    (hm : ∀ l, inMask e.mask l = true → inMask m l = true) : Squad.OthersStay lb m sq (placeEntry ver peek sq e) := by
  unfold placeEntry
  split
  · exact .refl lb m sq
  · exact Squad.othersStay_of_entry { e with formed := sq.forms } (mem_seat_iff ver peek _ _) hlb hm (by rw [seat_only]) (by rw [seat_only])

/-- Lanes of the bundle join entries of its lane block. -/
theorem Squad.othersStay_join {lb : Nat} {m : BitVec 32} (same : Entry → Bool) (n : BitVec 32) (sq : Squad) (hlb : ∀ e, same e = true → e.lb = lb)
    (hn : ∀ l, inMask n l = true → inMask m l = true) :
    Squad.OthersStay lb m sq { sq with
      frontier := sq.frontier.map (fun f => if same f then { f with mask := f.mask ||| n } else f)
      overflow := sq.overflow.map (fun f => if same f then { f with mask := f.mask ||| n } else f) } := by
  refine ⟨fun lb' l p hother => ⟨?_, standsAt_of_grows (join_grows same n sq)⟩, rfl, fun _ _ => .rfl⟩
  rintro ⟨f, hf, hflb, hfl, hfp⟩
  dsimp only at hf
  rw [← List.map_append] at hf
  obtain ⟨e, he, rfl⟩ := List.mem_map.1 hf
  by_cases hs : same e = true
  · rw [if_pos hs] at hflb hfl hfp
    rw [inMask_or, Bool.or_eq_true] at hfl
    rcases hfl with hfl | hfl
    · exact ⟨e, he, hflb, hfl, hfp⟩
    · exact absurd ⟨hflb.symm.trans (hlb e hs), hn l hfl⟩ hother
  · rw [if_neg hs] at hflb hfl hfp
    exact ⟨e, he, hflb, hfl, hfp⟩

/-! The machine, apart from the bundle's threads. -/

theorem modSq_of_absent {s : State} {w q : Nat} (h : ¬isSquad s w q) (f : Squad → Squad) : modSq s w q f = s := by
  by_cases hw : w < s.wgs.length
  · have hq : (wgAt s w).squads.length ≤ q := Nat.le_of_not_lt (fun hq => h ⟨hw, hq⟩)
    refine (modWg_congr (g := id) ?_).trans (congrArg (fun l => { s with wgs := l }) (modAt_same id (fun _ => rfl) s.wgs w))
    rw [modAt_of_length_le _ q f hq]
    rfl
  · exact congrArg (fun l => { s with wgs := l }) (modAt_of_length_le s.wgs w _ (Nat.le_of_not_lt hw))

theorem othersStay.refl (s : State) (u : Bundle) : othersStay s s u :=
  ⟨fun _ _ _ => ⟨rfl, rfl, rfl, rfl⟩, fun _ _ _ _ => ⟨fun _ => .rfl, fun _ _ _ => .rfl, fun _ _ _ => .rfl⟩, fun _ h => h⟩

theorem othersStay.trans {s t r : State} {u : Bundle} (h : othersStay s t u) (k : othersStay t r u) : othersStay s r u := by
  obtain ⟨hsquads, hthreads, hrecords⟩ := h
  obtain ⟨ksquads, kthreads, krecords⟩ := k
  refine ⟨fun w q hne => ?_, fun lb l hl hother => ?_, fun r hr => krecords r (hrecords r hr)⟩
  · obtain ⟨h1, h2, h3, h4⟩ := hsquads w q hne
    obtain ⟨k1, k2, k3, k4⟩ := ksquads w q hne
    exact ⟨k1.trans h1, k2.trans h2, k3.trans h3, k4.trans h4⟩
  · obtain ⟨h1, h2, h3⟩ := hthreads lb l hl hother
    obtain ⟨k1, k2, k3⟩ := kthreads lb l hl hother
    exact ⟨fun p => (k1 p).trans (h1 p), fun x hx hm => (k2 x hx hm).trans (h2 x hx hm), fun x hx hm => (k3 x hx hm).trans (h3 x hx hm)⟩

theorem othersStay_of_wgs {s t : State} (u : Bundle) (h : t.wgs = s.wgs) (hr : ∀ r ∈ recordsOf s, r ∈ recordsOf t) : othersStay s t u := by
  have hsq : ∀ w q, sqAt t w q = sqAt s w q := sqAt_of_wgs h
  refine ⟨fun w q _ => ?_, fun lb l _ _ => ?_, hr⟩
  · rw [hsq]
    exact ⟨rfl, rfl, rfl, rfl⟩
  · rw [squadOf, hsq]
    exact ⟨fun _ => .rfl, fun _ _ _ => .rfl, fun _ _ _ => .rfl⟩

theorem othersStay_modSq (s : State) (u : Bundle) (f : Squad → Squad) (h : ∀ x, Squad.OthersStay u.e.lb u.e.mask x (f x)) :
    othersStay s (modSq s u.wg u.sq f) u := by
  by_cases hsq : isSquad s u.wg u.sq
  · have hat : squadOf (modSq s u.wg u.sq f) u = f (squadOf s u) := sqAt_modSq_self s u.wg u.sq f hsq.1 hsq.2
    obtain ⟨hstand, hwait, hpark⟩ := h (squadOf s u)
    refine ⟨fun w q hne => ?_, fun lb l _ hother => ?_, fun r hr => hr⟩
    · rw [sqAt_modSq_ne s u.wg u.sq w q f (by tauto)]
      exact ⟨rfl, rfl, rfl, rfl⟩
    · rw [hat]
      refine ⟨fun p => hstand lb l p hother, fun x _ _ => by rw [hwait], ?_⟩
      rintro x rfl rfl
      exact hpark x hother
  · rw [modSq_of_absent hsq]
    exact .refl s u

/-- From one state to another only threads of a bundle moved, and those that had met their fate kept it. -/
structure MovesOnly (u : Bundle) (s t : State) : Prop where
  still : still t = still s
  fates : keepsFates s t u
  others : othersStay s t u

theorem MovesOnly.refl (u : Bundle) (s : State) : MovesOnly u s s := ⟨rfl, .refl s u, .refl s u⟩

theorem MovesOnly.trans {u : Bundle} {s t r : State} (h : MovesOnly u s t) (k : MovesOnly u t r) : MovesOnly u s r :=
  ⟨k.still.trans h.still, h.fates.trans k.fates, h.others.trans k.others⟩

theorem MovesOnly.present {u : Bundle} {s t : State} (h : MovesOnly u s t) (k : u.present s) : u.present t := present_of_still h.still.symm u k

theorem MovesOnly.foldl {α : Type} {u : Bundle} (f : State → α → State) (l : List α) :
    ∀ s, (∀ s, ∀ x ∈ l, MovesOnly u s (f s x)) → MovesOnly u s (l.foldl f s) := by
  induction l with
  | nil => exact fun s _ => .refl u s
  | cons x l ih =>
    exact fun s h => (h s x List.mem_cons_self).trans (ih _ (fun t y hy => h t y (List.mem_cons_of_mem _ hy)))

/-- Of a fold of moves, one of which brings a thread to its fate. -/
theorem MovesOnly.foldl_met {α : Type} {u : Bundle} (f : State → α → State) (xs : List α) (h : ∀ s, ∀ x ∈ xs, MovesOnly u s (f s x))
    {x : α} (hx : x ∈ xs) {l : Nat} {F : Fate} (hF : ∀ s, u.present s → met (f s x) u l F) (s : State) (hs : u.present s) :
    met (xs.foldl f s) u l F := by
  obtain ⟨before, after, rfl⟩ := List.append_of_mem hx
  have hbefore : MovesOnly u s (before.foldl f s) := .foldl f before s (fun s y hy => h s y (List.mem_append_left _ hy))
  have hafter := MovesOnly.foldl f after (f (before.foldl f s) x) (fun s y hy => h s y (List.mem_append_right _ (List.mem_cons_of_mem _ hy)))
  rw [List.foldl_append, List.foldl_cons]
  exact hafter.fates l F (hF _ (hbefore.present hs))

section Moves

variable (s : State) (u : Bundle)

theorem movesOnly_modSq (f : Squad → Squad) (hstill : ∀ x, (f x).still = x.still) (hgrows : ∀ x : Squad, x.grows (f x))
    (hothers : ∀ x, Squad.OthersStay u.e.lb u.e.mask x (f x)) : MovesOnly u s (modSq s u.wg u.sq f) :=
  ⟨still_modSq_same s _ _ f hstill, keepsFates_modSq s _ _ f u hgrows, othersStay_modSq s u f hothers⟩

theorem movesOnly_seatIn (e : Entry) (hlb : e.lb = u.e.lb) (hm : ∀ l, inMask e.mask l = true → inMask u.e.mask l = true) :
    MovesOnly u s (seatIn s u.wg u.sq e) :=
  ⟨still_seatIn s _ _ e, keepsFates_seatIn s _ _ e u, othersStay_modSq s u _ (fun x => Squad.othersStay_seat _ _ x e hlb hm)⟩

theorem movesOnly_enter (e : Entry) (hlb : e.lb = u.e.lb) (hm : ∀ l, inMask e.mask l = true → inMask u.e.mask l = true) :
    MovesOnly u s (enter s u.wg u.sq e) :=
  ⟨still_enter s _ _ e, keepsFates_enter s _ _ e u, othersStay_modSq s u _ (fun x => Squad.othersStay_placeEntry _ _ x e hlb hm)⟩

variable {m : BitVec 32} (hm : ∀ l, inMask m l = true → inMask u.e.mask l = true)

include hm in
theorem movesOnly_goOn (p : Place) (d : Nat) : MovesOnly u s (goOn s u m p d) := by
  unfold goOn
  dsimp only
  split
  · exact .refl u s
  · split
    · exact movesOnly_seatIn s u (u.kept m p _) rfl hm
    · exact movesOnly_enter s u _ rfl hm

include hm in
theorem movesOnly_advance : MovesOnly u s (advance s u m) := by
  unfold advance
  dsimp only
  split
  · exact .refl u s
  · split
    · refine movesOnly_modSq s u _ (fun _ => rfl) (fun x => join_grows _ m x) (fun x => Squad.othersStay_join _ m x (fun e he => ?_) hm)
      simp only [Bool.and_eq_true, beq_iff_eq] at he
      exact he.1.2
    · exact movesOnly_seatIn s u (u.kept m u.next _) rfl hm

theorem movesOnly_parkThreads (lanes : List Nat) (p : Place) (how : Nat → Resume) (hl : ∀ l ∈ lanes, inMask u.e.mask l = true) :
    MovesOnly u s (parkThreads s u.wg u.sq u.e.lb lanes p how) := by
  refine ⟨still_parkThreads s _ _ _ _ _ _, keepsFates_parkThreads s _ _ _ _ _ _ u, othersStay_modSq s u _ (fun x => ?_)⟩
  refine ⟨fun _ _ _ _ => .rfl, rfl, fun y hy => ?_⟩
  simp only [List.mem_append, List.mem_map, or_iff_left_iff_imp]
  rintro ⟨l, hlane, rfl⟩
  exact absurd ⟨rfl, hl l hlane⟩ hy

theorem movesOnly_reportThread (w q lb lane : Nat) (r : List Word) : MovesOnly u s (reportThread s w q lb lane r) :=
  ⟨still_reportThread s _ _ _ _ r, keepsFates_reportThread s _ _ _ _ r u,
    othersStay_of_wgs u (wgs_reportThread s _ _ _ _ r) (recordsOf_reportThread s _ _ _ _ r).2⟩

/-- Threads that park, with a record of a fault. -/
theorem parkThreads_met (lanes : List Nat) (p at_ : Place) (how : Nat → Resume) (r : State) (lane cls : Nat) (i : FaultInfo) {l : Nat}
    (hs : u.present s) (hl : l ∈ lanes) (hi : i.code < 256 ∧ i.sub < 256 ∧ i.ucode < 256 ∧ i.imm < 256) :
    met (reportThread (parkThreads s u.wg u.sq u.e.lb lanes p how) u.wg u.sq u.e.lb lane
      (threadRecord r u.wg u.sq u.e.lb lane cls at_ i)) u l (.parked p i.code i.sub) := by
  refine ⟨⟨{ lb := u.e.lb, lane := l, place := p, how := how l }, ?_, rfl, rfl, rfl⟩, _, (recordsOf_reportThread _ _ _ _ _ _).1,
    recordOf_code _ _ _ _ _ _ _ _ _ _ _ _ hi.1 hi.2.1 hi.2.2.1 hi.2.2.2⟩
  unfold squadOf
  rw [sqAt_of_wgs (wgs_reportThread _ _ _ _ _ _), parkThreads, sqAt_modSq_self _ _ _ _ hs.1 hs.2]
  exact List.mem_append_right _ (List.mem_map_of_mem (f := fun l => ({ lb := u.e.lb, lane := l, place := p, how := how l } : Parked)) hl)

/-- How `faultLanes` parks one lane. -/
def faultLane (u : Bundle) (s : State) (f : Nat × FaultInfo × Staged) : State :=
  let t := parkThreads s u.wg u.sq u.e.lb [f.1] u.e.place (fun _ => .replay f.2.2 false)
  reportThread t u.wg u.sq u.e.lb f.1 (threadRecord t u.wg u.sq u.e.lb f.1 (Cls.code (clauseClass u.e.place.hdr)) u.e.place f.2.1)

theorem faultLanes_eq (fs : List (Nat × FaultInfo × Staged)) : faultLanes s u fs = fs.foldl (faultLane u) s := rfl

theorem movesOnly_faultLane (f : Nat × FaultInfo × Staged) (hl : inMask u.e.mask f.1 = true) : MovesOnly u s (faultLane u s f) :=
  (movesOnly_parkThreads s u [f.1] _ _ (by simpa using hl)).trans (movesOnly_reportThread _ u _ _ _ _ _)

theorem movesOnly_faultLanes (fs : List (Nat × FaultInfo × Staged)) (h : ∀ f ∈ fs, inMask u.e.mask f.1 = true) :
    MovesOnly u s (faultLanes s u fs) := by
  rw [faultLanes_eq]
  exact .foldl _ fs s (fun t f hf => movesOnly_faultLane t u f (h f hf))

/-- A lane that faults parks at the instruction, with a record of its fault. -/
theorem faultLanes_met (fs : List (Nat × FaultInfo × Staged)) (h : ∀ f ∈ fs, inMask u.e.mask f.1 = true) {l : Nat} {i : FaultInfo} {st : Staged}
    (hf : (l, i, st) ∈ fs) (hi : i.code < 256 ∧ i.sub < 256 ∧ i.ucode < 256 ∧ i.imm < 256) (hs : u.present s) :
    met (faultLanes s u fs) u l (.parked u.e.place i.code i.sub) := by
  rw [faultLanes_eq]
  exact MovesOnly.foldl_met _ fs (fun t f hf => movesOnly_faultLane t u f (h f hf)) hf
    (fun t ht => parkThreads_met t u [l] _ _ _ _ _ _ i ht (by simp) hi) s hs

end Moves

/-! The guard-true threads of a bundle, and the others. -/

theorem inMask_of_active {s : State} {u : Bundle} {l : Nat} (h : inMask (activeMask s u) l = true) : inMask u.e.mask l = true := by
  unfold activeMask at h
  split at h
  · rw [inMask_and, Bool.and_eq_true] at h
    exact h.1
  · exact h

theorem inMask_of_rest {m g : BitVec 32} {l : Nat} (h : inMask (m &&& g) l = true) : inMask m l = true := by
  rw [inMask_and, Bool.and_eq_true] at h
  exact h.1

/-- Each thread's fate: the guard-false threads have gone on, and what follows keeps them there. -/
theorem activeFate_met {s r t : State} {u : Bundle} {F : Nat → Fate} (hr : u.present r)
    (hkeep : ∀ l, met (advance r u (u.e.mask &&& ~~~(activeMask s u))) u l (.on u.next) → met t u l (.on u.next))
    (hactive : ∀ l, inMask (activeMask s u) l = true → met t u l (F l)) {l : Nat} (hlt : l < 32) (hl : inMask u.e.mask l = true) :
    met t u l (activeFate (F l) s u l) := by
  unfold activeFate
  split
  · rename_i ha
    exact hactive l ha
  · rename_i ha
    exact hkeep l (advance_met r u _ l hr.1 hr.2 (by simp [hl, hlt, ha]))

theorem doesAlone_of {i : Instr} {pre : State → Bundle → Prop} {f : State → Bundle → State} {fates : State → Bundle → Nat → Fate}
    (h : ∀ s u, Issuing s u → pre s u → ∃ t, exec i s = .next t ∧ still t = still (f s u) ∧ othersStay s t u
      ∧ ∀ l, l < 32 → inMask u.e.mask l = true → met t u l (fates s u l)) : doesAlone i pre f fates := by
  intro s u hi hpre
  obtain ⟨t, hexec, hstill, hother, hmet⟩ := h s u hi hpre
  exact ⟨t, hexec, hstill, fun a => by rw [mem_of_still hstill], hmet, hother⟩

/-- THE LAW OF INSTRUCTIONS THAT MOVE THE BUNDLE ALONE: a change of the machine that moves no thread, then moves of the bundle's threads. -/
theorem doesAlone_of_moves {i : Instr} {pre : State → Bundle → Prop} {f : State → Bundle → State} {fates : State → Bundle → Nat → Fate}
    (h : ∀ s u, Issuing s u → pre s u → ∃ r t, exec i s = .next t ∧ still r = still (f s u) ∧ othersStay s r u ∧ MovesOnly u r t
      ∧ ∀ l, l < 32 → inMask u.e.mask l = true → met t u l (fates s u l)) : doesAlone i pre f fates := by
  refine doesAlone_of (fun s u hi hpre => ?_)
  obtain ⟨r, t, hexec, hr, hother, hmoves, hmet⟩ := h s u hi hpre
  exact ⟨t, hexec, hmoves.still.trans hr, hother.trans hmoves.others, hmet⟩

end Sys2Proof.Machine
end

section
/-! PROOF. Jumps, stops and yields: where each thread of the bundle goes (R75 to R80). -/

namespace Sys2Proof.Machine

/-! Branches and calls (R76). -/

/-- The guard-false threads go on at the next word, the guard-true threads at a place. -/
def sendActive (s r : State) (u : Bundle) (p : Place) : State :=
  goOn (advance r u (u.e.mask &&& ~~~(activeMask s u))) u (activeMask s u) p 2

theorem movesOnly_sendActive (s r : State) (u : Bundle) (p : Place) : MovesOnly u r (sendActive s r u p) :=
  (movesOnly_advance r u (fun _ => inMask_of_rest)).trans (movesOnly_goOn _ u (fun _ => inMask_of_active) p 2)

theorem sendActive_met {s r : State} {u : Bundle} (hr : u.present r) (p : Place) {l : Nat} (hlt : l < 32) (hl : inMask u.e.mask l = true) :
    met (sendActive s r u p) u l (activeFate (.on p) s u l) := by
  have ha : u.present (advance r u (u.e.mask &&& ~~~(activeMask s u))) := (movesOnly_advance r u (fun _ => inMask_of_rest)).present hr
  exact activeFate_met hr (fun l => keepsFates_goOn _ u _ p 2 u l _) (fun l hg => goOn_met _ u _ p 2 l ha.1 ha.2 hg) hlt hl

theorem exec_bra {s : State} {u : Bundle} (h : Issuing s u) (o : BitVec 22) :
    exec (.bra o) s = .next (sendActive s { s with cur := none } u (headerPlace (branchTarget u o))) := by
  show execBra o s = _
  rw [execBra, withBundle_issuing h]
  rfl

/-- A squad in which a call has written its link for lanes `g` (R76). -/
def linked (u : Bundle) (g : BitVec 32) (link : DWord) (q : Squad) : Squad :=
  vset (vset q u.e.lb 62 g (fun _ => link.extractLsb' 0 32)) u.e.lb 63 g (fun _ => link.extractLsb' 32 32)

theorem exec_call {s : State} {u : Bundle} (h : Issuing s u) (o : BitVec 22) :
    exec (.call o) s = .next (sendActive s
      (modSq { s with cur := none } u.wg u.sq (linked u (activeMask s u) ((linkOf u.e.place).zeroExtend 64))) u (headerPlace (branchTarget u o))) := by
  have hlow : ∀ x : VAddr, (x.zeroExtend 64).extractLsb' 0 32 = x.truncate 32 := by
    intro x
    apply BitVec.eq_of_getLsbD_eq
    intro i hi
    simp [hi]
    omega
  have hhigh : ∀ x : VAddr, (x.zeroExtend 64).extractLsb' 32 32 = (x >>> 32).truncate 32 := by
    intro x
    apply BitVec.eq_of_getLsbD_eq
    intro i hi
    simp [hi]
    omega
  show execCall o s = _
  rw [execCall, withBundle_issuing h]
  unfold linked
  simp only [hlow, hhigh]
  rfl

/-! Jumps to pairs (R77). -/

/-- The lanes of a jump whose targets are above 52 bits, and those that jump. -/
def badJumps (g : BitVec 32) (t : Nat → DWord) : List Nat := (lanesOf g).filter (fun l => bitsOf (t l).toNat 63 52 != 0)
def goodJumps (g : BitVec 32) (t : Nat → DWord) : List Nat := (lanesOf g).filter (fun l => !(badJumps g t).contains l)

/-- The lanes of a jump with one target go there. -/
def jumpTo (u : Bundle) (g : BitVec 32) (t : Nat → DWord) (s : State) (a : DWord) : State :=
  goOn s u (maskOf (fun l => (goodJumps g t).contains l && t l == a)) (headerPlace (a.truncate 52)) 2

/-- The faults of the lanes that do not jump. -/
def jumpFaults (g : BitVec 32) (st : Nat → Staged) (t : Nat → DWord) : List (Nat × FaultInfo × Staged) :=
  (badJumps g t).map (fun l => (l, { faultInfo 0x10 3 with faddr := t l }, st l))

theorem jumpPairs_eq (s : State) (u : Bundle) (g : BitVec 32) (st : Nat → Staged) (t : Nat → DWord) : jumpPairs s u g st t =
    ((goodJumps g t).map t).dedup.foldl (jumpTo u g t) (faultLanes (advance s u (u.e.mask &&& ~~~g)) u (jumpFaults g st t)) := rfl

theorem mem_badJumps (g : BitVec 32) (t : Nat → DWord) (l : Nat) : l ∈ badJumps g t ↔ inMask g l = true ∧ 2 ^ 52 ≤ (t l).toNat := by
  have hlt := (t l).isLt
  have hbits : bitsOf (t l).toNat 63 52 ≠ 0 ↔ 2 ^ 52 ≤ (t l).toNat := by
    unfold bitsOf
    omega
  simp only [badJumps, List.mem_filter, mem_lanesOf, bne_iff_ne, hbits]
  exact and_congr_left' (and_iff_right_of_imp (inMask_lt g l))

theorem mem_goodJumps (g : BitVec 32) (t : Nat → DWord) (l : Nat) : l ∈ goodJumps g t ↔ inMask g l = true ∧ (t l).toNat < 2 ^ 52 := by
  simp only [goodJumps, List.mem_filter, mem_lanesOf, Bool.not_eq_true', List.contains_eq_mem, decide_eq_false_iff_not, mem_badJumps, not_and, not_le]
  exact ⟨fun h => ⟨h.1.2, h.2 h.1.2⟩, fun h => ⟨⟨inMask_lt g l h.1, h.1⟩, fun _ => h.2⟩⟩

theorem inMask_of_jumpFaults {u : Bundle} {g : BitVec 32} (hg : ∀ l, inMask g l = true → inMask u.e.mask l = true) (st : Nat → Staged)
    (t : Nat → DWord) : ∀ f ∈ jumpFaults g st t, inMask u.e.mask f.1 = true := by
  unfold jumpFaults
  exact List.forall_mem_map.2 (fun l hl => hg l ((mem_badJumps g t l).1 hl).1)

theorem movesOnly_jumpTo {u : Bundle} {g : BitVec 32} (hg : ∀ l, inMask g l = true → inMask u.e.mask l = true) (t : Nat → DWord) (s : State)
    (a : DWord) : MovesOnly u s (jumpTo u g t s a) := by
  refine movesOnly_goOn s u (fun l hl => hg l ?_) _ 2
  rw [inMask_maskOf _ _ (inMask_lt _ _ hl), Bool.and_eq_true, List.contains_iff_mem] at hl
  exact ((mem_goodJumps g t l).1 hl.1).1

theorem movesOnly_jumpPairs (s r : State) (u : Bundle) (st : Nat → Staged) (t : Nat → DWord) :
    MovesOnly u r (jumpPairs r u (activeMask s u) st t) := by
  rw [jumpPairs_eq]
  exact ((movesOnly_advance r u (fun _ => inMask_of_rest)).trans
    (movesOnly_faultLanes _ u _ (inMask_of_jumpFaults (fun _ => inMask_of_active) st t))).trans
    (.foldl _ _ _ (fun s a _ => movesOnly_jumpTo (fun _ => inMask_of_active) t s a))

/-- The fate of a lane that jumps (R77). -/
def jumpFate (u : Bundle) (a : DWord) : Fate := if a.toNat < 2 ^ 52 then .on (headerPlace (a.truncate 52)) else .parked u.e.place 0x10 3

theorem jumpPairs_met {s r : State} {u : Bundle} (hr : u.present r) (st : Nat → Staged) (t : Nat → DWord) {l : Nat} (hlt : l < 32)
    (hl : inMask u.e.mask l = true) : met (jumpPairs r u (activeMask s u) st t) u l (activeFate (jumpFate u (t l)) s u l) := by
  have hrest : MovesOnly u r (advance r u (u.e.mask &&& ~~~(activeMask s u))) := movesOnly_advance r u (fun _ => inMask_of_rest)
  have hbad := inMask_of_jumpFaults (u := u) (g := activeMask s u) (fun _ => inMask_of_active) st t
  have hfault := movesOnly_faultLanes (advance r u (u.e.mask &&& ~~~(activeMask s u))) u _ hbad
  have hjump : ∀ s', ∀ a ∈ ((goodJumps (activeMask s u) t).map t).dedup, MovesOnly u s' (jumpTo u (activeMask s u) t s' a) :=
    fun s' a _ => movesOnly_jumpTo (fun _ => inMask_of_active) t s' a
  rw [jumpPairs_eq]
  refine activeFate_met (F := fun l => jumpFate u (t l)) hr
    (fun l => (hfault.trans (.foldl _ _ _ hjump)).fates l _) (fun l ha => ?_) hlt hl
  unfold jumpFate
  split
  · rename_i hgood
    have hmem := (mem_goodJumps (activeMask s u) t l).2 ⟨ha, hgood⟩
    refine MovesOnly.foldl_met _ _ hjump (List.mem_dedup.2 (List.mem_map_of_mem hmem)) (fun s' hs' => ?_) _ (hfault.present (hrest.present hr))
    refine goOn_met s' u _ _ 2 l hs'.1 hs'.2 ?_
    rw [inMask_maskOf _ _ (inMask_lt _ _ ha)]
    simp [hmem]
  · rename_i hlarge
    have hmem := (mem_badJumps (activeMask s u) t l).2 ⟨ha, Nat.le_of_not_lt hlarge⟩
    have hrec : (l, { faultInfo 0x10 3 with faddr := t l }, st l) ∈ jumpFaults (activeMask s u) st t := List.mem_map.2 ⟨l, hmem, rfl⟩
    exact (MovesOnly.foldl _ _ _ hjump).fates l _ (faultLanes_met _ u _ hbad hrec (by simp [faultInfo]) (hrest.present hr))

theorem exec_brx {s : State} {u : Bundle} (h : Issuing s u) (a : BitVec 6) (m : BitVec 2) (ha : a.toNat % 2 = 0) :
    exec (.brx a m) s = .next (jumpPairs { s with cur := none } u (activeMask s u) (stage s u { a := some ⟨a, m, 2⟩ })
      (fun l => w64 (stage s u { a := some ⟨a, m, 2⟩ } l).a)) := by
  show execBrx a m s = _
  rw [execBrx, withBundle_issuing h]
  simp [misaligned, ha]
  rfl

theorem exec_ret {s : State} {u : Bundle} (h : Issuing s u) :
    exec .ret s = .next (jumpPairs { s with cur := none } u (activeMask s u) (stage s u { a := some (own 62 2) })
      (fun l => w64 (stage s u { a := some (own 62 2) } l).a)) := by
  show execRet s = _
  rw [execRet, withBundle_issuing h]
  rfl

/-! Breakpoints and traps (R80, R340). -/

theorem movesOnly_stopAt (u : Bundle) (s : State) (i : FaultInfo) : MovesOnly u s (stopAt u s i) := by
  unfold stopAt
  dsimp only
  have hrest : MovesOnly u s (advance s u (u.e.mask &&& ~~~(activeMask s u))) := movesOnly_advance s u (fun _ => inMask_of_rest)
  split
  · exact hrest
  · refine hrest.trans ((movesOnly_parkThreads _ u _ _ _ (fun l hl => ?_)).trans (movesOnly_reportThread _ u _ _ _ _ _))
    exact inMask_of_active ((mem_lanesOf _ l).1 hl).2

theorem stopAt_met {s : State} {u : Bundle} (hs : u.present s) (i : FaultInfo) (hi : i.code < 256 ∧ i.sub < 256 ∧ i.ucode < 256 ∧ i.imm < 256)
    {l : Nat} (hlt : l < 32) (hl : inMask u.e.mask l = true) : met (stopAt u s i) u l (activeFate (.parked u.next i.code i.sub) s u l) := by
  have hrest : MovesOnly u s (advance s u (u.e.mask &&& ~~~(activeMask s u))) := movesOnly_advance s u (fun _ => inMask_of_rest)
  unfold stopAt
  dsimp only
  split
  · rename_i hg
    exact activeFate_met (F := fun _ => .parked u.next i.code i.sub) hs (fun _ h => h) (fun l ha => by simp [hg] at ha) hlt hl
  · refine activeFate_met (F := fun _ => .parked u.next i.code i.sub) hs (fun l => ((movesOnly_parkThreads _ u _ _ _ (fun l hl => ?_)).trans (movesOnly_reportThread _ u _ _ _ _ _)).fates l _)
      (fun l ha => ?_) hlt hl
    · exact inMask_of_active ((mem_lanesOf _ l).1 hl).2
    · exact parkThreads_met _ u _ _ _ _ _ _ _ i (hrest.present hs) ((mem_lanesOf _ l).2 ⟨inMask_lt _ _ ha, ha⟩) hi

/-- A squad that is stopped: threads of it are marked, and there is a record. -/
theorem stopSquad_cases (s : State) (w q : Nat) : stopSquad s w q = s ∨
    ∃ (mark : Map (BitVec 32) → Map (BitVec 32)) (lb lane : Nat) (r : List Word),
      stopSquad s w q = reportThread (modSq s w q (fun sq => { sq with frozen := mark sq.frozen })) w q lb lane r := by
  unfold stopSquad
  dsimp only
  split
  · split
    · exact .inl rfl
    · exact .inr ⟨fun m => List.foldl _ m _, _, _, _, rfl⟩
  · exact .inl rfl

theorem movesOnly_stopSquad (s : State) (u : Bundle) : MovesOnly u s (stopSquad s u.wg u.sq) := by
  rcases stopSquad_cases s u.wg u.sq with h | ⟨mark, lb, lane, r, h⟩ <;> rw [h]
  · exact .refl u s
  · have hmark : MovesOnly u s (modSq s u.wg u.sq (fun sq => { sq with frozen := mark sq.frozen })) :=
      movesOnly_modSq s u _ (fun _ => rfl) (fun x => Squad.grows_of_same rfl rfl rfl rfl rfl) (fun x => ⟨fun _ _ _ _ => .rfl, rfl, fun _ _ => .rfl⟩)
    exact hmark.trans (movesOnly_reportThread _ u _ _ _ _ _)

/-- The fault information of a breakpoint and of a trap. -/
def breakInfo (n : BitVec 8) : FaultInfo := { faultInfo 0x28 0 with imm := n.toNat, dbg := true }
def trapInfo (n : BitVec 8) : FaultInfo := { faultInfo 0x29 0 with imm := n.toNat }

theorem exec_brk {s : State} {u : Bundle} (h : Issuing s u) (n : BitVec 8) :
    exec (.brk n) s = .next (if activeMask s u = 0 then stopAt u { s with cur := none } (breakInfo n)
      else stopSquad (stopAt u { s with cur := none } (breakInfo n)) u.wg u.sq) := by
  show execBrk n s = _
  rw [execBrk, withBundle_issuing h]
  rfl

theorem exec_trap {s : State} {u : Bundle} (h : Issuing s u) (n : BitVec 8) :
    exec (.trap n) s = .next (stopAt u { s with cur := none } (trapInfo n)) := by
  show execTrap n s = _
  rw [execTrap, withBundle_issuing h]
  rfl

/-! The next instruction (R75, R79). -/

theorem exec_nop {s : State} {u : Bundle} (h : Issuing s u) : exec .nop s = .next (advance { s with cur := none } u u.e.mask) := by
  show execNop s = _
  rw [execNop, withBundle_issuing h]

/-- The bundle with its entry marked, if a guard-true thread yields (R79). -/
def Bundle.marked (u : Bundle) (s : State) : Bundle := { u with e := { u.e with yielded := u.e.yielded || decide (activeMask s u ≠ 0) } }

theorem exec_yld {s : State} {u : Bundle} (h : Issuing s u) :
    exec .yld s = .next (advance { s with cur := none } (u.marked s) u.e.mask) := by
  have hmark : decide (activeMask s u ≠ 0) = (activeMask s u != 0) := Bool.eq_iff_iff.2 (by simp)
  show execYld s = _
  rw [execYld, withBundle_issuing h, Bundle.marked, hmark]
  rfl

/-- A bundle that goes on whole keeps its squad as it was, but for the seat of its entry. -/
theorem advance_all_completes {s : State} {u : Bundle} (h : Issuing s u) :
    squadFrame keepEntries s (advance { s with cur := none } u u.e.mask) u.wg u.sq ∧ movedOn s (advance { s with cur := none } u u.e.mask) u := by
  obtain ⟨-, -, -, hframe, hmoved⟩ := changed_completes h (fun x => x) keepEntries rfl ⟨rfl, rfl⟩ (fun _ _ => rfl)
  rw [modSq_id] at hframe hmoved
  exact ⟨hframe, hmoved⟩

/-- Settles O4: the bundle's one entry takes its seat at the next word, and nothing else of the machine changes. -/
theorem nopOnlyAdvances : Obligations.NopOnlyAdvances := by
  unfold Obligations.NopOnlyAdvances
  intro s u h _
  obtain ⟨hframe, hmoved⟩ := advance_all_completes h
  exact ⟨_, exec_nop h, hframe, hmoved, trivial⟩

end Sys2Proof.Machine
end

section
/-! PROOF. Rejoin masks: their test, whose waits it ends, and the obligation (R71, R73). -/

namespace Sys2Proof.Machine

/-! What does not change where threads alone move. -/

theorem joinOf_of_still {s t : State} (e : still s = still t) (w q lb k : Nat) : joinOf (sqAt s w q) lb k = joinOf (sqAt t w q) lb k := by
  have h := congrArg Squad.j (squad_of_still e w q)
  have hj : (sqAt s w q).j = (sqAt t w q).j := h
  simp only [joinOf, hj]

theorem exited_of_still {s t : State} (e : still s = still t) (w q : Nat) : (sqAt s w q).exited = (sqAt t w q).exited := by
  have h := congrArg Squad.exited (squad_of_still e w q)
  exact h

theorem conv_of_still {s t : State} (e : still s = still t) (w q : Nat) : (sqAt s w q).conv = (sqAt t w q).conv := by
  have h := congrArg Squad.conv (squad_of_still e w q)
  exact h

theorem waiters_advance (s : State) (u : Bundle) (m : BitVec 32) : (squadOf (advance s u m) u).waiters = (squadOf s u).waiters := by
  unfold advance squadOf
  dsimp only
  split
  · rfl
  · split
    · exact sqAt_modSq_keeps Squad.waiters s _ _ _ (fun _ => rfl)
    · exact sqAt_modSq_keeps Squad.waiters s _ _ _ (fun x => by rw [seat_only])

theorem mem_waiters_wait {s : State} {u : Bundle} {m : BitVec 32} {why : Wait} {p : Place} {x : Waiter} (hs : u.present s)
    (hx : x ∈ (squadOf s u).waiters) : x ∈ (squadOf (wait s u m why p) u).waiters := by
  unfold wait squadOf
  split
  · exact hx
  · rw [sqAt_modSq_self s _ _ _ hs.1 hs.2]
    exact List.mem_append_left _ hx

/-! The end of some waits of a squad. -/

/-- From one state to another waits of a squad ended, and records were added: whoever stood or had exited still does. -/
structure Releases (w q : Nat) (s t : State) : Prop where
  there : isSquad s w q → isSquad t w q
  stand : ∀ lb l p, standsAt (sqAt s w q) lb l p → standsAt (sqAt t w q) lb l p
  waits : ∀ x ∈ (sqAt t w q).waiters, x ∈ (sqAt s w q).waiters
  exited : (sqAt t w q).exited = (sqAt s w q).exited
  records : ∀ r ∈ recordsOf s, r ∈ recordsOf t

theorem Releases.refl (w q : Nat) (s : State) : Releases w q s s := ⟨id, fun _ _ _ => id, fun _ => id, rfl, fun _ => id⟩

theorem Releases.trans {w q : Nat} {s t r : State} (h : Releases w q s t) (k : Releases w q t r) : Releases w q s r :=
  ⟨k.there ∘ h.there, fun lb l p => k.stand lb l p ∘ h.stand lb l p, fun x => h.waits x ∘ k.waits x, k.exited.trans h.exited,
    fun x => k.records x ∘ h.records x⟩

theorem Releases.foldl {α : Type} {w q : Nat} {f : State → α → State} (h : ∀ s x, isSquad s w q → Releases w q s (f s x)) (l : List α) :
    ∀ s, isSquad s w q → Releases w q s (l.foldl f s) := by
  induction l with
  | nil => exact fun s _ => .refl w q s
  | cons x l ih => exact fun s hs => (h s x hs).trans (ih _ ((h s x hs).there hs))

theorem released_of_releases {w q : Nat} {s t : State} (h : Releases w q s t) {x : Waiter} (k : released s w q x) : released t w q x :=
  ⟨fun hx => k.1 (h.waits x hx), fun l hl hm => h.stand _ _ _ (k.2 l hl hm)⟩

/-- A change of a squad that leaves its threads where they stand. -/
theorem releases_modSq {s : State} {w q : Nat} (f : Squad → Squad)
    (hf : ∀ x : Squad, (f x).frontier = x.frontier ∧ (f x).overflow = x.overflow ∧ (f x).waiters = x.waiters ∧ (f x).exited = x.exited) :
    Releases w q s (modSq s w q f) := by
  have hview := sqAt_modSq_keeps (fun x : Squad => (x.frontier, x.overflow, x.waiters, x.exited)) s w q f (fun x => by
    obtain ⟨h1, h2, h3, h4⟩ := hf x
    rw [h1, h2, h3, h4])
  simp only [Prod.mk.injEq] at hview
  obtain ⟨h1, h2, h3, h4⟩ := hview
  refine ⟨isSquad_modSq f, fun lb l p h => ?_, fun x hx => h3 ▸ hx, h4, fun _ => id⟩
  unfold standsAt at h ⊢
  rwa [h1, h2]

theorem releases_reportThread (s : State) (w q v r lb lane : Nat) (rec : List Word) : Releases w q s (reportThread s v r lb lane rec) := by
  have hsq := sqAt_of_wgs (wgs_reportThread s v r lb lane rec) w q
  refine ⟨isSquad_of_still (still_reportThread s v r lb lane rec).symm, ?_, ?_, by rw [hsq], (recordsOf_reportThread s v r lb lane rec).2⟩ <;> rw [hsq]
  · exact fun _ _ _ => id
  · exact fun _ => id

theorem standsAt_releaseWhere {s : State} {w q : Nat} (ends : Waiter → Bool) (h : isSquad s w q) {lb l : Nat} {p : Place}
    (k : standsAt (sqAt s w q) lb l p) : standsAt (sqAt (releaseWhere s w q ends) w q) lb l p := by
  unfold releaseWhere
  dsimp only
  split
  · exact k
  · rw [reenter_eq]
    refine (sqAt_reenterGroups w q 2 _ _ (isSquad_modSq _ h)).2.1 lb l p ?_
    rw [sqAt_modSq_self s w q _ h.1 h.2]
    exact k

theorem recordsOf_endWaits (s : State) (w q : Nat) (ends : Waiter → Bool) : recordsOf (endWaits s w q ends) = recordsOf s := by
  unfold endWaits releaseWhere
  dsimp only
  split
  · rfl
  · rw [reenter_eq]
    refine (foldl_keeps recordsOf _ (fun t x => ?_) _ _).trans rfl
    obtain ⟨f, hf, -⟩ := reenterGroup_cases w q 2 t x
    rw [hf]
    rfl

theorem releases_endWaits {s : State} {w q : Nat} (ends : Waiter → Bool) (h : isSquad s w q) : Releases w q s (endWaits s w q ends) := by
  have hstill := still_endWaits s w q ends
  refine ⟨isSquad_of_still hstill.symm, fun lb l p k => ?_, fun x hx => ?_, exited_of_still hstill w q, fun r hr => by rwa [recordsOf_endWaits]⟩
  · unfold endWaits
    dsimp only
    refine standsAt_releaseWhere ends (isSquad_modSq _ h) ?_
    rw [sqAt_modSq_self s w q _ h.1 h.2]
    exact k
  · rw [waiters_endWaits s w q ends h] at hx
    exact (List.mem_filter.1 hx).1

/-! The test of a register (R71). -/

/-- The waits that the release of register `k` of a lane block ends. -/
def waitsInJoin (lb k : Nat) (x : Waiter) : Bool := x.lb == lb && x.why == .join k

theorem waitsInJoin_iff (lb k : Nat) (x : Waiter) : waitsInJoin lb k x = true ↔ x.lb = lb ∧ x.why = .join k := by
  simp [waitsInJoin]

theorem testJoin_eq (s : State) (w q lb k : Nat) : testJoin s w q lb k =
    if joinSatisfied (sqAt s w q) lb (joinOf (sqAt s w q) lb k) = true
    then endWaits (modSq s w q (fun sq => setJoin sq lb k { joinOf (sqAt s w q) lb k with arr := 0 })) w q (waitsInJoin lb k)
    else s := by
  have hiff : joinSatisfied (sqAt s w q) lb (joinOf (sqAt s w q) lb k) = true ↔ (joinOf (sqAt s w q) lb k).arr ≠ 0
      ∧ (joinOf (sqAt s w q) lb k).enr &&& ~~~(joinOf (sqAt s w q) lb k).arr &&& ~~~exitedOf (sqAt s w q) lb = 0 := by
    simp [joinSatisfied]
  simp only [hiff]
  rfl

theorem testJoin_of_unsatisfied {s : State} {w q lb k : Nat} (h : joinSatisfied (sqAt s w q) lb (joinOf (sqAt s w q) lb k) = false) :
    testJoin s w q lb k = s := by
  rw [testJoin_eq, h]
  rfl

theorem releases_setJoin (s : State) (w q lb k : Nat) (j : Join) : Releases w q s (modSq s w q (fun sq => setJoin sq lb k j)) :=
  releases_modSq _ (fun _ => ⟨rfl, rfl, rfl, rfl⟩)

theorem releases_testJoin {s : State} {w q : Nat} (lb k : Nat) (h : isSquad s w q) : Releases w q s (testJoin s w q lb k) := by
  rw [testJoin_eq]
  split
  · exact (releases_setJoin s w q lb k _).trans (releases_endWaits _ (isSquad_modSq _ h))
  · exact .refl w q s

/-- A satisfied register releases the threads that wait on it. -/
theorem released_testJoin {s : State} {w q lb k : Nat} {x : Waiter} (hx : x ∈ (sqAt s w q).waiters) (hlb : x.lb = lb) (hwhy : x.why = .join k)
    (hsat : joinSatisfied (sqAt s w q) lb (joinOf (sqAt s w q) lb k) = true) : released (testJoin s w q lb k) w q x := by
  obtain ⟨hw, hq⟩ := isSquad_of_waiter hx
  rw [testJoin_eq, if_pos hsat]
  refine released_endWaits _ w q _ x ?_ ((waitsInJoin_iff lb k x).2 ⟨hlb, hwhy⟩)
  rw [sqAt_modSq_self s w q _ hw hq]
  exact hx

/-- A wait on another register goes on. -/
theorem mem_waiters_testJoin {s : State} {w q lb k : Nat} {x : Waiter} (hx : x ∈ (sqAt s w q).waiters) (hwhy : x.why ≠ .join k) :
    x ∈ (sqAt (testJoin s w q lb k) w q).waiters := by
  obtain ⟨hw, hq⟩ := isSquad_of_waiter hx
  rw [testJoin_eq]
  split
  · rw [waiters_endWaits _ w q _ (isSquad_modSq _ ⟨hw, hq⟩), sqAt_modSq_self s w q _ hw hq]
    refine List.mem_filter.2 ⟨hx, ?_⟩
    have hnot : waitsInJoin lb k x ≠ true := fun h => hwhy ((waitsInJoin_iff lb k x).1 h).2
    simpa using hnot
  · exact hx

/-! A register is changed, and tested. -/

@[simp] theorem joinOf_setJoin_self (sq : Squad) (lb k : Nat) (j : Join) : joinOf (setJoin sq lb k j) lb k = j := by simp [joinOf, setJoin]

theorem joinOf_setJoin_ne (sq : Squad) (lb k i : Nat) (j : Join) (h : i ≠ k) : joinOf (setJoin sq lb k j) lb i = joinOf sq lb i := by
  simp only [joinOf, setJoin]
  exact Map.getD_put_ne _ _ _ _ _ (by omega)

theorem Map.put_put {α : Type} (m : Map α) (k : Nat) (a b : α) : Map.put (Map.put m k a) k b = Map.put m k b := by
  induction m with
  | nil => simp [Map.put]
  | cons p m ih =>
    obtain ⟨j, x⟩ := p
    simp only [Map.put]
    split_ifs <;> simp_all [Map.put]

theorem setJoin_setJoin (sq : Squad) (lb k : Nat) (i j : Join) : setJoin (setJoin sq lb k i) lb k j = setJoin sq lb k j := by
  simp [setJoin, Map.put_put]

/-- A register takes a value and is tested. -/
def joinTestedAs (s : State) (w q lb k : Nat) (j : Join) : State := testJoin (modSq s w q (fun sq => setJoin sq lb k j)) w q lb k

section JoinTestedAs

variable {s : State} {w q : Nat} (lb k : Nat) (j : Join) (h : isSquad s w q)

include h

theorem satisfied_after_setJoin : joinSatisfied (sqAt (modSq s w q (fun sq => setJoin sq lb k j)) w q) lb
    (joinOf (sqAt (modSq s w q (fun sq => setJoin sq lb k j)) w q) lb k) = joinSatisfied (sqAt s w q) lb j := by
  rw [sqAt_modSq_self s w q _ h.1 h.2, joinOf_setJoin_self]
  rfl

theorem joinTestedAs_of_unsatisfied (hsat : joinSatisfied (sqAt s w q) lb j = false) :
    joinTestedAs s w q lb k j = modSq s w q (fun sq => setJoin sq lb k j) :=
  testJoin_of_unsatisfied ((satisfied_after_setJoin lb k j h).trans hsat)

theorem still_joinTestedAs : still (joinTestedAs s w q lb k j) = still (modSq s w q (fun sq => setJoin sq lb k (joinTested (sqAt s w q) lb j))) := by
  cases hsat : joinSatisfied (sqAt s w q) lb j
  · rw [joinTestedAs_of_unsatisfied lb k j h hsat, joinTested, hsat]
    rfl
  · rw [joinTestedAs, testJoin_eq, satisfied_after_setJoin lb k j h, if_pos hsat, still_endWaits, modSq_modSq, sqAt_modSq_self s w q _ h.1 h.2,
      joinOf_setJoin_self, joinTested, if_pos hsat]
    simp only [setJoin_setJoin]

theorem releases_joinTestedAs : Releases w q s (joinTestedAs s w q lb k j) :=
  (releases_setJoin s w q lb k j).trans (releases_testJoin lb k (isSquad_modSq _ h))

omit h in
theorem released_joinTestedAs {x : Waiter} (hx : x ∈ (sqAt s w q).waiters) (hlb : x.lb = lb) (hwhy : x.why = .join k)
    (hsat : joinSatisfied (sqAt s w q) lb j = true) : released (joinTestedAs s w q lb k j) w q x := by
  have h := isSquad_of_waiter hx
  refine released_testJoin ?_ hlb hwhy ((satisfied_after_setJoin lb k j h).trans hsat)
  rw [sqAt_modSq_self s w q _ h.1 h.2]
  exact hx

end JoinTestedAs

/-! The instructions (R73). -/

/-- A test of the register after threads of the squad alone have moved. -/
theorem joinTestedAs_moved {s r : State} {u : Bundle} (h : Issuing s u) (hr : still r = still s) (k : Nat) (j : Join) :
    still (joinTestedAs r u.wg u.sq u.e.lb k j) = still (inSquad s u (fun q => setJoin q u.e.lb k (joinTested q u.e.lb j)))
      ∧ joinSatisfied (sqAt r u.wg u.sq) u.e.lb j = joinSatisfied (squadOf s u) u.e.lb j := by
  have hexited := exited_of_still hr u.wg u.sq
  have hsat : joinSatisfied (sqAt r u.wg u.sq) u.e.lb j = joinSatisfied (squadOf s u) u.e.lb j := by
    simp only [joinSatisfied, exitedOf, squadOf, hexited]
  have htested : joinTested (sqAt r u.wg u.sq) u.e.lb j = joinTested (squadOf s u) u.e.lb j := by
    simp only [joinTested, hsat]
  refine ⟨?_, hsat⟩
  rw [still_joinTestedAs _ _ _ (isSquad_of_still hr.symm h.2), htested, inSquad]
  rw [still_modSq_congr hr _ _ _ (fun x => by rfl)]
  exact congrArg still (modSq_congr rfl)

/-- What an instruction makes of a register: its change for the guard-true threads. -/
def changedJoin (s : State) (u : Bundle) (k : BitVec 4) (f : BitVec 32 → Join → Join) : Join := f (activeMask s u) (joinOf (squadOf s u) u.e.lb k.toNat)

/-- An instruction on a register: what it does to it, to its own threads and to those that wait on it. -/
def actsOnJoin (i : Instr) (k : BitVec 4) (f : BitVec 32 → Join → Join) (fates : State → Bundle → Nat → Fate) : Prop :=
  does i (fun _ _ => True) (fun s u => inSquad s u (fun q => setJoin q u.e.lb k.toNat (joinTested q u.e.lb (changedJoin s u k f)))) fates
    ∧ ∀ s u, Issuing s u → joinSatisfied (squadOf s u) u.e.lb (changedJoin s u k f) = true → ∃ t, exec i s = .next t
        ∧ ∀ x ∈ (squadOf s u).waiters, x.lb = u.e.lb → x.why = .join k.toNat → released t u.wg u.sq x

/-- An instruction that moves its threads, ending no wait, and then changes and tests a register. -/
theorem actsOnJoin_of {i : Instr} {k : BitVec 4} {f : BitVec 32 → Join → Join} {fates : State → Bundle → Nat → Fate} (moved : State → Bundle → State)
    (hstill : ∀ s u, still (moved s u) = still s)
    (hexec : ∀ s u, Issuing s u → exec i s = .next (joinTestedAs (moved s u) u.wg u.sq u.e.lb k.toNat (changedJoin s u k f)))
    (hwaits : ∀ s u, Issuing s u → ∀ x ∈ (squadOf s u).waiters, x ∈ (squadOf (moved s u) u).waiters)
    (hmet : ∀ s u, Issuing s u → ∀ l, l < 32 → inMask u.e.mask l = true →
      met (joinTestedAs (moved s u) u.wg u.sq u.e.lb k.toNat (changedJoin s u k f)) u l (fates s u l)) : actsOnJoin i k f fates := by
  refine ⟨fun s u h _ => ?_, fun s u h hsat => ⟨_, hexec s u h, fun x hx hlb hwhy => ?_⟩⟩
  · have hjoin := (joinTestedAs_moved h (hstill s u) k.toNat (changedJoin s u k f)).1
    exact ⟨_, hexec s u h, hjoin, fun a => by rw [mem_of_still hjoin], hmet s u h⟩
  · refine released_joinTestedAs _ _ _ (hwaits s u h x hx) hlb hwhy ?_
    rw [(joinTestedAs_moved h (hstill s u) k.toNat _).2]
    exact hsat

/-- A register instruction changes the register as it stands when its threads have moved: no move changes it. -/
theorem joinChange_moved {s r : State} {u : Bundle} (hr : still r = still s) (k : BitVec 4) (f : BitVec 32 → Join → Join) :
    testJoin (modSq r u.wg u.sq (fun sq => setJoin sq u.e.lb k.toNat (f (activeMask s u) (joinOf sq u.e.lb k.toNat)))) u.wg u.sq u.e.lb k.toNat
      = joinTestedAs r u.wg u.sq u.e.lb k.toNat (changedJoin s u k f) := by
  have hj := joinOf_of_still hr u.wg u.sq u.e.lb k.toNat
  refine congrArg (fun t => testJoin t u.wg u.sq u.e.lb k.toNat) (modSq_congr ?_)
  rw [hj]
  rfl

/-- The instructions that do not wait: every thread goes on. -/
theorem joinOp_actsOnJoin (i : Instr) (k : BitVec 4) (f : BitVec 32 → Join → Join) (hi : ∀ s, exec i s = withBundle s (joinOp k f)) :
    actsOnJoin i k f allOn := by
  have hstill : ∀ (s : State) (u : Bundle), still (advance { s with cur := none } u u.e.mask) = still s := fun s u => by simp
  refine actsOnJoin_of (fun s u => advance { s with cur := none } u u.e.mask) hstill (fun s u h => ?_) (fun s u _ x hx => ?_) (fun s u h l _ hl => ?_)
  · rw [hi, withBundle_issuing h, ← joinChange_moved (hstill s u)]
    rfl
  · rw [waiters_advance]
    exact hx
  · exact (releases_joinTestedAs _ _ _ (isSquad_of_still (hstill s u).symm h.2)).stand _ _ _ (advance_met _ u _ l h.present.1 h.present.2 hl)

/-- The threads of a bundle where `join.wait` has them wait for its test. -/
def joinWaiting (k : BitVec 4) (s : State) (u : Bundle) : State :=
  wait (advance { s with cur := none } u (u.e.mask &&& ~~~(activeMask s u))) u (activeMask s u) (.join k.toNat) u.next

/-- The fate of a thread that waits on a register: it goes on at once where that is satisfied. -/
def joinWaitFate (k : BitVec 4) (s : State) (u : Bundle) : Fate :=
  if joinSatisfied (squadOf s u) u.e.lb (changedJoin s u k (fun g j => { j with arr := j.arr ||| g })) then .on u.next else .waits (.join k.toNat)

theorem joinWait_actsOnJoin (k : BitVec 4) : actsOnJoin (.joinWait k) k (fun g j => { j with arr := j.arr ||| g })
    (fun s u l => activeFate (joinWaitFate k s u) s u l) := by
  have hstill : ∀ (s : State) (u : Bundle), still (joinWaiting k s u) = still s := fun s u => by simp [joinWaiting]
  have hrest : ∀ {s : State} {u : Bundle}, Issuing s u → u.present (advance { s with cur := none } u (u.e.mask &&& ~~~(activeMask s u))) :=
    fun h => (movesOnly_advance _ _ (fun _ => inMask_of_rest)).present h.present
  refine actsOnJoin_of (joinWaiting k) hstill (fun s u h => ?_) (fun s u h x hx => ?_) (fun s u h l hlt hl => ?_)
  · show execJoinWait k s = _
    rw [execJoinWait, withBundle_issuing h, ← joinChange_moved (hstill s u)]
    rfl
  · refine mem_waiters_wait (hrest h) ?_
    rw [waiters_advance]
    exact hx
  · have hsq : isSquad (joinWaiting k s u) u.wg u.sq := isSquad_of_still (hstill s u).symm h.2
    have hsat := (joinTestedAs_moved h (hstill s u) k.toNat (changedJoin s u k (fun g j => { j with arr := j.arr ||| g }))).2
    refine activeFate_met (F := fun _ => joinWaitFate k s u) h.present (fun l hon => (releases_joinTestedAs _ _ _ hsq).stand _ _ _ (keepsFates_wait _ u _ _ _ u l _ hon)) (fun l ha => ?_) hlt hl
    obtain ⟨x, hx, hlb, hm, hwhy, hnext⟩ := wait_met _ u (activeMask s u) (.join k.toNat) l (hrest h).1 (hrest h).2 ha
    unfold joinWaitFate
    split
    · rename_i hyes
      have hreleased := released_joinTestedAs u.e.lb k.toNat _ hx hlb hwhy (hsat.trans hyes)
      have hstand := hreleased.2 l (inMask_lt _ _ ha) hm
      rw [hlb, hnext] at hstand
      exact hstand
    · rename_i hno
      rw [joinTestedAs_of_unsatisfied _ _ _ hsq (hsat.trans (by simpa using hno))]
      refine ⟨x, ?_, hlb, hm, hwhy, hnext⟩
      unfold squadOf
      rw [sqAt_modSq_self _ _ _ _ hsq.1 hsq.2]
      exact hx

/-- Settles O14: each instruction changes its register for the guard-true threads and tests it; a satisfied one releases whoever waits on it. -/
theorem rejoinMasks : Obligations.RejoinMasks := by
  unfold Obligations.RejoinMasks
  refine ⟨fun k => ?_, fun k => ?_, fun k => ?_, fun k => ?_, fun d k m => ?_⟩
  · exact joinOp_actsOnJoin (.joinEnrol k) k (fun g j => { j with enr := j.enr ||| g }) (fun _ => rfl)
  · exact joinOp_actsOnJoin (.joinStrike k) k (fun g j => { j with enr := j.enr &&& ~~~g }) (fun _ => rfl)
  · exact joinOp_actsOnJoin (.joinClr k) k (fun g j => if g = 0 then j else { j with enr := 0 }) (fun _ => rfl)
  · exact joinWait_actsOnJoin k
  · exact laneOp_writes (.joinRd d k m) [] d 1 (fun s u _ => wide32 (if m = 0 then (joinOf (squadOf s u) u.e.lb k.toNat).enr
      else (joinOf (squadOf s u) u.e.lb k.toNat).arr)) (fun _ => rfl) (fun _ _ _ => rfl) (by decide)

end Sys2Proof.Machine
end

section
/-! PROOF. Exits, and the control flow obligation (R71, R76 to R80, R98). -/

namespace Sys2Proof.Machine

/-! Folds with one step that matters. -/

/-- A fold that keeps `before` until it comes to `k`, whose step brings about `after`, which every step keeps. -/
theorem foldl_establishes {α β : Type} {f : β → α → β} {before after : β → Prop} {k : α} (hbefore : ∀ s j, j ≠ k → before s → before (f s j))
    (hk : ∀ s, before s → after (f s k)) (hafter : ∀ s j, after s → after (f s j)) (l : List α) :
    k ∈ l → ∀ s, before s → after (l.foldl f s) := by
  have hkeep : ∀ (l : List α) s, after s → after (l.foldl f s) := by
    intro l
    induction l with
    | nil => exact fun _ h => h
    | cons j l ih => exact fun s h => ih _ (hafter s j h)
  induction l with
  | nil => intro h; simp at h
  | cons j l ih =>
    intro hin s h
    by_cases hj : j = k
    · subst hj
      exact hkeep l _ (hk s h)
    · exact ih (List.mem_of_ne_of_mem (Ne.symm hj) hin) _ (hbefore s j hj h)

theorem foldl_fixed {α β : Type} {f : β → α → β} {s : β} (l : List α) (h : ∀ x ∈ l, f s x = s) : l.foldl f s = s := by
  induction l with
  | nil => rfl
  | cons x l ih => rw [List.foldl_cons, h x List.mem_cons_self, ih (fun y hy => h y (List.mem_cons_of_mem _ hy))]

/-! What an exit does to its lane block's rejoin masks (R71). -/

/-- Lanes are struck from one register. -/
def strikeJoin (lb : Nat) (m : BitVec 32) (j : Map Join) (k : Nat) : Map Join :=
  Map.put j (lb * 16 + k) { Map.getD j (lb * 16 + k) { enr := 0, arr := 0 } with
    enr := (Map.getD j (lb * 16 + k) { enr := 0, arr := 0 }).enr &&& ~~~m }

/-- A squad of which lanes have exited: they are struck from every register. -/
def struck (lb : Nat) (m : BitVec 32) (sq : Squad) : Squad :=
  { sq with exited := Map.put sq.exited lb (exitedOf sq lb ||| m), j := (List.range 16).foldl (strikeJoin lb m) sq.j }

@[simp] theorem exitedOf_struck (lb : Nat) (m : BitVec 32) (sq : Squad) : exitedOf (struck lb m sq) lb = exitedOf sq lb ||| m := by
  simp [exitedOf, struck]

theorem joinOf_struck (lb : Nat) (m : BitVec 32) (sq : Squad) {k : Nat} (hk : k < 16) :
    joinOf (struck lb m sq) lb k = { joinOf sq lb k with enr := (joinOf sq lb k).enr &&& ~~~m } := by
  obtain ⟨j, hj, hv⟩ := foldl_touches_once (fun j : Map Join => Map.getD j (lb * 16 + k) { enr := 0, arr := 0 }) (strikeJoin lb m) k
    (fun j i hi => Map.getD_put_ne _ _ _ _ _ (by omega)) (List.range 16) List.nodup_range (List.mem_range.2 hk) sq.j
  unfold joinOf struck
  dsimp only at hj hv ⊢
  rw [hv, strikeJoin, Map.getD_put_self, hj]

theorem strikeJoins_eq (lb : Nat) (m : BitVec 32) (ks : List Nat) : ∀ sq : Squad,
    ks.foldl (fun sq k => setJoin sq lb k { joinOf sq lb k with enr := (joinOf sq lb k).enr &&& ~~~m }) sq
      = { sq with j := ks.foldl (strikeJoin lb m) sq.j } := by
  induction ks with
  | nil => exact fun _ => rfl
  | cons k ks ih =>
    intro sq
    rw [List.foldl_cons, ih, List.foldl_cons]
    rfl

/-! The test of a register in a fold over all of them. -/

theorem conv_testJoin (s : State) (w q lb k : Nat) : (sqAt (testJoin s w q lb k) w q).conv = (sqAt s w q).conv := by
  rw [testJoin_eq]
  split
  · rw [conv_of_still (still_endWaits _ w q _), sqAt_modSq_keeps Squad.conv]
    exact fun _ => rfl
  · rfl

/-- The test of one register does not change whether another is satisfied. -/
theorem satisfied_testJoin_ne {s : State} {w q : Nat} (lb : Nat) {i k : Nat} (hik : i ≠ k) (h : isSquad s w q) :
    joinSatisfied (sqAt (testJoin s w q lb i) w q) lb (joinOf (sqAt (testJoin s w q lb i) w q) lb k)
      = joinSatisfied (sqAt s w q) lb (joinOf (sqAt s w q) lb k) := by
  have hjoin : joinOf (sqAt (testJoin s w q lb i) w q) lb k = joinOf (sqAt s w q) lb k := by
    rw [testJoin_eq]
    split
    · rw [joinOf_of_still (still_endWaits _ w q _), sqAt_modSq_self s w q _ h.1 h.2, joinOf_setJoin_ne _ _ _ _ _ (Ne.symm hik)]
    · rfl
  have hexited := (releases_testJoin lb i h).exited
  simp only [joinSatisfied, exitedOf, hjoin, hexited]

/-- Tests of every register release who waits on a satisfied one. -/
theorem released_testJoins {s : State} {w q lb k : Nat} {x : Waiter} (ks : List Nat) (hk : k ∈ ks) (hx : x ∈ (sqAt s w q).waiters) (hlb : x.lb = lb)
    (hwhy : x.why = .join k) (hsat : joinSatisfied (sqAt s w q) lb (joinOf (sqAt s w q) lb k) = true) :
    released (ks.foldl (fun s k => testJoin s w q lb k) s) w q x := by
  have h := foldl_establishes (f := fun s k => testJoin s w q lb k) (k := k)
    (before := fun s => x ∈ (sqAt s w q).waiters ∧ joinSatisfied (sqAt s w q) lb (joinOf (sqAt s w q) lb k) = true)
    (after := fun s => isSquad s w q ∧ released s w q x)
    (fun s j hj hs => ⟨mem_waiters_testJoin hs.1 (by rw [hwhy]; exact fun e => hj (by injection e with e; exact e.symm)),
      (satisfied_testJoin_ne lb hj (isSquad_of_waiter hs.1)).trans hs.2⟩)
    (fun s hs => ⟨(releases_testJoin lb k (isSquad_of_waiter hs.1)).there (isSquad_of_waiter hs.1), released_testJoin hs.1 hlb hwhy hs.2⟩)
    (fun s j hs => ⟨(releases_testJoin lb j hs.1).there hs.1, released_of_releases (releases_testJoin lb j hs.1) hs.2⟩) ks hk s ⟨hx, hsat⟩
  exact h.2

/-! Convergence registers that lose their operation (R98). -/

/-- A register whose open operation has ended. -/
def Conv.aborted (c : Conv) : Conv := { c with st := 1, signed := [], full := [], open_ := none }

/-- The end of an operation, as a change of the squad: its signers are to park. -/
def abortedConv (k : Nat) (c : Conv) (d : List (Nat × Nat × Option (List Word))) (sq : Squad) : Squad :=
  { setConv sq k c.aborted with doomed := sq.doomed ++ d }

/-- The end of a register's operation is a change of the squad, and a record where it was open and signed. -/
theorem abortConv_cases (s : State) (w q k sub : Nat) : ∃ d t, t = modSq s w q (abortedConv k (convOf (sqAt s w q) k) d) ∧
    ((abortConv s w q k sub = t ∧ ¬((convOf (sqAt s w q) k).signed ≠ [] ∧ (convOf (sqAt s w q) k).open_ ≠ none))
      ∨ ∃ lb lane cls p, abortConv s w q k sub = reportThread t w q lb lane (threadRecord t w q lb lane cls p (faultInfo 0x08 sub))) := by
  refine ⟨((convOf (sqAt s w q) k).signed.filter (fun t => !inMask (exitedOf (sqAt s w q) (t / 32)) (t % 32))).map (fun t => (t / 32, t % 32, none)), _, rfl, ?_⟩
  cases hs : (convOf (sqAt s w q) k).signed with
  | nil => exact .inl ⟨by simp only [abortConv, hs]; rfl, by simp⟩
  | cons t ts =>
    cases ho : (convOf (sqAt s w q) k).open_ with
    | none => exact .inl ⟨by simp only [abortConv, hs, ho]; rfl, by simp⟩
    | some o =>
      refine .inr ⟨t / 32, t % 32, 3, o.2, ?_⟩
      simp only [abortConv, hs, ho]
      rfl

theorem releases_abortConv (s : State) (w q k sub : Nat) : Releases w q s (abortConv s w q k sub) := by
  obtain ⟨d, t, ht, h⟩ := abortConv_cases s w q k sub
  have hchange : Releases w q s t := by
    rw [ht]
    exact releases_modSq (abortedConv k _ d) (fun _ => ⟨rfl, rfl, rfl, rfl⟩)
  rcases h with ⟨h, -⟩ | ⟨lb, lane, cls, p, h⟩ <;> rw [h]
  · exact hchange
  · exact hchange.trans (releases_reportThread _ _ _ _ _ _ _ _)

theorem convOf_abortConv {s : State} {w q : Nat} (h : isSquad s w q) (k sub i : Nat) : convOf (sqAt (abortConv s w q k sub) w q) i =
    if i = k then (convOf (sqAt s w q) k).aborted else convOf (sqAt s w q) i := by
  obtain ⟨d, t, ht, he⟩ := abortConv_cases s w q k sub
  have hchange : convOf (sqAt t w q) i = if i = k then (convOf (sqAt s w q) k).aborted else convOf (sqAt s w q) i := by
    rw [ht, sqAt_modSq_self s w q _ h.1 h.2]
    unfold abortedConv setConv convOf
    dsimp only
    split
    · rename_i hik
      rw [hik, Map.getD_put_self]
    · rename_i hik
      rw [Map.getD_put_ne _ _ _ _ _ hik]
  rcases he with ⟨he, -⟩ | ⟨lb, lane, cls, p, he⟩ <;> rw [he]
  · exact hchange
  · rw [sqAt_of_wgs (wgs_reportThread _ _ _ _ _ _)]
    exact hchange

theorem hasRecord_abortConv {s : State} {w q k sub : Nat} (hsub : sub < 256) (hsigned : (convOf (sqAt s w q) k).signed ≠ [])
    (hopen : (convOf (sqAt s w q) k).open_ ≠ none) : hasRecord (abortConv s w q k sub) 0x08 sub := by
  obtain ⟨d, t, -, ⟨-, hnot⟩ | ⟨lb, lane, cls, p, he⟩⟩ := abortConv_cases s w q k sub
  · exact absurd ⟨hsigned, hopen⟩ hnot
  · rw [he]
    refine ⟨_, (recordsOf_reportThread _ _ _ _ _ _).1, ?_⟩
    exact recordOf_code _ _ _ _ _ _ _ _ _ _ _ _ (by simp [faultInfo]) (by simpa [faultInfo] using hsub) (by simp [faultInfo]) (by simp [faultInfo])

/-- A register that threads of a squad should still sign. -/
def missesSigner (c : Conv) (tids : List Nat) : Bool :=
  c.st == 2 && tids.any (fun t => decide (c.first ≤ t) && decide (t < c.first + c.count) && !c.signed.contains t)

/-- What the exit of threads does to one register. -/
def exitConvAt (w q : Nat) (tids : List Nat) (s : State) (k : Nat) : State :=
  if missesSigner (convOf (sqAt s w q) k) tids then abortConv s w q k 4 else s

theorem exitConv_eq (s : State) (w q : Nat) (tids : List Nat) : exitConv s w q tids = (List.range 8).foldl (exitConvAt w q tids) s := rfl

theorem releases_exitConvAt (w q : Nat) (tids : List Nat) (s : State) (k : Nat) : Releases w q s (exitConvAt w q tids s k) := by
  unfold exitConvAt
  split
  · exact releases_abortConv s w q k 4
  · exact .refl w q s

theorem releases_exitConv {s : State} {w q : Nat} (tids : List Nat) (h : isSquad s w q) : Releases w q s (exitConv s w q tids) := by
  rw [exitConv_eq]
  exact .foldl (fun s k _ => releases_exitConvAt w q tids s k) _ s h

theorem convOf_exitConvAt_ne {s : State} {w q i k : Nat} (tids : List Nat) (h : isSquad s w q) (hik : i ≠ k) :
    convOf (sqAt (exitConvAt w q tids s i) w q) k = convOf (sqAt s w q) k := by
  unfold exitConvAt
  split
  · rw [convOf_abortConv h, if_neg (Ne.symm hik)]
  · rfl

/-- The exit of a thread that a register misses ends the register's operation, with a record where it was open and signed. -/
theorem exitConv_aborts {s : State} {w q k : Nat} {tids : List Nat} {c : Conv} (hk : k < 8) (h : isSquad s w q) (hc : convOf (sqAt s w q) k = c)
    (hmiss : missesSigner c tids = true) : convOf (sqAt (exitConv s w q tids) w q) k = c.aborted
      ∧ (c.signed ≠ [] → c.open_ ≠ none → hasRecord (exitConv s w q tids) 0x08 4) := by
  rw [exitConv_eq]
  have hthere : ∀ s i, isSquad s w q → isSquad (exitConvAt w q tids s i) w q := fun s i => (releases_exitConvAt w q tids s i).there
  have hover : missesSigner c.aborted tids = false := by simp [missesSigner, Conv.aborted]
  have hend := foldl_establishes (f := exitConvAt w q tids) (k := k)
    (before := fun s => isSquad s w q ∧ convOf (sqAt s w q) k = c)
    (after := fun s => isSquad s w q ∧ convOf (sqAt s w q) k = c.aborted ∧ (c.signed ≠ [] → c.open_ ≠ none → hasRecord s 0x08 4))
    (fun s j hj hs => ⟨hthere s j hs.1, (convOf_exitConvAt_ne tids hs.1 hj).trans hs.2⟩) (fun s hs => ?_) (fun s j hs => ?_)
    (List.range 8) (List.mem_range.2 hk) s ⟨h, hc⟩
  · exact hend.2
  · obtain ⟨hsq, rfl⟩ := hs
    refine ⟨hthere s k hsq, ?_, ?_⟩ <;> rw [exitConvAt, if_pos hmiss]
    · rw [convOf_abortConv hsq, if_pos rfl]
    · exact hasRecord_abortConv (by decide)
  · obtain ⟨hsq, hconv, hrecord⟩ := hs
    refine ⟨hthere s j hsq, ?_, fun h1 h2 => ?_⟩
    · by_cases hj : j = k
      · subst hj
        rw [exitConvAt, hconv, hover]
        exact hconv
      · rw [convOf_exitConvAt_ne tids hsq hj, hconv]
    · obtain ⟨r, hr, hcode⟩ := hrecord h1 h2
      exact ⟨r, (releases_exitConvAt w q tids s j).records r hr, hcode⟩

/-! The exit (R78). -/

/-- The threads of an exit, by their numbers in the squad. -/
def exitTids (lb : Nat) (m : BitVec 32) : List Nat := (lanesOf m).map (fun l => lb * 32 + l)

theorem exitThreads_eq (s : State) (w q lb : Nat) {m : BitVec 32} (hm : m ≠ 0) : exitThreads s w q lb m =
    exitConv ((List.range 16).foldl (fun s k => testJoin s w q lb k) (modSq s w q (struck lb m))) w q (exitTids lb m) := by
  have hstruck : (fun sq : Squad => (List.range 16).foldl (fun sq k => setJoin sq lb k { joinOf sq lb k with enr := (joinOf sq lb k).enr &&& ~~~m })
      { sq with exited := Map.put sq.exited lb (exitedOf sq lb ||| m) }) = struck lb m := by
    funext sq
    rw [strikeJoins_eq]
    rfl
  rw [← hstruck]
  exact if_neg hm

theorem exec_exit {s : State} {u : Bundle} (h : Issuing s u) : exec .exit s = .next
    (exitThreads (advance { s with cur := none } u (u.e.mask &&& ~~~(activeMask s u))) u.wg u.sq u.e.lb (activeMask s u)) := by
  show execExit s = _
  rw [execExit, withBundle_issuing h]
  rfl

/-- The machine with the guard-false threads of a bundle gone on, and its guard-true threads struck. -/
def exitStruck (s : State) (u : Bundle) : State :=
  modSq (advance { s with cur := none } u (u.e.mask &&& ~~~(activeMask s u))) u.wg u.sq (struck u.e.lb (activeMask s u))

/-- The same, with the tests of the registers. -/
def exitTested (s : State) (u : Bundle) : State := (List.range 16).foldl (fun s k => testJoin s u.wg u.sq u.e.lb k) (exitStruck s u)

section Exit

variable {s : State} {u : Bundle} (h : Issuing s u)

include h

theorem isSquad_restAdvanced : isSquad (advance { s with cur := none } u (u.e.mask &&& ~~~(activeMask s u))) u.wg u.sq :=
  (movesOnly_advance { s with cur := none } u (fun _ => inMask_of_rest)).present h.present

theorem isSquad_exitStruck : isSquad (exitStruck s u) u.wg u.sq := isSquad_modSq _ (isSquad_restAdvanced h)

theorem squadOf_exitStruck : squadOf (exitStruck s u) u =
    struck u.e.lb (activeMask s u) (squadOf (advance { s with cur := none } u (u.e.mask &&& ~~~(activeMask s u))) u) :=
  sqAt_modSq_self _ _ _ _ (isSquad_restAdvanced h).1 (isSquad_restAdvanced h).2

theorem exitedOf_exitStruck : exitedOf (squadOf (exitStruck s u) u) u.e.lb = exitedOf (squadOf s u) u.e.lb ||| activeMask s u := by
  have hstill : still (advance { s with cur := none } u (u.e.mask &&& ~~~(activeMask s u))) = still s := by simp
  have hexited := exited_of_still hstill u.wg u.sq
  rw [squadOf_exitStruck h, exitedOf_struck]
  simp only [exitedOf, squadOf, hexited]

theorem joinOf_exitStruck {k : Nat} (hk : k < 16) : joinOf (squadOf (exitStruck s u) u) u.e.lb k =
    { joinOf (squadOf s u) u.e.lb k with enr := (joinOf (squadOf s u) u.e.lb k).enr &&& ~~~(activeMask s u) } := by
  have hstill : still (advance { s with cur := none } u (u.e.mask &&& ~~~(activeMask s u))) = still s := by simp
  rw [squadOf_exitStruck h, joinOf_struck _ _ _ hk]
  unfold squadOf
  rw [joinOf_of_still hstill]

theorem convOf_exitStruck (k : Nat) : convOf (squadOf (exitStruck s u) u) k = convOf (squadOf s u) k := by
  have hstill : still (advance { s with cur := none } u (u.e.mask &&& ~~~(activeMask s u))) = still s := by simp
  have hconv := conv_of_still hstill u.wg u.sq
  rw [squadOf_exitStruck h]
  simp only [convOf, struck, squadOf, hconv]

theorem releases_exitTested : Releases u.wg u.sq (exitStruck s u) (exitTested s u) :=
  .foldl (fun _ k hs => releases_testJoin u.e.lb k hs) _ _ (isSquad_exitStruck h)

omit h in
theorem convOf_exitTested (k : Nat) : convOf (squadOf (exitTested s u) u) k = convOf (squadOf (exitStruck s u) u) k := by
  have hconv := foldl_keeps (fun s => (sqAt s u.wg u.sq).conv) (fun s k => testJoin s u.wg u.sq u.e.lb k) (fun s k => conv_testJoin s _ _ _ k)
    (List.range 16) (exitStruck s u)
  simp only [convOf, squadOf, exitTested, hconv]

/-- Threads that have exited, and those that went on, after what comes behind the strike. -/
theorem exit_met {t : State} (ht : Releases u.wg u.sq (exitStruck s u) t) {l : Nat} (hlt : l < 32) (hl : inMask u.e.mask l = true) :
    met t u l (activeFate .exited s u l) := by
  refine activeFate_met (F := fun _ => .exited) h.present (fun l hon => ht.stand _ _ _ ?_) (fun l ha => ?_) hlt hl
  · show standsAt (squadOf (exitStruck s u) u) _ _ _
    rw [squadOf_exitStruck h]
    exact hon
  · have hexited : exitedOf (squadOf t u) u.e.lb = exitedOf (squadOf (exitStruck s u) u) u.e.lb := by
      simp only [exitedOf, squadOf, ht.exited]
    show inMask (exitedOf (squadOf t u) u.e.lb) l = true
    rw [hexited, exitedOf_exitStruck h, inMask_or, ha, Bool.or_true]

/-- An exit where nothing waits for its register's test and no register is open. -/
theorem exitThreads_alone (hg : activeMask s u ≠ 0) (harr : ∀ k, k < 16 → (joinOf (squadOf s u) u.e.lb k).arr = 0)
    (hconv : ∀ k, k < 8 → (convOf (squadOf s u) k).st ≠ 2) : exec .exit s = .next (exitStruck s u) := by
  have htests : (List.range 16).foldl (fun s k => testJoin s u.wg u.sq u.e.lb k) (exitStruck s u) = exitStruck s u :=
    foldl_fixed _ (fun k hk => testJoin_of_unsatisfied (by
      have hj := joinOf_exitStruck h (List.mem_range.1 hk)
      rw [squadOf] at hj
      simp [hj, joinSatisfied, harr k (List.mem_range.1 hk)]))
  rw [exec_exit h, exitThreads_eq _ _ _ _ hg]
  refine congrArg Host.Outcome.next ?_
  show exitConv (exitTested s u) u.wg u.sq (exitTids u.e.lb (activeMask s u)) = exitStruck s u
  rw [exitTested, htests, exitConv_eq]
  refine foldl_fixed _ (fun k hk => ?_)
  have hc := convOf_exitStruck h k
  rw [squadOf] at hc
  have hnot : missesSigner (convOf (squadOf s u) k) (exitTids u.e.lb (activeMask s u)) = false := by
    simp [missesSigner, hconv k (List.mem_range.1 hk)]
  rw [exitConvAt, hc, hnot]
  rfl

omit h in
theorem othersStay_exitStruck : othersStay s (exitStruck s u) u := by
  refine (othersStay_of_wgs (t := { s with cur := none }) u rfl (fun _ hr => hr)).trans
    ((movesOnly_advance _ u (fun _ => inMask_of_rest)).others.trans (othersStay_modSq _ u _ (fun x => ?_)))
  exact ⟨fun _ _ _ _ => .rfl, rfl, fun _ _ => .rfl⟩

omit h in
theorem still_exitStruck : still (exitStruck s u) = still (inSquad s u (struck u.e.lb (activeMask s u))) :=
  still_modSq_congr (by simp) u.wg u.sq _ (fun _ => rfl)

/-- An exit with its tests of the rejoin masks and the convergence registers (R71, R98). -/
theorem exit_tests (hg : activeMask s u ≠ 0) : ∃ t, exec .exit s = .next t ∧ Releases u.wg u.sq (exitTested s u) t
    ∧ ∀ k c, k < 8 → convOf (squadOf s u) k = c → missesSigner c (exitTids u.e.lb (activeMask s u)) = true →
      convOf (squadOf t u) k = c.aborted ∧ (c.signed ≠ [] → c.open_ ≠ none → hasRecord t 0x08 4) := by
  have hsq := (releases_exitTested h).there (isSquad_exitStruck h)
  refine ⟨_, (exec_exit h).trans (congrArg _ (exitThreads_eq _ _ _ _ hg)), releases_exitConv (exitTids u.e.lb (activeMask s u)) hsq, ?_⟩
  intro k c hk hc hmiss
  exact exitConv_aborts hk hsq ((convOf_exitTested k).trans ((convOf_exitStruck h k).trans hc)) hmiss

/-- An exit that leaves a register satisfied, of those in which threads had arrived, releases them. -/
theorem released_exitTested {k : Nat} (hk : k < 16) (harr : (joinOf (squadOf s u) u.e.lb k).arr ≠ 0)
    (hall : (joinOf (squadOf s u) u.e.lb k).enr &&& ~~~(joinOf (squadOf s u) u.e.lb k).arr
      &&& ~~~(exitedOf (squadOf s u) u.e.lb ||| activeMask s u) = 0)
    {x : Waiter} (hx : x ∈ (squadOf s u).waiters) (hlb : x.lb = u.e.lb) (hwhy : x.why = .join k) : released (exitTested s u) u.wg u.sq x := by
  refine released_testJoins _ (List.mem_range.2 hk) ?_ hlb hwhy ?_
  · show x ∈ (squadOf (exitStruck s u) u).waiters
    rw [squadOf_exitStruck h]
    show x ∈ (squadOf (advance _ u _) u).waiters
    rw [waiters_advance]
    exact hx
  · show joinSatisfied (squadOf (exitStruck s u) u) u.e.lb (joinOf (squadOf (exitStruck s u) u) u.e.lb k) = true
    have hstruck : ∀ e a x g : BitVec 32, e &&& ~~~a &&& ~~~(x ||| g) = 0 → e &&& ~~~g &&& ~~~a &&& ~~~(x ||| g) = 0 := by
      intro e a x g hz
      refine mask_ext _ _ (fun l hl => ?_)
      have hzl := congrArg (inMask · l) hz
      simp [hl] at hzl ⊢
      tauto
    simpa [joinSatisfied, joinOf_exitStruck h hk, exitedOf_exitStruck h, hstruck _ _ _ _ hall] using harr

end Exit

theorem missesSigner_of_active {c : Conv} {lb : Nat} {m : BitVec 32} {l : Nat} (hst : c.st = 2) (hl : inMask m l = true) (hfirst : c.first ≤ lb * 32 + l)
    (hlast : lb * 32 + l < c.first + c.count) (hsigned : lb * 32 + l ∉ c.signed) : missesSigner c (exitTids lb m) = true := by
  have hmem : lb * 32 + l ∈ exitTids lb m := List.mem_map_of_mem (f := fun l => lb * 32 + l) ((mem_lanesOf m l).2 ⟨inMask_lt m l hl, hl⟩)
  simp only [missesSigner, hst, beq_self_eq_true, Bool.true_and, List.any_eq_true]
  exact ⟨_, hmem, by simp [hfirst, hlast, hsigned]⟩

/-! The instructions. -/

theorem othersStay_cur (s : State) (u : Bundle) : othersStay s { s with cur := none } u := othersStay_of_wgs u rfl (fun _ hr => hr)

theorem yld_alone : doesAlone .yld (fun _ _ => True) (fun s _ => s) allOn :=
  doesAlone_of_moves (fun s u h _ => by
    have hmoves : MovesOnly (u.marked s) { s with cur := none } (advance { s with cur := none } (u.marked s) u.e.mask) :=
      movesOnly_advance _ (u.marked s) (fun _ => id)
    exact ⟨{ s with cur := none }, _, exec_yld h, rfl, othersStay_cur s u, ⟨hmoves.still, hmoves.fates, hmoves.others⟩,
      fun l _ hl => advance_met _ (u.marked s) _ l h.present.1 h.present.2 hl⟩)

theorem bra_alone (o : BitVec 22) : doesAlone (.bra o) (fun _ _ => True) (fun s _ => s)
    (fun s u l => activeFate (.on (headerPlace (u.e.place.pc + o.signExtend 52 * 4))) s u l) :=
  doesAlone_of_moves (fun s u h _ => ⟨{ s with cur := none }, _, exec_bra h o, rfl, othersStay_cur s u, movesOnly_sendActive s _ u _,
    fun _ hlt hl => sendActive_met h.present _ hlt hl⟩)

theorem call_alone (o : BitVec 22) : doesAlone (.call o) (fun _ _ => True)
    (fun s u => inSquad s u (linked u (activeMask s u) ((linkOf u.e.place).zeroExtend 64)))
    (fun s u l => activeFate (.on (headerPlace (u.e.place.pc + o.signExtend 52 * 4))) s u l) :=
  doesAlone_of_moves (fun s u h _ => ⟨_, _, exec_call h o, still_modSq_congr (still_cur s none) _ _ _ (fun _ => rfl),
    (othersStay_cur s u).trans (othersStay_modSq _ u _ (fun _ => ⟨fun _ _ _ _ => .rfl, rfl, fun _ _ => .rfl⟩)), movesOnly_sendActive s _ u _,
    fun _ hlt hl => sendActive_met (isSquad_modSq _ h.present) _ hlt hl⟩)

theorem brx_alone (a : BitVec 6) (m : BitVec 2) : doesAlone (.brx a m) (fun _ _ => a.toNat % 2 = 0) (fun s _ => s)
    (fun s u l => activeFate (jumpFate u (w64 (stage s u { a := some ⟨a, m, 2⟩ } l).a)) s u l) :=
  doesAlone_of_moves (fun s u h ha => ⟨{ s with cur := none }, _, exec_brx h a m ha, rfl, othersStay_cur s u, movesOnly_jumpPairs s _ u _ _,
    fun _ hlt hl => jumpPairs_met h.present _ (fun l => w64 (stage s u { a := some ⟨a, m, 2⟩ } l).a) hlt hl⟩)

theorem ret_alone : doesAlone .ret (fun _ _ => True) (fun s _ => s)
    (fun s u l => activeFate (jumpFate u (w64 (stage s u { a := some (own 62 2) } l).a)) s u l) :=
  doesAlone_of_moves (fun s u h _ => ⟨{ s with cur := none }, _, exec_ret h, rfl, othersStay_cur s u, movesOnly_jumpPairs s _ u _ _,
    fun _ hlt hl => jumpPairs_met h.present _ (fun l => w64 (stage s u { a := some (own 62 2) } l).a) hlt hl⟩)

theorem brk_alone (n : BitVec 8) : doesAlone (.brk n) (fun _ _ => True) (fun s _ => s) (fun s u l => activeFate (.parked u.next 0x28 0) s u l) :=
  doesAlone_of_moves (fun s u h _ => by
    have hinfo : (breakInfo n).code < 256 ∧ (breakInfo n).sub < 256 ∧ (breakInfo n).ucode < 256 ∧ (breakInfo n).imm < 256 := by
      refine ⟨?_, ?_, ?_, n.isLt⟩ <;> simp [breakInfo, faultInfo]
    have hstop := movesOnly_stopAt u { s with cur := none } (breakInfo n)
    have hmet := fun l (hlt : l < 32) hl => stopAt_met (l := l) h.present (breakInfo n) hinfo hlt hl
    refine ⟨{ s with cur := none }, _, exec_brk h n, rfl, othersStay_cur s u, ?_⟩
    split
    · exact ⟨hstop, hmet⟩
    · exact ⟨hstop.trans (movesOnly_stopSquad _ u), fun l hlt hl => (movesOnly_stopSquad _ u).fates l _ (hmet l hlt hl)⟩)

theorem trap_alone (n : BitVec 8) : doesAlone (.trap n) (fun _ _ => True) (fun s _ => s) (fun s u l => activeFate (.parked u.next 0x29 0) s u l) :=
  doesAlone_of_moves (fun s u h _ => by
    have hinfo : (trapInfo n).code < 256 ∧ (trapInfo n).sub < 256 ∧ (trapInfo n).ucode < 256 ∧ (trapInfo n).imm < 256 := by
      refine ⟨?_, ?_, ?_, n.isLt⟩ <;> simp [trapInfo, faultInfo]
    exact ⟨{ s with cur := none }, _, exec_trap h n, rfl, othersStay_cur s u, movesOnly_stopAt u _ (trapInfo n), fun l hlt hl => stopAt_met h.present (trapInfo n) hinfo hlt hl⟩)

/-- What an exit that no test follows does, apart from where threads stand. -/
def exitEffect (s : State) (u : Bundle) : State := if activeMask s u = 0 then s else inSquad s u (struck u.e.lb (activeMask s u))

theorem exit_alone : doesAlone .exit
    (fun s u => (∀ k, k < 16 → (joinOf (squadOf s u) u.e.lb k).arr = 0) ∧ ∀ k, k < 8 → (convOf (squadOf s u) k).st ≠ 2)
    exitEffect (fun s u l => activeFate .exited s u l) := by
  refine doesAlone_of (fun s u h hpre => ?_)
  obtain ⟨harr, hconv⟩ := hpre
  by_cases hg : activeMask s u = 0
  · have hmoves : MovesOnly u { s with cur := none } (advance { s with cur := none } u (u.e.mask &&& ~~~(activeMask s u))) :=
      movesOnly_advance _ u (fun _ => inMask_of_rest)
    refine ⟨_, (exec_exit h).trans (congrArg _ (if_pos hg)), ?_, (othersStay_cur s u).trans hmoves.others, fun l hlt hl => ?_⟩
    · rw [exitEffect, if_pos hg]
      exact hmoves.still
    · exact activeFate_met (F := fun _ => .exited) h.present (fun _ hon => hon) (fun l ha => by simp [hg] at ha) hlt hl
  · refine ⟨_, exitThreads_alone h hg harr hconv, ?_, othersStay_exitStruck, fun l hlt hl => exit_met h (.refl _ _ _) hlt hl⟩
    rw [exitEffect, if_neg hg]
    exact still_exitStruck

/-- The seat of the entry of a bundle that yields. -/
theorem yld_seats {s : State} {u : Bundle} (h : Issuing s u) (hm : u.e.mask ≠ 0) :
    seated (squadOf s u) (squadOf (advance { s with cur := none } (u.marked s) u.e.mask) u)
      { u.e with place := u.next, notBefore := (squadOf s u).cycle + 1, age := 0, pwait := 0, replay := []
                 yielded := u.e.yielded || decide (activeMask s u ≠ 0) } := by
  have hissuing : Issuing { s with cur := some (.bundle (u.marked s)) } (u.marked s) := ⟨rfl, h.2⟩
  exact (advance_all_completes hissuing).2 hm

/-- Settles O13: each instruction moves its own threads alone, and an exit makes the tests of R71 and R98. -/
theorem controlFlow : Obligations.ControlFlow := by
  unfold Obligations.ControlFlow
  refine ⟨⟨yld_alone, bra_alone, call_alone, brx_alone, ret_alone, exit_alone, brk_alone, trap_alone⟩, fun s u h hg => ?_,
    fun s u h hm => ⟨_, exec_yld h, yld_seats h hm⟩⟩
  obtain ⟨t, hexec, hreleases, hconv⟩ := exit_tests h hg
  refine ⟨t, hexec, fun l hlt hl => exit_met h ((releases_exitTested h).trans hreleases) hlt hl, fun k hk harr hall x hx hlb hwhy => ?_, ?_⟩
  · exact released_of_releases hreleases (released_exitTested h hk harr hall hx hlb hwhy)
  · intro k l hk hst hl _ hfirst hlast hsigned
    exact hconv k _ hk rfl (missesSigner_of_active hst hl hfirst hlast hsigned)

end Sys2Proof.Machine
end

section
/-! PROOF. Pre-emption: which workgroups leave their cores, and what their treatment keeps (R341 to R343, R345). -/

namespace Sys2Proof.Machine

/-! What the end of engine work keeps of every workgroup. -/

/-- What says which gang a workgroup is of, whose trap kernel it is, and whether it is placed. -/
def Wg.role (g : Wg) : Nat × Nat × Nat × Bool × Nat × Nat × Nat × Option Nat :=
  (g.launch, g.gang, g.gangSize, g.aligned, g.level, g.ctx, g.status, g.trapOf)

/-- The workgroups' roles and what pre-emptions have made of them, with the launches and the contexts. -/
def rolls (s : State) : List ((Nat × Nat × Nat × Bool × Nat × Nat × Nat × Option Nat) × Option Nat) × List Launch × Map Ctx :=
  (s.wgs.map (fun g => (g.role, g.leaving)), s.launches, s.ctxs)

theorem rolls_of_still {s t : State} (e : still s = still t) : rolls s = rolls t := by
  have hview : ∀ s : State, rolls s = ((still s).wgs.map (fun g => (g.role, g.leaving)), (still s).launches, (still s).ctxs) := by
    intro s
    simp only [rolls, still_def, List.map_map]
    rfl
  rw [hview, hview, e]

theorem rolls_modWg (s : State) (w : Nat) (f : Wg → Wg) (h : ∀ g, (f g).role = g.role ∧ (f g).leaving = g.leaving) : rolls (modWg s w f) = rolls s := by
  have hmap := map_modAt (fun g : Wg => (g.role, g.leaving)) f id (fun g => by rw [(h g).1, (h g).2]; rfl) s.wgs w
  rw [modAt_same id (fun _ => rfl)] at hmap
  exact congrArg (fun l => (l, s.launches, s.ctxs)) hmap

theorem still_parkWaiters (s : State) (w q : Nat) (picks : Waiter → Bool) (i : FaultInfo) : still (parkWaiters s w q picks i) = still s := by
  unfold parkWaiters
  refine (foldl_keeps still _ (fun t x => by simp) _ _).trans ?_
  exact still_modSq_same s w q _ (fun _ => rfl)

theorem still_parkOnBarrier (s : State) (w k sub : Nat) : still (parkOnBarrier s w k sub) = still s :=
  foldl_keeps still _ (fun t q => still_parkWaiters t w q _ _) _ s

theorem rolls_setBar (s : State) (w k : Nat) (b : Wg → Bar) : rolls (modWg s w (fun g => setBar g k (b g))) = rolls s :=
  rolls_modWg s w _ (fun _ => ⟨rfl, rfl⟩)

theorem rolls_testBarrier (s : State) (w k : Nat) : rolls (testBarrier s w k) = rolls s := by
  unfold testBarrier
  dsimp only
  split
  · split
    · rw [rolls_of_still (still_endWaitsWg _ w _), rolls_setBar]
    · rw [rolls_of_still (still_parkOnBarrier _ w k 2), rolls_of_still (still_endWaitsWg _ w _), rolls_setBar]
  · rfl

theorem rolls_breakBarrier (s : State) (w k sub engine : Nat) (bytes : Int) (cls ectx : Nat) (p : Place) :
    rolls (breakBarrier s w k sub engine bytes cls ectx p) = rolls s := by
  unfold breakBarrier
  dsimp only
  rw [rolls_of_still (still_parkOnBarrier _ w k sub), rolls_of_still (still_postRecord _ _ _), rolls_setBar]

theorem rolls_engineArrive (s : State) (w k bytes engine cls ectx : Nat) (p : Place) : rolls (engineArrive s w k bytes engine cls ectx p) = rolls s := by
  unfold engineArrive
  dsimp only
  split
  · rw [rolls_testBarrier, rolls_setBar]
  · split
    · rfl
    · exact rolls_breakBarrier s w k _ engine _ cls ectx p

theorem rolls_runFences (w n : Nat) : ∀ s, rolls (runFences s w n) = rolls s := by
  induction n with
  | zero => exact fun _ => rfl
  | succ n ih =>
    intro s
    unfold runFences
    split
    · split
      · rw [ih, rolls_engineArrive]
        rfl
      · rfl
    · rfl

theorem rolls_matSettle (s : State) (w : Nat) : rolls (matSettle s w) = rolls s := by
  unfold matSettle
  rw [rolls_of_still (still_endWaitsWg _ w _), rolls_runFences]

theorem rolls_undoRuns (s : State) (gone : List MatOp) (w : Nat) : rolls (undoRuns s gone w) = rolls s := by
  unfold undoRuns
  split
  · rfl
  · exact rolls_modWg s w _ (fun _ => ⟨rfl, rfl⟩)

theorem rolls_dropOps (s : State) (ids : List Nat) : rolls (dropOps s ids) = rolls s := by
  unfold dropOps
  dsimp only
  rw [foldl_keeps rolls matSettle rolls_matSettle]
  exact foldl_keeps rolls _ (fun t w => rolls_undoRuns t _ w) _ s

theorem rolls_endCes (s : State) (w st : Nat) : rolls (endCes s w st) = rolls s := by
  unfold endCes
  refine foldl_keeps rolls _ (fun t k => ?_) _ s
  dsimp only
  split <;> rfl

theorem rolls_discardMat (s : State) (w : Nat) : rolls (discardMat s w) = rolls s := rolls_dropOps s _

theorem rolls_abandonXfers (s : State) (w : Nat) : rolls (abandonXfers s w) = rolls s := rfl

/-- The machine with the engine work of a flushed workgroup ended. -/
def flushEnded (s : State) (w : Nat) : State :=
  let t := abandonXfers (discardMat (endCes s w 5) w) w
  { t with devOps := t.devOps.filter (fun p => p.2.wg != w) }

/-- A flushed workgroup, with nothing left of what it ran. -/
def Wg.flushed (g : Wg) : Wg :=
  { g with squads := g.squads.map emptySquad, arrivals := [], discard := [], saved := Saved.none, leaving := some 3 }

theorem rolls_flushEnded (s : State) (w : Nat) : rolls (flushEnded s w) = rolls s := by
  have hdev : ∀ (t : State) d, rolls { t with devOps := d } = rolls t := fun _ _ => rfl
  unfold flushEnded
  rw [hdev, rolls_abandonXfers, rolls_discardMat, rolls_endCes]

theorem flushWg_eq (s : State) (w : Nat) : flushWg s w = modWg (flushEnded s w) w Wg.flushed := rfl

/-! Treatments. -/

theorem role_of_map {s t : State} (h : t.wgs.map Wg.role = s.wgs.map Wg.role) (w : Nat) : (wgAt t w).role = (wgAt s w).role := by
  have hview : ∀ s : State, (wgAt s w).role = (s.wgs.map Wg.role).getD w blankWg.role := by
    intro s
    simp only [wgAt, List.getD_eq_getElem?_getD, List.getElem?_map]
    cases s.wgs[w]? <;> rfl
  rw [hview, hview, h]

/-- From one state to another workgroups were treated: no role changed, and who was not treated is as before. -/
structure Treats (s t : State) : Prop where
  roles : t.wgs.map Wg.role = s.wgs.map Wg.role
  leaving : ∀ w, (wgAt t w).leaving = (wgAt s w).leaving ∨ leaves t w
  ctxs : t.ctxs = s.ctxs
  placing : ∀ l, (launchAt t l).placing = (launchAt s l).placing

theorem Treats.refl (s : State) : Treats s s := ⟨rfl, fun _ => .inl rfl, rfl, fun _ => rfl⟩

theorem leaves_of_leaving {s t : State} {w : Nat} (h : (wgAt t w).leaving = (wgAt s w).leaving) (k : leaves s w) : leaves t w := by
  unfold leaves at k ⊢
  rwa [h]

theorem Treats.keeps {s t : State} (h : Treats s t) {w : Nat} (k : leaves s w) : leaves t w :=
  (h.leaving w).elim (fun e => leaves_of_leaving e k) id

theorem Treats.trans {s t r : State} (h : Treats s t) (k : Treats t r) : Treats s r :=
  ⟨k.roles.trans h.roles, fun w => (k.leaving w).elim (fun e => (h.leaving w).imp e.trans (leaves_of_leaving e)) .inr, k.ctxs.trans h.ctxs,
    fun l => (k.placing l).trans (h.placing l)⟩

theorem Treats.foldl {α : Type} {f : State → α → State} (h : ∀ s x, Treats s (f s x)) (l : List α) : ∀ s, Treats s (l.foldl f s) := by
  induction l with
  | nil => exact Treats.refl
  | cons x l ih => exact fun s => (h s x).trans (ih _)

theorem Treats.length {s t : State} (h : Treats s t) : t.wgs.length = s.wgs.length := by
  simpa using congrArg List.length h.roles

/-- Of a fold of treatments, a workgroup leaves that one of them treats where it was not treated before. -/
theorem leaves_foldl {α : Type} {f : State → α → State} (h : ∀ s x, Treats s (f s x)) {l : List α} {x : α} (hx : x ∈ l) (s : State) {w : Nat}
    (hk : ∀ t, Treats s t → (wgAt t w).leaving = (wgAt s w).leaving → leaves (f t x) w) : leaves (l.foldl f s) w :=
  foldl_establishes (before := Treats s) (after := fun t => leaves t w) (k := x) (fun t y _ ht => ht.trans (h t y))
    (fun t ht => (ht.leaving w).elim (hk t ht) (h t x).keeps) (fun t y => (h t y).keeps) l hx s (.refl s)

theorem treats_of_rolls {s t : State} (h : rolls t = rolls s) : Treats s t := by
  simp only [rolls, Prod.mk.injEq] at h
  obtain ⟨hwgs, hlaunches, hctxs⟩ := h
  have hrole := congrArg (List.map Prod.fst) hwgs
  rw [List.map_map, List.map_map] at hrole
  refine ⟨hrole, fun w => .inl ?_, hctxs, fun l => by rw [launchAt, hlaunches, launchAt]⟩
  have hview : ∀ s : State, (wgAt s w).leaving = ((s.wgs.map (fun g => (g.role, g.leaving))).getD w (blankWg.role, blankWg.leaving)).2 := by
    intro s
    simp only [wgAt, List.getD_eq_getElem?_getD, List.getElem?_map]
    cases s.wgs[w]? <;> rfl
  rw [hview, hview, hwgs]

/-- A workgroup that leaves, or goes on doing what it did. -/
theorem treats_modWg (s : State) (w : Nat) (f : Wg → Wg) (hrole : ∀ g, (f g).role = g.role)
    (hleaving : ∀ g, (f g).leaving = g.leaving ∨ (f g).leaving = some 3 ∨ (f g).leaving = some 0 ∨ (f g).leaving = some 1) : Treats s (modWg s w f) := by
  have hmap := map_modAt Wg.role f id hrole s.wgs w
  rw [modAt_same id (fun _ => rfl)] at hmap
  refine ⟨hmap, fun v => ?_, rfl, fun _ => rfl⟩
  by_cases hv : v = w
  · subst hv
    by_cases hlt : v < s.wgs.length
    · rw [leaves, wgAt_modWg_self s v f hlt]
      exact hleaving _
    · exact .inl (congrArg (fun l => (l.getD v blankWg).leaving) (modAt_of_length_le s.wgs v f (Nat.le_of_not_lt hlt)))
  · exact .inl (by rw [wgAt_modWg_ne s w v f hv])

theorem treats_treat (s : State) (limit : Nat) (x : Nat × Treatment) : Treats s (treat s limit x) := by
  obtain ⟨w, t⟩ := x
  cases t with
  | flush =>
    show Treats s (flushWg s w)
    rw [flushWg_eq]
    exact (treats_of_rolls (rolls_flushEnded s w)).trans (treats_modWg _ w _ (fun _ => rfl) (fun _ => .inr (.inl rfl)))
  | drain =>
    refine treats_modWg s w _ (fun g => ?_) (fun g => .inr ?_)
    · split <;> rfl
    · split
      · exact .inr (.inr rfl)
      · exact .inr (.inl rfl)
  | adjourn => exact treats_modWg s w _ (fun _ => rfl) (fun _ => .inr (.inr (.inr rfl)))

theorem treat_leaves (s : State) (limit w : Nat) (t : Treatment) (h : w < s.wgs.length) : leaves (treat s limit (w, t)) w := by
  cases t with
  | flush =>
    show leaves (flushWg s w) w
    rw [flushWg_eq, leaves, wgAt_modWg_self _ w _ (by rw [(treats_of_rolls (rolls_flushEnded s w)).length]; exact h)]
    exact .inl rfl
  | drain =>
    show leaves (modWg s w _) w
    rw [leaves, wgAt_modWg_self s w _ h]
    split
    · exact .inr (.inr rfl)
    · exact .inr (.inl rfl)
  | adjourn =>
    show leaves (modWg s w _) w
    rw [leaves, wgAt_modWg_self s w _ h]
    exact .inr (.inr rfl)

theorem treat_launches (s : State) (limit : Nat) (x : Nat × Treatment) : (treat s limit x).launches = s.launches := by
  obtain ⟨w, t⟩ := x
  cases t with
  | flush =>
    show (flushWg s w).launches = _
    rw [flushWg_eq]
    exact congrArg (fun v => v.2.1) (rolls_flushEnded s w)
  | drain => rfl
  | adjourn => rfl

/-! A gang (R342). -/

/-- The members of a gang that may be pre-empted. -/
def preemptible (s : State) (x : Nat × Nat × Nat) (w : Nat) : Bool :=
  (wgAt s w).launch == x.1 && (wgAt s w).gang == x.2.1 && (wgAt s w).stays && (wgAt s w).level == 0

/-- The decisions for a gang. -/
def gangDecisions (s : State) (switch : Bool) (x : Nat × Nat × Nat) : List (Nat × Treatment) :=
  let ws := (List.range s.wgs.length).filter (preemptible s x)
  decideGang s (drainLimit s (launchAt s x.1).ctx switch) ws (ws.any (fun w => (wgAt s w).aligned))

/-- The machine with a gang's members treated. -/
def gangTreated (s : State) (switch : Bool) (x : Nat × Nat × Nat) : State :=
  (gangDecisions s switch x).foldl (fun t y => treat t (drainLimit s (launchAt s x.1).ctx switch) y) s

theorem preemptGang_eq (s : State) (switch : Bool) (x : Nat × Nat × Nat) : preemptGang s switch x =
    modLaunch (gangTreated s switch x) x.1 (fun l => { l with again := l.again.filter (fun g => g != (x.2.1, x.2.2)) ++ [(x.2.1, x.2.2)] }) := rfl

theorem mem_gangDecisions {s : State} (switch : Bool) {x : Nat × Nat × Nat} {w : Nat} (hw : w < s.wgs.length) (h : preemptible s x w = true) :
    ∃ t, (w, t) ∈ gangDecisions s switch x := by
  have hmem : w ∈ (List.range s.wgs.length).filter (preemptible s x) := List.mem_filter.2 ⟨List.mem_range.2 hw, h⟩
  unfold gangDecisions decideGang
  dsimp only
  split
  · exact ⟨_, List.mem_map_of_mem hmem⟩
  · exact ⟨_, List.mem_map_of_mem hmem⟩

theorem treats_gangTreated (s : State) (switch : Bool) (x : Nat × Nat × Nat) : Treats s (gangTreated s switch x) :=
  .foldl (fun t y => treats_treat t _ y) _ s

theorem treats_modLaunch (s : State) (l : Nat) (f : Launch → Launch) (h : ∀ x, (f x).placing = x.placing) : Treats s (modLaunch s l f) :=
  ⟨rfl, fun _ => .inl rfl, rfl, fun i => launchAt_modLaunch_keeps Launch.placing s l i f h⟩

theorem treats_preemptGang (s : State) (switch : Bool) (x : Nat × Nat × Nat) : Treats s (preemptGang s switch x) :=
  (treats_gangTreated s switch x).trans (treats_modLaunch _ _ _ (fun _ => rfl))

theorem preemptGang_leaves {s : State} (switch : Bool) {x : Nat × Nat × Nat} {w : Nat} (hw : w < s.wgs.length) (h : preemptible s x w = true) :
    leaves (preemptGang s switch x) w := by
  obtain ⟨t, ht⟩ := mem_gangDecisions switch hw h
  exact leaves_foldl (fun r y => treats_treat r _ y) ht s (fun r hr _ => treat_leaves r _ w t (by rw [hr.length]; exact hw))

theorem again_preemptGang {s : State} (switch : Bool) {x : Nat × Nat × Nat} (h : x.1 < s.launches.length) :
    (launchAt (preemptGang s switch x) x.1).again = (launchAt s x.1).again.filter (fun g => g != (x.2.1, x.2.2)) ++ [(x.2.1, x.2.2)] := by
  have hlaunches : (gangTreated s switch x).launches = s.launches := foldl_keeps State.launches _ (fun t y => treat_launches t _ y) _ s
  rw [preemptGang_eq, launchAt_modLaunch_self _ _ _ (by rw [hlaunches]; exact h), launchAt, hlaunches, launchAt]

/-! The choice of a gang (R341). -/

/-- The order of the gangs that a launch may pre-empt. -/
def gangKey (s : State) (y : Nat × Nat × Nat) : List Nat := [recPri (launchAt s y.1).rec_, s.admitted - (launchAt s y.1).order, 0]

/-- The gangs that a launch of a priority may pre-empt. -/
def gangsBelow (s : State) (pri : Nat) : List (Nat × Nat × Nat) :=
  (committedGangs s (fun _ => true)).filter (fun y => decide (recPri (launchAt s y.1).rec_ < pri))

theorem mem_gangsBelow (s : State) (pri : Nat) (y : Nat × Nat × Nat) :
    y ∈ gangsBelow s pri ↔ y ∈ committedGangs s (fun _ => true) ∧ recPri (launchAt s y.1).rec_ < pri := by simp [gangsBelow]

/-- A gang of one launch, whichever is picked, or the one that is given. -/
theorem mem_getD {α : Type} {l : List α} {x : α} (h : x ∈ l) (n : Nat) : l.getD n x ∈ l := by
  by_cases hn : n < l.length
  · rw [List.getD_eq_getElem _ _ hn]
    exact List.getElem_mem hn
  · rw [List.getD_eq_default _ _ (Nat.le_of_not_lt hn)]
    exact h

/-- A gang that may be pre-empted first: of the lowest priority, and of the launch admitted last among those. -/
def lowestGang (s : State) (y : Nat × Nat × Nat) : Prop :=
  ∀ z ∈ committedGangs s (fun _ => true), recPri (launchAt s y.1).rec_ < recPri (launchAt s z.1).rec_
    ∨ recPri (launchAt s y.1).rec_ = recPri (launchAt s z.1).rec_ ∧ s.admitted - (launchAt s y.1).order ≤ s.admitted - (launchAt s z.1).order

theorem lowestGang_of_first {s : State} {pri : Nat} {first y : Nat × Nat × Nat} (hfirst : firstBy (gangKey s) (gangsBelow s pri) = some first)
    (hy : y.1 = first.1) : lowestGang s y := by
  obtain ⟨hmem, hleast⟩ := firstBy_least (gangKey s) 3 (fun _ => rfl) _ _ hfirst
  have hlow := ((mem_gangsBelow s pri first).1 hmem).2
  intro z hz
  rw [hy]
  by_cases hzlow : recPri (launchAt s z.1).rec_ < pri
  · have hkey := hleast z ((mem_gangsBelow s pri z).2 ⟨hz, hzlow⟩)
    simp only [gangKey, keyLt] at hkey
    split_ifs at hkey <;> omega
  · exact .inl (by omega)

/-- A launch that may pre-empt and finds no room takes a gang. -/
theorem exec_preemption {s : State} {l : Nat} {g : Nat × Nat} (hnone : ∀ y ∈ s.launches, y.placing = none) (hlow : s.plat.low = false)
    (hl : distributing s = some l) (hg : nextGang s l = some g) (hpe : (wordAt (launchAt s l).rec_ 3).getLsbD 11 = true)
    (hplan : (if hdrD (launchAt s l).khw then planD s Wg.stays l g else planGang s Wg.stays l g) = none)
    (hcand : ∃ y ∈ committedGangs s (fun _ => true), recPri (launchAt s y.1).rec_ < recPri (launchAt s l).rec_) :
    ∃ y, exec .preemption s = .next (preemptGang { s with freeCtr := s.freeCtr + 1 } false y) ∧ lowestGang s y
      ∧ y ∈ committedGangs s (fun _ => true) ∧ recPri (launchAt s y.1).rec_ < recPri (launchAt s l).rec_ := by
  have hidle : s.launches.any (fun x => x.placing.isSome) = false := by
    rw [List.any_eq_false]
    exact fun y hy => by simp [hnone y hy]
  have hfits : (if hdrD (launchAt s l).khw then (planD s Wg.stays l g).isSome else (planGang s Wg.stays l g).isSome) = false := by
    split at hplan <;> rename_i hd <;> simp [hd, hplan]
  obtain ⟨z, hz, hzlow⟩ := hcand
  obtain ⟨first, hfirst⟩ := firstBy_isSome (gangKey s) (List.ne_nil_of_mem ((mem_gangsBelow s _ z).2 ⟨hz, hzlow⟩))
  have hin := (firstBy_least (gangKey s) 3 (fun _ => rfl) _ _ hfirst).1
  have hsame : first ∈ (gangsBelow s (recPri (launchAt s l).rec_)).filter (fun y => y.1 == first.1) := List.mem_filter.2 ⟨hin, by simp⟩
  have hy := mem_getD hsame (Config.freeNumber s.freeCtr % ((gangsBelow s (recPri (launchAt s l).rec_)).filter (fun y => y.1 == first.1)).length)
  obtain ⟨hbelow, hlaunch⟩ := List.mem_filter.1 hy
  obtain ⟨hcommitted, hlower⟩ := (mem_gangsBelow s _ _).1 hbelow
  refine ⟨_, ?_, lowestGang_of_first hfirst (by simpa using hlaunch), hcommitted, hlower⟩
  have hpick : firstBy (fun y => [recPri (launchAt s y.1).rec_, s.admitted - (launchAt s y.1).order, 0])
      ((committedGangs s (fun _ => true)).filter (fun y => decide (recPri (launchAt s y.1).rec_ < recPri (launchAt s l).rec_))) = some first := hfirst
  show execPreemption s = _
  unfold execPreemption
  rw [if_neg (by simp [hidle, hlow]), hl]
  dsimp only
  rw [hg]
  dsimp only
  rw [if_neg (by simp [hpe, hfits]), hpick]
  rfl

/-! A context switch (R345). -/

/-- A context switched away: nothing of it is placed, or being placed. -/
def switchedOff (s : State) (c : Nat) : State :=
  let t := modCtx s c (fun x => { x with away := true })
  { t with launches := t.launches.map (fun x => if x.ctx = c then { x with placing := none } else x) }

/-- What a context switch does to one workgroup, after the gangs: a drain under way gets the capped limit, a trap kernel is treated. -/
def switchWg (c limit : Nat) (s : State) (w : Nat) : State :=
  let g := wgAt s w
  if g.ctx ≠ c ∨ g.status ≠ 0 then s
  else if g.leaving = some 0 then modWg s w (fun g => { g with leaveBy := min g.leaveBy (s.plat.tclk.toNat + 2 * limit) })
  else if g.trapOf.isSome ∧ g.leaving.isNone then treat s limit (w, decide_ s limit w)
  else s

/-- The gangs of a context switched away are treated. -/
def gangsSwitched (s : State) (c : Nat) : State :=
  (committedGangs (switchedOff s c) (fun g => g.ctx == c)).foldl (fun t x => preemptGang t true x) (switchedOff s c)

theorem exec_contextSwitch_back {s : State} {c m : Nat} (harg : s.arg = .ids c 1 m) :
    exec .contextSwitch s = .next (modCtx s c (fun x => { x with away := false })) := by
  show execContextSwitch s = _
  simp only [execContextSwitch, harg]

theorem exec_contextSwitch_away {s : State} {c n m : Nat} (harg : s.arg = .ids c n m) (hn : n ≠ 1) : exec .contextSwitch s =
    .next ((List.range (gangsSwitched s c).wgs.length).foldl (switchWg c (drainLimit s c true)) (gangsSwitched s c)) := by
  show execContextSwitch s = _
  unfold execContextSwitch
  rw [harg]
  split
  · rename_i h
    injection h with _ h1 _
    exact absurd h1 hn
  · rename_i h
    injection h with h0 _ _
    subst h0
    rfl
  · rename_i h
    exact (h _ _ _ rfl).elim

theorem treats_switchWg (c limit : Nat) (s : State) (w : Nat) : Treats s (switchWg c limit s w) := by
  unfold switchWg
  dsimp only
  split
  · exact .refl s
  · split
    · exact treats_modWg s w _ (fun _ => rfl) (fun _ => .inl rfl)
    · split
      · exact treats_treat s limit _
      · exact .refl s

theorem treats_gangsSwitched (s : State) (c : Nat) : Treats (switchedOff s c) (gangsSwitched s c) :=
  .foldl (fun t x => treats_preemptGang t true x) _ _

/-- A user workgroup of the context leaves with its gang. -/
theorem gangsSwitched_leaves {s : State} {c w : Nat} (hw : w < s.wgs.length) (hctx : (wgAt s w).ctx = c) (hlevel : (wgAt s w).level = 0)
    (hstays : (wgAt s w).stays = true) : leaves (gangsSwitched s c) w := by
  have hin : ((wgAt s w).launch, (wgAt s w).gang, (wgAt s w).gangSize) ∈ committedGangs (switchedOff s c) (fun g => g.ctx == c) := by
    refine List.mem_dedup.2 (List.mem_map.2 ⟨wgAt s w, List.mem_filter.2 ⟨?_, by simp [hctx, hlevel, hstays]⟩, rfl⟩)
    rw [wgAt, List.getD_eq_getElem _ _ hw]
    exact List.getElem_mem hw
  refine leaves_foldl (fun t x => treats_preemptGang t true x) hin _ (fun t ht hleaving => ?_)
  have hrole := role_of_map ht.roles w
  simp only [Wg.role, Prod.mk.injEq] at hrole
  obtain ⟨h1, h2, -, -, h5, -, h7, -⟩ := hrole
  refine preemptGang_leaves true (by rw [ht.length]; exact hw) ?_
  unfold preemptible Wg.stays
  rw [h1, h2, h5, h7, hleaving]
  have hsame : wgAt (switchedOff s c) w = wgAt s w := rfl
  rw [hsame, hlevel]
  simpa [Wg.stays] using hstays

/-- The machine after a context switch away. -/
def switchedAway (s : State) (c : Nat) : State :=
  (List.range (gangsSwitched s c).wgs.length).foldl (switchWg c (drainLimit s c true)) (gangsSwitched s c)

theorem treats_switchedAway (s : State) (c : Nat) : Treats (switchedOff s c) (switchedAway s c) :=
  (treats_gangsSwitched s c).trans (.foldl (treats_switchWg c _) _ _)

/-- A trap kernel of the context leaves. -/
theorem switchedAway_leaves_trap {s : State} {c w : Nat} (hw : w < s.wgs.length) (hctx : (wgAt s w).ctx = c) (hstatus : (wgAt s w).status = 0)
    (htrap : (wgAt s w).trapOf.isSome = true) (hnone : (wgAt s w).leaving = none) : leaves (switchedAway s c) w := by
  have hgangs := treats_gangsSwitched s c
  rcases hgangs.leaving w with hsame | hleaves
  · have hw' : w < (gangsSwitched s c).wgs.length := by rw [hgangs.length]; exact hw
    refine leaves_foldl (treats_switchWg c _) (List.mem_range.2 hw') _ (fun t ht hleaving => ?_)
    have hrole := role_of_map (ht.roles.trans hgangs.roles) w
    simp only [Wg.role, Prod.mk.injEq] at hrole
    obtain ⟨-, -, -, -, -, h6, h7, h8⟩ := hrole
    have hstays : (wgAt t w).leaving = none := hleaving.trans (hsame.trans hnone)
    have hctx' : (wgAt t w).ctx = c := h6.trans hctx
    have hstatus' : (wgAt t w).status = 0 := h7.trans hstatus
    have htrap' : (wgAt t w).trapOf.isSome = true := by rw [h8]; exact htrap
    unfold switchWg
    rw [if_neg (by simp [hctx', hstatus']), if_neg (by simp [hstays]), if_pos (by simp [htrap', hstays])]
    exact treat_leaves t _ w _ (by rw [ht.length]; exact hw')
  · exact (Treats.foldl (treats_switchWg c _) _ _).keeps hleaves

theorem switchedOff_placing {s : State} {c l : Nat} (h : (launchAt s l).ctx = c) : (launchAt (switchedOff s c) l).placing = none := by
  have hget : launchAt (switchedOff s c) l = ((s.launches[l]?).map (fun x => if x.ctx = c then { x with placing := none } else x)).getD blankLaunch := by
    simp [launchAt, switchedOff, modCtx]
  rw [launchAt, List.getD_eq_getElem?_getD] at h
  rw [hget]
  cases hl : s.launches[l]? with
  | none => rfl
  | some x =>
    rw [hl] at h
    have hx : x.ctx = c := h
    simp [hx]

/-- What a context switch away does (R345). -/
theorem switchesAway (c n m : Nat) (hn : n ≠ 1) : happens .contextSwitch (.ids c n m) (fun _ => True)
    (fun s t => (∀ x, Map.find s.ctxs c = some x → (ctxAt t c).away = true) ∧ (∀ l, (launchAt s l).ctx = c → (launchAt t l).placing = none)
      ∧ ∀ w, w < s.wgs.length → (wgAt s w).ctx = c → (wgAt s w).status = 0 →
          ((wgAt s w).level = 0 ∧ (wgAt s w).stays = true ∨ (wgAt s w).trapOf.isSome = true ∧ (wgAt s w).leaving = none) → leaves t w) := by
  intro s harg _
  have htreats := treats_switchedAway s c
  refine ⟨switchedAway s c, exec_contextSwitch_away harg hn, fun x hx => ?_, fun l hl => (htreats.placing l).trans (switchedOff_placing hl), ?_⟩
  · rw [ctxAt, htreats.ctxs]
    exact congrArg Ctx.away (ctxAt_modCtx_self s c (fun x => { x with away := true }) x hx)
  · rintro w hw hctx hstatus (⟨hlevel, hstays⟩ | ⟨htrap, hnone⟩)
    · exact (Treats.foldl (treats_switchWg c _) _ _).keeps (gangsSwitched_leaves hw hctx hlevel hstays)
    · exact switchedAway_leaves_trap hw hctx hstatus htrap hnone

/-- The distributor works on no launch of a context that is switched away. -/
theorem distributing_not_away (s : State) (l : Nat) (h : (ctxAt s (launchAt s l).ctx).away = true) : distributing s ≠ some l := by
  intro hd
  have hmem := (firstBy_least _ 2 (fun _ => rfl) _ _ hd).1
  simp [List.mem_filter, h] at hmem

/-- What a pre-emption does for a launch that may pre-empt (R341, R342). -/
theorem preempts (x : EventArg) (l : Nat) (g : Nat × Nat) : happens .preemption x
    (fun s => (∀ y ∈ s.launches, y.placing = none) ∧ s.plat.low = false ∧ distributing s = some l ∧ nextGang s l = some g
      ∧ (wordAt (launchAt s l).rec_ 3).getLsbD 11 = true
      ∧ (if hdrD (launchAt s l).khw then planD s Wg.stays l g else planGang s Wg.stays l g) = none
      ∧ ∃ y ∈ committedGangs s (fun _ => true), recPri (launchAt s y.1).rec_ < recPri (launchAt s l).rec_)
    (fun s t => ∃ y ∈ committedGangs s (fun _ => true), recPri (launchAt s y.1).rec_ < recPri (launchAt s l).rec_
      ∧ (∀ z ∈ committedGangs s (fun _ => true), recPri (launchAt s y.1).rec_ < recPri (launchAt s z.1).rec_
          ∨ recPri (launchAt s y.1).rec_ = recPri (launchAt s z.1).rec_
            ∧ s.admitted - (launchAt s y.1).order ≤ s.admitted - (launchAt s z.1).order)
      ∧ (y.1 < s.launches.length →
          (launchAt t y.1).again = (launchAt s y.1).again.filter (fun g => g != (y.2.1, y.2.2)) ++ [(y.2.1, y.2.2)])
      ∧ ∀ w, w < s.wgs.length → (wgAt s w).launch = y.1 → (wgAt s w).gang = y.2.1 → (wgAt s w).stays = true → (wgAt s w).level = 0 → leaves t w) := by
  rintro s - ⟨hnone, hlow, hl, hg, hpe, hplan, hcand⟩
  obtain ⟨y, hexec, hlowest, hcommitted, hlower⟩ := exec_preemption hnone hlow hl hg hpe hplan hcand
  refine ⟨_, hexec, y, hcommitted, hlower, hlowest, fun hy => again_preemptGang (s := { s with freeCtr := s.freeCtr + 1 }) false hy, ?_⟩
  intro w hw hlaunch hgang hstays hlevel
  refine preemptGang_leaves (s := { s with freeCtr := s.freeCtr + 1 }) false hw ?_
  have hsame : wgAt { s with freeCtr := s.freeCtr + 1 } w = wgAt s w := rfl
  simp [preemptible, hsame, hlaunch, hgang, hstays, hlevel]

/-! The end of a drain's time (R342). -/

/-- Whether a drain that has gone on for too long, of workgroup w, makes this workgroup one to be adjourned. -/
def drainOver (s : State) (w : Nat) (v : Nat) (g : Wg) : Bool :=
  (v == w || ((wgAt s w).aligned && g.launch == (wgAt s w).launch && g.gang == (wgAt s w).gang && g.level == 0))
    && g.leaving == some 0 && g.status == 0

/-- The workgroup, adjourned where the drain is over for it. -/
def drainedWg (s : State) (w : Nat) (p : Wg × Nat) : Wg := if drainOver s w p.2 p.1 then { p.1 with leaving := some 1 } else p.1

theorem exec_drainTimeout {s : State} {w n m : Nat} (harg : s.arg = .ids w n m) (hleaving : (wgAt s w).leaving = some 0) (hstatus : (wgAt s w).status = 0)
    (htime : (wgAt s w).leaveBy ≤ s.plat.tclk.toNat) : exec .drainTimeout s = .next { s with wgs := s.wgs.zipIdx.map (drainedWg s w) } := by
  show execDrainTimeout s = _
  simp only [execDrainTimeout, harg, hleaving, hstatus, htime, and_self, if_true]
  refine congrArg (fun l => Host.Outcome.next { s with arg := .ids w n m, wgs := l }) (List.map_congr_left fun p _ => ?_)
  simp [drainedWg, drainOver, and_assoc]

theorem drainTimeout_idle (w n m : Nat) : idle .drainTimeout (.ids w n m)
    (fun s => (wgAt s w).leaving ≠ some 0 ∨ (wgAt s w).status ≠ 0 ∨ s.plat.tclk.toNat < (wgAt s w).leaveBy) := by
  intro s harg h
  show execDrainTimeout s = _
  simp only [execDrainTimeout, harg]
  refine congrArg Host.Outcome.next (if_neg ?_)
  rintro ⟨hleaving, hstatus, htime⟩
  rcases h with h | h | h
  · exact h hleaving
  · exact h hstatus
  · omega

theorem wgAt_drained {s : State} (w : Nat) {v : Nat} (h : v < s.wgs.length) :
    wgAt { s with wgs := s.wgs.zipIdx.map (drainedWg s w) } v = drainedWg s w (wgAt s v, v) := by
  simp [wgAt, List.getD_eq_getElem?_getD, h]

/-- A workgroup without a cluster-aligned gang is adjourned alone. -/
theorem drained_alone {s : State} {w : Nat} (hleaving : (wgAt s w).leaving = some 0) (hstatus : (wgAt s w).status = 0)
    (halone : (wgAt s w).aligned = false) : s.wgs.zipIdx.map (drainedWg s w) = modAt s.wgs w (fun g => { g with leaving := some 1 }) := by
  refine List.ext_getElem (by simp) (fun v h1 h2 => ?_)
  have hv : v < s.wgs.length := by simpa using h1
  have hget : s.wgs[v] = wgAt s v := (List.getD_eq_getElem _ _ hv).symm
  have hleft : (s.wgs.zipIdx.map (drainedWg s w))[v] = drainedWg s w (wgAt s v, v) := by simp [hget]
  rw [hleft, ← List.getD_eq_getElem _ blankWg h2]
  by_cases he : v = w
  · subst he
    rw [modAt_getD_self _ _ _ _ hv]
    show drainedWg s v (wgAt s v, v) = { wgAt s v with leaving := some 1 }
    simp [drainedWg, drainOver, hleaving, hstatus]
  · rw [modAt_getD_ne _ _ _ _ _ he]
    show drainedWg s w (wgAt s v, v) = wgAt s v
    simp [drainedWg, drainOver, he, halone]

theorem drainTimeout_alone (w n m : Nat) : happens .drainTimeout (.ids w n m)
    (fun s => (wgAt s w).leaving = some 0 ∧ (wgAt s w).status = 0 ∧ (wgAt s w).leaveBy ≤ s.plat.tclk.toNat ∧ (wgAt s w).aligned = false)
    (fun s t => t = modWg s w (fun g => { g with leaving := some 1 })) := by
  rintro s harg ⟨hleaving, hstatus, htime, halone⟩
  exact ⟨_, exec_drainTimeout harg hleaving hstatus htime, congrArg (fun l => { s with wgs := l }) (drained_alone hleaving hstatus halone)⟩

theorem drainTimeout_gang (w n m : Nat) : happens .drainTimeout (.ids w n m)
    (fun s => (wgAt s w).leaving = some 0 ∧ (wgAt s w).status = 0 ∧ (wgAt s w).leaveBy ≤ s.plat.tclk.toNat ∧ (wgAt s w).aligned = true)
    (fun s t => t = { s with wgs := t.wgs } ∧ ∀ v, v < s.wgs.length → wgAt t v =
      if v = w ∨ (wgAt s v).launch = (wgAt s w).launch ∧ (wgAt s v).gang = (wgAt s w).gang ∧ (wgAt s v).level = 0 ∧ (wgAt s v).leaving = some 0
          ∧ (wgAt s v).status = 0
      then { wgAt s v with leaving := some 1 } else wgAt s v) := by
  rintro s harg ⟨hleaving, hstatus, htime, haligned⟩
  refine ⟨_, exec_drainTimeout harg hleaving hstatus htime, rfl, fun v hv => ?_⟩
  rw [wgAt_drained w hv]
  by_cases he : v = w
  · subst he
    simp [drainedWg, drainOver, hleaving, hstatus]
  · simp [drainedWg, drainOver, he, haligned, and_assoc]

end Sys2Proof.Machine
end

section
/-! PROOF. Adjournment and restore (R66, R227, R343, R344). -/

namespace Sys2Proof.Machine

/-! The place of an adjournment record (R344). -/

/-- The places of a context's save area that are taken. -/
def savePlaces (s : State) (ctx : Nat) : List Nat := s.wgs.filterMap (fun g => if g.ctx = ctx then g.saved.slot else none)

theorem saveSlot_eq (s : State) (ctx : Nat) :
    saveSlot s ctx = ((List.range ((savePlaces s ctx).length + 1)).find? (fun k => !(savePlaces s ctx).contains k)).getD 0 := rfl

/-- There is a number below a list's length, or the length, that the list lacks. -/
theorem exists_lacking (l : List Nat) : ∃ k ∈ List.range (l.length + 1), k ∉ l := by
  obtain ⟨k, hk, hl⟩ := Finset.exists_mem_notMem_of_card_lt_card (s := l.toFinset) (t := Finset.range (l.length + 1))
    (by rw [Finset.card_range]; exact Nat.lt_succ_of_le l.toFinset_card_le)
  exact ⟨k, List.mem_range.2 (Finset.mem_range.1 hk), fun h => hl (List.mem_toFinset.2 h)⟩

theorem saveSlot_fresh (s : State) (ctx : Nat) : saveSlot s ctx ∉ savePlaces s ctx := by
  obtain ⟨k, hk, hlacks⟩ := exists_lacking (savePlaces s ctx)
  have hsome : ((List.range ((savePlaces s ctx).length + 1)).find? (fun k => !(savePlaces s ctx).contains k)).isSome :=
    List.find?_isSome.2 ⟨k, hk, by simpa using hlacks⟩
  obtain ⟨i, hi⟩ := Option.isSome_iff_exists.1 hsome
  rw [saveSlot_eq, hi]
  simpa using List.find?_some hi

theorem mem_savePlaces {s : State} {v i : Nat} (hv : v < s.wgs.length) (h : (wgAt s v).saved.slot = some i) : i ∈ savePlaces s (wgAt s v).ctx := by
  have hmem : wgAt s v ∈ s.wgs := by
    rw [wgAt, List.getD_eq_getElem _ _ hv]
    exact List.getElem_mem hv
  exact List.mem_filterMap.2 ⟨wgAt s v, hmem, by simp [h]⟩

/-- A sealed record's lines stand under its own key, 64 or above. -/
theorem recordedKey_sealRecord (s : State) (pa line : Nat) (hlow : bitsOf pa 40 0 ≤ localOf (line * 128) ((bitsOf pa 40 0).testBit 40))
    (hhigh : localOf (line * 128) ((bitsOf pa 40 0).testBit 40) < bitsOf pa 40 0 + saveBytes) : recordedKey (sealRecord s pa) line = some (64 + s.ids) := by
  have hkeys : (sealRecord s pa).lineKeys = s.lineKeys.filter (fun x => !(decide (bitsOf pa 40 0 ≤ localOf (x.1 * 128) ((bitsOf pa 40 0).testBit 40))
      && decide (localOf (x.1 * 128) ((bitsOf pa 40 0).testBit 40) < bitsOf pa 40 0 + saveBytes))) := rfl
  have hsealed : (sealRecord s pa).sealed = (bitsOf pa 40 0, 64 + s.ids) :: s.sealed.filter (fun x => x.1 != bitsOf pa 40 0) := rfl
  unfold recordedKey
  rw [hkeys, Map.find_filter (fun k => !(decide (bitsOf pa 40 0 ≤ localOf (k * 128) ((bitsOf pa 40 0).testBit 40))
      && decide (localOf (k * 128) ((bitsOf pa 40 0).testBit 40) < bitsOf pa 40 0 + saveBytes))), if_neg (by simp [hlow, hhigh]), hsealed]
  simp [hlow, hhigh]

/-! Adjournment. -/

/-- What an adjournment saves of a workgroup. -/
def savedOf (s : State) (w : Nat) : Saved :=
  { ces := (coreAt s (wgAt s w).core).ces.filter (fun c => c.2.owner == some w) ++ (wgAt s w).saved.ces
    xfers := (coreAt s (wgAt s w).core).xfers.filter (fun x => x.2.wg == w) ++ (wgAt s w).saved.xfers
    slot := some (saveSlot s (wgAt s w).ctx) }

/-- The core without the engine work of a workgroup that leaves it. -/
def engineFreed (s : State) (w : Nat) : State :=
  modCore s (wgAt s w).core (fun o => { o with ces := o.ces.filter (fun c => c.2.owner != some w), xfers := o.xfers.filter (fun x => x.2.wg != w) })

/-- What an adjournment keeps of the cluster. -/
def clusterOf (s : State) (w : Nat) : ClusterSt :=
  { xb := (s.xb.filter (fun x => x.1 / 8 == (wgAt s w).core / 4)).map (fun x => (x.1 % 8, x.2))
    xc := (s.xc.filter (fun x => x.1 / 4 == (wgAt s w).core / 4)).map (fun x => (x.1 % 4, x.2)) }

/-- The machine when the engine work of an adjourned workgroup and its cluster's state are put away. -/
def unloaded (s : State) (w : Nat) : State :=
  if (wgAt s w).aligned
  then modLaunch (engineFreed s w) (wgAt s w).launch
    (fun l => { l with clusters := Map.put l.clusters (clusterKey (wgAt s w).gang (wgAt s w).id) (clusterOf s w) })
  else engineFreed s w

/-- The workgroup in the save area. -/
def Wg.adjourned (v : Saved) (g : Wg) : Wg := { g with status := 1, quarters := [], granules := [], leaving := none, saved := v }

/-- The machine after an adjournment. -/
def adjournedAt (s : State) (w : Nat) : State :=
  sealRecord (modWg (unloaded s w) w (Wg.adjourned (savedOf s w))) (recAddr (ctxAt s (wgAt s w).ctx).words 9 + saveSlot s (wgAt s w).ctx * saveBytes)

theorem unloaded_fields (s : State) (w : Nat) : (unloaded s w).wgs = s.wgs ∧ (unloaded s w).cores = (engineFreed s w).cores ∧ (unloaded s w).mem = s.mem := by
  unfold unloaded
  split <;> exact ⟨rfl, rfl, rfl⟩

theorem exec_adjournment {s : State} {w n m : Nat} (harg : s.arg = .ids w n m) (h : mayAdjourn s w = true) :
    exec .adjournment s = .next (adjournedAt s w) := by
  have hctx : ∀ c, ctxAt (unloaded s w) c = ctxAt s c := by
    intro c
    unfold unloaded
    split <;> rfl
  show execAdjournment s = _
  unfold execAdjournment
  rw [harg]
  dsimp only
  rw [if_neg (by simp [h])]
  unfold adjournedAt
  rw [← hctx]
  rfl

theorem adjournment_idle (w n m : Nat) : idle .adjournment (.ids w n m) (fun s => mayAdjourn s w = false) := by
  intro s harg h
  show execAdjournment s = _
  unfold execAdjournment
  rw [harg]
  dsimp only
  rw [if_pos (by simp [h])]

theorem length_of_mayAdjourn {s : State} {w : Nat} (h : mayAdjourn s w = true) : w < s.wgs.length := by
  simp only [mayAdjourn, Bool.and_eq_true, decide_eq_true_eq] at h
  tauto

theorem wgAt_adjournedAt {s : State} {w : Nat} (h : w < s.wgs.length) : wgAt (adjournedAt s w) w = (wgAt s w).adjourned (savedOf s w) := by
  obtain ⟨hwgs, -, -⟩ := unloaded_fields s w
  have hself := wgAt_modWg_self (unloaded s w) w (Wg.adjourned (savedOf s w)) (by rw [hwgs]; exact h)
  have hsame : wgAt (unloaded s w) w = wgAt s w := congrArg (fun l => l.getD w blankWg) hwgs
  rw [hsame] at hself
  exact hself

theorem ces_adjournedAt (s : State) (w : Nat) :
    (coreAt (adjournedAt s w) (wgAt s w).core).ces = (coreAt s (wgAt s w).core).ces.filter (fun c => c.2.owner != some w) := by
  obtain ⟨-, hcores, -⟩ := unloaded_fields s w
  have hsame : coreAt (adjournedAt s w) (wgAt s w).core = coreAt (engineFreed s w) (wgAt s w).core :=
    congrArg (fun m => Map.getD m (wgAt s w).core CoreSt.reset) hcores
  rw [hsame, engineFreed, coreAt_modCore_self]

/-- What an adjournment does (R343, R344). -/
theorem adjourns (w n m : Nat) : happens .adjournment (.ids w n m) (fun s => mayAdjourn s w = true)
    (fun s t => wgAt t w = { wgAt s w with status := 1, quarters := [], granules := [], leaving := none, saved := (wgAt t w).saved }
      ∧ (∀ k, k ∈ (wgAt t w).saved.ces ↔ (k ∈ (coreAt s (wgAt s w).core).ces ∧ k.2.owner = some w) ∨ k ∈ (wgAt s w).saved.ces)
      ∧ (∀ k, k ∈ (wgAt t w).saved.xfers ↔ (k ∈ (coreAt s (wgAt s w).core).xfers ∧ k.2.wg = w) ∨ k ∈ (wgAt s w).saved.xfers)
      ∧ (∀ k ∈ (coreAt t (wgAt s w).core).ces, k.2.owner ≠ some w)
      ∧ (∃ i, (wgAt t w).saved.slot = some i
          ∧ (∀ v, v < s.wgs.length → v ≠ w → (wgAt s v).ctx = (wgAt s w).ctx → (wgAt s v).saved.slot ≠ some i)
          ∧ ∀ line,
              let base := bitsOf (recAddr (ctxAt s (wgAt s w).ctx).words 9 + i * saveBytes) 40 0
              base ≤ localOf (line * 128) (base.testBit 40) → localOf (line * 128) (base.testBit 40) < base + saveBytes →
              ∃ k, recordedKey t line = some k ∧ 64 ≤ k)
      ∧ ∀ b, Memory.read t.mem b = Memory.read s.mem b) := by
  intro s harg h
  have hwg := wgAt_adjournedAt (length_of_mayAdjourn h)
  have hsaved : (wgAt (adjournedAt s w) w).saved = savedOf s w := congrArg Wg.saved hwg
  refine ⟨_, exec_adjournment harg h, ?_, fun k => ?_, fun k => ?_, fun k hk => ?_, ⟨saveSlot s (wgAt s w).ctx, ?_, ?_, ?_⟩, fun b => ?_⟩
  · rw [hsaved]
    exact hwg
  · rw [hsaved]
    simp [savedOf]
  · rw [hsaved]
    simp [savedOf]
  · rw [ces_adjournedAt] at hk
    simpa using (List.mem_filter.1 hk).2
  · rw [hsaved]
    rfl
  · intro v hv _ hctx hslot
    have hmem := mem_savePlaces hv hslot
    rw [hctx] at hmem
    exact saveSlot_fresh s _ hmem
  · intro line
    dsimp only
    intro hlow hhigh
    exact ⟨_, recordedKey_sealRecord _ _ line hlow hhigh, Nat.le_add_right 64 _⟩
  · obtain ⟨-, -, hmem⟩ := unloaded_fields s w
    exact congrArg (fun m => Memory.read m b) hmem

/-! Restore. -/

/-- A squad with its entries formed anew. -/
def Squad.renewed (q : Squad) : Squad := { q with regrouped := false, frontier := q.frontier.map renewEntry, overflow := q.overflow.map renewEntry }

/-- A workgroup placed again, with its entries formed anew. -/
def Wg.renewed (g : Wg) : Wg := { g with status := 0, leaving := none, squads := g.squads.map Squad.renewed }

/-- The machine when a restored workgroup's engine work is back on its core, before its squads are regrouped; from the machine with the workgroup renewed. -/
def engineBack (s : State) (w : Nat) (t : State) : State :=
  l1Invalidate (modWg (modCore t (wgAt s w).core (fun o => { o with
    ces := (wgAt s w).saved.ces.foldl (fun m c => Map.put m c.1 c.2) o.ces
    xfers := (wgAt s w).saved.xfers.foldl (fun m x => Map.put m x.1 x.2) o.xfers })) w (fun g => { g with saved := Saved.none, lateTags := [] }))
    (wgAt s w).core

/-- The first squads of a workgroup regrouped, by what the program memory of a machine shows. -/
def regroupSquads (r : State) (w n : Nat) : State :=
  (List.range n).foldl (fun t q => modSq t w q (regroupSquad (versionOf r w) (peekWord r w))) r

/-- The machine after a restore, from the machine with the workgroup renewed. -/
def restoredFrom (s : State) (w : Nat) (t : State) : State := regroupSquads (engineBack s w t) w (wgAt s w).squads.length

theorem exec_workgroupRestore {s : State} {w n m : Nat} (harg : s.arg = .ids w n m) (hw : w < s.wgs.length) (hstatus : (wgAt s w).status = 0)
    (hleaving : (wgAt s w).leaving = some 2) (htrap : (wgAt s w).trapOf = none) (hresume : (wgAt s w).resume = false) (htags : (wgAt s w).lateTags = [])
    (hfree : ∀ c ∈ (wgAt s w).saved.ces, ceFree s w (ceAt s (wgAt s w).core c.1) = true)
    (hseen : ∀ p ∈ s.pubs, p.2.waiting.contains (wgAt s w).core = false) : exec .workgroupRestore s =
      .next (restoredFrom s w (modWg s w Wg.renewed)) := by
  show execWorkgroupRestore s = _
  unfold execWorkgroupRestore
  rw [harg]
  dsimp only
  rw [htrap, if_pos ⟨hw, .inl ⟨hstatus, hleaving⟩, List.all_eq_true.2 hfree, by simpa using hseen⟩, htags, hresume]
  exact congrArg (fun t => Host.Outcome.next (restoredFrom s w t)) (modWg_congr (by simp only [Wg.renewed, htrap]; rfl))

theorem workgroupRestore_idle (w n m : Nat) : idle .workgroupRestore (.ids w n m)
    (fun s => (wgAt s w).trapOf = none ∧ ((wgAt s w).leaving ≠ some 2 ∨ ∃ p ∈ s.pubs, p.2.waiting.contains (wgAt s w).core = true)) := by
  rintro s harg ⟨htrap, h⟩
  show execWorkgroupRestore s = _
  unfold execWorkgroupRestore
  rw [harg]
  dsimp only
  rw [htrap]
  refine congrArg Host.Outcome.next (if_neg ?_)
  rintro ⟨-, hback, -, hseen⟩
  rcases h with hleaving | ⟨p, hp, hwaits⟩
  · rcases hback with ⟨-, hl⟩ | ⟨-, ht, -⟩
    · exact hleaving hl
    · simp at ht
  · exact absurd (List.all_eq_true.1 hseen p hp) (by simpa using hwaits)

/-! What a restore leaves of the workgroup. -/

theorem regroupSquads_keeps {α : Type} (view : Wg → α) (hview : ∀ g l, view { g with squads := l } = view g) (r : State) (w n : Nat) :
    view (wgAt (regroupSquads r w n) w) = view (wgAt r w) := by
  have hstep : ∀ (t : State) q, (fun t : State => (t.wgs.length, view (wgAt t w))) (modSq t w q (regroupSquad (versionOf r w) (peekWord r w)))
      = (t.wgs.length, view (wgAt t w)) := by
    intro t q
    have hlength : (modSq t w q (regroupSquad (versionOf r w) (peekWord r w))).wgs.length = t.wgs.length := modAt_length _ _ _
    by_cases ht : w < t.wgs.length
    · exact Prod.ext hlength (by dsimp only; rw [wgAt_modSq_self t w q _ ht, hview])
    · rw [modSq_of_absent (fun h => ht h.1)]
  exact congrArg Prod.snd (foldl_keeps (fun t : State => (t.wgs.length, view (wgAt t w))) _ hstep (List.range n) r)

theorem coreAt_regroupSquads (r : State) (w n c : Nat) : coreAt (regroupSquads r w n) c = coreAt r c :=
  foldl_keeps (fun t => coreAt t c) (fun t q => modSq t w q (regroupSquad (versionOf r w) (peekWord r w))) (fun _ _ => rfl) _ r

/-- Each squad of the workgroup is regrouped, once. -/
theorem sqAt_regroupSquads {r : State} {w q : Nat} (h : isSquad r w q) :
    sqAt (regroupSquads r w (wgAt r w).squads.length) w q = regroupSquad (versionOf r w) (peekWord r w) (sqAt r w q) := by
  obtain ⟨t, ht, hv⟩ := foldl_touches_once (fun t : State => (t.wgs.length, (wgAt t w).squads.length, sqAt t w q))
    (fun t q => modSq t w q (regroupSquad (versionOf r w) (peekWord r w))) q
    (fun t j hj => by
      by_cases hsq : isSquad t w j
      · rw [sqAt_modSq_ne t w j w q _ (.inr hj.symm), wgAt_modSq_self t w j _ hsq.1]
        simp [modSq, modWg]
      · rw [modSq_of_absent hsq])
    (List.range (wgAt r w).squads.length) List.nodup_range (List.mem_range.2 h.2) r
  simp only [Prod.mk.injEq] at ht hv
  obtain ⟨hwgs, hsquads, hsame⟩ := ht
  obtain ⟨-, -, hregrouped⟩ := hv
  unfold regroupSquads
  rw [hregrouped, sqAt_modSq_self t w q _ (by rw [hwgs]; exact h.1) (by rw [hsquads]; exact h.2), hsame]

theorem sqAt_regroupSquads_absent (r : State) (w : Nat) {n q : Nat} (h : n ≤ q) : sqAt (regroupSquads r w n) w q = sqAt r w q := by
  refine foldl_untouched (fun t => sqAt t w q) _ _ r (fun t j hj => sqAt_modSq_ne t w j w q _ (.inr ?_))
  have := List.mem_range.1 hj
  omega

theorem standsIn_renewed (q : Squad) (lb l : Nat) (pc : VAddr) : standsIn q.renewed.entries lb l pc ↔ standsIn q.entries lb l pc := by
  simp only [standsIn, Squad.entries, Squad.renewed, ← List.map_append, List.mem_map, exists_exists_and_eq_and]
  rfl

theorem formedApart_renewed (q : Squad) : formedApart q.renewed.entries ↔ formedApart q.entries := by
  simp only [formedApart, Squad.entries, Squad.renewed, ← List.map_append, List.map_map]
  rfl

/-- The workgroup that `engineBack` leaves, from one that is renewed. -/
def Wg.back (g : Wg) : Wg := { g.renewed with saved := Saved.none, lateTags := [] }

/-- The machine when a restored workgroup stands on its core, before its squads are regrouped. -/
def backOnCore (s : State) (w : Nat) : State := engineBack s w (modWg s w Wg.renewed)

theorem wgAt_backOnCore {s : State} {w : Nat} (h : w < s.wgs.length) : wgAt (backOnCore s w) w = (wgAt s w).back := by
  have hlast := wgAt_modWg_self (modWg s w Wg.renewed) w (fun g => { g with saved := Saved.none, lateTags := [] }) (by simpa [modWg] using h)
  rw [wgAt_modWg_self s w _ h] at hlast
  exact hlast

theorem l1d_backOnCore (s : State) (w : Nat) : (coreAt (backOnCore s w) (wgAt s w).core).l1d = [] := by
  unfold backOnCore engineBack l1Invalidate
  rw [coreAt_modCore_self]

theorem sqAt_backOnCore {s : State} {w : Nat} (h : w < s.wgs.length) (q : Nat) : sqAt (backOnCore s w) w q = (sqAt s w q).renewed := by
  unfold sqAt
  rw [wgAt_backOnCore h]
  show ((wgAt s w).squads.map Squad.renewed).getD q blankSquad = _
  simp only [List.getD_eq_getElem?_getD, List.getElem?_map]
  cases (wgAt s w).squads[q]? <;> rfl

/-- What a restore makes of a squad: its threads stand where they stood, and its registers are as they were. -/
theorem sqAt_restored {s : State} {w : Nat} (h : w < s.wgs.length) (hapart : ∀ q ∈ (wgAt s w).squads, formedApart q.entries) (q : Nat) :
    let t := restoredFrom s w (modWg s w Wg.renewed)
    (∀ lb l pc, standsIn (sqAt t w q).entries lb l pc ↔ standsIn (sqAt s w q).entries lb l pc) ∧ (sqAt t w q).v = (sqAt s w q).v := by
  intro t
  have hwg := wgAt_backOnCore h
  have hlength : (wgAt (backOnCore s w) w).squads.length = (wgAt s w).squads.length := by
    rw [hwg]
    exact List.length_map _
  have ht : t = regroupSquads (backOnCore s w) w (wgAt (backOnCore s w) w).squads.length := by rw [hlength]; rfl
  by_cases hq : q < (wgAt s w).squads.length
  · have hthere : isSquad (backOnCore s w) w q := ⟨by simpa [backOnCore, engineBack, l1Invalidate, modCore, modWg] using h, by rw [hlength]; exact hq⟩
    have hin : sqAt s w q ∈ (wgAt s w).squads := by
      rw [sqAt, List.getD_eq_getElem _ _ hq]
      exact List.getElem_mem hq
    rw [ht, sqAt_regroupSquads hthere, sqAt_backOnCore h]
    obtain ⟨hregrouped, -, honly⟩ := regrouped_regroupSquad (versionOf (backOnCore s w) w) (peekWord (backOnCore s w) w) (sqAt s w q).renewed
      ((formedApart_renewed _).2 (hapart _ hin))
    refine ⟨fun lb l pc => (hregrouped.stand lb l pc).trans (standsIn_renewed _ lb l pc), ?_⟩
    rw [honly]
    rfl
  · rw [ht, sqAt_regroupSquads_absent _ _ (by omega), sqAt_backOnCore h]
    exact ⟨standsIn_renewed _, rfl⟩

/-- What a restore does (R66, R227, R344). -/
theorem restores (w n m : Nat) : happens .workgroupRestore (.ids w n m)
    (fun s => w < s.wgs.length ∧ (wgAt s w).status = 0 ∧ (wgAt s w).leaving = some 2 ∧ (wgAt s w).trapOf = none ∧ (wgAt s w).resume = false
      ∧ (wgAt s w).lateTags = [] ∧ (∀ c ∈ (wgAt s w).saved.ces, ceFree s w (ceAt s (wgAt s w).core c.1) = true)
      ∧ (∀ p ∈ s.pubs, p.2.waiting.contains (wgAt s w).core = false)
      ∧ ∀ q ∈ (wgAt s w).squads, ((q.frontier ++ q.overflow).map Entry.formed).Nodup)
    (fun s t => (wgAt t w).status = 0 ∧ (wgAt t w).leaving = none ∧ (wgAt t w).saved = Saved.none
      ∧ (coreAt t (wgAt s w).core).l1d = []
      ∧ (∀ q lb l pc, standsAtPc (sqAt t w q) lb l pc ↔ standsAtPc (sqAt s w q) lb l pc)
      ∧ ∀ q, (sqAt t w q).v = (sqAt s w q).v) := by
  rintro s harg ⟨hw, hstatus, hleaving, htrap, hresume, htags, hfree, hseen, hapart⟩
  have hkeeps := regroupSquads_keeps (fun g => (g.status, g.leaving, g.saved)) (fun _ _ => rfl) (backOnCore s w) w (wgAt s w).squads.length
  rw [wgAt_backOnCore hw] at hkeeps
  simp only [Prod.mk.injEq] at hkeeps
  obtain ⟨hstatus', hleaving', hsaved'⟩ := hkeeps
  refine ⟨_, exec_workgroupRestore harg hw hstatus hleaving htrap hresume htags hfree hseen, hstatus'.trans rfl, hleaving'.trans rfl, hsaved'.trans rfl, ?_,
    fun q => (sqAt_restored hw hapart q).1, fun q => (sqAt_restored hw hapart q).2⟩
  unfold restoredFrom
  rw [coreAt_regroupSquads]
  exact l1d_backOnCore s w

/-- Settles O50: a treatment of a workgroup takes it off its core whatever it was doing; a record's place is fresh and its lines are under its own key; and
what a restore forms anew and regroups stands where it stood. -/
theorem preemptionAndRestore : Obligations.PreemptionAndRestore := by
  unfold Obligations.PreemptionAndRestore
  exact ⟨⟨preempts, switchesAway, fun c m s harg => exec_contextSwitch_back harg, distributing_not_away, drainTimeout_alone, drainTimeout_gang,
    drainTimeout_idle⟩, adjourns, adjournment_idle, workgroupRestore_idle, restores⟩

end Sys2Proof.Machine
end

section
/-! PROOF. Words of the spec's encodings (R88 to R347). -/

namespace Sys2Proof.Machine

/-- Settles O1: each word is decoded by evaluation. -/
theorem wordsDecode : Obligations.WordsDecode := by
  unfold Obligations.WordsDecode
  exact ⟨rfl, rfl, rfl, rfl, rfl, rfl, rfl, rfl, rfl, rfl, rfl, rfl, rfl, rfl, rfl⟩

end Sys2Proof.Machine
end

section
/-! PROOF. Barriers, their phases and rings: states in which the statements do not hold (R83, R85, R95, R339). -/

namespace Sys2Proof.Machine

/-! Machines of one workgroup and one squad. -/

/-- A place in a clause of fifteen words of class CTL. -/
def controlPlace : Place := { pc := 0x1004, base := 0x1000, hdr := 0xCF000000, atHdr := false }

/-- A bundle of lane 0 alone, unguarded. -/
def loneBundle : Bundle := { wg := 0, sq := 0, e := freshEntry 0 controlPlace 1 1 0, guard := 7, words := 1 }

/-- A squad of one lane block in which nothing stands but the parked threads given. -/
def loneSquad (parked : List Parked) : Squad := { Squad.start 0 0 1 0 (fun _ => 0) with frontier := [], parked := parked }

/-- A machine with one launch, whose header is given, and its workgroup of one squad, with the lone bundle in hand. -/
def loneMachine (khw : List Word) (parked : List Parked) (bars : Map Bar) (rings : Map Ring) : State :=
  { State.reset with
    launches := [{ blankLaunch with khw := khw, stage := 4 }]
    wgs := [{ blankWg with launch := 0, status := 0, squads := [loneSquad parked], bars := bars, rings := rings }]
    cur := some (.bundle loneBundle) }

/-- Machines that agree apart from where threads stand agree in every v register and in every predicate. -/
theorem vget_of_still {s t : State} (e : still s = still t) (w q lb r l : Nat) : vget (sqAt s w q) lb r l = vget (sqAt t w q) lb r l := by
  have h := congrArg Squad.v (squad_of_still e w q)
  have hv : (sqAt s w q).v = (sqAt t w q).v := h
  simp only [vget, hv]

theorem pget_of_still {s t : State} (e : still s = still t) (w q lb k : Nat) : pget (sqAt s w q) lb k = pget (sqAt t w q) lb k := by
  have h := congrArg Squad.p (squad_of_still e w q)
  have hp : (sqAt s w q).p = (sqAt t w q).p := h
  simp only [pget, hp]

/-! The pending bytes of a barrier (R83). -/

/-- A barrier whose pending bytes are one more than 28 bits hold with their sign. -/
def overfullBar : Bar :=
  { ph := false, init := true, tarr := 0, texp := 2, earr := 0, eexp := 0, pend := 2 ^ 27, drops := 0, broken := none, arrivers := [] }

/-- Refutes O15: `bar.rd` with selector 2 gives the pending bytes as the model holds them, an unbounded integer, where the statement takes 28 bits of
them with their sign. The two differ in a state whose pending bytes are 2^27, which no run reaches (R84 bounds them). -/
theorem not_barrierUse : ¬ Obligations.BarrierUse := by
  unfold Obligations.BarrierUse
  rintro ⟨⟨_, _, hread⟩, _⟩
  obtain ⟨t, hexec, hstill, -⟩ := hread 1 0 2 (loneMachine [] [] [(0, overfullBar)] []) loneBundle (by decide) (by decide)
  cases hexec
  exact absurd (vget_of_still hstill 0 0 0 1 0) (by decide)

/-! A finisher of an earlier arrival (R85). -/

/-- A barrier that waits for its last thread, after an arrival of lane 1 with finisher predicate p1. -/
def lastAwaited : Bar :=
  { ph := false, init := true, tarr := 1, texp := 2, earr := 0, eexp := 0, pend := 0, drops := 0, broken := none
    arrivers := [{ sq := 0, lb := 0, lane := 1, fin := some 1 }] }

/-- The header of a launch with D = 1 (R23). -/
def deterministicHeader : List Word := [0x70400000, 0, 0]

/-- Refutes O16: in a launch with D = 1 the finisher predicates of a phase are decided when it completes (R85). A `bar.arrive` that completes a phase in
which lane 1 arrived with finisher predicate p1 makes that predicate true, where the statement has nothing but the barrier change. -/
theorem not_barrierCompletion : ¬ Obligations.BarrierCompletion := by
  unfold Obligations.BarrierCompletion
  rintro ⟨harrive, _⟩
  obtain ⟨t, hexec, hstill, -⟩ := (harrive 0 0).1 (loneMachine deterministicHeader [] [(0, lastAwaited)] []) loneBundle (by decide) (by decide)
  cases hexec
  exact absurd (pget_of_still hstill 0 0 0 1) (by decide)

/-! A thread parked in a ring wait (R95, R339). -/

/-- The header of a launch with one ring (R25). -/
def ringHeader : List Word := [0x70000000, 0, 0x08000000]

/-- An empty ring of two slots, whose next slot is slot 1. -/
def emptyRing : Ring := { slots := 2, pcur := 1, ccur := 1, full := 0, sph := 0 }

/-- Lane 1, parked while it waits for the ring to be full, with v5 for the cursor. -/
def parkedInRing : Parked := { lb := 0, lane := 1, place := controlPlace, how := .rewait (.ringFull 0 5) (controlPlace.after 1) }

/-- Refutes O18: a thread that the watchdog parked in a ring wait takes the cursor when its wait ends (R95, R339), so a commit writes its destination
although no thread waits, where the statement has nothing but the ring change. -/
theorem not_tagsAndRings : ¬ Obligations.TagsAndRings := by
  unfold Obligations.TagsAndRings
  rintro ⟨_, _, _, _, hcommit, _⟩
  obtain ⟨t, hexec, hstill, -⟩ := hcommit 0 (loneMachine ringHeader [parkedInRing] [] [(0, emptyRing)]) loneBundle (by decide) (by decide)
  cases hexec
  exact absurd (vget_of_still hstill 0 0 0 5 1) (by decide)

end Sys2Proof.Machine
end

section
/-! PROOF. The shapes that control instructions share: what acts once for an issue, what waits, and faults of a whole issue (R65, R81, R403). -/

namespace Sys2Proof.Machine

/-! The machine as an instruction's meaning finds it. -/

/-- The machine with no instruction in hand. -/
def State.handed (s : State) : State := { s with cur := none }

section Handed

variable (s : State)

@[simp] theorem still_handed : still s.handed = still s := rfl
@[simp] theorem wgs_handed : s.handed.wgs = s.wgs := rfl
@[simp] theorem mem_handed : s.handed.mem = s.mem := rfl
@[simp] theorem ids_handed : s.handed.ids = s.ids := rfl
@[simp] theorem wgAt_handed (w : Nat) : wgAt s.handed w = wgAt s w := rfl
@[simp] theorem sqAt_handed (w q : Nat) : sqAt s.handed w q = sqAt s w q := rfl
@[simp] theorem activeMask_handed (u : Bundle) : activeMask s.handed u = activeMask s u := rfl
@[simp] theorem ownWord_handed (u : Bundle) (a : BitVec 6) (l : Nat) : ownWord s.handed u a l = ownWord s u a l := rfl
@[simp] theorem stage_handed (u : Bundle) (o : Opnds) (l : Nat) : stage s.handed u o l = stage s u o l := rfl
@[simp] theorem xbOf_handed (c k : Nat) : xbOf s.handed c k = xbOf s c k := rfl
@[simp] theorem ringsOf_handed (w : Nat) : ringsOf s.handed w = ringsOf s w := rfl

theorem othersStay_handed (u : Bundle) : othersStay s s.handed u := othersStay_cur s u

end Handed

theorem withBundle_handed {s : State} {u : Bundle} (h : Issuing s u) (f : Bundle → State → State) : withBundle s f = .next (f u s.handed) :=
  withBundle_issuing h f

theorem Issuing.handed {s : State} {u : Bundle} (h : Issuing s u) : u.present s.handed := h.present

/-! Changes that move no thread. -/

/-- From one state to another every thread stands, waits and is parked as before. -/
structure Unmoved (u : Bundle) (s t : State) : Prop where
  present : u.present s → u.present t
  fates : keepsFates s t u
  others : othersStay s t u

theorem Unmoved.refl (u : Bundle) (s : State) : Unmoved u s s := ⟨id, .refl s u, .refl s u⟩

theorem Unmoved.trans {u : Bundle} {s t r : State} (h : Unmoved u s t) (k : Unmoved u t r) : Unmoved u s r :=
  ⟨k.present ∘ h.present, h.fates.trans k.fates, h.others.trans k.others⟩

theorem unmoved_of_wgs (u : Bundle) {s t : State} (h : t.wgs = s.wgs) (hr : recordsOf t = recordsOf s) : Unmoved u s t :=
  ⟨fun k => by rwa [Bundle.present, wgAt, h], keepsFates_of_wgs h u (fun _ k => hr ▸ k), othersStay_of_wgs u h (fun _ k => hr ▸ k)⟩

theorem unmoved_modSq (s : State) (u : Bundle) (f : Squad → Squad)
    (hf : ∀ x : Squad, (f x).frontier = x.frontier ∧ (f x).overflow = x.overflow ∧ (f x).waiters = x.waiters ∧ (f x).parked = x.parked
      ∧ (f x).exited = x.exited) : Unmoved u s (modSq s u.wg u.sq f) := by
  refine ⟨isSquad_modSq f, keepsFates_modSq s _ _ f u (fun x => ?_), othersStay_modSq s u f (fun x => ?_)⟩
  all_goals obtain ⟨h1, h2, h3, h4, h5⟩ := hf x
  · exact Squad.grows_of_same h1 h2 h3 h4 h5
  · exact ⟨fun lb l p _ => by rw [standsAt, standsAt, h1, h2], h3, fun y _ => by rw [h4]⟩

/-- A change of a workgroup that keeps something of it. -/
theorem wgAt_modWg_keeps {α : Type} (view : Wg → α) (s : State) (w : Nat) (f : Wg → Wg) (hf : ∀ x, view (f x) = view x) (v : Nat) :
    view (wgAt (modWg s w f) v) = view (wgAt s v) := by
  by_cases hv : v = w
  · subst hv
    by_cases hl : v < s.wgs.length
    · rw [wgAt_modWg_self _ _ _ hl, hf]
    · rw [modWg, modAt_of_length_le s.wgs v f (Nat.le_of_not_lt hl)]
  · rw [wgAt_modWg_ne _ _ _ _ hv]

theorem sqAt_modWg_keeps (s : State) (w : Nat) (f : Wg → Wg) (hf : ∀ x, (f x).squads = x.squads) (v q : Nat) :
    sqAt (modWg s w f) v q = sqAt s v q := by
  unfold sqAt
  rw [wgAt_modWg_keeps Wg.squads s w f hf]

theorem unmoved_modWg (s : State) (w : Nat) (u : Bundle) (f : Wg → Wg) (hf : ∀ x, (f x).squads = x.squads) : Unmoved u s (modWg s w f) := by
  have hsquads := wgAt_modWg_keeps Wg.squads s w f hf u.wg
  refine ⟨fun h => ⟨by simpa [modWg] using h.1, by rw [hsquads]; exact h.2⟩, keepsFates_modWg s w f u hf, fun v q _ => ?_, fun lb l _ _ => ?_, fun _ h => h⟩
  · rw [sqAt_modWg_keeps s w f hf]
    exact ⟨rfl, rfl, rfl, rfl⟩
  · rw [squadOf, sqAt_modWg_keeps s w f hf]
    exact ⟨fun _ => .rfl, fun _ _ _ => .rfl, fun _ _ _ => .rfl⟩

theorem unmoved_l1Invalidate (s : State) (u : Bundle) (core : Nat) : Unmoved u s (l1Invalidate s core) := unmoved_of_wgs u rfl rfl

/-! Instructions that act once. -/

theorem onceOp_of_passes {chk : State → Bundle → BitVec 32 → Option FaultInfo} {act : State → Bundle → BitVec 32 → State} {s : State} {u : Bundle}
    (hg : activeMask s u ≠ 0) (hc : chk s u (activeMask s u) = none) :
    onceOp chk act u s = act (advance s u u.e.mask) u (activeMask s u) := by
  unfold onceOp
  dsimp only
  rw [if_neg hg, hc]

theorem onceOp_of_faults {chk : State → Bundle → BitVec 32 → Option FaultInfo} {act : State → Bundle → BitVec 32 → State} {s : State} {u : Bundle}
    {i : FaultInfo} (hg : activeMask s u ≠ 0) (hc : chk s u (activeMask s u) = some i) : onceOp chk act u s = ownFault s u i := by
  unfold onceOp
  dsimp only
  rw [if_neg hg, hc]

/-- THE LAW OF INSTRUCTIONS THAT ACT ONCE: every thread goes on, then a change that moves no thread. -/
theorem doesAlone_of_once {i : Instr} {pre : State → Bundle → Prop} {f : State → Bundle → State} (act : State → Bundle → State → State)
    (hexec : ∀ s u, Issuing s u → pre s u → exec i s = .next (act s u (advance s.handed u u.e.mask)))
    (hact : ∀ s u r, Issuing s u → pre s u → still r = still s → still (act s u r) = still (f s u) ∧ Unmoved u r (act s u r)) :
    doesAlone i pre f allOn := by
  refine doesAlone_of (fun s u h hpre => ?_)
  have hmoves : MovesOnly u s.handed (advance s.handed u u.e.mask) := movesOnly_advance _ u (fun _ => id)
  obtain ⟨hstill, hunmoved⟩ := hact s u _ h hpre hmoves.still
  exact ⟨_, hexec s u h hpre, hstill, ((othersStay_handed s u).trans hmoves.others).trans hunmoved.others,
    fun l _ hl => hunmoved.fates l _ (advance_met _ u _ l h.handed.1 h.handed.2 hl)⟩

/-! Faults of a whole issue. -/

theorem movesOnly_faultIssue (s : State) (u : Bundle) {m : BitVec 32} (hm : ∀ l, inMask m l = true → inMask u.e.mask l = true) (i : FaultInfo) :
    MovesOnly u s (faultIssue s u m i) := by
  unfold faultIssue
  split
  · exact .refl u s
  · exact (movesOnly_parkThreads s u _ _ _ (fun l hl => hm l ((mem_lanesOf m l).1 hl).2)).trans (movesOnly_reportThread _ u _ _ _ _ _)

theorem movesOnly_ownFault (s : State) (u : Bundle) (i : FaultInfo) : MovesOnly u s (ownFault s u i) :=
  (movesOnly_faultIssue s u (fun _ => inMask_of_active) i).trans (movesOnly_advance _ u (fun _ => inMask_of_rest))

theorem ownFault_met {s r : State} {u : Bundle} (e : still r = still s) (hr : u.present r) (i : FaultInfo)
    (hi : i.code < 256 ∧ i.sub < 256 ∧ i.ucode < 256 ∧ i.imm < 256) {l : Nat} (hlt : l < 32) (hl : inMask u.e.mask l = true) :
    met (ownFault r u i) u l (activeFate (.parked u.e.place i.code i.sub) s u l) := by
  have hfault := movesOnly_faultIssue r u (m := activeMask r u) (fun _ => inMask_of_active) i
  have hpresent := hfault.present hr
  have hgo := movesOnly_advance (faultIssue r u (activeMask r u) i) u (m := u.e.mask &&& ~~~(activeMask r u)) (fun _ => inMask_of_rest)
  rw [activeFate, activeMask_of_still e.symm]
  split
  · rename_i ha
    exact hgo.fates l _ (faultIssue_met r u _ i l hr.1 hr.2 ha hi)
  · rename_i ha
    exact advance_met _ u _ l hpresent.1 hpresent.2 (by simp [hl, hlt, ha])

/-- THE LAW OF FAULTS OF A WHOLE ISSUE: the guard-true threads park at the instruction, the others go on. -/
theorem doesAlone_of_ownFault {i : Instr} {pre : State → Bundle → Prop} (code sub : Nat) (hc : code < 256) (hs : sub < 256)
    (hexec : ∀ s u, Issuing s u → pre s u → exec i s = .next (ownFault s.handed u (faultInfo code sub))) :
    doesAlone i pre (fun s _ => s) (fun s u l => activeFate (.parked u.e.place code sub) s u l) :=
  doesAlone_of_moves (fun s u h hpre => ⟨s.handed, _, hexec s u h hpre, rfl, othersStay_handed s u, movesOnly_ownFault _ u _,
    fun _ hlt hl => ownFault_met (i := faultInfo code sub) (still_handed s) h.handed ⟨hc, hs, by simp [faultInfo], by simp [faultInfo]⟩ hlt hl⟩)

/-! Waits. -/

theorem othersStay_wait (s : State) (u : Bundle) {m : BitVec 32} (hm : ∀ l, inMask m l = true → inMask u.e.mask l = true) (why : Wait) (p : Place) :
    othersStay s (wait s u m why p) u := by
  unfold wait
  split
  · exact .refl s u
  · by_cases hsq : isSquad s u.wg u.sq
    · refine ⟨fun w q hne => ?_, fun lb l _ hother => ?_, fun r hr => hr⟩
      · rw [sqAt_modSq_ne s u.wg u.sq w q _ (by tauto)]
        exact ⟨rfl, rfl, rfl, rfl⟩
      · rw [squadOf, sqAt_modSq_self s u.wg u.sq _ hsq.1 hsq.2]
        refine ⟨fun _ => .rfl, fun x hlb hx => ?_, fun _ _ _ => .rfl⟩
        simp only [List.mem_append, List.mem_singleton, squadOf, or_iff_left_iff_imp]
        rintro rfl
        exact absurd ⟨hlb.symm, hm l hx⟩ hother
    · rw [modSq_of_absent hsq]
      exact .refl s u

theorem movesOnly_wait (s : State) (u : Bundle) {m : BitVec 32} (hm : ∀ l, inMask m l = true → inMask u.e.mask l = true) (why : Wait) (p : Place) :
    MovesOnly u s (wait s u m why p) := ⟨still_wait s u m why p, keepsFates_wait s u m why p u, othersStay_wait s u hm why p⟩

/-- The lanes of a wait that go on at once. -/
def goesOn (done : State → Bundle → Nat → Bool) (s : State) (u : Bundle) : BitVec 32 := maskOf (fun l => inMask (activeMask s u) l && done s u l)

/-- How the lanes of a wait with one reason begin it. -/
def waitFor (done : State → Bundle → Nat → Bool) (why : State → Bundle → Nat → Wait) (s : State) (u : Bundle) (t : State) (y : Wait) : State :=
  wait t u (maskOf (fun l => inMask (activeMask s u &&& ~~~goesOn done s u) l && why s u l == y)) y u.next

/-- The reasons for which lanes of a wait do not go on. -/
def waitReasons (done : State → Bundle → Nat → Bool) (why : State → Bundle → Nat → Wait) (s : State) (u : Bundle) : List Wait :=
  ((lanesOf (activeMask s u &&& ~~~goesOn done s u)).map (why s u)).dedup

/-- The machine in which the threads of a wait move: what is acquired by those that need not wait is acquired. -/
def acquired (done : State → Bundle → Nat → Bool) (acq : State → Bundle → State) (s : State) (u : Bundle) : State :=
  if goesOn done s u = 0 then s else acq s u

/-- The lanes of a wait that go on, the guard-false ones among them, and then the others wait. -/
def waitMoved (done : State → Bundle → Nat → Bool) (why : State → Bundle → Nat → Wait) (s : State) (u : Bundle) (r : State) : State :=
  (waitReasons done why s u).foldl (waitFor done why s u) (advance r u (u.e.mask &&& (~~~activeMask s u ||| goesOn done s u)))

theorem waitOp_of_passes {chk : State → Bundle → Option FaultInfo} {done : State → Bundle → Nat → Bool} {why : State → Bundle → Nat → Wait}
    {acq : State → Bundle → State} {s : State} {u : Bundle} (hg : activeMask s u ≠ 0) (hc : chk s u = none) :
    waitOp chk done why acq u s = waitMoved done why s u (acquired done acq s u) := by
  unfold waitOp
  dsimp only
  rw [if_neg hg, hc]
  rfl

section WaitMoved

variable (done : State → Bundle → Nat → Bool) (why : State → Bundle → Nat → Wait) (s : State) (u : Bundle)

theorem inMask_goesOn {l : Nat} (ha : inMask (activeMask s u) l = true) : inMask (goesOn done s u) l = done s u l := by
  rw [goesOn, inMask_maskOf _ _ (inMask_lt _ _ ha), ha, Bool.true_and]

theorem inMask_of_waitFor {y : Wait} {l : Nat} (h : inMask (maskOf (fun l => inMask (activeMask s u &&& ~~~goesOn done s u) l && why s u l == y)) l = true) :
    inMask u.e.mask l = true := by
  rw [inMask_maskOf _ _ (inMask_lt _ _ h), Bool.and_eq_true] at h
  exact inMask_of_active (inMask_of_rest h.1)

theorem movesOnly_waitFor (t : State) (y : Wait) : MovesOnly u t (waitFor done why s u t y) :=
  movesOnly_wait t u (fun _ => inMask_of_waitFor done why s u) y u.next

theorem movesOnly_waitMoved (r : State) : MovesOnly u r (waitMoved done why s u r) :=
  (movesOnly_advance r u (fun _ => inMask_of_rest)).trans (.foldl _ _ _ (fun t y _ => movesOnly_waitFor done why s u t y))

theorem waitMoved_met {r : State} (hr : u.present r) {l : Nat} (hlt : l < 32) (hl : inMask u.e.mask l = true) :
    met (waitMoved done why s u r) u l (activeFate (if done s u l then .on u.next else .waits (why s u l)) s u l) := by
  have hgo := movesOnly_advance r u (m := u.e.mask &&& (~~~activeMask s u ||| goesOn done s u)) (fun _ => inMask_of_rest)
  have hon : inMask (~~~activeMask s u ||| goesOn done s u) l = true → met (waitMoved done why s u r) u l (.on u.next) := fun h =>
    (MovesOnly.foldl _ _ _ (fun t y _ => movesOnly_waitFor done why s u t y)).fates l _
      (advance_met r u _ l hr.1 hr.2 (by rw [inMask_and, hl, h, Bool.and_self]))
  unfold activeFate
  split
  · rename_i ha
    split
    · rename_i hd
      exact hon (by rw [inMask_or, inMask_goesOn done s u ha, hd, Bool.or_true])
    · rename_i hd
      have hrest : inMask (activeMask s u &&& ~~~goesOn done s u) l = true := by
        simp [ha, hlt, inMask_goesOn done s u ha, hd]
      refine MovesOnly.foldl_met _ _ (fun t y _ => movesOnly_waitFor done why s u t y)
        (List.mem_dedup.2 (List.mem_map_of_mem ((mem_lanesOf _ l).2 ⟨hlt, hrest⟩))) (fun t ht => ?_) _ (hgo.present hr)
      refine wait_met t u _ _ l ht.1 ht.2 ?_
      rw [inMask_maskOf _ _ hlt, hrest, beq_self_eq_true, Bool.and_self]
  · rename_i ha
    exact hon (by rw [inMask_or, inMask_not _ _ hlt]; simp [ha])

end WaitMoved

/-- THE LAW OF WAITS: the lanes whose condition holds go on, the others wait, each for its reason. -/
theorem doesAlone_of_wait {i : Instr} {pre : State → Bundle → Prop} {f : State → Bundle → State} {fates : State → Bundle → Nat → Fate}
    (chk : State → Bundle → Option FaultInfo) (done : State → Bundle → Nat → Bool) (why : State → Bundle → Nat → Wait) (acq : State → Bundle → State)
    (hexec : ∀ s u, Issuing s u → pre s u → exec i s = .next (waitOp chk done why acq u s.handed))
    (hg : ∀ s u, pre s u → activeMask s u ≠ 0) (hchk : ∀ s u, pre s u → chk s.handed u = none)
    (hacq : ∀ s u, Issuing s u → pre s u → still (acquired done acq s.handed u) = still (f s u))
    (hunmoved : ∀ s u, Unmoved u s (acq s u))
    (hfates : ∀ s u l, pre s u → fates s u l
      = activeFate (if done s.handed u l then .on u.next else .waits (why s.handed u l)) s u l) :
    doesAlone i pre f fates := by
  refine doesAlone_of_moves (fun s u h hpre => ?_)
  have hacquired : Unmoved u s.handed (acquired done acq s.handed u) := by
    unfold acquired
    split
    · exact .refl u _
    · exact hunmoved _ u
  refine ⟨_, _, (hexec s u h hpre).trans (congrArg _ (waitOp_of_passes (hg s u hpre) (hchk s u hpre))), hacq s u h hpre,
    (othersStay_handed s u).trans hacquired.others, movesOnly_waitMoved done why s.handed u _, fun l hlt hl => ?_⟩
  rw [hfates s u l hpre]
  exact waitMoved_met done why s.handed u (hacquired.present h.handed) hlt hl

end Sys2Proof.Machine
end

section
/-! PROOF. Convergence registers: declarations and reads (R97, R98). -/

namespace Sys2Proof.Machine

/-! What machines agree in that agree apart from where threads stand. -/

theorem wgView_of_still {α : Type} (view : Wg → α) (hv : ∀ g : Wg, view g.still = view g) {s t : State} (e : still s = still t) (w : Nat) :
    view (wgAt s w) = view (wgAt t w) := by rw [← hv, wgAt_of_still e, hv]

theorem sqView_of_still {α : Type} (view : Squad → α) (hv : ∀ q : Squad, view q.still = view q) {s t : State} (e : still s = still t) (w q : Nat) :
    view (sqAt s w q) = view (sqAt t w q) := by rw [← hv, squad_of_still e, hv]

theorem w32_readReg_own (s : State) (u : Bundle) (a : BitVec 6) (l : Nat) : w32 (readReg s u (own a 1) l) = ownWord s u a l :=
  (w32_readReg s u a 0 l).trans (srcWord_own s u a l)

theorem convOf_of_still {s t : State} (e : still s = still t) (w q k : Nat) : convOf (sqAt s w q) k = convOf (sqAt t w q) k :=
  sqView_of_still (fun q => convOf q k) (fun _ => rfl) e w q

/-! Declarations (R98). -/

/-- A register that a declaration has set to a range, with its binding. -/
def declaredConv (v : Word) (bound : Bool) (c : Conv) : Conv :=
  { c with first := v.toNat % 2 ^ 9, count := v.toNat / 2 ^ 16 % 2 ^ 10, st := 1, bound := bound, signed := [], full := [], open_ := none }

/-- The fault that a declaration of a range meets in a squad (R98, R99). -/
def declareFault (aligned bound : Bool) (sq : Squad) (k : Nat) (v : Word) : Option FaultInfo :=
  if bound && !aligned then some (faultInfo 0x1D 3)
  else if v.toNat / 2 ^ 16 % 2 ^ 10 = 0 ∨ sq.nlb * 32 < v.toNat % 2 ^ 9 + v.toNat / 2 ^ 16 % 2 ^ 10 then some (faultInfo 0x08 2)
  else if 2 ≤ (convOf sq k).st then some (faultInfo 0x08 3)
  else none

theorem bitsOf_signerFirst (x : Nat) : bitsOf x 8 0 = x % 2 ^ 9 := by simp [bitsOf]

theorem bitsOf_signerCount (x : Nat) : bitsOf x 25 16 = x / 2 ^ 16 % 2 ^ 10 := rfl

theorem exec_declare {i : Instr} {k : BitVec 4} {a : BitVec 6} {bound : Bool} (hi : ∀ s, exec i s = withBundle s (declare_ k a bound)) {s : State} {u : Bundle}
    (h : Issuing s u) : exec i s = .next (onceOp
      (fun t v g => declareFault (wgAt t v.wg).aligned bound (sqAt t v.wg v.sq) k.toNat (ownWord t v a (lowest g)))
      (fun t _ g => modSq t u.wg u.sq (fun sq => setConv sq k.toNat (declaredConv (ownWord s u a (lowest g)) bound (convOf sq k.toNat))))
      u s.handed) := by
  rw [hi, withBundle_handed h, declare_]
  simp only [w32_readReg_own, ownWord_handed, declareFault, declaredConv, bitsOf_signerFirst, bitsOf_signerCount]
  rfl

theorem declare_alone {i : Instr} {k : BitVec 4} {a : BitVec 6} {bound : Bool} (hi : ∀ s, exec i s = withBundle s (declare_ k a bound))
    {pre : State → Bundle → Prop} (hpre : ∀ s u, pre s u → declares s u k a) (hbound : ∀ s u, pre s u → (bound && !(wgAt s u.wg).aligned) = false) :
    doesAlone i pre (fun s u => inSquad s u (fun q => setConv q k.toNat (declaredConv (signerWord s u a) bound (convOf q k.toNat)))) allOn := by
  refine doesAlone_of_once (fun s u r => modSq r u.wg u.sq (fun sq => setConv sq k.toNat (declaredConv (signerWord s u a) bound (convOf sq k.toNat))))
    (fun s u h hp => ?_) (fun s u r _ _ hr => ⟨still_modSq_congr hr _ _ _ (fun _ => rfl), unmoved_modSq r u _ (fun _ => ⟨rfl, rfl, rfl, rfl, rfl⟩)⟩)
  obtain ⟨hg, hcount, hrange, hst⟩ := hpre s u hp
  have hb := hbound s u hp
  have hpass : declareFault (wgAt s u.wg).aligned bound (squadOf s u) k.toNat (signerWord s u a) = none := by
    unfold declareFault
    rw [hb, if_neg (by simp), if_neg (by omega), if_neg (by omega)]
  exact (exec_declare hi h).trans (congrArg _ (onceOp_of_passes (s := s.handed) hg hpass))

/-- A word of fields that lie apart is the sum of its fields. -/
theorem convWord_eq (c : Conv) (sel : BitVec 1) : convWord c sel =
    if sel = 0 then BitVec.ofNat 32 (2 ^ 16 * c.count + c.first) else BitVec.ofNat 32 (2 ^ 31 * bit c.bound + 2 ^ 16 * c.st + c.signed.length) := by
  unfold convWord packWord
  split <;> exact congrArg _ (by simp; ring)

/-- Settles O19: a declaration that meets no fault changes the register alone, and a read gives its fields. -/
theorem convergenceRegisters : Obligations.ConvergenceRegisters := by
  unfold Obligations.ConvergenceRegisters
  refine ⟨fun k a => declare_alone (fun _ => rfl) (fun _ _ hp => hp) (fun _ _ _ => rfl),
    fun k a => declare_alone (fun _ => rfl) (fun _ _ hp => hp.1) (fun s u hp => by simp [hp.2]), fun d k sel => ?_⟩
  have hread := laneOp_writes (.convRd d k sel) [] d 1 _ (fun _ => rfl) (fun _ _ _ => rfl) (by decide)
  simp only [convWord_eq] at hread
  exact hread

end Sys2Proof.Machine
end

section
/-! PROOF. Waits on barriers, tags, rings and cluster barriers (R81, R88, R92, R95, R100). -/

namespace Sys2Proof.Machine

/-! When the shared objects' faults do not apply. -/

theorem barFault_of_usable {s : State} {w k : Nat} {needs : Bool} (hbroken : (barOf (wgAt s w) k).broken = none)
    (hinit : needs = true → (barOf (wgAt s w) k).init = true) : barFault s w k needs = none := by
  unfold barFault barrierFault
  cases needs
  · rw [hbroken]
    rfl
  · rw [hbroken, hinit rfl]
    rfl

theorem tagFault_of_granted {s : State} {u : Bundle} {k : BitVec 4} (h : tagsInGrant s u k) : tagFault s u k = none := by
  have hb : beyondGrant s u.wg (tagMask s u k) = false := by
    rw [beyondGrant, tagMask, ← squadOf, h]
    rfl
  rw [tagFault, hb]
  rfl

theorem ringOp_of_owned {s : State} {u : Bundle} {k : BitVec 4} (h : k.toNat < ringsOf s u.wg) (f : Bundle → State → State) :
    ringOp k f u s = f u s := if_neg (Nat.not_le_of_lt h)

theorem ringFault_of_slots {s : State} {u : Bundle} {k : BitVec 4} (h : (ringOf (wgAt s u.wg) k.toNat).slots ≠ 0) : ringFault s u k = none := if_neg h

theorem alignedFault_of_aligned {s : State} {u : Bundle} (h : (wgAt s u.wg).aligned = true) : alignedFault s u = none := if_pos h

/-! What is acquired. -/

/-- Of a wait that acquires nothing. -/
theorem acquired_nothing (done : State → Bundle → Nat → Bool) (s : State) (u : Bundle) : acquired done (fun s _ => s) s u = s := ite_self s

/-- No lane goes on exactly where the condition fails for all guard-true lanes. -/
theorem goesOn_eq_zero (done : State → Bundle → Nat → Bool) (s : State) (u : Bundle) :
    goesOn done s u = 0 ↔ (lanesOf (activeMask s u)).any (done s u) = false := by
  rw [List.any_eq_false]
  constructor
  · intro h l hl
    obtain ⟨-, ha⟩ := (mem_lanesOf _ l).1 hl
    have hin := congrArg (inMask · l) h
    simpa [inMask_goesOn done s u ha] using hin
  · intro h
    refine mask_ext _ _ (fun l hl => ?_)
    by_cases ha : inMask (activeMask s u) l = true
    · rw [inMask_goesOn done s u ha]
      simpa using h l ((mem_lanesOf _ l).2 ⟨hl, ha⟩)
    · rw [goesOn, inMask_maskOf _ _ hl]
      simp [ha]

theorem acquired_eq (done : State → Bundle → Nat → Bool) (acq : State → Bundle → State) (s : State) (u : Bundle) :
    acquired done acq s u = if (lanesOf (activeMask s u)).any (done s u) then acq s u else s := by
  rw [acquired]
  by_cases h : goesOn done s u = 0
  · rw [if_pos h, (goesOn_eq_zero done s u).1 h]
    rfl
  · rw [if_neg h, if_pos (by simpa using mt (goesOn_eq_zero done s u).2 h)]

theorem any_lanes_const {m : BitVec 32} (hm : m ≠ 0) (c : Bool) : (lanesOf m).any (fun _ => c) = c := by
  obtain ⟨l, hlt, hl⟩ := exists_inMask_of_ne_zero hm
  cases c
  · simp
  · exact List.any_eq_true.2 ⟨l, (mem_lanesOf _ l).2 ⟨hlt, hl⟩, rfl⟩

/-- Of a condition that is one for all lanes. -/
theorem acquired_uniform (c : State → Bundle → Bool) (acq : State → Bundle → State) (s : State) (u : Bundle) (hg : activeMask s u ≠ 0) :
    acquired (fun s u _ => c s u) acq s u = if c s u then acq s u else s := by
  rw [acquired_eq, any_lanes_const hg]

theorem doesAlone.congr {i : Instr} {pre : State → Bundle → Prop} {f f' : State → Bundle → State} {fates : State → Bundle → Nat → Fate}
    (h : doesAlone i pre f fates) (hf : ∀ s u, pre s u → f s u = f' s u) : doesAlone i pre f' fates := by
  intro s u hi hp
  rw [← hf s u hp]
  exact h s u hi hp

/-! Barriers (R88). -/

/-- A barrier wait whose phase a lane names. -/
theorem barrierWait_alone {i : Instr} (k : BitVec 4) (ph : State → Bundle → Nat → Bool) (hph : ∀ s u l, ph s.handed u l = ph s u l)
    (hi : ∀ s, exec i s = withBundle s (waitOp (fun s u => barFault s u.wg k.toNat true) (fun s u l => (barOf (wgAt s u.wg) k.toNat).ph == ph s u l)
      (fun s u l => .barrier k.toNat (ph s u l)) (fun s _ => s))) :
    doesAlone i (fun s u => activeMask s u ≠ 0 ∧ (barAt s u k).broken = none ∧ (barAt s u k).init = true) (fun s _ => s)
      (fun s u l => activeFate (if (barAt s u k).ph = ph s u l then .on u.next else .waits (.barrier k.toNat (ph s u l))) s u l) := by
  refine doesAlone_of_wait _ _ _ _ (fun s u h _ => (hi s).trans (withBundle_handed h _)) (fun _ _ hp => hp.1)
    (fun s u hp => barFault_of_usable hp.2.1 (fun _ => hp.2.2)) (fun s u _ _ => (congrArg still (acquired_nothing _ s.handed u)).trans (still_handed s)) (fun s u => .refl u s)
    (fun s u l _ => ?_)
  simp only [hph, beq_iff_eq]
  rfl

/-! Tags (R92). -/

/-- A tag wait whose condition is one for all lanes. -/
theorem tagWait_alone {i : Instr} (k : BitVec 4) (c : State → Bundle → Bool) (why : DWord → Wait) (holds : State → Bundle → Prop)
    [∀ s u, Decidable (holds s u)] (hc : ∀ s u, c s.handed u = true ↔ holds s u)
    (hi : ∀ s, exec i s = withBundle s (waitOp (fun s u => tagFault s u k) (fun s u _ => c s u) (fun s u _ => why (tagMask s u k)) (fun s _ => s))) :
    doesAlone i (fun s u => activeMask s u ≠ 0 ∧ tagsInGrant s u k) (fun s _ => s)
      (fun s u l => activeFate (if holds s u then .on u.next else .waits (why (qpair (squadOf s u) k.toNat))) s u l) := by
  refine doesAlone_of_wait _ _ _ _ (fun s u h _ => (hi s).trans (withBundle_handed h _)) (fun _ _ hp => hp.1)
    (fun s u hp => tagFault_of_granted hp.2) (fun s u _ _ => (congrArg still (acquired_nothing _ s.handed u)).trans (still_handed s)) (fun s u => .refl u s) (fun s u l _ => ?_)
  simp only [hc]
  rfl

/-! Rings (R95). -/

/-- A ring wait takes the cursor at once where it need not wait. -/
theorem ringWait_alone {i : Instr} (d : BitVec 6) (k : BitVec 4) (now : Ring → Bool) (cur : Ring → Nat) (why : Wait)
    (hi : ∀ s, exec i s = withBundle s (ringWait d k now cur why)) :
    doesAlone i (fun s u => activeMask s u ≠ 0 ∧ k.toNat < ringsOf s u.wg ∧ (ringAt s u k).slots ≠ 0)
      (fun s u => if now (ringAt s u k) then inSquad s u (fun q => vset q u.e.lb d.toNat (activeMask s u) (fun _ => BitVec.ofNat 32 (cur (ringAt s u k)))) else s)
      (fun s u l => activeFate (if now (ringAt s u k) then .on u.next else .waits why) s u l) := by
  refine doesAlone_of_wait (fun s u => ringFault s u k) (fun s u _ => now (ringOf (wgAt s u.wg) k.toNat)) (fun _ _ _ => why)
    (fun s u => modSq s u.wg u.sq (fun sq =>
      vset sq u.e.lb d.toNat (activeMask s u) (fun _ => BitVec.ofNat 32 (cur (ringOf (wgAt s u.wg) k.toNat)))))
    (fun s u h hp => (hi s).trans ((withBundle_handed h _).trans (congrArg _ (ringOp_of_owned (s := s.handed) hp.2.1 _))))
    (fun _ _ hp => hp.1) (fun s u hp => ringFault_of_slots hp.2.2) (fun s u _ hp => ?_)
    (fun s u => unmoved_modSq s u _ (fun _ => ⟨rfl, rfl, rfl, rfl, rfl⟩)) (fun _ _ _ _ => rfl)
  rw [acquired_uniform (fun s u => now (ringOf (wgAt s u.wg) k.toNat)) _ s.handed u hp.1, wgAt_handed]
  show still (if now (ringAt s u k) = true then _ else _) = _
  split
  · exact still_modSq_congr (still_handed s) _ _ _ (fun _ => rfl)
  · rfl

/-! Cluster barriers (R100). -/

/-- A cluster barrier wait acquires for the lanes that need not wait. -/
theorem xbarWait_alone {i : Instr} (k : BitVec 4) (ph : State → Bundle → Nat → Bool) (hph : ∀ s u l, ph s.handed u l = ph s u l)
    (hi : ∀ s, exec i s = withBundle s (xbarWait k ph)) :
    doesAlone i (fun s u => activeMask s u ≠ 0 ∧ (wgAt s u.wg).aligned = true)
      (fun s u => if (lanesOf (activeMask s u)).any (fun l => (xbOf s (wgAt s u.wg).core k.toNat).1 == ph s u l)
        then l1Invalidate s (wgAt s u.wg).core else s)
      (fun s u l => activeFate (if (xbOf s (wgAt s u.wg).core k.toNat).1 = ph s u l then .on u.next else .waits (.xbar k.toNat (ph s u l))) s u l) := by
  refine doesAlone_of_wait alignedFault (fun s u l => (xbOf s (wgAt s u.wg).core k.toNat).1 == ph s u l) (fun s u l => .xbar k.toNat (ph s u l))
    (fun s u => l1Invalidate s (wgAt s u.wg).core) (fun s u h _ => (hi s).trans (withBundle_handed h _)) (fun _ _ hp => hp.1)
    (fun s u hp => alignedFault_of_aligned hp.2) (fun s u _ _ => ?_) (fun s u => unmoved_l1Invalidate s u _) (fun s u l _ => ?_)
  · rw [acquired_eq]
    simp only [wgAt_handed, xbOf_handed, hph, activeMask_handed]
    split <;> rfl
  · simp only [hph, beq_iff_eq]
    rfl

/-- Settles O17: each wait is the law of waits with the condition of its object. -/
theorem waits : Obligations.Waits := by
  unfold Obligations.Waits
  refine ⟨fun k h => barrierWait_alone k (fun _ _ _ => h == 1) (fun _ _ _ => rfl) (fun _ => rfl), fun k a => ?_,
    fun k => tagWait_alone k (fun s u => (wgAt s u.wg).tags &&& tagMask s u k == tagMask s u k) .tagAll _ (fun _ _ => beq_iff_eq) (fun _ => rfl),
    fun k => tagWait_alone k (fun s u => (wgAt s u.wg).tags &&& tagMask s u k != 0 || tagMask s u k == 0) .tagAny _ (fun s u => ?_) (fun _ => rfl),
    fun d k => ringWait_alone d k (fun r => r.full.getLsbD r.ccur) (fun r => r.ccur) (.ringFull k.toNat d) (fun _ => rfl), fun d k => ?_,
    fun k h => ?_, fun k a => ?_⟩
  · have h := barrierWait_alone (i := .barWaitReg k a) k (fun s u l => (w32 (readReg s u (own a 1) l)).getLsbD 0) (fun _ _ _ => rfl) (fun _ => rfl)
    simp only [w32_readReg_own] at h
    exact h
  · simp [tagMask, squadOf]
  · have h := ringWait_alone (i := .ringWaitFree d k) d k (fun r => !r.full.getLsbD r.pcur) (fun r => r.pcur) (.ringFree k.toNat d) (fun _ => rfl)
    simp only [Bool.not_eq_true', ← Bool.not_eq_true, ite_not] at h
    exact h
  · refine (xbarWait_alone (i := .xbarWaitImm k h) k (fun _ _ _ => h == 1) (fun _ _ _ => rfl) (fun _ => rfl)).congr (fun s u hp => ?_)
    simp only [any_lanes_const hp.1, beq_iff_eq]
  · have h := xbarWait_alone (i := .xbarWaitReg k a) k (fun s u l => (w32 (readReg s u (own a 1) l)).getLsbD 0) (fun _ _ _ => rfl) (fun _ => rfl)
    simp only [w32_readReg_own] at h
    exact h

end Sys2Proof.Machine
end

section
/-! PROOF. Potentially faulting instructions: what their shared steps keep, and what becomes of their lanes (R197, R330, R331). -/

namespace Sys2Proof.Machine

/-! Moves of the bundle's threads. -/

theorem Unmoved.movesOnly {u : Bundle} {s t : State} (h : Unmoved u s t) (e : still t = still s) : MovesOnly u s t := ⟨e, h.fates, h.others⟩

theorem Unmoved.foldl {α : Type} {u : Bundle} {f : State → α → State} (h : ∀ s x, Unmoved u s (f s x)) (l : List α) :
    ∀ s, Unmoved u s (l.foldl f s) := by
  induction l with
  | nil => exact fun s => .refl u s
  | cons x l ih => exact fun s => (h s x).trans (ih _)

theorem movesOnly_holdPlaces (s : State) (u : Bundle) (m : BitVec 32) : MovesOnly u s (holdPlaces s u m).2 := by
  refine Unmoved.movesOnly ?_ (still_holdPlaces s u m)
  unfold holdPlaces newId
  dsimp only
  split
  · exact unmoved_of_wgs u rfl rfl
  · refine Unmoved.trans (t := { s with ids := s.ids + 1 }) (unmoved_of_wgs u rfl rfl) (unmoved_modSq _ u _ (fun _ => ?_))
    exact ⟨rfl, rfl, rfl, rfl, rfl⟩

section Await

variable (s : State) (u : Bundle) {m : BitVec 32}

theorem movesOnly_awaitCheck (hm : ∀ l, inMask m l = true → inMask u.e.mask l = true) : MovesOnly u s (awaitCheck s u m) :=
  (movesOnly_holdPlaces s u m).trans (movesOnly_wait _ u hm _ _)

theorem awaitCheck_met (hs : u.present s) {l : Nat} (hl : inMask m l = true) : met (awaitCheck s u m) u l .checked := by
  have hp := (movesOnly_holdPlaces s u m).present hs
  obtain ⟨x, hx, hlb, hmask, hwhy, hnext⟩ := wait_met (holdPlaces s u m).2 u m (.check (holdPlaces s u m).1) l hp.1 hp.2 hl
  exact ⟨x, hx, hlb, hmask, ⟨_, hwhy⟩, hnext⟩

end Await

/-! The lanes of an instruction, each checked in turn. -/

section EachLane

variable {α : Type} {f : State → Nat → State × Except FaultInfo α}

/-- One lane's turn. -/
def laneTurn (f : State → Nat → State × Except FaultInfo α) (acc : State × List (Nat × α) × List (Nat × FaultInfo)) (l : Nat) :
    State × List (Nat × α) × List (Nat × FaultInfo) :=
  match f acc.1 l with
  | (s, .ok x) => (s, acc.2.1 ++ [(l, x)], acc.2.2)
  | (s, .error i) => (s, acc.2.1, acc.2.2 ++ [(l, i)])

theorem eachLane_eq (s : State) (g : BitVec 32) (f : State → Nat → State × Except FaultInfo α) :
    eachLane s g f = (lanesOf g).foldl (laneTurn f) (s, [], []) := rfl

theorem laneTurn_state (acc : State × List (Nat × α) × List (Nat × FaultInfo)) (l : Nat) : (laneTurn f acc l).1 = (f acc.1 l).1 := by
  unfold laneTurn
  rcases f acc.1 l with ⟨s, _ | _⟩ <;> rfl

/-- What every lane's turn keeps of the machine, the instruction keeps. -/
theorem eachLane_keeps (P : State → Prop) (hf : ∀ s l, P s → P (f s l).1) (s : State) (g : BitVec 32) (hs : P s) : P (eachLane s g f).1 := by
  rw [eachLane_eq]
  have h : ∀ (ls : List Nat) acc, P acc.1 → P (ls.foldl (laneTurn f) acc).1 := by
    intro ls
    induction ls with
    | nil => exact fun _ h => h
    | cons l ls ih => exact fun acc h => ih _ (by rw [laneTurn_state]; exact hf _ _ h)
  exact h _ _ hs

/-- The lanes that passed or failed are lanes of the instruction. -/
theorem eachLane_lanes (s : State) (g : BitVec 32) :
    (∀ p ∈ (eachLane s g f).2.1, inMask g p.1 = true) ∧ ∀ p ∈ (eachLane s g f).2.2, inMask g p.1 = true := by
  rw [eachLane_eq]
  have h : ∀ (ls : List Nat) (acc : State × List (Nat × α) × List (Nat × FaultInfo)), (∀ l ∈ ls, inMask g l = true) →
      ((∀ p ∈ acc.2.1, inMask g p.1 = true) ∧ ∀ p ∈ acc.2.2, inMask g p.1 = true) →
      (∀ p ∈ (ls.foldl (laneTurn f) acc).2.1, inMask g p.1 = true) ∧ ∀ p ∈ (ls.foldl (laneTurn f) acc).2.2, inMask g p.1 = true := by
    intro ls
    induction ls with
    | nil => exact fun _ _ h => h
    | cons l ls ih =>
      rintro acc hls ⟨hok, hbad⟩
      have hl := hls l List.mem_cons_self
      refine ih _ (fun x hx => hls x (List.mem_cons_of_mem _ hx)) ?_
      unfold laneTurn
      rcases f acc.1 l with ⟨s, i | x⟩
      · exact ⟨hok, List.forall_mem_append.2 ⟨hbad, by simpa using hl⟩⟩
      · exact ⟨List.forall_mem_append.2 ⟨hok, by simpa using hl⟩, hbad⟩
  exact h _ _ (fun l hl => ((mem_lanesOf g l).1 hl).2) (by simp)

/-- A lane that fails whatever the machine is fails. -/
theorem mem_eachLane_of_fails {l : Nat} {i : FaultInfo} (hfails : ∀ s, (f s l).2 = .error i) (s : State) (g : BitVec 32) (hl : inMask g l = true) :
    (l, i) ∈ (eachLane s g f).2.2 := by
  rw [eachLane_eq]
  have hkeeps : ∀ (ls : List Nat) acc, (l, i) ∈ acc.2.2 → (l, i) ∈ (ls.foldl (laneTurn f) acc).2.2 := by
    intro ls
    induction ls with
    | nil => exact fun _ h => h
    | cons k ls ih =>
      intro acc h
      refine ih _ ?_
      unfold laneTurn
      rcases f acc.1 k with ⟨s, _ | _⟩
      · exact List.mem_append_left _ h
      · exact h
  obtain ⟨before, after, hsplit⟩ := List.append_of_mem ((mem_lanesOf g l).2 ⟨inMask_lt _ _ hl, hl⟩)
  rw [hsplit, List.foldl_append, List.foldl_cons]
  refine hkeeps _ _ ?_
  generalize before.foldl (laneTurn f) (s, [], []) = acc
  have h := hfails acc.1
  unfold laneTurn
  rcases hf : f acc.1 l with ⟨t, j | x⟩
  · rw [hf] at h
    obtain rfl : j = i := by simpa using h
    simp
  · rw [hf] at h
    simp at h

end EachLane

/-! Lanes that failed park, and the guard-false threads go on. -/

section ParkFailed

variable (s r : State) (u : Bundle) (st : Nat → Staged) {bad : List (Nat × FaultInfo)}

/-- The faults of the lanes that failed, with their staged operands. -/
def failedLanes (st : Nat → Staged) (bad : List (Nat × FaultInfo)) : List (Nat × FaultInfo × Staged) := bad.map (fun p => (p.1, p.2, st p.1))

variable (hbad : ∀ p ∈ bad, inMask (activeMask s u) p.1 = true)

include hbad

theorem inMask_of_failedLanes : ∀ f ∈ failedLanes st bad, inMask u.e.mask f.1 = true :=
  List.forall_mem_map.2 (fun p hp => inMask_of_active (hbad p hp))

theorem movesOnly_parkFailed : MovesOnly u r (parkFailed r u (activeMask s u) st bad) :=
  (movesOnly_faultLanes r u _ (inMask_of_failedLanes s u st hbad)).trans (movesOnly_advance _ u (fun _ => inMask_of_rest))

variable (hr : u.present r)

include hr

theorem parkFailed_met_rest {l : Nat} (hlt : l < 32) (hl : inMask u.e.mask l = true) (ha : inMask (activeMask s u) l = false) :
    met (parkFailed r u (activeMask s u) st bad) u l (.on u.next) := by
  have hp := (movesOnly_faultLanes r u _ (inMask_of_failedLanes s u st hbad)).present hr
  exact advance_met _ u _ l hp.1 hp.2 (by simp [hl, hlt, ha])

theorem parkFailed_met_failed {l : Nat} {i : FaultInfo} (hi : i.code < 256 ∧ i.sub < 256 ∧ i.ucode < 256 ∧ i.imm < 256) (hl : (l, i) ∈ bad) :
    met (parkFailed r u (activeMask s u) st bad) u l (.parked u.e.place i.code i.sub) :=
  (movesOnly_advance _ u (fun _ => inMask_of_rest)).fates l _
    (faultLanes_met r u _ (inMask_of_failedLanes s u st hbad) (List.mem_map.2 ⟨(l, i), hl, rfl⟩) hi hr)

end ParkFailed

theorem unmoved_sendLoads (s : State) (u : Bundle) : Unmoved u s (sendLoads s u.wg u.sq) := by
  unfold sendLoads
  refine Unmoved.foldl (fun t p => ?_) _ s
  split
  · split
    · rename_i dev a _ _
      exact Unmoved.trans (t := modSq t u.wg u.sq fun sq => { sq with loads := sq.loads.put p.1 { p.2 with src := .far dev a true } })
        (unmoved_modSq t u _ (fun _ => ⟨rfl, rfl, rfl, rfl, rfl⟩)) (unmoved_of_wgs u rfl rfl)
    · exact .refl u t
  · exact .refl u t

end Sys2Proof.Machine
end

section
/-! PROOF. Faults of threads: misaligned addresses, declarations and signatures (R98, R197, R198). -/

namespace Sys2Proof.Machine

/-! A lane of a load or a store that fails parks, whatever the other lanes meet (R197). -/

theorem recordsOf_checked {s t : State} (h : OnlyChecked s t) : recordsOf t = recordsOf s := by rw [h]; rfl

theorem unmoved_checked (u : Bundle) {s t : State} (h : OnlyChecked s t) : Unmoved u s t := unmoved_of_wgs u h.wgs (recordsOf_checked h)

theorem unmoved_noteMix (s : State) (u : Bundle) (mixed : Bool) : Unmoved u s (noteMix s u mixed) := by
  unfold noteMix
  split
  · exact unmoved_modSq s u _ (fun _ => ⟨rfl, rfl, rfl, rfl, rfl⟩)
  · exact .refl u s

theorem unmoved_startLoad (s : State) (u : Bundle) (seq l : Nat) (d : BitVec 6) (size : Nat) (fmt : LoadFmt) (home acq : Bool) (ea : DWord) (st : Staged)
    (p : Passed) : Unmoved u s (startLoad s u seq l d size fmt home acq ea st p).1 :=
  Unmoved.trans (t := (newId s).2) (unmoved_of_wgs u rfl rfl) (unmoved_modSq _ u _ (fun _ => ⟨rfl, rfl, rfl, rfl, rfl⟩))

theorem inMask_of_maskIn {α : Type} {ps : List (Nat × α)} {l : Nat} (h : inMask (maskIn ps) l = true) : ∃ p ∈ ps, p.1 = l := by
  rw [maskIn, inMask_maskOf _ _ (inMask_lt _ _ h)] at h
  simpa using h

section MemOp

variable (o : Opnds) (slots : List Nat) (scope : Nat) (release atomic : Bool)
  (f : State → Bundle → Nat → Nat → Staged → State × Except ((Nat × Nat) × BitVec 64) LaneOut) (s : State) (u : Bundle)

/-- A lane's turn of a MEM instruction: checked and performed, its fault with the staged operands. -/
def memTurn (r : State) (l : Nat) : State × Except FaultInfo LaneOut :=
  match f r u (sqAt s u.wg u.sq).seq l (stage s u o l) with
  | (t, .ok x) => (t, .ok x)
  | (t, .error e) => (t, .error (laneFault e.1 e.2 (stagedWords o (stage s u o l) slots)))

/-- The lanes of a MEM instruction, after it has taken its number among the squad's accesses. -/
def memChecked : State × List (Nat × LaneOut) × List (Nat × FaultInfo) :=
  eachLane (if activeMask s u = 0 then s else modSq s u.wg u.sq (fun sq => { sq with seq := (sqAt s u.wg u.sq).seq + 1 })) (activeMask s u)
    (memTurn o slots f s u)

/-- What a MEM instruction leaves in the squad: the store-queue entry of the lanes that store, and the flag of a masked mix. -/
def memQueued (r : State × List (Nat × LaneOut) × List (Nat × FaultInfo)) : State :=
  let sts := r.2.1.filterMap (fun p => p.2.st)
  noteMix (if sts.isEmpty then r.1
    else modSq r.1 u.wg u.sq (fun sq => { sq with stq := sq.stq ++
      [{ seq := (sqAt s u.wg u.sq).seq, lb := u.e.lb, lanes := sts, scope := scope, release := release, atomic := atomic }] })) u
    (r.2.1.any (fun p => p.2.mix))

/-- How the lanes of a MEM instruction that passed wait: for what they must, and for the last check. -/
def memWaits (passed : List (Nat × LaneOut)) (t : State) : State :=
  let t := if passed.any (fun p => p.2.why.isSome) then sendLoads t u.wg u.sq else t
  let free := maskIn (passed.filter (fun p => p.2.why.isNone))
  awaitCheck ((passed.filterMap (fun p => p.2.why)).dedup.foldl
    (fun t y => wait t u (maskIn (passed.filter (fun p => p.2.why == some y))) y u.next) (holdPlaces t u (maskIn passed &&& ~~~free)).2) u free

theorem memOp_of_aligned {al : List (BitVec 6 × Nat)} (hal : aligned al) : memOp al o slots scope release atomic f u s
    = memWaits u (memChecked o slots f s u).2.1
      (parkFailed (memQueued scope release atomic s u (memChecked o slots f s u)) u (activeMask s u) (stage s u o) (memChecked o slots f s u).2.2) := by
  unfold memOp
  rw [aligned_passes hal]
  rfl

theorem unmoved_memQueued (r : State × List (Nat × LaneOut) × List (Nat × FaultInfo)) : Unmoved u r.1 (memQueued scope release atomic s u r) := by
  unfold memQueued
  dsimp only
  refine Unmoved.trans ?_ (unmoved_noteMix _ u _)
  split
  · exact .refl u _
  · exact unmoved_modSq _ u _ (fun _ => ⟨rfl, rfl, rfl, rfl, rfl⟩)

theorem inMask_of_passed {passed : List (Nat × LaneOut)} (hp : ∀ p ∈ passed, inMask u.e.mask p.1 = true) {c : Nat × LaneOut → Bool} {l : Nat}
    (hl : inMask (maskIn (passed.filter c)) l = true) : inMask u.e.mask l = true := by
  obtain ⟨p, hmem, rfl⟩ := inMask_of_maskIn hl
  exact hp p (List.mem_filter.1 hmem).1

theorem keepsFates_memWaits {passed : List (Nat × LaneOut)} (hp : ∀ p ∈ passed, inMask u.e.mask p.1 = true) (t : State) :
    keepsFates t (memWaits u passed t) u := by
  unfold memWaits
  dsimp only
  refine keepsFates.trans (t := if passed.any (fun p => p.2.why.isSome) then sendLoads t u.wg u.sq else t) ?_ ?_
  · split
    · exact (unmoved_sendLoads t u).fates
    · exact .refl t u
  · exact (((movesOnly_holdPlaces _ u _).trans (.foldl _ _ _ (fun r y _ => movesOnly_wait r u (fun _ => inMask_of_passed u hp) y u.next))).trans
      (movesOnly_awaitCheck _ u (fun _ => inMask_of_passed u hp))).fates

variable {o slots scope release atomic f s u}

/-- THE LAW OF FAILED LANES: a lane of a MEM instruction that fails whatever the machine is parks with its fault. -/
theorem memOp_met_failed {al : List (BitVec 6 × Nat)} (hal : aligned al) (hs : u.present s) {l : Nat} (hl : inMask (activeMask s u) l = true)
    (hmoves : ∀ r seq k, Unmoved u r (f r u seq k (stage s u o k)).1) {code sub : Nat} (hc : code < 256) (hb : sub < 256) {ea : BitVec 64}
    (hfails : ∀ r seq, (f r u seq l (stage s u o l)).2 = .error ((code, sub), ea)) :
    met (memOp al o slots scope release atomic f u s) u l (.parked u.e.place code sub) := by
  rw [memOp_of_aligned o slots scope release atomic f s u hal]
  have hturn : ∀ r k, Unmoved u r (memTurn o slots f s u r k).1 := fun r k => by
    have h := hmoves r (sqAt s u.wg u.sq).seq k
    unfold memTurn
    generalize f r u (sqAt s u.wg u.sq).seq k (stage s u o k) = y at h
    rcases y with ⟨t, e | x⟩ <;> exact h
  have hfail : ∀ r, (memTurn o slots f s u r l).2 = .error (laneFault (code, sub) ea (stagedWords o (stage s u o l) slots)) := fun r => by
    have h := hfails r (sqAt s u.wg u.sq).seq
    unfold memTurn
    generalize f r u (sqAt s u.wg u.sq).seq l (stage s u o l) = y at h
    obtain ⟨t, _⟩ := y
    obtain rfl := h
    rfl
  obtain ⟨hpassed, hfailed⟩ := eachLane_lanes (f := memTurn o slots f s u)
    (if activeMask s u = 0 then s else modSq s u.wg u.sq (fun sq => { sq with seq := (sqAt s u.wg u.sq).seq + 1 })) (activeMask s u)
  have hchecked : Unmoved u s (memChecked o slots f s u).1 := by
    refine eachLane_keeps (Unmoved u s) (fun r k hr => hr.trans (hturn r k)) _ _ ?_
    split
    · exact .refl u s
    · exact unmoved_modSq s u _ (fun _ => ⟨rfl, rfl, rfl, rfl, rfl⟩)
  refine keepsFates_memWaits u (fun p h => inMask_of_active (hpassed p h)) _ l _ ?_
  exact parkFailed_met_failed s _ u _ hfailed ((unmoved_memQueued scope release atomic s u _).present (hchecked.present hs))
    (i := laneFault (code, sub) ea (stagedWords o (stage s u o l) slots)) ⟨hc, hb, by simp [laneFault, faultInfo], by simp [laneFault, faultInfo]⟩
    (mem_eachLane_of_fails hfail _ _ hl)

end MemOp

/-! Misaligned addresses (R197, R198). -/

theorem laneAccess_of_misaligned (s : State) (w : Nat) {va : BitVec 64} (n : Nat) {al : Nat} (k : Access) (ord : Acc → Option Nat) (reads mx : Bool)
    (h : va.toNat % al ≠ 0) : laneAccess s w va n al k ord reads mx = (s, .error (0x12, 0)) := if_pos h

theorem laneAddr_stage {s : State} {u : Bundle} {o : Opnds} {a : BitVec 6} (ho : o.a = some (own a 2)) (hr : u.e.replay = []) (c : BitVec 10)
    (size l : Nat) : laneAddr (w64 (stage s u o l).a) c size = srcPair s u a 0 l + c.signExtend 64 * BitVec.ofNat 64 size := by
  rw [laneAddr, stage, hr, List.find?_nil, ho]
  exact congrArg (· + _) (w64_readReg s u a 0 l)

section Misaligned

variable {s : State} {u : Bundle} {d a : BitVec 6} {c : BitVec 10} {size l : Nat} (hs : u.present s) (hal : aligned [(a, 2), (d, regWords size)])
  (hl : inMask (activeMask s u) l = true) (hr : u.e.replay = [])
  (hodd : (srcPair s u a 0 l + c.signExtend 64 * BitVec.ofNat 64 size).toNat % size ≠ 0)

include hs hal hl hr hodd

theorem loadOp_met_misaligned (fmt : LoadFmt) : met (loadOp size fmt d a c false false u s) u l (.parked u.e.place 0x12 0) := by
  unfold loadOp
  refine memOp_met_failed (ea := laneAddr (w64 (stage s u { a := some (own a 2) } l).a) c size) hal hs hl (fun r seq k => ?_) (by decide) (by decide)
    (fun r seq => ?_)
  · have h := laneAccess_checked r u.wg (laneAddr (w64 (stage s u { a := some (own a 2) } k).a) c size) size size .load detRemote true true
    dsimp only
    generalize laneAccess r u.wg _ size size .load detRemote true true = y at h
    rcases y with ⟨t, e | p⟩
    · exact unmoved_checked u h
    · exact (unmoved_checked u h).trans (unmoved_startLoad ..)
  · dsimp only
    rw [laneAccess_of_misaligned _ _ _ _ _ _ _ (by rwa [laneAddr_stage rfl hr])]

theorem storeOp_met_misaligned : met (storeOp size d a c 0 false u s) u l (.parked u.e.place 0x12 0) := by
  unfold storeOp
  refine memOp_met_failed (ea := laneAddr (w64 (stage s u { d := some (own d (regWords size)), a := some (own a 2) } l).a) c size) hal hs hl
    (fun r seq k => ?_) (by decide) (by decide) (fun r seq => ?_)
  · have h := laneAccess_checked r u.wg (laneAddr (w64 (stage s u { d := some (own d (regWords size)), a := some (own a 2) } k).a) c size) size size .store
      detRemote false true
    dsimp only
    generalize laneAccess r u.wg _ size size .store detRemote false true = y at h
    rcases y with ⟨t, e | p⟩
    · exact unmoved_checked u h
    · dsimp only
      split
      · exact (unmoved_checked u h).trans (unmoved_modSq _ u _ (fun _ => ⟨rfl, rfl, rfl, rfl, rfl⟩))
      · exact unmoved_checked u h
  · dsimp only
    rw [laneAccess_of_misaligned _ _ _ _ _ _ _ (by rwa [laneAddr_stage rfl hr])]

end Misaligned

theorem exec_met_misaligned {i : Instr} {f : Bundle → State → State} (hi : ∀ s, exec i s = withBundle s f) {s : State} {u : Bundle} (h : Issuing s u)
    {l : Nat} {F : Fate} (hf : met (f u s.handed) u l F) : ∃ t, exec i s = .next t ∧ met t u l F :=
  ⟨_, (hi s).trans (withBundle_handed h f), hf⟩

theorem misaligned_parks {i : Instr} {d a : BitVec 6} {o : BitVec 10} {size : Nat}
    (hi : (i, size) ∈ [(Instr.ldB16 d a o, 2), (.ldI16 d a o, 2), (.ldB32 d a o, 4), (.ldB64 d a o, 8), (.ldB128 d a o, 16), (.stB16 d a o, 2),
      (.stB32 d a o, 4), (.stB64 d a o, 8), (.stB128 d a o, 16)])
    {s : State} {u : Bundle} {l : Nat} (h : Issuing s u) (hal : aligned [(a, 2), (d, regWords size)]) (hl : inMask (activeMask s u) l = true)
    (hr : u.e.replay = []) (hodd : (srcPair s u a 0 l + o.signExtend 64 * BitVec.ofNat 64 size).toNat % size ≠ 0) :
    ∃ t, exec i s = .next t ∧ met t u l (.parked u.e.place 0x12 0) := by
  simp only [List.mem_cons, Prod.mk.injEq, List.not_mem_nil, or_false] at hi
  have hload := loadOp_met_misaligned (s := s.handed) h.handed hal hl hr hodd
  have hstore := storeOp_met_misaligned (s := s.handed) h.handed hal hl hr hodd
  obtain ⟨rfl, rfl⟩ | ⟨rfl, rfl⟩ | ⟨rfl, rfl⟩ | ⟨rfl, rfl⟩ | ⟨rfl, rfl⟩ | hi := hi
  · exact exec_met_misaligned (fun _ => rfl) h (hload .zext)
  · exact exec_met_misaligned (fun _ => rfl) h (hload .sext)
  · exact exec_met_misaligned (fun _ => rfl) h (hload .zext)
  · exact exec_met_misaligned (fun _ => rfl) h (hload .zext)
  · exact exec_met_misaligned (fun _ => rfl) h (hload .zext)
  · obtain ⟨rfl, rfl⟩ | ⟨rfl, rfl⟩ | ⟨rfl, rfl⟩ | ⟨rfl, rfl⟩ := hi
    all_goals exact exec_met_misaligned (fun _ => rfl) h hstore

/-! Declarations (R98). -/

theorem declare_faults {k : BitVec 4} {a : BitVec 6} {pre : State → Bundle → Prop} (sub : Nat) (hsub : sub < 256)
    (hfault : ∀ s u, pre s u → activeMask s u ≠ 0
      ∧ declareFault (wgAt s u.wg).aligned false (squadOf s u) k.toNat (signerWord s u a) = some (faultInfo 0x08 sub)) :
    doesAlone (.convDecl k a) pre (fun s _ => s) (fun s u l => activeFate (.parked u.e.place 0x08 sub) s u l) := by
  refine doesAlone_of_ownFault 0x08 sub (by decide) hsub (fun s u h hp => ?_)
  obtain ⟨hg, hf⟩ := hfault s u hp
  exact (exec_declare (fun _ => rfl) h).trans (congrArg _ (onceOp_of_faults (s := s.handed) hg hf))

/-! Signatures (R98). -/

/-- A signed form whose descriptors stand in even registers signs its convergence register. -/
theorem exec_signed {k : BitVec 3} {x : BitVec 1} {a : BitVec 6} {y : BitVec 1} {b : BitVec 6} {r : BitVec 5} (ha : x = 1 → a.toNat % 2 = 0)
    (hb : y = 1 → b.toNat % 2 = 0) {p : Instr × Bool} (hp : p ∈ signedForms k x a y b r) {s : State} {u : Bundle} (h : Issuing s u) :
    exec p.1 s = .next (signOp k p.1 p.2 u s.handed) := by
  have heven : ((x == 1 && a.toNat % 2 == 1) || (y == 1 && b.toNat % 2 == 1)) = false := by
    simp only [Bool.or_eq_false_iff, Bool.and_eq_false_imp, beq_iff_eq, beq_eq_false_iff_ne]
    exact ⟨fun h => by simp [ha h], fun h => by simp [hb h]⟩
  have hsigns : ∀ (i : Instr) (n : Nat) (cl : Bool), matFields i = some ({ x := x == 1, a := a.toNat, y := y == 1, b := b.toNat, r := r.toNat }, n, cl) →
      (∀ s, exec i s = withBundle s (mmOp k i)) → exec i s = .next (signOp k i cl u s.handed) := fun i n cl hm hi => by
    rw [hi, withBundle_handed h, mmOp, hm]
    exact congrArg _ (if_neg (by rw [heven]; exact Bool.false_ne_true))
  simp only [signedForms, List.mem_cons, List.not_mem_nil, or_false] at hp
  obtain rfl | rfl | rfl | rfl | rfl | rfl := hp <;> exact hsigns _ _ _ rfl (fun _ => rfl)

/-- The lanes of a bundle in the signer range of a register that is not empty. -/
def signers (s : State) (u : Bundle) (k : BitVec 3) : BitVec 32 :=
  maskOf (fun l => inMask u.e.mask l && (decide ((convAt s u k).first ≤ u.e.lb * 32 + l)
    && decide (u.e.lb * 32 + l < (convAt s u k).first + (convAt s u k).count) && (convAt s u k).st != 0))

theorem and_not_none (m : BitVec 32) : m &&& ~~~(0 : BitVec 32) = m := by
  rw [show ~~~(0 : BitVec 32) = BitVec.allOnes 32 from rfl, BitVec.and_allOnes]

theorem and_not_all {m g : BitVec 32} (h : ∀ l, inMask g l = true → inMask m l = true) : g &&& ~~~m = 0 := by
  refine mask_ext _ _ (fun l hl => ?_)
  cases hg : inMask g l
  · simp [hg]
  · simp [hl, hg, h l hg]

theorem all_and {m g : BitVec 32} (h : ∀ l, inMask g l = true → inMask m l = true) : m &&& g = g := by
  refine mask_ext _ _ (fun l hl => ?_)
  cases hg : inMask g l
  · simp [hg]
  · simp [hg, h l hg]

theorem faultIssue_none (s : State) (u : Bundle) (i : FaultInfo) : faultIssue s u 0 i = s := if_pos rfl

theorem advance_none (s : State) (u : Bundle) : advance s u 0 = s := by
  unfold advance
  exact if_pos rfl

theorem signOp_of_none {s : State} {u : Bundle} {k : BitVec 3} {i : Instr} {cl : Bool} (h : signers s u k = 0) :
    signOp k i cl u s = ownFault s u (faultInfo 0x08 5) := by
  unfold signOp ownFault
  dsimp only
  generalize hr : maskOf _ = r
  obtain rfl : r = 0 := hr.symm.trans h
  rw [if_pos rfl, and_not_none, and_not_none]

theorem signers_eq_none {s : State} {u : Bundle} {k : BitVec 3} (h : (convAt s u k).st = 0 ∨ ∀ l, l < 32 → inMask u.e.mask l = true →
    ¬((convAt s u k).first ≤ u.e.lb * 32 + l ∧ u.e.lb * 32 + l < (convAt s u k).first + (convAt s u k).count)) : signers s u k = 0 := by
  refine mask_ext _ _ (fun l hl => ?_)
  rw [signers, inMask_maskOf _ _ hl]
  obtain h | h := h
  · simp [h]
  · cases hm : inMask u.e.mask l
    · simp
    · have hout := h l hl hm
      rw [not_and] at hout
      by_cases hfirst : (convAt s u k).first ≤ u.e.lb * 32 + l
      · simp [hout hfirst]
      · simp [hfirst]

theorem signers_eq_all {s : State} {u : Bundle} {k : BitVec 3} (hst : (convAt s u k).st = 1 ∨ (convAt s u k).st = 2) (h : ∀ l, l < 32 →
    inMask u.e.mask l = true → (convAt s u k).first ≤ u.e.lb * 32 + l ∧ u.e.lb * 32 + l < (convAt s u k).first + (convAt s u k).count) :
    signers s u k = u.e.mask := by
  refine mask_ext _ _ (fun l hl => ?_)
  rw [signers, inMask_maskOf _ _ hl]
  cases hm : inMask u.e.mask l
  · rfl
  · obtain ⟨hfirst, hlast⟩ := h l hl hm
    have hdeclared : (convAt s u k).st ≠ 0 := by omega
    simp [hfirst, hlast, hdeclared]

theorem signOp_of_wrongKind {s : State} {u : Bundle} {k : BitVec 3} {i : Instr} {cl : Bool} (hall : signers s u k = u.e.mask)
    (hg : activeMask s u ≠ 0) (hk : (wgAt s u.wg).aligned = true) (hb : (convAt s u k).bound = !cl) :
    signOp k i cl u s = ownFault s u (faultInfo 0x08 6) := by
  have hsub : ∀ l, inMask (activeMask s u) l = true → inMask u.e.mask l = true := fun _ => inMask_of_active
  have hm : u.e.mask ≠ 0 := by
    intro h0
    rw [← all_and hsub, h0] at hg
    exact hg (BitVec.zero_and)
  unfold signOp ownFault
  dsimp only [convAt, squadOf] at hb ⊢
  generalize hr : maskOf _ = r
  obtain rfl : r = u.e.mask := hr.symm.trans hall
  rw [and_not_all hsub, if_neg hm, all_and hsub, if_neg hg, BitVec.and_comm _ u.e.mask, all_and hsub, and_not_all (fun _ => inMask_of_rest),
    faultIssue_none, advance_none, hk, hb]
  cases cl <;> rfl

/-- Settles O41: an alignment fault is the first check of an access and depends on nothing but the address. -/
theorem threadFaults : Obligations.ThreadFaults := by
  unfold Obligations.ThreadFaults
  refine ⟨fun i d a o size hi s u l h hal hl hr hodd => misaligned_parks hi h hal hl hr hodd, ⟨fun k a => ?_, fun k a => ?_⟩,
    fun k x a y b r ha hb p hp => ?_, fun k x a y b r ha hb p hp => ?_⟩
  · refine declare_faults 2 (by decide) (fun s u hp => ⟨hp.1, ?_⟩)
    rw [declareFault, Bool.false_and, if_neg Bool.false_ne_true, if_pos (by omega)]
  · refine declare_faults 3 (by decide) (fun s u hp => ⟨hp.1, ?_⟩)
    obtain ⟨-, hcount, hrange, hst⟩ := hp
    rw [declareFault, Bool.false_and, if_neg Bool.false_ne_true, if_neg (by omega), if_pos hst]
  · exact doesAlone_of_ownFault 0x08 5 (by decide) (by decide) (fun s u h hpre =>
      (exec_signed ha hb hp h).trans (congrArg _ (signOp_of_none (s := s.handed) (signers_eq_none (s := s.handed) hpre))))
  · refine doesAlone_of_ownFault 0x08 6 (by decide) (by decide) (fun s u h hpre => (exec_signed ha hb hp h).trans (congrArg _ ?_))
    obtain ⟨hg, hst, hbound, hk, hrange⟩ := hpre
    exact signOp_of_wrongKind (s := s.handed) (signers_eq_all (s := s.handed) hst hrange) hg hk hbound

end Sys2Proof.Machine
end

section
/-! PROOF. Updates that count after their issue (R81, R82, R84, R93, R100, R218). -/

namespace Sys2Proof.Machine

/-! What changes of squads keep of workgroups, and of the machine. -/

theorem wgAt_modSq_keeps {α : Type} (view : Wg → α) (hv : ∀ g qs, view { g with squads := qs } = view g) (s : State) (w q : Nat) (f : Squad → Squad)
    (v : Nat) : view (wgAt (modSq s w q f) v) = view (wgAt s v) := wgAt_modWg_keeps view s w _ (fun _ => hv _ _) v

theorem barOf_modSq (s : State) (w q : Nat) (f : Squad → Squad) (v k : Nat) : barOf (wgAt (modSq s w q f) v) k = barOf (wgAt s v) k :=
  wgAt_modSq_keeps (barOf · k) (fun _ _ => rfl) s w q f v

theorem arrivals_modSq (s : State) (w q : Nat) (f : Squad → Squad) (v : Nat) : (wgAt (modSq s w q f) v).arrivals = (wgAt s v).arrivals :=
  wgAt_modSq_keeps Wg.arrivals (fun _ _ => rfl) s w q f v

theorem barOf_setBar (g : Wg) (k : Nat) (b : Bar) : barOf (setBar g k b) k = b := Map.getD_put_self ..

theorem ringOf_setRing (g : Wg) (k : Nat) (r : Ring) : ringOf (setRing g k r) k = r := Map.getD_put_self ..

theorem isSquad_modWg {s : State} {w v q : Nat} {f : Wg → Wg} (hf : ∀ g, (f g).squads = g.squads) (h : isSquad s w q) : isSquad (modWg s v f) w q :=
  ⟨by simpa [modWg] using h.1, by rw [wgAt_modWg_keeps Wg.squads s v f hf]; exact h.2⟩

/-! The lanes of one thread. -/

theorem inMask_one {l : Nat} (hl : l < 32) (j : Nat) : inMask ((1#32) <<< l) j = decide (j = l) := by
  unfold inMask
  rw [BitVec.getLsbD_shiftLeft, BitVec.getLsbD_one]
  by_cases h : j = l
  · subst h
    simp [hl]
  · by_cases hlt : j < l
    · simp [h, hlt]
    · simp [h, show j - l ≠ 0 by omega]

theorem inMask_allOnes {l : Nat} (hl : l < 32) : inMask (BitVec.allOnes 32) l = true := by
  rw [inMask, BitVec.getLsbD_allOnes, decide_eq_true hl]

theorem one_ne_none {l : Nat} (hl : l < 32) : ((1#32) <<< l) ≠ 0 := by
  intro h
  have := inMask_one hl l
  rw [h] at this
  simp [inMask] at this

theorem lanesOf_one {l : Nat} (hl : l < 32) : lanesOf ((1#32) <<< l) = [l] := by
  have h : ∀ l < 32, lanesOf ((1#32) <<< l) = [l] := by decide
  exact h l hl

/-! When updates are due, and which counts first (R81, R82). -/

/-- The workgroup without its update `i`. -/
def withoutUpdate (s : State) (w i : Nat) : State := modWg s w (fun g => { g with arrivals := g.arrivals.eraseIdx i })

section Due

variable {s : State} {w : Nat} {a : Arrival}

theorem dueOf_first_of_all (h : countable s w a = a.mask) : dueOf s w 0 a = a.mask := by
  unfold dueOf
  rw [List.take_zero, List.foldl_nil]
  dsimp only
  rw [and_not_none, h]
  split <;> simp

theorem dueOf_first_of_none (h : countable s w a = 0) : dueOf s w 0 a = 0 := by
  unfold dueOf
  rw [List.take_zero, List.foldl_nil]
  dsimp only
  rw [and_not_none, h]
  split <;> simp

/-- An update counts when it is due, alone among the updates of its workgroup, and of the event's kind. -/
theorem countUpdate_of_only {kind : Update → Bool} (harr : (wgAt s w).arrivals = [a]) (hkind : kind a.what = true) (hall : countable s w a = a.mask)
    (hm : a.mask ≠ 0) : countUpdate s w 0 kind = applyUpdate (withoutUpdate s w 0) w a a.mask := by
  unfold countUpdate
  rw [harr]
  simp only [List.getElem?_cons_zero]
  rw [dueOf_first_of_all hall, hkind, beq_eq_false_iff_ne.2 hm]
  simp [withoutUpdate]

theorem countUpdate_of_undue {kind : Update → Bool} {i : Nat} (ha : (wgAt s w).arrivals[i]? = some a) (hdue : dueOf s w i a = 0) :
    countUpdate s w i kind = s := by
  unfold countUpdate
  rw [ha]
  dsimp only
  rw [hdue]
  simp

theorem countUpdate_of_later {kind : Update → Bool} {i j : Nat} {b : Arrival} (ha : (wgAt s w).arrivals[i]? = some a)
    (hb : (wgAt s w).arrivals[j]? = some b) (hdue : dueOf s w j b ≠ 0) (hne : i ≠ j)
    (hkey : keyLt (updateKey b (dueOf s w j b)) (updateKey a (dueOf s w i a)) = true) : countUpdate s w i kind = s := by
  unfold countUpdate
  rw [ha]
  dsimp only
  have hlater : (wgAt s w).arrivals.zipIdx.all (fun b => b.2 == i || dueOf s w b.2 b.1 == 0
      || !keyLt (updateKey b.1 (dueOf s w b.2 b.1)) (updateKey a (dueOf s w i a))) = false := by
    rw [List.all_eq_false]
    exact ⟨(b, j), List.mk_mem_zipIdx_iff_getElem?.2 hb, by rw [beq_eq_false_iff_ne.2 hdue, hkey]; simp [hne.symm]⟩
  rw [hlater]
  simp

end Due

/-- The threads of an update for whose accesses it waits: all of a commit, a free or a cluster barrier, each of a barrier for itself. -/
def updateReady (s : State) (w : Nat) (a : Arrival) (l : Nat) : Bool :=
  match a.what with
  | .barrier .. => mayRelease (sqAt s w a.sq) a.lb l a.before
  | .commit _ => (lanesOf a.mask).all (fun l => mayRelease (sqAt s w a.sq) a.lb l a.before)
  | .free _ => (lanesOf a.mask).all (fun l => loadsBack (sqAt s w a.sq) a.lb l a.before)
  | .xbar _ _ => coreAcked s (wgAt s w).core a.before && (lanesOf a.mask).all (fun l => loadsTakenBy (sqAt s w a.sq) a.lb l a.before)

theorem countable_eq (s : State) (w : Nat) (a : Arrival) : countable s w a = maskOf (fun l => inMask a.mask l && updateReady s w a l) := rfl

theorem countable_of_ready {s : State} {w : Nat} {a : Arrival} (h : ∀ l, inMask a.mask l = true → updateReady s w a l = true) :
    countable s w a = a.mask := by
  refine mask_ext _ _ (fun l hl => ?_)
  rw [countable_eq, inMask_maskOf _ _ hl]
  cases hm : inMask a.mask l
  · rfl
  · rw [h l hm, Bool.true_and]

theorem all_lanesOf {m : BitVec 32} {p : Nat → Bool} (h : ∀ l, l < 32 → inMask m l = true → p l = true) : (lanesOf m).all p = true :=
  List.all_eq_true.2 (fun l hl => h l ((mem_lanesOf m l).1 hl).1 ((mem_lanesOf m l).1 hl).2)

/-! An arrival at a barrier that is not the last (R84). -/

/-- A barrier after one more arrival. -/
def arrivedBar (b : Bar) (a : Arriver) (drop : Bool) : Bar :=
  { b with tarr := b.tarr + 1, drops := b.drops + bit drop, arrivers := b.arrivers ++ [a] }

/-- How the waits of a thread's `bar.sync` go on when its arrival has counted, in its squad. -/
def syncCounted (k lb lane : Nat) (sq : Squad) : Squad :=
  { sq with
    waiters := sq.waiters.flatMap (fun x =>
      if x.lb == lb && inMask x.mask lane && x.why == .sync k false then
        let one := (1#32) <<< lane
        (if x.mask == one then [] else [{ x with mask := x.mask &&& ~~~one }]) ++ [{ x with mask := one, why := .sync k true }]
      else [x])
    parked := sq.parked.map (fun p => match p.how with
      | .rewait (.sync j false) next => if p.lb == lb && p.lane == lane && j == k then { p with how := .rewait (.sync k true) next } else p
      | _ => p) }

theorem testBarrier_of_open {s : State} {w k : Nat} (h : phaseDone (barOf (wgAt s w) k) = false) : testBarrier s w k = s := by
  unfold testBarrier
  dsimp only
  rw [h]
  exact if_neg Bool.false_ne_true

theorem detLaunch_modWg (s : State) (v w : Nat) {f : Wg → Wg} (hf : ∀ g, (f g).launch = g.launch) : detLaunch (modWg s v f) w = detLaunch s w := by
  unfold detLaunch khwBit khwOf
  rw [wgAt_modWg_keeps Wg.launch s v f hf]
  rfl

theorem barOf_decideFinisher (s : State) (w v k : Nat) (a : Arriver) (x : Bool) : barOf (wgAt (decideFinisher s w a x) v) k = barOf (wgAt s v) k := by
  unfold decideFinisher
  split
  · rfl
  · exact barOf_modSq ..

theorem arrivals_decideFinisher (s : State) (w v : Nat) (a : Arriver) (x : Bool) : (wgAt (decideFinisher s w a x) v).arrivals = (wgAt s v).arrivals := by
  unfold decideFinisher
  split
  · rfl
  · exact arrivals_modSq ..

theorem mem_decideFinisher (s : State) (w : Nat) (a : Arriver) (x : Bool) : (decideFinisher s w a x).mem = s.mem := by
  unfold decideFinisher
  split <;> rfl

theorem pget_decideFinisher {s : State} {w : Nat} {a : Arriver} {p : BitVec 3} (hfin : a.fin = some p) (hp : p ≠ 7) (hs : isSquad s w a.sq)
    (hl : a.lane < 32) (x : Bool) : inMask (pget (sqAt (decideFinisher s w a x) w a.sq) a.lb p.toNat) a.lane = x := by
  have h7 : p.toNat ≠ 7 := fun h => hp (BitVec.eq_of_toNat_eq h)
  have hlt : p.toNat < 8 := p.isLt
  unfold decideFinisher
  rw [hfin]
  dsimp only
  rw [sqAt_modSq_self _ _ _ _ hs.1 hs.2]
  show inMask (pget (pset _ _ _ _ _) _ _) _ = x
  rw [pget_pset _ _ _ _ _ _ _ hlt hlt, if_pos ⟨rfl, rfl, h7⟩]
  cases x
  · simp [inMask_one hl, hl]
  · simp only [if_true, inMask_or, inMask_and, inMask_one hl, inMask_allOnes hl, decide_true, Bool.and_self, Bool.or_true]

theorem isSquad_decideFinisher {s : State} {w : Nat} {a : Arriver} (x : Bool) (h : isSquad s w a.sq) : isSquad (decideFinisher s w a x) w a.sq := by
  unfold decideFinisher
  split
  · exact h
  · exact isSquad_modSq _ h

theorem countArrival_of_early {s : State} {w k : Nat} {a : Arriver} {drop : Bool} (hw : w < s.wgs.length) (hdet : detLaunch s w = false)
    (hearly : (barOf (wgAt s w) k).tarr + 1 < (barOf (wgAt s w) k).texp) :
    countArrival s w k a drop
      = modSq (decideFinisher (modWg s w (fun g => setBar g k (arrivedBar (barOf (wgAt s w) k) a drop))) w a false) w a.sq
        (syncCounted k a.lb a.lane) := by
  have hnotLast : ((barOf (wgAt s w) k).tarr + 1 == (barOf (wgAt s w) k).texp) = false := by simp; omega
  have hplain : ∀ b, detLaunch (modWg s w (fun g => setBar g k b)) w = false := fun b =>
    (detLaunch_modWg s w w (f := fun g => setBar g k b) (fun _ => rfl)).trans hdet
  unfold countArrival
  dsimp only
  rw [hplain, if_neg Bool.false_ne_true, hnotLast]
  refine testBarrier_of_open ?_
  rw [barOf_modSq, barOf_decideFinisher, wgAt_modWg_self _ _ _ hw, barOf_setBar, phaseDone, hnotLast]
  simp

/-! Rings and cluster barriers (R93, R95, R100). -/

section Keeps

variable {α : Type} (view : Wg → α) (hv : ∀ g qs, view { g with squads := qs } = view g)

include hv

theorem wgAt_endWaits_keeps (s : State) (w q : Nat) (ends : Waiter → Bool) (v : Nat) : view (wgAt (endWaits s w q ends) v) = view (wgAt s v) :=
  wgView_of_still view (fun g => hv g _) (still_endWaits s w q ends) v

theorem wgAt_testRing_keeps (s : State) (w k v : Nat) : view (wgAt (testRing s w k) v) = view (wgAt s v) := by
  unfold testRing
  refine foldl_keeps (fun s => view (wgAt s v)) _ (fun t q => ?_) _ s
  exact (wgAt_endWaits_keeps view hv _ w q _ v).trans (wgAt_modSq_keeps view hv t w q _ v)

theorem wgAt_endAcquiring_keeps (s : State) (w q : Nat) (ends : Waiter → Bool) (v : Nat) :
    view (wgAt (endAcquiring s w q ends) v) = view (wgAt s v) := by
  unfold endAcquiring
  rw [wgAt_endWaits_keeps view hv]
  split <;> rfl

end Keeps

theorem sqAt_endAcquiring_keeps {α : Type} (view : Squad → α) (hv : ∀ q : Squad, view q.still = view q) (s : State) (w q : Nat) (ends : Waiter → Bool)
    (v r : Nat) : view (sqAt (endAcquiring s w q ends) v r) = view (sqAt s v r) := by
  unfold endAcquiring
  rw [sqView_of_still view hv (still_endWaits ..)]
  split <;> rfl

/-- The end of the waits for a phase of a cluster barrier, in every workgroup of the cluster's gang. -/
def xbarEnds (s : State) (core k : Nat) (ph : Bool) : State :=
  (clusterMembers s core).foldl (fun s v =>
    (List.range (wgAt s v).squads.length).foldl (fun s q => endAcquiring s v q (fun x => x.why == .xbar k ph)) s) s

/-- A cluster barrier after an arrival (R100). -/
def xbarCounted (x : Bool × BitVec 4) (core : Nat) : Bool × BitVec 4 :=
  if x.2 ||| (1#4) <<< (core % 4) = 15#4 then (!x.1, 0) else (x.1, x.2 ||| (1#4) <<< (core % 4))

theorem countXbar_eq (s : State) (w k : Nat) : countXbar s w k =
    (let core := (wgAt s w).core
     let t := { s with xb := Map.put s.xb (xbKey core k) (xbarCounted (xbOf s core k) core) }
     if (xbOf s core k).2 ||| (1#4) <<< (core % 4) = 15#4 then xbarEnds t core k (!(xbOf s core k).1) else t) := by
  unfold countXbar xbarCounted
  dsimp only
  by_cases h : (xbOf s (wgAt s w).core k).2 ||| (1#4) <<< ((wgAt s w).core % 4) = 15#4
  · rw [if_pos h, if_pos h, if_pos h]
    rfl
  · rw [if_neg h, if_neg h, if_neg h]

theorem xbarEnds_keeps {α : Type} (view : State → α) (h : ∀ s v q ends, view (endAcquiring s v q ends) = view s) (s : State) (core k : Nat) (ph : Bool) :
    view (xbarEnds s core k ph) = view s :=
  foldl_keeps view _ (fun t v => foldl_keeps view _ (fun r q => h r v q _) _ t) _ s

theorem countXbar_keeps {α : Type} (view : State → α) (h : ∀ s v q ends, view (endAcquiring s v q ends) = view s)
    (hxb : ∀ s xb, view { s with xb := xb } = view s) (s : State) (w k : Nat) : view (countXbar s w k) = view s := by
  rw [countXbar_eq]
  dsimp only
  split
  · rw [xbarEnds_keeps view h, hxb]
  · exact hxb _ _

theorem xb_endAcquiring (s : State) (w q : Nat) (ends : Waiter → Bool) : (endAcquiring s w q ends).xb = s.xb := by
  have h := congrArg State.xb (stillApartCores_endAcquiring s w q ends)
  exact h

theorem xbOf_countXbar (s : State) (w k : Nat) :
    xbOf (countXbar s w k) (wgAt s w).core k = xbarCounted (xbOf s (wgAt s w).core k) (wgAt s w).core := by
  have hput : ∀ v, Map.getD (Map.put s.xb (xbKey (wgAt s w).core k) v) (xbKey (wgAt s w).core k) (false, 0) = v := fun _ => Map.getD_put_self ..
  rw [countXbar_eq]
  dsimp only
  unfold xbOf
  split
  · rw [xbarEnds_keeps State.xb xb_endAcquiring]
    exact hput _
  · exact hput _

/-! The counting of an update that is alone in its workgroup. -/

section Apply

variable {s : State} {w : Nat} {a : Arrival}

theorem arrivals_withoutUpdate (hw : w < s.wgs.length) (harr : (wgAt s w).arrivals = [a]) : (wgAt (withoutUpdate s w 0) w).arrivals = [] := by
  rw [withoutUpdate, wgAt_modWg_self _ _ _ hw, harr]
  rfl

theorem wgAt_withoutUpdate_keeps {α : Type} (view : Wg → α) (hv : ∀ (g : Wg) as, view { g with arrivals := as } = view g) (s : State) (w i v : Nat) :
    view (wgAt (withoutUpdate s w i) v) = view (wgAt s v) := wgAt_modWg_keeps view s w _ (fun _ => hv _ _) v

theorem detLaunch_withoutUpdate (s : State) (w i v : Nat) : detLaunch (withoutUpdate s w i) v = detLaunch s v := by
  unfold withoutUpdate
  exact detLaunch_modWg s w v (fun _ => rfl)

/-- A commit or a free that the ring allows moves the ring, then ends the waits on it. -/
def ringMoved (s : State) (w k : Nat) (r : Ring) : State := testRing (modWg s w (fun g => setRing g k r)) w k

theorem ringMoved_wg (hw : w < s.wgs.length) (k : Nat) (r : Ring) :
    (wgAt (ringMoved s w k r) w).arrivals = (wgAt s w).arrivals ∧ ringOf (wgAt (ringMoved s w k r) w) k = r := by
  unfold ringMoved
  rw [wgAt_testRing_keeps Wg.arrivals (fun _ _ => rfl), wgAt_testRing_keeps (ringOf · k) (fun _ _ => rfl), wgAt_modWg_self _ _ _ hw]
  exact ⟨rfl, ringOf_setRing ..⟩

theorem applyUpdate_of_commit {k : Nat} (hwhat : a.what = .commit k) (hslots : (ringOf (wgAt s w) k).slots ≠ 0)
    (hfull : (ringOf (wgAt s w) k).full.getLsbD (ringOf (wgAt s w) k).pcur = false) (m : BitVec 32) :
    applyUpdate s w a m = ringMoved s w k (commitRing (ringOf (wgAt s w) k)) := by
  unfold applyUpdate
  rw [hwhat]
  dsimp only
  rw [commitFault, if_neg hslots, hfull]
  rfl

theorem applyUpdate_of_free {k : Nat} (hwhat : a.what = .free k) (hslots : (ringOf (wgAt s w) k).slots ≠ 0)
    (hfull : (ringOf (wgAt s w) k).full.getLsbD (ringOf (wgAt s w) k).ccur = true) (m : BitVec 32) :
    applyUpdate s w a m = ringMoved s w k (freeRing (ringOf (wgAt s w) k)) := by
  unfold applyUpdate
  rw [hwhat]
  dsimp only
  rw [freeFault, if_neg hslots, hfull]
  rfl

/-- The squad of a cluster barrier's arrival after the phase is written to its destination. -/
def xbarWritten (a : Arrival) (d : BitVec 6) (m : BitVec 32) (ph : Bool) (sq : Squad) : Squad :=
  vset (dropHolds sq a.before) a.lb d.toNat m (fun _ => BitVec.ofNat 32 (bit (!ph)))

theorem applyUpdate_of_xbar {k : Nat} {d : BitVec 6} (hwhat : a.what = .xbar k d)
    (hbit : (xbOf s (wgAt s w).core k).2.getLsbD ((wgAt s w).core % 4) = false) (m : BitVec 32) :
    applyUpdate s w a m = countXbar (modSq s w a.sq (xbarWritten a d m (xbOf s (wgAt s w).core k).1)) w k := by
  have hcore : (wgAt (modSq s w a.sq (fun sq => dropHolds sq a.before)) w).core = (wgAt s w).core :=
    wgAt_modSq_keeps Wg.core (fun _ _ => rfl) s w a.sq _ w
  unfold applyUpdate
  rw [hwhat]
  dsimp only
  rw [hcore, hbit, if_neg Bool.false_ne_true, modSq_modSq]
  rfl

theorem applyUpdate_of_barrier {k : Nat} {drop : Bool} {fin : Option (BitVec 3)} {sync : Bool} (hwhat : a.what = .barrier k drop fin sync) {l : Nat}
    (hl : l < 32) (hbroken : (barOf (wgAt s w) k).broken = none) (hinit : (barOf (wgAt s w) k).init = true)
    (hearly : (barOf (wgAt s w) k).tarr + 1 < (barOf (wgAt s w) k).texp) :
    applyUpdate s w a ((1#32) <<< l) = countArrival s w k { sq := a.sq, lb := a.lb, lane := l, fin := fin } drop := by
  unfold applyUpdate
  rw [hwhat]
  dsimp only
  rw [lanesOf_one hl, List.foldl_cons, List.foldl_nil, hbroken, hinit, if_neg (by simp), if_neg (by omega)]

end Apply

theorem barrierCounts (w n : Nat) (a : Arrival) (k : Nat) (drop : Bool) (fin : Option (BitVec 3)) (sync : Bool) (l : Nat) :
    happens .barrierArrivalCount (.ids w 0 n)
    (fun s => isSquad s w a.sq ∧ (wgAt s w).arrivals = [a] ∧ a.what = .barrier k drop fin sync ∧ a.mask = 1#32 <<< l ∧ l < 32
      ∧ mayRelease (sqAt s w a.sq) a.lb l a.before = true ∧ (barOf (wgAt s w) k).broken = none ∧ (barOf (wgAt s w) k).init = true
      ∧ (barOf (wgAt s w) k).tarr + 1 < (barOf (wgAt s w) k).texp ∧ detLaunch s w = false)
    (fun s t => (wgAt t w).arrivals = []
      ∧ barOf (wgAt t w) k = arrivedBar (barOf (wgAt s w) k) { sq := a.sq, lb := a.lb, lane := l, fin := fin } drop
      ∧ (∀ p ∈ fin, p ≠ 7 → inMask (pget (sqAt t w a.sq) a.lb p.toNat) l = false)
      ∧ ∀ x, Memory.read t.mem x = Memory.read s.mem x) := by
  rintro s harg ⟨hsq, harr, hwhat, hmask, hl, hready, hbroken, hinit, hearly, hdet⟩
  have hall : countable s w a = a.mask := countable_of_ready (fun j hj => by
    rw [hmask, inMask_one hl, decide_eq_true_eq] at hj
    rw [updateReady, hwhat, hj]
    exact hready)
  have hbar : barOf (wgAt (withoutUpdate s w 0) w) k = barOf (wgAt s w) k := wgAt_withoutUpdate_keeps (barOf · k) (fun _ _ => rfl) s w 0 w
  have hs0 : isSquad (withoutUpdate s w 0) w a.sq := isSquad_modWg (fun _ => rfl) hsq
  refine ⟨countUpdate s w 0 _, by rw [exec, execBarrierArrivalCount, onUpdate, harg], ?_⟩
  rw [countUpdate_of_only harr (by rw [hwhat]) hall (hmask ▸ one_ne_none hl), hmask,
    applyUpdate_of_barrier hwhat hl (hbar ▸ hbroken) (hbar ▸ hinit) (by rw [hbar]; exact hearly),
    countArrival_of_early hs0.1 ((detLaunch_withoutUpdate s w 0 w).trans hdet) (by rw [hbar]; exact hearly), hbar]
  have hs1 : isSquad (modWg (withoutUpdate s w 0) w (fun g => setBar g k (arrivedBar (barOf (wgAt s w) k) { sq := a.sq, lb := a.lb, lane := l, fin := fin } drop)))
      w a.sq := isSquad_modWg (fun _ => rfl) hs0
  refine ⟨?_, ?_, fun p hp h7 => ?_, fun x => ?_⟩
  · rw [arrivals_modSq, arrivals_decideFinisher, wgAt_modWg_self _ _ _ hs0.1]
    exact arrivals_withoutUpdate hsq.1 harr
  · rw [barOf_modSq, barOf_decideFinisher, wgAt_modWg_self _ _ _ hs0.1, barOf_setBar]
  · have hs2 := isSquad_decideFinisher (a := { sq := a.sq, lb := a.lb, lane := l, fin := fin }) false hs1
    rw [sqAt_modSq_self _ _ _ _ hs2.1 hs2.2]
    exact pget_decideFinisher (a := { sq := a.sq, lb := a.lb, lane := l, fin := fin }) hp h7 hs1 hl false
  · rw [modSq_mem, mem_decideFinisher]
    rfl

theorem ringCounts {w n k : Nat} {a : Arrival} {s : State} (harg : s.arg = .ids w 0 n) (hw : w < s.wgs.length) (harr : (wgAt s w).arrivals = [a])
    (hm : a.mask ≠ 0) (hready : ∀ l, inMask a.mask l = true → updateReady s w a l = true) (hslots : (ringOf (wgAt s w) k).slots ≠ 0)
    (h : (a.what = .commit k ∧ (ringOf (wgAt s w) k).full.getLsbD (ringOf (wgAt s w) k).pcur = false)
      ∨ (a.what = .free k ∧ (ringOf (wgAt s w) k).full.getLsbD (ringOf (wgAt s w) k).ccur = true)) :
    ∃ t, exec .ringUpdateApply s = .next t ∧ (wgAt t w).arrivals = []
      ∧ ringOf (wgAt t w) k = if a.what = .commit k then commitRing (ringOf (wgAt s w) k) else freeRing (ringOf (wgAt s w) k) := by
  have hring : ringOf (wgAt (withoutUpdate s w 0) w) k = ringOf (wgAt s w) k := wgAt_withoutUpdate_keeps (ringOf · k) (fun _ _ => rfl) s w 0 w
  have hmoved := ringMoved_wg (s := withoutUpdate s w 0) (by simpa [withoutUpdate, modWg] using hw) k
  rw [arrivals_withoutUpdate hw harr] at hmoved
  refine ⟨countUpdate s w 0 _, by rw [exec, execRingUpdateApply, onUpdate, harg], ?_⟩
  obtain ⟨hwhat, hfull⟩ | ⟨hwhat, hfull⟩ := h
  · rw [countUpdate_of_only harr (by rw [hwhat]) (countable_of_ready hready) hm,
      applyUpdate_of_commit hwhat (hring ▸ hslots) (hring ▸ hfull), hring, if_pos hwhat]
    exact hmoved _
  · rw [countUpdate_of_only harr (by rw [hwhat]) (countable_of_ready hready) hm,
      applyUpdate_of_free hwhat (hring ▸ hslots) (hring ▸ hfull), hring, if_neg (by simp [hwhat])]
    exact hmoved _

theorem xbarCounts {w n k : Nat} {d : BitVec 6} {a : Arrival} {s : State} (harg : s.arg = .ids w 0 n) (hsq : isSquad s w a.sq)
    (harr : (wgAt s w).arrivals = [a]) (hwhat : a.what = .xbar k d) (hm : a.mask ≠ 0)
    (hready : ∀ l, inMask a.mask l = true → updateReady s w a l = true)
    (hbit : (xbOf s (wgAt s w).core k).2.getLsbD ((wgAt s w).core % 4) = false) :
    ∃ t, exec .xbarArrivalCount s = .next t ∧ (wgAt t w).arrivals = []
      ∧ xbOf t (wgAt s w).core k = xbarCounted (xbOf s (wgAt s w).core k) (wgAt s w).core
      ∧ ∀ l, l < 32 → inMask a.mask l = true → vget (sqAt t w a.sq) a.lb d.toNat l = if (xbOf s (wgAt s w).core k).1 then 0 else 1 := by
  have hs0 : isSquad (withoutUpdate s w 0) w a.sq := isSquad_modWg (fun _ => rfl) hsq
  have hcore0 : (wgAt (withoutUpdate s w 0) w).core = (wgAt s w).core := wgAt_withoutUpdate_keeps Wg.core (fun _ _ => rfl) s w 0 w
  have hcore1 : ∀ f, (wgAt (modSq (withoutUpdate s w 0) w a.sq f) w).core = (wgAt s w).core := fun f =>
    (wgAt_modSq_keeps Wg.core (fun _ _ => rfl) _ w a.sq f w).trans hcore0
  have hwritten := sqAt_modSq_self (withoutUpdate s w 0) w a.sq (xbarWritten a d a.mask (xbOf s (wgAt s w).core k).1) hs0.1 hs0.2
  refine ⟨countUpdate s w 0 _, by rw [exec, execXbarArrivalCount, onUpdate, harg], ?_⟩
  rw [countUpdate_of_only harr (by rw [hwhat]) (countable_of_ready hready) hm, applyUpdate_of_xbar hwhat (by rw [hcore0]; exact hbit), hcore0]
  refine ⟨?_, ?_, fun l hl hin => ?_⟩
  · rw [countXbar_keeps (fun s => (wgAt s w).arrivals) (fun s v q ends => wgAt_endAcquiring_keeps Wg.arrivals (fun _ _ => rfl) s v q ends w) (fun _ _ => rfl),
      arrivals_modSq]
    exact arrivals_withoutUpdate hsq.1 harr
  · have h := xbOf_countXbar (modSq (withoutUpdate s w 0) w a.sq (xbarWritten a d a.mask (xbOf s (wgAt s w).core k).1)) w k
    rwa [hcore1] at h
  · rw [countXbar_keeps (fun s => vget (sqAt s w a.sq) a.lb d.toNat l)
      (fun s v q ends => sqAt_endAcquiring_keeps (fun sq => vget sq a.lb d.toNat l) (fun _ => rfl) s v q ends w a.sq) (fun _ _ => rfl)]
    show vget (sqAt (modSq (withoutUpdate s w 0) w a.sq (xbarWritten a d a.mask (xbOf s (wgAt s w).core k).1)) w a.sq) a.lb d.toNat l = _
    have hd : d.toNat < 256 := by omega
    rw [hwritten, xbarWritten, vget_vset _ _ _ _ _ _ _ _ hd hd hl, if_pos ⟨rfl, rfl, hin⟩]
    cases (xbOf s (wgAt s w).core k).1 <;> rfl

/-- Of two updates the free comes first, and of two that are none the one of the lower squad (R82). -/
theorem updateKey_first {a b : Arrival} (h : (∃ k, b.what = .free k) ∧ (∀ k, a.what ≠ .free k)
    ∨ (∀ k, a.what ≠ .free k ∧ b.what ≠ .free k) ∧ b.sq < a.sq) (m n : BitVec 32) : keyLt (updateKey b m) (updateKey a n) = true := by
  have hother : ∀ x : Arrival, (∀ k, x.what ≠ .free k) → ∀ m, updateKey x m = [1, x.sq, x.lb, lowest m] := fun x hx m => by
    unfold updateKey
    split
    · exact absurd ‹_› (hx _)
    · rfl
  obtain ⟨⟨k, hk⟩, ha⟩ | ⟨hnot, hlt⟩ := h
  · rw [hother a ha, updateKey, hk]
    rfl
  · rw [hother a (fun k => (hnot k).1), hother b (fun k => (hnot k).2)]
    simp [keyLt, hlt]

/-- Settles O43: an update alone in its workgroup counts when its threads are ready; a later one in the order of R82 waits. -/
theorem updatesCount : Obligations.UpdatesCount := by
  unfold Obligations.UpdatesCount
  refine ⟨barrierCounts, fun w n a k drop fin sync l s harg hp => ?_, fun w n a k s harg hp => ?_, fun w n a k s harg hp => ?_,
    fun w n a k d s harg hp => ?_, fun w n i j a b s harg hp => ?_⟩
  · obtain ⟨harr, hwhat, hmask, hl, hnot⟩ := hp
    have hnone : dueOf s w 0 a = 0 := by
      refine dueOf_first_of_none (mask_ext _ _ (fun j hj => ?_))
      rw [countable_eq, inMask_maskOf _ _ hj, updateReady, hwhat, hmask, inMask_one hl]
      by_cases hjl : j = l
      · subst hjl
        obtain h | h := hnot <;> simp [mayRelease, h]
      · simp [hjl]
    rw [exec, execBarrierArrivalCount, onUpdate, harg]
    exact congrArg _ (countUpdate_of_undue (by rw [harr]; rfl) hnone)
  · obtain ⟨hw, harr, hwhat, hm, hready, hslots, hfull⟩ := hp
    obtain ⟨t, he, hcounted, hring⟩ := ringCounts (k := k) harg hw harr hm
      (fun l _ => by rw [updateReady, hwhat]; exact all_lanesOf hready) hslots (.inl ⟨hwhat, hfull⟩)
    exact ⟨t, he, hcounted, hring.trans (if_pos hwhat)⟩
  · obtain ⟨hw, harr, hwhat, hm, hloads, hslots, hfull⟩ := hp
    obtain ⟨t, he, hcounted, hring⟩ := ringCounts (k := k) harg hw harr hm
      (fun l _ => by rw [updateReady, hwhat]; exact all_lanesOf (fun l _ _ => by rw [loadsBack, hloads]; rfl)) hslots (.inr ⟨hwhat, hfull⟩)
    exact ⟨t, he, hcounted, hring.trans (if_neg (by simp [hwhat]))⟩
  · obtain ⟨hsq, harr, hwhat, hm, hready, hacked, hbit⟩ := hp
    exact xbarCounts harg hsq harr hwhat hm (fun l _ => by rw [updateReady, hwhat, hacked]; exact all_lanesOf hready) hbit
  · obtain ⟨ha, hb, hdue, hfirst⟩ := hp
    rw [exec, execBarrierArrivalCount, onUpdate, harg]
    refine congrArg _ (countUpdate_of_later ha hb hdue ?_ ?_)
    · rintro rfl
      obtain rfl : a = b := Option.some.inj (ha.symm.trans hb)
      obtain ⟨⟨k, hk⟩, hnot⟩ | ⟨-, hlt⟩ := hfirst
      · exact hnot k hk
      · exact lt_irrefl _ hlt
    · exact updateKey_first hfirst _ _

end Sys2Proof.Machine
end

section
/-! PROOF. Ticket waits and event waits: the lanes that need not wait go on after the last check, each other waits for its own reason (R101, R104, R330). -/

namespace Sys2Proof.Machine

/-! How the lanes of an instruction that passed wait, each for its own reason or for the last check. -/

section WaitLanes

variable {α : Type} (u : Bundle) (lane : α → Nat) (why : α → Wait)

/-- Each of some lanes begins its own wait. -/
def waitLanes (xs : List α) (s : State) : State := xs.foldl (fun s x => wait s u ((1#32) <<< lane x) (why x) u.next) s

/-- The lanes of `xs` wait, each for its own reason, and those of `go` for the last check; `held` are those whose places are held till then. -/
def settleLanes (held go : BitVec 32) (xs : List α) (s : State) : State := awaitCheck (waitLanes u lane why xs (holdPlaces s u held).2) u go

variable {u lane} {xs : List α} (hxs : ∀ x ∈ xs, inMask u.e.mask (lane x) = true)

include hxs

theorem movesOnly_waitLane {x : α} (hx : x ∈ xs) (s : State) : MovesOnly u s (wait s u ((1#32) <<< lane x) (why x) u.next) := by
  have hlt : lane x < 32 := inMask_lt _ _ (hxs x hx)
  refine movesOnly_wait s u (fun l hl => ?_) _ _
  rw [inMask_one hlt, decide_eq_true_eq] at hl
  exact hl ▸ hxs x hx

theorem movesOnly_waitLanes (s : State) : MovesOnly u s (waitLanes u lane why xs s) :=
  .foldl _ _ _ (fun t _ hx => movesOnly_waitLane why hxs hx t)

theorem waitLanes_met {s : State} (hs : u.present s) {x : α} (hx : x ∈ xs) : met (waitLanes u lane why xs s) u (lane x) (.waits (why x)) := by
  refine MovesOnly.foldl_met _ _ (fun t _ hy => movesOnly_waitLane why hxs hy t) hx (fun t ht => ?_) s hs
  exact wait_met t u _ _ _ ht.1 ht.2 (by rw [inMask_one (inMask_lt _ _ (hxs x hx))]; simp)

variable {go : BitVec 32} (hgo : ∀ l, inMask go l = true → inMask u.e.mask l = true)

include hgo

theorem movesOnly_settleLanes (held : BitVec 32) (s : State) : MovesOnly u s (settleLanes u lane why held go xs s) :=
  ((movesOnly_holdPlaces s u held).trans (movesOnly_waitLanes why hxs _)).trans (movesOnly_awaitCheck _ u hgo)

theorem settleLanes_met_waits (held : BitVec 32) {s : State} (hs : u.present s) {x : α} (hx : x ∈ xs) :
    met (settleLanes u lane why held go xs s) u (lane x) (.waits (why x)) :=
  (movesOnly_awaitCheck _ u hgo).fates _ _ (waitLanes_met why hxs ((movesOnly_holdPlaces s u held).present hs) hx)

omit hgo in
theorem settleLanes_met_checked (held : BitVec 32) {s : State} (hs : u.present s) {l : Nat} (hl : inMask go l = true) :
    met (settleLanes u lane why held go xs s) u l .checked :=
  awaitCheck_met _ u (((movesOnly_holdPlaces s u held).trans (movesOnly_waitLanes why hxs _)).present hs) hl

end WaitLanes

/-! One guard-true thread. -/

theorem eachLane_one {α : Type} {f : State → Nat → State × Except FaultInfo α} {s : State} {l : Nat} (hl : l < 32) :
    eachLane s ((1#32) <<< l) f = laneTurn f (s, [], []) l := by
  rw [eachLane_eq, lanesOf_one hl]
  rfl

theorem eachLane_one_ok {α : Type} {f : State → Nat → State × Except FaultInfo α} {s r : State} {l : Nat} {x : α} (hl : l < 32)
    (hf : f s l = (r, .ok x)) : eachLane s ((1#32) <<< l) f = (r, [(l, x)], []) := by
  rw [eachLane_one hl, laneTurn, hf]
  rfl

theorem maskIn_one {α : Type} {l : Nat} (hl : l < 32) (x : α) : maskIn [(l, x)] = (1#32) <<< l := by
  refine mask_ext _ _ (fun j hj => ?_)
  rw [maskIn, inMask_maskOf _ _ hj, inMask_one hl, List.any_cons, List.any_nil, Bool.or_false, Bool.beq_eq_decide_eq]
  exact decide_eq_decide.2 eq_comm

theorem maskIn_nil {α : Type} : maskIn ([] : List (Nat × α)) = 0 := by
  refine mask_ext _ _ (fun j hj => ?_)
  rw [maskIn, inMask_maskOf _ _ hj]
  simp

theorem still_l1Invalidate_congr {s t : State} (e : still s = still t) (core : Nat) : still (l1Invalidate s core) = still (l1Invalidate t core) := by
  have h : ∀ s, still (l1Invalidate s core) = l1Invalidate (still s) core := fun _ => rfl
  rw [h, h, e]

/-- Nothing failed: the guard-false threads go on. -/
theorem parkFailed_none (s : State) (u : Bundle) (g : BitVec 32) (st : Nat → Staged) : parkFailed s u g st [] = advance s u (u.e.mask &&& ~~~g) := rfl

theorem memWord_of_still {s t : State} (e : still s = still t) (a : Nat) : memWord s a = memWord t a := by
  unfold memWord
  rw [mem_of_still e]

theorem ticketAccess_checked (s : State) (w : Nat) (va : DWord) (k : Access) : OnlyChecked s (ticketAccess s w va k).1 := by
  have h := laneAccess_checked s w va 4 4 k noOrder false false
  unfold ticketAccess
  generalize laneAccess s w va 4 4 k noOrder false false = y at h
  rcases y with ⟨t, e | p⟩
  · exact h
  · dsimp only
    split
    · exact h
    · split
      · split
        · exact h
        · exact h.trans (keyLine_checked ..)
      · exact h

section OneLane

variable {s : State} {u : Bundle} {l : Nat} (hone : theLane s u l)

include hone

theorem active_of_theLane : inMask (activeMask s u) l = true := by
  rw [hone.2, inMask_one hone.1, decide_eq_true rfl]

theorem eq_of_theLane {k : Nat} (hk : inMask (activeMask s u) k = true) : k = l := by
  rwa [hone.2, inMask_one hone.1, decide_eq_true_eq] at hk

/-- The fate of the one guard-true thread, and of the others. -/
theorem activeFate_of_theLane {t : State} {F : Fate} (hl : met t u l F)
    (hrest : ∀ k, k < 32 → inMask u.e.mask k = true → inMask (activeMask s u) k = false → met t u k (.on u.next)) :
    ∀ k, k < 32 → inMask u.e.mask k = true → met t u k (activeFate F s u k) := by
  intro k hk hm
  unfold activeFate
  split
  · rename_i ha
    rw [eq_of_theLane hone ha]
    exact hl
  · rename_i ha
    exact hrest k hk hm (by simpa using ha)

end OneLane

/-! Ticket waits (R101). -/

/-- How a ticket wait of one guard-true thread ends: it goes on, with the core's L1 lines dropped, or waits. -/
def tktSettled (p : State) (u : Bundle) (l loc : Nat) (thr : Nat → Word) : State :=
  if reached (memWord p loc) (thr l) then settleLanes u Prod.fst (fun x => .ticket x.2 (thr x.1)) 0 ((1#32) <<< l) [] (l1Invalidate p (wgAt p u.wg).core)
  else settleLanes u Prod.fst (fun x => .ticket x.2 (thr x.1)) ((1#32) <<< l) 0 [(l, loc)] p

theorem execTktWait_eq {a b : BitVec 6} {n : BitVec 2} {s : State} {u : Bundle} {l : Nat} (h : Issuing s u) (ha : a.toNat % 2 = 0) (hone : theLane s u l)
    {r : State} {loc : Nat} {st : Nat → Staged} (hst : stage s u { a := some (own a 2), b := some ⟨b, n, 1⟩ } = st)
    (hr : ticketAccess s.handed u.wg (w64 (st l).a) .load = (r, .ok loc)) :
    exec (.tktWait a b n) s
      = .next (tktSettled (advance r u (u.e.mask &&& ~~~(activeMask s u))) u l loc (fun k => w32 (st k).b)) := by
  have hal : misaligned a 2 = false := by simp [misaligned, ha]
  have hst' : stage s.handed u { a := some (own a 2), b := some ⟨b, n, 1⟩ } = st := hst
  rw [exec, execTktWait, withBundle_handed h]
  dsimp only
  rw [hal, if_neg Bool.false_ne_true, activeMask_handed, hone.2, eachLane_one_ok (r := r) (x := loc) hone.1]
  · dsimp only
    rw [parkFailed_none, maskIn_one hone.1, hst', List.filter_cons, List.filter_nil, tktSettled]
    split
    · rw [maskIn_one hone.1, if_neg (one_ne_none hone.1), and_not_all (fun _ => id), List.filter_cons, List.filter_nil, if_neg]
      · rfl
      · simp [inMask_one hone.1]
    · rw [maskIn_nil, if_pos rfl, and_not_none, List.filter_cons, List.filter_nil, if_pos]
      · rfl
      · simp
  · rw [hst', hr]

theorem tktWaits {a b : BitVec 6} {n : BitVec 2} {s : State} {u : Bundle} {l : Nat} (h : Issuing s u) (ha : a.toNat % 2 = 0) (hone : theLane s u l)
    {r : State} {loc : Nat} {st : Nat → Staged} (hst : stage s u { a := some (own a 2), b := some ⟨b, n, 1⟩ } = st)
    (hr : ticketAccess s.handed u.wg (w64 (st l).a) .load = (r, .ok loc)) :
    ∃ t, exec (.tktWait a b n) s = .next t
       ∧ still t = still (if reached (memWord r loc) (w32 (st l).b) then l1Invalidate r (wgAt s u.wg).core else r)
       ∧ ∀ k, k < 32 → inMask u.e.mask k = true →
           met t u k (activeFate (if reached (memWord r loc) (w32 (st l).b) then .checked else .waits (.ticket loc (w32 (st l).b))) s u k) := by
  have hchecked : OnlyChecked s.handed r := by
    have h := ticketAccess_checked s.handed u.wg (w64 (st l).a) .load
    rwa [hr] at h
  have hr' : u.present r := (unmoved_checked u hchecked).present h.handed
  have hgo := movesOnly_advance r u (m := u.e.mask &&& ~~~(activeMask s u)) (fun _ => inMask_of_rest)
  have hrest : ∀ k, k < 32 → inMask u.e.mask k = true → inMask (activeMask s u) k = false →
      met (advance r u (u.e.mask &&& ~~~(activeMask s u))) u k (.on u.next) := fun k hk hm hnot =>
    advance_met r u _ k hr'.1 hr'.2 (by simp [hm, hk, hnot])
  have hp := hgo.present hr'
  have hcore : (wgAt (advance r u (u.e.mask &&& ~~~(activeMask s u))) u.wg).core = (wgAt s u.wg).core :=
    (wgView_of_still Wg.core (fun _ => rfl) hgo.still u.wg).trans (by rw [wgAt, hchecked.wgs]; rfl)
  refine ⟨_, execTktWait_eq h ha hone hst hr, ?_⟩
  have hl := inMask_of_active (active_of_theLane hone)
  have hone' : ∀ k, inMask ((1#32) <<< l) k = true → inMask u.e.mask k = true := fun k hk => by
    rw [inMask_one hone.1, decide_eq_true_eq] at hk
    exact hk ▸ hl
  generalize advance r u (u.e.mask &&& ~~~(activeMask s u)) = p at hgo hrest hp hcore
  have hmem : memWord p loc = memWord r loc := memWord_of_still hgo.still loc
  rw [tktSettled, hmem, hcore]
  split
  · have hacq := unmoved_l1Invalidate p u (wgAt s u.wg).core
    have hsettle := movesOnly_settleLanes (xs := ([] : List (Nat × Nat))) (lane := Prod.fst) (fun x => .ticket x.2 (w32 (st x.1).b)) (by simp) hone' 0
      (l1Invalidate p (wgAt s u.wg).core)
    refine ⟨hsettle.still.trans (still_l1Invalidate_congr hgo.still _), activeFate_of_theLane hone ?_ (fun k hk hm hnot => ?_)⟩
    · exact settleLanes_met_checked (xs := ([] : List (Nat × Nat))) _ (by simp) 0 (hacq.present hp) (by rw [inMask_one hone.1, decide_eq_true rfl])
    · exact hsettle.fates _ _ (hacq.fates _ _ (hrest k hk hm hnot))
  · have hsettle := movesOnly_settleLanes (xs := [(l, loc)]) (lane := Prod.fst) (go := 0) (fun x => .ticket x.2 (w32 (st x.1).b)) (by simpa using hl) (by simp)
      ((1#32) <<< l) p
    refine ⟨hsettle.still.trans hgo.still, activeFate_of_theLane hone ?_ (fun k hk hm hnot => hsettle.fates _ _ (hrest k hk hm hnot))⟩
    exact settleLanes_met_waits (xs := [(l, loc)]) (lane := Prod.fst) (x := (l, loc)) (fun x => .ticket x.2 (w32 (st x.1).b)) (by simpa using hl) (by simp) _ hp
      (by simp)

/-! Event waits (R104). -/

theorem eventValue_of_still {s t : State} (e : still s = still t) (ctx n : Nat) : eventValue s ctx n = eventValue t ctx n := by
  have hmem : s.mem = t.mem := mem_of_still e
  have hctxs : s.ctxs = t.ctxs := by
    have h := congrArg State.ctxs e
    exact h
  unfold eventValue physRead eventAddr ctxAt
  rw [hmem, hctxs]

section Events

variable (s : State) (u : Bundle) (num : Nat → Nat) (thr : Nat → Word)

/-- The guard-true lanes whose event number is a number of an event. -/
def evtGood : BitVec 32 := maskOf (fun l => inMask (activeMask s u) l && decide (num l < 4096))

/-- Those whose event has reached the threshold. -/
def evtGo : BitVec 32 := maskOf (fun l => inMask (evtGood s u num) l && reached (eventValue s (contextOf s u) (num l)) (thr l))

/-- The faults of the lanes whose event number is none. -/
def evtBad (info : Nat → FaultInfo) : List (Nat × FaultInfo) :=
  ((lanesOf (activeMask s u)).filter (fun l => decide (4096 ≤ num l))).map (fun l => (l, info l))

/-- How an event wait ends when the lanes with no event are parked: the lanes go on, with the core's L1 lines dropped if there are any, or wait. -/
def evtSettled (p : State) : State :=
  settleLanes u id (fun l => .event (num l) (thr l)) (evtGood s u num &&& ~~~evtGo s u num thr) (evtGo s u num thr)
    (lanesOf (evtGood s u num &&& ~~~evtGo s u num thr)) (if evtGo s u num thr = 0 then p else l1Invalidate p (wgAt s u.wg).core)

theorem inMask_evtGood {l : Nat} (hl : l < 32) : inMask (evtGood s u num) l = (inMask (activeMask s u) l && decide (num l < 4096)) :=
  inMask_maskOf _ _ hl

theorem inMask_evtGo {l : Nat} (hl : l < 32) : inMask (evtGo s u num thr) l
    = (inMask (activeMask s u) l && decide (num l < 4096) && reached (eventValue s (contextOf s u) (num l)) (thr l)) := by
  rw [evtGo, inMask_maskOf _ _ hl, inMask_evtGood _ _ _ hl]

end Events

theorem execEvtWait_eq {a : BitVec 6} {m : BitVec 2} {b : BitVec 6} {n : BitVec 2} {s : State} {u : Bundle} (h : Issuing s u) {st : Nat → Staged}
    (hst : stage s u { a := some ⟨a, m, 1⟩, b := some ⟨b, n, 1⟩ } = st) : ∃ info : Nat → FaultInfo,
    (∀ l, (info l).code = 0x1D ∧ (info l).sub = 1 ∧ (info l).ucode = 0 ∧ (info l).imm = 0) ∧ exec (.evtWait a m b n) s
      = .next (evtSettled s u (fun l => (w32 (st l).a).toNat) (fun l => w32 (st l).b)
        (parkFailed s.handed u (activeMask s u) st (evtBad s u (fun l => (w32 (st l).a).toNat) info))) := by
  refine ⟨fun l => { faultInfo 0x1D 1 with staged := some (stagedWords { a := some ⟨a, m, 1⟩, b := some ⟨b, n, 1⟩ } (st l) [1, 2]) },
    fun l => ⟨rfl, rfl, rfl, rfl⟩, ?_⟩
  have hst' : stage s.handed u { a := some ⟨a, m, 1⟩, b := some ⟨b, n, 1⟩ } = st := hst
  have hctx : sysCtx s.handed u.wg = contextOf s u := rfl
  rw [exec, execEvtWait, withBundle_handed h]
  dsimp only
  rw [hst', hctx, activeMask_handed]
  generalize hp : parkFailed s.handed u (activeMask s u) st _ = p
  have hstill : still p = still s := by rw [← hp, still_parkFailed]; rfl
  have hcore : (wgAt p u.wg).core = (wgAt s u.wg).core := wgView_of_still Wg.core (fun _ => rfl) hstill u.wg
  simp only [eventValue_of_still hstill, hcore]
  rw [evtBad, hp]
  rfl

theorem stage_fresh {s : State} {u : Bundle} (hr : u.e.replay = []) (o : Opnds) (l : Nat) :
    stage s u o l = { d := readOpt s u o.d l, a := readOpt s u o.a l, b := readOpt s u o.b l, c := readOpt s u o.c l } := by
  rw [stage, hr, List.find?_nil]

theorem mask_ne_none {m : BitVec 32} : m ≠ 0 ↔ ∃ l, l < 32 ∧ inMask m l = true := by
  refine ⟨fun h => ?_, fun ⟨l, _, hl⟩ h => by rw [h] at hl; simp [inMask] at hl⟩
  by_contra hnone
  refine h (mask_ext _ _ (fun l hl => ?_))
  rw [show inMask (0 : BitVec 32) l = false from inMask_zero l]
  simpa using fun hm => hnone ⟨l, hl, hm⟩

theorem evtWaits {a : BitVec 6} {m : BitVec 2} {b : BitVec 6} {n : BitVec 2} {s : State} {u : Bundle} (h : Issuing s u) {st : Nat → Staged}
    (hst : stage s u { a := some ⟨a, m, 1⟩, b := some ⟨b, n, 1⟩ } = st) {num : Nat → Nat} {thr : Nat → Word}
    (hnum : (fun l => (w32 (st l).a).toNat) = num) (hthr : (fun l => w32 (st l).b) = thr) :
    ∃ t, exec (.evtWait a m b n) s = .next t
      ∧ still t = still (if evtGo s u num thr = 0 then s else l1Invalidate s (wgAt s u.wg).core)
      ∧ ∀ l, l < 32 → inMask u.e.mask l = true → met t u l (activeFate
          (if 4096 ≤ num l then .parked u.e.place 0x1D 1
           else if reached (eventValue s (contextOf s u) (num l)) (thr l) then .checked else .waits (.event (num l) (thr l))) s u l) := by
  obtain ⟨info, hinfo, hexec⟩ := execEvtWait_eq (a := a) (m := m) (b := b) (n := n) h hst
  rw [hnum, hthr] at hexec
  have hbad : ∀ p ∈ evtBad s u num info, inMask (activeMask s u) p.1 = true := by
    intro p hp
    obtain ⟨l, hl, rfl⟩ := List.mem_map.1 hp
    exact ((mem_lanesOf _ _).1 (List.mem_filter.1 hl).1).2
  have hpark := movesOnly_parkFailed s s.handed u st hbad
  have hstill : still (parkFailed s.handed u (activeMask s u) st (evtBad s u num info)) = still s := hpark.still
  have hpresent := hpark.present h.handed
  have hacq : ∀ p, Unmoved u p (if evtGo s u num thr = 0 then p else l1Invalidate p (wgAt s u.wg).core) := fun p => by
    split
    · exact .refl u p
    · exact unmoved_l1Invalidate p u _
  have hheld : ∀ l, inMask (evtGood s u num &&& ~~~evtGo s u num thr) l = true → inMask u.e.mask l = true := fun l hl => by
    have hg := inMask_of_rest hl
    rw [inMask_evtGood _ _ _ (inMask_lt _ _ hg), Bool.and_eq_true] at hg
    exact inMask_of_active hg.1
  have hgo : ∀ l, inMask (evtGo s u num thr) l = true → inMask u.e.mask l = true := fun l hl => by
    rw [inMask_evtGo _ _ _ _ (inMask_lt _ _ hl), Bool.and_eq_true, Bool.and_eq_true] at hl
    exact inMask_of_active hl.1.1
  have hlanes : ∀ l ∈ lanesOf (evtGood s u num &&& ~~~evtGo s u num thr), inMask u.e.mask (id l) = true := fun l hl => hheld l ((mem_lanesOf _ _).1 hl).2
  have hsettle := movesOnly_settleLanes (lane := id) (fun l => .event (num l) (thr l)) hlanes hgo (evtGood s u num &&& ~~~evtGo s u num thr)
    (if evtGo s u num thr = 0 then parkFailed s.handed u (activeMask s u) st (evtBad s u num info)
      else l1Invalidate (parkFailed s.handed u (activeMask s u) st (evtBad s u num info)) (wgAt s u.wg).core)
  refine ⟨_, hexec, hsettle.still.trans ?_, fun l hl hm => ?_⟩
  · split
    · exact hstill
    · exact still_l1Invalidate_congr hstill _
  have hkeep : ∀ {F}, met (parkFailed s.handed u (activeMask s u) st (evtBad s u num info)) u l F → met _ u l F := fun hF =>
    hsettle.fates _ _ ((hacq _).fates _ _ hF)
  unfold activeFate
  split
  · rename_i ha
    split
    · rename_i hlarge
      obtain ⟨hcode, hsub, hucode, himm⟩ := hinfo l
      have hfailed := parkFailed_met_failed s s.handed u st hbad h.handed (l := l) (i := info l) (by omega)
        (List.mem_map.2 ⟨l, List.mem_filter.2 ⟨(mem_lanesOf _ _).2 ⟨hl, ha⟩, by simpa using hlarge⟩, rfl⟩)
      rw [hcode, hsub] at hfailed
      exact hkeep hfailed
    · rename_i hsmall
      split
      · rename_i hreached
        exact settleLanes_met_checked _ hlanes _ ((hacq _).present hpresent)
          (by rw [inMask_evtGo _ _ _ _ hl, ha, hreached]; simpa using hsmall)
      · rename_i hreached
        refine settleLanes_met_waits (lane := id) (fun l => .event (num l) (thr l)) hlanes hgo _ ((hacq _).present hpresent) ((mem_lanesOf _ _).2 ⟨hl, ?_⟩)
        rw [inMask_and, inMask_not _ _ hl, inMask_evtGood _ _ _ hl, inMask_evtGo _ _ _ _ hl, ha]
        simpa [hreached] using hsmall
  · rename_i ha
    exact hkeep (parkFailed_met_rest s s.handed u st hbad h.handed hl hm (by simpa using ha))

/-- Whether a lane's event is one, and has reached its threshold. -/
def evtGoes (s : State) (u : Bundle) (num : Nat → Nat) (thr : Nat → Word) (l : Nat) : Bool :=
  decide (num l < 4096) && reached (eventValue s (contextOf s u) (num l)) (thr l)

theorem any_evtGoes_iff (s : State) (u : Bundle) (num : Nat → Nat) (thr : Nat → Word) :
    (lanesOf (activeMask s u)).any (evtGoes s u num thr) = true ↔ evtGo s u num thr ≠ 0 := by
  rw [mask_ne_none, List.any_eq_true]
  constructor
  · rintro ⟨l, hl, hgoes⟩
    obtain ⟨hlt, ha⟩ := (mem_lanesOf _ l).1 hl
    exact ⟨l, hlt, by rw [inMask_evtGo _ _ _ _ hlt, ha, Bool.true_and]; exact hgoes⟩
  · rintro ⟨l, hlt, hgo⟩
    rw [inMask_evtGo _ _ _ _ hlt, Bool.and_assoc, Bool.and_eq_true] at hgo
    exact ⟨l, (mem_lanesOf _ l).2 ⟨hlt, hgo.1⟩, hgo.2⟩

theorem evtWaits_fresh {a : BitVec 6} {m : BitVec 2} {b : BitVec 6} {n : BitVec 2} {s : State} {u : Bundle} (h : Issuing s u) (hr : u.e.replay = []) :
    ∃ t, exec (.evtWait a m b n) s = .next t
      ∧ still t = still (if (lanesOf (activeMask s u)).any (evtGoes s u (fun l => (srcWord s u a m l).toNat) (fun l => srcWord s u b n l))
          then l1Invalidate s (wgAt s u.wg).core else s)
      ∧ ∀ l, l < 32 → inMask u.e.mask l = true → met t u l (activeFate
          (if 4096 ≤ (srcWord s u a m l).toNat then .parked u.e.place 0x1D 1
           else if evtGoes s u (fun l => (srcWord s u a m l).toNat) (fun l => srcWord s u b n l) l then .checked
           else .waits (.event (srcWord s u a m l).toNat (srcWord s u b n l))) s u l) := by
  have hstaged : ∀ l, (stage s u { a := some ⟨a, m, 1⟩, b := some ⟨b, n, 1⟩ } l).a = readReg s u ⟨a, m, 1⟩ l
      ∧ (stage s u { a := some ⟨a, m, 1⟩, b := some ⟨b, n, 1⟩ } l).b = readReg s u ⟨b, n, 1⟩ l := fun l => by
    rw [stage_fresh hr]
    exact ⟨rfl, rfl⟩
  obtain ⟨t, hexec, hstill, hmet⟩ := evtWaits (a := a) (m := m) (b := b) (n := n) h rfl
    (num := fun l => (srcWord s u a m l).toNat) (thr := fun l => srcWord s u b n l)
    (funext fun l => by rw [(hstaged l).1, w32_readReg]) (funext fun l => by rw [(hstaged l).2, w32_readReg])
  refine ⟨t, hexec, hstill.trans (congrArg still ?_), fun l hl hm => ?_⟩
  · by_cases hgo : evtGo s u (fun l => (srcWord s u a m l).toNat) (fun l => srcWord s u b n l) = 0
    · rw [if_pos hgo, if_neg (fun hc => (any_evtGoes_iff ..).1 hc hgo)]
    · rw [if_neg hgo, if_pos ((any_evtGoes_iff ..).2 hgo)]
  · have hfate := hmet l hl hm
    by_cases hlarge : 4096 ≤ (srcWord s u a m l).toNat
    · rw [if_pos hlarge] at hfate ⊢
      exact hfate
    · rw [if_neg hlarge] at hfate ⊢
      rw [evtGoes, decide_eq_true (Nat.lt_of_not_le hlarge), Bool.true_and]
      exact hfate

end Sys2Proof.Machine
end

section
/-! PROOF. Passing a ticket: the word grows by one, and the threads whose threshold it has reached go on (R81, R101, R102). -/

namespace Sys2Proof.Machine

/-! Addresses are checked without a look at a core's L1 lines. -/

/-- The machine with other cores. -/
def withCores (s : State) (cs : Map CoreSt) : State := { s with cores := cs }

section WithCores

variable (s : State) (cs : Map CoreSt)

theorem tlbPut_withCores (u : Nat × Nat) (e : TlbEntry) : tlbPut (withCores s cs) u e = withCores (tlbPut s u e) cs := by
  unfold tlbPut withCores
  dsimp only
  split
  · rfl
  · split <;> rfl

theorem tlbFill_withCores (core : Nat) (e : TlbEntry) : tlbFill (withCores s cs) core e = withCores (tlbFill s core e) cs :=
  List.foldl_hom (withCores · cs) (fun t u => tlbPut_withCores t cs u e)

theorem walk_withCores (ctx : Nat) : walk (withCores s cs) ctx = walk s ctx := rfl

theorem coalesced_withCores (ctx va : Nat) (leaf : BitVec 64) : coalesced (withCores s cs) ctx va leaf = coalesced s ctx va leaf := by
  unfold coalesced
  rw [walk_withCores]

theorem translate_withCores (core ctx va : Nat) :
    translate (withCores s cs) core ctx va = (withCores (translate s core ctx va).1 cs, (translate s core ctx va).2) := by
  have hfind : tlbFind (withCores s cs) core ctx va = tlbFind s core ctx va := rfl
  unfold translate
  rw [walk_withCores, hfind]
  simp only [tlbFill_withCores, coalesced_withCores]
  cases tlbFind s core ctx va with
  | some t =>
    cases walk s ctx va with
    | error e => rfl
    | ok c =>
      dsimp only
      split <;> rfl
  | none =>
    dsimp only
    cases walk s ctx va with
    | error e => rfl
    | ok c => dsimp only

/-- A core's view of the buffer map is all that an access takes from the cores. -/
theorem access_withCores {core : Nat} (hview : (coreAt (withCores s cs) core).view = (coreAt s core).view) (ctx : Nat) (phys : Bool) (va : BitVec 64)
    (k : Access) : (access (withCores s cs) core ctx phys va k).2 = (access s core ctx phys va k).2 := by
  have hcores : (translate s core ctx va.toNat).1.cores = s.cores := (translate_checked s core ctx va.toNat).cores
  have hbmt : ∀ n, bmtView (withCores (translate s core ctx va.toNat).1 cs) core ctx n = bmtView (translate s core ctx va.toNat).1 core ctx n := fun n => by
    unfold bmtView
    rw [show (coreAt (withCores (translate s core ctx va.toNat).1 cs) core).view = (coreAt (translate s core ctx va.toNat).1 core).view from
      hview.trans (by rw [coreAt, coreAt, hcores])]
    rfl
  unfold access
  split
  · rfl
  · split
    · cases physLoc va.toNat <;> rfl
    · dsimp only
      rw [translate_withCores]
      generalize translate s core ctx va.toNat = y at hbmt
      rcases y with ⟨t, e | ⟨level, leaf⟩⟩
      · rfl
      · dsimp only at hbmt ⊢
        rw [hbmt]
        repeat' split
        all_goals rfl

theorem ticketLoc_withCores {w : Nat} (hview : (coreAt (withCores s cs) (wgAt s w).core).view = (coreAt s (wgAt s w).core).view) :
    ticketLoc (withCores s cs) w = ticketLoc s w := by
  unfold ticketLoc
  dsimp only
  rw [show wgAt (withCores s cs) w = wgAt s w from rfl, access_withCores s cs hview]
  rfl

end WithCores

/-- The machine with one line of a core's L1 dropped. -/
def lineDropped (s : State) (core line : Nat) : State :=
  withCores s (s.cores.map (fun c => if c.1 = core then (c.1, { c.2 with l1d := Map.del c.2.l1d line }) else c))

theorem view_lineDropped (s : State) (core line c : Nat) : (coreAt (lineDropped s core line) c).view = (coreAt s c).view := by
  have h : ∀ m : Map CoreSt, (Map.getD (m.map (fun c => if c.1 = core then (c.1, { c.2 with l1d := Map.del c.2.l1d line }) else c)) c CoreSt.reset).view
      = (Map.getD m c CoreSt.reset).view := fun m => by
    induction m with
    | nil => rfl
    | cons p m ih =>
      obtain ⟨k, x⟩ := p
      by_cases hk : k = c
      · subst hk
        by_cases hc : k = core <;> simp [Map.getD, Map.find, hc]
      · have hkey : (if k = core then (k, { x with l1d := Map.del x.l1d line }) else (k, x)).1 = k := by split <;> rfl
        simpa [Map.getD, Map.find, hkey, hk] using ih
  exact h s.cores

/-! The word of a passed ticket (R102). -/

/-- A workgroup that has passed its ticket. -/
def Wg.withPass (g : Wg) : Wg := { g with passed := true, committed := true }

/-- The machine when a pass has been found to be allowed: the line is dropped from the core's L1, and the pass of the launch's own ticket is noted. -/
def passNoted (s : State) (w a : Nat) : State :=
  if ticketLoc s w = some a then modWg (lineDropped s (wgAt s w).core (lineOf a)) w Wg.withPass
  else lineDropped s (wgAt s w).core (lineOf a)

theorem passTicket_of_allowed {s : State} {w a : Nat}
    (h : ticketLoc s w ≠ some a ∨ ((wgAt s w).passed = false ∧ memWord s a = BitVec.ofNat 32 (wgAt s w).id)) :
    passTicket s w a = (incrementWord (passNoted s w a) a, .ok ()) := by
  have hloc : ticketLoc (lineDropped s (wgAt s w).core (lineOf a)) w = ticketLoc s w := ticketLoc_withCores s _ (view_lineDropped s _ _ _)
  have hpass : passTicket s w a = (
      let d := lineDropped s (wgAt s w).core (lineOf a)
      if ticketLoc d w = some a then
        if (wgAt d w).passed then (d, .error (0x1B, 2))
        else if memWord d a ≠ BitVec.ofNat 32 (wgAt d w).id then (d, .error (0x1B, 1))
        else (incrementWord (modWg d w Wg.withPass) a, .ok ())
      else (incrementWord d a, .ok ())) := rfl
  rw [hpass, passNoted]
  dsimp only
  rw [hloc]
  by_cases hown : ticketLoc s w = some a
  · obtain hnot | ⟨hpassed, hword⟩ := h
    · exact absurd hown hnot
    · have hp : (wgAt (lineDropped s (wgAt s w).core (lineOf a)) w).passed = false := hpassed
      have hw : memWord (lineDropped s (wgAt s w).core (lineOf a)) a = BitVec.ofNat 32 (wgAt (lineDropped s (wgAt s w).core (lineOf a)) w).id := hword
      rw [if_pos hown, if_pos hown, hp, if_neg Bool.false_ne_true, if_neg (not_not_intro hw)]
  · rw [if_neg hown, if_neg hown]

/-- What performing a write at the home slice of a line under its key changes, before the tests that it makes. -/
def wordRaised (s : State) (a : Nat) : State :=
  { s with
    mem := Memory.writeAll s.mem a (leBytes 4 (memWord s a + 1).toNat)
    keyBack := Map.del s.keyBack (lineOf a)
    poison := poisonLeft s.poison a 4 }

theorem incrementWord_eq {s : State} {a key : Nat} (h : recordedKey s (lineOf a) = some key) : incrementWord s a = testTickets (wordRaised s a) := by
  rw [incrementWord, performWrite, homeWrite, h, Option.getD_some, keyLine_of_recordedKey _ _ _ h]
  rfl

theorem memWord_wordRaised (s : State) (a : Nat) : memWord (wordRaised s a) a = memWord s a + 1 := by
  have hread := Memory.readAll_writeAll s.mem a (leBytes 4 (memWord s a + 1).toNat)
  rw [leBytes_length] at hread
  rw [memWord, wordRaised]
  dsimp only
  rw [hread, ofNat_leNat_leBytes]

theorem read_wordRaised (s : State) {a x : Nat} (h : ¬(a ≤ x ∧ x < a + 4)) : Memory.read (wordRaised s a).mem x = Memory.read s.mem x := by
  rw [wordRaised, Memory.read_writeAll, leBytes_length, if_neg h]

/-! The waits that a raised word ends (R81, R101). -/

section Coreless

variable {s t : State} (e : stillApartCores s = stillApartCores t)

include e

/-- Machines that agree apart from where threads stand and from their cores agree, without their cores, apart from where threads stand. -/
theorem still_coreless : still (withCores s []) = still (withCores t []) := e

theorem isSquad_of_stillApartCores {w q : Nat} (h : isSquad s w q) : isSquad t w q :=
  isSquad_of_still (s := withCores s []) (t := withCores t []) e h

theorem wgView_of_stillApartCores {α : Type} (view : Wg → α) (hv : ∀ g : Wg, view g.still = view g) (w : Nat) : view (wgAt s w) = view (wgAt t w) :=
  wgView_of_still (s := withCores s []) (t := withCores t []) view hv e w

theorem squad_of_stillApartCores (w q : Nat) : (sqAt s w q).still = (sqAt t w q).still :=
  squad_of_still (s := withCores s []) (t := withCores t []) e w q

end Coreless

theorem releases_of_sqAt {w q : Nat} {s t : State} (hthere : isSquad s w q → isSquad t w q) (hsq : sqAt t w q = sqAt s w q) (hr : recordsOf t = recordsOf s) :
    Releases w q s t :=
  ⟨hthere, fun lb l p h => by rwa [hsq], fun x hx => by rwa [hsq] at hx, by rw [hsq], fun r h => by rwa [hr]⟩

theorem releases_l1Invalidate (s : State) (w q core : Nat) : Releases w q s (l1Invalidate s core) := releases_of_sqAt id rfl rfl

/-- The end of waits of any squad, seen from one. -/
theorem releases_endAcquiring {s : State} {w q : Nat} (h : isSquad s w q) (v r : Nat) (ends : Waiter → Bool) :
    Releases w q s (endAcquiring s v r ends) := by
  have hends : ∀ t, isSquad t w q → Releases w q t (endWaits t v r ends) := fun t ht => by
    by_cases hsame : v = w ∧ r = q
    · obtain ⟨rfl, rfl⟩ := hsame
      exact releases_endWaits ends ht
    · exact releases_of_sqAt (isSquad_of_still (still_endWaits ..).symm) (sqAt_endWaits_ne t v r w q ends (by omega)) (recordsOf_endWaits ..)
  unfold endAcquiring
  split
  · exact (releases_l1Invalidate s w q _).trans (hends _ h)
  · exact hends s h

theorem cores_endWaits (s : State) (w q : Nat) (ends : Waiter → Bool) : (endWaits s w q ends).cores = s.cores := by
  have h := congrArg State.cores (still_endWaits s w q ends)
  exact h

theorem l1d_endAcquiring {s : State} {core : Nat} (h : (coreAt s core).l1d = []) (v r : Nat) (ends : Waiter → Bool) :
    (coreAt (endAcquiring s v r ends) core).l1d = [] := by
  unfold endAcquiring
  rw [coreAt, cores_endWaits]
  split
  · show (coreAt (modCore s _ _) core).l1d = []
    by_cases hc : core = (wgAt s v).core
    · rw [hc, coreAt_modCore_self]
    · rw [coreAt_modCore_ne _ _ _ _ hc]
      exact h
  · exact h

/-- Before its squad is tested: a thread waits, over some memory, and its workgroup stands on a core. -/
def ticketWaiting (w q : Nat) (x : Waiter) (m : Memory) (core : Nat) (s : State) : Prop :=
  x ∈ (sqAt s w q).waiters ∧ s.mem = m ∧ (wgAt s w).core = core

/-- When its squad was tested: the thread goes on, and its core's L1 lines are gone. -/
def ticketEnded (w q : Nat) (x : Waiter) (core : Nat) (s : State) : Prop :=
  isSquad s w q ∧ released s w q x ∧ (coreAt s core).l1d = []

section TicketTest

variable {w q : Nat} {x : Waiter} {m : Memory} {core : Nat}

theorem ticketEnded_endAcquiring {s : State} (h : ticketEnded w q x core s) (v r : Nat) (ends : Waiter → Bool) :
    ticketEnded w q x core (endAcquiring s v r ends) := by
  obtain ⟨hsq, hreleased, hcore⟩ := h
  have hrel := releases_endAcquiring hsq v r ends
  exact ⟨hrel.there hsq, released_of_releases hrel hreleased, l1d_endAcquiring hcore v r ends⟩

theorem ticketWaiting_endAcquiring {s : State} (h : ticketWaiting w q x m core s) {v r : Nat} (hne : v ≠ w ∨ r ≠ q) (ends : Waiter → Bool) :
    ticketWaiting w q x m core (endAcquiring s v r ends) := by
  obtain ⟨hx, hm, hcore⟩ := h
  have hstill := stillApartCores_endAcquiring s v r ends
  refine ⟨?_, (mem_of_stillApartCores hstill).trans hm, (wgAt_endAcquiring_keeps Wg.core (fun _ _ => rfl) s v r ends w).trans hcore⟩
  unfold endAcquiring
  rw [sqAt_endWaits_ne _ v r w q ends (by omega)]
  split <;> exact hx

theorem ticketEnded_of_waiting {s : State} (h : ticketWaiting w q x m core s) {ends : Waiter → Bool} (hends : ends x = true) :
    ticketEnded w q x core (endAcquiring s w q ends) := by
  obtain ⟨hx, -, rfl⟩ := h
  have hsq := isSquad_of_waiter hx
  have hany : anyWaits s w q ends = true := List.any_eq_true.2 ⟨x, List.mem_append_left _ hx, hends⟩
  refine ⟨isSquad_of_stillApartCores (stillApartCores_endAcquiring s w q ends).symm hsq, ?_, ?_⟩
  · unfold endAcquiring
    rw [if_pos hany]
    exact released_endWaits _ w q ends x hx hends
  · unfold endAcquiring
    rw [if_pos hany, coreAt, cores_endWaits]
    show (coreAt (modCore s _ _) _).l1d = []
    rw [coreAt_modCore_self]

/-- The test of ticket waits ends those whose threshold the word has reached. -/
theorem ticketEnded_testTickets {s : State} (hx : x ∈ (sqAt s w q).waiters) {a : Nat} {thr : Word} (hwhy : x.why = .ticket a thr)
    (hreached : reached (memWord s a) thr = true) : ticketEnded w q x (wgAt s w).core (testTickets s) := by
  have hends : ∀ t, ticketWaiting w q x s.mem (wgAt s w).core t → (match x.why with
      | .ticket a thr => reached (memWord t a) thr
      | _ => false) = true := fun t ht => by
    rw [hwhy]
    dsimp only
    rw [memWord, ht.2.1]
    exact hreached
  unfold testTickets
  refine foldl_establishes (before := ticketWaiting w q x s.mem (wgAt s w).core) (fun t v hv ht => ?_) (fun t ht => ?_) (fun t v ht => ?_) _
    (List.mem_range.2 (isSquad_of_waiter hx).1) s ⟨hx, rfl, rfl⟩
  · exact List.foldlRecOn _ _ ht (fun r hr j _ => ticketWaiting_endAcquiring hr (.inl hv) _)
  · exact foldl_establishes (before := ticketWaiting w q x s.mem (wgAt s w).core) (fun r j hj hr => ticketWaiting_endAcquiring hr (.inr hj) _)
      (fun r hr => ticketEnded_of_waiting hr (hends r hr)) (fun r j hr => ticketEnded_endAcquiring hr _ _ _) _
      (List.mem_range.2 (isSquad_of_waiter ht.1).2) t ht
  · exact List.foldlRecOn _ _ ht (fun r hr j _ => ticketEnded_endAcquiring hr _ _ _)

end TicketTest

/-! The threads of the bundle that passed a ticket go on after the last check (R330). -/

theorem ticketAccess_keyed {s r : State} {w loc : Nat} {va : DWord} {k : Access} (h : ticketAccess s w va k = (r, .ok loc)) :
    ∃ key, recordedKey r (lineOf loc) = some key := by
  unfold ticketAccess at h
  split at h
  · simp at h
  · split at h
    · simp at h
    · split at h
      · split at h
        · simp at h
        · obtain ⟨rfl, hloc⟩ := Prod.mk.inj h
          obtain rfl := Except.ok.inj hloc
          exact ⟨_, recordedKey_keyLine ..⟩
      · simp at h

theorem execTktPass_eq {a : BitVec 6} {s : State} {u : Bundle} {l : Nat} (h : Issuing s u) (ha : a.toNat % 2 = 0) (hone : theLane s u l) {r : State}
    {loc : Nat} (hr : ticketAccess s.handed u.wg (w64 (stage s u { a := some (own a 2) } l).a) .atomic = (r, .ok loc))
    (hallowed : ticketLoc r u.wg ≠ some loc ∨ ((wgAt r u.wg).passed = false ∧ memWord r loc = BitVec.ofNat 32 (wgAt r u.wg).id)) :
    exec (.tktPass a) s = .next (awaitCheck (advance (incrementWord (passNoted r u.wg loc) loc) u (u.e.mask &&& ~~~(activeMask s u))) u ((1#32) <<< l)) := by
  have hal : misaligned a 2 = false := by simp [misaligned, ha]
  have hst : stage s.handed u { a := some (own a 2) } = stage s u { a := some (own a 2) } := rfl
  rw [exec, execTktPass, withBundle_handed h]
  dsimp only
  rw [hal, if_neg Bool.false_ne_true, activeMask_handed, hone.2,
    eachLane_one_ok (r := incrementWord (passNoted r u.wg loc) loc) (x := ()) hone.1]
  · dsimp only
    rw [parkFailed_none, maskIn_one hone.1]
  · rw [hst, hr]
    dsimp only
    rw [passTicket_of_allowed hallowed]

/-- A thread that stands keeps standing where only the bundle's threads move. -/
theorem standsAt_of_movesOnly {u : Bundle} {s t : State} (h : MovesOnly u s t) {w q lb l : Nat} {p : Place} (hl : l < 32)
    (k : standsAt (sqAt s w q) lb l p) : standsAt (sqAt t w q) lb l p := by
  obtain ⟨hothers, hlanes, -⟩ := h.others
  by_cases hsame : w = u.wg ∧ q = u.sq
  · obtain ⟨rfl, rfl⟩ := hsame
    by_cases hown : lb = u.e.lb ∧ inMask u.e.mask l = true
    · obtain ⟨rfl, -⟩ := hown
      exact h.fates l (.on p) k
    · exact ((hlanes lb l hl hown).1 p).2 k
  · obtain ⟨hf, ho, -, -⟩ := hothers w q hsame
    unfold standsAt
    rw [hf, ho]
    exact k

theorem waiters_holdPlaces (s : State) (u : Bundle) (m : BitVec 32) : (squadOf (holdPlaces s u m).2 u).waiters = (squadOf s u).waiters := by
  unfold holdPlaces squadOf
  dsimp only
  split
  · rfl
  · exact sqAt_modSq_keeps Squad.waiters (newId s).2 _ _ _ (fun _ => rfl)

theorem waiters_wait {s : State} {u : Bundle} {m : BitVec 32} {why : Wait} {p : Place} {x : Waiter} (hx : x ∈ (squadOf (wait s u m why p) u).waiters) :
    x ∈ (squadOf s u).waiters ∨ x.why = why := by
  unfold wait squadOf at hx
  split at hx
  · exact .inl hx
  · by_cases h : isSquad s u.wg u.sq
    · rw [sqAt_modSq_self s _ _ _ h.1 h.2] at hx
      obtain hx | hx := List.mem_append.1 hx
      · exact .inl hx
      · exact .inr (by rw [List.mem_singleton.1 hx])
    · rw [modSq_of_absent h] at hx
      exact .inl hx

/-- A thread that was released, of whichever squad, stays so when the bundle's own threads go on or wait for the last check. -/
theorem released_passed {s : State} {u : Bundle} {m n : BitVec 32} (hm : ∀ l, inMask m l = true → inMask u.e.mask l = true)
    (hn : ∀ l, inMask n l = true → inMask u.e.mask l = true) {w q : Nat} {x : Waiter} (hwhy : ∀ k, x.why ≠ .check k) (h : released s w q x) :
    released (awaitCheck (advance s u m) u n) w q x := by
  have hmoves := (movesOnly_advance s u hm).trans (movesOnly_awaitCheck _ u hn)
  refine ⟨fun hx => h.1 ?_, fun l hl hmask => standsAt_of_movesOnly hmoves hl (h.2 l hl hmask)⟩
  by_cases hsame : w = u.wg ∧ q = u.sq
  · obtain ⟨rfl, rfl⟩ := hsame
    obtain hx | hx := waiters_wait hx
    · have hx' : x ∈ (squadOf (holdPlaces (advance s u m) u n).2 u).waiters := hx
      rwa [waiters_holdPlaces, waiters_advance] at hx'
    · exact absurd hx (hwhy _)
  · rwa [(hmoves.others.1 w q hsame).2.2.1] at hx

theorem stillApartCores_incrementWord {s : State} {a key : Nat} (h : recordedKey s (lineOf a) = some key) :
    stillApartCores (incrementWord s a) = stillApartCores (wordRaised s a) := by
  rw [incrementWord_eq h, stillApartCores_testTickets]

theorem passNoted_cases (s : State) (w a : Nat) : ∃ cs, passNoted s w a = modWg (withCores s cs) w Wg.withPass
    ∨ passNoted s w a = withCores s cs := by
  unfold passNoted
  split
  · exact ⟨_, .inl rfl⟩
  · exact ⟨_, .inr rfl⟩

theorem recordedKey_passNoted (s : State) (w a line : Nat) : recordedKey (passNoted s w a) line = recordedKey s line := by
  obtain ⟨cs, h | h⟩ := passNoted_cases s w a <;> rw [h] <;> rfl

theorem mem_passNoted (s : State) (w a : Nat) : (passNoted s w a).mem = s.mem ∧ (passNoted s w a).queues = s.queues ∧ (passNoted s w a).flights = s.flights := by
  obtain ⟨cs, h | h⟩ := passNoted_cases s w a <;> rw [h] <;> exact ⟨rfl, rfl, rfl⟩

theorem sqAt_passNoted (s : State) (w a v q : Nat) : sqAt (passNoted s w a) v q = sqAt s v q := by
  obtain ⟨cs, h | h⟩ := passNoted_cases s w a <;> rw [h]
  · exact sqAt_modWg_keeps (withCores s cs) w Wg.withPass (fun _ => rfl) v q
  · rfl

theorem wgAt_passNoted_keeps {α : Type} (view : Wg → α) (hv : ∀ g : Wg, view g.withPass = view g) (s : State)
    (w a v : Nat) : view (wgAt (passNoted s w a) v) = view (wgAt s v) := by
  obtain ⟨cs, h | h⟩ := passNoted_cases s w a <;> rw [h]
  · rw [wgAt_modWg_keeps view _ _ _ hv]
    rfl
  · rfl

theorem noted_of_own {s : State} {w a : Nat} (hw : w < s.wgs.length) (hown : ticketLoc s w = some a) :
    (wgAt (passNoted s w a) w).passed = true ∧ (wgAt (passNoted s w a) w).committed = true := by
  rw [passNoted, if_pos hown, wgAt_modWg_self (lineDropped s (wgAt s w).core (lineOf a)) w _ hw]
  exact ⟨rfl, rfl⟩

theorem queues_of_stillApartCores {s t : State} (e : stillApartCores s = stillApartCores t) : s.queues = t.queues ∧ s.flights = t.flights := by
  have hq := congrArg State.queues e
  have hf := congrArg State.flights e
  exact ⟨hq, hf⟩

theorem stillApartCores_of_still {s t : State} (e : still s = still t) : stillApartCores s = stillApartCores t := by
  unfold stillApartCores
  rw [e]

theorem cores_of_still {s t : State} (e : still s = still t) : s.cores = t.cores := by
  have h := congrArg State.cores e
  exact h

theorem tktPasses {a : BitVec 6} {s : State} {u : Bundle} {l : Nat} (h : Issuing s u) (ha : a.toNat % 2 = 0) (hone : theLane s u l) {r : State}
    {loc : Nat} (hr : ticketAccess s.handed u.wg (w64 (stage s u { a := some (own a 2) } l).a) .atomic = (r, .ok loc))
    (hallowed : ticketLoc r u.wg ≠ some loc ∨ ((wgAt s u.wg).passed = false ∧ memWord r loc = BitVec.ofNat 32 (wgAt s u.wg).id)) :
    ∃ t, exec (.tktPass a) s = .next t
       ∧ memWord t loc = memWord r loc + 1 ∧ (∀ x, ¬(loc ≤ x ∧ x < loc + 4) → Memory.read t.mem x = Memory.read r.mem x)
       ∧ (∀ k, k < 32 → inMask u.e.mask k = true → met t u k (activeFate .checked s u k))
       ∧ (ticketLoc r u.wg = some loc → (wgAt t u.wg).passed = true ∧ (wgAt t u.wg).committed = true)
       ∧ (∀ w q, (sqAt t w q).still = (sqAt r w q).still) ∧ t.queues = r.queues ∧ t.flights = r.flights
       ∧ ∀ w q x thr, x ∈ (sqAt s w q).waiters → x.why = .ticket loc thr → reached (memWord r loc + 1) thr = true →
           released t w q x ∧ (coreAt t (wgAt s w).core).l1d = [] := by
  have hchecked : OnlyChecked s.handed r := by
    have h := ticketAccess_checked s.handed u.wg (w64 (stage s u { a := some (own a 2) } l).a) .atomic
    rwa [hr] at h
  have hwg : ∀ w, wgAt r w = wgAt s w := fun w => by rw [wgAt, hchecked.wgs]; rfl
  obtain ⟨key, hkey⟩ := ticketAccess_keyed hr
  have hkey' : recordedKey (passNoted r u.wg loc) (lineOf loc) = some key := (recordedKey_passNoted ..).trans hkey
  have hexec := execTktPass_eq h ha hone hr (by rwa [hwg])
  have hraised := stillApartCores_incrementWord hkey'
  have hmask : ∀ k, inMask ((1#32) <<< l) k = true → inMask u.e.mask k = true := fun k hk => by
    rw [inMask_one hone.1, decide_eq_true_eq] at hk
    exact hk ▸ inMask_of_active (active_of_theLane hone)
  have hgo := movesOnly_advance (incrementWord (passNoted r u.wg loc) loc) u (m := u.e.mask &&& ~~~(activeMask s u)) (fun _ => inMask_of_rest)
  have hawait := movesOnly_awaitCheck (advance (incrementWord (passNoted r u.wg loc) loc) u (u.e.mask &&& ~~~(activeMask s u))) u hmask
  have hstill := (hgo.trans hawait).still
  have hapart := (stillApartCores_of_still hstill).trans hraised
  obtain ⟨hmem, hqueues, hflights⟩ := mem_passNoted r u.wg loc
  have hword : memWord (passNoted r u.wg loc) loc = memWord r loc := by rw [memWord, hmem, memWord]
  have hfinal := mem_of_stillApartCores hapart
  have hpresent : u.present (incrementWord (passNoted r u.wg loc) loc) := by
    refine isSquad_of_stillApartCores hraised.symm ?_
    have hsq : isSquad r u.wg u.sq := (unmoved_checked u hchecked).present h.handed
    obtain ⟨cs, hn | hn⟩ := passNoted_cases r u.wg loc <;> rw [hn]
    · exact isSquad_modWg (f := Wg.withPass) (fun _ => rfl) hsq
    · exact hsq
  refine ⟨_, hexec, ?_, fun x hx => ?_, activeFate_of_theLane hone ?_ (fun k hk hm hnot => ?_), fun hown => ?_, fun w q => ?_, ?_, ?_, fun w q x thr hx hwhy hthr => ?_⟩
  · rw [memWord, hfinal]
    exact (memWord_wordRaised (passNoted r u.wg loc) loc).trans (by rw [hword])
  · rw [hfinal, read_wordRaised _ hx, hmem]
  · exact awaitCheck_met _ u (hgo.present hpresent) (by rw [inMask_one hone.1, decide_eq_true rfl])
  · exact hawait.fates _ _ (advance_met _ u _ k hpresent.1 hpresent.2 (by simp [hm, hk, hnot]))
  · obtain ⟨hp, hc⟩ := noted_of_own (s := r) (by rw [hchecked.wgs]; exact h.2.1) hown
    rw [wgView_of_stillApartCores hapart Wg.passed (fun _ => rfl), wgView_of_stillApartCores hapart Wg.committed (fun _ => rfl)]
    exact ⟨hp, hc⟩
  · rw [squad_of_stillApartCores hapart, show sqAt (wordRaised (passNoted r u.wg loc) loc) w q = sqAt (passNoted r u.wg loc) w q from rfl, sqAt_passNoted]
  · exact (queues_of_stillApartCores hapart).1.trans hqueues
  · exact (queues_of_stillApartCores hapart).2.trans hflights
  · have hxr : x ∈ (sqAt (wordRaised (passNoted r u.wg loc) loc) w q).waiters := by
      show x ∈ (sqAt (passNoted r u.wg loc) w q).waiters
      rw [sqAt_passNoted, sqAt, hwg]
      exact hx
    obtain ⟨-, hreleased, hcore⟩ := ticketEnded_testTickets hxr hwhy (by rwa [memWord_wordRaised, hword])
    have hwcore : (wgAt (wordRaised (passNoted r u.wg loc) loc) w).core = (wgAt s w).core :=
      (wgAt_passNoted_keeps Wg.core (fun _ => rfl) r u.wg loc w).trans (by rw [hwg])
    rw [hwcore] at hcore
    rw [← incrementWord_eq hkey'] at hreleased hcore
    refine ⟨released_passed (fun _ => inMask_of_rest) hmask (by simp [hwhy]) hreleased, ?_⟩
    rw [coreAt, cores_of_still hstill]
    exact hcore

end Sys2Proof.Machine
end

section
/-! PROOF. Launches from the device: a record goes into the next slot of its queue, or its thread waits for one (R105). -/

namespace Sys2Proof.Machine

theorem readRecord_onlyChecked (s : State) (w : Nat) (va : DWord) (mx : Bool) : OnlyChecked s (readRecord s w va mx).1 := by
  have h := laneAccess_checked s w va 64 64 .load detRemote true mx
  unfold readRecord
  generalize laneAccess s w va 64 64 .load detRemote true mx = y at h
  rcases y with ⟨t, e | p⟩
  · exact h
  · dsimp only
    split
    · exact h.trans (keyLine_checked ..)
    · exact h.trans rfl

/-- A thread's launch is taken: its workgroup is committed, the record stands in the queue's next slot, and the destination holds the signal event. -/
def launchTaken (r : State) (u : Bundle) (l : Nat) (d : BitVec 6) (ws : List Word) : State :=
  modSq (enqueue (commitWg r u.wg) (recBits ws 3 21 16) ws) u.wg u.sq (fun sq => vset sq u.e.lb d.toNat ((1#32) <<< l) (fun _ => signalOf ws))

section Launch

variable {d a : BitVec 6} {s : State} {u : Bundle} {l : Nat} (h : Issuing s u) (ha : a.toNat % 2 = 0) (hone : theLane s u l) {r : State} {ws : List Word}
  {mix : Bool} (hr : readRecord s.handed u.wg (w64 (stage s u { a := some (own a 2) } l).a) false = (r, .ok (ws, mix)))
  (hgranted : queueGranted (queueOf r (recBits ws 3 21 16)) (sysCtx r u.wg) = true)

include h ha hone hr hgranted

theorem execLaunch_of_room (hroom : queueFull r (recBits ws 3 21 16) = false) :
    exec (.launch d a) s = .next (settleLanes u Prod.fst (fun p : Nat × Nat × List Word => .slot p.2.1 d p.2.2) 0 ((1#32) <<< l) []
      (advance (launchTaken r u l d ws) u (u.e.mask &&& ~~~(activeMask s u)))) := by
  have hal : misaligned a 2 = false := by simp [misaligned, ha]
  have hst : stage s.handed u { a := some (own a 2) } = stage s u { a := some (own a 2) } := rfl
  have hfull : queueFull (commitWg r u.wg) (recBits ws 3 21 16) = false := hroom
  rw [exec, execLaunch, withBundle_handed h]
  dsimp only
  rw [hal, if_neg Bool.false_ne_true, activeMask_handed, hone.2, eachLane_one_ok (r := launchTaken r u l d ws) (x := none) hone.1]
  · dsimp only
    rw [parkFailed_none, List.filterMap_cons, List.filterMap_nil, List.filter_cons, List.filter_nil]
    simp only [Option.map_none, Option.isNone_none, if_true]
    rw [maskIn_one hone.1, maskIn_nil]
    rfl
  · rw [hst, hr]
    dsimp only
    rw [hgranted, Bool.not_true, if_neg Bool.false_ne_true, hfull, if_neg Bool.false_ne_true]
    rfl

theorem execLaunch_of_full (hfull : queueFull r (recBits ws 3 21 16) = true) :
    exec (.launch d a) s = .next (settleLanes u Prod.fst (fun p : Nat × Nat × List Word => .slot p.2.1 d p.2.2) ((1#32) <<< l) 0
      [(l, recBits ws 3 21 16, ws)] (advance (commitWg r u.wg) u (u.e.mask &&& ~~~(activeMask s u)))) := by
  have hal : misaligned a 2 = false := by simp [misaligned, ha]
  have hst : stage s.handed u { a := some (own a 2) } = stage s u { a := some (own a 2) } := rfl
  have hfull' : queueFull (commitWg r u.wg) (recBits ws 3 21 16) = true := hfull
  rw [exec, execLaunch, withBundle_handed h]
  dsimp only
  rw [hal, if_neg Bool.false_ne_true, activeMask_handed, hone.2, eachLane_one_ok (r := commitWg r u.wg) (x := some (recBits ws 3 21 16, ws)) hone.1]
  · dsimp only
    rw [parkFailed_none, List.filterMap_cons, List.filterMap_nil, List.filter_cons, List.filter_nil]
    simp only [Option.map_some, Option.isNone_some, Bool.false_eq_true, if_false]
    rw [maskIn_one hone.1, maskIn_nil]
    rfl
  · rw [hst, hr]
    dsimp only
    rw [hgranted, Bool.not_true, if_neg Bool.false_ne_true, hfull', if_pos rfl]

end Launch

theorem queueOf_put_self (s : State) (n : Nat) (q : Queue) : queueOf { s with queues := Map.put s.queues n q } n = q := Map.getD_put_self ..

theorem queueOf_put_ne (s : State) {n m : Nat} (q : Queue) (h : m ≠ n) : queueOf { s with queues := Map.put s.queues n q } m = queueOf s m :=
  Map.getD_put_ne _ _ _ _ _ h

theorem queues_physWrite (s : State) (pa : Nat) (bs : List Byte) : (physWrite s pa bs).queues = s.queues := by
  unfold physWrite
  split <;> rfl

theorem wgs_physWrite (s : State) (pa : Nat) (bs : List Byte) : (physWrite s pa bs).wgs = s.wgs := by
  unfold physWrite
  split <;> rfl

theorem bytesWritten_physWrite (s : State) {pa b : Nat} (h : physLoc pa = some (.local b)) (bs : List Byte) :
    bytesWritten s.mem (physWrite s pa bs).mem b bs := by
  intro x
  rw [physWrite, h]
  exact Memory.read_writeAll bs s.mem b x

/-- What the issue of a launch leaves where the queue has room (R105). -/
structure Launched (r t : State) (n : Nat) (ws : List Word) : Prop where
  slot : queueOf t n = { queueOf r n with tail := (queueOf r n).tail + 1 }
  others : ∀ m, m ≠ n → queueOf t m = queueOf r m
  bytes : ∀ b, physLoc ((queueOf r n).base + slotBytes (queueOf r n) * ((queueOf r n).tail.toNat % queueSlots (queueOf r n))) = some (.local b) →
    bytesWritten r.mem t.mem b (ws.flatMap bytesOfWord)

theorem launched_launchTaken (r : State) (u : Bundle) (l : Nat) (d : BitVec 6) (ws : List Word) :
    Launched r (launchTaken r u l d ws) (recBits ws 3 21 16) ws := by
  refine ⟨queueOf_put_self _ _ _, fun m hm => ?_, fun b hb => ?_⟩
  · refine (queueOf_put_ne _ _ hm).trans ?_
    rw [queueOf, queues_physWrite]
    rfl
  · exact bytesWritten_physWrite (commitWg r u.wg) hb _

theorem launched_of_still {r s t : State} {n : Nat} {ws : List Word} (e : still t = still s) (h : Launched r s n ws) : Launched r t n ws := by
  have hq : t.queues = s.queues := (queues_of_stillApartCores (stillApartCores_of_still e)).1
  have hqueue : ∀ m, queueOf t m = queueOf s m := fun m => by rw [queueOf, hq, queueOf]
  exact ⟨by rw [hqueue, h.slot], fun m hm => by rw [hqueue, h.others m hm], fun b hb => by rw [mem_of_still e]; exact h.bytes b hb⟩

/-- A workgroup that is committed. -/
def Wg.withCommit (g : Wg) : Wg := { g with committed := true }

theorem commitWg_eq (s : State) (w : Nat) : commitWg s w = modWg s w Wg.withCommit := rfl

section Taken

variable {r : State} {u : Bundle} (l : Nat) (d : BitVec 6) (ws : List Word)

/-- The machine when the record stands in its slot: its workgroups are those of the committed one. -/
theorem wgAt_enqueue (s : State) (n w : Nat) : wgAt (enqueue s n ws) w = wgAt s w := by
  show (physWrite s _ _).wgs.getD w blankWg = _
  rw [wgs_physWrite]
  rfl

theorem sqAt_enqueued (n w q : Nat) : sqAt (enqueue (commitWg r u.wg) n ws) w q = sqAt r w q := by
  rw [sqAt, wgAt_enqueue]
  exact sqAt_modWg_keeps r u.wg Wg.withCommit (fun _ => rfl) w q

variable (hs : u.present r)

include hs

theorem present_enqueued (n : Nat) : u.present (enqueue (commitWg r u.wg) n ws) := by
  have hc : isSquad (commitWg r u.wg) u.wg u.sq := isSquad_modWg (f := Wg.withCommit) (fun _ => rfl) hs
  refine ⟨?_, by rw [wgAt_enqueue]; exact hc.2⟩
  show u.wg < (physWrite (commitWg r u.wg) _ _).wgs.length
  rw [wgs_physWrite]
  exact hc.1

theorem present_launchTaken : u.present (launchTaken r u l d ws) := isSquad_modSq _ (present_enqueued ws hs _)

/-- The squad of a launch that was taken: the destination holds the signal event. -/
theorem squadOf_launchTaken : squadOf (launchTaken r u l d ws) u = vset (squadOf r u) u.e.lb d.toNat ((1#32) <<< l) (fun _ => signalOf ws) := by
  have he := present_enqueued ws hs (recBits ws 3 21 16)
  rw [squadOf, launchTaken, sqAt_modSq_self _ _ _ _ he.1 he.2, sqAt_enqueued]
  rfl

theorem committed_launchTaken : (wgAt (launchTaken r u l d ws) u.wg).committed = true := by
  rw [launchTaken, wgAt_modSq_keeps Wg.committed (fun _ _ => rfl), wgAt_enqueue, commitWg_eq, wgAt_modWg_self _ _ _ hs.1]
  rfl

end Taken

theorem signalWritten {s t : State} {u : Bundle} {l : Nat} (hone : theLane s u l) {d : BitVec 6} {ws : List Word}
    (h : ∀ lb r k, vget (squadOf t u) lb r k = vget (vset (squadOf s u) u.e.lb d.toNat ((1#32) <<< l) (fun _ => signalOf ws)) lb r k) :
    wordsWritten u (activeMask s u) d 1 (fun _ => wide32 (signalOf ws)) (squadOf s u) (squadOf t u) := by
  intro lb k j hk hj
  have hd : d.toNat < 256 := by omega
  rw [h, vget_vset _ _ _ _ _ _ _ _ hd hk hj, hone.2]
  by_cases hreg : lb = u.e.lb ∧ k = d.toNat ∧ inMask ((1#32) <<< l) j = true
  · obtain ⟨rfl, rfl, hm⟩ := hreg
    rw [if_pos ⟨rfl, rfl, hm⟩, if_pos ⟨rfl, le_refl _, by omega, hm⟩]
    rw [Nat.sub_self, wide32]
    exact BitVec.eq_of_getLsbD_eq (fun i hi => by simp [hi, show i < 256 by omega])
  · rw [if_neg hreg, if_neg (fun hc => hreg ⟨hc.1, by omega, hc.2.2.2⟩)]

section Launch

variable {d a : BitVec 6} {s : State} {u : Bundle} {l : Nat} (h : Issuing s u) (ha : a.toNat % 2 = 0) (hone : theLane s u l) {r : State} {ws : List Word}
  {mix : Bool} (hr : readRecord s.handed u.wg (w64 (stage s u { a := some (own a 2) } l).a) false = (r, .ok (ws, mix)))
  (hgranted : queueGranted (queueOf r (recBits ws 3 21 16)) (contextOf s u) = true)

include h ha hone hr hgranted

theorem launches_of_room (hroom : queueFull r (recBits ws 3 21 16) = false) :
    ∃ t, exec (.launch d a) s = .next t ∧ (wgAt t u.wg).committed = true ∧ Launched r t (recBits ws 3 21 16) ws
      ∧ wordsWritten u (activeMask s u) d 1 (fun _ => wide32 (signalOf ws)) (squadOf s u) (squadOf t u)
      ∧ ∀ k, k < 32 → inMask u.e.mask k = true → met t u k (activeFate .checked s u k) := by
  have hchecked : OnlyChecked s.handed r := by
    have h := readRecord_onlyChecked s.handed u.wg (w64 (stage s u { a := some (own a 2) } l).a) false
    rwa [hr] at h
  have hwg : ∀ w, wgAt r w = wgAt s w := fun w => by rw [wgAt, hchecked.wgs]; rfl
  have hpresent : u.present r := (unmoved_checked u hchecked).present h.handed
  have htaken := present_launchTaken l d ws hpresent
  have hgo := movesOnly_advance (launchTaken r u l d ws) u (m := u.e.mask &&& ~~~(activeMask s u)) (fun _ => inMask_of_rest)
  have hone' : ∀ k, inMask ((1#32) <<< l) k = true → inMask u.e.mask k = true := fun k hk => by
    rw [inMask_one hone.1, decide_eq_true_eq] at hk
    exact hk ▸ inMask_of_active (active_of_theLane hone)
  have hsettle := movesOnly_settleLanes (xs := ([] : List (Nat × Nat × List Word))) (lane := Prod.fst) (fun p => .slot p.2.1 d p.2.2) (by simp) hone' 0
    (advance (launchTaken r u l d ws) u (u.e.mask &&& ~~~(activeMask s u)))
  have hstill := (hgo.trans hsettle).still
  refine ⟨_, execLaunch_of_room h ha hone hr (by rw [sysCtx, hwg]; exact hgranted) hroom, ?_, launched_of_still hstill (launched_launchTaken r u l d ws),
    signalWritten hone (fun lb k j => ?_), activeFate_of_theLane hone ?_ (fun k hk hm hnot => ?_)⟩
  · exact (wgView_of_still Wg.committed (fun _ => rfl) hstill u.wg).trans (committed_launchTaken l d ws hpresent)
  · have hv := sqView_of_still (fun q => vget q lb k j) (fun _ => rfl) hstill u.wg u.sq
    refine hv.trans ?_
    show vget (squadOf (launchTaken r u l d ws) u) lb k j = _
    rw [squadOf_launchTaken l d ws hpresent, squadOf, sqAt, hwg]
    rfl
  · exact settleLanes_met_checked _ (by simp) 0 (hgo.present htaken) (by rw [inMask_one hone.1, decide_eq_true rfl])
  · exact hsettle.fates _ _ (advance_met _ u _ k htaken.1 htaken.2 (by simp [hm, hk, hnot]))

theorem launches_of_full (hfull : queueFull r (recBits ws 3 21 16) = true) :
    ∃ t, exec (.launch d a) s = .next t ∧ (wgAt t u.wg).committed = true ∧ t.queues = r.queues ∧ t.mem = r.mem
      ∧ ∀ k, k < 32 → inMask u.e.mask k = true → met t u k (activeFate (.waits (.slot (recBits ws 3 21 16) d ws)) s u k) := by
  have hchecked : OnlyChecked s.handed r := by
    have h := readRecord_onlyChecked s.handed u.wg (w64 (stage s u { a := some (own a 2) } l).a) false
    rwa [hr] at h
  have hwg : ∀ w, wgAt r w = wgAt s w := fun w => by rw [wgAt, hchecked.wgs]; rfl
  have hpresent : u.present r := (unmoved_checked u hchecked).present h.handed
  have hcommitted : u.present (commitWg r u.wg) := isSquad_modWg (f := Wg.withCommit) (fun _ => rfl) hpresent
  have hgo := movesOnly_advance (commitWg r u.wg) u (m := u.e.mask &&& ~~~(activeMask s u)) (fun _ => inMask_of_rest)
  have hl := inMask_of_active (active_of_theLane hone)
  have hexec := execLaunch_of_full (d := d) h ha hone hr (by rw [sysCtx, hwg]; exact hgranted) hfull
  generalize recBits ws 3 21 16 = n at hexec ⊢
  have hlane : ∀ x ∈ [(l, n, ws)], inMask u.e.mask (Prod.fst x) = true := fun x hx => by
    rw [List.mem_singleton.1 hx]
    exact hl
  have hnone : ∀ k, inMask 0 k = true → inMask u.e.mask k = true := by simp
  have hsettle := movesOnly_settleLanes (fun p => .slot p.2.1 d p.2.2) hlane hnone ((1#32) <<< l)
    (advance (commitWg r u.wg) u (u.e.mask &&& ~~~(activeMask s u)))
  have hstill := (hgo.trans hsettle).still
  refine ⟨_, hexec, ?_, (queues_of_stillApartCores (stillApartCores_of_still hstill)).1, (mem_of_still hstill).trans rfl, activeFate_of_theLane hone ?_ (fun k hk hm hnot => ?_)⟩
  · refine (wgView_of_still Wg.committed (fun _ => rfl) hstill u.wg).trans ?_
    rw [commitWg_eq, wgAt_modWg_self _ _ _ hpresent.1]
    rfl
  · have hwaits := settleLanes_met_waits (lane := Prod.fst) (x := (l, n, ws)) (fun p => .slot p.2.1 d p.2.2) hlane hnone ((1#32) <<< l)
      (hgo.present hcommitted) (List.mem_singleton.2 rfl)
    exact hwaits
  · exact hsettle.fates _ _ (advance_met _ u _ k hcommitted.1 hcommitted.2 (by simp [hm, hk, hnot]))

end Launch

/-- Settles O20: a word of a line under its key is raised in place, and the tests that follow change only where threads stand and the L1 lines. -/
theorem ticketsLaunchesEvents : Obligations.TicketsLaunchesEvents := by
  unfold Obligations.TicketsLaunchesEvents
  refine ⟨fun a b n s u l h ha hone r loc hr => ?_, fun a s u l h ha hone r loc hr hallowed => tktPasses h ha hone hr hallowed,
    fun d a s u l h ha hone r ws mix hr hgranted => ?_, fun a m b n s u h hreplay => ?_⟩
  · obtain ⟨t, hexec, hstill, hmet⟩ := tktWaits h ha hone rfl hr
    refine ⟨t, hexec, hstill, fun x => ?_, hmet⟩
    rw [mem_of_still hstill]
    split <;> rfl
  · split
    · rename_i hroom
      obtain ⟨t, hexec, hcommitted, ⟨hslot, hothers, hbytes⟩, hsignal, hmet⟩ := launches_of_room h ha hone hr hgranted hroom
      exact ⟨t, hexec, hcommitted, hslot, hothers, hbytes, hsignal, hmet⟩
    · rename_i hfull
      obtain ⟨t, hexec, hcommitted, hqueues, hmem, hmet⟩ := launches_of_full h ha hone hr hgranted (by simpa using hfull)
      exact ⟨t, hexec, hcommitted, hqueues, fun x => by rw [hmem], hmet⟩
  · obtain ⟨t, hexec, hstill, hmet⟩ := evtWaits_fresh (a := a) (m := m) (b := b) (n := n) h hreplay
    refine ⟨t, hexec, hstill, fun x => ?_, hmet⟩
    rw [mem_of_still hstill]
    split <;> rfl

end Sys2Proof.Machine
end

section
/-! PROOF. Workgroups retire, and forfeited tickets are passed (R102, R111, R210). -/

namespace Sys2Proof.Machine

/-! What a free slot leaves behind. -/

/-- A workgroup that holds nothing any more. -/
def Wg.freed (g : Wg) : Wg :=
  { g with status := 2, quarters := [], granules := [], tags := 0, bars := [], rings := [], leaving := none, saved := Saved.none }

/-- The copy-engine contexts of a workgroup are free. -/
def cesFreed (s : State) (w : Nat) : State :=
  (List.range 4).foldl (fun t k => if (ceAt t (wgAt s w).core k).owner = some w then modCe t (wgAt s w).core k (fun _ => CeCtx.free) else t) s

theorem freeWg_eq (s : State) (w : Nat) : freeWg s w = modWg (cesFreed s w) w Wg.freed := rfl

theorem cesFreed_eq (s : State) (w : Nat) : ∃ cs, cesFreed s w = withCores s cs := by
  refine List.foldlRecOn (motive := fun t => ∃ cs, t = withCores s cs) _ _ ⟨s.cores, rfl⟩ (fun t ht k _ => ?_)
  obtain ⟨cs, rfl⟩ := ht
  split
  · exact ⟨_, rfl⟩
  · exact ⟨cs, rfl⟩

theorem wgs_cesFreed (s : State) (w : Nat) : (cesFreed s w).wgs = s.wgs := by
  obtain ⟨cs, h⟩ := cesFreed_eq s w
  rw [h]
  rfl

/-- A freed slot changes workgroups and cores alone. -/
theorem freeWg_keeps (s : State) (w : Nat) : (freeWg s w).launches = s.launches ∧ (freeWg s w).mem = s.mem ∧ (freeWg s w).ctxs = s.ctxs := by
  obtain ⟨cs, h⟩ := cesFreed_eq s w
  rw [freeWg_eq, h]
  exact ⟨rfl, rfl, rfl⟩

theorem launchAt_freeWg (s : State) (w l : Nat) : launchAt (freeWg s w) l = launchAt s l := by rw [launchAt, (freeWg_keeps s w).1, launchAt]

theorem wgAt_freeWg {s : State} {w : Nat} (h : w < s.wgs.length) : wgAt (freeWg s w) w = (wgAt s w).freed := by
  rw [freeWg_eq, wgAt_modWg_self _ _ _ (by rwa [wgs_cesFreed]), wgAt, wgs_cesFreed, wgAt]

theorem sqAt_freeWg (s : State) (w v q : Nat) : sqAt (freeWg s w) v q = sqAt s v q := by
  have hsquads := wgAt_modWg_keeps Wg.squads (cesFreed s w) w Wg.freed (fun _ => rfl) v
  rw [freeWg_eq, sqAt, hsquads, wgAt, wgs_cesFreed, sqAt, wgAt]

/-! Retirement. -/

/-- A launch with one more workgroup retired. -/
def Launch.withRetired (g : Wg) (l : Launch) : Launch :=
  { l with
    retired := l.retired ++ [g.id]
    forfeits := if recAddr l.rec_ 10 ≠ 0 ∧ !g.passed then l.forfeits ++ [g.id] else l.forfeits }

theorem lt_of_mayRetire {s : State} {w : Nat} (h : mayRetire s w = true) : w < s.wgs.length := by
  unfold mayRetire at h
  simp only [Bool.and_eq_true, decide_eq_true_eq] at h
  tauto

theorem exec_workgroupRetirement {s : State} {w n m : Nat} (harg : s.arg = .ids w n m) : exec .workgroupRetirement s
    = .next (if !mayRetire s w then s
        else if (wgAt s w).trapOf.isSome then freeWg s w
        else modLaunch (freeWg s w) (wgAt s w).launch (Launch.withRetired (wgAt s w))) := by
  show execWorkgroupRetirement s = _
  unfold execWorkgroupRetirement
  rw [harg]
  rfl

theorem wgAt_modLaunch (s : State) (l : Nat) (f : Launch → Launch) (w : Nat) : wgAt (modLaunch s l f) w = wgAt s w := rfl

theorem workgroupRetirement_retires {w n m : Nat} : happens .workgroupRetirement (.ids w n m) (fun s => mayRetire s w = true)
    (fun s t => (wgAt t w).status = 2 ∧ (wgAt t w).quarters = [] ∧ (wgAt t w).granules = [] ∧ (wgAt t w).tags = 0 ∧ (wgAt t w).bars = []
        ∧ (wgAt t w).rings = []
      ∧ ((wgAt s w).trapOf = none → (wgAt s w).launch < s.launches.length →
          let l := launchAt s (wgAt s w).launch
          launchAt t (wgAt s w).launch = { l with
            retired := l.retired ++ [(wgAt s w).id]
            forfeits := if recAddr l.rec_ 10 ≠ 0 ∧ (wgAt s w).passed = false then l.forfeits ++ [(wgAt s w).id] else l.forfeits })) := by
  intro s harg hmay
  have hw := lt_of_mayRetire hmay
  refine ⟨_, exec_workgroupRetirement harg, ?_⟩
  rw [hmay, Bool.not_true, if_neg Bool.false_ne_true]
  split
  next htrap =>
    rw [wgAt_freeWg hw]
    exact ⟨rfl, rfl, rfl, rfl, rfl, rfl, fun hnone => by rw [hnone] at htrap; exact absurd htrap Bool.false_ne_true⟩
  next =>
    rw [wgAt_modLaunch, wgAt_freeWg hw]
    refine ⟨rfl, rfl, rfl, rfl, rfl, rfl, fun _ hl => ?_⟩
    rw [launchAt_modLaunch_self _ _ _ (by rwa [(freeWg_keeps s w).1]), launchAt_freeWg, Launch.withRetired]
    simp only [Bool.not_eq_true']

theorem workgroupRetirement_idle {w n m : Nat} : idle .workgroupRetirement (.ids w n m) (fun s => mayRetire s w = false) := by
  intro s harg hmay
  rw [exec_workgroupRetirement harg, hmay]
  rfl

/-! Forfeited tickets (R102). -/

theorem launches_testTickets (s : State) : (testTickets s).launches = s.launches := by
  have h := congrArg State.launches (stillApartCores_testTickets s)
  exact h

/-- The word at a location counts up, whether or not its line is recorded under a key yet. -/
theorem incrementWord_raises (s : State) (a : Nat) : (incrementWord s a).mem = (wordRaised s a).mem ∧ (incrementWord s a).launches = s.launches := by
  cases hkey : recordedKey s (lineOf a) with
  | some key =>
    rw [incrementWord_eq hkey, testTickets_mem, launches_testTickets]
    exact ⟨rfl, rfl⟩
  | none =>
    rw [incrementWord, performWrite, testTickets_mem, launches_testTickets, homeWrite, keyLine, hkey]
    exact ⟨rfl, rfl⟩

/-- A launch with one more forfeited ticket passed. -/
def Launch.withPassed (i : Nat) (x : Launch) : Launch :=
  { x with forfeits := x.forfeits.erase i, ffcnt := x.ffcnt + 1, ffwg := if x.ffcnt = 0 then i else min x.ffwg i }

theorem exec_ticketForfeitPass {s r : State} {l n m a i : Nat} (harg : s.arg = .ids l n m) (ht : launchTicket s l = (r, some a))
    (hi : (launchAt r l).forfeits.find? (fun i => memWord r a == BitVec.ofNat 32 i) = some i) :
    exec .ticketForfeitPass s = .next (modLaunch (incrementWord r a) l (Launch.withPassed i)) := by
  show execTicketForfeitPass s = _
  unfold execTicketForfeitPass
  rw [harg]
  dsimp only
  rw [ht]
  dsimp only
  rw [hi]
  rfl

theorem launches_of_launchTicket {s r : State} {l : Nat} {a : Option Nat} (h : launchTicket s l = (r, a)) : r.launches = s.launches := by
  have hchecked := access_checked s unitView (launchAt s l).ctx false (BitVec.ofNat 64 (recAddr (launchAt s l).rec_ 10)) .atomic
  unfold launchTicket at h
  split at h
  next t x e =>
    rw [e] at hchecked
    rw [← (Prod.mk.inj h).1]
    exact hchecked.launches
  next t x e =>
    rw [e] at hchecked
    rw [← (Prod.mk.inj h).1]
    exact hchecked.launches

theorem ticketForfeitPass_passes {l n m a i : Nat} {r : State} : happens .ticketForfeitPass (.ids l n m)
    (fun s => l < s.launches.length ∧ launchTicket s l = (r, some a)
      ∧ (launchAt s l).forfeits.find? (fun i => memWord r a == BitVec.ofNat 32 i) = some i)
    (fun s t => memWord t a = memWord r a + 1
      ∧ (∀ x, ¬(a ≤ x ∧ x < a + 4) → Memory.read t.mem x = Memory.read r.mem x)
      ∧ launchAt t l = (let y := launchAt s l
          { y with forfeits := y.forfeits.erase i, ffcnt := y.ffcnt + 1, ffwg := if y.ffcnt = 0 then i else min y.ffwg i })) := by
  rintro s harg ⟨hl, ht, hi⟩
  have hlaunches := launches_of_launchTicket ht
  have hlaunch : launchAt r l = launchAt s l := by rw [launchAt, hlaunches, launchAt]
  obtain ⟨hmem, hkept⟩ := incrementWord_raises r a
  refine ⟨_, exec_ticketForfeitPass harg ht (by rwa [hlaunch]), ?_, fun x hx => ?_, ?_⟩
  · rw [← memWord_wordRaised r a]
    exact congrArg (fun m => BitVec.ofNat 32 (leNat (Memory.readAll m a 4))) hmem
  · exact (congrArg (Memory.read · x) hmem).trans (read_wordRaised r hx)
  · rw [launchAt_modLaunch_self _ _ _ (by rwa [hkept, hlaunches]), launchAt, hkept, ← launchAt, hlaunch]
    rfl

end Sys2Proof.Machine
end

section
/-! PROOF. What the end of a launch leaves alone: waits end and none begins, memory holds what it held (R84, R86, R101, R103, R111, R257). -/

namespace Sys2Proof.Machine

/-- From one state to another waits may end, none begins, and no byte of memory changes. -/
structure OnlyEnds (s t : State) : Prop where
  mem : t.mem = s.mem
  waits : ∀ w q, ∀ x ∈ (sqAt t w q).waiters, x ∈ (sqAt s w q).waiters

theorem OnlyEnds.refl (s : State) : OnlyEnds s s := ⟨rfl, fun _ _ _ => id⟩

theorem OnlyEnds.trans {s t r : State} (h : OnlyEnds s t) (k : OnlyEnds t r) : OnlyEnds s r :=
  ⟨k.mem.trans h.mem, fun w q x hx => h.waits w q x (k.waits w q x hx)⟩

theorem OnlyEnds.foldl {α : Type} {f : State → α → State} (h : ∀ s x, OnlyEnds s (f s x)) (l : List α) (s : State) : OnlyEnds s (l.foldl f s) :=
  List.foldlRecOn l f (motive := OnlyEnds s) (.refl s) (fun t ht x _ => ht.trans (h t x))

theorem nobodyEnqueues_of_waits {s t : State} (h : ∀ w q, ∀ x ∈ (sqAt t w q).waiters, x ∈ (sqAt s w q).waiters) (hs : nobodyEnqueues s) :
    nobodyEnqueues t := fun w q x hx => hs w q x (h w q x hx)

theorem onlyEnds_of_wgs {s t : State} (h : t.wgs = s.wgs) (hm : t.mem = s.mem) : OnlyEnds s t :=
  ⟨hm, fun w q x hx => by rwa [sqAt_of_wgs h] at hx⟩

theorem onlyEnds_withCores (s : State) (cs : Map CoreSt) : OnlyEnds s (withCores s cs) := onlyEnds_of_wgs rfl rfl

theorem onlyEnds_modWg (s : State) (w : Nat) (f : Wg → Wg) (h : ∀ g, (f g).squads = g.squads) : OnlyEnds s (modWg s w f) :=
  ⟨rfl, fun v q x hx => by rwa [sqAt, wgAt_modWg_keeps Wg.squads s w f h v] at hx⟩

/-- A change of a squad that is not there changes nothing. -/
theorem modSq_of_not_isSquad {s : State} {w q : Nat} (f : Squad → Squad) (h : ¬isSquad s w q) : modSq s w q f = s := by
  have hwgs : modAt s.wgs w (fun g => { g with squads := modAt g.squads q f }) = s.wgs := by
    by_cases hw : w < s.wgs.length
    · have hq : (wgAt s w).squads.length ≤ q := Nat.le_of_not_lt (fun hq => h ⟨hw, hq⟩)
      refine (modAt_congr (g := id) (d := blankWg) s.wgs w ?_).trans (modAt_same id (fun _ => rfl) s.wgs w)
      show ({ wgAt s w with squads := modAt (wgAt s w).squads q f } : Wg) = wgAt s w
      rw [modAt_of_length_le _ q f hq]
    · exact modAt_of_length_le s.wgs w _ (Nat.le_of_not_lt hw)
  rw [modSq, modWg, hwgs]

/-- A change of a squad, seen from any: as it was, or changed. -/
theorem sqAt_modSq_or (s : State) (w q : Nat) (f : Squad → Squad) (v r : Nat) :
    sqAt (modSq s w q f) v r = sqAt s v r ∨ sqAt (modSq s w q f) v r = f (sqAt s v r) := by
  by_cases hsame : v = w ∧ r = q
  · obtain ⟨rfl, rfl⟩ := hsame
    by_cases hs : isSquad s v r
    · exact .inr (sqAt_modSq_self s v r f hs.1 hs.2)
    · have hid : modSq s v r f = s := modSq_of_not_isSquad f hs
      rw [hid]
      exact .inl rfl
  · exact .inl (sqAt_modSq_ne s w q v r f (by omega))

theorem onlyEnds_modSq (s : State) (w q : Nat) (f : Squad → Squad) (h : ∀ sq : Squad, ∀ x ∈ (f sq).waiters, x ∈ sq.waiters) :
    OnlyEnds s (modSq s w q f) := by
  refine ⟨rfl, fun v r x hx => ?_⟩
  obtain hsame | hsame := sqAt_modSq_or s w q f v r
  · rwa [hsame] at hx
  · rw [hsame] at hx
    exact h _ x hx

theorem onlyEnds_endWaits (s : State) (w q : Nat) (ends : Waiter → Bool) : OnlyEnds s (endWaits s w q ends) := by
  have hstill := still_endWaits s w q ends
  refine ⟨mem_of_still hstill, fun v r x hx => ?_⟩
  by_cases hsame : v = w ∧ r = q
  · obtain ⟨rfl, rfl⟩ := hsame
    rw [waiters_endWaits s v r ends (isSquad_of_still hstill (isSquad_of_waiter hx))] at hx
    exact (List.mem_filter.1 hx).1
  · rwa [sqAt_endWaits_ne s w q v r ends (by omega)] at hx

theorem onlyEnds_endWaitsWg (s : State) (w : Nat) (ends : Waiter → Bool) : OnlyEnds s (endWaitsWg s w ends) :=
  .foldl (fun t q => onlyEnds_endWaits t w q ends) _ s

theorem onlyEnds_endAcquiring (s : State) (w q : Nat) (ends : Waiter → Bool) : OnlyEnds s (endAcquiring s w q ends) := by
  unfold endAcquiring
  split
  · exact (onlyEnds_of_wgs rfl rfl : OnlyEnds s (l1Invalidate s (wgAt s w).core)).trans (onlyEnds_endWaits _ w q ends)
  · exact onlyEnds_endWaits s w q ends

theorem onlyEnds_testTickets (s : State) : OnlyEnds s (testTickets s) :=
  .foldl (fun _ _ => .foldl (fun _ _ => onlyEnds_endAcquiring _ _ _ _) _ _) _ s

theorem onlyEnds_testEvents (s : State) (ctx : Nat) : OnlyEnds s (testEvents s ctx) := by
  refine .foldl (fun t w => ?_) _ s
  split
  · exact .foldl (fun _ _ => onlyEnds_endAcquiring _ _ _ _) _ t
  · exact .refl t

/-! Records and parked threads. -/

theorem onlyEnds_reportThread (s : State) (w q lb lane : Nat) (r : List Word) : OnlyEnds s (reportThread s w q lb lane r) :=
  onlyEnds_of_wgs (wgs_reportThread ..) (mem_of_still (still_reportThread ..))

theorem onlyEnds_postRecord (s : State) (die : Nat) (r : List Word) : OnlyEnds s (postRecord s die r) :=
  onlyEnds_of_wgs (wgs_postRecord ..) (mem_of_still (still_postRecord ..))

theorem onlyEnds_parkThreads (s : State) (w q lb : Nat) (lanes : List Nat) (p : Place) (how : Nat → Resume) :
    OnlyEnds s (parkThreads s w q lb lanes p how) := onlyEnds_modSq s w q _ (fun _ _ => id)

theorem onlyEnds_parkWaiters (s : State) (w q : Nat) (picks : Waiter → Bool) (i : FaultInfo) : OnlyEnds s (parkWaiters s w q picks i) :=
  (onlyEnds_modSq s w q _ (fun _ _ hx => (List.mem_filter.1 hx).1)).trans
    (.foldl (fun _ _ => (onlyEnds_parkThreads ..).trans (onlyEnds_reportThread ..)) _ _)

theorem onlyEnds_parkOnBarrier (s : State) (w k sub : Nat) : OnlyEnds s (parkOnBarrier s w k sub) :=
  .foldl (fun _ _ => onlyEnds_parkWaiters ..) _ s

/-! Barriers that the end of engine work completes or breaks. -/

theorem onlyEnds_setBar (s : State) (w k : Nat) (b : Wg → Bar) : OnlyEnds s (modWg s w (fun g => setBar g k (b g))) :=
  onlyEnds_modWg s w _ (fun _ => rfl)

theorem onlyEnds_testBarrier (s : State) (w k : Nat) : OnlyEnds s (testBarrier s w k) := by
  unfold testBarrier
  dsimp only
  split
  · split
    · exact (onlyEnds_setBar ..).trans (onlyEnds_endWaitsWg ..)
    · exact ((onlyEnds_setBar ..).trans (onlyEnds_endWaitsWg ..)).trans (onlyEnds_parkOnBarrier ..)
  · exact .refl s

theorem onlyEnds_breakBarrier (s : State) (w k sub engine : Nat) (bytes : Int) (cls ectx : Nat) (p : Place) :
    OnlyEnds s (breakBarrier s w k sub engine bytes cls ectx p) := by
  unfold breakBarrier
  exact ((onlyEnds_setBar ..).trans (onlyEnds_postRecord ..)).trans (onlyEnds_parkOnBarrier ..)

theorem onlyEnds_engineArrive (s : State) (w k bytes engine cls ectx : Nat) (p : Place) : OnlyEnds s (engineArrive s w k bytes engine cls ectx p) := by
  unfold engineArrive
  dsimp only
  split
  · exact (onlyEnds_setBar ..).trans (onlyEnds_testBarrier ..)
  · split
    · exact .refl s
    · exact onlyEnds_breakBarrier ..

theorem onlyEnds_runFences (w n : Nat) : ∀ s, OnlyEnds s (runFences s w n) := by
  induction n with
  | zero => exact .refl
  | succ n ih =>
    intro s
    unfold runFences
    split
    · split
      · refine .trans ?_ (ih _)
        exact (onlyEnds_withCores s _).trans (onlyEnds_engineArrive (withCores s _) ..)
      · exact .refl s
    · exact .refl s

theorem onlyEnds_matSettle (s : State) (w : Nat) : OnlyEnds s (matSettle s w) := (onlyEnds_runFences w _ s).trans (onlyEnds_endWaitsWg ..)

theorem onlyEnds_undoRuns (s : State) (gone : List MatOp) (w : Nat) : OnlyEnds s (undoRuns s gone w) := by
  unfold undoRuns
  split
  · exact .refl s
  · exact onlyEnds_modWg s w _ (fun _ => rfl)

theorem onlyEnds_dropOps (s : State) (ids : List Nat) : OnlyEnds s (dropOps s ids) := by
  unfold dropOps
  refine .trans ?_ (.foldl onlyEnds_matSettle _ _)
  exact (OnlyEnds.foldl (fun t w => onlyEnds_undoRuns t _ w) _ s).trans (onlyEnds_withCores _ _)

theorem onlyEnds_endCes (s : State) (w st : Nat) : OnlyEnds s (endCes s w st) := by
  refine .foldl (fun t k => ?_) _ s
  dsimp only
  split
  · exact onlyEnds_of_wgs rfl rfl
  · exact .refl t

theorem onlyEnds_emptied (s : State) (w : Nat) : OnlyEnds s (modWg s w (fun g => { g with squads := g.squads.map emptySquad })) := by
  refine ⟨rfl, fun v q x hx => ?_⟩
  by_cases hv : v = w
  · subst hv
    have hs := isSquad_of_waiter hx
    have hlen : v < s.wgs.length := by
      rw [← modAt_length s.wgs v (fun g => { g with squads := g.squads.map emptySquad })]
      exact hs.1
    rw [sqAt, wgAt_modWg_self s v _ hlen, List.getD_eq_getElem?_getD, List.getElem?_map] at hx
    cases hq : (wgAt s v).squads[q]? with
    | none =>
      rw [hq] at hx
      simp [blankSquad, Squad.start] at hx
    | some sq =>
      rw [hq] at hx
      simp [emptySquad] at hx
  · rwa [sqAt, wgAt_modWg_ne s w v _ hv] at hx

theorem onlyEnds_freeWg (s : State) (w : Nat) : OnlyEnds s (freeWg s w) :=
  ⟨(freeWg_keeps s w).2.1, fun v q x hx => by rwa [sqAt_freeWg] at hx⟩

end Sys2Proof.Machine
end

section
/-! PROOF. A launch completes: its record, its signal event, its stage (R20, R29, R111, R210, R346). -/

namespace Sys2Proof.Machine

/-- Where nobody waits for a slot, a slot that becomes free is taken by nobody. -/
theorem settleSlots_of_nobodyEnqueues {s : State} (h : nobodyEnqueues s) (q : Nat) : settleSlots s q = s := by
  refine List.foldlRecOn (motive := fun t => t = s) _ _ rfl (fun t ht w _ => ?_)
  refine List.foldlRecOn (motive := fun t => t = s) _ _ ht (fun t ht i _ => ?_)
  subst ht
  refine List.foldlRecOn (motive := fun r => r = t) _ _ rfl (fun r hr x hx => ?_)
  have hwhy := h w i x hx
  split
  next k d ws e => exact absurd e (hwhy k d ws)
  next => exact hr

/-! The steps of a completion. -/

/-- The completion record of a launch is written to its place. -/
def recordWritten (s : State) (l : Nat) : State :=
  testTickets (physWrite s ((queueOf s (launchAt s l).queue).comp + 32 * (launchAt s l).slot)
    ((completionRecord (launchAt s l) s.plat.tclk).flatMap bytesOfWord))

/-- The signal event of a launch counts, where the launch has one. -/
def signalSent (s : State) (x : Launch) : State :=
  if (wordAt x.rec_ 9).getLsbD 28 then setEvent s x.ctx (recBits x.rec_ 9 27 16) (eventValue s x.ctx (recBits x.rec_ 9 27 16) + 1) else s

/-- The trap kernel of a launch ends with it. -/
def trapEnded (s : State) (x : Launch) : State :=
  match x.trapWg with
  | some w => if (wgAt s w).status < 2 then freeWg (modWg (discardMat (endCes s w 6) w) w (fun g => { g with squads := g.squads.map emptySquad })) w else s
  | none => s

/-- A launch that is complete. -/
def Launch.completed (y : Launch) : Launch := { y with stage := 8, trapCore := none }

/-- The interrupt of a queue that asks for one. -/
def interrupted (s : State) (n : Nat) (q : Queue) : State :=
  if q.cfg.getLsbD 28 then { setQueue s n { queueOf s n with irq := true } with out := s.out ++ [.interrupt] } else s

theorem exec_launchCompletion {s : State} {l n m : Nat} (harg : s.arg = .ids l n m) (hmay : mayComplete s l = true) :
    exec .launchCompletion s = .next (interrupted (settleSlots (modLaunch (trapEnded (signalSent (addEnergy (recordWritten s l) (launchAt s l))
      (launchAt s l)) (launchAt s l)) l Launch.completed) (launchAt s l).queue) (launchAt s l).queue (queueOf s (launchAt s l).queue)) := by
  show execLaunchCompletion s = _
  unfold execLaunchCompletion
  rw [harg]
  dsimp only
  rw [hmay, Bool.not_true, if_neg Bool.false_ne_true]
  rfl

theorem launchCompletion_idle {l n m : Nat} : idle .launchCompletion (.ids l n m) (fun s => mayComplete s l = false) := by
  intro s harg hmay
  show execLaunchCompletion s = _
  unfold execLaunchCompletion
  rw [harg]
  dsimp only
  rw [hmay, Bool.not_false, if_pos rfl]

theorem lt_of_mayComplete {s : State} {l : Nat} (h : mayComplete s l = true) : l < s.launches.length := by
  unfold mayComplete at h
  simp only [Bool.and_eq_true, decide_eq_true_eq] at h
  exact h.1.1

/-! What the steps keep. -/

theorem ctxs_physWrite (s : State) (pa : Nat) (bs : List Byte) : (physWrite s pa bs).ctxs = s.ctxs := by
  unfold physWrite
  split <;> rfl

theorem launches_physWrite (s : State) (pa : Nat) (bs : List Byte) : (physWrite s pa bs).launches = s.launches := by
  unfold physWrite
  split <;> rfl

theorem waits_physWrite (s : State) (pa : Nat) (bs : List Byte) (w q : Nat) : ∀ x ∈ (sqAt (physWrite s pa bs) w q).waiters, x ∈ (sqAt s w q).waiters :=
  fun x hx => by rwa [sqAt_of_wgs (wgs_physWrite s pa bs)] at hx

theorem launches_testEvents (s : State) (ctx : Nat) : (testEvents s ctx).launches = s.launches := by
  have h := congrArg State.launches (stillApartCores_testEvents s ctx)
  exact h

/-- What a completion makes of the machine on the way keeps the launches, the contexts and, as to waits, begins none. -/
structure Winds (s t : State) : Prop where
  launches : t.launches = s.launches
  ctxs : t.ctxs = s.ctxs
  waits : ∀ w q, ∀ x ∈ (sqAt t w q).waiters, x ∈ (sqAt s w q).waiters

theorem Winds.refl (s : State) : Winds s s := ⟨rfl, rfl, fun _ _ _ => id⟩

theorem Winds.trans {s t r : State} (h : Winds s t) (k : Winds t r) : Winds s r :=
  ⟨k.launches.trans h.launches, k.ctxs.trans h.ctxs, fun w q x hx => h.waits w q x (k.waits w q x hx)⟩

theorem winds_recordWritten (s : State) (l : Nat) : Winds s (recordWritten s l) :=
  ⟨by rw [recordWritten, launches_testTickets, launches_physWrite], by rw [recordWritten, testTickets_ctxs, ctxs_physWrite],
    fun w q x hx => waits_physWrite s _ _ w q x ((onlyEnds_testTickets _).waits w q x hx)⟩

theorem winds_setEvent (s : State) (ctx e : Nat) (v : Word) : Winds s (setEvent s ctx e v) :=
  ⟨by rw [setEvent, launches_testEvents, launches_testTickets, launches_physWrite], setEvent_ctxs s ctx e v,
    fun w q x hx => waits_physWrite s _ _ w q x (((onlyEnds_testTickets _).trans (onlyEnds_testEvents _ ctx)).waits w q x hx)⟩

theorem winds_signalSent (s : State) (x : Launch) : Winds s (signalSent s x) := by
  unfold signalSent
  split
  · exact winds_setEvent ..
  · exact .refl s

theorem onlyEnds_trapEnded (s : State) (x : Launch) : OnlyEnds s (trapEnded s x) := by
  unfold trapEnded
  split
  · split
    · exact (((onlyEnds_endCes ..).trans (onlyEnds_dropOps ..)).trans (onlyEnds_emptied ..)).trans (onlyEnds_freeWg ..)
    · exact .refl s
  · exact .refl s

theorem winds_trapEnded (s : State) (x : Launch) : Winds s (trapEnded s x) := by
  have hkept : (trapEnded s x).launches = s.launches ∧ (trapEnded s x).ctxs = s.ctxs := by
    unfold trapEnded
    split
    next w _ =>
      split
      · have hrolls : rolls (discardMat (endCes s w 6) w) = rolls s := (rolls_discardMat _ w).trans (rolls_endCes s w 6)
        generalize discardMat (endCes s w 6) w = r at hrolls ⊢
        obtain ⟨-, hboth⟩ := Prod.mk.inj hrolls
        obtain ⟨hlaunches, hctxs⟩ := Prod.mk.inj hboth
        exact ⟨(freeWg_keeps _ w).1.trans hlaunches, (freeWg_keeps _ w).2.2.trans hctxs⟩
      · exact ⟨rfl, rfl⟩
    · exact ⟨rfl, rfl⟩
  exact ⟨hkept.1, hkept.2, (onlyEnds_trapEnded s x).waits⟩

theorem addEnergy_none {s : State} {x : Launch} (h : recAddr (ctxAt s x.ctx).words 7 = 0) : addEnergy s x = s := by
  unfold addEnergy
  dsimp only
  rw [if_pos h]

theorem interrupted_keeps (s : State) (n : Nat) (q : Queue) :
    (interrupted s n q).launches = s.launches ∧ (interrupted s n q).ctxs = s.ctxs ∧ (interrupted s n q).mem = s.mem := by
  unfold interrupted
  split <;> exact ⟨rfl, rfl, rfl⟩

/-- A completion without an energy table: the record, the signal, the end of the trap kernel, and the stage. -/
theorem launchCompletion_steps {s : State} {l n m : Nat} (harg : s.arg = .ids l n m) (hmay : mayComplete s l = true)
    (henergy : recAddr (ctxAt s (launchAt s l).ctx).words 7 = 0) (hnobody : nobodyEnqueues s) :
    ∃ t, exec .launchCompletion s = .next t ∧ (launchAt t l).stage = 8 ∧ (launchAt t l).trapCore = none ∧ t.ctxs = s.ctxs
      ∧ t.mem = (signalSent (recordWritten s l) (launchAt s l)).mem := by
  have hrecord := winds_recordWritten s l
  have hsignal := hrecord.trans (winds_signalSent (recordWritten s l) (launchAt s l))
  have hend := hsignal.trans (winds_trapEnded (signalSent (recordWritten s l) (launchAt s l)) (launchAt s l))
  refine ⟨_, exec_launchCompletion harg hmay, ?_⟩
  rw [addEnergy_none (by rwa [ctxAt, hrecord.ctxs])]
  generalize hr : trapEnded (signalSent (recordWritten s l) (launchAt s l)) (launchAt s l) = r at hend
  have hmem : r.mem = (signalSent (recordWritten s l) (launchAt s l)).mem := by
    rw [← hr]
    exact (onlyEnds_trapEnded _ _).mem
  have hslots : nobodyEnqueues (modLaunch r l Launch.completed) := nobodyEnqueues_of_waits (s := s) hend.waits hnobody
  have hlaunch := launchAt_modLaunch_self r l Launch.completed (by rw [hend.launches]; exact lt_of_mayComplete hmay)
  rw [settleSlots_of_nobodyEnqueues hslots]
  obtain ⟨klaunches, kctxs, kmem⟩ := interrupted_keeps (modLaunch r l Launch.completed) (launchAt s l).queue (queueOf s (launchAt s l).queue)
  rw [launchAt, klaunches, ← launchAt, hlaunch, kctxs, kmem]
  exact ⟨rfl, rfl, hend.ctxs, hmem⟩

/-! What is written. -/

theorem length_completionBytes (x : Launch) (tclk : BitVec 64) : ((completionRecord x tclk).flatMap bytesOfWord).length = 32 := rfl

theorem bytesWritten_recordWritten {s : State} {l a : Nat}
    (h : physLoc ((queueOf s (launchAt s l).queue).comp + 32 * (launchAt s l).slot) = some (.local a)) :
    bytesWritten s.mem (recordWritten s l).mem a ((completionRecord (launchAt s l) s.plat.tclk).flatMap bytesOfWord) := by
  rw [recordWritten, testTickets_mem]
  exact bytesWritten_physWrite s h _

theorem launchCompletion_writes {l n m a : Nat} : happens .launchCompletion (.ids l n m)
    (fun s => mayComplete s l = true ∧ physLoc ((queueOf s (launchAt s l).queue).comp + 32 * (launchAt s l).slot) = some (.local a)
      ∧ recAddr (ctxAt s (launchAt s l).ctx).words 7 = 0 ∧ (wordAt (launchAt s l).rec_ 9).getLsbD 28 = false ∧ nobodyEnqueues s)
    (fun s t => (launchAt t l).stage = 8 ∧ (launchAt t l).trapCore = none
      ∧ bytesWritten s.mem t.mem a ((completionRecord (launchAt s l) s.plat.tclk).flatMap bytesOfWord)) := by
  rintro s harg ⟨hmay, hloc, henergy, hevent, hnobody⟩
  obtain ⟨t, hexec, hstage, hcore, -, hmem⟩ := launchCompletion_steps harg hmay henergy hnobody
  refine ⟨t, hexec, hstage, hcore, ?_⟩
  rw [hmem, signalSent, hevent, if_neg Bool.false_ne_true]
  exact bytesWritten_recordWritten hloc

theorem eventValue_congr {s t : State} {ctx e b : Nat} (hctxs : t.ctxs = s.ctxs) (hloc : physLoc (eventAddr s ctx e) = some (.local b))
    (hread : ∀ x, b ≤ x → x < b + 4 → Memory.read t.mem x = Memory.read s.mem x) : eventValue t ctx e = eventValue s ctx e := by
  have haddr : eventAddr t ctx e = eventAddr s ctx e := by rw [eventAddr, ctxAt, hctxs, eventAddr, ctxAt]
  have hall : Memory.readAll t.mem b 4 = Memory.readAll s.mem b 4 :=
    List.map_congr_left (fun i hi => hread _ (by omega) (by have := List.mem_range.1 hi; omega))
  rw [eventValue, physRead, haddr, hloc, eventValue, physRead, hloc]
  dsimp only
  rw [hall]

/-- The record lies in its own bytes, or, where its place is not local, nowhere. -/
theorem read_recordWritten {s : State} {l x : Nat}
    (h : ∀ a, physLoc ((queueOf s (launchAt s l).queue).comp + 32 * (launchAt s l).slot) = some (.local a) → ¬(a ≤ x ∧ x < a + 32)) :
    Memory.read (recordWritten s l).mem x = Memory.read s.mem x := by
  rw [recordWritten, testTickets_mem, physWrite]
  split
  next a ha => rw [Memory.read_writeAll, length_completionBytes, if_neg (h a ha)]
  next => rfl

theorem launchCompletion_signals {l n m b : Nat} : happens .launchCompletion (.ids l n m)
    (fun s => mayComplete s l = true ∧ recAddr (ctxAt s (launchAt s l).ctx).words 7 = 0 ∧ (wordAt (launchAt s l).rec_ 9).getLsbD 28 = true
      ∧ nobodyEnqueues s ∧ physLoc (eventAddr s (launchAt s l).ctx (recBits (launchAt s l).rec_ 9 27 16)) = some (.local b)
      ∧ ∀ a, physLoc ((queueOf s (launchAt s l).queue).comp + 32 * (launchAt s l).slot) = some (.local a) → a + 32 ≤ b ∨ b + 4 ≤ a)
    (fun s t => (launchAt t l).stage = 8
      ∧ eventValue t (launchAt s l).ctx (recBits (launchAt s l).rec_ 9 27 16)
        = eventValue s (launchAt s l).ctx (recBits (launchAt s l).rec_ 9 27 16) + 1) := by
  rintro s harg ⟨hmay, henergy, hevent, hnobody, hloc, hapart⟩
  obtain ⟨t, hexec, hstage, -, hctxs, hmem⟩ := launchCompletion_steps harg hmay henergy hnobody
  refine ⟨t, hexec, hstage, ?_⟩
  have hrecord := winds_recordWritten s l
  have hsame : ∀ r : State, r.ctxs = s.ctxs → ∀ c e, eventAddr r c e = eventAddr s c e := fun r hr c e => by
    rw [eventAddr, ctxAt, hr, eventAddr, ctxAt]
  have hbefore := eventValue_congr (t := recordWritten s l) hrecord.ctxs hloc (fun x hlo hhi => read_recordWritten (fun a ha => by
    have := hapart a ha
    omega))
  have hset := eventValue_setEvent (recordWritten s l) (launchAt s l).ctx (recBits (launchAt s l).rec_ 9 27 16) b
    (eventValue (recordWritten s l) (launchAt s l).ctx (recBits (launchAt s l).rec_ 9 27 16) + 1) (by rwa [hsame _ hrecord.ctxs])
  rw [← hbefore, ← hset]
  rw [signalSent, if_pos hevent] at hmem
  refine eventValue_congr (b := b) (hctxs.trans ?_) ?_ (fun x _ _ => by rw [hmem])
  · exact (hrecord.trans (winds_setEvent ..)).ctxs.symm
  · rwa [hsame _ (hrecord.trans (winds_setEvent ..)).ctxs]

end Sys2Proof.Machine
end

section
/-! PROOF. Trap kernels start at trap level in their reserved quarter (R337, R343, R352). -/

namespace Sys2Proof.Machine

/-- A workgroup that starts as a trap kernel, in a quarter of a core. -/
def trapStarted (r : State) (k l q id : Nat) : State := startWg r k (q / 4) id 0 0 1 false 1 (some l) (some (q % 4))

/-- The launch whose trap kernel starts names it. -/
def trapNamed (t : State) (l : Nat) : State := modLaunch t l (fun y => { y with trapWg := some (t.wgs.length - 1) })

theorem trapStarted_enters (r : State) (k l q id : Nat) : (trapStarted r k l q id).launches = r.launches
    ∧ ∃ g, (trapStarted r k l q id).wgs = r.wgs ++ [g] ∧ g.level = 1 ∧ g.core = q / 4 ∧ g.quarters = [q % 4] ∧ g.trapOf = some l ∧ g.status = 0 :=
  ⟨rfl, _, rfl, rfl, rfl, rfl, rfl, rfl⟩

theorem trapNamed_started {s r : State} {k l q id : Nat} (hw : r.wgs = s.wgs) (hl : l < r.launches.length) :
    let t := trapNamed (trapStarted r k l q id) l
    t.wgs.length = s.wgs.length + 1 ∧ (launchAt t l).trapWg = some s.wgs.length
      ∧ (wgAt t s.wgs.length).level = 1 ∧ (wgAt t s.wgs.length).core = q / 4 ∧ (wgAt t s.wgs.length).quarters = [q % 4]
      ∧ (wgAt t s.wgs.length).trapOf = some l ∧ (wgAt t s.wgs.length).status = 0 := by
  obtain ⟨hlaunches, g, hwgs, hg⟩ := trapStarted_enters r k l q id
  rw [hw] at hwgs
  have hlen : (trapStarted r k l q id).wgs.length = s.wgs.length + 1 := by rw [hwgs, List.length_append, List.length_singleton]
  have hlast : wgAt (trapNamed (trapStarted r k l q id) l) s.wgs.length = g := by
    rw [trapNamed, wgAt_modLaunch, wgAt, hwgs, List.getD_append_right _ _ _ _ (le_refl _), Nat.sub_self]
    rfl
  dsimp only
  rw [hlast, trapNamed, launchAt_modLaunch_self _ _ _ (by rwa [hlaunches]), hlen]
  exact ⟨hlen, rfl, hg⟩

/-- The launch under which the header of a trap kernel stands (R337). -/
def trapLaunch (x : Launch) (t : List Word) : Launch :=
  { blankLaunch with
    ctx := x.ctx, queue := x.queue, rec_ := (wordAt t 0) :: (wordAt t 1) :: x.rec_.drop 2, khw := t.drop 16, stage := 9, lid := x.lid }

/-- The machine as a trap kernel starts for the first time, with a number drawn for it. -/
def trapDrawn (s : State) (l : Nat) (t : List Word) : State := (draw { s with launches := s.launches ++ [trapLaunch (launchAt s l) t] }).2

section Start

variable {s : State} {l n m q : Nat} {rec : List Word} (harg : s.arg = .ids l n m)
  (hl : l < s.launches.length) (htrap : (launchAt s l).trap = some rec) (hcore : (launchAt s l).trapCore = some q) (hstage : (launchAt s l).stage = 4)
  (hdue : (launchAt s l).trapQ ≠ [] ∨ trapFlushed s (launchAt s l) = true) (hhere : (ctxAt s (launchAt s l).ctx).away = false)

include harg hl htrap hcore hstage hdue hhere

theorem exec_trapKernelStart_first (hwg : (launchAt s l).trapWg = none) : exec .trapKernelStart s
    = .next (trapNamed (trapStarted (trapDrawn s l rec) s.launches.length l q (trapId (launchAt s l) s.freeCtr)) l) := by
  have hqueue : (!(launchAt s l).trapQ.isEmpty) = true ∨ trapFlushed s (launchAt s l) = true := hdue.imp_left (by simp)
  show execTrapKernelStart s = _
  unfold execTrapKernelStart
  rw [harg]
  dsimp only
  rw [htrap, hcore]
  dsimp only
  rw [if_pos ⟨hl, hstage, hqueue, by rw [hhere]; rfl⟩, hwg, ← harg]
  rfl

theorem exec_trapKernelStart_again {w : Nat} (hwg : (launchAt s l).trapWg = some w) (hstatus : (wgAt s w).status = 2) : exec .trapKernelStart s
    = .next (trapNamed (trapStarted s (wgAt s w).launch l q (wgAt s w).id) l) := by
  have hqueue : (!(launchAt s l).trapQ.isEmpty) = true ∨ trapFlushed s (launchAt s l) = true := hdue.imp_left (by simp)
  show execTrapKernelStart s = _
  unfold execTrapKernelStart
  rw [harg]
  dsimp only
  rw [htrap, hcore]
  dsimp only
  rw [if_pos ⟨hl, hstage, hqueue, by rw [hhere]; rfl⟩, hwg]
  dsimp only
  rw [if_pos hstatus]
  rfl

end Start

theorem trapKernelStart_starts {l n m q : Nat} {rec : List Word} : happens .trapKernelStart (.ids l n m)
    (fun s => l < s.launches.length ∧ (launchAt s l).trap = some rec ∧ (launchAt s l).trapCore = some q ∧ (launchAt s l).stage = 4
      ∧ ((launchAt s l).trapQ ≠ [] ∨ trapFlushed s (launchAt s l) = true) ∧ (ctxAt s (launchAt s l).ctx).away = false
      ∧ ((launchAt s l).trapWg = none ∨ ∃ w, (launchAt s l).trapWg = some w ∧ (wgAt s w).status = 2))
    (fun s t => t.wgs.length = s.wgs.length + 1 ∧ (launchAt t l).trapWg = some s.wgs.length
      ∧ (wgAt t s.wgs.length).level = 1 ∧ (wgAt t s.wgs.length).core = q / 4 ∧ (wgAt t s.wgs.length).quarters = [q % 4]
      ∧ (wgAt t s.wgs.length).trapOf = some l ∧ (wgAt t s.wgs.length).status = 0) := by
  rintro s harg ⟨hl, htrap, hcore, hstage, hdue, hhere, hnone | ⟨w, hwg, hstatus⟩⟩
  · refine ⟨_, exec_trapKernelStart_first harg hl htrap hcore hstage hdue hhere hnone, trapNamed_started rfl ?_⟩
    show l < (s.launches ++ [_]).length
    rw [List.length_append]
    omega
  · exact ⟨_, exec_trapKernelStart_again harg hl htrap hcore hstage hdue hhere hwg hstatus, trapNamed_started rfl hl⟩

end Sys2Proof.Machine
end

section
/-! PROOF. The watchdog parks every waiting thread of a launch that has not issued for its period (R339). -/

namespace Sys2Proof.Machine

/-- From one state to another waiting threads may park: the rest of the machine is as it was, who was parked still is, and no record is gone. -/
structure Suspends (s t : State) : Prop where
  still : still t = still s
  waits : ∀ w q, ∀ x ∈ (sqAt t w q).waiters, x ∈ (sqAt s w q).waiters
  parked : ∀ w q, ∀ x ∈ (sqAt s w q).parked, x ∈ (sqAt t w q).parked
  records : ∀ r ∈ recordsOf s, r ∈ recordsOf t

theorem Suspends.refl (s : State) : Suspends s s := ⟨rfl, fun _ _ _ => id, fun _ _ _ => id, fun _ => id⟩

theorem Suspends.trans {s t r : State} (h : Suspends s t) (k : Suspends t r) : Suspends s r :=
  ⟨k.still.trans h.still, fun w q x hx => h.waits w q x (k.waits w q x hx), fun w q x hx => k.parked w q x (h.parked w q x hx),
    fun x hx => k.records x (h.records x hx)⟩

theorem Suspends.foldl {α : Type} {f : State → α → State} (h : ∀ s x, Suspends s (f s x)) (l : List α) (s : State) : Suspends s (l.foldl f s) :=
  List.foldlRecOn l f (motive := Suspends s) (.refl s) (fun t ht x _ => ht.trans (h t x))

theorem suspends_reportThread (s : State) (w q lb lane : Nat) (r : List Word) : Suspends s (reportThread s w q lb lane r) :=
  ⟨still_reportThread .., (onlyEnds_reportThread ..).waits, fun v p x hx => by rwa [sqAt_of_wgs (wgs_reportThread ..)], (recordsOf_reportThread ..).2⟩

theorem suspends_modSq (s : State) (w q : Nat) (f : Squad → Squad) (hf : ∀ sq : Squad, (f sq).still = sq.still
    ∧ (∀ x ∈ (f sq).waiters, x ∈ sq.waiters) ∧ ∀ x ∈ sq.parked, x ∈ (f sq).parked) : Suspends s (modSq s w q f) := by
  refine ⟨still_modSq_same s w q f (fun sq => (hf sq).1), (onlyEnds_modSq s w q f (fun sq => (hf sq).2.1)).waits, fun v r x hx => ?_, fun _ => id⟩
  obtain hsame | hsame := sqAt_modSq_or s w q f v r
  · rwa [hsame]
  · rw [hsame]
    exact (hf _).2.2 x hx

/-! One workgroup. -/

/-- The waits of a workgroup, each with its squad. -/
def waitsOf (s : State) (w : Nat) : List (Nat × Waiter) :=
  (List.range (wgAt s w).squads.length).flatMap (fun q => (sqAt s w q).waiters.map (fun x => (q, x)))

/-- A squad without a wait. -/
def Squad.unwaited (z : Waiter) (sq : Squad) : Squad := { sq with waiters := sq.waiters.filter (fun x => x != z) }

/-- A squad with the threads of a wait parked in it. -/
def Squad.parkedIn (z : Waiter) (sq : Squad) : Squad :=
  { sq with parked := sq.parked ++ (lanesOf z.mask).map (fun l => { lb := z.lb, lane := l, place := z.stand, how := .rewait z.why z.next }) }

/-- The threads of a wait park in it. -/
def waitParked (w : Nat) (s : State) (y : Nat × Waiter) : State := modSq (modSq s w y.1 (Squad.unwaited y.2)) w y.1 (Squad.parkedIn y.2)

/-- The watchdog's record of a workgroup, which names the thread of a wait. -/
def watchdogRecord (s : State) (w : Nat) (f : Nat × Waiter) : List Word :=
  threadRecord s w f.1 f.2.lb (lowest f.2.mask) (if f.2.stand.atHdr then 7 else Cls.code (clauseClass f.2.stand.hdr)) f.2.stand (faultInfo 0x2A 0)

theorem watchdogWg_eq {s : State} {w : Nat} {y : Nat × Waiter} (hy : y ∈ waitsOf s w) : ∃ f : Nat × Waiter,
    watchdogWg s w = reportThread ((waitsOf s w).foldl (waitParked w) s) w f.1 f.2.lb (lowest f.2.mask)
      (watchdogRecord ((waitsOf s w).foldl (waitParked w) s) w f) := by
  obtain ⟨f, hf⟩ := firstBy_isSome (fun x : Nat × Waiter => [x.1, x.2.lb, lowest x.2.mask]) (List.ne_nil_of_mem hy)
  refine ⟨f, ?_⟩
  rw [waitsOf] at hf
  unfold watchdogWg
  dsimp only
  rw [hf]
  rfl

theorem suspends_waitParked (w : Nat) (s : State) (y : Nat × Waiter) : Suspends s (waitParked w s y) :=
  (suspends_modSq s w y.1 (Squad.unwaited y.2) (fun _ => ⟨rfl, fun _ hx => (List.mem_filter.1 hx).1, fun _ => id⟩)).trans
    (suspends_modSq _ w y.1 (Squad.parkedIn y.2) (fun _ => ⟨rfl, fun _ => id, fun _ hx => List.mem_append_left _ hx⟩))

theorem suspends_watchdogWg (s : State) (w : Nat) : Suspends s (watchdogWg s w) := by
  cases hall : waitsOf s w with
  | nil =>
    rw [waitsOf] at hall
    unfold watchdogWg
    dsimp only
    rw [hall]
    exact .refl s
  | cons y ys =>
    obtain ⟨f, hf⟩ := watchdogWg_eq (s := s) (w := w) (y := y) (by rw [hall]; exact List.mem_cons_self)
    rw [hf]
    exact (Suspends.foldl (suspends_waitParked w) _ s).trans (suspends_reportThread ..)

/-- The threads of a wait are parked in it, and wait no more. -/
def waitOver (t : State) (w q : Nat) (x : Waiter) : Prop :=
  x ∉ (sqAt t w q).waiters ∧ ∀ i, i < 32 → inMask x.mask i = true → parkedAt (sqAt t w q) x.lb i x.stand

theorem waitOver_of_suspends {s t : State} (h : Suspends s t) {w q : Nat} {x : Waiter} (k : waitOver s w q x) : waitOver t w q x := by
  refine ⟨fun hx => k.1 (h.waits w q x hx), fun i hi hm => ?_⟩
  obtain ⟨p, hp, hfits⟩ := k.2 i hi hm
  exact ⟨p, h.parked w q p hp, hfits⟩

theorem waitOver_waitParked {s : State} {w q : Nat} {x : Waiter} (h : x ∈ (sqAt s w q).waiters) : waitOver (waitParked w s (q, x)) w q x := by
  obtain ⟨hw, hq⟩ := isSquad_of_waiter h
  obtain ⟨kw, kq⟩ : isSquad (modSq s w q (Squad.unwaited x)) w q := isSquad_modSq _ ⟨hw, hq⟩
  rw [waitOver, waitParked, sqAt_modSq_self _ _ _ _ kw kq, sqAt_modSq_self _ _ _ _ hw hq]
  refine ⟨by simp [Squad.parkedIn, Squad.unwaited], fun i hi hm => ?_⟩
  exact ⟨{ lb := x.lb, lane := i, place := x.stand, how := .rewait x.why x.next },
    List.mem_append_right _ (List.mem_map.2 ⟨i, (mem_lanesOf _ _).2 ⟨hi, hm⟩, rfl⟩), rfl, rfl, rfl⟩

theorem waits_waitParked_ne {s : State} {w q : Nat} {x : Waiter} {y : Nat × Waiter} (hy : y ≠ (q, x)) (h : x ∈ (sqAt s w q).waiters) :
    x ∈ (sqAt (waitParked w s y) w q).waiters := by
  have hkeeps : ∀ t, x ∈ (sqAt t w q).waiters → x ∈ (sqAt (modSq t w y.1 (Squad.parkedIn y.2)) w q).waiters := fun t ht => by
    obtain hsame | hsame := sqAt_modSq_or t w y.1 (Squad.parkedIn y.2) w q <;> rwa [hsame]
  refine hkeeps _ ?_
  by_cases hq : q = y.1
  · obtain hsame | hsame := sqAt_modSq_or s w y.1 (Squad.unwaited y.2) w q
    · rwa [hsame]
    · rw [hsame]
      refine List.mem_filter.2 ⟨h, ?_⟩
      rw [bne_iff_ne]
      exact fun e => hy (by rw [hq, e])
  · rwa [sqAt_modSq_ne _ _ _ _ _ _ (.inr hq)]

/-- After the watchdog has come to a workgroup, each of its waits is over, and there is a record. -/
theorem waitOver_watchdogWg {s : State} {w q : Nat} {x : Waiter} (h : x ∈ (sqAt s w q).waiters) :
    waitOver (watchdogWg s w) w q x ∧ hasRecord (watchdogWg s w) 0x2A 0 := by
  have hmem : (q, x) ∈ waitsOf s w :=
    List.mem_flatMap.2 ⟨q, List.mem_range.2 (isSquad_of_waiter h).2, List.mem_map_of_mem h⟩
  obtain ⟨f, hf⟩ := watchdogWg_eq hmem
  rw [hf]
  refine ⟨waitOver_of_suspends (suspends_reportThread ..) ?_, _, (recordsOf_reportThread ..).1, ?_⟩
  · exact foldl_establishes (before := fun t => x ∈ (sqAt t w q).waiters) (after := fun t => waitOver t w q x)
      (fun _ _ hj ht => waits_waitParked_ne hj ht) (fun _ ht => waitOver_waitParked ht)
      (fun t y ht => waitOver_of_suspends (suspends_waitParked w t y) ht) _ hmem s h
  · exact recordOf_code _ _ _ _ _ _ _ _ _ _ _ _ (by decide) (by decide) (by decide) (by decide)

/-- The watchdog leaves the waits of another workgroup alone. -/
theorem waits_watchdogWg_ne {s : State} {v w q : Nat} {x : Waiter} (hv : v ≠ w) (h : x ∈ (sqAt s w q).waiters) :
    x ∈ (sqAt (watchdogWg s v) w q).waiters := by
  cases hall : waitsOf s v with
  | nil =>
    rw [waitsOf] at hall
    unfold watchdogWg
    dsimp only
    rw [hall]
    exact h
  | cons y ys =>
    obtain ⟨f, hf⟩ := watchdogWg_eq (s := s) (w := v) (y := y) (by rw [hall]; exact List.mem_cons_self)
    rw [hf, sqAt_of_wgs (wgs_reportThread ..), foldl_keeps (sqAt · w q) (waitParked v) (fun t y => ?_)]
    · exact h
    · rw [waitParked, sqAt_modSq_ne _ _ _ _ _ _ (.inl hv.symm), sqAt_modSq_ne _ _ _ _ _ _ (.inl hv.symm)]

/-! The expiry. -/

/-- What the expiry does to one workgroup. -/
def watched (l : Nat) (s : State) (w : Nat) : State := if (wgAt s w).launch = l ∧ (wgAt s w).status = 0 then watchdogWg s w else s

theorem exec_watchdogExpiry {s : State} {l n m : Nat} (harg : s.arg = .ids l n m)
    (hdue : l < s.launches.length ∧ (launchAt s l).stage = 4 ∧ watchdogPeriod s (launchAt s l).ctx ≠ 0
      ∧ (launchAt s l).lastIssue + watchdogPeriod s (launchAt s l).ctx ≤ s.plat.tclk.toNat) :
    exec .watchdogExpiry s = .next ((List.range s.wgs.length).foldl (watched l) s) := by
  show execWatchdogExpiry s = _
  unfold execWatchdogExpiry
  rw [harg]
  dsimp only
  rw [if_pos hdue]
  rfl

theorem watchdogExpiry_idle {l n m : Nat} : idle .watchdogExpiry (.ids l n m)
    (fun s => s.plat.tclk.toNat < (launchAt s l).lastIssue + watchdogPeriod s (launchAt s l).ctx) := by
  intro s harg hearly
  show execWatchdogExpiry s = _
  unfold execWatchdogExpiry
  rw [harg]
  dsimp only
  rw [if_neg (fun h => absurd h.2.2.2 (Nat.not_le.2 hearly))]

theorem suspends_watched (l : Nat) (s : State) (w : Nat) : Suspends s (watched l s w) := by
  unfold watched
  split
  · exact suspends_watchdogWg s w
  · exact .refl s

theorem hasRecord_of_suspends {s t : State} (h : Suspends s t) {code sub : Nat} (k : hasRecord s code sub) : hasRecord t code sub := by
  obtain ⟨r, hr, hcode⟩ := k
  exact ⟨r, h.records r hr, hcode⟩

/-- A wait of the launch is over once the watchdog has come to every workgroup. -/
theorem waitOver_watchedAll {s : State} {l w q : Nat} {x : Waiter} (hl : (wgAt s w).launch = l) (h0 : (wgAt s w).status = 0)
    (h : x ∈ (sqAt s w q).waiters) :
    waitOver ((List.range s.wgs.length).foldl (watched l) s) w q x ∧ hasRecord ((List.range s.wgs.length).foldl (watched l) s) 0x2A 0 := by
  refine foldl_establishes (before := fun t => still t = still s ∧ x ∈ (sqAt t w q).waiters)
    (after := fun t => waitOver t w q x ∧ hasRecord t 0x2A 0) (fun t v hv ht => ⟨?_, ?_⟩) (fun t ht => ?_) (fun t v ht => ⟨?_, ?_⟩) _
    (List.mem_range.2 (isSquad_of_waiter h).1) s ⟨rfl, h⟩
  · exact (suspends_watched l t v).still.trans ht.1
  · unfold watched
    split
    · exact waits_watchdogWg_ne hv ht.2
    · exact ht.2
  · have hlaunch : (wgAt t w).launch = l := (wgView_of_still Wg.launch (fun _ => rfl) ht.1 w).trans hl
    have hstatus : (wgAt t w).status = 0 := (wgView_of_still Wg.status (fun _ => rfl) ht.1 w).trans h0
    rw [watched, if_pos ⟨hlaunch, hstatus⟩]
    exact waitOver_watchdogWg ht.2
  · exact waitOver_of_suspends (suspends_watched l t v) ht.1
  · exact hasRecord_of_suspends (suspends_watched l t v) ht.2

theorem watchdogExpiry_parks {l n m : Nat} : happens .watchdogExpiry (.ids l n m)
    (fun s => l < s.launches.length ∧ (launchAt s l).stage = 4 ∧ watchdogPeriod s (launchAt s l).ctx ≠ 0
      ∧ (launchAt s l).lastIssue + watchdogPeriod s (launchAt s l).ctx ≤ s.plat.tclk.toNat)
    (fun s t => still t = still s ∧ ∀ w q x, (wgAt s w).launch = l → (wgAt s w).status = 0 → x ∈ (sqAt s w q).waiters →
      (sqAt t w q).waiters = [] ∧ hasRecord t 0x2A 0 ∧ ∀ i, i < 32 → inMask x.mask i = true → parkedAt (sqAt t w q) x.lb i x.stand) := by
  intro s harg hdue
  have hsuspends : Suspends s ((List.range s.wgs.length).foldl (watched l) s) := .foldl (suspends_watched l) _ s
  refine ⟨_, exec_watchdogExpiry harg hdue, hsuspends.still, fun w q x hl h0 hx => ?_⟩
  obtain ⟨⟨-, hparked⟩, hrecord⟩ := waitOver_watchedAll hl h0 hx
  refine ⟨List.eq_nil_iff_forall_not_mem.2 (fun y hy => ?_), hrecord, hparked⟩
  exact (waitOver_watchedAll hl h0 (hsuspends.waits w q y hy)).1.1 hy

end Sys2Proof.Machine
end

section
/-! PROOF. Parked threads return from a fault, and page requests are answered (R187, R191, R311, R331, R336, R338). -/

namespace Sys2Proof.Machine

/-! Steps by which threads of a squad come back. -/

/-- From one state to another threads of a squad may come to stand, and records be added: who stood still does, nobody parks, and memory and the open page
requests are as they were. -/
structure Revives (w q : Nat) (s t : State) : Prop where
  there : isSquad s w q → isSquad t w q
  stand : ∀ lb l p, standsAt (sqAt s w q) lb l p → standsAt (sqAt t w q) lb l p
  parked : ∀ x ∈ (sqAt t w q).parked, x ∈ (sqAt s w q).parked
  mem : t.mem = s.mem
  pageReqs : t.pageReqs = s.pageReqs

theorem Revives.refl (w q : Nat) (s : State) : Revives w q s s := ⟨id, fun _ _ _ => id, fun _ => id, rfl, rfl⟩

theorem Revives.trans {w q : Nat} {s t r : State} (h : Revives w q s t) (k : Revives w q t r) : Revives w q s r :=
  ⟨k.there ∘ h.there, fun lb l p => k.stand lb l p ∘ h.stand lb l p, fun x => h.parked x ∘ k.parked x, k.mem.trans h.mem, k.pageReqs.trans h.pageReqs⟩

theorem Revives.foldl {α : Type} {w q : Nat} {f : State → α → State} (h : ∀ s x, Revives w q s (f s x)) (l : List α) (s : State) :
    Revives w q s (l.foldl f s) :=
  List.foldlRecOn l f (motive := Revives w q s) (.refl w q s) (fun t ht x _ => ht.trans (h t x))

theorem revives_modSq (s : State) (w q : Nat) (f : Squad → Squad) (hstand : ∀ sq lb l p, standsAt sq lb l p → standsAt (f sq) lb l p)
    (hparked : ∀ sq : Squad, ∀ x ∈ (f sq).parked, x ∈ sq.parked) : Revives w q s (modSq s w q f) := by
  refine ⟨isSquad_modSq f, fun lb l p h => ?_, fun x hx => ?_, rfl, rfl⟩
  · obtain hsame | hsame := sqAt_modSq_or s w q f w q
    · rwa [hsame]
    · rw [hsame]
      exact hstand _ lb l p h
  · obtain hsame | hsame := sqAt_modSq_or s w q f w q
    · rwa [hsame] at hx
    · rw [hsame] at hx
      exact hparked _ x hx

theorem revives_modWg (s : State) (w q v : Nat) (f : Wg → Wg) (h : ∀ g, (f g).squads = g.squads) : Revives w q s (modWg s v f) := by
  have hsq : sqAt (modWg s v f) w q = sqAt s w q := by rw [sqAt, wgAt_modWg_keeps Wg.squads s v f h w, sqAt]
  exact ⟨isSquad_modWg h, fun lb l p k => by rwa [hsq], fun x hx => by rwa [hsq] at hx, rfl, rfl⟩

/-- A change of a squad that says nothing of where its threads stand or are parked. -/
theorem revives_modSq_same (s : State) (w q : Nat) (f : Squad → Squad)
    (h : ∀ sq, (f sq).frontier = sq.frontier ∧ (f sq).overflow = sq.overflow ∧ (f sq).parked = sq.parked) : Revives w q s (modSq s w q f) := by
  refine revives_modSq s w q f (fun sq lb l p hstand => ?_) (fun sq x hx => ?_)
  · obtain ⟨hf, ho, -⟩ := h sq
    rwa [standsAt, hf, ho]
  · rwa [(h sq).2.2] at hx

theorem pageReqs_reportThread (s : State) (w q lb lane : Nat) (r : List Word) : (reportThread s w q lb lane r).pageReqs = s.pageReqs := by
  have h := congrArg State.pageReqs (still_reportThread s w q lb lane r)
  exact h

theorem revives_reportThread (s : State) (w q v r lb lane : Nat) (rec : List Word) : Revives w q s (reportThread s v r lb lane rec) := by
  have hsq := sqAt_of_wgs (wgs_reportThread s v r lb lane rec) w q
  refine ⟨isSquad_of_still (still_reportThread ..).symm, ?_, ?_, mem_of_still (still_reportThread ..), pageReqs_reportThread ..⟩ <;> rw [hsq]
  · exact fun _ _ _ => id
  · exact fun _ => id

theorem standsAt_placeEntry {ver : Nat} {peek : VAddr → Word} {sq : Squad} {e : Entry} {lb l : Nat} {p : Place} (h : standsAt sq lb l p) :
    standsAt (placeEntry ver peek sq e) lb l p := standsAt_of_grows (placeEntry_grows ver peek sq e) h

theorem revives_enter (s : State) (w q : Nat) (e : Entry) : Revives w q s (enter s w q e) :=
  revives_modSq s w q _ (fun _ _ _ _ h => standsAt_placeEntry h) (fun _ _ hx => by rwa [placeEntry_only] at hx)

/-! The return from a fault (R331). -/

/-- The parked threads that come back: those picked that no barrier holds. -/
def returning (s : State) (w q : Nat) (picks : Parked → Bool) : List Parked :=
  ((sqAt s w q).parked.filter picks).filter (fun p => (stillBarred (wgAt s w) p).isNone)

/-- A squad without the threads that come back. -/
def Squad.unparked (g : Wg) (picks : Parked → Bool) (sq : Squad) : Squad :=
  { sq with parked := sq.parked.filter (fun p => !picks p || (stillBarred g p).isSome) }

/-- The lanes to replay, each with its lane block, its place and its staged operands. -/
def replaysOf (out : List Parked) : List ((Nat × Place) × (Nat × Staged)) :=
  out.filterMap (fun p => match p.how with
    | .replay st _ => some ((p.lb, p.place), (p.lane, st))
    | _ => none)

/-- The lanes to replay of one lane block and place come back as one replay entry. -/
def replayEntered (w q n : Nat) (s : State) (y : (Nat × Place) × List ((Nat × Place) × (Nat × Staged))) : State :=
  let lanes := y.2.map (fun r => r.2)
  enter s w q { freshEntry y.1.1 y.1.2 (maskOf (fun l => lanes.any (fun p => p.1 == l))) 0 n with replay := lanes }

theorem resumeThreads_steps (s : State) (w q : Nat) (picks : Parked → Bool) (step : Bool) :
    ∃ r, Revives w q (modSq s w q (Squad.unparked (wgAt s w) picks)) r
      ∧ Revives w q ((partsBy (fun r => r.1) (replaysOf (returning s w q picks))).foldl (replayEntered w q ((sqAt s w q).cycle + 2)) r)
          (resumeThreads s w q picks step) := by
  refine ⟨?between, ?before, ?after⟩
  case after =>
    unfold resumeThreads
    dsimp only
    refine .trans ?_ (.foldl (fun t p => ?_) _ _)
    · refine .trans ?_ (.foldl (fun t y => revives_enter ..) _ _)
      refine revives_modSq_same _ w q _ ?_
      exact fun _ => ⟨rfl, rfl, rfl⟩
    · split
      · exact revives_reportThread ..
      · refine revives_modSq_same _ w q _ ?_
        exact fun _ => ⟨rfl, rfl, rfl⟩
      · exact .refl ..
  case before =>
    refine .trans ?_ (revives_modSq_same _ w q _ ?_)
    · refine revives_modWg _ w q w _ ?_
      exact fun _ => rfl
    · exact fun _ => ⟨rfl, rfl, rfl⟩

theorem revives_resumeThreads (s : State) (w q : Nat) (picks : Parked → Bool) (step : Bool) :
    Revives w q (modSq s w q (Squad.unparked (wgAt s w) picks)) (resumeThreads s w q picks step) := by
  obtain ⟨r, hbefore, hafter⟩ := resumeThreads_steps s w q picks step
  exact (hbefore.trans (.foldl (fun _ _ => revives_enter ..) _ r)).trans hafter

theorem isSquad_of_parked {s : State} {w q : Nat} {x : Parked} (h : x ∈ (sqAt s w q).parked) : isSquad s w q := by
  have hq : q < (wgAt s w).squads.length := by
    by_contra hq
    rw [sqAt, List.getD_eq_default _ _ (by omega)] at h
    simp [blankSquad, Squad.start] at h
  refine ⟨?_, hq⟩
  by_contra hw
  rw [wgAt, List.getD_eq_default _ _ (by omega)] at hq
  simp [blankWg] at hq

theorem exists_mem_partsBy {α β : Type} [DecidableEq β] (f : α → β) {l : List α} {x : α} (h : x ∈ l) : ∃ y ∈ partsBy f l, y.1 = f x ∧ x ∈ y.2 :=
  ⟨_, List.mem_map_of_mem (List.mem_dedup.2 (List.mem_map_of_mem h)), rfl, List.mem_filter.2 ⟨h, by simp⟩⟩

/-- A lane of a replay entry stands at the entry's place. -/
theorem standsAt_replayEntered {s : State} {w q n lane : Nat} {st : Staged} {k : Nat × Place} {y : (Nat × Place) × List ((Nat × Place) × (Nat × Staged))}
    (hs : isSquad s w q) (hlane : lane < 32) (hy : (k, (lane, st)) ∈ y.2) : standsAt (sqAt (replayEntered w q n s y) w q) y.1.1 lane y.1.2 := by
  have hin : inMask (maskOf (fun l => (y.2.map (fun r => r.2)).any (fun p => p.1 == l))) lane = true := by
    rw [inMask_maskOf _ _ hlane, List.any_eq_true]
    exact ⟨(lane, st), List.mem_map.2 ⟨_, hy, rfl⟩, beq_self_eq_true lane⟩
  unfold replayEntered enter
  dsimp only
  generalize maskOf (fun l => (y.2.map (fun r => r.2)).any (fun p => p.1 == l)) = m at hin ⊢
  rw [sqAt_modSq_self _ _ _ _ hs.1 hs.2]
  obtain ⟨f, hf, hlb, hmask, hplace⟩ := placeEntry_has (versionOf s w) (peekWord s w) (sqAt s w q)
    { freshEntry y.1.1 y.1.2 m 0 n with replay := y.2.map (fun r => r.2) } (mask_ne_none.2 ⟨lane, hlane, hin⟩)
  exact ⟨f, hf, hlb, by rw [hmask]; exact hin, hplace⟩

/-- A parked lane that is to replay, once resumed, stands at its instruction and is parked no more (R331). -/
theorem replayed_resumeThreads {s : State} {w q : Nat} {picks : Parked → Bool} {step : Bool} {x : Parked} {st : Staged} {nb : Bool}
    (hx : x ∈ (sqAt s w q).parked) (hpick : picks x = true) (hhow : x.how = .replay st nb) (hlane : x.lane < 32) :
    x ∉ (sqAt (resumeThreads s w q picks step) w q).parked ∧ standsAt (sqAt (resumeThreads s w q picks step) w q) x.lb x.lane x.place := by
  have hs := isSquad_of_parked hx
  have hfree : stillBarred (wgAt s w) x = none := by rw [stillBarred, hhow]
  obtain ⟨r, hbefore, hafter⟩ := resumeThreads_steps s w q picks step
  refine ⟨fun h => ?_, hafter.stand _ _ _ ?_⟩
  · have hkept := (revives_resumeThreads s w q picks step).parked x h
    rw [sqAt_modSq_self _ _ _ _ hs.1 hs.2] at hkept
    have hno := (List.mem_filter.1 hkept).2
    rw [hpick, hfree] at hno
    exact absurd hno Bool.false_ne_true
  · have hback : x ∈ returning s w q picks :=
      List.mem_filter.2 ⟨List.mem_filter.2 ⟨hx, hpick⟩, by rw [hfree]; rfl⟩
    have hreplay : ((x.lb, x.place), (x.lane, st)) ∈ replaysOf (returning s w q picks) := List.mem_filterMap.2 ⟨x, hback, by rw [hhow]⟩
    obtain ⟨y, hy, hkey, hin⟩ := exists_mem_partsBy (fun r : (Nat × Place) × (Nat × Staged) => r.1) hreplay
    have hstand : ∀ t, isSquad t w q → standsAt (sqAt (replayEntered w q ((sqAt s w q).cycle + 2) t y) w q) x.lb x.lane x.place := fun t ht => by
      have h := standsAt_replayEntered (n := (sqAt s w q).cycle + 2) ht hlane hin
      rwa [hkey] at h
    have hrevives : ∀ t j, Revives w q t (replayEntered w q ((sqAt s w q).cycle + 2) t j) := fun t j => revives_enter t w q _
    exact foldl_establishes (before := fun t => isSquad t w q) (after := fun t => standsAt (sqAt t w q) x.lb x.lane x.place)
      (fun t j _ => (hrevives t j).there) hstand (fun t j => (hrevives t j).stand _ _ _) _ hy r (hbefore.there (isSquad_modSq _ hs))

end Sys2Proof.Machine
end

section
/-! PROOF. Page requests are answered: the entry is installed, and the thread or the delivery that waits goes on (R187, R191, R311, R336). -/

namespace Sys2Proof.Machine

/-! The walk to a leaf whose tables are there (R187). -/

/-- The table that an entry of a table names, if it is valid and names one. -/
def tableOf (e : BitVec 64) : Option Nat := if e.getLsbD 63 && e.getLsbD 62 then some (bitsOf e.toNat 39 0 * 4096) else none

theorem tableAt_present {s : State} {a va c : Nat} {b : Nat × Nat} (h : (pte s a (bitsOf va b.1 b.2)).bind tableOf = some c) (bs : List (Nat × Nat))
    (frames : List (BitVec 40)) : tableAt s a va (b :: bs) frames = tableAt s c va bs frames := by
  obtain ⟨e, he, htable⟩ := Option.bind_eq_some_iff.1 h
  unfold tableOf at htable
  split at htable
  next hboth =>
    obtain ⟨hvalid, hnext⟩ := Bool.and_eq_true_iff.1 hboth
    conv_lhs => unfold tableAt
    rw [he]
    dsimp only
    rw [if_pos hvalid, if_pos hnext, Option.some.inj htable]
  next => cases htable

theorem leafSlot_steps {s : State} {ctx va a : Nat} (h : leafSlot s ctx va = some a) : ∃ b c d,
    (pte s (recAddr (ctxAt s ctx).words 1) (bitsOf va 51 43)).bind tableOf = some b ∧ (pte s b (bitsOf va 42 34)).bind tableOf = some c
      ∧ (pte s c (bitsOf va 33 25)).bind tableOf = some d ∧ a = d + 8 * bitsOf va 24 16 := by
  unfold leafSlot at h
  dsimp only at h
  split at h
  · cases h
  next b hb =>
    split at h
    · cases h
    next c hc =>
      split at h
      · cases h
      next d hd => exact ⟨b, c, d, hb, hc, hd, (Option.some.inj h).symm⟩

/-- Where the tables are there, the leaf is written to its slot. -/
theorem installLeaf_present {s : State} {ctx va a : Nat} {e : PageGrant} (h : leafSlot s ctx va = some a) (h0 : e.level = 0) :
    installLeaf s ctx va e = some (testTickets (physWrite s a (leBytes 8 e.leaf.toNat))) := by
  obtain ⟨b, c, d, hb, hc, hd, rfl⟩ := leafSlot_steps h
  have hwalk : tableAt s (recAddr (ctxAt s ctx).words 1) va [(51, 43), (42, 34), (33, 25)] e.tables = some (s, d) := by
    rw [tableAt_present (b := (51, 43)) hb, tableAt_present (b := (42, 34)) hc, tableAt_present (b := (33, 25)) hd]
    rfl
  unfold installLeaf
  dsimp only
  rw [if_pos h0, if_pos h0]
  show Option.map _ (tableAt s _ va [(51, 43), (42, 34), (33, 25)] e.tables) = _
  rw [hwalk, Option.map_some]

/-! The answers. -/

section Answers

variable {s : State} {k : Nat} {p : PageReq}

/-- The machine without an open page request. -/
def unasked (s : State) (k : Nat) : State := { s with pageReqs := Map.del s.pageReqs k }

theorem find_unasked (s : State) (k : Nat) : Map.find (unasked s k).pageReqs k = none := by rw [unasked, Map.find_del, if_pos rfl]

/-- The machine with the leaf of a page request installed. -/
def leafInstalled (s : State) (k a : Nat) (e : PageGrant) : State := testTickets (physWrite (unasked s k) a (leBytes 8 e.leaf.toNat))

/-- What the answer to a page request makes of the machine. -/
def pageAnswered (s : State) (k : Nat) (p : PageReq) (leaf : Option PageGrant) : State :=
  match leaf, p.delivery with
  | none, none => (forwardRecord (unasked s k) p.rec_).getD s
  | none, some d => endDelivery (unasked s k) d 4 (some ((0x10, 1), p.addr))
  | some e, none => ((installLeaf (unasked s k) p.ctx p.addr.toNat e).map (fun t => acknowledge t p.wg p.rec_)).getD s
  | some e, some d => ((installLeaf (unasked s k) p.ctx p.addr.toNat e).map (fun t => resumeLanding t d)).getD s

theorem exec_pageRequestResponse {leaf : Option PageGrant} (harg : s.arg = .page k leaf) (hp : Map.find s.pageReqs k = some p) :
    exec .pageRequestResponse s = .next (pageAnswered s k p leaf) := by
  show execPageRequestResponse s = _
  unfold execPageRequestResponse
  split
  next k' leaf' e =>
    rw [harg] at e
    cases e
    rw [hp]
    rfl
  next h => exact absurd harg (h k leaf)

theorem pageAnswered_thread {e : PageGrant} {a : Nat} (hd : p.delivery = none) (h0 : e.level = 0) (hslot : leafSlot s p.ctx p.addr.toNat = some a) :
    pageAnswered s k p (some e) = acknowledge (leafInstalled s k a e) p.wg p.rec_ := by
  have hinstall := installLeaf_present (s := unasked s k) hslot h0
  unfold pageAnswered
  rw [hd]
  dsimp only
  rw [hinstall]
  rfl

theorem pageAnswered_delivery {e : PageGrant} {a d : Nat} (hd : p.delivery = some d) (h0 : e.level = 0)
    (hslot : leafSlot s p.ctx p.addr.toNat = some a) : pageAnswered s k p (some e) = resumeLanding (leafInstalled s k a e) d := by
  have hinstall := installLeaf_present (s := unasked s k) hslot h0
  unfold pageAnswered
  rw [hd]
  dsimp only
  rw [hinstall]
  rfl

theorem pageAnswered_none (hd : p.delivery = none) : pageAnswered s k p none = (forwardRecord (unasked s k) p.rec_).getD s := by
  unfold pageAnswered
  rw [hd]

end Answers

/-! What the installed leaf leaves. -/

theorem pageReqs_leafInstalled (s : State) (k a : Nat) (e : PageGrant) : (leafInstalled s k a e).pageReqs = Map.del s.pageReqs k := by
  have hwrite : (physWrite (unasked s k) a (leBytes 8 e.leaf.toNat)).pageReqs = Map.del s.pageReqs k := by
    unfold physWrite
    split <;> rfl
  have htest := congrArg State.pageReqs (stillApartCores_testTickets (physWrite (unasked s k) a (leBytes 8 e.leaf.toNat)))
  exact Eq.trans htest hwrite

theorem fab_leafInstalled (s : State) (k a : Nat) (e : PageGrant) : (leafInstalled s k a e).fab = s.fab := by
  have hwrite : (physWrite (unasked s k) a (leBytes 8 e.leaf.toNat)).fab = s.fab := by
    unfold physWrite
    split <;> rfl
  have htest := congrArg State.fab (stillApartCores_testTickets (physWrite (unasked s k) a (leBytes 8 e.leaf.toNat)))
  exact Eq.trans htest hwrite

theorem bytesWritten_leafInstalled {s : State} {k a b : Nat} {e : PageGrant} (h : physLoc a = some (.local b)) :
    bytesWritten s.mem (leafInstalled s k a e).mem b (leBytes 8 e.leaf.toNat) := by
  rw [leafInstalled, testTickets_mem]
  exact bytesWritten_physWrite (unasked s k) h _

/-! A thread that is not parked in a wait stays parked when waits end. -/

theorem parked_reenterGroup {w q delay : Nat} {s : State} {y : Released} {v r : Nat} {x : Parked} (h : x ∈ (sqAt s v r).parked) :
    x ∈ (sqAt (reenterGroup w q delay s y) v r).parked := by
  obtain ⟨f, hf, hgrows, -⟩ := reenterGroup_cases w q delay s y
  rw [hf]
  obtain hsame | hsame := sqAt_modSq_or s w q f v r
  · rwa [hsame]
  · rw [hsame]
    exact (hgrows _).1.parked x h

theorem parked_releaseWhere {s : State} {w q v r : Nat} {ends : Waiter → Bool} {x : Parked} (h : x ∈ (sqAt s v r).parked) :
    x ∈ (sqAt (releaseWhere s w q ends) v r).parked := by
  unfold releaseWhere
  dsimp only
  split
  · exact h
  · rw [reenter_eq]
    refine List.foldlRecOn (motive := fun t => x ∈ (sqAt t v r).parked) _ _ ?_ (fun t ht y _ => parked_reenterGroup ht)
    obtain hsame | hsame := sqAt_modSq_or s w q (fun sq => { sq with waiters := sq.waiters.filter (fun x => !ends x) }) v r <;> rwa [hsame]

/-- A squad whose threads that are parked in a wait that ends go on past it when they are resumed. -/
def Squad.waitsPast (ends : Waiter → Bool) (sq : Squad) : Squad :=
  { sq with parked := sq.parked.map (fun p => match p.waiter with
      | some x => if ends x then { p with place := x.next, how := .go false } else p
      | none => p) }

theorem endWaits_eq (s : State) (w q : Nat) (ends : Waiter → Bool) : endWaits s w q ends = releaseWhere (modSq s w q (Squad.waitsPast ends)) w q ends := rfl

theorem parked_endWaits {s : State} {w q v r : Nat} {ends : Waiter → Bool} {x : Parked} (hno : x.waiter = none) (h : x ∈ (sqAt s v r).parked) :
    x ∈ (sqAt (endWaits s w q ends) v r).parked := by
  rw [endWaits_eq]
  refine parked_releaseWhere ?_
  obtain hsame | hsame := sqAt_modSq_or s w q (Squad.waitsPast ends) v r
  · rwa [hsame]
  · rw [hsame]
    exact List.mem_map.2 ⟨x, h, by rw [hno]⟩

theorem parked_testTickets {s : State} {v r : Nat} {x : Parked} (hno : x.waiter = none) (h : x ∈ (sqAt s v r).parked) :
    x ∈ (sqAt (testTickets s) v r).parked := by
  refine List.foldlRecOn (motive := fun t => x ∈ (sqAt t v r).parked) _ _ h (fun t ht w _ => ?_)
  refine List.foldlRecOn (motive := fun t => x ∈ (sqAt t v r).parked) _ _ ht (fun t ht q _ => ?_)
  dsimp only
  unfold endAcquiring
  refine parked_endWaits hno ?_
  split <;> exact ht

/-! The obligation's clauses. -/

/-- The threads that the answer to a thread's page request lets go on (R331, R336). -/
def acknowledges (r : List Word) (p : Parked) : Bool :=
  p.lb == recBits r 1 20 12 / 32 && p.place.pc.toNat == (wordAt r 4).toNat + 2 ^ 32 * recBits r 5 19 0 && (match p.how with
    | .replay _ _ => p.lane == recBits r 1 25 21
    | .go _ => true
    | .rewait _ _ => false)

theorem acknowledge_thread {s : State} {w : Nat} {r : List Word} (h : recBits r 0 31 24 = 0x10) :
    acknowledge s w r = resumeThreads s w (recBits r 1 11 10) (acknowledges r) false := by
  unfold acknowledge
  rw [h, if_neg (by decide)]
  rfl

theorem pageRequestResponse_thread {k a b : Nat} {e : PageGrant} {p : PageReq} : happens .pageRequestResponse (.page k (some e))
    (fun s => Map.find s.pageReqs k = some p ∧ p.delivery = none ∧ e.level = 0 ∧ leafSlot s p.ctx p.addr.toNat = some a ∧ physLoc a = some (.local b)
      ∧ recBits p.rec_ 0 31 24 = 0x10)
    (fun s t => Map.find t.pageReqs k = none ∧ bytesWritten s.mem t.mem b (leBytes 8 e.leaf.toNat)
      ∧ ∀ x st nb, x ∈ (sqAt s p.wg (recBits p.rec_ 1 11 10)).parked → x.lb = recBits p.rec_ 1 20 12 / 32 → x.lane = recBits p.rec_ 1 25 21 →
          x.place.pc.toNat = (wordAt p.rec_ 4).toNat + 2 ^ 32 * recBits p.rec_ 5 19 0 → x.how = .replay st nb →
          x ∉ (sqAt t p.wg (recBits p.rec_ 1 11 10)).parked ∧ standsAt (sqAt t p.wg (recBits p.rec_ 1 11 10)) x.lb x.lane x.place) := by
  rintro s harg ⟨hp, hd, h0, hslot, hloc, hcode⟩
  refine ⟨_, exec_pageRequestResponse harg hp, ?_⟩
  rw [pageAnswered_thread hd h0 hslot, acknowledge_thread hcode]
  have hrevives := revives_resumeThreads (leafInstalled s k a e) p.wg (recBits p.rec_ 1 11 10) (acknowledges p.rec_) false
  refine ⟨?_, ?_, fun x st nb hx hlb hlane hpc hhow => ?_⟩
  · rw [hrevives.pageReqs]
    exact (congrArg (Map.find · k) (pageReqs_leafInstalled s k a e)).trans (find_unasked s k)
  · rw [hrevives.mem]
    exact bytesWritten_leafInstalled hloc
  · have hsame : ∀ v r, sqAt (physWrite (unasked s k) a (leBytes 8 e.leaf.toNat)) v r = sqAt s v r := sqAt_of_wgs (wgs_physWrite ..)
    refine replayed_resumeThreads (st := st) (nb := nb) (parked_testTickets ?_ ?_) ?_ hhow ?_
    · rw [Parked.waiter, hhow]
    · rwa [hsame]
    · rw [acknowledges, hhow, hlb, hpc, hlane]
      simp
    · rw [hlane]
      exact Nat.mod_lt _ (by decide)

theorem Map.find_modify {α : Type} (m : Map α) (k : Nat) (f : α → α) (i : Nat) :
    Map.find (Map.modify m k f) i = (Map.find m i).map (fun x => if i = k then f x else x) := by
  unfold Map.modify
  by_cases hi : i = k
  · subst hi
    cases hx : Map.find m i with
    | none => rw [hx]; rfl
    | some x => rw [Map.find_put_self, Option.map_some, if_pos rfl]
  · have hid : (Map.find m i).map (fun x => if i = k then f x else x) = Map.find m i := by
      simp only [hi, if_false, Option.map_id']
    rw [hid]
    split
    · exact Map.find_put_ne m k i _ hi
    · rfl

theorem pageRequestResponse_delivery {k a b d : Nat} {e : PageGrant} {p : PageReq} : happens .pageRequestResponse (.page k (some e))
    (fun s => Map.find s.pageReqs k = some p ∧ p.delivery = some d ∧ e.level = 0 ∧ leafSlot s p.ctx p.addr.toNat = some a ∧ physLoc a = some (.local b))
    (fun s t => Map.find t.pageReqs k = none ∧ bytesWritten s.mem t.mem b (leBytes 8 e.leaf.toNat)
      ∧ ∀ i, Map.find t.fab.deliveries i = (Map.find s.fab.deliveries i).map (fun x => if i = d then { x with asked := false } else x)) := by
  rintro s harg ⟨hp, hd, h0, hslot, hloc⟩
  refine ⟨_, exec_pageRequestResponse harg hp, ?_⟩
  rw [pageAnswered_delivery hd h0 hslot]
  refine ⟨?_, bytesWritten_leafInstalled hloc, fun i => ?_⟩
  · exact (congrArg (Map.find · k) (pageReqs_leafInstalled s k a e)).trans (find_unasked s k)
  · have hfab := fab_leafInstalled s k a e
    rw [resumeLanding]
    dsimp only
    rw [hfab, Map.find_modify]

theorem pageRequestResponse_forwarded {k : Nat} {p : PageReq} : happens .pageRequestResponse (.page k none)
    (fun s => Map.find s.pageReqs k = some p ∧ p.delivery = none ∧ ∀ l ∈ s.launches, l.trap = none)
    (fun s t => t = { s with pageReqs := Map.del s.pageReqs k, out := s.out ++ [.hostRecord p.rec_] }) := by
  rintro s harg ⟨hp, hd, htrap⟩
  refine ⟨_, exec_pageRequestResponse harg hp, ?_⟩
  have hnone : ∀ l, (launchAt (unasked s k) l).trap = none := fun l => by
    rw [launchAt, List.getD_eq_getElem?_getD]
    cases hl : (unasked s k).launches[l]? with
    | none => rfl
    | some x => exact htrap x (List.mem_of_getElem? hl)
  rw [pageAnswered_none hd]
  unfold forwardRecord
  dsimp only
  split
  · rfl
  · rw [hnone]
    rfl

/-- Settles O49: each event is stepped through, and what ends waits on the way begins none and leaves memory alone. -/
theorem launchesEnd : Obligations.LaunchesEnd := by
  unfold Obligations.LaunchesEnd
  refine ⟨⟨fun _ _ _ => workgroupRetirement_retires, fun _ _ _ => workgroupRetirement_idle, fun _ _ _ _ _ _ => ticketForfeitPass_passes,
    fun _ _ _ _ => launchCompletion_writes, fun _ _ _ _ => launchCompletion_signals, fun _ _ _ => launchCompletion_idle⟩, ?_⟩
  exact ⟨fun _ _ _ _ _ => trapKernelStart_starts, fun _ _ _ => watchdogExpiry_parks, fun _ _ _ => watchdogExpiry_idle,
    fun _ _ _ _ _ => pageRequestResponse_thread, fun _ _ _ _ _ _ => pageRequestResponse_delivery, fun _ _ => pageRequestResponse_forwarded⟩

end Sys2Proof.Machine
end

section
/-! PROOF. Matrix signatures: threads that may sign join their register's open operation (R96, R98, R238, R239, R252). -/

namespace Sys2Proof.Machine

/-! A signature that meets no fault. -/

theorem none_of_maySign {s : State} {u : Bundle} {k : BitVec 3} {i : Instr} {cl : Bool} (h : maySign s u k i cl) :
    ((List.range (convAt s u k).count).any (fun j => inMask (exitedOf (squadOf s u) (((convAt s u k).first + j) / 32)) (((convAt s u k).first + j) % 32)
      && !(convAt s u k).signed.contains ((convAt s u k).first + j))) = false := by
  obtain ⟨-, -, -, -, -, -, -, hexited⟩ := h
  rw [List.any_eq_false]
  intro j hj
  rw [Bool.and_eq_true, not_and]
  intro hout
  simp [hexited j (List.mem_range.1 hj) hout]

/-- A bundle whose every thread may sign signs whole, guard-true threads in full. -/
theorem signOp_of_maySign {s : State} {u : Bundle} {k : BitVec 3} {i : Instr} {cl : Bool} (h : maySign s u k i cl) :
    signOp k i cl u s = addSignatures (advance s u u.e.mask) u k.toNat i u.e.mask (activeMask s u) := by
  have hgone := none_of_maySign h
  obtain ⟨hm, hst, hbound, haligned, hrange, hopen, hodd, -⟩ := h
  have hsub : ∀ l, inMask (activeMask s u) l = true → inMask u.e.mask l = true := fun _ => inMask_of_active
  have hall := signers_eq_all hst hrange
  have hgang : (cl && !(wgAt s u.wg).aligned) = false := by
    cases cl with
    | false => rfl
    | true => rw [haligned rfl]; rfl
  have hkind : (cl != (convAt s u k).bound) = false := by rw [hbound, bne_self_eq_false]
  have hsame : ((convAt s u k).open_.any (fun o => o.1 != i)) = false := by
    cases ho : (convAt s u k).open_ with
    | none => rfl
    | some o => exact bne_eq_false_iff_eq.2 (hopen o ho)
  have heven : ((convAt s u k).full.isEmpty && oddDouble (convAt s u k).mf0 i) = false := by
    cases hfull : (convAt s u k).full with
    | nil => exact hodd hfull
    | cons t ts => rfl
  unfold signOp
  dsimp only [convAt, squadOf] at hgang hkind hsame heven hgone ⊢
  generalize hr : maskOf _ = r
  obtain rfl : r = u.e.mask := hr.symm.trans hall
  rw [and_not_all hsub, if_neg hm, all_and hsub, and_not_all (fun _ => inMask_of_rest), faultIssue_none, advance_none]
  rw [hgang, hkind, hsame, hgone, heven]
  simp only [Bool.false_eq_true, if_false, ite_self]

/-! What the signatures do. -/

/-- The first signer's instruction and place. -/
def firstOf (c : Conv) (u : Bundle) (i : Instr) : Instr × Place := c.open_.getD (i, u.e.place)

/-- A squad with the registers that an operation was supplied from marked until they are read (R240). -/
def Squad.supplies (items : List Nat) (sq : Squad) : Squad :=
  items.foldl (fun sq k => { sq with marks := Map.put sq.marks k (max (sq.cycle + 4) (Map.getD sq.marks k 0)) }) sq

/-- The registers from which the signers of a register supply an operation. -/
def suppliedBy (c : Conv) (i : Instr) : List Nat := ((c.full.map (fun t => t / 32)).dedup).flatMap (operandItems c.mf0 i)

/-- The machine with a number taken for an operation, and its registers marked. -/
def supplied (t : State) (u : Bundle) (c : Conv) (i : Instr) : State :=
  modSq { t with ids := t.ids + 1 } u.wg u.sq (Squad.supplies (suppliedBy c i))

/-- The parts of a cluster operation that other cores have signed. -/
def otherParts (t : State) (core k : Nat) : List (Nat × MatOp) := (Map.getD t.xc (core / 4 * 4 + k) []).filter (fun p => p.1 != core % 4)

/-- The part of a cluster operation that a core's complete set of signatures stands for. -/
def ownPart (t : State) (u : Bundle) (core k : Nat) (c : Conv) (first : Instr × Place) : MatOp :=
  opOf (supplied t u c first.1) u.wg u.sq k c first.1 first.2 t.ids (some (match otherParts t core k with
    | p :: _ => p.2.cluster.getD t.ids
    | [] => t.ids))

/-- A part of a cluster operation joins the others, and the last one completes it (R249). -/
def partJoined (t : State) (u : Bundle) (core k : Nat) (c : Conv) (first : Instr × Place) : State :=
  let s := modSq (supplied t u c first.1) u.wg u.sq (fun sq => setConv sq k { c with st := 3 })
  let parts := otherParts t core k ++ [(core % 4, ownPart t u core k c first)]
  if parts.length < 4 then { s with xc := Map.put s.xc (core / 4 * 4 + k) parts }
  else issueCluster { s with xc := Map.del s.xc (core / 4 * 4 + k) } ((sortBy (fun p => [p.1]) parts).map (fun p => p.2))

/-- An operation of a core form issues with its last signature (R232, R238). -/
def lastSigned (t : State) (u : Bundle) (k : Nat) (c : Conv) (first : Instr × Place) : State :=
  issueOp (closeConv (modSq (supplied t u c first.1) u.wg u.sq (fun sq => setConv sq k c)) u.wg u.sq k)
    (opOf (supplied t u c first.1) u.wg u.sq k c first.1 first.2 t.ids none) c.count

theorem addSignatures_eq {s t : State} {u : Bundle} {k : BitVec 3} {i : Instr} (hconv : convOf (sqAt t u.wg u.sq) k.toNat = convAt s u k) :
    addSignatures t u k.toNat i u.e.mask (activeMask s u) =
      if (signedConv s u k i).signed.length < (signedConv s u k i).count then modSq t u.wg u.sq (fun sq => setConv sq k.toNat (signedConv s u k i))
      else if (signedConv s u k i).bound then
        partJoined t u (wgAt t u.wg).core k.toNat (signedConv s u k i) (firstOf (signedConv s u k i) u i)
      else lastSigned t u k.toNat (signedConv s u k i) (firstOf (signedConv s u k i) u i) := by
  have hsub : ∀ l, inMask (activeMask s u) l = true → inMask u.e.mask l = true := fun _ => inMask_of_active
  unfold addSignatures signedConv
  dsimp only
  rw [hconv, all_and hsub]
  cases ho : (convAt s u k).open_ <;> rfl

/-! Signatures that do not complete their signer range. -/

theorem length_signed (s : State) (u : Bundle) (k : BitVec 3) (i : Instr) :
    (signedConv s u k i).signed.length = (convAt s u k).signed.length + (lanesOf u.e.mask).length := by
  simp [signedConv, threadsOf]

/-- The forms that sign a register: the matrix operations with even descriptor registers, and the accumulator's. -/
def signsAs (i : Instr) (k : BitVec 3) (cl : Bool) : Prop := ∀ s u, Issuing s u → exec i s = .next (signOp k i cl u s.handed)

theorem signsAs_signed {k : BitVec 3} {x : BitVec 1} {a : BitVec 6} {y : BitVec 1} {b : BitVec 6} {r : BitVec 5} (ha : x = 1 → a.toNat % 2 = 0)
    (hb : y = 1 → b.toNat % 2 = 0) {p : Instr × Bool} (hp : p ∈ signedForms k x a y b r) : signsAs p.1 k p.2 := fun _ _ h => exec_signed ha hb hp h

theorem signsAs_acc {k : BitVec 3} {t n r : BitVec 5} {i : Instr} (hi : i ∈ [Instr.accClr k n r, .accCp k t n r]) : signsAs i k false := by
  intro s u h
  simp only [List.mem_cons, List.not_mem_nil, or_false] at hi
  obtain rfl | rfl := hi <;> exact withBundle_handed h _

section Signs

variable {k : BitVec 3} {i : Instr} {cl : Bool} {s : State} {u : Bundle}

/-- The register of a bundle that has just advanced. -/
theorem convOf_advanced (s : State) (u : Bundle) (k : BitVec 3) :
    convOf (sqAt (advance s.handed u u.e.mask) u.wg u.sq) k.toNat = convAt s u k := convOf_of_still (still_advance s.handed u u.e.mask) u.wg u.sq k.toNat

theorem exec_signs (hi : signsAs i k cl) (h : Issuing s u) (hm : maySign s u k i cl) :
    exec i s = .next (addSignatures (advance s.handed u u.e.mask) u k.toNat i u.e.mask (activeMask s u)) :=
  (hi s u h).trans (congrArg _ (signOp_of_maySign (s := s.handed) hm))

theorem signs_alone (hi : signsAs i k cl) :
    doesAlone i (fun s u => maySign s u k i cl ∧ (convAt s u k).signed.length + (lanesOf u.e.mask).length < (convAt s u k).count)
      (fun s u => inSquad s u (fun q => setConv q k.toNat (signedConv s u k i))) allOn := by
  refine doesAlone_of_once (fun s u r => modSq r u.wg u.sq (fun q => setConv q k.toNat (signedConv s u k i)))
    (fun s u h hpre => ?_) (fun s u r _ _ hr => ⟨?_, ?_⟩)
  · rw [exec_signs hi h hpre.1, addSignatures_eq (convOf_advanced s u k), length_signed]
    exact congrArg _ (if_pos hpre.2)
  · exact still_modSq_congr hr _ _ _ (fun _ => rfl)
  · exact unmoved_modSq r u _ (fun _ => ⟨rfl, rfl, rfl, rfl, rfl⟩)

end Signs

end Sys2Proof.Machine
end

section
/-! PROOF. The last signature of a core form issues its operation, and the last one on a core of a cluster form leaves it to the others (R96, R232, R238,
R240, R249). -/

namespace Sys2Proof.Machine

/-! What the checks of an operation read. -/

/-- A workgroup without its squads. -/
def Wg.frame (g : Wg) : Wg := { g with squads := [] }

/-- Two states agree in their launches and, apart from their squads, in their workgroups. -/
structure SameFrame (s t : State) : Prop where
  wg : ∀ w, (wgAt t w).frame = (wgAt s w).frame
  length : t.wgs.length = s.wgs.length
  launches : t.launches = s.launches

theorem SameFrame.refl (s : State) : SameFrame s s := ⟨fun _ => rfl, rfl, rfl⟩

theorem SameFrame.trans {s t r : State} (h : SameFrame s t) (k : SameFrame t r) : SameFrame s r :=
  ⟨fun w => (k.wg w).trans (h.wg w), k.length.trans h.length, k.launches.trans h.launches⟩

theorem SameFrame.view {s t : State} (h : SameFrame s t) {α : Type} (view : Wg → α) (hv : ∀ g : Wg, view g.frame = view g) (w : Nat) :
    view (wgAt t w) = view (wgAt s w) := by rw [← hv, h.wg, hv]

theorem sameFrame_of_still {s t : State} (e : still t = still s) : SameFrame s t := by
  refine ⟨wgView_of_still Wg.frame (fun _ => rfl) e, ?_, ?_⟩
  · simpa using congrArg List.length (wgs_of_still e)
  · have h := congrArg State.launches e
    exact h

theorem sameFrame_modSq (s : State) (w q : Nat) (f : Squad → Squad) : SameFrame s (modSq s w q f) :=
  ⟨wgAt_modWg_keeps Wg.frame s w _ (fun _ => rfl), modAt_length .., rfl⟩

theorem sameFrame_of_wgs {s t : State} (h : t.wgs = s.wgs) (hl : t.launches = s.launches) : SameFrame s t :=
  ⟨fun w => by rw [wgAt, h, wgAt], by rw [h], hl⟩

/-- The checks of an operation read no squad. -/
theorem matCheck_congr {s t : State} (h : SameFrame s t) (o : MatOp) (n : Nat) : matCheck t o n = matCheck s o n := by
  have hlaunch := h.view Wg.launch (fun _ => rfl)
  have hlevel := h.view Wg.level (fun _ => rfl)
  have hcore := h.view Wg.core (fun _ => rfl)
  have haligned := h.view Wg.aligned (fun _ => rfl)
  have hstatus := h.view Wg.status (fun _ => rfl)
  have hruns := h.view Wg.runs (fun _ => rfl)
  have hlaunches : ∀ l, launchAt t l = launchAt s l := fun l => by rw [launchAt, h.launches, launchAt]
  have hkhw : ∀ w, khwOf t w = khwOf s w := fun w => by rw [khwOf, hlaunch, hlaunches, khwOf]
  have hmember : ∀ w c, clusterMember t w c = clusterMember s w c := fun w c => by
    simp only [clusterMember, clusterMembers, h.length, hcore, haligned, hstatus]
  have hversion : ∀ w, versionOf t w = versionOf s w := fun w => by rw [versionOf, hlevel, hkhw, versionOf]
  have hcontract : ∀ w, contractOf t w = contractOf s w := fun w => by rw [contractOf, hkhw, hversion, contractOf]
  have habsent : ∀ w c, formatAbsent t w c = formatAbsent s w c := fun w c => by rw [formatAbsent, hcontract, hversion, formatAbsent]
  have halloc : ∀ w c, allocOf t w c = allocOf s w c := fun w c => by
    unfold allocOf
    rw [hkhw]
  have hbad : ∀ w d, descBad t w d = descBad s w d := fun w d => by rw [descBad, hcore, descBad]
  have hfar : ∀ w d, descFar t w d = descFar s w d := fun w d => by rw [descFar, hcore, haligned, descFar]
  have hhome : ∀ w d, descHome t w d = descHome s w d := fun w d => by rw [descHome, hcore, hmember, descHome]
  have hbeyond : ∀ w d b r k, descBeyond t w d b r k = descBeyond s w d b r k := fun w d b r k => by
    simp only [descBeyond, hhome, halloc]
  have hformat : ∀ f cl wide, formatCheck t o n f cl wide = formatCheck s o n f cl wide := fun f cl wide => by
    simp only [formatCheck, hcontract, habsent, hbad]
  simp only [matCheck, hformat, hfar, hbeyond, halloc, hruns]

theorem ok_of_ite_error {ε α : Type} {c : Prop} [Decidable c] {e : ε} {x : Except ε α} {y : α} (h : (if c then .error e else x) = .ok y) :
    ¬c ∧ x = .ok y := by
  split at h
  next => cases h
  next hc => exact ⟨hc, h⟩

/-- The checks set nothing but the operation's run step. -/
theorem matCheck_ok {s : State} {o x : MatOp} {n : Nat} (h : matCheck s o n = .ok x) : ∃ r, x = { o with run := r } := by
  unfold matCheck at h
  dsimp only at h
  split at h
  · split at h
    · cases h
    · have hrun := (ok_of_ite_error (ok_of_ite_error h).2).2
      split at hrun
      · cases hrun
      · exact ⟨_, (Except.ok.inj hrun).symm⟩
  · exact ⟨o.run, (Except.ok.inj (ok_of_ite_error h).2).symm⟩
  · exact ⟨o.run, (Except.ok.inj h).symm⟩

/-- The number of an operation and its cluster's are no matter of the checks. -/
theorem matCheck_renumbered {s : State} {o x : MatOp} {n : Nat} (h : matCheck s o n = .ok x) (a : Nat) (c : Option Nat) :
    ∃ y, matCheck s { o with id := a, cluster := c } n = .ok y := by
  have hformat : ∀ f cl wide, formatCheck s { o with id := a, cluster := c } n f cl wide = formatCheck s o n f cl wide := fun _ _ _ => rfl
  unfold matCheck at h ⊢
  simp only [hformat]
  cases hf : matFields o.ins with
  | some p =>
    simp only [hf] at h ⊢
    split at h
    · cases h
    · obtain ⟨hnear, h⟩ := ok_of_ite_error h
      obtain ⟨hwithin, h⟩ := ok_of_ite_error h
      rw [if_neg hnear, if_neg hwithin]
      split at h
      · cases h
      · exact ⟨_, rfl⟩
  | none =>
    simp only [hf] at h ⊢
    cases ha : accFields o.ins with
    | some p =>
      simp only [ha] at h ⊢
      rw [if_neg (ok_of_ite_error h).1]
      exact ⟨_, rfl⟩
    | none => exact ⟨_, rfl⟩

/-! The operation that signatures stand for (R238, R240). -/

theorem opOf_congr {s t : State} {w q : Nat} (hv : (sqAt t w q).v = (sqAt s w q).v) (hq : (sqAt t w q).q = (sqAt s w q).q) (k : Nat) (c : Conv) (i : Instr)
    (p : Place) (id : Nat) (cl : Option Nat) : opOf t w q k c i p id cl = opOf s w q k c i p id cl := by
  simp only [opOf, readOperands, rowOf, vget, qget, hv, hq]

theorem opOf_clustered (s : State) (w q k : Nat) (c : Conv) (i : Instr) (p : Place) (id : Nat) (cl : Option Nat) :
    opOf s w q k c i p id cl = { opOf s w q k c i p id none with cluster := cl } := by
  unfold opOf readOperands
  dsimp only
  cases matFields i <;> rfl

/-- What an operation names beside its operands. -/
theorem opOf_names (s : State) (w q k : Nat) (c : Conv) (i : Instr) (p : Place) (id : Nat) (cl : Option Nat) :
    (opOf s w q k c i p id cl).wg = w ∧ (opOf s w q k c i p id cl).sq = q ∧ (opOf s w q k c i p id cl).conv = k
      ∧ (opOf s w q k c i p id cl).signers = c.signed ∧ (opOf s w q k c i p id cl).null = c.full.isEmpty
      ∧ (opOf s w q k c i p id cl).mf0 = c.mf0 ∧ (opOf s w q k c i p id cl).mf1 = c.mf1 := by
  unfold opOf readOperands
  dsimp only
  cases matFields i <;> exact ⟨rfl, rfl, rfl, rfl, rfl, rfl, rfl⟩

/-! What the steps of an issue keep. -/

/-- From one state to another operations are taken up: every thread of the bundle keeps its fate, every squad is there, workgroups stand on their cores, and
memory and the clusters' parts are as they were. -/
structure Engages (u : Bundle) (s t : State) : Prop where
  there : ∀ w q, isSquad s w q → isSquad t w q
  fates : keepsFates s t u
  core : ∀ w, (wgAt t w).core = (wgAt s w).core
  mem : t.mem = s.mem
  xc : t.xc = s.xc

section Engages

variable {u : Bundle}

theorem Engages.refl (s : State) : Engages u s s := ⟨fun _ _ => id, .refl s u, fun _ => rfl, rfl, rfl⟩

theorem Engages.trans {s t r : State} (h : Engages u s t) (k : Engages u t r) : Engages u s r :=
  ⟨fun w q => k.there w q ∘ h.there w q, h.fates.trans k.fates, fun w => (k.core w).trans (h.core w), k.mem.trans h.mem, k.xc.trans h.xc⟩

theorem Engages.foldl {α : Type} {f : State → α → State} (h : ∀ s x, Engages u s (f s x)) (l : List α) (s : State) : Engages u s (l.foldl f s) :=
  List.foldlRecOn l f (motive := Engages u s) (.refl s) (fun t ht x _ => ht.trans (h t x))

theorem isSquad_modSq_any {s : State} {w q v r : Nat} (f : Squad → Squad) (h : isSquad s v r) : isSquad (modSq s w q f) v r := by
  refine ⟨by simpa [modSq, modWg] using h.1, ?_⟩
  rw [show (wgAt (modSq s w q f) v).squads.length = (wgAt s v).squads.length from
    wgAt_modWg_keeps (fun g : Wg => g.squads.length) s w _ (fun g => modAt_length g.squads q f) v]
  exact h.2

theorem engages_modSq (s : State) (w q : Nat) (f : Squad → Squad)
    (hf : ∀ x : Squad, (f x).frontier = x.frontier ∧ (f x).overflow = x.overflow ∧ (f x).waiters = x.waiters ∧ (f x).parked = x.parked
      ∧ (f x).exited = x.exited) : Engages u s (modSq s w q f) := by
  refine ⟨fun v r => isSquad_modSq_any f, keepsFates_modSq s w q f u (fun x => ?_), (sameFrame_modSq s w q f).view Wg.core (fun _ => rfl), rfl, rfl⟩
  obtain ⟨h1, h2, h3, h4, h5⟩ := hf x
  exact Squad.grows_of_same h1 h2 h3 h4 h5

theorem engages_modWg (s : State) (w : Nat) (f : Wg → Wg) (hf : ∀ x, (f x).squads = x.squads) (hcore : ∀ x, (f x).core = x.core) :
    Engages u s (modWg s w f) :=
  ⟨fun _ _ => isSquad_modWg hf, keepsFates_modWg s w f u hf, wgAt_modWg_keeps Wg.core s w f hcore, rfl, rfl⟩

theorem engages_of_wgs {s t : State} (h : t.wgs = s.wgs) (hr : recordsOf t = recordsOf s) (hm : t.mem = s.mem) (hx : t.xc = s.xc) : Engages u s t :=
  ⟨fun w q k => by rwa [isSquad, wgAt, h], keepsFates_of_wgs h u (fun _ k => hr ▸ k), fun w => by rw [wgAt, h, wgAt], hm, hx⟩

theorem engages_modCore (s : State) (c : Nat) (f : CoreSt → CoreSt) : Engages u s (modCore s c f) := engages_of_wgs rfl rfl rfl rfl

end Engages

/-! The steps. -/

/-- The marks of supplied registers are all that they change of a squad (R240). -/
theorem supplies_eq (items : List Nat) (sq : Squad) : ∃ m, Squad.supplies items sq = { sq with marks := m } := by
  refine List.foldlRecOn (motive := fun x : Squad => ∃ m, x = { sq with marks := m }) items _ ⟨sq.marks, rfl⟩ (fun x hx _ _ => ?_)
  obtain ⟨m, rfl⟩ := hx
  exact ⟨_, rfl⟩

theorem view_supplies {α : Type} (view : Squad → α) (hv : ∀ sq m, view { sq with marks := m } = view sq) (items : List Nat) (sq : Squad) :
    view (Squad.supplies items sq) = view sq := by
  obtain ⟨m, hm⟩ := supplies_eq items sq
  rw [hm, hv]

theorem engages_supplied (t : State) (u v : Bundle) (c : Conv) (i : Instr) : Engages v t (supplied t u c i) := by
  refine .trans (t := { t with ids := t.ids + 1 }) (engages_of_wgs rfl rfl rfl rfl) (engages_modSq _ _ _ _ (fun x => ?_))
  obtain ⟨m, hm⟩ := supplies_eq (suppliedBy c i) x
  rw [hm]
  exact ⟨rfl, rfl, rfl, rfl, rfl⟩

theorem sameFrame_supplied (t : State) (u : Bundle) (c : Conv) (i : Instr) : SameFrame t (supplied t u c i) :=
  .trans (t := { t with ids := t.ids + 1 }) (sameFrame_of_wgs rfl rfl) (sameFrame_modSq ..)

theorem view_supplied {α : Type} (view : Squad → α) (hv : ∀ sq m, view { sq with marks := m } = view sq) (t : State) (u : Bundle) (c : Conv) (i : Instr)
    (w q : Nat) : view (sqAt (supplied t u c i) w q) = view (sqAt t w q) := by
  obtain hsame | hsame := sqAt_modSq_or { t with ids := t.ids + 1 } u.wg u.sq (Squad.supplies (suppliedBy c i)) w q
  · rw [supplied, hsame]
    rfl
  · rw [supplied, hsame, view_supplies view hv]
    rfl

theorem engages_setConv (s : State) (u : Bundle) (w q k : Nat) (c : Squad → Conv) : Engages u s (modSq s w q (fun sq => setConv sq k (c sq))) :=
  engages_modSq s w q _ (fun _ => ⟨rfl, rfl, rfl, rfl, rfl⟩)

theorem convOf_setConv (sq : Squad) (k j : Nat) (c : Conv) : convOf (setConv sq k c) j = if j = k then c else convOf sq j := by
  unfold convOf setConv
  dsimp only
  split
  next h => rw [h, Map.getD_put_self]
  next h => rw [Map.getD_put_ne _ _ _ _ _ h]

/-- A closed register is declared and empty; the others are as they were. -/
theorem convOf_closeConv {s : State} {w q k : Nat} (h : isSquad s w q) (v r j : Nat) : convOf (sqAt (closeConv s w q k) v r) j
    = if v = w ∧ r = q ∧ j = k then (convOf (sqAt s w q) k).aborted else convOf (sqAt s v r) j := by
  unfold closeConv
  by_cases hsame : v = w ∧ r = q
  · obtain ⟨rfl, rfl⟩ := hsame
    rw [sqAt_modSq_self _ _ _ _ h.1 h.2, convOf_setConv]
    simp only [true_and]
    rfl
  · rw [sqAt_modSq_ne _ _ _ _ _ _ (by omega), if_neg (by omega)]

theorem modWg_modWg (s : State) (w : Nat) (f g : Wg → Wg) : modWg (modWg s w f) w g = modWg s w (fun x => g (f x)) := by
  simp only [modWg, modAt_modAt]

/-- An operation in the queue of its core, with its issuer changed and its squad's counter raised. -/
def queued (s : State) (o : MatOp) (v : Bool) (f : Wg → Wg) : State :=
  modCore (modSq (modWg s o.wg f) o.wg o.sq (fun sq => perfAdd sq 7 1)) (wgAt s o.wg).core
    (fun c => { c with mat := c.mat ++ [{ o with spoilt := v, prior := (wgAt s o.wg).runs }] })

/-- A change of a workgroup that its squads and its core do not feel. -/
def keepsPlace (f : Wg → Wg) : Prop := ∀ g, (f g).squads = g.squads ∧ (f g).core = g.core

theorem queued_eq {s : State} {o : MatOp} {f : Wg → Wg} (hf : keepsPlace f) (v : Bool) :
    modCore (modSq (modWg s o.wg f) o.wg o.sq (fun sq => perfAdd sq 7 1))
      (wgAt (modSq (modWg s o.wg f) o.wg o.sq (fun sq => perfAdd sq 7 1)) o.wg).core
      (fun c => { c with mat := c.mat ++ [{ o with spoilt := v, prior := (wgAt s o.wg).runs }] }) = queued s o v f := by
  have hcore := wgAt_modWg_keeps Wg.core s o.wg f (fun g => (hf g).2) o.wg
  rw [(sameFrame_modSq (modWg s o.wg f) o.wg o.sq (fun sq => perfAdd sq 7 1)).view Wg.core (fun _ => rfl) o.wg, hcore, queued]

theorem ite_modWg (s : State) (w : Nat) (f : Wg → Wg) (c : Prop) [Decidable c] :
    (if c then modWg s w f else s) = modWg s w (fun g => if c then f g else g) := by
  split
  · rfl
  · exact (congrArg (fun l => { s with wgs := l }) (modAt_same (fun g : Wg => g) (fun _ => rfl) s.wgs w)).symm

theorem view_ite {α : Type} (view : Wg → α) {c : Prop} {_ : Decidable c} {x y : Wg} (h : view y = view x) : view (if c then y else x) = view x := by
  split
  · exact h
  · rfl

/-- The issue of an operation queues it; its runs are noted in its issuer (R233, R248). -/
theorem pushOp_queues (s : State) (o : MatOp) : ∃ v f, keepsPlace f ∧ pushOp s o = queued s o v f := by
  unfold pushOp
  dsimp only
  rw [ite_modWg, modWg_modWg]
  refine ⟨_, _, ?place, queued_eq ?place _⟩
  exact fun g => ⟨view_ite Wg.squads rfl, view_ite Wg.core rfl⟩

theorem engages_pushOp (u : Bundle) (s : State) (o : MatOp) : Engages u s (pushOp s o) := by
  obtain ⟨v, f, hf, h⟩ := pushOp_queues s o
  rw [h]
  exact .trans (engages_modWg s o.wg f (fun g => (hf g).1) (fun g => (hf g).2))
    (.trans (engages_modSq _ o.wg o.sq (fun sq => perfAdd sq 7 1) (fun _ => ⟨rfl, rfl, rfl, rfl, rfl⟩)) (engages_modCore ..))

theorem convOf_pushOp (s : State) (o : MatOp) (w q k : Nat) : convOf (sqAt (pushOp s o) w q) k = convOf (sqAt s w q) k := by
  obtain ⟨v, f, hf, h⟩ := pushOp_queues s o
  have hsq := sqAt_modWg_keeps s o.wg f (fun g => (hf g).1) w q
  have hcore : ∀ (t : State) c g, sqAt (modCore t c g) w q = sqAt t w q := fun _ _ _ => rfl
  rw [h, queued, hcore]
  obtain hsame | hsame := sqAt_modSq_or (modWg s o.wg f) o.wg o.sq (fun sq => perfAdd sq 7 1) w q <;> rw [hsame, hsq]
  rfl

theorem mat_pushOp_self (s : State) (o : MatOp) : ∃ v, (coreAt (pushOp s o) (wgAt s o.wg).core).mat
    = (coreAt s (wgAt s o.wg).core).mat ++ [{ o with spoilt := v, prior := (wgAt s o.wg).runs }] := by
  obtain ⟨v, f, -, h⟩ := pushOp_queues s o
  refine ⟨v, ?_⟩
  rw [h, queued, coreAt_modCore_self]
  rfl

theorem coreAt_pushOp_ne (s : State) (o : MatOp) {d : Nat} (hd : d ≠ (wgAt s o.wg).core) : coreAt (pushOp s o) d = coreAt s d := by
  obtain ⟨v, f, -, h⟩ := pushOp_queues s o
  rw [h, queued, coreAt_modCore_ne _ _ _ _ hd]
  rfl

theorem issueOp_of_passes {s : State} {o x : MatOp} {n : Nat} (hd : (wgAt s o.wg).discard = []) (hn : o.null = false) (hc : matCheck s o n = .ok x) :
    issueOp s o n = pushOp s x := by
  unfold issueOp discarding
  rw [hd, hn, hc]
  rfl

/-! The bundle has advanced, and its registers are marked. -/

theorem ids_advance (s : State) (u : Bundle) (m : BitVec 32) : (advance s u m).ids = s.ids := by
  unfold advance
  dsimp only
  split
  · rfl
  · split <;> rfl

section Advanced

variable {s : State} {u : Bundle} {k : BitVec 3} {i : Instr}

/-- The machine with the threads of a bundle gone on. -/
def signedOn (s : State) (u : Bundle) : State := advance s.handed u u.e.mask

theorem still_signedOn (s : State) (u : Bundle) : still (signedOn s u) = still s := (still_advance s.handed u u.e.mask).trans (still_handed s)

theorem signedOn_met (h : Issuing s u) {l : Nat} (hl : inMask u.e.mask l = true) : met (signedOn s u) u l (.on u.next) :=
  advance_met _ u _ l h.handed.1 h.handed.2 hl

theorem isSquad_signedOn (h : Issuing s u) : isSquad (signedOn s u) u.wg u.sq := isSquad_of_still (still_signedOn s u).symm h.present

theorem sameFrame_marked (s : State) (u : Bundle) (c : Conv) (j : Instr) : SameFrame s (supplied (signedOn s u) u c j) :=
  (sameFrame_of_still (still_signedOn s u)).trans (sameFrame_supplied ..)

theorem view_marked {α : Type} (view : Squad → α) (hv : ∀ sq m, view { sq with marks := m } = view sq) (hs : ∀ sq : Squad, view sq.still = view sq)
    (s : State) (u : Bundle) (c : Conv) (j : Instr) (w q : Nat) : view (sqAt (supplied (signedOn s u) u c j) w q) = view (sqAt s w q) :=
  (view_supplied view hv (signedOn s u) u c j w q).trans (sqView_of_still view hs (still_signedOn s u) w q)

/-- The operation of a complete set of signatures is read as it stood before the issue, but for its number and its cluster's. -/
theorem opOf_marked (s : State) (u : Bundle) (k : Nat) (c d : Conv) (j : Instr) (p : Place) (cl : Option Nat) :
    opOf (supplied (signedOn s u) u d j) u.wg u.sq k c j p (signedOn s u).ids cl = opOf s u.wg u.sq k c j p s.ids cl := by
  rw [show (signedOn s u).ids = s.ids from ids_advance s.handed u u.e.mask]
  exact opOf_congr (view_marked Squad.v (fun _ _ => rfl) (fun _ => rfl) s u d j u.wg u.sq)
    (view_marked Squad.q (fun _ _ => rfl) (fun _ => rfl) s u d j u.wg u.sq) k c j p s.ids cl

/-- What stands before the issue of a core form: its bundle gone on, its registers marked, its register closed. -/
def closedOn (s : State) (u : Bundle) (k : Nat) (c : Conv) (j : Instr) : State :=
  closeConv (modSq (supplied (signedOn s u) u c j) u.wg u.sq (fun sq => setConv sq k c)) u.wg u.sq k

theorem engages_closedOn (s : State) (u : Bundle) (k : Nat) (c : Conv) (j : Instr) : Engages u (signedOn s u) (closedOn s u k c j) :=
  (engages_supplied ..).trans ((engages_setConv ..).trans (engages_setConv ..))

theorem sameFrame_closedOn (s : State) (u : Bundle) (k : Nat) (c : Conv) (j : Instr) : SameFrame s (closedOn s u k c j) :=
  (sameFrame_marked s u c j).trans ((sameFrame_modSq ..).trans (sameFrame_modSq ..))

theorem cores_closedOn (s : State) (u : Bundle) (k : Nat) (c : Conv) (j : Instr) : (closedOn s u k c j).cores = s.cores := by
  have h := cores_of_still (still_signedOn s u)
  exact h

theorem convOf_closedOn (h : Issuing s u) (k : Nat) (c : Conv) (j : Instr) : convOf (sqAt (closedOn s u k c j) u.wg u.sq) k = c.aborted := by
  have hs : isSquad (supplied (signedOn s u) u c j) u.wg u.sq := (engages_supplied (v := u) ..).there _ _ (isSquad_signedOn h)
  rw [closedOn, convOf_closeConv (isSquad_modSq _ hs), if_pos ⟨rfl, rfl, rfl⟩, sqAt_modSq_self _ _ _ _ hs.1 hs.2, convOf_setConv, if_pos rfl]

end Advanced

/-! The last signature of a core form (R96, R232, R238, R252). -/

section LastSignature

variable {s : State} {u : Bundle} {k : BitVec 3} {i : Instr} {cl : Bool}

theorem exec_signs_last (hi : signsAs i k cl) (h : Issuing s u) (hm : maySign s u k i cl)
    (hlast : (convAt s u k).signed.length + (lanesOf u.e.mask).length = (convAt s u k).count) : exec i s
      = .next (if cl then partJoined (signedOn s u) u (wgAt (signedOn s u) u.wg).core k.toNat (signedConv s u k i) (firstOf (signedConv s u k i) u i)
          else lastSigned (signedOn s u) u k.toNat (signedConv s u k i) (firstOf (signedConv s u k i) u i)) := by
  have hnot : ¬((signedConv s u k i).signed.length < (signedConv s u k i).count) := by
    rw [length_signed, hlast]
    exact Nat.lt_irrefl _
  have hbound : (signedConv s u k i).bound = cl := hm.2.2.1
  rw [exec_signs hi h hm, addSignatures_eq (convOf_advanced s u k), if_neg hnot, hbound]
  rfl

theorem lastSigned_marked (c : Conv) (first : Instr × Place) : lastSigned (signedOn s u) u k.toNat c first
    = issueOp (closedOn s u k.toNat c first.1) (opOf s u.wg u.sq k.toNat c first.1 first.2 s.ids none) c.count := by
  rw [lastSigned, opOf_marked]
  rfl

theorem coreForm_issues (hi : signsAs i k false) (h : Issuing s u) (hm : maySign s u k i false)
    (hlast : (convAt s u k).signed.length + (lanesOf u.e.mask).length = (convAt s u k).count) (hd : (wgAt s u.wg).discard = [])
    (hfull : (signedConv s u k i).full ≠ []) {o : MatOp}
    (hcheck : matCheck s (opOf s u.wg u.sq k.toNat (signedConv s u k i) (firstOf (signedConv s u k i) u i).1 (firstOf (signedConv s u k i) u i).2 s.ids none)
      (signedConv s u k i).count = .ok o) :
    ∃ t, exec i s = .next t
      ∧ convAt t u k = { convAt s u k with st := 1, signed := [], full := [], open_ := none }
      ∧ (∃ v, (coreAt t (wgAt s u.wg).core).mat = (coreAt s (wgAt s u.wg).core).mat ++ [{ o with spoilt := v, prior := (wgAt s u.wg).runs }])
      ∧ (∀ z, Memory.read t.mem z = Memory.read s.mem z)
      ∧ ∀ l, l < 32 → inMask u.e.mask l = true → met t u l (.on u.next) := by
  generalize hfirst : firstOf (signedConv s u k i) u i = first at hcheck
  obtain ⟨hwg, -, -, -, hnull, -, -⟩ := opOf_names s u.wg u.sq k.toNat (signedConv s u k i) first.1 first.2 s.ids none
  have hframe := sameFrame_closedOn s u k.toNat (signedConv s u k i) first.1
  have hengages := (engages_closedOn s u k.toNat (signedConv s u k i) first.1).trans (engages_pushOp u _ o)
  have howg : o.wg = u.wg := by
    obtain ⟨r, rfl⟩ := matCheck_ok hcheck
    exact hwg
  have hissue : issueOp (closedOn s u k.toNat (signedConv s u k i) first.1)
      (opOf s u.wg u.sq k.toNat (signedConv s u k i) first.1 first.2 s.ids none) (signedConv s u k i).count
      = pushOp (closedOn s u k.toNat (signedConv s u k i) first.1) o := by
    refine issueOp_of_passes ?_ ?_ ?_
    · rw [hwg, hframe.view Wg.discard (fun _ => rfl), hd]
    · rw [hnull]
      exact List.isEmpty_eq_false_iff.2 hfull
    · rw [matCheck_congr hframe, hcheck]
  refine ⟨pushOp (closedOn s u k.toNat (signedConv s u k i) first.1) o, ?_, ?_, ?_, fun z => ?_, fun l _ hl => ?_⟩
  · rw [exec_signs_last hi h hm hlast, hfirst, if_neg Bool.false_ne_true, lastSigned_marked, hissue]
  · rw [convAt, squadOf, convOf_pushOp, convOf_closedOn h]
    rfl
  · obtain ⟨v, hv⟩ := mat_pushOp_self (closedOn s u k.toNat (signedConv s u k i) first.1) o
    have hview : ∀ {α : Type} (view : Wg → α), (∀ g : Wg, view g.frame = view g) →
        view (wgAt (closedOn s u k.toNat (signedConv s u k i) first.1) o.wg) = view (wgAt s u.wg) := fun view hv => by
      rw [howg, hframe.view view hv]
    have hcore := hview Wg.core (fun _ => rfl)
    have hruns := hview Wg.runs (fun _ => rfl)
    have hcoreAt : ∀ d, coreAt (closedOn s u k.toNat (signedConv s u k i) first.1) d = coreAt s d := fun d => by rw [coreAt, cores_closedOn, coreAt]
    rw [hcore, hruns, hcoreAt] at hv
    exact ⟨v, hv⟩
  · rw [hengages.mem, mem_of_still (still_signedOn s u)]
  · exact hengages.fates l _ (signedOn_met h hl)

/-! The last signature on a core of a cluster form (R96, R249). -/

/-- What stands before a part of a cluster operation joins the others: its bundle gone on, its registers marked, its register waiting. -/
def waitingOn (s : State) (u : Bundle) (k : Nat) (c : Conv) (j : Instr) : State :=
  modSq (supplied (signedOn s u) u c j) u.wg u.sq (fun sq => setConv sq k { c with st := 3 })

theorem engages_waitingOn (s : State) (u : Bundle) (k : Nat) (c : Conv) (j : Instr) : Engages u (signedOn s u) (waitingOn s u k c j) :=
  (engages_supplied ..).trans (engages_setConv ..)

theorem sameFrame_waitingOn (s : State) (u : Bundle) (k : Nat) (c : Conv) (j : Instr) : SameFrame s (waitingOn s u k c j) :=
  (sameFrame_marked s u c j).trans (sameFrame_modSq ..)

theorem coreAt_waitingOn (s : State) (u : Bundle) (k : Nat) (c : Conv) (j : Instr) (d : Nat) : coreAt (waitingOn s u k c j) d = coreAt s d := by
  have h : (waitingOn s u k c j).cores = s.cores := by
    have h := cores_of_still (still_signedOn s u)
    exact h
  rw [coreAt, h, coreAt]

theorem isSquad_supplied (h : Issuing s u) (c : Conv) (j : Instr) : isSquad (supplied (signedOn s u) u c j) u.wg u.sq :=
  (engages_supplied (v := u) ..).there _ _ (isSquad_signedOn h)

theorem convOf_waitingOn_self (h : Issuing s u) (k : Nat) (c : Conv) (j : Instr) : convOf (sqAt (waitingOn s u k c j) u.wg u.sq) k = { c with st := 3 } := by
  have hs := isSquad_supplied h c j
  rw [waitingOn, sqAt_modSq_self _ _ _ _ hs.1 hs.2, convOf_setConv, if_pos rfl]

/-- The parts that other cores have signed, where this one has not. -/
theorem otherParts_signedOn {ps : List (Nat × MatOp)} {core k : Nat} (hps : Map.getD s.xc (core / 4 * 4 + k) [] = ps) (hother : ∀ p ∈ ps, p.1 ≠ core % 4) :
    otherParts (signedOn s u) core k = ps := by
  have hxc : (signedOn s u).xc = s.xc := by
    have h := congrArg State.xc (still_signedOn s u)
    exact h
  rw [otherParts, hxc, hps, List.filter_eq_self]
  exact fun p hp => bne_iff_ne.2 (hother p hp)

/-- The part of a cluster operation, as the machine stands before the issue. -/
theorem ownPart_signedOn (core k : Nat) (c : Conv) (first : Instr × Place) :
    ∃ cl, ownPart (signedOn s u) u core k c first = opOf s u.wg u.sq k c first.1 first.2 s.ids cl := ⟨_, opOf_marked s u k c c first.1 first.2 _⟩

theorem clusterForm_waits (hi : signsAs i k true) (h : Issuing s u) (hm : maySign s u k i true)
    (hlast : (convAt s u k).signed.length + (lanesOf u.e.mask).length = (convAt s u k).count) {ps : List (Nat × MatOp)}
    (hps : Map.getD s.xc ((wgAt s u.wg).core / 4 * 4 + k.toNat) [] = ps) (hlen : ps.length < 3) (hother : ∀ p ∈ ps, p.1 ≠ (wgAt s u.wg).core % 4) :
    ∃ t p, exec i s = .next t ∧ (convAt t u k).st = 3
      ∧ Map.find t.xc ((wgAt s u.wg).core / 4 * 4 + k.toNat) = some (ps ++ [((wgAt s u.wg).core % 4, p)])
      ∧ p.signers = (signedConv s u k i).signed ∧ p.mf0 = (convAt s u k).mf0 ∧ p.mf1 = (convAt s u k).mf1
      ∧ (∀ c, (coreAt t c).mat = (coreAt s c).mat)
      ∧ ∀ l, l < 32 → inMask u.e.mask l = true → met t u l (.on u.next) := by
  have hcore : (wgAt (signedOn s u) u.wg).core = (wgAt s u.wg).core := (sameFrame_of_still (still_signedOn s u)).view Wg.core (fun _ => rfl) u.wg
  generalize (wgAt s u.wg).core = core at *
  generalize hfirst : firstOf (signedConv s u k i) u i = first
  obtain ⟨cl, hpart⟩ := ownPart_signedOn (s := s) (u := u) core k.toNat (signedConv s u k i) first
  obtain ⟨-, -, -, hsigners, -, hmf0, hmf1⟩ := opOf_names s u.wg u.sq k.toNat (signedConv s u k i) first.1 first.2 s.ids cl
  have hothers := otherParts_signedOn (u := u) hps hother
  have hparts : (ps ++ [(core % 4, opOf s u.wg u.sq k.toNat (signedConv s u k i) first.1 first.2 s.ids cl)]).length < 4 := by
    rw [List.length_append, List.length_singleton]
    omega
  have hxc : (waitingOn s u k.toNat (signedConv s u k i) first.1).xc = s.xc := by
    have h := congrArg State.xc (still_signedOn s u)
    exact h
  refine ⟨{ waitingOn s u k.toNat (signedConv s u k i) first.1 with
    xc := Map.put s.xc (core / 4 * 4 + k.toNat) (ps ++ [(core % 4, opOf s u.wg u.sq k.toNat (signedConv s u k i) first.1 first.2 s.ids cl)]) }, _, ?_,
    ?_, Map.find_put_self _ _ _, hsigners, hmf0, hmf1, fun d => ?_, fun l _ hl => ?_⟩
  · rw [exec_signs_last hi h hm hlast, hcore, hfirst, if_pos rfl, partJoined]
    dsimp only
    rw [hothers, hpart, if_pos hparts, ← hxc]
    rfl
  · exact congrArg Conv.st (convOf_waitingOn_self h k.toNat (signedConv s u k i) first.1)
  · exact congrArg CoreSt.mat (coreAt_waitingOn s u k.toNat (signedConv s u k i) first.1 d)
  · refine ((engages_waitingOn s u k.toNat (signedConv s u k i) first.1).fates.trans ?_) l _ (signedOn_met h hl)
    exact keepsFates_of_wgs rfl u (fun _ hr => hr)

end LastSignature

end Sys2Proof.Machine
end

section
/-! PROOF. The last set of a cluster operation: its parts issue together, or are aborted where they do not agree (R96, R238, R249). -/

namespace Sys2Proof.Machine

/-! A fold with one step for each of several places. -/

/-- A fold over distinct elements that keeps `before` until it comes to `k`, whose step brings about `after`, which the later steps keep. -/
theorem foldl_once {α β : Type} {f : β → α → β} {before after : β → Prop} {k : α} {l : List α} (hnodup : l.Nodup) (hin : k ∈ l)
    (hbefore : ∀ s, ∀ j ∈ l, j ≠ k → before s → before (f s j)) (hk : ∀ s, before s → after (f s k))
    (hafter : ∀ s, ∀ j ∈ l, j ≠ k → after s → after (f s j)) (s : β) (h : before s) : after (l.foldl f s) := by
  obtain ⟨xs, ys, rfl⟩ := List.append_of_mem hin
  obtain ⟨-, hys, hdisjoint⟩ := List.nodup_append.1 hnodup
  have hx : ∀ j ∈ xs, j ≠ k := fun j hj e => hdisjoint j hj k List.mem_cons_self e
  have hy : ∀ j ∈ ys, j ≠ k := fun j hj e => (List.nodup_cons.1 hys).1 (e ▸ hj)
  rw [List.foldl_append, List.foldl_cons]
  refine List.foldlRecOn (motive := after) ys f (hk _ ?_) (fun t ht j hj => hafter t j (by simp [hj]) (hy j hj) ht)
  exact List.foldlRecOn (motive := before) xs f h (fun t ht j hj => hbefore t j (by simp [hj]) (hx j hj) ht)

/-! Parts that agree (R249). -/

/-- What the parts of a cluster operation have to agree in. -/
def partKey (x : MatOp) : Word × Word × DWord × Option (Nat × Nat × Bool) :=
  (x.mf0, x.mf1, x.descB, (matFields x.ins).map (fun f => (f.1.r, f.2.1, f.1.y)))

theorem partsAgree_iff (x y : MatOp) : partsAgree x y = true ↔ partKey x = partKey y := by
  simp [partsAgree, partKey, and_assoc]

/-! Registers that close. -/

/-- A step that closes the register of a part, and no other. -/
def closesPart (f : State → MatOp → State) : Prop := ∀ t o v r j, isSquad t v r → isSquad (f t o) v r
  ∧ convOf (sqAt (f t o) v r) j = if v = o.wg ∧ r = o.sq ∧ j = o.conv then (convOf (sqAt t v r) j).aborted else convOf (sqAt t v r) j

theorem closed_foldl {f : State → MatOp → State} (hf : closesPart f) {ps : List MatOp} {o : MatOp} (ho : o ∈ ps) {t : State} (h : isSquad t o.wg o.sq) :
    convOf (sqAt (ps.foldl f t) o.wg o.sq) o.conv = (convOf (sqAt t o.wg o.sq) o.conv).aborted := by
  have hstep : ∀ (r : State) (j : MatOp), isSquad r o.wg o.sq →
      (convOf (sqAt r o.wg o.sq) o.conv = convOf (sqAt t o.wg o.sq) o.conv ∨ convOf (sqAt r o.wg o.sq) o.conv = (convOf (sqAt t o.wg o.sq) o.conv).aborted) →
      (convOf (sqAt (f r j) o.wg o.sq) o.conv = convOf (sqAt r o.wg o.sq) o.conv
        ∨ convOf (sqAt (f r j) o.wg o.sq) o.conv = (convOf (sqAt t o.wg o.sq) o.conv).aborted) := fun r j hr hconv => by
    rw [(hf r j o.wg o.sq o.conv hr).2]
    split
    · refine .inr ?_
      obtain e | e := hconv <;> rw [e]
      rfl
    · exact .inl rfl
  refine (foldl_establishes (k := o)
    (before := fun r => isSquad r o.wg o.sq ∧ (convOf (sqAt r o.wg o.sq) o.conv = convOf (sqAt t o.wg o.sq) o.conv
      ∨ convOf (sqAt r o.wg o.sq) o.conv = (convOf (sqAt t o.wg o.sq) o.conv).aborted))
    (after := fun r => isSquad r o.wg o.sq ∧ convOf (sqAt r o.wg o.sq) o.conv = (convOf (sqAt t o.wg o.sq) o.conv).aborted)
    (fun r j _ hr => ⟨(hf r j _ _ 0 hr.1).1, ?_⟩) (fun r hr => ⟨(hf r o _ _ 0 hr.1).1, ?_⟩) (fun r j hr => ⟨(hf r j _ _ 0 hr.1).1, ?_⟩) ps ho t ⟨h, .inl rfl⟩).2
  · obtain e | e := hstep r j hr.1 hr.2
    · rw [e]
      exact hr.2
    · exact .inr e
  · rw [(hf r o o.wg o.sq o.conv hr.1).2, if_pos ⟨rfl, rfl, rfl⟩]
    obtain e | e := hr.2 <;> rw [e]
    rfl
  · obtain e | e := hstep r j hr.1 (.inr hr.2)
    · rw [e]
      exact hr.2
    · exact e

/-- A part's register closes. -/
def partClosed (t : State) (o : MatOp) : State := closeConv t o.wg o.sq o.conv

/-- A part's operation is aborted. -/
def partAborted (t : State) (o : MatOp) : State := abortConv t o.wg o.sq o.conv 1

theorem closesPart_partClosed : closesPart partClosed := by
  refine fun t o v r j h => ⟨isSquad_modSq_any _ h, ?_⟩
  by_cases hsame : v = o.wg ∧ r = o.sq
  · obtain ⟨rfl, rfl⟩ := hsame
    rw [partClosed, convOf_closeConv h]
    split
    next hj => rw [hj.2.2]
    next => rfl
  · rw [partClosed, closeConv, sqAt_modSq_ne _ _ _ _ _ _ (by omega), if_neg (by tauto)]

theorem abortConv_reports (s : State) (w q k sub : Nat) : ∃ d, abortConv s w q k sub = modSq s w q (abortedConv k (convOf (sqAt s w q) k) d)
    ∨ ∃ lb lane r, abortConv s w q k sub = reportThread (modSq s w q (abortedConv k (convOf (sqAt s w q) k) d)) w q lb lane r := by
  obtain ⟨d, t, rfl, ⟨h, -⟩ | ⟨lb, lane, cls, p, h⟩⟩ := abortConv_cases s w q k sub
  · exact ⟨d, .inl h⟩
  · exact ⟨d, .inr ⟨_, _, _, h⟩⟩

theorem engages_reportThread (u : Bundle) (s : State) (w q lb lane : Nat) (r : List Word) : Engages u s (reportThread s w q lb lane r) := by
  have hstill := still_reportThread s w q lb lane r
  have hxc := congrArg State.xc hstill
  exact ⟨fun _ _ => isSquad_of_still hstill.symm, keepsFates_reportThread s w q lb lane r u, (sameFrame_of_still hstill).view Wg.core (fun _ => rfl),
    mem_of_still hstill, hxc⟩

theorem engages_partAborted (u : Bundle) (s : State) (o : MatOp) : Engages u s (partAborted s o) := by
  have hmod : ∀ c d, Engages u s (modSq s o.wg o.sq (abortedConv o.conv c d)) := fun c d => engages_modSq _ _ _ _ (fun _ => ⟨rfl, rfl, rfl, rfl, rfl⟩)
  obtain ⟨d, h | ⟨lb, lane, r, h⟩⟩ := abortConv_reports s o.wg o.sq o.conv 1 <;> rw [partAborted, h]
  · exact hmod _ d
  · exact (hmod _ d).trans (engages_reportThread ..)

theorem cores_partAborted (s : State) (o : MatOp) : (partAborted s o).cores = s.cores := by
  obtain ⟨d, h | ⟨lb, lane, r, h⟩⟩ := abortConv_reports s o.wg o.sq o.conv 1 <;> rw [partAborted, h]
  · rfl
  · rw [cores_of_still (still_reportThread ..)]
    rfl

theorem sqAt_partAborted_ne (s : State) (o : MatOp) {v r : Nat} (h : v ≠ o.wg ∨ r ≠ o.sq) : sqAt (partAborted s o) v r = sqAt s v r := by
  obtain ⟨d, e | ⟨lb, lane, rec, e⟩⟩ := abortConv_reports s o.wg o.sq o.conv 1 <;> rw [partAborted, e]
  · exact sqAt_modSq_ne _ _ _ _ _ _ h
  · rw [sqAt_of_wgs (wgs_reportThread ..), sqAt_modSq_ne _ _ _ _ _ _ h]

theorem isSquad_partAborted {s : State} (o : MatOp) {v r : Nat} (h : isSquad s v r) : isSquad (partAborted s o) v r := by
  obtain ⟨d, e | ⟨lb, lane, rec, e⟩⟩ := abortConv_reports s o.wg o.sq o.conv 1 <;> rw [partAborted, e]
  · exact isSquad_modSq_any _ h
  · exact isSquad_of_still (still_reportThread ..).symm (isSquad_modSq_any _ h)

theorem closesPart_partAborted : closesPart partAborted := by
  refine fun t o v r j h => ⟨isSquad_partAborted o h, ?_⟩
  by_cases hsame : v = o.wg ∧ r = o.sq
  · obtain ⟨rfl, rfl⟩ := hsame
    rw [partAborted, convOf_abortConv h]
    simp only [true_and]
    split
    next hj => rw [hj]
    next => rfl
  · rw [sqAt_partAborted_ne t o (by omega), if_neg (by tauto)]

/-! The parts take their numbers. -/

/-- The parts of a cluster operation, numbered after every operation issued before. -/
def renumbered (n : Nat) (l : List MatOp) : List MatOp := l.zipIdx.map (fun p => { p.1 with id := n + p.2 })

theorem mem_of_renumbered {n : Nat} {l : List MatOp} {o : MatOp} (h : o ∈ renumbered n l) : ∃ x ∈ l, ∃ a, o = { x with id := a } := by
  obtain ⟨p, hp, rfl⟩ := List.mem_map.1 h
  refine ⟨p.1, ?_, _, rfl⟩
  rw [← List.zipIdx_map_fst 0 l]
  exact List.mem_map_of_mem hp

theorem renumbered_of_mem {n : Nat} {l : List MatOp} {x : MatOp} (h : x ∈ l) : ∃ a, { x with id := a } ∈ renumbered n l := by
  rw [← List.zipIdx_map_fst 0 l] at h
  obtain ⟨p, hp, rfl⟩ := List.mem_map.1 h
  exact ⟨_, List.mem_map_of_mem hp⟩

theorem map_renumbered {α : Type} (view : MatOp → α) (hv : ∀ o a, view { o with id := a } = view o) (n : Nat) (l : List MatOp) :
    (renumbered n l).map view = l.map view := by
  rw [renumbered, List.map_map, ← congrArg (List.map view) (List.zipIdx_map_fst 0 l), List.map_map]
  exact List.map_congr_left (fun p _ => hv p.1 _)

/-- The signers that a part's register counts. -/
def countOf (s : State) (o : MatOp) : Nat := (convOf (sqAt s o.wg o.sq) o.conv).count

/-- A part as the checks let it issue. -/
def takenPart (s : State) (o : MatOp) : Except (Nat × Nat) MatOp := if o.null then .ok o else matCheck s o (countOf s o)

/-- A part issues, where the checks let it. -/
def partPushed (s t : State) (o : MatOp) : State :=
  match takenPart s o with
  | .ok o => pushOp t o
  | .error _ => t

/-- The machine with numbers taken for the parts of a cluster operation. -/
def partsNumbered (s : State) (n : Nat) : State := { s with ids := s.ids + n }

theorem takenPart_partsNumbered (s : State) (n : Nat) (o : MatOp) : takenPart (partsNumbered s n) o = takenPart s o := by
  rw [takenPart, matCheck_congr (s := s) (t := partsNumbered s n) (sameFrame_of_wgs rfl rfl), takenPart]
  rfl

theorem partKey_of_renumbered {n : Nat} {l : List MatOp} {o : MatOp} (h : o ∈ renumbered n l) : ∃ x ∈ l, partKey o = partKey x := by
  obtain ⟨x, hx, a, rfl⟩ := mem_of_renumbered h
  exact ⟨x, hx, rfl⟩

theorem issueCluster_of_agree {s : State} {l : List MatOp} (hne : l ≠ []) (hagree : ∀ x ∈ l, ∀ y ∈ l, partKey x = partKey y)
    (hdiscard : ∀ o ∈ l, (wgAt s o.wg).discard = []) (htaken : ∀ o ∈ l, ∀ a, ∃ x, takenPart s { o with id := a } = .ok x) :
    issueCluster s l = (renumbered s.ids l).foldl (partPushed (partsNumbered s (renumbered s.ids l).length))
      ((renumbered s.ids l).foldl partClosed (partsNumbered s (renumbered s.ids l).length)) := by
  have hall : ∀ x ∈ renumbered s.ids l, ∀ y ∈ renumbered s.ids l, partKey x = partKey y := fun x hx y hy => by
    obtain ⟨x', hx', ex⟩ := partKey_of_renumbered hx
    obtain ⟨y', hy', ey⟩ := partKey_of_renumbered hy
    rw [ex, ey, hagree x' hx' y' hy']
  have hfree : ∀ o ∈ renumbered s.ids l, discarding (wgAt s o.wg) = false ∧ ∃ x, takenPart s o = .ok x := fun o ho => by
    obtain ⟨x, hx, a, rfl⟩ := mem_of_renumbered ho
    exact ⟨by rw [discarding, hdiscard x hx]; rfl, htaken x hx a⟩
  cases hps : renumbered s.ids l with
  | nil => exact absurd (List.map_eq_nil_iff.1 (hps.symm ▸ map_renumbered MatOp.wg (fun _ _ => rfl) s.ids l).symm) hne
  | cons p rest =>
    rw [hps] at hall hfree
    have hsame : (!rest.all (partsAgree p)) = false := by
      rw [Bool.not_eq_false', List.all_eq_true]
      exact fun y hy => (partsAgree_iff p y).2 (hall p List.mem_cons_self y (List.mem_cons_of_mem _ hy))
    have hbad : ((p :: rest).findSome? (fun o => if o.null || discarding (wgAt (partsNumbered s (p :: rest).length) o.wg) then none
        else match matCheck (partsNumbered s (p :: rest).length) o (countOf (partsNumbered s (p :: rest).length) o) with
          | .error e => some e
          | .ok _ => none)) = none := by
      refine List.findSome?_eq_none_iff.2 (fun o ho => ?_)
      obtain ⟨hgo, x, hx⟩ := hfree o ho
      rw [← takenPart_partsNumbered s (p :: rest).length, takenPart] at hx
      split
      · rfl
      next hnull =>
        rw [if_neg (fun h => hnull (by rw [h]; rfl))] at hx
        rw [hx]
    have hgo : ((p :: rest).any (fun o => discarding (wgAt (partsNumbered s (p :: rest).length) o.wg))) = false := by
      rw [List.any_eq_false]
      exact fun o ho => by rw [Bool.not_eq_true]; exact (hfree o ho).1
    unfold issueCluster
    dsimp only
    rw [show (l.zipIdx.map (fun p => ({ p.1 with id := s.ids + p.2 } : MatOp))) = p :: rest from hps]
    dsimp only
    rw [if_neg (by rw [hsame]; exact Bool.false_ne_true)]
    split
    next e he => exact absurd (he.symm.trans hbad) (by simp)
    next =>
      split
      next hany => exact absurd (hany.symm.trans hgo) (by decide)
      next => rfl

theorem issueCluster_of_disagree {s : State} {l : List MatOp} {x y : MatOp} (hx : x ∈ l) (hy : y ∈ l) (h : partKey x ≠ partKey y) :
    issueCluster s l = (renumbered s.ids l).foldl partAborted (partsNumbered s (renumbered s.ids l).length) := by
  obtain ⟨a, ha⟩ := renumbered_of_mem (n := s.ids) hx
  obtain ⟨b, hb⟩ := renumbered_of_mem (n := s.ids) hy
  cases hps : renumbered s.ids l with
  | nil => rw [hps] at ha; simp at ha
  | cons p rest =>
    have hnot : (!rest.all (partsAgree p)) = true := by
      rw [Bool.not_eq_true', ← Bool.not_eq_true, List.all_eq_true]
      intro hall
      have hkey : ∀ z ∈ p :: rest, partKey z = partKey p := fun z hz => by
        obtain rfl | hz := List.mem_cons.1 hz
        · rfl
        · exact ((partsAgree_iff p z).1 (hall z hz)).symm
      rw [hps] at ha hb
      exact h ((hkey _ ha).trans (hkey _ hb).symm)
    unfold issueCluster
    dsimp only
    rw [show (l.zipIdx.map (fun p => ({ p.1 with id := s.ids + p.2 } : MatOp))) = p :: rest from hps]
    dsimp only
    rw [if_pos hnot]
    rfl

/-! The parts issue. -/

/-- An operation in the queue is a part as it was signed. -/
structure IsPart (z o : MatOp) : Prop where
  ins : z.ins = o.ins
  wg : z.wg = o.wg
  signers : z.signers = o.signers
  null : z.null = o.null
  aRows : z.aRows = o.aRows
  descA : z.descA = o.descA
  descB : z.descB = o.descB

theorem takenPart_ok {s : State} {o x : MatOp} (h : takenPart s o = .ok x) : ∃ r, x = { o with run := r } := by
  unfold takenPart at h
  split at h
  · exact ⟨o.run, (Except.ok.inj h).symm⟩
  · exact matCheck_ok h

theorem partPushed_cases (s t : State) (o : MatOp) : partPushed s t o = t ∨ ∃ r, partPushed s t o = pushOp t { o with run := r } := by
  unfold partPushed
  split
  next x h =>
    obtain ⟨r, rfl⟩ := takenPart_ok h
    exact .inr ⟨r, rfl⟩
  next => exact .inl rfl

theorem engages_partPushed (u : Bundle) (s t : State) (o : MatOp) : Engages u t (partPushed s t o) := by
  obtain h | ⟨r, h⟩ := partPushed_cases s t o <;> rw [h]
  · exact .refl t
  · exact engages_pushOp ..

theorem convOf_partPushed (s t : State) (o : MatOp) (w q k : Nat) : convOf (sqAt (partPushed s t o) w q) k = convOf (sqAt t w q) k := by
  obtain h | ⟨r, h⟩ := partPushed_cases s t o <;> rw [h]
  exact convOf_pushOp ..

theorem coreAt_partPushed_ne (s t : State) (o : MatOp) {d : Nat} (hd : d ≠ (wgAt t o.wg).core) : coreAt (partPushed s t o) d = coreAt t d := by
  obtain h | ⟨r, h⟩ := partPushed_cases s t o <;> rw [h]
  exact coreAt_pushOp_ne t { o with run := r } hd

theorem mat_partPushed_self {s t : State} {o : MatOp} (h : ∃ x, takenPart s o = .ok x) :
    ∃ z, (coreAt (partPushed s t o) (wgAt t o.wg).core).mat = (coreAt t (wgAt t o.wg).core).mat ++ [z] ∧ IsPart z o := by
  obtain ⟨x, hx⟩ := h
  obtain ⟨r, rfl⟩ := takenPart_ok hx
  obtain ⟨v, hv⟩ := mat_pushOp_self t { o with run := r }
  refine ⟨{ o with run := r, spoilt := v, prior := (wgAt t o.wg).runs }, ?_, ⟨rfl, rfl, rfl, rfl, rfl, rfl, rfl⟩⟩
  rw [partPushed, hx]
  exact hv

theorem engages_partClosed (u : Bundle) (t : State) (o : MatOp) : Engages u t (partClosed t o) := engages_setConv ..

theorem engages_partsNumbered (u : Bundle) (s : State) (n : Nat) : Engages u s (partsNumbered s n) := engages_of_wgs rfl rfl rfl rfl

/-- The parts of a cluster operation stand on cores of their own. -/
def ownCores (s : State) (l : List MatOp) : Prop := (l.map (fun o => (wgAt s o.wg).core)).Nodup

theorem nodup_renumbered {s : State} {l : List MatOp} (h : ownCores s l) (n : Nat) : (renumbered n l).Nodup :=
  .of_map (fun o => (wgAt s o.wg).core) (by rwa [map_renumbered (fun o => (wgAt s o.wg).core) (fun _ _ => rfl)])

theorem core_ne_of_ownCores {s : State} {l : List MatOp} (h : ownCores s l) {n : Nat} {x y : MatOp} (hx : x ∈ renumbered n l) (hy : y ∈ renumbered n l) (hne : x ≠ y) :
    (wgAt s x.wg).core ≠ (wgAt s y.wg).core := by
  have hmap : ((renumbered n l).map (fun o => (wgAt s o.wg).core)).Nodup := by rwa [map_renumbered (fun o => (wgAt s o.wg).core) (fun _ _ => rfl)]
  exact fun e => hne (List.inj_on_of_nodup_map hmap hx hy e)

section Parts

variable {s : State} {l : List MatOp} (hsq : ∀ o ∈ l, isSquad s o.wg o.sq) (hown : ownCores s l)

include hsq hown

/-- The last set of a cluster operation whose parts agree, and whose checks pass, issues on every core (R249). -/
theorem issueCluster_issues (u : Bundle) (hne : l ≠ []) (hagree : ∀ x ∈ l, ∀ y ∈ l, partKey x = partKey y)
    (hdiscard : ∀ o ∈ l, (wgAt s o.wg).discard = []) (htaken : ∀ o ∈ l, ∀ a, ∃ x, takenPart s { o with id := a } = .ok x) :
    Engages u s (issueCluster s l) ∧ ∀ o ∈ l, convOf (sqAt (issueCluster s l) o.wg o.sq) o.conv = (convOf (sqAt s o.wg o.sq) o.conv).aborted
      ∧ ∃ z, (coreAt (issueCluster s l) (wgAt s o.wg).core).mat = (coreAt s (wgAt s o.wg).core).mat ++ [z] ∧ IsPart z o := by
  rw [issueCluster_of_agree hne hagree hdiscard htaken]
  generalize hn : partsNumbered s (renumbered s.ids l).length = n
  have hnumbered : Engages u s n := hn ▸ engages_partsNumbered u s _
  have hclosed : Engages u n ((renumbered s.ids l).foldl partClosed n) := .foldl (engages_partClosed u) _ n
  refine ⟨(hnumbered.trans hclosed).trans (.foldl (engages_partPushed u n) _ _), fun o ho => ?_⟩
  obtain ⟨a, hin⟩ := renumbered_of_mem (n := s.ids) ho
  have hconv : ∀ t w q k, convOf (sqAt ((renumbered s.ids l).foldl (partPushed n) t) w q) k = convOf (sqAt t w q) k := fun t w q k =>
    foldl_keeps (fun t => convOf (sqAt t w q) k) _ (fun t o => convOf_partPushed n t o w q k) _ t
  constructor
  · rw [hconv]
    refine (closed_foldl closesPart_partClosed hin (t := n) ?_).trans ?_
    · exact hnumbered.there _ _ (hsq o ho)
    · rw [← hn]
      rfl
  · have hcores : ∀ d, coreAt ((renumbered s.ids l).foldl partClosed n) d = coreAt s d := fun d => by
      rw [foldl_keeps (coreAt · d) partClosed (fun _ _ => rfl), ← hn]
      rfl
    have htake : ∃ x, takenPart n { o with id := a } = .ok x := by
      rw [← hn, takenPart_partsNumbered]
      exact htaken o ho a
    refine (foldl_once (nodup_renumbered hown s.ids) hin
      (before := fun t => (∀ w, (wgAt t w).core = (wgAt s w).core) ∧ (coreAt t (wgAt s o.wg).core).mat = (coreAt s (wgAt s o.wg).core).mat)
      (after := fun t => (∀ w, (wgAt t w).core = (wgAt s w).core)
        ∧ ∃ z, (coreAt t (wgAt s o.wg).core).mat = (coreAt s (wgAt s o.wg).core).mat ++ [z] ∧ IsPart z o)
      (fun t j hj hjo ht => ⟨fun w => ((engages_partPushed u n t j).core w).trans (ht.1 w), ?_⟩)
      (fun t ht => ⟨fun w => ((engages_partPushed u n t _).core w).trans (ht.1 w), ?_⟩)
      (fun t j hj hjo ht => ⟨fun w => ((engages_partPushed u n t j).core w).trans (ht.1 w), ?_⟩) _ ⟨?_, ?_⟩).2
    · rw [coreAt_partPushed_ne n t j (by rw [ht.1]; exact (core_ne_of_ownCores hown hj hin hjo).symm)]
      exact ht.2
    · obtain ⟨z, hz, hpart⟩ := mat_partPushed_self (t := t) htake
      refine ⟨z, ?_, { hpart with }⟩
      rw [ht.1] at hz
      rw [hz, ht.2]
    · rw [coreAt_partPushed_ne n t j (by rw [ht.1]; exact (core_ne_of_ownCores hown hj hin hjo).symm)]
      exact ht.2
    · exact (hnumbered.trans hclosed).core
    · rw [hcores]

/-- The last set of a cluster operation whose parts do not agree aborts it on every core, with a record (R239, R249). -/
theorem issueCluster_aborts (u : Bundle) {x y : MatOp} (hx : x ∈ l) (hy : y ∈ l) (hkey : partKey x ≠ partKey y) :
    Engages u s (issueCluster s l) ∧ (∀ d, coreAt (issueCluster s l) d = coreAt s d)
      ∧ ∀ o ∈ l, convOf (sqAt (issueCluster s l) o.wg o.sq) o.conv = (convOf (sqAt s o.wg o.sq) o.conv).aborted
        ∧ ((convOf (sqAt s o.wg o.sq) o.conv).signed ≠ [] → (convOf (sqAt s o.wg o.sq) o.conv).open_ ≠ none → hasRecord (issueCluster s l) 0x08 1) := by
  rw [issueCluster_of_disagree hx hy hkey]
  generalize hn : partsNumbered s (renumbered s.ids l).length = n
  have hnumbered : Engages u s n := hn ▸ engages_partsNumbered u s _
  refine ⟨hnumbered.trans (.foldl (engages_partAborted u) _ n), fun d => ?_, fun o ho => ?_⟩
  · rw [foldl_keeps (coreAt · d) partAborted (fun t o => by rw [coreAt, cores_partAborted, coreAt]), ← hn]
    rfl
  · obtain ⟨a, hin⟩ := renumbered_of_mem (n := s.ids) ho
    have hthere := hnumbered.there _ _ (hsq o ho)
    have hsame : convOf (sqAt n o.wg o.sq) o.conv = convOf (sqAt s o.wg o.sq) o.conv := by
      rw [← hn]
      rfl
    refine ⟨(closed_foldl closesPart_partAborted hin (t := n) hthere).trans (congrArg Conv.aborted hsame), fun hsigned hopen => ?_⟩
    refine foldl_once (nodup_renumbered hown s.ids) hin
      (before := fun t => (isSquad t o.wg o.sq) ∧ convOf (sqAt t o.wg o.sq) o.conv = convOf (sqAt s o.wg o.sq) o.conv)
      (after := fun t => hasRecord t 0x08 1) (fun t j hj hjo ht => ⟨isSquad_partAborted j ht.1, ?_⟩) (fun t ht => ?_) (fun t j _ _ ht => ?_) n ⟨hthere, hsame⟩
    · have hwg : o.wg ≠ j.wg := fun e => core_ne_of_ownCores hown hj hin hjo (by rw [← e])
      rw [sqAt_partAborted_ne t j (.inl hwg)]
      exact ht.2
    · exact hasRecord_abortConv (by decide) (by rw [ht.2]; exact hsigned) (by rw [ht.2]; exact hopen)
    · obtain ⟨r, hr, hcode⟩ := ht
      exact ⟨r, (releases_abortConv t j.wg j.sq j.conv 1).records r hr, hcode⟩

end Parts

end Sys2Proof.Machine
end

section
/-! PROOF. Matrix signatures and issue: the last set of a cluster operation, and the obligation (R96, R232, R238 to R240, R249, R252). -/

namespace Sys2Proof.Machine

section Completes

variable {s : State} {u : Bundle} {k : BitVec 3} {i : Instr}

/-- The part of a core, as its signatures stand for it. -/
def ownSigned (s : State) (u : Bundle) (k : BitVec 3) (i : Instr) : MatOp :=
  opOf s u.wg u.sq k.toNat (signedConv s u k i) (firstOf (signedConv s u k i) u i).1 (firstOf (signedConv s u k i) u i).2 s.ids none

/-- The place where a cluster keeps the parts of a register's operation. -/
def partsKey (s : State) (u : Bundle) (k : BitVec 3) : Nat := (wgAt s u.wg).core / 4 * 4 + k.toNat

/-- What stands before the last set of a cluster operation is complete. -/
def readyOn (s : State) (u : Bundle) (k : BitVec 3) (i : Instr) : State :=
  { waitingOn s u k.toNat (signedConv s u k i) (firstOf (signedConv s u k i) u i).1 with xc := Map.del s.xc (partsKey s u k) }

/-- The parts of a cluster operation with the last one, in the order of their cores. -/
def allParts (s : State) (u : Bundle) (k : BitVec 3) (i : Instr) (ps : List (Nat × MatOp)) (cl : Option Nat) : List MatOp :=
  (sortBy (fun p => [p.1]) (ps ++ [((wgAt s u.wg).core % 4, { ownSigned s u k i with cluster := cl })])).map (fun p => p.2)

theorem mem_allParts {ps : List (Nat × MatOp)} {cl : Option Nat} {o : MatOp} :
    o ∈ allParts s u k i ps cl ↔ o ∈ ps.map Prod.snd ∨ o = { ownSigned s u k i with cluster := cl } := by
  rw [allParts, ((sortBy_perm _ _).map _).mem_iff, List.map_append, List.mem_append]
  simp

theorem allParts_of_mem {ps : List (Nat × MatOp)} (cl : Option Nat) {o : MatOp} (ho : o ∈ ownSigned s u k i :: ps.map Prod.snd) :
    ∃ c, { o with cluster := c } ∈ allParts s u k i ps cl := by
  obtain rfl | ho := List.mem_cons.1 ho
  · exact ⟨cl, mem_allParts.2 (.inr rfl)⟩
  · exact ⟨o.cluster, mem_allParts.2 (.inl ho)⟩

theorem mem_of_allParts {ps : List (Nat × MatOp)} {cl : Option Nat} {o : MatOp} (ho : o ∈ allParts s u k i ps cl) :
    ∃ x ∈ ownSigned s u k i :: ps.map Prod.snd, ∃ c, o = { x with cluster := c } := by
  obtain ho | rfl := mem_allParts.1 ho
  · exact ⟨o, List.mem_cons_of_mem _ ho, o.cluster, rfl⟩
  · exact ⟨_, List.mem_cons_self, cl, rfl⟩

/-! What is ready. -/

theorem fates_readyOn (s : State) (u : Bundle) (k : BitVec 3) (i : Instr) : keepsFates (signedOn s u) (readyOn s u k i) u :=
  (engages_waitingOn s u k.toNat _ _).fates.trans (keepsFates_of_wgs rfl u (fun _ h => h))

theorem mem_readyOn (s : State) (u : Bundle) (k : BitVec 3) (i : Instr) : (readyOn s u k i).mem = s.mem :=
  (engages_waitingOn s u k.toNat (signedConv s u k i) (firstOf (signedConv s u k i) u i).1).mem.trans (mem_of_still (still_signedOn s u))

theorem sameFrame_readyOn (s : State) (u : Bundle) (k : BitVec 3) (i : Instr) : SameFrame s (readyOn s u k i) :=
  (sameFrame_waitingOn s u k.toNat _ _).trans (sameFrame_of_wgs rfl rfl)

theorem isSquad_readyOn {w q : Nat} (h : isSquad s w q) : isSquad (readyOn s u k i) w q :=
  (engages_waitingOn s u k.toNat (signedConv s u k i) (firstOf (signedConv s u k i) u i).1).there w q (isSquad_of_still (still_signedOn s u).symm h)

theorem coreAt_readyOn (d : Nat) : coreAt (readyOn s u k i) d = coreAt s d :=
  coreAt_waitingOn s u k.toNat (signedConv s u k i) (firstOf (signedConv s u k i) u i).1 d

theorem convOf_readyOn_self (h : Issuing s u) : convOf (sqAt (readyOn s u k i) u.wg u.sq) k.toNat = { signedConv s u k i with st := 3 } :=
  convOf_waitingOn_self h k.toNat _ _

theorem convOf_readyOn_ne {w : Nat} (hw : w ≠ u.wg) (q j : Nat) : convOf (sqAt (readyOn s u k i) w q) j = convOf (sqAt s w q) j := by
  have hmarked := view_marked (fun q => convOf q j) (fun _ _ => rfl) (fun _ => rfl) s u (signedConv s u k i) (firstOf (signedConv s u k i) u i).1 w q
  refine Eq.trans (congrArg (fun q => convOf q j) ?_) hmarked
  exact sqAt_modSq_ne _ _ _ _ _ _ (.inl hw)

/-- A register that a bundle with a guard-true thread has signed has signers, and an instruction that they signed. -/
theorem signedConv_open (hmask : activeMask s u ≠ 0) : (signedConv s u k i).signed ≠ [] ∧ (signedConv s u k i).open_ ≠ none := by
  obtain ⟨l, hlt, hl⟩ := exists_inMask_of_ne_zero hmask
  have hmem : u.e.lb * 32 + l ∈ threadsOf u u.e.mask := List.mem_map_of_mem (f := fun l => u.e.lb * 32 + l) ((mem_lanesOf _ l).2 ⟨hlt, inMask_of_active hl⟩)
  constructor
  · exact List.ne_nil_of_mem (List.mem_append_right _ hmem)
  · show (convAt s u k).open_.or (some (i, u.e.place)) ≠ none
    cases (convAt s u k).open_ <;> simp

section Last

variable (hi : signsAs i k true) (h : Issuing s u) (hm : maySign s u k i true)
  (hlast : (convAt s u k).signed.length + (lanesOf u.e.mask).length = (convAt s u k).count) {ps : List (Nat × MatOp)}
  (hps : Map.getD s.xc (partsKey s u k) [] = ps) (hlen : ps.length = 3) (hnodup : ((wgAt s u.wg).core % 4 :: ps.map Prod.fst).Nodup)
  (hthere : ∀ p ∈ ps, p.1 < 4 ∧ isSquad s p.2.wg p.2.sq ∧ (wgAt s p.2.wg).core = (wgAt s u.wg).core / 4 * 4 + p.1)

include hi h hm hlast hps hlen hnodup in
theorem exec_signs_complete : ∃ cl, exec i s = .next (issueCluster (readyOn s u k i) (allParts s u k i ps cl)) := by
  have hcore : (wgAt (signedOn s u) u.wg).core = (wgAt s u.wg).core := (sameFrame_of_still (still_signedOn s u)).view Wg.core (fun _ => rfl) u.wg
  have hothers : otherParts (signedOn s u) (wgAt s u.wg).core k.toNat = ps :=
    otherParts_signedOn hps (fun p hp e => (List.nodup_cons.1 hnodup).1 (e ▸ List.mem_map_of_mem hp))
  obtain ⟨cl, hpart⟩ := ownPart_signedOn (s := s) (u := u) (wgAt s u.wg).core k.toNat (signedConv s u k i) (firstOf (signedConv s u k i) u i)
  have hxc : (signedOn s u).xc = s.xc := by
    have h := congrArg State.xc (still_signedOn s u)
    exact h
  refine ⟨cl, ?_⟩
  rw [opOf_clustered] at hpart
  rw [exec_signs_last hi h hm hlast, hcore, if_pos rfl, partJoined]
  rw [hothers, hpart, if_neg (by rw [List.length_append, List.length_singleton, hlen]; decide), readyOn, ← hxc]
  rfl

include h in
theorem aborted_readyOn {o : MatOp} (ho : o.wg ≠ u.wg ∨ (o.wg = u.wg ∧ o.sq = u.sq ∧ o.conv = k.toNat)) :
    (convOf (sqAt (readyOn s u k i) o.wg o.sq) o.conv).aborted = (convOf (sqAt s o.wg o.sq) o.conv).aborted
      ∧ countOf (readyOn s u k i) o = countOf s o := by
  obtain hw | ⟨hw, hq, hk⟩ := ho
  · rw [countOf, convOf_readyOn_ne hw]
    exact ⟨rfl, rfl⟩
  · rw [countOf, countOf, hw, hq, hk, convOf_readyOn_self h]
    exact ⟨rfl, rfl⟩

theorem ownSigned_names : (ownSigned s u k i).wg = u.wg ∧ (ownSigned s u k i).sq = u.sq ∧ (ownSigned s u k i).conv = k.toNat := by
  obtain ⟨hwg, hsq, hconv, -⟩ := opOf_names s u.wg u.sq k.toNat (signedConv s u k i) (firstOf (signedConv s u k i) u i).1
    (firstOf (signedConv s u k i) u i).2 s.ids none
  exact ⟨hwg, hsq, hconv⟩

include hnodup hthere in
/-- The parts of other cores are of other workgroups. -/
theorem wg_ne_of_part {o : MatOp} (ho : o ∈ ps.map Prod.snd) : o.wg ≠ u.wg := by
  obtain ⟨p, hp, rfl⟩ := List.mem_map.1 ho
  obtain ⟨-, -, hcore⟩ := hthere p hp
  intro e
  rw [e] at hcore
  have hne : p.1 ≠ (wgAt s u.wg).core % 4 := fun e => (List.nodup_cons.1 hnodup).1 (e ▸ List.mem_map_of_mem hp)
  omega

include hnodup hthere in
theorem placed_of_mem {cl : Option Nat} {o : MatOp} (ho : o ∈ allParts s u k i ps cl) : o.wg ≠ u.wg ∨ (o.wg = u.wg ∧ o.sq = u.sq ∧ o.conv = k.toNat) := by
  obtain ho | rfl := mem_allParts.1 ho
  · exact .inl (wg_ne_of_part hnodup hthere ho)
  · exact .inr ownSigned_names

include h hthere in
theorem isSquad_of_mem {cl : Option Nat} {o : MatOp} (ho : o ∈ allParts s u k i ps cl) : isSquad (readyOn s u k i) o.wg o.sq := by
  refine isSquad_readyOn ?_
  obtain ho | rfl := mem_allParts.1 ho
  · obtain ⟨p, hp, rfl⟩ := List.mem_map.1 ho
    exact (hthere p hp).2.1
  · obtain ⟨hwg, hsq, -⟩ := ownSigned_names (s := s) (u := u) (k := k) (i := i)
    show isSquad s (ownSigned s u k i).wg (ownSigned s u k i).sq
    rw [hwg, hsq]
    exact h.present

include hnodup hthere in
theorem ownCores_allParts (cl : Option Nat) : ownCores (readyOn s u k i) (allParts s u k i ps cl) := by
  obtain ⟨hwg, -, -⟩ := ownSigned_names (s := s) (u := u) (k := k) (i := i)
  have hcores : ((ps ++ [((wgAt s u.wg).core % 4, { ownSigned s u k i with cluster := cl })]).map (fun p : Nat × MatOp => p.2)).map
        (fun o : MatOp => (wgAt (readyOn s u k i) o.wg).core)
      = ((ps ++ [((wgAt s u.wg).core % 4, { ownSigned s u k i with cluster := cl })]).map Prod.fst).map (fun n : Nat => (wgAt s u.wg).core / 4 * 4 + n) := by
    rw [List.map_map, List.map_map]
    refine List.map_congr_left (fun p hp => ?_)
    show (wgAt (readyOn s u k i) p.2.wg).core = (wgAt s u.wg).core / 4 * 4 + p.1
    rw [(sameFrame_readyOn s u k i).view Wg.core (fun _ => rfl)]
    obtain hp | hp := List.mem_append.1 hp
    · exact (hthere p hp).2.2
    · rw [List.mem_singleton.1 hp]
      show (wgAt s (ownSigned s u k i).wg).core = (wgAt s u.wg).core / 4 * 4 + (wgAt s u.wg).core % 4
      rw [hwg]
      omega
  refine (((sortBy_perm _ _).map _).map _).nodup_iff.2 ?_
  rw [hcores]
  refine List.Nodup.map (fun a b e => by simpa using e) ?_
  rw [List.map_append]
  exact (List.perm_append_comm.nodup_iff).2 hnodup

include h hnodup hthere in
/-- A part that passes its checks as the machine stands before the issue passes them when all have signed. -/
theorem takenPart_readyOn {x : MatOp} (hx : x ∈ ownSigned s u k i :: ps.map Prod.snd)
    (hcheck : x.null = true ∨ ∃ y, matCheck s x (countOf s x) = .ok y) (c : Option Nat) (a : Nat) :
    ∃ y, takenPart (readyOn s u k i) { x with cluster := c, id := a } = .ok y := by
  by_cases hnull : x.null = true
  · exact ⟨_, if_pos hnull⟩
  · obtain ⟨y, hy⟩ := hcheck.resolve_left hnull
    have hplace : x.wg ≠ u.wg ∨ (x.wg = u.wg ∧ x.sq = u.sq ∧ x.conv = k.toNat) := by
      obtain rfl | hx := List.mem_cons.1 hx
      · exact .inr ownSigned_names
      · exact .inl (wg_ne_of_part hnodup hthere hx)
    have hcount : countOf (readyOn s u k i) { x with cluster := c, id := a } = countOf s x := (aborted_readyOn (i := i) h hplace).2
    obtain ⟨z, hz⟩ := matCheck_renumbered hy a c
    refine ⟨z, ?_⟩
    rw [takenPart, if_neg hnull, hcount, matCheck_congr (sameFrame_readyOn s u k i)]
    exact hz

include hi h hm hlast hps hlen hnodup hthere in
/-- The last set of a cluster operation whose parts agree issues it on every core of the cluster (R96, R249). -/
theorem clusterForm_issues (hall : ∀ o ∈ ownSigned s u k i :: ps.map Prod.snd, (wgAt s o.wg).discard = [] ∧ partsAgree (ownSigned s u k i) o = true
      ∧ (o.null = true ∨ ∃ x, matCheck s o (countOf s o) = .ok x)) :
    ∃ t, exec i s = .next t ∧ Map.find t.xc (partsKey s u k) = none ∧ (∀ z, Memory.read t.mem z = Memory.read s.mem z)
      ∧ (∀ o ∈ ownSigned s u k i :: ps.map Prod.snd, convOf (sqAt t o.wg o.sq) o.conv = (convOf (sqAt s o.wg o.sq) o.conv).aborted
        ∧ ∃ z, (coreAt t (wgAt s o.wg).core).mat = (coreAt s (wgAt s o.wg).core).mat ++ [z] ∧ IsPart z o)
      ∧ ∀ l, l < 32 → inMask u.e.mask l = true → met t u l (.on u.next) := by
  obtain ⟨cl, hexec⟩ := exec_signs_complete hi h hm hlast hps hlen hnodup
  have hkey : ∀ o ∈ allParts s u k i ps cl, partKey o = partKey (ownSigned s u k i) := fun o ho => by
    obtain ⟨x, hx, c, rfl⟩ := mem_of_allParts ho
    exact ((partsAgree_iff _ _).1 (hall x hx).2.1).symm
  obtain ⟨hengages, hparts⟩ := issueCluster_issues (fun o ho => isSquad_of_mem h hthere ho) (ownCores_allParts hnodup hthere cl) u
    (List.ne_nil_of_mem (mem_allParts.2 (.inr rfl))) (fun x hx y hy => (hkey x hx).trans (hkey y hy).symm)
    (fun o ho => by
      obtain ⟨x, hx, c, rfl⟩ := mem_of_allParts ho
      exact ((sameFrame_readyOn s u k i).view Wg.discard (fun _ => rfl) x.wg).trans (hall x hx).1)
    (fun o ho a => by
      obtain ⟨x, hx, c, rfl⟩ := mem_of_allParts ho
      exact takenPart_readyOn h hnodup hthere hx (hall x hx).2.2 c a)
  refine ⟨_, hexec, ?_, fun z => ?_, fun o ho => ?_, fun l _ hl => hengages.fates l _ (fates_readyOn s u k i l _ (signedOn_met h hl))⟩
  · rw [hengages.xc]
    exact (Map.find_del _ _ _).trans (if_pos rfl)
  · rw [hengages.mem, mem_readyOn]
  · obtain ⟨c, hin⟩ := allParts_of_mem cl ho
    obtain ⟨hclosed, z, hz, hpart⟩ := hparts _ hin
    have hcore := (sameFrame_readyOn s u k i).view Wg.core (fun _ => rfl) o.wg
    refine ⟨hclosed.trans (aborted_readyOn h (placed_of_mem hnodup hthere hin)).1, z, ?_, { hpart with }⟩
    rw [coreAt_readyOn, hcore] at hz
    exact hz

include hi h hm hlast hps hlen hnodup hthere in
/-- The last set of a cluster operation whose parts do not agree aborts it on every core of the cluster (R239, R249). -/
theorem clusterForm_aborts (hmask : activeMask s u ≠ 0) (hbad : ∃ o ∈ ps.map Prod.snd, partsAgree (ownSigned s u k i) o = false) :
    ∃ t, exec i s = .next t ∧ Map.find t.xc (partsKey s u k) = none ∧ (∀ z, Memory.read t.mem z = Memory.read s.mem z)
      ∧ (∀ o ∈ ownSigned s u k i :: ps.map Prod.snd, convOf (sqAt t o.wg o.sq) o.conv = (convOf (sqAt s o.wg o.sq) o.conv).aborted)
      ∧ (∀ d, (coreAt t d).mat = (coreAt s d).mat) ∧ hasRecord t 0x08 1 := by
  obtain ⟨cl, hexec⟩ := exec_signs_complete hi h hm hlast hps hlen hnodup
  obtain ⟨y, hy, hne⟩ := hbad
  have hown : { ownSigned s u k i with cluster := cl } ∈ allParts s u k i ps cl := mem_allParts.2 (.inr rfl)
  have hkey : partKey { ownSigned s u k i with cluster := cl } ≠ partKey y := fun e => by
    rw [(partsAgree_iff (ownSigned s u k i) y).2 e] at hne
    cases hne
  obtain ⟨hengages, hcores, hparts⟩ := issueCluster_aborts (fun o ho => isSquad_of_mem h hthere ho) (ownCores_allParts hnodup hthere cl) u
    hown (mem_allParts.2 (.inl hy)) hkey
  refine ⟨_, hexec, ?_, fun z => ?_, fun o ho => ?_, fun d => ?_, ?_⟩
  · rw [hengages.xc]
    exact (Map.find_del _ _ _).trans (if_pos rfl)
  · rw [hengages.mem, mem_readyOn]
  · obtain ⟨c, hin⟩ := allParts_of_mem cl ho
    exact (hparts _ hin).1.trans (aborted_readyOn h (placed_of_mem hnodup hthere hin)).1
  · rw [hcores, coreAt_readyOn]
  · obtain ⟨hwg, hsq, hconv⟩ := ownSigned_names (s := s) (u := u) (k := k) (i := i)
    have hrecord := (hparts _ hown).2
    dsimp only at hrecord
    rw [hwg, hsq, hconv, convOf_readyOn_self h] at hrecord
    obtain ⟨hsigned, hopen⟩ := signedConv_open (k := k) (i := i) hmask
    exact hrecord hsigned hopen

end Last

end Completes

/-! The obligation. -/

theorem signsAs_coreForms {k : BitVec 3} {x : BitVec 1} {a : BitVec 6} {y : BitVec 1} {b : BitVec 6} {r t n : BitVec 5} (ha : x = 1 → a.toNat % 2 = 0)
    (hb : y = 1 → b.toNat % 2 = 0) {i : Instr} (hi : i ∈ [Instr.mma k x a y b r, .mmz k x a y b r, .mmp k x a y b r, .accClr k n r, .accCp k t n r]) :
    signsAs i k false := by
  have hforms : (i, false) ∈ signedForms k x a y b r ∨ i ∈ [Instr.accClr k n r, .accCp k t n r] := by
    simp only [List.mem_cons, List.not_mem_nil, or_false] at hi
    obtain rfl | rfl | rfl | rfl | rfl := hi <;> simp [signedForms]
  exact hforms.elim (signsAs_signed ha hb) signsAs_acc

theorem signsAs_clusterForms {k : BitVec 3} {x : BitVec 1} {a : BitVec 6} {y : BitVec 1} {b : BitVec 6} {r : BitVec 5} (ha : x = 1 → a.toNat % 2 = 0)
    (hb : y = 1 → b.toNat % 2 = 0) {i : Instr} (hi : i ∈ [Instr.mmaCl k x a y b r, .mmzCl k x a y b r, .mmpCl k x a y b r]) : signsAs i k true := by
  refine signsAs_signed ha hb (r := r) (p := (i, true)) ?_
  simp only [List.mem_cons, List.not_mem_nil, or_false] at hi
  obtain rfl | rfl | rfl := hi <;> simp [signedForms]

/-- Settles O30: an incomplete set of signatures joins the open operation, the last one of a core form issues it, the last one on a core of a cluster form
leaves it to the other cores, and the last one of the cluster issues its parts where they agree and aborts them where they do not. -/
theorem matrixSigning : Obligations.MatrixSigning := by
  unfold Obligations.MatrixSigning
  refine ⟨⟨fun k x a y b r ha hb p hp => signs_alone (signsAs_signed ha hb hp), fun k t n r i hi => signs_alone (signsAs_acc hi)⟩,
    fun k x a y b r t n ha hb i hi s u o h hm hlast hd hfull hcheck => coreForm_issues (signsAs_coreForms ha hb hi) h hm hlast hd hfull hcheck,
    fun k x a y b r ha hb i hi s u h hm hlast ps hps hlen hother => clusterForm_waits (signsAs_clusterForms ha hb hi) h hm hlast hps hlen hother,
    fun k x a y b r ha hb i hi s u h hm hlast hmask ps hps hlen hnodup hthere => ⟨fun hall => ?_, fun hbad => ?_⟩⟩
  · obtain ⟨t, hexec, hxc, hmem, hparts, hmet⟩ := clusterForm_issues (signsAs_clusterForms ha hb hi) h hm hlast hps hlen hnodup hthere hall
    refine ⟨t, hexec, hxc, hmem, fun o ho => ?_, hmet⟩
    obtain ⟨hclosed, z, hmat, hpart⟩ := hparts o ho
    exact ⟨hclosed, z, hmat, hpart.ins, hpart.wg, hpart.signers, hpart.null, hpart.aRows, hpart.descA, hpart.descB⟩
  · exact clusterForm_aborts (signsAs_clusterForms ha hb hi) h hm hlast hps hlen hnodup hthere hmask hbad

end Sys2Proof.Machine
end
